-- ==== Sys2Proof/Word.lean ====
section
/-! DEFINITION. The word types of the T8 (00 R3, R4). -/

namespace Sys2Proof

/-- One byte of memory. -/
abbrev Byte := BitVec 8

/-- One 32-bit register, or one 4-byte word (05 R131). -/
abbrev W32 := BitVec 32

/-- One 64-bit register pair, address or instruction word (00 R3). -/
abbrev W64 := BitVec 64

end Sys2Proof
end

