-- ==== Sys2Proof/Syntax.lean ====
section
/-! DEFINITION. The instruction words and the events of the T8: one constructor for each row of
spec/opcode_table.json, in the table's order. Words carry the fields of their format (02 R35, R36). -/

namespace Sys2Proof

/-- Bits [63:52] of every word (02 R35): delay, yield, flag select, hint, second and first guard. -/
structure Sched where
  dl : BitVec 2
  yh : BitVec 1
  fs : BitVec 1
  h  : BitVec 2
  g1 : BitVec 3
  g0 : BitVec 3
  deriving DecidableEq, Repr

/-- A source register field with its crossbar code (02 R40, R43). -/
structure Src where
  xb  : BitVec 3
  reg : BitVec 7
  deriving DecidableEq, Repr

/-- A V-format word (02 R36). -/
structure VWord where
  sched : Sched
  e : BitVec 7
  c : Src
  b : Src
  a : Src
  d : BitVec 7
  deriving DecidableEq, Repr

/-- An I-format word (02 R36): a 27-bit immediate. -/
structure IWord where
  sched : Sched
  imm : BitVec 27
  a : Src
  d : BitVec 7
  deriving DecidableEq, Repr

/-- An M-format word (02 R36, R37): a 17-bit offset and a size or scope code. -/
structure MWord where
  sched : Sched
  off  : BitVec 17
  size : BitVec 3
  b : BitVec 7
  a : Src
  d : BitVec 7
  deriving DecidableEq, Repr

/-- A K-format word (02 R36, R39): a 27-bit count of 8-byte units. -/
structure KWord where
  sched : Sched
  off : BitVec 27
  a : Src
  d : BitVec 7
  deriving DecidableEq, Repr

/-- The kind of access a scale-up peer makes to this device (18 R479). -/
inductive PeerAccess where
  | read
  | write
  | atomicAdd
  deriving DecidableEq, Repr

/-- The rows of spec/opcode_table.json. Words of the opcode map carry a format record. Events carry
the numbers of the parties they concern: a group, an operation, a core, a block, a queue, a launch. -/
inductive Instr where
  /-- R102 -/
  | clauseStart (core islot : Nat)
  /-- R48 -/
  | issueDelayExpiry (g : Nat)
  /-- R27 -/
  | flagStallResume (g : Nat)
  /-- R24 -/
  | blockedWordResume (g : Nat)
  /-- R26 -/
  | longLatencyCompletion (op : Nat)
  /-- R33 -/
  | lateFaultDelivery (g : Nat)
  /-- R54: the other 56 bits are not checked; `high` tells opcode 0xFF from 0x00. -/
  | ill (high : Bool) (rest : BitVec 56)
  | nop (w : VWord)
  | bra (w : KWord)
  | brx (w : VWord)
  | call (w : KWord)
  | callx (w : VWord)
  | ret (w : VWord)
  | exit (w : VWord)
  | meet (w : KWord)
  | meetx (w : VWord)
  | meetclr (w : VWord)
  | yield (w : VWord)
  | qhelp (w : VWord)
  | succ (w : KWord)
  | succx (w : VWord)
  | refill (w : VWord)
  | bars (w : VWord)
  | bara (w : VWord)
  | barw (w : VWord)
  | trap (w : IWord)
  | bkpt (w : IWord)
  | iadd (w : VWord)
  | isub (w : VWord)
  | iaddi (w : IWord)
  | imul (w : VWord)
  | imulh (w : VWord)
  | imad (w : VWord)
  | idiv (w : VWord)
  | irem (w : VWord)
  | imin (w : VWord)
  | imax (w : VWord)
  | iabs (w : VWord)
  | ineg (w : VWord)
  | iadds (w : VWord)
  | isubs (w : VWord)
  | iavg (w : VWord)
  | icmp (w : VWord)
  | and (w : VWord)
  | or (w : VWord)
  | xor (w : VWord)
  | not (w : VWord)
  | andn (w : VWord)
  | orn (w : VWord)
  | shl (w : VWord)
  | shr (w : VWord)
  | sar (w : VWord)
  | rot (w : VWord)
  | fshf (w : VWord)
  | clz (w : VWord)
  | ffs (w : VWord)
  | popc (w : VWord)
  | brev (w : VWord)
  | bfx (w : VWord)
  | bfi (w : VWord)
  | sel (w : VWord)
  | mov (w : VWord)
  | movi (w : IWord)
  | movhi (w : IWord)
  | lea (w : VWord)
  | iext (w : VWord)
  | iextWide (w : VWord)
  | pack (w : VWord)
  | unpk (w : VWord)
  | bytep (w : VWord)
  | idot4 (w : VWord)
  | idot2 (w : VWord)
  | shli (w : IWord)
  | shri (w : IWord)
  | sari (w : IWord)
  | fadd (w : VWord)
  | fsub (w : VWord)
  | fmul (w : VWord)
  | fma (w : VWord)
  | fmin (w : VWord)
  | fmax (w : VWord)
  | fabs (w : VWord)
  | fneg (w : VWord)
  | fcmp (w : VWord)
  | frcp (w : VWord)
  | frsq (w : VWord)
  | fsqrt (w : VWord)
  | fdiv (w : VWord)
  | fexp2 (w : VWord)
  | flog2 (w : VWord)
  | fsin (w : VWord)
  | fcos (w : VWord)
  | ftanh (w : VWord)
  | fclass (w : VWord)
  | frnd (w : VWord)
  | cvtf (w : VWord)
  | cvtfWide (w : VWord)
  | cvti (w : VWord)
  | icvtf (w : VWord)
  | scacc (w : VWord)
  | scalex (w : VWord)
  | bfppackScale (w : VWord)
  | bfppack (w : VWord)
  | bfpunpk (w : VWord)
  | fdot2 (w : VWord)
  | fdot4 (w : VWord)
  | lanesel (w : VWord)
  | qswap (w : VWord)
  | qbcast (w : VWord)
  | vote (w : VWord)
  | red (w : VWord)
  | scanx (w : VWord)
  | matchLanes (w : VWord)
  | elect (w : VWord)
  | rclaim (w : IWord)
  | rgive (w : IWord)
  | rtry (w : IWord)
  | rcount (w : VWord)
  | ld (w : MWord)
  | st (w : MWord)
  | ldt (w : VWord)
  /-- R262 -/
  | ldtCompletion (op : Nat)
  /-- R263 -/
  | ldtHoldExpiry (cluster page : Nat)
  | atom (w : VWord)
  | atomcas (w : VWord)
  | redm (w : VWord)
  | stmc (w : VWord)
  | strd (w : VWord)
  | pref (w : MWord)
  | ldacq (w : MWord)
  | strel (w : MWord)
  /-- R306: the acquirer's core, the cell's physical line, the scope. -/
  | remotePromotionRequest (acquirer cell scope : Nat)
  | fence (w : VWord)
  | sigclr (w : VWord)
  | walk (w : VWord)
  /-- R283 -/
  | shelfReaderLine (op : Nat)
  /-- R284 -/
  | walkCompletion (op : Nat)
  | cinv (w : VWord)
  | wait (w : VWord)
  /-- R199 -/
  | waitConditionMet (g : Nat)
  /-- R199 -/
  | waitTimeout (g : Nat)
  | flagrd (w : VWord)
  | flagrdCnt (w : VWord)
  | boinit (w : VWord)
  | boarr (w : VWord)
  | boread (w : VWord)
  | time (w : VWord)
  | cycle (w : VWord)
  | cpy (w : VWord)
  | cpymc (w : VWord)
  /-- R224: a unit of operation `op`, by its place in the copy's list of units. -/
  | copyUnitWrite (op unit : Nat)
  /-- R224 -/
  | copyCompletion (op : Nat)
  /-- R226 -/
  | copyDrainExpiry (op : Nat)
  /-- R213 -/
  | rltStallResume (g : Nat)
  /-- R215 -/
  | rangeLockConflictStart (op : Nat)
  | cbres (w : VWord)
  | cbcommit (w : VWord)
  | cbacq (w : VWord)
  | cbrel (w : VWord)
  | cbinit (w : VWord)
  | lkqPush (w : VWord)
  | lkqLen (w : VWord)
  | cpyq (w : VWord)
  /-- R235 -/
  | cpyqCompletion (op : Nat)
  | tcfgw (w : VWord)
  | tcfgr (w : VWord)
  | tload (w : VWord)
  | tstore (w : VWord)
  | tzero (w : VWord)
  | tzeroM (w : VWord)
  | mma (w : VWord)
  | mmas (w : VWord)
  | mmbfp (w : VWord)
  /-- R337 -/
  | engineRoundDeferredIssue (block cv : Nat)
  /-- R327: the oldest operation of the core's engine queue finishes. -/
  | engineOpCompletion (core : Nat)
  | accrd (w : VWord)
  | accwr (w : VWord)
  | tokgive (w : VWord)
  | toktake (w : VWord)
  /-- R340 -/
  | toktakeCompletion (op : Nat)
  | cvdecl (w : VWord)
  | cvq (w : VWord)
  /-- R321: the two comparators' readings in °C. -/
  | twinComparatorReading (core t0 t1 : Nat)
  /-- R322 -/
  | twinSwapComplete (core : Nat)
  | capq (w : IWord)
  | sread (w : IWord)
  | swrite (w : IWord)
  | eret (w : VWord)
  | pmack (w : VWord)
  | leaseq (w : VWord)
  | boost (w : VWord)
  | boostQuery (w : VWord)
  | boostRelease (w : VWord)
  | pricls (w : IWord)
  | fevq (w : VWord)
  | tlbinv (w : VWord)
  | tlbinvAsid (w : VWord)
  /-- R252 -/
  | tlbinvCompletion (op : Nat)
  | hcall (w : IWord)
  /-- R247 -/
  | pageWalkCompletion (walk : Nat)
  /-- R275: a request of `core` for bytes of a physical line. -/
  | directoryRequest (core pline : Nat) (write : Bool) (bytes : BitVec 128)
  /-- R280: a host write to bytes of a 64-byte sector of host memory. -/
  | hostCxlCacheWrite (sector : Nat) (mask : BitVec 64) (data : BitVec 512)
  /-- R288: a host read or write of bytes of a line of device memory, a write with or without the poison indication. -/
  | hostCxlMemAccess (pline : Nat) (write poison : Bool) (mask : BitVec 128) (data : BitVec 1024)
  /-- R271: a cache chiplet retires 1 MiB. -/
  | llcCapacityRetirement (cacheChip : Nat)
  /-- R287: the next page move of a launch. -/
  | pageHomeMove (launch : Nat)
  /-- R358, the mailbox record at the head. -/
  | createSet
  | setCreateComplete
  | deleteSet
  /-- R358 of the mailbox record at the head, or, with a channel given, a retirement that the
  management controller starts of its own (R372). -/
  | retireChannel (own : Option Nat)
  | retireStack
  | setHold
  /-- R361 -/
  | retirementResume
  /-- R364 -/
  | driftLineTake (engine : Nat)
  /-- R366 -/
  | driftLineDataArrival (engine line : Nat)
  /-- R364 -/
  | driftLineLand (engine line : Nat)
  /-- R374: the scrubber reads a physical line. -/
  | scrubRead (pline : Nat)
  | phyRecalibration (channel : Nat)
  | phyRecalibrationEnd (channel : Nat)
  /-- R381: a packet in flight, by number. -/
  | packetArrival (flight : Nat)
  /-- R383: a NACK in flight, by number. -/
  | nackArrival (nack : Nat)
  /-- R384 -/
  | ringInjection (station ring : Nat)
  /-- R383 -/
  | replayEntryExpiry (station : Nat)
  /-- R385 -/
  | packetPromotion (station : Nat)
  /-- R387: a packet that a gateway or hub holds, by number. -/
  | fabricPacketArrival (flight : Nat)
  /-- R390 -/
  | forwardingEntryExpiry (slot : Nat)
  /-- R393: the mean currents of the two layers of pair `pair` of chiplet slot `slot`. -/
  | balanceEvaluation (slot pair iLo iHi : Nat)
  /-- R397: the local supply of a cluster falls `mv` millivolts below nominal. -/
  | droopTrip (cluster mv : Nat)
  | droopStretchEnd (cluster : Nat)
  | droopHoldEnd (cluster : Nat)
  /-- R399 -/
  | thermalCheck
  /-- R402: the 10 µs mean of the core-rail current, in mA. -/
  | railCurrentSample (mA : Nat)
  /-- R407 -/
  | boostLeaseExpiry (block : Nat)
  /-- R412: a frame of `nbits` bits between two SFS pulses. -/
  | pstpFrame (nbits : Nat) (frame : BitVec 128)
  | pstpTimeout
  /-- R418: the package power over 100 µs, in W. -/
  | packagePowerSample (watts : Nat)
  | floodRestore
  /-- R420 -/
  | shedWindowExpiry (cohort : Nat)
  | curveCommit
  | pmbusReadPstpStat
  | pmbusReadCatalogue28
  | pmbusReadPower
  /-- R426 -/
  | doorbell (q : Nat) (v : W64)
  | qctlStop (q : Nat)
  | qctlResume (q : Nat)
  | qctlKill (q : Nat)
  /-- R427 -/
  | nopPacket (q : Nat)
  | launchPacket (q : Nat)
  | fencePacket (q : Nat)
  | fenceCounterTest (q : Nat)
  | fenceTimeout (q : Nat)
  | signalPacket (q : Nat)
  | signalPerform (q : Nat)
  | graphPacket (q : Nat)
  | barrierAndPacket (q : Nat)
  /-- R243 -/
  | leaseResidency (launch : Nat)
  /-- R446 -/
  | translationReady (launch : Nat)
  /-- R440: a cohort by its launch and its number, the chiplet slot and the cores of the cohort's blocks, as the PKS weighs
  them. -/
  | cohortPlacement (cohort : Nat × Nat) (slot : Nat) (cores : List Nat)
  /-- R434 -/
  | launchCompletion (launch : Nat)
  /-- R442: the chiplet slot and the cores the cohort's blocks move to. -/
  | taskStreamerMove (cohort slot : Nat) (cores : List Nat)
  /-- R455 -/
  | preemptionRequest (cohort : Nat)
  /-- R450 -/
  | asyncTrapDelivery (g : Nat)
  /-- R456 -/
  | pmackTimeout (cohort : Nat)
  /-- R461: the chiplet slot and the cores the cohort's blocks are restored on. -/
  | cohortRestore (cohort slot : Nat) (cores : List Nat)
  | negotiateFeatures
  | loadQueueContext
  | updateConfigurationImage
  | fenceChipletForService
  | setErrorRing
  /-- R469: a host write to a BAR0 register. -/
  | registerWrite (offset : Nat) (v : W64)
  /-- R474 -/
  | coreWatchdogExpiry (core : Nat)
  | chipletFence (slot : Nat)
  | chipletPowerOff (slot : Nat)
  | spareMapIn (slot logical : Nat)
  | correctedErrorReport (channel : Nat)
  | scaleupPortDown (port : Nat)
  | scaleupPortUp (port : Nat)
  | packageReset
  /-- R479: an access of a peer to an offset of this device's set 0. -/
  | scaleupPeerAccess (peer offset : Nat) (kind : PeerAccess) (size : Nat) (data : W64)
  /-- R10 -/
  | fatalBoundaryError (node : Nat)
  | mailboxInvalidCommand
  deriving DecidableEq, Repr

end Sys2Proof
end

