-- ==== Sys2Proof/Config.lean ====
section
/-! DEFINITION. The free values: what the spec leaves open has no body here, so that a statement holds
whatever it is. Each is named in a row of the assumption log. -/

namespace Sys2Proof.Config

/-- Whether a read of the destination of an outstanding long-latency word returns the new value
(02 R28, log 6): the choice number, the operation, the lane and the register. -/
opaque early (choice op lane reg : Nat) : Bool

/-- Which of the contents that a unit of code stored to during its launch has had a fetch returns (02 R34, log 6). -/
opaque oldCode (choice addr : Nat) : Nat

/-- The set of an L2 slice or of an LLC that a physical line maps to (10 R268, log 12). -/
opaque l2Set (pline : Nat) : Nat
opaque llcSet (pline : Nat) : Nat

/-- The victim of a full TLB, by position among the entries that may be replaced (09 R246, log 12). -/
opaque tlbVictim (choice : Nat) : Nat

/-- The bank of a chiplet TLB that homes a page (09 R246, log 12). -/
opaque tlbBank (vpage : Nat) : Nat

/-- The credits that the fabric gives a class on a link from a node or a hub to a hub, less one (14 R387, log 14). -/
opaque fabricCredits (src dst cls : Nat) : Nat

/-- The current that the PKS reckons a block of a launch adds to its cluster, by the launch's record (15 R393, log 83). -/
opaque blockAmps (record : List (BitVec 64)) : Nat

/-- Whether the GEN_SEEN of a launch record was read before the last reset (16 R438, log 52). -/
opaque genFromBefore (record : List (BitVec 64)) : Bool

/-- Whether the signature of a configuration image verifies under the Orrax key (18 R472, log 13). -/
opaque signatureOk (bytes : List (BitVec 8)) : Bool

/-- The bytes of the device section of a context image (17 R458, log 7). -/
opaque imageByte (choice off : Nat) : BitVec 8

/-- What is read from the scratchpad of a block that has ended (08 R207, log 19). -/
opaque lostByte (choice addr : Nat) : BitVec 8

/-- The stepping of the device (18 R469). -/
opaque stepping : BitVec 16

/-- The length in bytes of a configuration image, and how its fields are laid out (18 R472, log 13). -/
opaque imageLength : Nat

/-- The place of a translated body, by its Lemlon section and the device shelfmark (16 R446, log 10). -/
opaque bodyPlace (lemlon : List (BitVec 8)) (mark : BitVec 64) : Nat

end Sys2Proof.Config
end

