-- ==== Sys2Proof/Machine/Encoding.lean ====
section
/-! DEFINITION. The encoding tables: which fields each word uses, which modifiers, types and widths it
accepts, its class, latency and guards (02 R36-R55 and the tables of chapters 04 to 18). -/

namespace Sys2Proof

/-- The type code E[4:0] of a V word (02 R49). -/
def VWord.ty (w : VWord) : Nat := (w.e.extractLsb' 0 5).toNat

/-- The modifiers E[6:5] of a V word (02 R50). -/
def VWord.md (w : VWord) : Nat := (w.e.extractLsb' 5 2).toNat

/-- One bit of E. -/
def VWord.ebit (w : VWord) (n : Nat) : Bool := w.e.getLsbD n

/-- The value that marks an unused register field (02 R40). -/
abbrev noReg : BitVec 7 := 127

/-- Integer type codes (05 R148, 06 R160). -/
def isInt (t : Nat) : Bool := t ≤ 6 || (8 ≤ t && t ≤ 0xE)

/-- Signed integer type codes (06 R160). -/
def isSint (t : Nat) : Bool := t ≤ 6

/-- Float type codes 0x10 to 0x15 (06 R160). -/
def isFlt (t : Nat) : Bool := 0x10 ≤ t && t ≤ 0x15

/-- Float type codes of one register (06 R160). -/
def isFlt1 (t : Nat) : Bool := 0x10 ≤ t && t ≤ 0x12

/-- Codes i32, z32, i64 and z64 (06 R160). -/
def isW32 (t : Nat) : Bool := t == 0 || t == 8 || t == 3 || t == 0xB

/-- Block-float codes bfp2 to bfp8 (02 R49). -/
def isBfp (t : Nat) : Bool := 0x19 ≤ t && t ≤ 0x1F

/-- Every assigned type code (02 R49). -/
def isTy (t : Nat) : Bool := t < 32 && t != 7 && t != 0xF

/-- Registers of an operand of a type: 1 for x, 2 for w (02 R49). -/
def tyRegs (t : Nat) : Nat :=
  if (3 ≤ t && t ≤ 6) || (0xB ≤ t && t ≤ 0xE) || (0x13 ≤ t && t ≤ 0x15) then 2 else 1

/-- Bits of an element of a type (02 R49, 03 R74). -/
def tyBits (t : Nat) : Nat :=
  match t with
  | 0 | 8 | 4 | 0xC | 0x10 | 0x13 => 32
  | 1 | 9 | 5 | 0xD | 0x11 | 0x12 | 0x14 | 0x15 => 16
  | 2 | 0xA | 6 | 0xE | 0x16 | 0x17 => 8
  | 3 | 0xB => 64
  | 0x18 => 4
  | 0x19 => 2 | 0x1A => 3 | 0x1B => 4 | 0x1C => 5 | 0x1D => 6 | 0x1E => 7 | 0x1F => 8
  | _ => 32

/-- Elements of one register operand of a type (02 R49, 03 R74). -/
def tyElems (t : Nat) : Nat := 32 * tyRegs t / tyBits t

/-- How a field is used (02 R40 to R42, 12 R330). -/
inductive Use where
  /-- Holds 127, crossbar code 0. -/
  | none
  /-- Names `n` registers that are read, the first a multiple of `align`; `xb` says that the crossbar
  code is free. -/
  | rd (n align : Nat) (xb : Bool)
  /-- Names `n` registers that are written (and, for some words, read too). -/
  | wr (n : Nat)
  /-- A tile-register index (12 R330). -/
  | tile
  /-- An accumulator index (12 R330). -/
  | acc
  deriving DecidableEq, Repr

/-- A field with its value, its crossbar code and its use. -/
structure Operand where
  reg : BitVec 7
  xb  : BitVec 3
  use : Use
  deriving DecidableEq, Repr

/-- What the encoding tables say of one word. -/
structure Shape where
  /-- Clause class; `none` for a word allowed in every class (02 R30, R52). -/
  cls : Option Nat
  sched : Sched
  ops : List Operand
  long : Bool := false
  branch : Bool := false
  guards : Bool := true
  hint : Bool := false
  /-- For LDACQ: H may be 1 (02 R37). -/
  rm : Bool := false
  /-- The set field may be 15 (02 R26). -/
  setFree : Bool := false
  /-- Types, modifiers, size and scope codes and immediates are accepted. -/
  encOk : Bool := true
  deriving DecidableEq, Repr

/-- `n` registers read, in their natural alignment, with a free crossbar. -/
def Use.x (n : Nat := 1) : Use := .rd n n true

/-- `n` registers read without a crossbar. -/
def Use.nx (n : Nat := 1) : Use := .rd n n false

/-- A register read, or 127 for none. -/
def Use.opt (r : BitVec 7) (u : Use) : Use := if r = noReg then .none else u

/-- The five register fields of a V word whose E holds modifiers. -/
def VWord.opsE (w : VWord) (d a b c : Use) : List Operand :=
  [⟨w.d, 0, d⟩, ⟨w.a.reg, w.a.xb, a⟩, ⟨w.b.reg, w.b.xb, b⟩, ⟨w.c.reg, w.c.xb, c⟩]

/-- The register fields of a V word whose E is a register field too (127 when unused). -/
def VWord.ops (w : VWord) (d a b c : Use) (e : Use := .none) : List Operand :=
  w.opsE d a b c ++ [⟨w.e, 0, e⟩]

/-- D and A of an I word. -/
def IWord.ops (w : IWord) (d a : Use) : List Operand :=
  [⟨w.d, 0, d⟩, ⟨w.a.reg, w.a.xb, a⟩]

/-- D, base and index of an M word; an index of 127 is no index (02 R38). -/
def MWord.ops (w : MWord) (d : Use) : List Operand :=
  [⟨w.d, 0, d⟩, ⟨w.a.reg, w.a.xb, .x 2⟩, ⟨w.b, 0, Use.opt w.b .nx⟩]

/-- D and A of a K word (02 R39). -/
def KWord.ops (w : KWord) (d : Use) : List Operand :=
  [⟨w.d, 0, d⟩, ⟨w.a.reg, w.a.xb, .none⟩]

/-- The access size in bytes of a size code (02 R37). -/
def sizeOf (code : Nat) : Nat :=
  match code with
  | 0 | 1 => 1
  | 2 | 3 => 2
  | 4 => 4
  | 5 => 8
  | 6 => 16
  | _ => 32

/-- The registers that hold an access of a size code (02 R37). -/
def sizeRegs (code : Nat) : Nat := if code ≤ 4 then 1 else sizeOf code / 4

/-- The size code is one of the ST column of 02 R37. -/
def stSize (code : Nat) : Bool := code != 1 && code != 3

/-- A class-0 vector word whose operands all have the type's width (06 R157, R163). -/
def vecT (w : VWord) (ok : Bool) (b c : Bool) (long : Bool := false) : Shape :=
  let n := tyRegs w.ty
  { cls := some 0, sched := w.sched, encOk := ok, long := long, setFree := w.d = 124
    ops := w.opsE (.wr n) (.x n) (if b then .x n else .none) (if c then .x n else .none) }

/-- A class-0 vector word with the uses given. -/
def vecU (w : VWord) (ok : Bool) (d a b c : Use) : Shape :=
  { cls := some 0, sched := w.sched, encOk := ok, ops := w.opsE d a b c }

/-- The rounding-mode codes of 06 R160 for a word with all five modes: RST only with E[6:5] = 0. -/
def modeOk (w : VWord) : Bool := w.c.reg = noReg || w.md == 0

/-- A float word with the modes of 06 R160 and the random source in C. -/
def vecF (w : VWord) (ok : Bool) (d a b : Use) (long : Bool := false) : Shape :=
  { cls := some 0, sched := w.sched, encOk := ok && modeOk w, long := long, setFree := w.d = 124
    ops := w.opsE d a b (Use.opt w.c.reg .x) }

/-- A 32-bit immediate word of 06 R166. -/
def immW (w : IWord) (hasA : Bool) (ok : Bool) : Shape :=
  { cls := some 0, sched := w.sched, encOk := ok, ops := w.ops (.wr 1) (if hasA then .x else .none) }

/-- A control word of 04 R105. -/
def ctl (w : VWord) (d a : Use) (branch : Bool := false) (guards : Bool := true) (ok : Bool := true) : Shape :=
  { cls := none, sched := w.sched, encOk := ok, branch := branch, guards := guards
    ops := w.ops d a .none .none }

/-- A K-format control word of 04 R105. -/
def ctlK (w : KWord) (d : Use) (branch : Bool) : Shape :=
  { cls := none, sched := w.sched, branch := branch, ops := w.ops d }

/-- A block-barrier word of 04 R105: E[3:0] the number, E[6:4] zero. A's crossbar code is any code where A is read: R105's table
says so of the other control words and leaves it unsaid here (DEDUCED, log 81). -/
def ctlBar (w : VWord) (d a : Use) : Shape :=
  { cls := none, sched := w.sched, guards := false, encOk := w.e.extractLsb' 4 3 = 0
    ops := w.opsE d a .none .none }

/-- A scratchpad word of 08 R216 whose E is an unused register field. -/
def scr (w : VWord) (cls : Nat) (d a b c : Use) (long hint : Bool := false) : Shape :=
  { cls := some cls, sched := w.sched, long := long, hint := hint, setFree := w.d = 124
    ops := w.ops d a b c }

/-- A scratchpad word of 08 R216 with modifier bits of E in `mask`. -/
def scrE (w : VWord) (cls : Nat) (mask : BitVec 7) (d a b : Use) (long hint : Bool := false) : Shape :=
  { cls := some cls, sched := w.sched, long := long, hint := hint, setFree := w.d = 124
    encOk := w.e &&& ~~~mask = 0, ops := w.opsE d a b .none }

/-- E of an engine operation (12 R329): a signing number or solo, with `m` for bit 4. -/
def engineE (w : VWord) (m : Bool) : Bool :=
  w.e.extractLsb' 5 2 = 0 && w.ebit 4 == m && (w.ebit 3 || w.e.extractLsb' 0 3 = 0)

/-- A class-3 long-latency engine word (12 R329). -/
def eng (w : VWord) (m : Bool) (d a b c : Use) (free : Bool := false) : Shape :=
  { cls := some 3, sched := w.sched, long := true, setFree := free, encOk := engineE w m
    ops := w.opsE d a b c }

/-- E of CVDECL and CVQ (12 R329). -/
def cvE (w : VWord) (sig : Bool) : Bool :=
  w.ebit 3 && !w.ebit 4 && !w.ebit 6 && (sig || !w.ebit 5)

/-- Types of an atomic by op code (11 R310). -/
def atomTy (op t : Nat) : Bool :=
  match op with
  | 0 | 1 | 2 | 6 => isW32 t || t == 0x10
  | 3 | 4 | 5 => isW32 t
  | _ => false

/-- The operands of ATOM and REDM: the crossbar fields hold scope and op (11 R310). -/
def atomOps (w : VWord) (d : Use) (n : Nat) (c : Use) : List Operand :=
  [⟨w.d, 0, d⟩, ⟨w.a.reg, 0, .nx 2⟩, ⟨w.b.reg, 0, .nx n⟩, ⟨w.c.reg, w.c.xb, c⟩]

/-- A class-4 I-format word. -/
def sysI (w : IWord) (ok : Bool) (d a : Use) : Shape :=
  { cls := some 4, sched := w.sched, encOk := ok, ops := w.ops d a }

/-- CVTF narrowing (06 R185): registers of A and B, and of D, by type. -/
def cvtfNarrow (t : Nat) : Option (Nat × Nat) :=
  match t with
  | 0x11 | 0x12 => some (1, 1)
  | 0x14 | 0x15 => some (2, 2)
  | 0x16 | 0x17 => some (2, 1)
  | 0x18 => some (4, 1)
  | _ => none

/-- CVTF widening (06 R185): registers of A and of D, by type. -/
def cvtfWiden (t : Nat) : Option (Nat × Nat) :=
  match t with
  | 0x11 | 0x12 => some (1, 2)
  | 0x14 | 0x15 => some (2, 4)
  | 0x16 | 0x17 | 0x18 => some (1, 4)
  | _ => none

/-- CVTI and ICVTF (06 R187, R188): the codes they accept. -/
def cvtiTy (t : Nat) : Bool := t == 0 || t == 8 || t == 3 || t == 0xB || t == 4 || t == 0xC

/-- The encoding tables, word by word. Events have no word. -/
def shape : Instr → Option Shape
  | .nop w => some (ctl w .none .none)
  | .bra w => some (ctlK w .none true)
  | .brx w => some (ctl w .none (.x 2) true)
  | .call w => some (ctlK w (.wr 2) true)
  | .callx w => some (ctl w (.wr 2) (.x 2) true)
  | .ret w => some (ctl w .none (.x 2) true)
  | .exit w => some (ctl w .none .none true)
  | .meet w => some (ctlK w .none false)
  | .meetx w => some (ctl w (Use.opt w.d (.wr 2)) (Use.opt w.a.reg (.x 2)) (ok := !(w.d = noReg && w.a.reg = noReg)))
  | .meetclr w => some (ctl w .none .none)
  | .yield w => some (ctl w .none .none (guards := false))
  | .qhelp w => some (ctl w .none .none (guards := false))
  | .succ w => some (ctlK w .none true)
  | .succx w => some (ctl w .none (.x 2) true)
  | .refill w => some (ctl w (.wr 2) .x true false)
  | .bars w => some (ctlBar w .none (Use.opt w.a.reg .x))
  | .bara w => some (ctlBar w (.wr 1) (Use.opt w.a.reg .x))
  | .barw w => some (ctlBar w .none .x)
  | .trap w => some { cls := none, sched := w.sched, branch := true, ops := w.ops .none .none }
  | .bkpt w => some { cls := none, sched := w.sched, ops := w.ops .none .none }
  | .iadd w => some (vecT w (isInt w.ty && w.md == 0) true false)
  | .isub w => some (vecT w (isInt w.ty && w.md == 0) true false)
  | .iaddi w => some (immW w true true)
  | .imul w => some (vecT w (isInt w.ty && w.md == 0) true false)
  | .imulh w => some (vecT w (isInt w.ty && w.md == 0) true false)
  | .imad w => some (vecT w (isInt w.ty && w.md == 0) true true)
  | .idiv w => some (vecT w (isInt w.ty && w.md == 0) true false true)
  | .irem w => some (vecT w (isInt w.ty && w.md == 0) true false true)
  | .imin w => some (vecT w (isInt w.ty && w.md == 0) true false)
  | .imax w => some (vecT w (isInt w.ty && w.md == 0) true false)
  | .iabs w => some (vecT w (isSint w.ty && w.md ≤ 1) false false)
  | .ineg w => some (vecT w (isSint w.ty && w.md ≤ 1) false false)
  | .iadds w => some (vecT w (isInt w.ty && w.md == 0) true false)
  | .isubs w => some (vecT w (isInt w.ty && w.md == 0) true false)
  | .iavg w => some (vecT w (isInt w.ty && w.md ≤ 1) true false)
  | .icmp w => some (vecT w (isInt w.ty) true false)
  | .and w => some (vecT w (isInt w.ty && w.md == 0) true false)
  | .or w => some (vecT w (isInt w.ty && w.md == 0) true false)
  | .xor w => some (vecT w (isInt w.ty && w.md == 0) true false)
  | .not w => some (vecT w (isInt w.ty && w.md == 0) false false)
  | .andn w => some (vecT w (isInt w.ty && w.md == 0) true false)
  | .orn w => some (vecT w (isInt w.ty && w.md == 0) true false)
  | .shl w => some (vecT w (isInt w.ty && w.md == 0) true false)
  | .shr w => some (vecT w (isInt w.ty && w.md == 0) true false)
  | .sar w => some (vecT w (isInt w.ty && w.md == 0) true false)
  | .rot w => some (vecT w (isInt w.ty && w.md ≤ 1) true false)
  | .fshf w => some (vecU w (isW32 w.ty && w.md ≤ 1) (.wr (tyRegs w.ty)) (.x (tyRegs w.ty)) (.x (tyRegs w.ty)) .x)
  | .clz w => some (vecT w (isInt w.ty && w.md == 0) false false)
  | .ffs w => some (vecT w (isInt w.ty && w.md == 0) false false)
  | .popc w => some (vecT w (isInt w.ty && w.md == 0) false false)
  | .brev w => some (vecT w (isInt w.ty && w.md == 0) false false)
  | .bfx w => some (vecU w (isW32 w.ty && w.md == 0) (.wr (tyRegs w.ty)) (.x (tyRegs w.ty)) .x .none)
  | .bfi w => some (vecU w (isW32 w.ty && w.md == 0) (.wr (tyRegs w.ty)) (.x (tyRegs w.ty)) (.x (tyRegs w.ty)) .x)
  | .sel w => some (vecU w ((isInt w.ty || isFlt w.ty) && w.md == 0) (.wr (tyRegs w.ty)) (.x (tyRegs w.ty)) (.x (tyRegs w.ty)) .x)
  | .mov w => some (vecT w (isTy w.ty && w.md == 0) false false)
  | .movi w => some (immW w false true)
  | .movhi w => some (immW w true (w.imm.toNat ≤ 65535))
  | .lea w => some (vecU w (w.ty == 0 || w.ty == 8) (.wr 2) (.x 2) .x .none)
  | .iext w => some (vecU w ((w.ty == 1 || w.ty == 2 || w.ty == 9 || w.ty == 0xA) && w.md < tyElems w.ty) (.wr 1) .x .none .none)
  | .iextWide w => some (vecU w ((w.ty == 0 || w.ty == 8) && w.md == 0) (.wr 2) .x .none .none)
  | .pack w => some (vecU w ((w.ty == 1 || w.ty == 2 || w.ty == 9 || w.ty == 0xA) && w.md ≤ 1) (.wr 1) .x .x .none)
  | .unpk w => some (vecU w ((w.ty == 1 || w.ty == 2 || w.ty == 9 || w.ty == 0xA) && w.md == 0) (.wr 2) .x .none .none)
  | .bytep w => some (vecU w (w.e = 0) (.wr 1) .x .x .x)
  | .idot4 w => some (vecU w (w.ty == 2 || w.ty == 0xA) (.wr 1) .x .x .x)
  | .idot2 w => some (vecU w (w.ty == 1 || w.ty == 9) (.wr 1) .x .x .x)
  | .shli w => some (immW w true (w.imm.toNat ≤ 31))
  | .shri w => some (immW w true (w.imm.toNat ≤ 31))
  | .sari w => some (immW w true (w.imm.toNat ≤ 31))
  | .fadd w => some (vecF w (isFlt1 w.ty) (.wr 1) .x .x)
  | .fsub w => some (vecF w (isFlt1 w.ty) (.wr 1) .x .x)
  | .fmul w => some (vecF w (isFlt1 w.ty) (.wr 1) .x .x)
  | .fma w => some (vecT w (isFlt1 w.ty) true true)
  | .fmin w => some (vecT w (isFlt w.ty && w.md ≤ 1) true false)
  | .fmax w => some (vecT w (isFlt w.ty && w.md ≤ 1) true false)
  | .fabs w => some (vecT w (isFlt w.ty && w.md == 0) false false)
  | .fneg w => some (vecT w (isFlt w.ty && w.md == 0) false false)
  | .fcmp w => some (vecT w (isFlt w.ty) true false)
  | .frcp w => some (vecF w (isFlt1 w.ty) (.wr 1) .x .none true)
  | .frsq w => some (vecF w (isFlt1 w.ty) (.wr 1) .x .none true)
  | .fsqrt w => some (vecF w (isFlt1 w.ty) (.wr 1) .x .none true)
  | .fdiv w => some (vecF w (isFlt1 w.ty) (.wr 1) .x .x true)
  | .fexp2 w => some (vecF w (isFlt1 w.ty) (.wr 1) .x .none true)
  | .flog2 w => some (vecF w (isFlt1 w.ty) (.wr 1) .x .none true)
  | .fsin w => some (vecF w (isFlt1 w.ty) (.wr 1) .x .none true)
  | .fcos w => some (vecF w (isFlt1 w.ty) (.wr 1) .x .none true)
  | .ftanh w => some (vecF w (isFlt1 w.ty) (.wr 1) .x .none true)
  | .fclass w => some (vecT w (isFlt w.ty && w.md == 0) false false)
  | .frnd w => some (vecF w (isFlt1 w.ty) (.wr 1) .x .none)
  | .cvtf w =>
    let n := (cvtfNarrow w.ty).getD (1, 1)
    some (vecU w ((cvtfNarrow w.ty).isSome && !w.ebit 6) (.wr n.2) (.x n.1) (.x n.1) (Use.opt w.c.reg .x))
  | .cvtfWide w =>
    let n := (cvtfWiden w.ty).getD (1, 1)
    some (vecU w ((cvtfWiden w.ty).isSome && w.ebit 6 && (!w.ebit 5 || w.ty == 0x18)) (.wr n.2) (.x n.1) .none .none)
  | .cvti w => some (vecF w (cvtiTy w.ty) (.wr (tyRegs w.ty)) (.x (if w.ty == 4 || w.ty == 0xC then 2 else 1)) .none)
  | .icvtf w => some (vecF w (cvtiTy w.ty) (.wr (if w.ty == 4 || w.ty == 0xC then 2 else 1)) (.x (tyRegs w.ty)) .none)
  | .scacc w => some (vecU w (w.e = 0x10) (.wr 1) .x .x .x)
  | .scalex w => some (vecU w (isFlt1 w.ty) (.wr 1) .x .x (Use.opt w.c.reg .x))
  | .bfppackScale w => some (vecU w (isBfp w.ty && w.ebit 6 && !w.ebit 5) (.wr 1) .x .none .none)
  | .bfppack w => some (vecU w (isBfp w.ty && !w.ebit 6 && !w.ebit 5) (.wr 1) (.x 4) .x (Use.opt w.c.reg .x))
  | .bfpunpk w => some (vecU w (isBfp w.ty && w.md == 0) (.wr 4) .x .x .none)
  | .fdot2 w => some (vecU w (w.ty == 0x11 || w.ty == 0x12) (.wr 1) .x .x .x)
  | .fdot4 w => some (vecU w (w.ty == 0x16 || w.ty == 0x17) (.wr 1) .x .x .x)
  | .lanesel w => some (vecU w (isInt w.ty && w.md == 0) (.wr (tyRegs w.ty)) (.nx (tyRegs w.ty)) .x .none)
  | .qswap w => some (vecU w (isTy w.ty && w.md != 0) (.wr (tyRegs w.ty)) (.nx (tyRegs w.ty)) .none .none)
  | .qbcast w => some (vecU w (isTy w.ty) (.wr (tyRegs w.ty)) (.nx (tyRegs w.ty)) .none .none)
  | .vote w => some (vecU w (w.ty == 0) (.wr 1) .x .none .none)
  | .red w => some (vecT w (isInt w.ty || (isFlt w.ty && w.md != 3)) false false)
  | .scanx w => some (vecT w (isInt w.ty || (isFlt w.ty && w.md != 3)) false false)
  | .matchLanes w => some (vecU w (isW32 w.ty && w.md == 0) (.wr 1) (.x (tyRegs w.ty)) .none .none)
  | .elect w => some { cls := some 0, sched := w.sched, ops := w.ops (.wr 1) (Use.opt w.a.reg .x) .none .none }
  | .rclaim w => some { cls := some 0, sched := w.sched, ops := w.ops .none .none, encOk := w.imm.toNat != 0 && w.imm.toNat % 4 == 0 }
  | .rgive w => some { cls := some 0, sched := w.sched, ops := w.ops .none .none, encOk := w.imm.toNat != 0 && w.imm.toNat % 4 == 0 }
  | .rtry w => some { cls := some 0, sched := w.sched, ops := w.ops (.wr 1) .none, encOk := w.imm.toNat != 0 && w.imm.toNat % 4 == 0 }
  | .rcount w => some (vecU w (w.md != 3 && w.ty == 0) (.wr 1) .none .none .none)
  | .ld w => some { cls := some 1, sched := w.sched, long := true, hint := true, setFree := w.d = 124
                    ops := w.ops (.wr (sizeRegs w.size.toNat)) }
  | .st w => some { cls := some 1, sched := w.sched, long := true, hint := true, setFree := true
                    encOk := stSize w.size.toNat, ops := w.ops (.nx (sizeRegs w.size.toNat)) }
  | .ldt w => some { cls := some 1, sched := w.sched, long := true, hint := true
                     ops := [⟨w.d, 0, .wr (sizeRegs w.b.xb.toNat)⟩, ⟨w.a.reg, w.a.xb, .x 2⟩,
                             ⟨w.b.reg, 0, .nx⟩, ⟨w.c.reg, w.c.xb, .none⟩, ⟨w.e, 0, .wr 1⟩] }
  | .atom w => some { cls := some 1, sched := w.sched, long := true, setFree := w.d = 124
                      encOk := w.a.xb.toNat ≤ 5 && atomTy w.b.xb.toNat w.ty
                      ops := atomOps w (.wr (tyRegs w.ty)) (tyRegs w.ty) .none }
  | .atomcas w => some { cls := some 1, sched := w.sched, long := true, setFree := w.d = 124
                         encOk := w.a.xb.toNat ≤ 5 && w.b.xb = 0 && (w.ty == 8 || w.ty == 0xB)
                         ops := atomOps w (.wr (tyRegs w.ty)) (tyRegs w.ty) (.nx (tyRegs w.ty)) }
  | .redm w => some { cls := some 1, sched := w.sched, long := true, setFree := true
                      encOk := w.a.xb.toNat ≤ 5 && w.b.xb.toNat < 6 && atomTy w.b.xb.toNat w.ty && !w.ebit 5
                      ops := atomOps w .none (tyRegs w.ty) .none }
  | .stmc w => some { cls := some 1, sched := w.sched, long := true, hint := true, setFree := true
                      encOk := w.e.extractLsb' 3 4 = 0 && stSize w.e.toNat
                      ops := w.opsE (.nx (sizeRegs (w.e.toNat % 8))) (.x 2) .x .x }
  | .strd w => some { cls := some 1, sched := w.sched, long := true, setFree := true
                      encOk := (isW32 w.ty || isFlt1 w.ty) && !(isFlt1 w.ty && w.md == 3)
                      ops := w.opsE (.nx (tyRegs w.ty)) (.x 2) .x .x }
  | .pref w => some { cls := some 1, sched := w.sched, hint := true, encOk := stSize w.size.toNat, ops := w.ops .none }
  | .ldacq w => some { cls := some 1, sched := w.sched, long := true, rm := true, setFree := w.d = 124
                       encOk := w.size.toNat ≤ 5, ops := w.ops (.wr 2) }
  | .strel w => some { cls := some 1, sched := w.sched, long := true, setFree := true
                       encOk := w.size.toNat ≤ 5, ops := w.ops (.nx 2) }
  | .fence w => some { cls := some 1, sched := w.sched, encOk := w.e.toNat % 8 ≤ 5 && w.md == 0
                       ops := w.opsE .none .none .none .none }
  | .sigclr w => some { cls := some 1, sched := w.sched, long := true, setFree := true, ops := w.ops .none (.x 2) .none .none }
  | .walk w => some { cls := some 1, sched := w.sched, long := true, setFree := w.d = 124
                      encOk := w.e.toNat % 4 != 0 && w.e.toNat / 4 % 4 != 3 && w.e.toNat / 16 == 0
                      ops := w.opsE (.wr 1) (.x 2) (.x 2) (Use.opt w.c.reg .x) }
  | .cinv w => some { cls := some 1, sched := w.sched, encOk := w.e &&& 0x5F = 0, ops := w.opsE .none (.x 2) .none .none }
  | .wait w => some { cls := none, sched := w.sched, encOk := w.e &&& 0x5C = 0
                      ops := w.opsE (.wr 1) (.rd (4 * (w.e.toNat % 4 + 1)) 4 false) .nx .none }
  | .flagrd w => some { cls := none, sched := w.sched, encOk := w.e = 0, ops := w.opsE (.wr 1) .none .none .none }
  | .flagrdCnt w => some { cls := none, sched := w.sched, encOk := w.ebit 6 && w.e.toNat % 64 < 12, ops := w.opsE (.wr 1) .none .none .none }
  | .boinit w => some (scrE w 1 0x20 .none .x .x)
  | .boarr w => some (scr w 1 (.wr 1) .x (Use.opt w.b.reg .x) .none)
  | .boread w => some { cls := none, sched := w.sched, ops := w.ops (.wr 4) .x .none .none }
  | .time w => some { cls := none, sched := w.sched, ops := w.ops (.wr 2) .none .none .none }
  | .cycle w => some { cls := none, sched := w.sched, ops := w.ops (.wr 2) .none .none .none }
  | .cpy w => some (scrE w 2 0x60 (.wr 1) (.nx 8) .none true true)
  | .cpymc w => some (scr w 2 (.wr 1) (.nx 8) .x .none true true)
  | .cbres w => some (scrE w 2 0x20 (.wr 1) .x .none)
  | .cbcommit w => some (scr w 2 .none .x .x .none)
  | .cbacq w => some (scrE w 2 0x20 (.wr 1) .x .none)
  | .cbrel w => some (scr w 2 .none .x .x .none)
  | .cbinit w => some (scr w 2 .none .x (.nx 4) .none)
  | .lkqPush w => some { scrE w 2 0x20 (.wr 1) .x (.x 2) with encOk := w.e = 0 }
  | .lkqLen w => some { scrE w 2 0x20 (.wr 1) .x .none with encOk := w.e = 0x20 }
  | .cpyq w => some (scr w 2 (.wr 1) .x (.x 2) .x true true)
  | .tcfgw w => some { cls := some 3, sched := w.sched, ops := w.ops .tile .x .none .none }
  | .tcfgr w => some { cls := some 3, sched := w.sched, ops := w.ops (.wr 1) .tile .none .none }
  | .tload w => some (eng w false .tile .x .x .none)
  | .tstore w => some (eng w false .none .tile .x .x true)
  | .tzero w => some (eng w false .acc .none .none .none)
  | .tzeroM w => some (eng w true .tile .none .none .none)
  | .mma w => some (eng w false .acc .tile .tile .none)
  | .mmas w => some (eng w false .acc .tile (.x 4) .none)
  | .mmbfp w => some (eng w false .acc .tile .tile .none)
  | .accrd w => some { cls := some 3, sched := w.sched, encOk := w.e &&& 0x5F = 0
                       ops := w.opsE (.wr (if w.ebit 5 then 4 else 1)) .acc .x .none }
  | .accwr w => some { cls := some 3, sched := w.sched, encOk := w.e &&& 0x5F = 0
                       ops := w.opsE .acc (.x (if w.ebit 5 then 4 else 1)) .x .none }
  | .tokgive w => some { cls := some 3, sched := w.sched, ops := w.ops .acc .none .none .none }
  | .toktake w => some { cls := some 3, sched := w.sched, long := true, ops := w.ops .acc .none .none .none }
  | .cvdecl w => some { cls := some 3, sched := w.sched, encOk := cvE w false, ops := w.opsE .none .x .none .none }
  | .cvq w => some { cls := some 3, sched := w.sched, encOk := cvE w true, ops := w.opsE (.wr 1) .none .none .none }
  | .capq w => some (sysI w (w.imm.toNat ≤ 31) (.wr 2) .none)
  | .sread w => some (sysI w (w.imm.toNat ≤ 0x3FF) (.wr 2) .none)
  | .swrite w => some (sysI w (w.imm.toNat ≤ 0x3FF) (.wr 1) (.x 2))
  | .eret w => some { cls := some 4, sched := w.sched, branch := true, guards := false, ops := w.ops .none .none .none .none }
  | .pmack w => some { cls := some 4, sched := w.sched, guards := false, ops := w.ops .none .none .none .none }
  | .leaseq w => some { cls := some 4, sched := w.sched, ops := w.ops (.wr 1) (.x 2) .none .none }
  | .boost w => some { cls := some 4, sched := w.sched, encOk := w.e = 0, ops := w.opsE (.wr 1) .x .none .none }
  | .boostQuery w => some { cls := some 4, sched := w.sched, encOk := w.e = 0x20, ops := w.opsE (.wr 1) .none .none .none }
  | .boostRelease w => some { cls := some 4, sched := w.sched, encOk := w.e = 0x40, ops := w.opsE (.wr 1) .none .none .none }
  | .pricls w => some (sysI w (w.imm.toNat ≤ 7) .none .none)
  | .fevq w => some { cls := some 4, sched := w.sched, ops := w.ops (.wr 1) .x .none .none }
  | .tlbinv w => some { cls := some 4, sched := w.sched, long := true, setFree := true
                        encOk := w.e &&& 0x5F = 0, ops := w.opsE .none (.x 2) (.x 2) .x }
  | .tlbinvAsid w => some { cls := some 4, sched := w.sched, long := true, setFree := true
                            encOk := w.e &&& 0x5F = 0x40, ops := w.opsE .none .none .none .x }
  | .hcall w => some (sysI w true (.wr 1) (.x 2))
  | .ill _ _ => none
  | .clauseStart _ _ | .issueDelayExpiry _ | .flagStallResume _ | .blockedWordResume _ | .longLatencyCompletion _
  | .lateFaultDelivery _ | .ldtCompletion _ | .ldtHoldExpiry _ _ | .remotePromotionRequest _ _ _ | .shelfReaderLine _
  | .walkCompletion _ | .waitConditionMet _ | .waitTimeout _ | .copyUnitWrite _ _ | .copyCompletion _ | .copyDrainExpiry _
  | .rltStallResume _ | .rangeLockConflictStart _ | .cpyqCompletion _ | .engineRoundDeferredIssue _ _ | .engineOpCompletion _
  | .toktakeCompletion _ | .twinComparatorReading _ _ _ | .twinSwapComplete _ | .tlbinvCompletion _ | .pageWalkCompletion _
  | .directoryRequest _ _ _ _ | .hostCxlCacheWrite _ _ _ | .hostCxlMemAccess _ _ _ _ _ | .llcCapacityRetirement _
  | .pageHomeMove _ | .createSet | .setCreateComplete | .deleteSet | .retireChannel _ | .retireStack | .setHold
  | .retirementResume | .driftLineTake _ | .driftLineDataArrival _ _ | .driftLineLand _ _ | .scrubRead _
  | .phyRecalibration _ | .phyRecalibrationEnd _ | .packetArrival _ | .nackArrival _ | .ringInjection _ _
  | .replayEntryExpiry _ | .packetPromotion _ | .fabricPacketArrival _ | .forwardingEntryExpiry _
  | .balanceEvaluation _ _ _ _ | .droopTrip _ _ | .droopStretchEnd _ | .droopHoldEnd _ | .thermalCheck
  | .railCurrentSample _ | .boostLeaseExpiry _ | .pstpFrame _ _ | .pstpTimeout | .packagePowerSample _ | .floodRestore
  | .shedWindowExpiry _ | .curveCommit | .pmbusReadPstpStat | .pmbusReadCatalogue28 | .pmbusReadPower
  | .doorbell _ _ | .qctlStop _ | .qctlResume _ | .qctlKill _ | .nopPacket _ | .launchPacket _ | .fencePacket _
  | .fenceCounterTest _ | .fenceTimeout _ | .signalPacket _ | .signalPerform _ | .graphPacket _ | .barrierAndPacket _
  | .leaseResidency _ | .translationReady _ | .cohortPlacement _ _ _ | .launchCompletion _ | .taskStreamerMove _ _ _
  | .preemptionRequest _ | .asyncTrapDelivery _ | .pmackTimeout _ | .cohortRestore _ _ _ | .negotiateFeatures
  | .loadQueueContext | .updateConfigurationImage | .fenceChipletForService | .setErrorRing | .registerWrite _ _
  | .coreWatchdogExpiry _ | .chipletFence _ | .chipletPowerOff _ | .spareMapIn _ _ | .correctedErrorReport _
  | .scaleupPortDown _ | .scaleupPortUp _ | .packageReset | .scaleupPeerAccess _ _ _ _ _ | .fatalBoundaryError _
  | .mailboxInvalidCommand => none

/-- The check of one field against its use that is an ILLEGAL_ENCODING matter (02 R42, 12 R330). -/
def Operand.encOk (o : Operand) : Bool :=
  match o.use with
  | .none => o.reg = noReg && o.xb = 0
  | .rd _ _ xb => o.reg ≠ noReg && (xb || o.xb = 0)
  | .wr _ => o.reg ≠ noReg && o.xb = 0
  | .tile | .acc => o.reg.toNat ≤ 15 && o.xb = 0

/-- Every check of a word that depends on the word alone and raises ILLEGAL_ENCODING (02 R55): used
and unused fields, types and modifiers, H, FS of a short-latency word, guards that must be 0. -/
def Shape.ok (p : Shape) : Bool :=
  p.encOk && p.ops.all Operand.encOk
    && (p.hint || p.sched.h = 0 || (p.rm && p.sched.h = 1))
    && (p.long || p.sched.fs = 0)
    && (p.guards || (p.sched.g0 = 0 && p.sched.g1 = 0))

end Sys2Proof
end

