-- ==== Sys2Proof/Decode.lean ====
section
/-! DEFINITION. The decoder of instruction words, total and rejecting by name, and the encoder (02 R35,
R36, R51 to R54). -/

namespace Sys2Proof

/-- Why a word is not an instruction (02 R53, R55). -/
inductive Reject where
  /-- A reserved opcode. -/
  | illegalOpcode
  /-- A field, type, modifier or hint the opcode does not accept. -/
  | illegalEncoding
  deriving DecidableEq, Repr

/-- Bits [hi:lo] of a word, with `n = hi − lo + 1`. -/
abbrev bits (x : W64) (lo n : Nat) : BitVec n := x.extractLsb' lo n

/-- The schedule bits [63:52] (02 R35). -/
def Sched.ofWord (x : W64) : Sched :=
  ⟨bits x 62 2, bits x 61 1, bits x 60 1, bits x 58 2, bits x 55 3, bits x 52 3⟩

def Sched.toBits (s : Sched) : BitVec 12 := s.dl ++ s.yh ++ s.fs ++ s.h ++ s.g1 ++ s.g0

/-- The V format (02 R36). -/
def VWord.ofWord (x : W64) : VWord :=
  { sched := .ofWord x, e := bits x 45 7, c := ⟨bits x 42 3, bits x 35 7⟩, b := ⟨bits x 32 3, bits x 25 7⟩
    a := ⟨bits x 22 3, bits x 15 7⟩, d := bits x 8 7 }

def VWord.toWord (w : VWord) (op : BitVec 8) : W64 :=
  w.sched.toBits ++ w.e ++ w.c.xb ++ w.c.reg ++ w.b.xb ++ w.b.reg ++ w.a.xb ++ w.a.reg ++ w.d ++ op

/-- The I format (02 R36): imm27 = word[51:25]. -/
def IWord.ofWord (x : W64) : IWord :=
  { sched := .ofWord x, imm := bits x 25 27, a := ⟨bits x 22 3, bits x 15 7⟩, d := bits x 8 7 }

def IWord.toWord (w : IWord) (op : BitVec 8) : W64 :=
  w.sched.toBits ++ w.imm ++ w.a.xb ++ w.a.reg ++ w.d ++ op

/-- The M format (02 R36): offset = word[51:35], the size or scope code in [34:32]. -/
def MWord.ofWord (x : W64) : MWord :=
  { sched := .ofWord x, off := bits x 35 17, size := bits x 32 3, b := bits x 25 7
    a := ⟨bits x 22 3, bits x 15 7⟩, d := bits x 8 7 }

def MWord.toWord (w : MWord) (op : BitVec 8) : W64 :=
  w.sched.toBits ++ w.off ++ w.size ++ w.b ++ w.a.xb ++ w.a.reg ++ w.d ++ op

/-- The K format (02 R36): offset27 = word[51:25]. -/
def KWord.ofWord (x : W64) : KWord :=
  { sched := .ofWord x, off := bits x 25 27, a := ⟨bits x 22 3, bits x 15 7⟩, d := bits x 8 7 }

def KWord.toWord (w : KWord) (op : BitVec 8) : W64 :=
  w.sched.toBits ++ w.off ++ w.a.xb ++ w.a.reg ++ w.d ++ op

/-- The opcode byte (02 R35). -/
def opcode (x : W64) : Nat := x.toNat % 256

/-- The instruction an opcode and the fields of a word name, before any check of the fields (02 R51). The
two encodings of ILL keep their other bits (02 R54). -/
def fieldsAt (op : Nat) (x : W64) : Option Instr :=
  match op with
  | 0x00 => some (.ill false (bits x 8 56))
  | 0x01 => some (.nop (.ofWord x))
  | 0x02 => some (.bra (.ofWord x))
  | 0x03 => some (.brx (.ofWord x))
  | 0x04 => some (.call (.ofWord x))
  | 0x05 => some (.callx (.ofWord x))
  | 0x06 => some (.ret (.ofWord x))
  | 0x07 => some (.exit (.ofWord x))
  | 0x08 => some (.meet (.ofWord x))
  | 0x09 => some (.meetx (.ofWord x))
  | 0x0A => some (.meetclr (.ofWord x))
  | 0x0B => some (.yield (.ofWord x))
  | 0x0C => some (.qhelp (.ofWord x))
  | 0x0D => some (.succ (.ofWord x))
  | 0x0E => some (.succx (.ofWord x))
  | 0x0F => some (.refill (.ofWord x))
  | 0x10 => some (.bars (.ofWord x))
  | 0x11 => some (.bara (.ofWord x))
  | 0x12 => some (.barw (.ofWord x))
  | 0x13 => some (.trap (.ofWord x))
  | 0x14 => some (.bkpt (.ofWord x))
  | 0x20 => some (.iadd (.ofWord x))
  | 0x21 => some (.isub (.ofWord x))
  | 0x22 => some (.iaddi (.ofWord x))
  | 0x23 => some (.imul (.ofWord x))
  | 0x24 => some (.imulh (.ofWord x))
  | 0x25 => some (.imad (.ofWord x))
  | 0x26 => some (.idiv (.ofWord x))
  | 0x27 => some (.irem (.ofWord x))
  | 0x28 => some (.imin (.ofWord x))
  | 0x29 => some (.imax (.ofWord x))
  | 0x2A => some (.iabs (.ofWord x))
  | 0x2B => some (.ineg (.ofWord x))
  | 0x2C => some (.iadds (.ofWord x))
  | 0x2D => some (.isubs (.ofWord x))
  | 0x2E => some (.iavg (.ofWord x))
  | 0x2F => some (.icmp (.ofWord x))
  | 0x30 => some (.and (.ofWord x))
  | 0x31 => some (.or (.ofWord x))
  | 0x32 => some (.xor (.ofWord x))
  | 0x33 => some (.not (.ofWord x))
  | 0x34 => some (.andn (.ofWord x))
  | 0x35 => some (.orn (.ofWord x))
  | 0x36 => some (.shl (.ofWord x))
  | 0x37 => some (.shr (.ofWord x))
  | 0x38 => some (.sar (.ofWord x))
  | 0x39 => some (.rot (.ofWord x))
  | 0x3A => some (.fshf (.ofWord x))
  | 0x3B => some (.clz (.ofWord x))
  | 0x3C => some (.ffs (.ofWord x))
  | 0x3D => some (.popc (.ofWord x))
  | 0x3E => some (.brev (.ofWord x))
  | 0x3F => some (.bfx (.ofWord x))
  | 0x40 => some (.bfi (.ofWord x))
  | 0x41 => some (.sel (.ofWord x))
  | 0x42 => some (.mov (.ofWord x))
  | 0x43 => some (.movi (.ofWord x))
  | 0x44 => some (.movhi (.ofWord x))
  | 0x45 => some (.lea (.ofWord x))
  | 0x46 =>
    let w := VWord.ofWord x
    some (if (w.ty == 0 || w.ty == 8) then .iextWide w else .iext w)
  | 0x47 => some (.pack (.ofWord x))
  | 0x48 => some (.unpk (.ofWord x))
  | 0x49 => some (.bytep (.ofWord x))
  | 0x4A => some (.idot4 (.ofWord x))
  | 0x4B => some (.idot2 (.ofWord x))
  | 0x4C => some (.shli (.ofWord x))
  | 0x4D => some (.shri (.ofWord x))
  | 0x4E => some (.sari (.ofWord x))
  | 0x50 => some (.fadd (.ofWord x))
  | 0x51 => some (.fsub (.ofWord x))
  | 0x52 => some (.fmul (.ofWord x))
  | 0x53 => some (.fma (.ofWord x))
  | 0x54 => some (.fmin (.ofWord x))
  | 0x55 => some (.fmax (.ofWord x))
  | 0x56 => some (.fabs (.ofWord x))
  | 0x57 => some (.fneg (.ofWord x))
  | 0x58 => some (.fcmp (.ofWord x))
  | 0x59 => some (.frcp (.ofWord x))
  | 0x5A => some (.frsq (.ofWord x))
  | 0x5B => some (.fsqrt (.ofWord x))
  | 0x5C => some (.fdiv (.ofWord x))
  | 0x5D => some (.fexp2 (.ofWord x))
  | 0x5E => some (.flog2 (.ofWord x))
  | 0x5F => some (.fsin (.ofWord x))
  | 0x60 => some (.fcos (.ofWord x))
  | 0x61 => some (.ftanh (.ofWord x))
  | 0x62 => some (.fclass (.ofWord x))
  | 0x63 => some (.frnd (.ofWord x))
  | 0x64 =>
    let w := VWord.ofWord x
    some (if w.ebit 6 then .cvtfWide w else .cvtf w)
  | 0x65 => some (.cvti (.ofWord x))
  | 0x66 => some (.icvtf (.ofWord x))
  | 0x67 => some (.scacc (.ofWord x))
  | 0x68 => some (.scalex (.ofWord x))
  | 0x69 =>
    let w := VWord.ofWord x
    some (if w.ebit 6 then .bfppackScale w else .bfppack w)
  | 0x6A => some (.bfpunpk (.ofWord x))
  | 0x6B => some (.fdot2 (.ofWord x))
  | 0x6C => some (.fdot4 (.ofWord x))
  | 0x80 => some (.lanesel (.ofWord x))
  | 0x81 => some (.qswap (.ofWord x))
  | 0x82 => some (.qbcast (.ofWord x))
  | 0x83 => some (.vote (.ofWord x))
  | 0x84 => some (.red (.ofWord x))
  | 0x85 => some (.scanx (.ofWord x))
  | 0x86 => some (.matchLanes (.ofWord x))
  | 0x87 => some (.elect (.ofWord x))
  | 0x88 => some (.rclaim (.ofWord x))
  | 0x89 => some (.rgive (.ofWord x))
  | 0x8A => some (.rtry (.ofWord x))
  | 0x8B => some (.rcount (.ofWord x))
  | 0x90 => some (.ld (.ofWord x))
  | 0x91 => some (.st (.ofWord x))
  | 0x92 => some (.ldt (.ofWord x))
  | 0x93 => some (.atom (.ofWord x))
  | 0x94 => some (.atomcas (.ofWord x))
  | 0x95 => some (.redm (.ofWord x))
  | 0x96 => some (.stmc (.ofWord x))
  | 0x97 => some (.strd (.ofWord x))
  | 0x98 => some (.pref (.ofWord x))
  | 0x99 => some (.ldacq (.ofWord x))
  | 0x9A => some (.strel (.ofWord x))
  | 0x9B => some (.fence (.ofWord x))
  | 0x9C => some (.sigclr (.ofWord x))
  | 0x9D => some (.walk (.ofWord x))
  | 0x9E => some (.cinv (.ofWord x))
  | 0xA0 => some (.wait (.ofWord x))
  | 0xA1 =>
    let w := VWord.ofWord x
    some (if w.ebit 6 then .flagrdCnt w else .flagrd w)
  | 0xA2 => some (.boinit (.ofWord x))
  | 0xA3 => some (.boarr (.ofWord x))
  | 0xA4 => some (.boread (.ofWord x))
  | 0xA5 => some (.time (.ofWord x))
  | 0xA6 => some (.cycle (.ofWord x))
  | 0xB0 => some (.cpy (.ofWord x))
  | 0xB1 => some (.cpymc (.ofWord x))
  | 0xB2 => some (.cbres (.ofWord x))
  | 0xB3 => some (.cbcommit (.ofWord x))
  | 0xB4 => some (.cbacq (.ofWord x))
  | 0xB5 => some (.cbrel (.ofWord x))
  | 0xB6 => some (.cbinit (.ofWord x))
  | 0xB7 =>
    let w := VWord.ofWord x
    some (if w.ebit 5 then .lkqLen w else .lkqPush w)
  | 0xB8 => some (.cpyq (.ofWord x))
  | 0xC0 => some (.tcfgw (.ofWord x))
  | 0xC1 => some (.tcfgr (.ofWord x))
  | 0xC2 => some (.tload (.ofWord x))
  | 0xC3 => some (.tstore (.ofWord x))
  | 0xC4 =>
    let w := VWord.ofWord x
    some (if w.ebit 4 then .tzeroM w else .tzero w)
  | 0xC5 => some (.mma (.ofWord x))
  | 0xC6 => some (.mmas (.ofWord x))
  | 0xC7 => some (.mmbfp (.ofWord x))
  | 0xC8 => some (.accrd (.ofWord x))
  | 0xC9 => some (.accwr (.ofWord x))
  | 0xCA => some (.tokgive (.ofWord x))
  | 0xCB => some (.toktake (.ofWord x))
  | 0xCC => some (.cvdecl (.ofWord x))
  | 0xCD => some (.cvq (.ofWord x))
  | 0xE0 => some (.capq (.ofWord x))
  | 0xE1 => some (.sread (.ofWord x))
  | 0xE2 => some (.swrite (.ofWord x))
  | 0xE3 => some (.eret (.ofWord x))
  | 0xE4 => some (.pmack (.ofWord x))
  | 0xE5 => some (.leaseq (.ofWord x))
  | 0xE6 =>
    let w := VWord.ofWord x
    some (if w.md = 1 then .boostQuery w else if w.md = 2 then .boostRelease w else .boost w)
  | 0xE7 => some (.pricls (.ofWord x))
  | 0xE8 => some (.fevq (.ofWord x))
  | 0xE9 =>
    let w := VWord.ofWord x
    some (if w.ebit 6 then .tlbinvAsid w else .tlbinv w)
  | 0xEA => some (.hcall (.ofWord x))
  | 0xFF => some (.ill true (bits x 8 56))
  | _ => none

/-- The instruction a word's opcode and fields name. -/
def fields (x : W64) : Option Instr := fieldsAt (opcode x) x

/-- The decoder: reserved opcodes and refused fields are rejected by name (02 R53, R55). -/
def decodeWord (x : W64) : Except Reject Instr :=
  match fields x with
  | none => .error .illegalOpcode
  | some i =>
    match shape i with
    | none => .ok i
    | some p => if p.ok then .ok i else .error .illegalEncoding

/-- The word of 8 bytes in little-endian order (00 R3). -/
def wordOfBytes : List Byte → W64
  | [] => 0
  | b :: t => (wordOfBytes t <<< 8) ||| b.setWidth 64

/-- Decoding of bytes: an instruction and the bytes after it. -/
def decodeBytes (l : List Byte) : Except Reject (Instr × List Byte) :=
  if l.length < 8 then .error .illegalEncoding
  else (decodeWord (wordOfBytes (l.take 8))).map fun i => (i, l.drop 8)

/-- The word of an instruction; events have none. -/
def encode? : Instr → Option W64
  | .ill high rest => some (rest ++ (if high then 0xFF else 0x00 : BitVec 8))
  | .nop w => some (w.toWord 0x01)
  | .bra w => some (w.toWord 0x02)
  | .brx w => some (w.toWord 0x03)
  | .call w => some (w.toWord 0x04)
  | .callx w => some (w.toWord 0x05)
  | .ret w => some (w.toWord 0x06)
  | .exit w => some (w.toWord 0x07)
  | .meet w => some (w.toWord 0x08)
  | .meetx w => some (w.toWord 0x09)
  | .meetclr w => some (w.toWord 0x0A)
  | .yield w => some (w.toWord 0x0B)
  | .qhelp w => some (w.toWord 0x0C)
  | .succ w => some (w.toWord 0x0D)
  | .succx w => some (w.toWord 0x0E)
  | .refill w => some (w.toWord 0x0F)
  | .bars w => some (w.toWord 0x10)
  | .bara w => some (w.toWord 0x11)
  | .barw w => some (w.toWord 0x12)
  | .trap w => some (w.toWord 0x13)
  | .bkpt w => some (w.toWord 0x14)
  | .iadd w => some (w.toWord 0x20)
  | .isub w => some (w.toWord 0x21)
  | .iaddi w => some (w.toWord 0x22)
  | .imul w => some (w.toWord 0x23)
  | .imulh w => some (w.toWord 0x24)
  | .imad w => some (w.toWord 0x25)
  | .idiv w => some (w.toWord 0x26)
  | .irem w => some (w.toWord 0x27)
  | .imin w => some (w.toWord 0x28)
  | .imax w => some (w.toWord 0x29)
  | .iabs w => some (w.toWord 0x2A)
  | .ineg w => some (w.toWord 0x2B)
  | .iadds w => some (w.toWord 0x2C)
  | .isubs w => some (w.toWord 0x2D)
  | .iavg w => some (w.toWord 0x2E)
  | .icmp w => some (w.toWord 0x2F)
  | .and w => some (w.toWord 0x30)
  | .or w => some (w.toWord 0x31)
  | .xor w => some (w.toWord 0x32)
  | .not w => some (w.toWord 0x33)
  | .andn w => some (w.toWord 0x34)
  | .orn w => some (w.toWord 0x35)
  | .shl w => some (w.toWord 0x36)
  | .shr w => some (w.toWord 0x37)
  | .sar w => some (w.toWord 0x38)
  | .rot w => some (w.toWord 0x39)
  | .fshf w => some (w.toWord 0x3A)
  | .clz w => some (w.toWord 0x3B)
  | .ffs w => some (w.toWord 0x3C)
  | .popc w => some (w.toWord 0x3D)
  | .brev w => some (w.toWord 0x3E)
  | .bfx w => some (w.toWord 0x3F)
  | .bfi w => some (w.toWord 0x40)
  | .sel w => some (w.toWord 0x41)
  | .mov w => some (w.toWord 0x42)
  | .movi w => some (w.toWord 0x43)
  | .movhi w => some (w.toWord 0x44)
  | .lea w => some (w.toWord 0x45)
  | .iext w => some (w.toWord 0x46)
  | .iextWide w => some (w.toWord 0x46)
  | .pack w => some (w.toWord 0x47)
  | .unpk w => some (w.toWord 0x48)
  | .bytep w => some (w.toWord 0x49)
  | .idot4 w => some (w.toWord 0x4A)
  | .idot2 w => some (w.toWord 0x4B)
  | .shli w => some (w.toWord 0x4C)
  | .shri w => some (w.toWord 0x4D)
  | .sari w => some (w.toWord 0x4E)
  | .fadd w => some (w.toWord 0x50)
  | .fsub w => some (w.toWord 0x51)
  | .fmul w => some (w.toWord 0x52)
  | .fma w => some (w.toWord 0x53)
  | .fmin w => some (w.toWord 0x54)
  | .fmax w => some (w.toWord 0x55)
  | .fabs w => some (w.toWord 0x56)
  | .fneg w => some (w.toWord 0x57)
  | .fcmp w => some (w.toWord 0x58)
  | .frcp w => some (w.toWord 0x59)
  | .frsq w => some (w.toWord 0x5A)
  | .fsqrt w => some (w.toWord 0x5B)
  | .fdiv w => some (w.toWord 0x5C)
  | .fexp2 w => some (w.toWord 0x5D)
  | .flog2 w => some (w.toWord 0x5E)
  | .fsin w => some (w.toWord 0x5F)
  | .fcos w => some (w.toWord 0x60)
  | .ftanh w => some (w.toWord 0x61)
  | .fclass w => some (w.toWord 0x62)
  | .frnd w => some (w.toWord 0x63)
  | .cvtf w => some (w.toWord 0x64)
  | .cvtfWide w => some (w.toWord 0x64)
  | .cvti w => some (w.toWord 0x65)
  | .icvtf w => some (w.toWord 0x66)
  | .scacc w => some (w.toWord 0x67)
  | .scalex w => some (w.toWord 0x68)
  | .bfppack w => some (w.toWord 0x69)
  | .bfppackScale w => some (w.toWord 0x69)
  | .bfpunpk w => some (w.toWord 0x6A)
  | .fdot2 w => some (w.toWord 0x6B)
  | .fdot4 w => some (w.toWord 0x6C)
  | .lanesel w => some (w.toWord 0x80)
  | .qswap w => some (w.toWord 0x81)
  | .qbcast w => some (w.toWord 0x82)
  | .vote w => some (w.toWord 0x83)
  | .red w => some (w.toWord 0x84)
  | .scanx w => some (w.toWord 0x85)
  | .matchLanes w => some (w.toWord 0x86)
  | .elect w => some (w.toWord 0x87)
  | .rclaim w => some (w.toWord 0x88)
  | .rgive w => some (w.toWord 0x89)
  | .rtry w => some (w.toWord 0x8A)
  | .rcount w => some (w.toWord 0x8B)
  | .ld w => some (w.toWord 0x90)
  | .st w => some (w.toWord 0x91)
  | .ldt w => some (w.toWord 0x92)
  | .atom w => some (w.toWord 0x93)
  | .atomcas w => some (w.toWord 0x94)
  | .redm w => some (w.toWord 0x95)
  | .stmc w => some (w.toWord 0x96)
  | .strd w => some (w.toWord 0x97)
  | .pref w => some (w.toWord 0x98)
  | .ldacq w => some (w.toWord 0x99)
  | .strel w => some (w.toWord 0x9A)
  | .fence w => some (w.toWord 0x9B)
  | .sigclr w => some (w.toWord 0x9C)
  | .walk w => some (w.toWord 0x9D)
  | .cinv w => some (w.toWord 0x9E)
  | .wait w => some (w.toWord 0xA0)
  | .flagrd w => some (w.toWord 0xA1)
  | .flagrdCnt w => some (w.toWord 0xA1)
  | .boinit w => some (w.toWord 0xA2)
  | .boarr w => some (w.toWord 0xA3)
  | .boread w => some (w.toWord 0xA4)
  | .time w => some (w.toWord 0xA5)
  | .cycle w => some (w.toWord 0xA6)
  | .cpy w => some (w.toWord 0xB0)
  | .cpymc w => some (w.toWord 0xB1)
  | .cbres w => some (w.toWord 0xB2)
  | .cbcommit w => some (w.toWord 0xB3)
  | .cbacq w => some (w.toWord 0xB4)
  | .cbrel w => some (w.toWord 0xB5)
  | .cbinit w => some (w.toWord 0xB6)
  | .lkqPush w => some (w.toWord 0xB7)
  | .lkqLen w => some (w.toWord 0xB7)
  | .cpyq w => some (w.toWord 0xB8)
  | .tcfgw w => some (w.toWord 0xC0)
  | .tcfgr w => some (w.toWord 0xC1)
  | .tload w => some (w.toWord 0xC2)
  | .tstore w => some (w.toWord 0xC3)
  | .tzero w => some (w.toWord 0xC4)
  | .tzeroM w => some (w.toWord 0xC4)
  | .mma w => some (w.toWord 0xC5)
  | .mmas w => some (w.toWord 0xC6)
  | .mmbfp w => some (w.toWord 0xC7)
  | .accrd w => some (w.toWord 0xC8)
  | .accwr w => some (w.toWord 0xC9)
  | .tokgive w => some (w.toWord 0xCA)
  | .toktake w => some (w.toWord 0xCB)
  | .cvdecl w => some (w.toWord 0xCC)
  | .cvq w => some (w.toWord 0xCD)
  | .capq w => some (w.toWord 0xE0)
  | .sread w => some (w.toWord 0xE1)
  | .swrite w => some (w.toWord 0xE2)
  | .eret w => some (w.toWord 0xE3)
  | .pmack w => some (w.toWord 0xE4)
  | .leaseq w => some (w.toWord 0xE5)
  | .boost w => some (w.toWord 0xE6)
  | .boostQuery w => some (w.toWord 0xE6)
  | .boostRelease w => some (w.toWord 0xE6)
  | .pricls w => some (w.toWord 0xE7)
  | .fevq w => some (w.toWord 0xE8)
  | .tlbinv w => some (w.toWord 0xE9)
  | .tlbinvAsid w => some (w.toWord 0xE9)
  | .hcall w => some (w.toWord 0xEA)
  | _ => none

/-- The word of an instruction, 0 for an event. -/
def encode (i : Instr) : W64 := (encode? i).getD 0

/-- The opcode of a word instruction (02 R51). -/
def opcodeOf (i : Instr) : Nat := opcode (encode i)

/-- The instruction the decoder reads from the `nbits` low bits of `w`, the bits above being 0. -/
def decodeTableWord (nbits w : Nat) : Option Instr :=
  match decodeWord (BitVec.ofNat 64 (w % 2 ^ nbits)) with
  | .ok i => some i
  | .error _ => none

/-- The feature bits an opcode needs (18 R471). -/
def featuresOf (op : Nat) : List Nat :=
  if op = 0xC7 then [1, 2]
  else if 0xC0 ≤ op && op ≤ 0xCD then [1]
  else if 0x67 ≤ op && op ≤ 0x6A then [2]
  else if op = 0x0D || op = 0x0E || op = 0x0F || op = 0xB7 || op = 0xB8 then [3]
  else if op = 0x96 || op = 0x97 || op = 0xB1 then [4]
  else if op = 0x92 then [5]
  else if op = 0xE6 then [6]
  else [0]

end Sys2Proof
end

