-- ==== Sys2Proof/Machine/Sparse.lean ====
section
/-! DEFINITION. Sparse tables: lists of (number, value) pairs with strictly rising numbers. A table with
a default lists no entry equal to it, so that equal contents are equal lists. -/

namespace Sys2Proof.Machine

/-- The value listed for a key. -/
def tget? {α : Type} : List (Nat × α) → Nat → Option α
  | [], _ => none
  | (k, v) :: t, n => if k = n then some v else tget? t n

/-- The table with `v` listed for a key, in place. -/
def tput {α : Type} : List (Nat × α) → Nat → α → List (Nat × α)
  | [], n, v => [(n, v)]
  | (k, w) :: t, n, v =>
    if k = n then (n, v) :: t else if n < k then (n, v) :: (k, w) :: t else (k, w) :: tput t n v

/-- The table without a key. -/
def tdel {α : Type} : List (Nat × α) → Nat → List (Nat × α)
  | [], _ => []
  | (k, w) :: t, n => if k = n then tdel t n else (k, w) :: tdel t n

/-- The value of a key, or the default that unlisted keys hold. -/
def tgetD {α : Type} (d : α) (t : List (Nat × α)) (n : Nat) : α := (tget? t n).getD d

/-- The table with a key set; a key set to the default is not listed. -/
def tset {α : Type} [DecidableEq α] (d : α) (t : List (Nat × α)) (n : Nat) (v : α) : List (Nat × α) :=
  if v = d then tdel t n else tput t n v

/-- The table with the value of a listed key changed. -/
def tmod {α : Type} (t : List (Nat × α)) (n : Nat) (f : α → α) : List (Nat × α) :=
  match tget? t n with
  | some v => tput t n (f v)
  | none => t

/-- The table with the value of a key changed, the default standing for an unlisted key. -/
def tmodD {α : Type} [DecidableEq α] (d : α) (t : List (Nat × α)) (n : Nat) (f : α → α) : List (Nat × α) :=
  tset d t n (f (tgetD d t n))

/-- The first of the keys `n` upward, counted by `fuel`, that is not listed. -/
def tfree {α : Type} (t : List (Nat × α)) : Nat → Nat → Nat
  | 0, n => n
  | fuel + 1, n => if (tget? t n).isNone then n else tfree t fuel (n + 1)

/-- The keys rise strictly. -/
def rising {α : Type} : List (Nat × α) → Bool
  | (a, _) :: (b, w) :: t => decide (a < b) && rising ((b, w) :: t)
  | _ => true

/-- The canonical form of a table with a default: keys rise strictly and no entry is the default. -/
def canon {α : Type} [DecidableEq α] (d : α) (t : List (Nat × α)) : Bool :=
  rising t && t.all fun e => decide (e.2 ≠ d)

/-- Element `i` of a list replaced; a list too short is left as it is. -/
def lset {α : Type} (l : List α) (i : Nat) (v : α) : List α := l.set i v

/-- Element `i` of a list changed. -/
def lmod {α : Type} (l : List α) (i : Nat) (f : α → α) : List α := l.modify i f

end Sys2Proof.Machine
end

