-- ==== Sys2Proof/Machine/State.lean ====
section
/-! DEFINITION. The state of the package, as the spec gives it (INVENTORY.md lists every piece with its
rule), its value after reset, and the reasons a step can stop. -/

namespace Sys2Proof.Machine

/-! ## Threads and groups (04, 05, 07, 17) -/

/-- The state of a thread of a group (04 R96). -/
inductive LaneState where
  | live
  | held
  | exited
  | helper
  | gone
  deriving DecidableEq, Repr

/-- A thread (04 R96, R99; `resume` is the resume clause of 17 R454; `served` says of a PC that holds a word address that
the DL delay of that word has been served, 02 R48). -/
structure Thread where
  pc : W64
  meet : W64
  st : LaneState
  age : Nat
  resume : Option W64
  served : Bool
  deriving DecidableEq, Repr

/-- An exited thread. -/
def Thread.empty : Thread := ⟨0, 0, .exited, 0, none, false⟩

/-- A live thread at a clause (04 R92, R126). -/
def Thread.start (pc : W64) : Thread := ⟨pc, 0, .live, 0, none, false⟩

/-- The clause in progress of a group (02 R24, R31): its address, header and words as they were fetched,
the word that issues next, the issue set, and the cycle its last word ended (02 R48). -/
structure Run where
  caddr : W64
  header : W64
  words : List W64
  idx : Nat
  set : List Nat
  /-- The DL delay of the next word is served (02 R48). -/
  served : Bool
  /-- The cluster cycle from which DL counts, and the pass count in force then, once that cycle has come (02 R48). -/
  since : Nat
  passes : Option Nat
  /-- A word of the clause has YH; one is YIELD (02 R47, 04 R115). -/
  yh : Bool
  yielded : Bool
  /-- The cells whose promotion the next word, an LDACQ.rm, has asked for, by physical line (11 R306). -/
  asked : List Nat
  deriving DecidableEq, Repr

/-- A descriptor of WAIT as it is read from its four registers (07 R197). -/
structure WaitDesc where
  kind : Nat
  addr : Nat
  obs : W64
  deriving DecidableEq, Repr

/-- The loop of a WAIT (07 R198, R199): its start, its timeout in rt, its mode, the lanes of Active and the descriptors as
they were read before the loop; the descriptors met, for how many time units each has held without a break, and the
result once the loop has been left. -/
structure WaitLoop where
  start : W64
  timeout : Nat
  all : Bool
  act : List Nat
  descs : List WaitDesc
  met : List Nat
  held : List Nat
  res : Option W32
  deriving DecidableEq, Repr

/-- What a blocked word waits for (02 R24). -/
inductive Blocked where
  /-- Every flag of the group clear (04 R123, R129, 05 R143). -/
  | flags
  /-- Flag `f` below 63 (02 R27). -/
  | flagFull (f : Nat)
  /-- The phase of a block barrier to differ from the value seen (04 R120). -/
  | barrier (b : Nat) (ph : Bool)
  /-- The grant of a claim of `units` (05 R141). -/
  | claim (units : Nat)
  /-- A free entry of the regroup pool, for the lanes listed, each with its successor or none to exit (04 R123,
  R124). -/
  | pool (lanes : List (Nat × Option W64))
  /-- The phase that a word saved at a delivery waited for has completed since (04 R120). -/
  | passed
  /-- The loop of WAIT (07 R198). -/
  | wait (x : WaitLoop)
  /-- Free entries of the range-lock tables of the clusters listed, one for each entry it takes (08 R213). -/
  | rlt (tables : List Nat)
  /-- A slot of the cluster's Shelf Reader (10 R282). -/
  | walkers
  /-- The free run (`res`) or the filled run of the circular buffer at an offset (08 R230). -/
  | buffer (res : Bool) (off : Nat)
  /-- The end of the round of a convergence register that the group has signed (12 R334). -/
  | sign (cv : Nat)
  /-- The set of earlier writes of the group performed (17 R456). -/
  | pmack
  /-- The issue slot: the group's last word ended by another step, or its class is shed and held after a barrier word
  (15 R419). -/
  | slot
  deriving DecidableEq, Repr

/-- A synchronous trap before delivery (17 R447, R450). -/
structure Trap where
  code : Nat
  pc : W64
  caddr : W64
  faddr : W64
  info : W64
  resume : W64
  resumeClause : W64
  set : List Nat
  deriving DecidableEq, Repr

/-- The result register of an outstanding long-latency instruction, with its value where it is known
before completion (02 R26, R28). -/
structure Pending where
  key : Nat
  op : Nat
  val : Option W32
  deriving DecidableEq, Repr

/-- A group (02 R24, 04 R95, R96, 05 R132, 07 R195, 17 R448, R450). Register r of lane L is listed under
32 r + L; unlisted registers read 0; k0 to k3 are registers 120 to 123. -/
structure Group where
  block : Nat
  slot : Nat
  gslot : Nat
  alloc : Nat
  regs : List (Nat × W32)
  lanes : List Thread
  flags : List Nat
  cls : Nat
  run : Option Run
  blocked : Option Blocked
  /-- The blocked word of a delivery at a blocking point, by its address, to continue at its resumption
  (02 R24, 07 R201). -/
  saved : Option (W64 × Blocked)
  /-- The same for handler code. -/
  hsaved : Option (W64 × Blocked)
  pending : List Pending
  handler : Bool
  /-- H of 17 R450, with each lane's thread at entry and the frame it was given (17 R454). -/
  hset : List Nat
  entry : List Thread
  /-- The threads recorded for PREEMPT and SHED (17 R450). -/
  recorded : Option (List Thread)
  trapCause : W64
  trapPc : W64
  trapCaddr : W64
  trapFaddr : W64
  trapInfo : W64
  trapSave : W64
  /-- Faults detected after issue, oldest first (02 R33). -/
  late : List Trap
  /-- Asynchronous causes that wait (17 R452). -/
  preempt : Bool
  shed : Bool
  /-- A restore asks for delivery of REASON with RESTORE = 1 (17 R461). -/
  restore : Option Nat
  waitCount : Nat
  /-- Groups that issue a clause before this one does (02 R47, 04 R115). -/
  yieldTo : List Nat
  /-- Held after a barrier word because its class is shed (15 R419). -/
  shedHold : Bool
  /-- Held from its next clause boundary on (15 R420, 17 R453), and the end of its barrier window, in time units. -/
  holdNext : Bool
  shedAt : Option Nat
  pmacked : Bool
  deriving DecidableEq, Repr

/-- The mode of a block barrier (04 R119). -/
inductive BarMode where
  | unset
  | all
  | count (k : Nat)
  deriving DecidableEq, Repr

/-- A block barrier (04 R119); `arrived` lists group slots in ascending order. -/
structure Barrier where
  phase : Bool
  mode : BarMode
  arrived : List Nat
  deriving DecidableEq, Repr

/-- A thread in the regroup pool with its registers (04 R123, R126). -/
structure PoolThread where
  regs : List (Nat × W32)
  deriving DecidableEq, Repr

/-- An entry of the regroup pool: a successor and the threads that named it, in order (04 R124). -/
structure PoolEntry where
  succ : W64
  threads : List PoolThread
  deriving DecidableEq, Repr

/-- A formed group that waits for an empty slot or for units (04 R126, 05 R138). -/
structure Formed where
  succ : W64
  threads : List PoolThread
  /-- The group slot it has taken, once it waits for units in the claim queue of its kernel. -/
  slot : Option Nat
  deriving DecidableEq, Repr

/-! ## Matrix engines (12) -/

/-- A matrix operation: its word, the values of its register operands read in L0, and, once it has issued at the engine,
the tile configurations it found and the number that owns its range-lock entries (12 R327, R334, R342). -/
structure EngineOp where
  instr : Instr
  block : Nat
  vals : List W32
  cfg : List W32
  num : Nat
  /-- The outstanding operations that complete with it, one for each signer. -/
  ops : List Nat
  /-- A round whose signers differ (12 R334). -/
  mismatch : Bool
  deriving DecidableEq, Repr

/-- A convergence register (12 R332): the declared slots, the slots that signed, and the operand record of
the round's first signer with the operations that signed. -/
structure ConvReg where
  decl : List Nat
  signed : List Nat
  record : Option EngineOp
  deriving DecidableEq, Repr

/-! ## Blocks (04, 08, 12, 15, 17) -/

/-- A request that waits at a circular buffer (08 R232, R233): the descriptor's offset, the run it takes
from, and who waits: a group (`op = none`) or a `.cb` copy. -/
structure BufReq where
  off : Nat
  res : Bool
  gid : Nat
  op : Option Nat
  deriving DecidableEq, Repr

/-- A block (04 R91, R119, R124, 08 R207, 12 R323, R324, R332, R339, 15 R403, 17 R458). -/
structure Block where
  cohort : Nat
  index : Nat
  core : Nat
  /-- The group slots of the core that the block's slots 0 to G − 1 hold. -/
  gslots : List Nat
  barriers : List Barrier
  pool : List PoolEntry
  forming : List Formed
  conv : List ConvReg
  /-- Byte b of tile m is listed under 8192 m + b; unlisted bytes are 0. -/
  tiles : List (Nat × Byte)
  tcfg : List W32
  /-- Element [i][n] of accumulator a is listed under 4096 a + 64 i + n; unlisted elements are 0. -/
  accs : List (Nat × W32)
  /-- The accumulators whose token is with the vector side. -/
  vectorTokens : List Nat
  /-- The block's scratchpad, by block offset; unlisted bytes are 0. -/
  scratch : List (Nat × Byte)
  hwm : Nat
  bufq : List BufReq
  boostUntil : Option Nat
  boostBank : Nat
  boostNote : Nat
  /-- The virtual address of its context image. -/
  image : Nat
  deriving DecidableEq, Repr

/-! ## Translation and caches (09, 10) -/

/-- An entry of a TLB (09 R246, R248, R250, R263): the page, the fields of its leaf as they apply, the
physical lines of the entries it was built from, and a hold. A negative result has `ok = false`. -/
structure TlbEntry where
  asid : Nat
  /-- Virtual address of the page over 65,536. -/
  vpage : Nat
  /-- The level of its leaf, 1 to 3: a page of 2^(13 level + 3) bytes. -/
  lvl : Nat
  ok : Bool
  /-- Physical address of the page over 65,536. -/
  frame : Nat
  home : Nat
  coh : Bool
  g : Bool
  x : Bool
  w : Bool
  r : Bool
  tags : List Nat
  /-- Its holds: the group, the LDT, and the end in rt (09 R263). -/
  hold : List (Nat × Nat × Nat)
  deriving DecidableEq, Repr

/-- An LDT that started or joined a walk, with the lowest address of its lanes that are not helper lanes. -/
structure LdtJoin where
  op : Nat
  va : Option Nat
  deriving DecidableEq, Repr

/-- A prefetch that waits for a walk (09 R260). -/
structure PrefJoin where
  core : Nat
  va : Nat
  size : Nat
  hint : Nat
  deriving DecidableEq, Repr

/-- A walk in flight (09 R247, R262): active, or waiting for a walker of its bank in the order of the walks' numbers. -/
structure WalkRec where
  chip : Nat
  aspace : W64
  vpage : Nat
  bank : Nat
  active : Bool
  /-- The clusters that asked for it. -/
  clusters : List Nat
  ldts : List LdtJoin
  prefs : List PrefJoin
  deriving DecidableEq, Repr

/-- Placement classes (10 R278). -/
inductive Place where
  | stream
  | default
  | keep
  | pinned
  deriving DecidableEq, Repr

/-- A line of an L1 (10 R268, 09 R248). Masks have one bit a byte. Lists of lines are in order of use,
the most recent first. -/
structure L1Line where
  /-- Virtual address over 128. -/
  vline : Nat
  asid : Nat
  g : Bool
  r : Bool
  w : Bool
  /-- Physical address over 128. -/
  pline : Nat
  /-- Self-invalidating (10 R277). -/
  self : Bool
  place : Place
  /-- The class that the line takes in the L2 when its bytes are written back there (10 R272, R279). -/
  below : Place
  valid : BitVec 128
  dirty : BitVec 128
  data : BitVec 1024
  deriving DecidableEq, Repr

/-- The L2 slice directory's state of a line (10 R274). -/
inductive DirState where
  | i
  | s (cores : List Nat)
  | o (core : Nat) (dirty : BitVec 128)
  | p (masks : List (Nat × BitVec 128))
  deriving DecidableEq, Repr

/-- A line of an L2 slice (10 R270, R271). -/
structure L2Line where
  pline : Nat
  owned : Bool
  place : Place
  dirty : BitVec 128
  data : BitVec 1024
  dir : DirState
  deriving DecidableEq, Repr

/-- A line of an LLC (10 R268). -/
structure LlcLine where
  pline : Nat
  dirty : BitVec 128
  data : BitVec 1024
  deriving DecidableEq, Repr

/-- What the device records of a 64 KiB frame at residency (10 R286, R288, 09 R244). -/
structure Frame where
  home : Nat
  coh : Bool
  /-- Device bias. -/
  bias : Bool
  /-- Running launches whose leases pin it. -/
  pins : List Nat
  /-- HOME and COH of its leaf when a launch last made it resident (10 R286). -/
  leaf : Option (Nat × Bool)
  deriving DecidableEq, Repr

/-! ## Outstanding operations (02 R26) -/

/-- A row of memory or of scratchpad of a copy unit: a physical address with its treatment, or a block's
scratchpad offset. -/
inductive Spot where
  | mem (pa : Nat)
  | scr (block off : Nat)
  deriving DecidableEq, Repr

/-- A copy (08 R222 to R226, R233). -/
structure Copy where
  out : Bool
  cb : Bool
  maddr : W64
  mstride : W32
  soff : Nat
  sstride : W32
  rows : Nat
  /-- Row length in units of 16 bytes. -/
  units : Nat
  bo : Option Nat
  /-- The blocks that receive: the issuing block, or the receivers of a CPYMC. -/
  recv : List Nat
  /-- The blocks of the cohort by BLK_IN_COH, for a memory side in the window. -/
  peers : List Nat
  /-- The taken slot of a `.cb` copy. -/
  slot : Option Nat
  /-- The translations found at issue, by virtual page of 64 KiB. -/
  xlat : List (Nat × TlbEntry)
  aspace : W64
  hint : Nat
  /-- Units performed, in the numbering of 08 R223: receiver by receiver, row by row. -/
  done : List Nat
  /-- The receivers, by place, whose count arrival is made (08 R224, R225). -/
  counted : List Nat
  /-- The source bytes read before the first write, where the sides overlap (09 R257). -/
  snap : Option (List (Nat × Byte))
  refused : Bool
  deriving DecidableEq, Repr

/-- What an outstanding operation still has to do. -/
inductive OpKind where
  /-- Nothing but its completion. -/
  | plain
  /-- Walks it started or joined (09 R262). -/
  | ldt (walks : List Nat)
  | copy (c : Copy)
  /-- The queue offset and the number of items (08 R235), their address with its translations, and the hint; the items are
  read at completion of the memory side. -/
  | cpyq (q n : Nat) (addr : W64) (xlat : List (Nat × TlbEntry)) (hint : Nat)
  /-- A Shelf Reader walk (10 R282 to R284): op, reach, barrier object, the next virtual line and the line after the
  last, and the address space. -/
  | shelf (op reach : Nat) (bo : Option Nat) (next stop : Nat) (aspace : W64)
  /-- TLBINV: walks that began before it and match, operations with a translation from a removed entry, and its test
  (09 R252). -/
  | tlbinv (walks ops : List Nat) (asid : Nat) (global : Bool) (lo hi : Nat)
  /-- A matrix operation or signature (12 R327, R334). -/
  | engine
  /-- A word that acquires: later events of its group wait for its completion (11 R313). -/
  | acquire
  /-- TOKTAKE of an accumulator (12 R340). -/
  | token (a : Nat)
  deriving DecidableEq, Repr

/-- An outstanding long-latency word (02 R26, R33): its group, flag, issuing word, issue set, active
lanes, result keys, and its work. -/
structure Op where
  gid : Nat
  block : Nat
  core : Nat
  flag : Option Nat
  pc : W64
  caddr : W64
  set : List Nat
  act : List Nat
  dest : Nat
  kind : OpKind
  /-- It waits for a conflicting entry of an earlier operation before it moves any byte (08 R215). -/
  held : Bool
  deriving DecidableEq, Repr

/-- The range of a range-lock entry (08 R213). -/
inductive LockRange where
  /-- 128-byte lines of virtual memory. -/
  | mem (lo hi : Nat)
  /-- 16-byte units of a block's scratchpad. -/
  | scr (block lo hi : Nat)
  /-- A `.cb` entry that covers no byte yet (08 R233). -/
  | none
  deriving DecidableEq, Repr

/-- A range-lock entry; `op` numbers its operation, `seq` its place in issue order (08 R215). -/
structure Lock where
  range : LockRange
  write : Bool
  op : Nat
  deriving DecidableEq, Repr

/-! ## Cores (04, 05, 10, 11, 12) -/

/-- A place in the claim queue of a kernel on a core (05 R138). -/
inductive Claim where
  | group (gid units : Nat)
  | formed (block units : Nat)
  deriving DecidableEq, Repr

/-- The quota and the account of a kernel on a core (05 R135 to R138, 16 R441). -/
structure Quota where
  launch : Nat
  units : Nat
  slots : Nat
  scratch : Nat
  claims : List Claim
  deriving DecidableEq, Repr

/-- An issue slot (04 R102, R104): the group whose clause runs, the cycle it is free from, and the group
slot last chosen in each priority class. -/
structure IssueSlot where
  cur : Option Nat
  freeAt : Nat
  last : List (Nat × Nat)
  deriving DecidableEq, Repr

/-- A line of an instruction cache: its physical address over 128, and its bytes as they were when it was fetched
(01 R12, 02 R34). -/
structure CodeLine where
  pline : Nat
  data : BitVec 1024
  deriving DecidableEq, Repr

/-- A core (01 R12, 10 R268, 11 R299, 12 R318 to R322, R327). -/
structure Core where
  l1 : List L1Line
  /-- The instruction cache, of at most 512 lines, the most recent first (01 R12). -/
  icache : List CodeLine
  filter : BitVec 896
  filterSat : Bool
  engine : List EngineOp
  twin : Bool
  drain : Bool
  /-- The operation at the head of the queue began before the swap did. -/
  drainHead : Bool
  swaps : Nat
  temp0 : Nat
  temp1 : Nat
  /-- The time the previous swap ended, in time units. -/
  lastSwap : Nat
  /-- The time of the last reading of its comparators (12 R321). -/
  readAt : Option Nat
  quotas : List Quota
  slots : List IssueSlot
  /-- How long it has had ready groups and issued nothing, in time units, for its watchdog (18 R474). -/
  unissued : Nat
  deriving DecidableEq, Repr

/-! ## Launches, cohorts, graphs and queues (16, 17) -/

/-- A lease (09 R241, R242): base, length, rights, and whether it is implicit (17 R465). -/
structure Lease where
  base : Nat
  len : Nat
  r : Bool
  w : Bool
  implicit : Bool
  deriving DecidableEq, Repr

/-- The stage of a launch (16 R433). -/
inductive Stage where
  /-- A graph node whose predecessors have not all completed. -/
  | waiting
  | leases
  | body
  | moves
  | placing
  | running
  | done
  deriving DecidableEq, Repr

/-- A launch (16 R432 to R434): its record, stage, cohort account and counters. -/
structure Launch where
  /-- The words of the record. -/
  record : List W64
  queue : Nat
  aspace : W64
  /-- Parsed from a system queue (17 R449). -/
  system : Bool
  recId : W64
  /-- The leases of its list, then the implicit ones (09 R241, R242); the list breaks a rule or cannot be read. -/
  leases : List Lease
  leaseBad : Bool
  /-- Page moves still to make: page, device bias (16 R439); the list has a bad entry or cannot be read. -/
  moves : List (Nat × Bool)
  movesBad : Bool
  /-- The words of the code object's header and of the kernel's entry in its table (16 R444). -/
  object : List W64
  kent : List W64
  /-- Entry clause of the body, and the clause address of each segment of a translation (16 R446). -/
  entry : W64
  segments : List W64
  /-- The body is a translation: successors are segment indices (16 R445). -/
  translated : Bool
  /-- The code object's range, and the words of the code as the launch began or as the translator made them (02 R32,
  R34, 16 R446). -/
  text : Nat × Nat
  code : List (Nat × W64)
  stage : Stage
  status : Option (Nat × Nat)
  /-- Order of entry into placement, and of parse in its queue. -/
  order : Nat
  /-- The cohorts below the first number not yet placed, by their count, and the higher numbers placed before it; cohorts
  to place again; cohorts ended. -/
  placed : Nat
  ahead : List Nat
  again : List Nat
  ended : Nat
  /-- Event counters (03 R86), 28 in the order of 16 R434, and those whose threshold record is posted. -/
  counters : List Nat
  posted : List Nat
  graph : Option (Nat × Nat)
  /-- A KILL that waits for the end of a move (16 R442). -/
  killed : Bool
  /-- The copies that were under way when their blocks left their cores: its completion waits for them (16 R434,
  19 R486). -/
  copies : List Nat
  deriving DecidableEq, Repr

/-- A block saved in its image (17 R457, R458). -/
structure Saved where
  bid : Nat
  block : Block
  groups : List (Nat × Group)
  /-- The source core's filter and flag (11 R308). -/
  filter : BitVec 896
  filterSat : Bool
  deriving DecidableEq, Repr

/-- A pre-emption in progress (17 R455, R456): the reason, the time of the request and the end of the last
`.cb` copy that ran past 20 µs, in time units, and the place of the move it serves: the chiplet slot and the cores (16 R442). -/
structure Preempt where
  reason : Nat
  at_ : Nat
  last : Nat
  move : Option (Nat × List Nat)
  deriving DecidableEq, Repr

/-- Where a cohort is. -/
inductive CohortState where
  | running
  | preempting (p : Preempt)
  | saved (p : Preempt) (blocks : List Saved)
  deriving DecidableEq, Repr

/-- A placed cohort (04 R91, 16 R440 to R442, 15 R419). -/
structure Cohort where
  launch : Nat
  number : Nat
  /-- Compute chiplet slot. -/
  chip : Nat
  /-- Block identifiers, by BLK_IN_COH. -/
  blocks : List Nat
  state : CohortState
  lastMove : Option Nat
  deriving DecidableEq, Repr

/-- A graph (16 R443): its queue, template, serial mark, record, edges and nodes (launches). -/
structure Graph where
  queue : Nat
  template : W64
  asid : Nat
  serial : Bool
  compl : W64
  recId : W64
  aspace : W64
  edges : List (Nat × Nat)
  nodes : List Nat
  /-- Status and trap cause of each node that has completed. -/
  statuses : List (Option (Nat × Nat))
  counts : List Nat
  /-- Bytes of its snapshot. -/
  bytes : Nat
  /-- Ended by KILL (16 R426). -/
  killed : Bool
  deriving DecidableEq, Repr

/-- The packet that holds back its queue (16 R427). -/
inductive Held where
  /-- Counters still to meet, the time of the last test and of the timeout (16 R430). -/
  | fence (left : List (W64 × W64)) (start : Nat) (timeout : Nat)
  | signal (op : Nat) (irq : Bool) (addr value : W64) (idx : Nat)
  | barrier (recs : List W64)
  | graph (words : List W64)
  deriving DecidableEq, Repr

/-- A queue context (16 R424, R426, R436). -/
structure Queue where
  ring : W64
  enable : Bool
  maxClass : Nat
  log2Slots : Nat
  aspace : W64
  rptr : W64
  wptr : W64
  evq : W64
  msi : Nat
  evqLog2 : Nat
  err : Nat
  state : Nat
  count : W64
  held : Option Held
  deriving DecidableEq, Repr

/-- A queue not loaded. -/
def Queue.off : Queue := ⟨0, false, 0, 0, 0, 0, 0, 0, 0, 0, 0, 0, 0, none⟩

/-- A translated body (16 R446): its key (CODE, KERNEL, LCHK, shelfmark) and result. -/
structure Body where
  key : List W64
  entry : W64
  segments : List W64
  words : List (Nat × W64)
  deriving DecidableEq, Repr


/-! ## Clusters (04, 07, 08, 09, 15) -/

/-- The states of a droop detector (15 R397). -/
inductive Droop where
  | idle
  /-- Cycles left, and the cycles of the hold to come. -/
  | stretch (left hold : Nat)
  | hold (left : Nat)
  deriving DecidableEq, Repr

/-- A cluster (04 R103, 07 R205, 08 R213, 09 R246, 15 R393 to R403). Times are in time units. -/
structure Cluster where
  pass : Nat
  /-- Cycles counted since power-up, and the time units of the cycle in progress. -/
  cycles : Nat
  phase : Nat
  trips : Nat
  droop : Droop
  ballast : Nat
  balance : Nat
  /-- The time of the last step of the balance code, and since when Δ has been below 4 %. -/
  balanceAt : Nat
  /-- Its mean current at the last evaluation of its pair, in the unit of the measurement (15 R392). -/
  amps : Nat
  /-- The last evaluation of its pair. -/
  evalAt : Nat
  calmSince : Option Nat
  thermal : Nat
  /-- Since when both twins of a core have read at or above THOT, by core; and since when every twin of
  the cluster has read below TCOOL. -/
  hotSince : List (Nat × Nat)
  coolSince : Option Nat
  /-- Issue stopped at 125 °C (15 R401). -/
  stopped : Bool
  rail : Nat
  shed : Nat
  power : Nat
  /-- The last moment it was boosted (15 R403). -/
  boostedAt : Option Nat
  tlb : List TlbEntry
  locks : List (Nat × Lock)
  deriving DecidableEq, Repr

/-- A compute chiplet slot (09 R246, 10 R268, 14 R390, 18 R474). -/
inductive SlotPower where
  | active
  | spare
  | off
  /-- Isolated by a fence, and still powered (18 R474). -/
  | fenced
  deriving DecidableEq, Repr

/-- A forwarding entry of a block that has moved (14 R390): from core, to core, the time it is made. -/
structure Forward where
  cohort : Nat
  block : Nat
  src : Nat
  dst : Nat
  at_ : Nat
  deriving DecidableEq, Repr

structure Chiplet where
  power : SlotPower
  /-- The logical number it was fenced under, with the time of detection, for the spare (18 R474). -/
  lost : Option (Nat × Nat)
  tlb : List TlbEntry
  l2 : List L2Line
  forwards : List Forward
  deriving DecidableEq, Repr

/-! ## Device memory (13) -/

/-- An interleave set (13 R352, R358). -/
structure ISet where
  size : Nat
  linear : Bool
  mask : List Nat
  live : List Nat
  hold : Nat
  visible : Bool
  /-- Being created: its bytes are being cleared (13 R358). -/
  creating : Bool
  deriving DecidableEq, Repr

/-- A line in transit (13 R364, R366): whether its data has arrived, and the bytes stored before that. -/
structure Transit where
  arrived : Bool
  held : BitVec 128
  deriving DecidableEq, Repr

/-- The migration of a set (13 R363). -/
structure Migration where
  set : Nat
  old : List Nat
  new : List Nat
  tide : Nat
  lines : Nat
  transit : List (Nat × Transit)
  landed : List Nat
  deriving DecidableEq, Repr

/-- A retirement (13 R359 to R362): its channels, its stack, its engine, the sets still to migrate with
their new live lists, and the migration in progress. -/
structure Retirement where
  channels : List Nat
  stack : Option Nat
  engine : Nat
  paused : Bool
  affected : List Nat
  todo : List (Nat × List Nat)
  cur : Option Migration
  deriving DecidableEq, Repr

/-! ## The network (14) -/

/-- A packet (14 R377, R385): class 0 REQ, 1 RSP, 2 COH, 3 BULK; source and destination stations; ready time. -/
structure Packet where
  cls : Nat
  src : Nat
  dst : Nat
  /-- The chiplet of its destination is a logical number, until a hub maps it (14 R388). -/
  logical : Bool
  /-- The task it is addressed to, by its cohort, and the core it is addressed to there (14 R390), for promotion requests
  and late responses. -/
  task : Option (Nat × Nat)
  /-- The outstanding operation of a thread whose access it carries, the address of the access, and whether it is a promotion
  request of that operation (14 R389, 11 R306, 17 R447). -/
  op : Option Nat
  addr : W64
  promotion : Bool
  flits : Nat
  promoted : Bool
  ready : Nat
  /-- It is a NODE_FENCED response (14 R389). -/
  fenced : Bool
  payload : Nat
  deriving DecidableEq, Repr

/-- A packet copy in a replay buffer (14 R383): its segment's end, ring, number, and the time it is freed;
`resend` marks it for injection again. -/
structure Replay where
  pkt : Packet
  dst : Nat
  ring : Nat
  seq : Nat
  freeAt : Nat
  resend : Bool
  deriving DecidableEq, Repr

/-- A packet that waits at a station to be injected: its ring, the end of its segment, and the entry it holds where it came
to a gateway from the fabric (14 R382, R384). -/
structure Queued where
  ring : Nat
  dst : Nat
  entry : Option Nat
  pkt : Packet
  deriving DecidableEq, Repr

/-- A station (14 R381 to R384): packets that wait to be injected; credits; the class served last; replay copies; the next
number of each flow; the expected number of each source, class and pair; and the packets accepted, with the class entry each
takes. -/
structure Station where
  queue : List Queued
  credit : List Nat
  served : Nat
  replay : List Replay
  next : List (Nat × Nat)
  expect : List (Nat × Nat)
  accepted : List (Nat × Packet)
  deriving DecidableEq, Repr

/-- A packet on a ring (14 R379): its segment, ring and number, and the cycles in which its flits were injected, the header's
first. -/
structure Flight where
  pkt : Packet
  src : Nat
  dst : Nat
  ring : Nat
  seq : Nat
  sent : List Nat
  /-- Its destination has accepted or dropped it, by its header. -/
  judged : Bool
  deriving DecidableEq, Repr

/-- A NACK (14 R381): the cycle from which it may enter the side ring, and the cycle in which it did. -/
structure Nack where
  target : Nat
  by_ : Nat
  cls : Nat
  ring : Nat
  dropped : Nat
  expected : Nat
  ready : Nat
  sent : Option Nat
  deriving DecidableEq, Repr

/-- A packet that a gateway or a hub holds, or that crosses the interposer (14 R387, R388). -/
structure FabricPacket where
  pkt : Packet
  /-- The node that holds it, or 16 + h for hub h. -/
  at_ : Nat
  /-- The gateway station and the entry it takes there, until it enters the fabric. -/
  gate : Option (Nat × Nat)
  /-- The link whose credit of its class it holds: from a node or a hub, to a hub or a node (14 R387). -/
  link : Option (Nat × Nat)
  deriving DecidableEq, Repr

/-! ## Management (01, 18) -/

/-- An interleave set of the configuration image (18 R472). -/
structure ImageSet where
  set : Nat
  size : Nat
  linear : Bool
  mask : List Nat
  visible : Bool
  deriving DecidableEq, Repr

/-- A copy of the signed configuration image (18 R472). -/
structure Image where
  valid : Bool
  seq : Nat
  active : List Nat
  spares : List Nat
  pmbus : Nat
  /-- The size of set 0, or none for the largest, and the further sets. -/
  set0 : Option Nat
  set0Visible : Bool
  sets : List ImageSet
  curve : List W64
  curveCtl : W64
  llcBytes : Nat
  ports : W64
  /-- The limit of corrected errors of a channel (13, before R356). -/
  errLimit : Nat
  deriving DecidableEq, Repr, Inhabited

/-- What the self-test at the next reset finds wanting: chiplet slots, channels, bytes of the LLCs, and scale-up ports
(01 R17). -/
structure SelfTest where
  slots : List Nat
  channels : List Nat
  llcBytes : Nat
  ports : W64
  deriving DecidableEq, Repr

/-- A scale-up peer (18 R479): the offsets it exports to this device, as ranges. -/
structure Peer where
  exports : List (Nat × Nat)
  deriving DecidableEq, Repr

/-- The error ring (18 R470, R478). -/
structure ErrRing where
  base : Nat
  log2 : Nat
  count : Nat
  deriving DecidableEq, Repr

/-- The completion of a host access: successful, poisoned, and the line it read (13 R355, R373). -/
structure HostReply where
  ok : Bool
  poison : Bool
  data : BitVec 1024
  deriving DecidableEq, Repr

/-! ## The power controller (15) -/

/-- A flood in progress (15 R422): its point, the classes to restore, and the time of the next restore. -/
structure Flood where
  point : Nat
  next : Nat
  deriving DecidableEq, Repr

/-- An accepted PSTP sample (15 R412, R417). -/
structure Sample where
  freq : Nat
  vbus : Nat
  at_ : Nat
  deriving DecidableEq, Repr

/-- The power controller. Times are in time units. -/
structure Power where
  curve : List W64
  /-- The curve in use, with its FAILSAFE and HYST below, and one that a commit has passed: it is in use from the next sample
  on (15 R416). -/
  inUse : List W64
  pending : Option (List W64 × Nat × (Nat × Nat))
  ctl : W64
  useFailsafe : Nat
  useHyst : Nat × Nat
  badFrames : Nat
  failsafe : Bool
  /-- Last readings used, with their times. -/
  freq : Nat
  vbus : Nat
  freqAt : Option Nat
  vbusAt : Option Nat
  /-- The time the last frame was accepted; the reply to send. -/
  frameAt : Nat
  reply : W32
  seq : Nat
  /-- The points selected by the last consecutive worse samples, newest first. -/
  worse : List Nat
  samples : List Sample
  flood : Option Flood
  /-- The package power over the last 100 µs in W, and since when it is below 95 % of CEIL_W. -/
  watts : Nat
  lowSince : Option Nat
  /-- Core-rail means in mA, newest first, and the rail ceiling. -/
  rail : List Nat
  railOver : Bool
  railSince : Option Nat
  /-- The times of the last rail mean, power sample and thermal check. -/
  railAt : Option Nat
  wattsAt : Option Nat
  thermalAt : Option Nat
  /-- A new curve is in use, and the point is to be chosen again (15 R416). -/
  rechoose : Bool
  /-- An ebb whose package power is not yet at its ceiling. -/
  ebb : Bool
  deriving DecidableEq, Repr

/-! ## Events -/

/-- What happens next. The events of spec/opcode_table.json are `op`; `issue` lets the group's clause issue
its next word; the others are happenings outside the rules that their rules speak of (log 1). -/
inductive Event where
  | op (i : Instr)
  | issue (g : Nat)
  /-- Time passes, in units of 1/76.5 GHz (log 8). -/
  | elapse (units : Nat)
  /-- A stored line becomes uncorrectable (13 R371), or an error of a channel is corrected (13 R370). -/
  | corrupt (pline : Nat)
  | corrected (channel : Nat)
  /-- A peer writes its memory, or changes its exports (18 R479). -/
  | peerWrite (pa : Nat) (data : List Byte)
  | peerExport (peer : Nat) (ranges : List (Nat × Nat))
  /-- A core's instruction cache takes a line, or drops one (01 R12, 02 R34). -/
  | codeFill (core pline : Nat)
  | codeDrop (core pline : Nat)
  /-- The next word of the commit in progress is written (01 R18). -/
  | publish
  /-- The host reads 8 bytes of BAR0 at an offset (00 R5, 18 R468). -/
  | barRead (off : Nat)
  /-- Requests that wait at the circular buffers of a block are granted (08 R232). -/
  | grant (block : Nat)
  /-- A unit hands a packet to its station (14 R377). -/
  | offer (station : Nat) (p : Packet)
  /-- A stop's unit consumes the oldest accepted packet of a class (14 R382). -/
  | consume (station cls : Nat)
  /-- The device launches a kernel of its own from a system queue (16 R446, 17 R449), a translator among them, by the launch
  whose body it makes. -/
  | systemLaunch (words : List W64) (aspace : W64) (serves : Option Nat)
  /-- Parts fail or pass the self-test of the next reset (01 R17). -/
  | selfTest (t : SelfTest)
  /-- Software requests a page move (10 R287). -/
  | pageMove (pa : Nat) (home : Nat) (coh bias : Bool)
  deriving DecidableEq, Repr, Inhabited

/-! ## The state -/

/-- The package. -/
structure State where
  groups : List (Nat × Group)
  blocks : List (Nat × Block)
  cohorts : List (Nat × Cohort)
  launches : List (Nat × Launch)
  graphs : List (Nat × Graph)
  queues : List (Nat × Queue)
  bodies : List Body
  /-- Translators that run, by their launch and the key of their translation, and the keys of translations that are made
  (16 R446). -/
  translators : List (Nat × List W64)
  translated : List (List W64)
  /-- The queue whose packet was parsed last (16 R427). -/
  lastQueue : Nat
  ops : List (Nat × Op)
  walks : List (Nat × WalkRec)
  /-- The next number of a block, a cohort, a launch, a graph, an operation, a walk. -/
  fresh : Nat
  cores : List (Nat × Core)
  clusters : List (Nat × Cluster)
  chiplets : List (Nat × Chiplet)
  mem : List Host.Cell
  llc : List LlcLine
  frames : List (Nat × Frame)
  /-- Host sectors that the device owns (10 R280), by physical address over 64; those that the host holds modified; and
  the device lines that the host may cache (10 R288), by physical address over 128. -/
  sectors : List Nat
  hostSectors : List Nat
  hostLines : List Nat
  /-- The cohort that last released a cell at a scope narrower than `.coh`, by the cell's physical line: the task that a
  promotion request for the cell is addressed to (14 R390; the model's own, log 76). -/
  releasers : List (Nat × Nat)
  /-- The MiB that each LLC has retired since reset (10 R271). -/
  llcRetired : List (Nat × Nat)
  /-- Page moves that wait for a quiesce point, by software's request (10 R287). -/
  pageMoves : List (Nat × Nat × Bool × Bool)
  /-- The catalogue as it is committed, as its readers find it, and the writes of the commit in progress that they do not
  find yet (01 R17, R18). -/
  catalogue : List W64
  shown : List W64
  publishing : List (Nat × W64)
  /-- Time since reset, in units of 1/76.5 GHz (log 8). -/
  now : Nat
  fevThresh : W32
  trapVec : W64
  ctxStore : W64
  ctxUnits : W64
  thot : Nat
  tcool : Nat
  drpLvl : Nat
  drpStretch : Nat
  drpHold : Nat
  boostCfg : W64
  bgShare : W64
  netWrr : W64
  shedCfg : W64
  qtab : W64
  power : Power
  sets : List (Nat × ISet)
  /-- Channels live by number; spare lines used, errors corrected since the last record, and the time of
  that record, by channel. -/
  liveChannels : List Nat
  spares : List (Nat × Nat)
  corrected : List (Nat × Nat)
  correctedTotal : List (Nat × Nat)
  reported : List (Nat × Nat)
  recalibrating : List (Nat × Nat)
  recalAt : List (Nat × Nat)
  /-- The start of the scrub pass in progress, and the lines that it has read (13 R374). -/
  scrubSince : Nat
  scrubbed : List Nat
  retirements : List Retirement
  /-- A launch has ended, a set is deleted or a hold set since the paused retirement was last tested (13 R361). -/
  retestDue : Bool
  /-- The reads and writes of the last 10 µs of each Drift Engine: engine, channel and time (13 R367). -/
  driftUse : List (Nat × Nat × Nat)
  bad : List Nat
  stations : List (Nat × Station)
  flights : List (Nat × Flight)
  nacks : List (Nat × Nack)
  fabric : List (Nat × FabricPacket)
  mbAddr : W64
  mailbox : List W64
  /-- The set a create command is clearing, with its record's address. -/
  creating : Option (Nat × W64)
  negotiated : Bool
  features : BitVec 128
  errRing : Option ErrRing
  imageA : Image
  imageB : Image
  /-- The copy in use since the last reset is B. -/
  usesB : Bool
  /-- The service log (18 R473). -/
  logSlots : List Nat
  logChannels : List Nat
  selfTest : SelfTest
  /-- The highest generation published before the last reset (01 R18, 16 R438). -/
  pastGen : W64
  peers : List (Nat × Peer)
  /-- Interrupts posted, oldest first, and the last PMBus answer. -/
  msix : List Nat
  pmbus : W64
  /-- The last completions that the host was given, of a CXL.mem access and of a read of BAR0 (13 R355, R373, 00 R5). -/
  hostReply : HostReply
  barReply : W64
  /-- A boundary error of node 9 to 15 was fatal (01 R10). -/
  dead : Bool
  /-- The model's own: the group whose word exec performs, the events that come next, and the number of
  free values taken (log 1). -/
  issuing : Option Nat
  agenda : List Event
  choice : Nat
  deriving DecidableEq, Repr

/-- A core with nothing in it, its twins cold (10, 11 R299, 12 R318). -/
def Core.idle : Core :=
  { l1 := [], icache := [], filter := 0, filterSat := false, engine := [], twin := false, drain := false, drainHead := false
    swaps := 0, temp0 := 0, temp1 := 0, lastSwap := 0, readAt := none, quotas := []
    slots := [⟨none, 0, []⟩, ⟨none, 0, []⟩, ⟨none, 0, []⟩, ⟨none, 0, []⟩], unissued := 0 }

/-- A cluster right after power-up (04 R103, 15 R396). -/
def Cluster.idle : Cluster :=
  { pass := 0, cycles := 0, phase := 0, trips := 0, droop := .idle, ballast := 0, balance := 0, balanceAt := 0, amps := 0, evalAt := 0
    calmSince := none, thermal := 0, hotSince := [], coolSince := none, stopped := false, rail := 0, shed := 0
    power := 0, boostedAt := none, tlb := [], locks := [] }

/-- A chiplet slot that is not powered. -/
def Chiplet.dark : Chiplet := ⟨.off, none, [], [], []⟩

/-- A station with nothing in it; credits are loaded at the first choice. It starts with no credits and BULK as the class served
last (14 R384; DESIGN CHOICE, log 88). -/
def Station.idle : Station := ⟨[], [0, 0, 0, 0], 3, [], [], [], []⟩

/-- The configuration image that flash holds when the model starts (18 R472, log 5). -/
def Image.first : Image :=
  { valid := true, seq := 1, active := [0, 1, 2, 3, 4, 5, 6, 7], spares := [8], pmbus := 0, set0 := none
    set0Visible := false, sets := []
    curve := [0x80FF898000000000, 0, 0, 0, 0, 0, 0, 0], curveCtl := 0
    llcBytes := 402653184, ports := 0xFFFFFFFFFFFFFFFF, errLimit := 4294967296 }

/-- The other copy, not valid (log 5). -/
def Image.blank : Image :=
  { valid := false, seq := 0, active := [], spares := [], pmbus := 0, set0 := none, set0Visible := false
    sets := [], curve := [], curveCtl := 0, llcBytes := 0, ports := 0, errLimit := 0 }

/-- The power controller before the first sample (15 R413, R415, R416; C values log 5). -/
def Power.first : Power :=
  { curve := Image.first.curve, inUse := Image.first.curve, pending := none, ctl := 0, useFailsafe := 0, useHyst := (0, 0)
    badFrames := 0, failsafe := true, freq := 0, vbus := 0, freqAt := none, vbusAt := none, frameAt := 0
    reply := 0, seq := 0, worse := [], samples := [], flood := none, watts := 0, lowSince := none, rail := []
    railOver := false, railSince := none, railAt := none, wattsAt := none, thermalAt := none, rechoose := false, ebb := false }

/-- The machine right after reset, before firmware's first publication: every register at the value the
spec gives, no launch, no queue loaded, memory listing nothing (13 R356). -/
def State.reset : State :=
  { groups := [], blocks := [], cohorts := [], launches := [], graphs := [], queues := [], bodies := [], translators := [], translated := []
    lastQueue := 2047, ops := [], walks := [], fresh := 1, cores := [], clusters := [], chiplets := [], mem := [], llc := []
    frames := [], sectors := [], hostSectors := [], hostLines := [], releasers := [], llcRetired := [], pageMoves := []
    catalogue := List.replicate 28 0 ++ [0x800000, 0, 0x082040, 0]
    shown := List.replicate 28 0 ++ [0x800000, 0, 0x082040, 0], publishing := []
    now := 0, fevThresh := 0, trapVec := 0, ctxStore := 0, ctxUnits := 0, thot := 100, tcool := 92
    drpLvl := 45, drpStretch := 6, drpHold := 64, boostCfg := 0x0AC0, bgShare := 0x180A, netWrr := 0x1442
    shedCfg := 0x2006403E8, qtab := 0, power := Power.first, sets := []
    liveChannels := [], spares := [], corrected := [], correctedTotal := [], reported := []
    recalibrating := [], recalAt := [], scrubSince := 0, scrubbed := [], retirements := [], retestDue := false, driftUse := [], bad := []
    stations := [], flights := [], nacks := [], fabric := [], mbAddr := 0, mailbox := [], creating := none
    negotiated := false, features := 0, errRing := none, imageA := Image.first, imageB := Image.blank, usesB := false
    logSlots := [], logChannels := [], selfTest := ⟨[], [], 0, 0⟩, pastGen := 0, peers := [], msix := [], pmbus := 0
    hostReply := ⟨true, false, 0⟩, barReply := 0, dead := false
    issuing := none, agenda := [], choice := 0 }

/-- Reasons the machine stops with a fault. -/
inductive Fault where
  /-- An error at the boundary of a cache chiplet, an I/O chiplet or node 15 (01 R10), raised by the step
  after FATAL_BOUNDARY_ERROR; only PACKAGE_RESET goes on. Safe: the package no longer runs. -/
  | packageFatal
  /-- exec of an instruction word while no group is at an issue, raised by every word's meaning. Safe:
  the step performs words only for the group at its issue. -/
  | noGroupAtIssue
  deriving DecidableEq, Repr

/-- Reasons the machine refuses. -/
inductive Refusal where
  /-- An instruction without a meaning, by its mnemonic; raised by exec's arms only. Safe. -/
  | notModelled (mnemonic : String)
  deriving DecidableEq, Repr

/-- The outcome of a step. -/
abbrev Out := Host.Outcome State Fault Refusal

end Sys2Proof.Machine
end

