-- ==== Sys2Proof/Machine/Ops.lean ====
section
/-! DEFINITION. Named operations over the state: the tables of groups, blocks, cores and launches, registers
of a group, and small arithmetic shared by every chapter. -/

namespace Sys2Proof.Machine

/-! ## Words and lists -/

/-- Sign extension of the low `n` bits of a number, as an integer (00 R5). -/
def sextInt (n x : Nat) : Int :=
  let y := x % 2 ^ n
  if 2 ^ (n - 1) ≤ y then (y : Int) - 2 ^ n else y

/-- An integer reduced to `n` bits. -/
def wrapInt (n : Nat) (x : Int) : Nat := (x % (2 ^ n : Nat)).toNat

/-- A 64-bit value of two registers, the first the low half (00 R3). -/
def pair (lo hi : W32) : W64 := hi ++ lo

def lowHalf (v : W64) : W32 := v.extractLsb' 0 32
def highHalf (v : W64) : W32 := v.extractLsb' 32 32

/-- A bit field of a 64-bit word as a number. -/
def fieldOf (v : W64) (lo n : Nat) : Nat := (v.toNat >>> lo) % 2 ^ n

/-- A 64-bit word with a bit field set. -/
def setField (v : W64) (lo n x : Nat) : W64 :=
  BitVec.ofNat 64 (v.toNat - (fieldOf v lo n) * 2 ^ lo + (x % 2 ^ n) * 2 ^ lo)

/-- A list with `x` in its ascending place, without repeats. -/
def insertNat (x : Nat) : List Nat → List Nat
  | [] => [x]
  | y :: t => if x = y then y :: t else if x < y then x :: y :: t else y :: insertNat x t

/-- The union of ascending lists. -/
def unionNat (l m : List Nat) : List Nat := l.foldr insertNat m

/-- An element put before the first that it may precede. -/
def insertBy {α : Type} (before : α → α → Bool) (x : α) : List α → List α
  | [] => [x]
  | y :: t => if before x y then x :: y :: t else y :: insertBy before x t

/-- A list put in the order of `before`; elements that may precede each other keep their order. -/
def sortBy {α : Type} (before : α → α → Bool) (l : List α) : List α := l.foldr (insertBy before) []

/-- The lanes 0 to 31. -/
def lanes32 : List Nat := List.range 32

/-- A mask of 32 lanes as a number. -/
def laneMask (l : List Nat) : W32 := l.foldl (fun m i => m ||| (1#32 <<< i)) 0

/-- Bits of a mask as an ascending list of numbers below `n`. -/
def bitsOf (n : Nat) (m : Nat) : List Nat := (List.range n).filter fun i => m.testBit i

/-! ## Places in the package (01 R9, R12) -/

/-- The chiplet slot of a core and of a cluster, the cluster of a core. -/
def coreSlot (c : Nat) : Nat := c / 96
def clusterOf (c : Nat) : Nat := c / 4
def clusterSlot (k : Nat) : Nat := k / 24

/-- The four cores of a cluster. -/
def coresOf (k : Nat) : List Nat := [4 * k, 4 * k + 1, 4 * k + 2, 4 * k + 3]

/-- The other cluster of a series pair (15 R391). -/
def pairOf (k : Nat) : Nat := if k % 2 = 0 then k + 1 else k - 1

/-- The clusters of a chiplet slot. -/
def clustersOf (slot : Nat) : List Nat := (List.range 24).map (24 * slot + ·)

namespace State

def group? (s : State) (g : Nat) : Option Group := tget? s.groups g
def block? (s : State) (b : Nat) : Option Block := tget? s.blocks b
def cohort? (s : State) (c : Nat) : Option Cohort := tget? s.cohorts c
def launch? (s : State) (l : Nat) : Option Launch := tget? s.launches l
def core (s : State) (c : Nat) : Core := tgetD Core.idle s.cores c
def cluster (s : State) (k : Nat) : Cluster := tgetD Cluster.idle s.clusters k
def chiplet (s : State) (p : Nat) : Chiplet := tgetD Chiplet.dark s.chiplets p
def queue (s : State) (q : Nat) : Queue := tgetD Queue.off s.queues q

def setGroup (s : State) (n : Nat) (g : Group) : State := { s with groups := tput s.groups n g }
def setBlock (s : State) (n : Nat) (b : Block) : State := { s with blocks := tput s.blocks n b }
def setCohort (s : State) (n : Nat) (c : Cohort) : State := { s with cohorts := tput s.cohorts n c }
def setLaunch (s : State) (n : Nat) (l : Launch) : State := { s with launches := tput s.launches n l }
def setCore (s : State) (n : Nat) (c : Core) : State := { s with cores := tset Core.idle s.cores n c }
def setCluster (s : State) (n : Nat) (c : Cluster) : State := { s with clusters := tset Cluster.idle s.clusters n c }
def setChiplet (s : State) (n : Nat) (c : Chiplet) : State := { s with chiplets := tset Chiplet.dark s.chiplets n c }
def setQueue (s : State) (n : Nat) (q : Queue) : State := { s with queues := tset Queue.off s.queues n q }

def modGroup (s : State) (n : Nat) (f : Group → Group) : State :=
  match s.group? n with
  | some g => s.setGroup n (f g)
  | none => s

def modBlock (s : State) (n : Nat) (f : Block → Block) : State :=
  match s.block? n with
  | some b => s.setBlock n (f b)
  | none => s

def modCohort (s : State) (n : Nat) (f : Cohort → Cohort) : State :=
  match s.cohort? n with
  | some c => s.setCohort n (f c)
  | none => s

def modLaunch (s : State) (n : Nat) (f : Launch → Launch) : State :=
  match s.launch? n with
  | some l => s.setLaunch n (f l)
  | none => s

def modCore (s : State) (n : Nat) (f : Core → Core) : State := s.setCore n (f (s.core n))
def modCluster (s : State) (n : Nat) (f : Cluster → Cluster) : State := s.setCluster n (f (s.cluster n))
def modChiplet (s : State) (n : Nat) (f : Chiplet → Chiplet) : State := s.setChiplet n (f (s.chiplet n))
def modQueue (s : State) (n : Nat) (f : Queue → Queue) : State := s.setQueue n (f (s.queue n))

/-- The reference count (07 R204): 765 time units a tick. -/
def rt (s : State) : W64 := BitVec.ofNat 64 (s.now / 765)

/-- Microseconds and milliseconds in time units (log 8). -/
def us (n : Nat) : Nat := 76500 * n
def ms (n : Nat) : Nat := 76500000 * n

/-- A catalogue word (01 R17). -/
def catWord (s : State) (w : Nat) : W64 := s.catalogue.getD w 0

/-- A word of the catalogue as its readers find it now (01 R17, R18). -/
def shownWord (s : State) (w : Nat) : W64 := s.shown.getD w 0

/-- The logical number of a chiplet slot, by CHIPMAP (01 R11, R17). -/
def logicalOf (s : State) (slot : Nat) : Option Nat :=
  (List.range 8).find? fun i => fieldOf (s.catWord 2) (4 * i) 4 == slot

/-- The slot of a logical chiplet. -/
def slotOf (s : State) (logical : Nat) : Option Nat :=
  let n := fieldOf (s.catWord 2) (4 * logical) 4
  if logical < 8 && n < 9 then some n else none

/-- The classes allowed at present (01 R17 word 28, 15 R419). -/
def classAllowed (s : State) (c : Nat) : Bool := (fieldOf (s.catWord 28) 16 8).testBit c

/-- A group is shed, and neither held nor pre-empted: it has taken no PREEMPT and no SHED (15 R418 to R420). -/
def looseShed (s : State) (g : Group) : Bool := !s.classAllowed g.cls && !g.shedHold && g.recorded.isNone

/-- A group of a class that is allowed is held no longer, and no window runs for it (15 R419, R420). -/
def freed (s : State) (g : Group) : Group :=
  if s.classAllowed g.cls then { g with shedHold := false, holdNext := false, shedAt := none } else g

/-- CEIL_W of the point in force. -/
def ceilW (s : State) : Nat := fieldOf (s.catWord 28) 0 16

/-- CURVE_POINT. -/
def curvePoint (s : State) : Nat := fieldOf (s.catWord 28) 24 8

end State

/-! ## Who a group belongs to -/

/-- A group with its block, cohort and launch. -/
structure Owner where
  g : Group
  b : Block
  c : Cohort
  l : Launch
  deriving DecidableEq, Repr

/-- The group at a number, with what it belongs to. -/
def State.owner? (s : State) (gid : Nat) : Option Owner := do
  let g ← s.group? gid
  let b ← s.block? g.block
  let c ← s.cohort? b.cohort
  let l ← s.launch? c.launch
  some ⟨g, b, c, l⟩

/-- The number of a group: its block's number and its slot. -/
def gidOf (block slot : Nat) : Nat := 32 * block + slot

/-- The groups of a block that exist, by slot. -/
def State.groupsOf (s : State) (bid : Nat) : List (Nat × Group) :=
  match s.block? bid with
  | none => []
  | some b => (List.range b.gslots.length).filterMap fun i => (s.group? (gidOf bid i)).map fun g => (gidOf bid i, g)

/-! ## The launch record (16 R432) -/

namespace Launch

def word (l : Launch) (n : Nat) : W64 := l.record.getD n 0
def cls (l : Launch) : Nat := fieldOf (l.word 0) 16 3
def rerun (l : Launch) : Bool := (l.word 0).getLsbD 19
def genchk (l : Launch) : Bool := (l.word 0).getLsbD 20
def codeBase (l : Launch) : W64 := l.word 1
def kernel (l : Launch) : Nat := fieldOf (l.word 2) 0 16
def cohortBlocks (l : Launch) : Nat := fieldOf (l.word 3) 32 4 + 1
def cohortCount (l : Launch) : Nat := fieldOf (l.word 3) 0 32
def shapeX (l : Launch) : Nat := fieldOf (l.word 4) 0 16
def shapeY (l : Launch) : Nat := fieldOf (l.word 4) 16 16
def shapeZ (l : Launch) : Nat := fieldOf (l.word 4) 32 16
/-- Groups of a block (04 R91). -/
def ngroups (l : Launch) : Nat := l.shapeX * l.shapeY * l.shapeZ / 32
def regs (l : Launch) : Nat := fieldOf (l.word 5) 0 7
def scratch (l : Launch) : Nat := fieldOf (l.word 5) 8 19
def tiles (l : Launch) : Nat := fieldOf (l.word 5) 27 5
def accs (l : Launch) : Nat := fieldOf (l.word 5) 32 5
/-- Units a group starts with (05 R132). -/
def groupUnits (l : Launch) : Nat := l.regs / 4 + 1
def quotaUnits (l : Launch) : Nat :=
  let q := fieldOf (l.word 6) 0 11
  if q = 0 then l.ngroups * l.groupUnits else q
def quotaSlots (l : Launch) : Nat :=
  let q := fieldOf (l.word 6) 16 6
  if q = 0 then l.ngroups else q
def quotaScratch (l : Launch) : Nat :=
  let q := fieldOf (l.word 6) 32 19
  if q = 0 then l.scratch else q
def args (l : Launch) : W64 := l.word 9
def argSize (l : Launch) : Nat := fieldOf (l.word 10) 0 13
def compl (l : Launch) : W64 := l.word 11
def genSeen (l : Launch) : W64 := l.word 12
def asid (l : Launch) : Nat := fieldOf l.aspace 0 16

end Launch

/-! ## Registers (02 R40, R43, 05 R131 to R133) -/

namespace Group

/-- The thread of a lane. -/
def lane (g : Group) (i : Nat) : Thread := g.lanes.getD i Thread.empty

def setLane (g : Group) (i : Nat) (t : Thread) : Group := { g with lanes := g.lanes.set i t }

def modLane (g : Group) (i : Nat) (f : Thread → Thread) : Group := g.setLane i (f (g.lane i))

/-- The register a lane holds. -/
def reg (g : Group) (i r : Nat) : W32 := tgetD 0 g.regs (32 * r + i)

/-- A write to a register of a lane; 124 and above discard it (02 R40). -/
def setReg (g : Group) (i r : Nat) (v : W32) : Group :=
  if r < 124 then { g with regs := tset 0 g.regs (32 * r + i) v } else g

/-- The choice among the stored value and the results of outstanding words (02 R28, log 6); a result that is not yet
known has been written nowhere, so that a read returns the value before it. -/
def earlyRead (ch i r : Nat) : List Pending → W32 → W32
  | [], v => v
  | p :: t, v =>
    match p.val with
    | none => earlyRead ch i r t v
    | some x => if p.key = 32 * r + i && Config.early ch p.op i r then x else earlyRead ch i r t v

/-- A read of a register field in a lane: xz is 0, xl the lane (02 R40). -/
def read (g : Group) (ch i r : Nat) : W32 :=
  if r = 124 then 0
  else if r = 125 then BitVec.ofNat 32 i
  else earlyRead ch i r g.pending (g.reg i r)

/-- Register k of an operand that starts at r; the pair w124 reads as 0 (02 R41). -/
def readAt (g : Group) (ch i r k : Nat) : W32 := if r = 124 then 0 else g.read ch i (r + k)

/-- Register k of a destination that starts at r; w124 discards (02 R41). -/
def writeAt (g : Group) (i r k : Nat) (v : W32) : Group := if r = 124 then g else g.setReg i (r + k) v

/-- The values of the registers of an operand written from r upward. -/
def writeList (g : Group) (i r : Nat) : Nat → List W32 → Group
  | _, [] => g
  | k, v :: t => (g.writeAt i r k v).writeList i r (k + 1) t

/-- Units the group holds (05 R132). -/
def units (g : Group) : Nat := g.alloc / 4 + 1

def flag (g : Group) (f : Nat) : Nat := g.flags.getD f 0

def setFlag (g : Group) (f n : Nat) : Group := { g with flags := g.flags.set f n }

/-- The saved blocked word of the mode the group is in. -/
def kept (g : Group) : Option (W64 × Blocked) := if g.handler then g.hsaved else g.saved

def setKept (g : Group) (x : Option (W64 × Blocked)) : Group :=
  if g.handler then { g with hsaved := x } else { g with saved := x }

/-- Held because its class is shed (15 R419); in its handler a group is not held. -/
def shut (g : Group) : Bool := g.shedHold && !g.handler

/-- Every flag is clear. -/
def flagsClear (g : Group) : Bool := g.flags.all (· == 0)

/-- Lanes whose thread satisfies a test. -/
def lanesWith (g : Group) (p : Thread → Bool) : List Nat := lanes32.filter fun i => p (g.lane i)

/-- Live lanes, held ones included (04 R96). -/
def liveLanes (g : Group) : List Nat := g.lanesWith fun t => t.st == .live || t.st == .held

/-- The group has a live thread, held threads included. -/
def hasLive (g : Group) : Bool := !g.liveLanes.isEmpty

end Group

/-- The source lane of a crossbar code (02 R43). -/
def crossbar (xb i : Nat) : Nat :=
  match xb with
  | 0 => i
  | 1 => i ^^^ 1
  | 2 => i ^^^ 2
  | 3 => i ^^^ 4
  | 4 => i ^^^ 16
  | 5 => (i + 31) % 32
  | 6 => 31 - i
  | _ => 0

end Sys2Proof.Machine
end

