-- ==== Sys2Proof/Machine/Phys.lean ====
section
/-! DEFINITION. Physical memory and the physically tagged caches: interleave sets, L2 slices with their
directories, LLCs, error retirement and error records (10 R268 to R276, 13 R352 to R373, 18 R478). -/

namespace Sys2Proof.Machine

/-! ## Bytes and lines -/

/-- The value of `n` bytes of a line from byte `o`. -/
def lineBytes (d : BitVec 1024) (o n : Nat) : List Byte :=
  (List.range n).map fun i => d.extractLsb' (8 * (o + i)) 8

/-- A line mask of `n` bytes from byte `o`. -/
def lineMask (o n : Nat) : BitVec 128 := BitVec.ofNat 128 ((2 ^ n - 1) * 2 ^ o)

/-- The bits of the bytes of a mask. -/
def maskBits (m : BitVec 128) : BitVec 1024 :=
  BitVec.ofNat 1024 ((List.range 128).foldl (fun a i => if m.getLsbD i then a + 255 * 2 ^ (8 * i) else a) 0)

/-- `old` with the bytes of the mask taken from `new`. -/
def overlay (m : BitVec 128) (new old : BitVec 1024) : BitVec 1024 :=
  if m = 0 then old else if m = BitVec.allOnes 128 then new
  else (new &&& maskBits m) ||| (old &&& ~~~ maskBits m)

/-- A number from bytes, the first the lowest (00 R3). -/
def natOfBytes (l : List Byte) : Nat := l.foldr (fun b a => b.toNat + 256 * a) 0

/-- The `n` low bytes of a number, the lowest first. -/
def bytesOfNat (n x : Nat) : List Byte := (List.range n).map fun i => BitVec.ofNat 8 (x / 256 ^ i)

/-- Bytes placed in a line from byte `o`. -/
def lineOf (o : Nat) (l : List Byte) : BitVec 1024 := BitVec.ofNat 1024 (natOfBytes l * 256 ^ o)

/-! ## Sets of the caches (01 R12, R13, 10 R268) -/

/-- The set of a line in its L2 slice, of 128, and in its LLC, of 32,768; which one is open (log 12). -/
def l2SetOf (pline : Nat) : Nat := Config.l2Set pline % 128
def llcSetOf (pline : Nat) : Nat := Config.llcSet pline % 32768

/-- The ways that set `i` of an LLC keeps once `n` MiB are retired: each MiB is a way of a quarter of the sets (10 R271,
log 72). -/
def waysLeft (n i : Nat) : Nat := 24 - (n + 3 - i / 8192) / 4

/-! ## Interleave sets (13 R352, R353, R355) -/

/-- Device memory lies below 2^51, host memory below 0xC × 2^48 (09 R237). -/
def isDevice (pa : Nat) : Bool := pa < 2 ^ 51
def isHost (pa : Nat) : Bool := 2 ^ 51 ≤ pa && pa < 0xC000000000000
def isPeer (pa : Nat) : Bool := 0xC000000000000 ≤ pa && pa < 2 ^ 52

namespace State

/-- The set of a device address and the line of the set it lies on. -/
def setOf (s : State) (pa : Nat) : Option (Nat × Nat) :=
  let k := pa / 2 ^ 40
  match tget? s.sets k with
  | some t => if pa % 2 ^ 40 < t.size && !t.creating then some (k, pa % 2 ^ 40 / 128) else none
  | none => none

/-- The address can hold data: every address but those of 13 R355. -/
def usable (s : State) (pa : Nat) : Bool := !isDevice pa || (s.setOf pa).isSome

end State

/-- The channel of line `n` of a set over a live list (13 R353). -/
def channelIn (linear : Bool) (live : List Nat) (n : Nat) : Nat :=
  let idx := if linear then n else n ^^^ (n >>> 11) ^^^ (n >>> 22)
  live.getD (idx % live.length) 0

/-- The slot of line `n` in its channel (13 R353). -/
def slotIn (linear : Bool) (live : List Nat) (n : Nat) : Nat :=
  (if linear then n else n ^^^ (n >>> 11) ^^^ (n >>> 22)) / live.length

namespace State

/-- The migration in progress of a set. -/
def migrationOf (s : State) (k : Nat) : Option Migration :=
  (s.retirements.filterMap (·.cur)).find? fun m => m.set == k

/-- The line has landed in the migration of its set (13 R363). -/
def landed (m : Migration) (n : Nat) : Bool := n < m.tide || m.landed.contains n

/-- The channel that holds a device line at present (13 R353, R365). -/
def channelOf (s : State) (pa : Nat) : Option Nat :=
  match s.setOf pa with
  | none => none
  | some (k, n) =>
    match tget? s.sets k with
    | none => none
    | some t =>
      if t.live.isEmpty then none
      else some (channelIn t.linear (match s.migrationOf k with
        | some m => if landed m n then m.new else m.old
        | none => t.live) n)

/-- The cache chiplet whose LLC homes a line (10 R269). -/
def llcHome (s : State) (pline : Nat) : Nat :=
  if isDevice (128 * pline) then (s.channelOf (128 * pline)).getD 0 / 64 else pline % 4

/-! ## Memory below the caches -/

def memByte (s : State) (pa : Nat) : Byte := tgetD 0 s.mem pa

/-- A line as memory holds it; addresses of 13 R355 read zeros. -/
def memLine (s : State) (pline : Nat) : BitVec 1024 :=
  if !s.usable (128 * pline) then 0 else BitVec.ofNat 1024 (natOfBytes ((List.range 128).map fun i => s.memByte (128 * pline + i)))

/-- Bytes written to memory from an address upward. -/
def memPutFrom (m : List Host.Cell) (pa : Nat) : List Byte → List Host.Cell
  | [] => m
  | b :: t => memPutFrom (tset 0 m pa b) (pa + 1) t

def memPut (s : State) (pa : Nat) (l : List Byte) : State := { s with mem := memPutFrom s.mem pa l }

/-- The bytes of a mask of a line stored; a write to an address of 13 R355 is discarded. Bytes
of a line in transit whose data has not arrived are held (13 R366). -/
def storeLine (s : State) (pline : Nat) (m : BitVec 128) (d : BitVec 1024) : State :=
  if m = 0 || !s.usable (128 * pline) then s
  else
    let mem := (List.range 128).foldl
      (fun a i => if m.getLsbD i then tset 0 a (128 * pline + i) (d.extractLsb' (8 * i) 8) else a) s.mem
    let hold (t : Transit) : Transit := if t.arrived then t else { t with held := t.held ||| m }
    let rs := match s.setOf (128 * pline) with
      | none => s.retirements
      | some (k, n) => s.retirements.map fun r =>
        match r.cur with
        | some c => if c.set = k then { r with cur := some { c with transit := tmod c.transit n hold } } else r
        | none => r
    { s with mem := mem, retirements := if isDevice (128 * pline) then rs else s.retirements }

/-- The transit of a line, while it is in the buffer of a Drift Engine (13 R363). -/
def transitOf (s : State) (pline : Nat) : Option Transit :=
  (s.setOf (128 * pline)).bind fun e => (s.migrationOf e.1).bind fun m => tget? m.transit e.2

/-- The bytes of a line that are held over the data of its old location (13 R366). -/
def heldMask (s : State) (pline : Nat) : BitVec 128 :=
  match s.transitOf pline with
  | some t => if t.arrived then 0 else t.held
  | none => 0

/-- An uncorrectable line moves to a spare line: every byte reads 0 but for those of `keep` and those held while it is in
transit (13 R366, R372). No record is posted. A channel whose 4,096 spares are used goes on retiring lines in the same way
while its own retirement migrates (DESIGN CHOICE, log 94). -/
def spareLine (s : State) (pline : Nat) (keep : BitVec 128) : State :=
  let ch := (s.channelOf (128 * pline)).getD 0
  let s := { s with bad := s.bad.filter (· != pline) }
  let s := s.storeLine pline (~~~ (keep ||| s.heldMask pline)) 0
  let n := tgetD 0 s.spares ch + 1
  -- The last spare line used starts a retirement of the channel (13 R372).
  { s with spares := tset 0 s.spares ch n
           agenda := if n = 4096 then s.agenda ++ [Event.op (.retireChannel (some ch))] else s.agenda }

/-- The bytes of a mask of a line written to memory. Where the line is uncorrectable, a write of the whole line makes it
good, and a partial one, which must read it to merge, moves it to a spare line (13 R372); no record is posted. -/
def rawPutLine (s : State) (pline : Nat) (m : BitVec 128) (d : BitVec 1024) : State :=
  let t := s.storeLine pline m d
  if m = 0 || !s.bad.contains pline then t
  else if m = BitVec.allOnes 128 then { t with bad := t.bad.filter (· != pline) }
  else t.spareLine pline m

end State

/-! ## The lists of lines -/

/-- The line of an L2 slice. -/
def l2Get (l : List L2Line) (pline : Nat) : Option L2Line := l.find? fun x => x.pline == pline

/-- A line put in its place at the front, the most recently used. -/
def l2Front (l : List L2Line) (x : L2Line) : List L2Line := x :: l.filter fun y => y.pline != x.pline

def l2Drop (l : List L2Line) (pline : Nat) : List L2Line := l.filter fun y => y.pline != pline

/-- A line changed in place. -/
def l2Mod (l : List L2Line) (pline : Nat) (f : L2Line → L2Line) : List L2Line :=
  l.map fun y => if y.pline == pline then f y else y

def llcGetLine (l : List LlcLine) (pline : Nat) : Option LlcLine := l.find? fun x => x.pline == pline

/-- The line of an L1 that holds a physical line; there is at most one (09 R249). -/
def l1Phys (l : List L1Line) (pline : Nat) : Option L1Line := l.find? fun x => x.pline == pline

def l1DropPhys (l : List L1Line) (pline : Nat) : List L1Line := l.filter fun x => x.pline != pline

/-- The home slice of a line (10 R269). -/
def sliceOf (pline : Nat) : Nat := (pline ^^^ (pline >>> 10) ^^^ (pline >>> 20)) % 80

/-- The participants of a directory state. -/
def DirState.cores : DirState → List Nat
  | .i => []
  | .s l => l
  | .o c _ => [c]
  | .p l => l.map (·.1)

namespace State

def l2Line? (s : State) (p pline : Nat) : Option L2Line := l2Get (s.chiplet p).l2 pline

def modL2 (s : State) (p pline : Nat) (f : L2Line → L2Line) : State :=
  s.modChiplet p fun c => { c with l2 := l2Mod c.l2 pline f }

/-- Merge (10 R275): every participant's dirty bytes go into the L2 copy, every L1 copy is invalidated, the
state becomes I. -/
def mergeLine (s : State) (p pline : Nat) : State :=
  match s.l2Line? p pline with
  | none => s
  | some x =>
    if x.dir = .i then s
    else
      let take (a : State × L2Line) (c : Nat) : State × L2Line :=
        match l1Phys (a.1.core c).l1 pline with
        | none => a
        | some y =>
          if y.self then a
          else (a.1.modCore c fun k => { k with l1 := l1DropPhys k.l1 pline },
            { a.2 with data := overlay y.dirty y.data a.2.data, dirty := a.2.dirty ||| y.dirty })
      let r := x.dir.cores.foldl take (s, x)
      r.1.modL2 p pline fun _ => { r.2 with dir := .i }

/-- The chiplet slots whose L2 holds a line. -/
def l2Holders (s : State) (pline : Nat) : List Nat :=
  (List.range 9).filter fun p => (s.l2Line? p pline).isSome

/-- Every copy of a line in L2s, the directory-tracked L1 copies below them and the LLC written to memory
and dropped, without an error check. -/
def rawRecall (s : State) (pline : Nat) : State :=
  let l2s := s.l2Holders pline
  let llc := llcGetLine s.llc pline
  if l2s.isEmpty && llc.isNone then s
  else
    let s := l2s.foldl (fun s p => s.mergeLine p pline) s
    let dirty := l2s.filterMap fun p => s.l2Line? p pline
    let s := match llc with
      | some x => s.rawPutLine pline x.dirty x.data
      | none => s
    let s := dirty.foldl (fun s x => s.rawPutLine pline x.dirty x.data) s
    let s := l2s.foldl (fun s p => s.modChiplet p fun c => { c with l2 := l2Drop c.l2 pline }) s
    { s with llc := s.llc.filter fun x => x.pline != pline }

/-- The host gives up the sectors of host memory that an access touches: it writes back those it holds modified (10 R280). -/
def snoopHost (s : State) (pa n : Nat) : State :=
  if isHost pa then { s with hostSectors := s.hostSectors.filter fun x => x < pa / 64 || (pa + n - 1) / 64 < x } else s

/-- The device takes ownership of the host sectors that a cached write or a synchronisation event touches, and that it does
not own yet; what the host held of them modified it writes back (10 R280, 11 R292). -/
def takeSectors (s : State) (pa n : Nat) : State :=
  if isHost pa then
    [pa / 64, (pa + n - 1) / 64].foldl (fun (s : State) x =>
      if s.sectors.contains x then s else { s.snoopHost (64 * x) 64 with sectors := insertNat x s.sectors }) s
  else s

/-- The bytes of a line of host memory in sectors that the host owns: no copy of the device holds them (10 R280). -/
def hostMask (s : State) (pline : Nat) : BitVec 128 :=
  if isHost (128 * pline) then
    (if s.hostSectors.contains (2 * pline) then lineMask 0 64 else 0)
      ||| (if s.hostSectors.contains (2 * pline + 1) then lineMask 64 64 else 0)
  else 0

/-- A device write to a line of device memory that the host may cache first invalidates the host's copy (10 R288). -/
def backInvalidate (s : State) (pline : Nat) : State :=
  if isDevice (128 * pline) then { s with hostLines := s.hostLines.filter (· != pline) } else s

/-- A device write of bytes within one line at their home, without a record of an error met: the error ring's own. -/
def rawWrite (s : State) (pa : Nat) (l : List Byte) : State :=
  ((s.backInvalidate (pa / 128)).rawRecall (pa / 128)).rawPutLine (pa / 128) (lineMask (pa % 128) l.length) (lineOf (pa % 128) l)

/-- An interrupt vector posted to the host (16 R436, 18 R478). -/
def postMsix (s : State) (v : Nat) : State := { s with msix := s.msix ++ [v] }

/-- An error record put into the ring, and the line of the ring where that proved uncorrectable (18 R478). -/
def putRecord (s : State) (kind chan slot logical line count : Nat) : State × Option Nat :=
  match s.errRing with
  | none => (s, none)
  | some r =>
    let w0 := kind + 2 ^ 8 * chan + 2 ^ 16 * slot + 2 ^ 24 * logical
      + (if r.count.testBit r.log2 then 2 ^ 63 else 0)
    let at_ := r.base + 32 * (r.count % 2 ^ r.log2)
    let t := s.rawWrite at_ (bytesOfNat 8 w0 ++ bytesOfNat 8 line ++ bytesOfNat 8 count
      ++ bytesOfNat 8 (s.catWord 0).toNat)
    ({ t.postMsix 0 with errRing := some { r with count := r.count + 1 } },
      if s.bad.contains (at_ / 128) && !t.bad.contains (at_ / 128) then some (at_ / 128) else none)

/-- Records of the ring's own lines that proved uncorrectable, each line once (13 R373). -/
def recordsOf (s : State) : Nat → Option Nat → State
  | fuel + 1, some l =>
    let r := s.putRecord 2 ((s.channelOf (128 * l)).getD 0) 0 0 (128 * l) 0
    r.1.recordsOf fuel r.2
  | _, _ => s

/-- An error record (18 R478). -/
def postError (s : State) (kind chan slot logical line count : Nat) : State :=
  let r := s.putRecord kind chan slot logical line count
  r.1.recordsOf (s.bad.length + 1) r.2

/-- An uncorrectable line is retired to a spare line: its bytes read 0 but for those of `keep` and those held in transit
(13 R372), and a record is posted. -/
def retireLine (s : State) (pline : Nat) (keep : BitVec 128) : State :=
  (s.spareLine pline keep).postError 2 ((s.channelOf (128 * pline)).getD 0) 0 0 (128 * pline) 0

/-- The bytes of a mask of a line written to memory, as `rawPutLine` does; an error met posts its record (13 R372,
R373). -/
def memPutLine (s : State) (pline : Nat) (m : BitVec 128) (d : BitVec 1024) : State :=
  let t := s.rawPutLine pline m d
  if m = 0 || m = BitVec.allOnes 128 || !s.bad.contains pline then t
  else t.postError 2 ((s.channelOf (128 * pline)).getD 0) 0 0 (128 * pline) 0

/-- The line as memory gives it: an uncorrectable line is retired first. -/
def memFetch (s : State) (pline : Nat) (keep : BitVec 128 := 0) : State :=
  if s.bad.contains pline then s.retireLine pline keep else s

/-- The LLC line written back to memory. -/
def llcWriteBack (s : State) (x : LlcLine) : State := s.memPutLine x.pline x.dirty x.data

/-- The ways of the LLC set of a line (10 R268, R271). -/
def llcWays (s : State) (pline : Nat) : Nat :=
  match tgetD 0 s.llcRetired (s.llcHome pline) with
  | 0 => 24
  | n => waysLeft n (llcSetOf pline)

/-- The lines of the LLC set of a line. -/
def llcSame (s : State) (pline : Nat) : List LlcLine :=
  s.llc.filter fun x => s.llcHome x.pline == s.llcHome pline && llcSetOf x.pline == llcSetOf pline

/-- The LLC victim when a set is full (10 R268): the least recently used line of the set. -/
def llcVictim (s : State) (pline : Nat) : Option LlcLine :=
  let ways := s.llcWays pline
  if s.llc.length < ways then none
  else
    let same := s.llcSame pline
    if same.length < ways then none else same.getLast?

/-- A line snooped out of one chiplet's L2 (10 R270): merged, its dirty bytes handed up; dropped with
`inv`, else kept clean and shared. -/
def snoopL2 (s : State) (p pline : Nat) (inv : Bool) : State × BitVec 128 × BitVec 1024 :=
  let s := s.mergeLine p pline
  match s.l2Line? p pline with
  | none => (s, 0, 0)
  | some x =>
    let s := if inv then s.modChiplet p fun c => { c with l2 := l2Drop c.l2 pline }
      else s.modL2 p pline fun y => { y with dirty := 0, owned := false }
    (s, x.dirty, x.data)

/-- The device gives up the sectors of a host line (10 R280). -/
def dropSectors (s : State) (pline : Nat) : State :=
  { s with sectors := s.sectors.filter fun x => x / 2 != pline }

/-- The LLC drops a line: it is first invalidated in every L2 (10 R270), then written back. -/
def llcEvict (s : State) (x : LlcLine) : State :=
  let r := (s.l2Holders x.pline).foldl (fun (a : State × LlcLine) p =>
    let q := a.1.snoopL2 p x.pline true
    (q.1, { a.2 with dirty := a.2.dirty ||| q.2.1, data := overlay q.2.1 q.2.2 a.2.data })) (s, x)
  let s := { r.1 with llc := r.1.llc.filter fun y => y.pline != x.pline }
  (s.llcWriteBack r.2).dropSectors x.pline

/-- The line is in its home LLC. -/
def llcFetch (s : State) (pline : Nat) : State :=
  match llcGetLine s.llc pline with
  | some x => { s with llc := x :: s.llc.filter fun y => y.pline != pline }
  | none =>
    let s := match s.llcVictim pline with
      | some v => s.llcEvict v
      | none => s
    let s := s.memFetch pline
    { s with llc := ⟨pline, 0, s.memLine pline⟩ :: s.llc }

/-- Dirty bytes put into the LLC copy of a line. -/
def llcPut (s : State) (pline : Nat) (m : BitVec 128) (d : BitVec 1024) : State :=
  if m = 0 then s
  else
    let s := s.llcFetch pline
    { s with llc := s.llc.map fun x =>
        if x.pline == pline then { x with dirty := x.dirty ||| m, data := overlay m d x.data } else x }

/-- Every L2 but that of `p` gives up its ownership of a line, or the line itself with `inv` (10 R270). -/
def snoopOthers (s : State) (p pline : Nat) (inv : Bool) : State :=
  (s.l2Holders pline).foldl (fun s q =>
    if q = p then s
    else
      match s.l2Line? q pline with
      | none => s
      | some x =>
        if inv || x.owned then
          let r := s.snoopL2 q pline inv
          r.1.llcPut pline r.2.1 r.2.2
        else s) s

/-- The L2 slice of a chiplet drops a line: recalls, writes back, removes (10 R271). -/
def l2Evict (s : State) (p pline : Nat) : State :=
  let r := s.snoopL2 p pline true
  r.1.llcPut pline r.2.1 r.2.2

/-- The victim of an L2 set when it is full (10 R268, R278): the least recently used stream, then default,
then keep line; a pinned line is never one. -/
def l2Victim (s : State) (p pline : Nat) : Option Nat :=
  let l2 := (s.chiplet p).l2
  if l2.length < 16 then none
  else
    let same := l2.filter fun x =>
      sliceOf x.pline == sliceOf pline && l2SetOf x.pline == l2SetOf pline
    if same.length < 16 then none
    else
      let last (k : Place) := (same.filter fun x => x.place == k).getLast?
      ((last .stream).orElse fun _ => (last .default).orElse fun _ => last .keep).map (·.pline)

/-- A pinned line takes the next class down when 4 of its L2 set are pinned (10 R278). -/
def l2Place (s : State) (p pline : Nat) (k : Place) : Place :=
  if k = .pinned then
    let pins := (s.chiplet p).l2.filter fun x => x.place == .pinned && x.pline != pline
      && sliceOf x.pline == sliceOf pline
    if pins.length < 4 then .pinned
    else if (pins.filter fun x => l2SetOf x.pline == l2SetOf pline).length < 4 then .pinned else .keep
  else k

/-- The line is in the L2 of a chiplet, shared at least. -/
def l2Fetch (s : State) (p pline : Nat) (k : Place) : State :=
  match s.l2Line? p pline with
  | some x => s.modChiplet p fun c => { c with l2 := l2Front c.l2 x }
  | none =>
    let s := match s.l2Victim p pline with
      | some v => s.l2Evict p v
      | none => s
    let s := (s.snoopOthers p pline false).llcFetch pline
    let d := ((llcGetLine s.llc pline).map (·.data)).getD 0
    s.modChiplet p fun c =>
      { c with l2 := l2Front c.l2 ⟨pline, false, s.l2Place p pline k, 0, d, .i⟩ }

/-- The L2 of a chiplet owns the line (10 R270). -/
def l2Own (s : State) (p pline : Nat) (k : Place) : State :=
  let s := s.l2Fetch p pline k
  match s.l2Line? p pline with
  | none => s
  | some x =>
    if x.owned then s
    else (s.snoopOthers p pline true).modL2 p pline fun y => { y with owned := true }

/-- Dirty bytes written into the L2 copy of a chiplet, which takes ownership (10 R270, R277). -/
def l2Write (s : State) (p pline : Nat) (m : BitVec 128) (d : BitVec 1024) (k : Place := .default) : State :=
  if m = 0 then s
  else (s.l2Own p pline k).modL2 p pline fun x =>
    { x with dirty := x.dirty ||| m, data := overlay m d x.data }

/-- Every cached copy of a line that the directories know goes back to its home and to memory (10 R270, R271; 13 R364
step 1). -/
def recallHome (s : State) (pline : Nat) : State :=
  let s := s.snoopOthers 9 pline true
  match llcGetLine s.llc pline with
  | some x => s.llcEvict x
  | none => s

/-- Every L2 copy, and the directory-tracked L1 copies below, recalled into the LLC and invalidated: the
home then holds the line (11 R292). -/
def recallAll (s : State) (pline : Nat) : State :=
  (s.snoopOthers 9 pline true).llcFetch pline

/-- The value of a line at its home, as a read of the LLC with every L2 recalled finds it, without the
recall (09 R240, 16 R430): device reads that change no state. -/
def homeLine (s : State) (pline : Nat) : BitVec 1024 :=
  let base := match llcGetLine s.llc pline with
    | some x => overlay x.dirty x.data (s.memLine pline)
    | none => s.memLine pline
  (s.l2Holders pline).foldl (fun d p =>
    match s.l2Line? p pline with
    | none => d
    | some x => x.dir.cores.foldl (fun d c =>
        match l1Phys (s.core c).l1 pline with
        | some y => if y.self then d else overlay y.dirty y.data d
        | none => d) (overlay x.dirty x.data d)) base

/-- Bytes at a physical address as a device read at the home finds them. -/
def homeByte (s : State) (pa : Nat) : Byte :=
  if s.usable pa then (s.homeLine (pa / 128)).extractLsb' (8 * (pa % 128)) 8 else 0

/-- `n` bytes within one line. -/
def homeBytes (s : State) (pa n : Nat) : List Byte :=
  if s.usable pa then lineBytes (s.homeLine (pa / 128)) (pa % 128) n else List.replicate n 0

/-- 8 bytes at the home. -/
def homeWord (s : State) (pa : Nat) : W64 := BitVec.ofNat 64 (natOfBytes (s.homeBytes pa 8))

/-- The line would be read from memory, and memory's copy is uncorrectable (13 R371). -/
def poisoned (s : State) (pline : Nat) : Bool :=
  s.bad.contains pline && (llcGetLine s.llc pline).isNone && (s.l2Holders pline).isEmpty

/-- Uncorrectable lines that a read of physical bytes finds are retired in the same step (13 R372). -/
def cleanPhys (s : State) (pa n : Nat) : State :=
  if n = 0 then s
  else (List.range ((pa + n - 1) / 128 - pa / 128 + 1)).foldl (fun (s : State) i =>
    if s.poisoned (pa / 128 + i) then s.retireLine (pa / 128 + i) 0 else s) s

end State

end Sys2Proof.Machine
end

