-- ==== Sys2Proof/Machine/Translate.lean ====
section
/-! DEFINITION. Leases, page tables, TLBs and the L1 lines that depend on them (09 R236 to R253, 10 R249,
R276 to R278, R286). -/

namespace Sys2Proof.Machine

/-! ## Leases (09 R241, R242, R245) -/

/-- The first address of the scratchpad window and its end (08 R208). -/
def windowBase : Nat := 0x7FFFFFFFC00000
def inWindow (a : Nat) : Bool := windowBase ≤ a && a < 2 ^ 55

/-- The end of the run of addresses from `a` that leases with a right cover without a gap. -/
def coverEnd (ls : List (Nat × Nat)) : Nat → Nat → Nat
  | 0, a => a
  | fuel + 1, a =>
    let e := ls.foldl (fun e r => if r.1 ≤ a && a < r.1 + r.2 && e < r.1 + r.2 then r.1 + r.2 else e) a
    if e = a then a else coverEnd ls fuel e

/-- The first byte of [a, a + n) that no lease covers with the rights needed; every byte from 2^55 up is
outside. -/
def leaseGap (ls : List Lease) (a n : Nat) (r w : Bool) : Option Nat :=
  let gap (l : List (Nat × Nat)) : Nat := min (coverEnd l (l.length + 1) a) (if a < 2 ^ 55 then 2 ^ 55 else a)
  let er := if r then gap ((ls.filter (·.r)).map fun x => (x.base, x.len)) else a + n
  let ew := if w then gap ((ls.filter (·.w)).map fun x => (x.base, x.len)) else a + n
  let e := min er ew
  if a + n ≤ e then none else some e

/-- The context store gives its range to every launch (17 R448, R465, log 20). -/
def State.storeLease (s : State) : Lease :=
  ⟨s.ctxStore.toNat, 65536 * s.ctxUnits.toNat, true, true, true⟩

def State.leasesOf (s : State) (l : Launch) : List Lease := l.leases ++ [s.storeLease]

/-! ## Page tables (09 R239, R240) -/

/-- The tag of a physical address a TLB entry is built from: the device line or the host sector
(09 R250). -/
def pteTag (pa : Nat) : Nat := if isHost pa then pa / 64 * 64 else pa / 128 * 128

/-- A malformed entry (09 R240). -/
def pteMalformed (pte lvl : Nat) : Bool :=
  let f (lo n : Nat) := (pte >>> lo) % 2 ^ n
  let leaf := f 1 1 == 1
  f 52 12 != 0 || f 9 7 != 0
    || (leaf && f 16 36 % 2 ^ (13 * (lvl - 1)) != 0)
    || (!leaf && f 2 7 != 0)
    || (lvl == 1 && !leaf)
    || (f 7 2 == 3 && f 6 1 == 1)

/-- The result of a walk: the lines it read, a leaf, and the first poisoned line it met. -/
structure Walked where
  tags : List Nat
  leaf : Option TlbEntry
  bad : Option Nat
  deriving DecidableEq, Repr

/-- The levels of a walk (09 R240). -/
def walkLevels (s : State) (asid va : Nat) : List Nat → Nat → List Nat → Walked
  | [], _, tags => ⟨tags, none, none⟩
  | lvl :: rest, e, tags =>
    let pa := e + 8 * ((va >>> (13 * lvl + 3)) % 8192)
    let tags := insertNat (pteTag pa) tags
    if s.poisoned (pa / 128) then ⟨tags, none, some (pa / 128)⟩
    else
      let pte := (s.homeWord pa).toNat
      let f (lo n : Nat) := (pte >>> lo) % 2 ^ n
      if f 0 1 = 0 || pteMalformed pte lvl then ⟨tags, none, none⟩
      else if f 1 1 = 1 then
        ⟨tags, some { asid := asid, vpage := (va >>> (13 * lvl + 3)) <<< (13 * (lvl - 1)), lvl := lvl, ok := true
                      frame := f 16 36, home := f 7 2, coh := f 6 1 == 1, g := f 5 1 == 1, x := f 4 1 == 1
                      w := f 3 1 == 1, r := f 2 1 == 1, tags := tags, hold := [] }, none⟩
      else walkLevels s asid va rest (65536 * f 16 36) tags

/-- A walk of an address in an address space (09 R240). -/
def State.walk (s : State) (aspace : W64) (va : Nat) : Walked :=
  walkLevels s (fieldOf aspace 0 16) va [3, 2, 1] (65536 * fieldOf aspace 16 36) []

namespace TlbEntry

/-- The page's size in 64 KiB pages. -/
def pages (e : TlbEntry) : Nat := 2 ^ (13 * (e.lvl - 1))

/-- The entry maps a virtual address. -/
def covers (e : TlbEntry) (va : Nat) : Bool := e.vpage ≤ va / 65536 && va / 65536 < e.vpage + e.pages

/-- Two entries are of the same page of an address space. -/
def samePage (e f : TlbEntry) : Bool := e.vpage == f.vpage && e.lvl == f.lvl && e.asid == f.asid

/-- An L1 line depends on the entry (09 R248). -/
def backs (e : TlbEntry) (l : L1Line) : Bool := (e.g || e.asid == l.asid) && e.covers (128 * l.vline)

/-- The entry serves an address space (09 R239, R248). -/
def serves (e : TlbEntry) (asid va : Nat) : Bool := (e.g || e.asid == asid) && e.covers va

/-- The physical address of a virtual address of the page. -/
def phys (e : TlbEntry) (va : Nat) : Nat := 65536 * e.frame + (va - 65536 * e.vpage)

/-- The entry with the treatment recorded for its frame while the frame is pinned (10 R286). -/
def treated (e : TlbEntry) (s : State) (va : Nat) : TlbEntry :=
  match tget? s.frames (e.phys va / 65536) with
  | some f => if f.pins.isEmpty then e else { e with home := f.home, coh := f.coh }
  | none => e

end TlbEntry

/-! ## L1 lines leaving (10 R276, R277) -/

/-- The tags of the device line, or of the host sectors, that hold the bytes of a mask of a line (09 R250). -/
def maskTags (pline : Nat) (m : BitVec 128) : List Nat :=
  if m = 0 then []
  else if isHost (128 * pline) then
    (if m.setWidth 64 = 0 then [] else [128 * pline]) ++ (if m >>> 64 = 0 then [] else [128 * pline + 64])
  else [128 * pline]

/-- What a write-back of an L1 line performs a write to, for the translations built from it: a directory-tracked line's
writes are performed before (09 R250, 11 R309). -/
def L1Line.tags (x : L1Line) : List Nat := if x.self then maskTags x.pline x.dirty else []

/-- The directory state once a core leaves it (10 R276). -/
def DirState.leave (d : DirState) (c : Nat) : DirState :=
  match d with
  | .i => .i
  | .s l => let l := l.filter (· != c); if l.isEmpty then .i else .s l
  | .o k m => if k = c then .i else .o k m
  | .p l =>
    let l := l.filter fun x => x.1 != c
    match l with
    | [] => .i
    | [(k, m)] => if m = 0 then .s [k] else .o k m
    | _ => if l.all fun x => x.2 == 0 then .s (l.map (·.1)) else .p l

namespace State

/-- Entries of every TLB that satisfy a test, as the clusters' and chiplets' tables. -/
def dropTlb (s : State) (p : TlbEntry → Bool) : State :=
  { s with
    clusters := s.clusters.map fun e => (e.1, { e.2 with tlb := e.2.tlb.filter fun x => !p x })
    chiplets := s.chiplets.map fun e => (e.1, { e.2 with tlb := e.2.tlb.filter fun x => !p x }) }

/-- The dirty bytes of an L1 line written to the L2 copy (10 R276, R277). For those of a self-invalidating line the device
takes the host sectors that the host owns by now, and the host gives up its copy of a device line (10 R280, R288). -/
def l1Down (s : State) (c : Nat) (x : L1Line) : State :=
  if x.self then ((x.tags.foldl (fun s t => s.takeSectors t 64) s).backInvalidate x.pline).l2Write (coreSlot c) x.pline x.dirty x.data x.below
  else
    s.modL2 (coreSlot c) x.pline fun y => { y with data := overlay x.dirty x.data y.data, dirty := y.dirty ||| x.dirty }

/-- The L1 line of a physical line leaves its cache: its dirty bytes are written to the L2 copy, and the directory knows
the core no longer (10 R276, R277). -/
def l1Out (s : State) (c pline : Nat) : State :=
  match l1Phys (s.core c).l1 pline with
  | none => s
  | some x =>
    let s := (s.modCore c fun k => { k with l1 := l1DropPhys k.l1 pline }).l1Down c x
    if x.self then s else s.modL2 (coreSlot c) pline fun y => { y with dir := y.dir.leave c }

/-- The L1 lines, by core, that depend on entries of the cluster TLBs that satisfy a test (09 R248). -/
def dependents (s : State) (p : TlbEntry → Bool) : List (Nat × L1Line) :=
  (s.clusters.map fun k =>
    let gone := k.2.tlb.filter fun x => x.ok && p x
    if gone.isEmpty then []
    else ((coresOf k.1).map fun c =>
      ((s.core c).l1.filter fun l => gone.any fun x => x.backs l).map fun l => (c, l)).flatten).flatten

/-- Entries that satisfy a test are removed from every TLB, after the L1 lines that depend on them, which are written back
and invalidated (09 R248). Where dirty bytes of a self-invalidating line reach the L2 so, the entries built from that line go
too (09 R250). -/
def removeMatching (s : State) : Nat → (TlbEntry → Bool) → State
  | 0, _ => s
  | fuel + 1, p =>
    if !(s.clusters.any fun e => e.2.tlb.any p) && !(s.chiplets.any fun e => e.2.tlb.any p) then s
    else
      let out := s.dependents p
      let tags := (out.map fun x => x.2.tags).flatten
      ((out.foldl (fun t x => t.l1Out x.1 x.2.pline) s).dropTlb p).removeMatching fuel fun e => e.tags.any tags.contains

/-- The entries of every TLB. -/
def tlbCount (s : State) : Nat := (s.clusters.map fun e => e.2.tlb.length).sum + (s.chiplets.map fun e => e.2.tlb.length).sum

def removeEntries (s : State) (p : TlbEntry → Bool) : State := s.removeMatching (s.tlbCount + 1) p

/-- The entries built from the lines and sectors of tags go (09 R250). -/
def removeTagged (s : State) (tags : List Nat) : State :=
  if tags.isEmpty then s else s.removeEntries fun e => e.tags.any tags.contains

/-- The L1 line of a physical line leaves its cache; what its dirty bytes reach loses its translations (09 R250). -/
def l1Evict (s : State) (c pline : Nat) : State :=
  (s.l1Out c pline).removeTagged (((l1Phys (s.core c).l1 pline).map L1Line.tags).getD [])

/-- The L1 lines of a core that satisfy a test leave it. -/
def l1EvictAll (s : State) (c : Nat) (p : L1Line → Bool) : State :=
  ((s.core c).l1.filter p).foldl (fun s x => s.l1Evict c x.pline) s

/-- The dirty bytes of a mask of a core's L1 line are written to L2; the line stays, those bytes clean (10 R283, 11 R301,
R309). The directory keeps the bytes that a participant has written as its own (10 R274). -/
def l1Clean (s : State) (c pline : Nat) (mask : BitVec 128 := BitVec.allOnes 128) : State :=
  match l1Phys (s.core c).l1 pline with
  | none => s
  | some y =>
    let x := { y with dirty := y.dirty &&& mask }
    if x.dirty = 0 then s
    else
      let s := (s.l1Down c x).modCore c fun k =>
        { k with l1 := k.l1.map fun y => if y.pline == pline then { y with dirty := y.dirty &&& ~~~ mask } else y }
      let s := if x.self then s else s.modL2 (coreSlot c) pline fun z =>
        { z with dir := match z.dir with
            | .o k m => if k = c then .o k (m &&& ~~~ mask) else .o k m
            | d => d }
      s.removeTagged x.tags

/-- The self-invalidating L1 lines with dirty bytes of the page-table entries that translate addresses leave their caches, until
there is none: a copy's translation is built from entries that no L1 holds back (08 R223, 09 R250, log 86). -/
def evictPtes (s : State) (aspace : W64) (vas : List Nat) : Nat → State
  | 0 => s
  | fuel + 1 =>
    let tags := (vas.map fun a => (s.walk aspace a).tags).flatten
    let out := (s.cores.map fun k => (k.2.l1.filter fun x => x.tags.any tags.contains).map fun x => (k.1, x.pline)).flatten
    if out.isEmpty then s else (out.foldl (fun s e => s.l1Evict e.1 e.2) s).evictPtes aspace vas fuel

/-- A write reached bytes [pa, pa + n): entries built from that line or sector go (09 R250). -/
def pteWritten (s : State) (pa n : Nat) : State :=
  let lo := pteTag pa
  let hi := pteTag (pa + n - 1)
  s.removeEntries fun e => e.tags.any fun t => lo ≤ t && t ≤ hi

/-- A device write within one line at its home, seen by the translation structures and by the host (09 R250, 16 R434,
R436). -/
def homeWrite (s : State) (pa : Nat) (l : List Byte) : State :=
  let s := (((s.pteWritten pa l.length).snoopHost pa l.length).backInvalidate (pa / 128)).recallHome (pa / 128)
  s.memPutLine (pa / 128) (lineMask (pa % 128) l.length) (lineOf (pa % 128) l)

/-! ## TLBs (09 R246 to R248) -/

/-- A hold of an LDT lasts until its time is up, which runs from the LDT's completion (09 R263, log 87). -/
def holds (s : State) (h : Nat × Nat × Nat) : Bool := decide (s.rt.toNat < h.2.2) || (tget? s.ops h.2.1).isSome

/-- An entry that may be replaced: not held (09 R263) and with no pinned L1 line (10 R278). -/
def replaceable (s : State) (k : Nat) (e : TlbEntry) : Bool :=
  !(e.hold.any s.holds)
  && !(coresOf k).any fun c => (s.core c).l1.any fun l => l.place == .pinned && e.backs l

/-- An entry removed from one cluster TLB, with the L1 lines below it. -/
def evictEntry (s : State) (k : Nat) (e : TlbEntry) : State :=
  let s := (coresOf k).foldl (fun t c =>
    t.l1EvictAll c fun l => e.ok && e.backs l) s
  s.modCluster k fun c => { c with tlb := c.tlb.filter fun x => x != e }

/-- An entry installed in a cluster TLB of 2,048 entries. An entry of the same page gives it its holds (09 R263), and goes
with the L1 lines that depend on it where it differs (09 R248). Where no entry may be replaced, it is not installed
(log 12). -/
def installCluster (s : State) (k : Nat) (e : TlbEntry) : State :=
  let same := (s.cluster k).tlb.filter fun x => x.samePage e
  let e := { e with hold := e.hold ++ (same.map (·.hold)).flatten }
  let s := (same.filter fun x => x.ok && { x with hold := e.hold } != e).foldl (fun s x => s.evictEntry k x) s
  let put (s : State) : State := s.modCluster k fun c => { c with tlb := e :: c.tlb.filter fun x => !x.samePage e }
  let others := (s.cluster k).tlb.filter fun x => !x.samePage e
  if others.length < 2048 then put s
  else
    let cand := others.filter (s.replaceable k)
    match cand[Config.tlbVictim s.choice % cand.length]? with
    | some v => put (s.evictEntry k v)
    | none => s

/-- The bank of a chiplet TLB that homes a page, of four (09 R246, log 12). -/
def tlbBankOf (vpage : Nat) : Nat := Config.tlbBank vpage % 4

/-- An entry installed in a chiplet TLB, four banks of 4,096 entries. -/
def installChip (s : State) (p : Nat) (e : TlbEntry) : State :=
  s.modChiplet p fun c =>
    let rest := c.tlb.filter fun x => !x.samePage e
    let rest := if rest.length < 4096 then rest
      else
        let bank := rest.filter fun x => tlbBankOf x.vpage == tlbBankOf e.vpage
        if bank.length < 4096 then rest
        else match bank[Config.tlbVictim s.choice % bank.length]? with
          | some v => rest.filter fun x => x != v
          | none => rest
    { c with tlb := e :: rest }

/-- The entry of a cluster TLB or of the chiplet TLB that serves an address. -/
def clusterHit (s : State) (k asid va : Nat) : Option TlbEntry := (s.cluster k).tlb.find? fun e => e.serves asid va

def chipHit (s : State) (p asid va : Nat) : Option TlbEntry := (s.chiplet p).tlb.find? fun e => e.serves asid va

/-- What a translation gives. -/
structure Xlat where
  s : State
  entry : Option TlbEntry
  /-- A poisoned line of the page table met by the walk (13 R371). -/
  bad : Option Nat

/-- The translation of an address for a core: cluster TLB, chiplet TLB, then a walk whose result is installed
(09 R247; the walk's time is not shown, log 2). A negative result held in the cluster TLB hits (09 R263). -/
def translate (s : State) (core : Nat) (aspace : W64) (va : Nat) : Xlat :=
  let k := clusterOf core
  let p := coreSlot core
  let asid := fieldOf aspace 0 16
  if 2 ^ 55 ≤ va then ⟨s, none, none⟩
  else
    match s.clusterHit k asid va with
    | some e => ⟨s, if e.ok then some (e.treated s va) else none, none⟩
    | none =>
      match s.chipHit p asid va with
      | some e => ⟨s.installCluster k e, some (e.treated s va), none⟩
      | none =>
        match s.walk aspace va with
        | ⟨_, some e, _⟩ => ⟨(s.installChip p e).installCluster k e, some (e.treated s va), none⟩
        | ⟨_, none, bad⟩ => ⟨s, none, bad⟩

/-- The page that maps an address as the tables stand, by its virtual address over 64 KiB; a 64 KiB page where there is none
(09 R246). -/
def pageOf (s : State) (aspace : W64) (va : Nat) : Nat := ((s.walk aspace va).leaf.map (·.vpage)).getD (va / 65536)

/-! ## Walks in flight (09 R247, R262) -/

/-- The number of the walk in flight of a page on a chiplet; the page is the one that maps the address. -/
def walkOf (s : State) (chip : Nat) (aspace : W64) (vpage : Nat) : Option Nat :=
  (s.walks.find? fun e => e.2.chip == chip && e.2.aspace == aspace && e.2.vpage == vpage).map (·.1)

/-- A free walker of a bank: 16 in each quadrant. -/
def walkerFree (s : State) (chip bank : Nat) : Bool :=
  decide ((s.walks.countP fun e => e.2.active && e.2.chip == chip && e.2.bank == bank) < 16)

/-- A walk of an address's page for a core starts, or the core's cluster joins the one in flight; `join` adds what waits for it.
-/
def joinWalk (s : State) (core : Nat) (aspace : W64) (va : Nat) (join : WalkRec → WalkRec) : State × Nat :=
  let chip := coreSlot core
  let k := clusterOf core
  let vpage := s.pageOf aspace va
  match s.walkOf chip aspace vpage with
  | some n => ({ s with walks := tmod s.walks n fun w => join { w with clusters := insertNat k w.clusters } }, n)
  | none =>
    let bank := tlbBankOf vpage
    let w : WalkRec := ⟨chip, aspace, vpage, bank, s.walkerFree chip bank, [k], [], []⟩
    ({ s with walks := tput s.walks s.fresh (join w), fresh := s.fresh + 1 }, s.fresh)

/-- A translation is held for a core in its cluster TLB or its chiplet TLB (09 R262). -/
def hasEntry (s : State) (core : Nat) (aspace : W64) (va : Nat) : Bool :=
  (s.clusterHit (clusterOf core) (fieldOf aspace 0 16) va).isSome
    || (s.chipHit (coreSlot core) (fieldOf aspace 0 16) va).isSome

/-- A miss of an address cannot walk at once: a walk of its page is in flight, which it joins, or every walker of the page's
bank is busy, and it queues. -/
def mustWait (s : State) (core : Nat) (aspace : W64) (va : Nat) : Bool :=
  let vpage := s.pageOf aspace va
  decide (va < 2 ^ 55) && !s.hasEntry core aspace va
    && ((s.walkOf (coreSlot core) aspace vpage).isSome || !s.walkerFree (coreSlot core) (tlbBankOf vpage))

/-- The misses among addresses that an access translates join walks or queue for a walker, and the access waits for them; none
where each translates in its own step (09 R247, log 2). -/
def waitWalks (s : State) (core : Nat) (aspace : W64) (vas : List Nat) : Option State :=
  match vas.filter (s.mustWait core aspace) with
  | [] => none
  | l => some (l.foldl (fun s va => (s.joinWalk core aspace va id).1) s)

/-- A walk of no task's access found a line uncorrectable: it is retired (13 R373). -/
def cleanWalk (s : State) (aspace : W64) (va : Nat) : State :=
  match (s.walk aspace va).bad with
  | some l => s.retireLine l 0
  | none => s

/-- The same for the walks of several addresses. -/
def cleanWalks (s : State) (aspace : W64) (vas : List Nat) : State :=
  if s.bad.isEmpty then s else vas.foldl (fun s a => s.cleanWalk aspace a) s

/-- A translation that changes no TLB: for the command processor and the host's packets. -/
def look (s : State) (aspace : W64) (va : Nat) : Option TlbEntry :=
  if 2 ^ 55 ≤ va then none else (s.walk aspace va).leaf.map fun e => e.treated s va

/-- Before a read of `n` bytes at a virtual address that no task consumes: the uncorrectable lines that it meets, of the page
tables and, with `data`, those read, are retired (13 R372, R373). -/
def cleanVirt (s : State) (aspace : W64) (a n : Nat) (data : Bool := true) : State :=
  if s.bad.isEmpty || n = 0 then s
  else (List.range ((a % 128 + n + 127) / 128)).foldl (fun (s : State) k =>
    let va := max a (128 * (a / 128 + k))
    let s := s.cleanWalk aspace va
    match s.look aspace va with
    | some e => if data then s.cleanPhys (e.phys va) 1 else s
    | none => s) s

end State

end Sys2Proof.Machine
end

