-- ==== Sys2Proof/Machine/Caches.lean ====
section
/-! DEFINITION. Accesses of a core through its L1 under the three treatments, the directory's answers, the
write-set filter, and synchronisation at the home (10 R268 to R280, 11 R292, R299, R300). -/

namespace Sys2Proof.Machine

/-! ## The write-set filter (11 R299, R300) -/

/-- The four bits of a line (11 R300). -/
def hashBits (pline : Nat) : List Nat :=
  let f := (pline ^^^ (pline >>> 15) ^^^ (pline >>> 30)) % 2 ^ 15
  [(f * 1) % 224, 224 + (f * 45 + 17) % 224, 448 + (f * 97 + 59) % 224, 672 + (f * 151 + 113) % 224]

/-- The bits of a line as a filter. -/
def hashMask (pline : Nat) : BitVec 896 :=
  BitVec.ofNat 896 ((hashBits pline).foldl (fun a b => a ||| 2 ^ b) 0)

/-- A line hits a signature when all four of its bits are set (11 R300). -/
def hits (pline : Nat) (sig : BitVec 896) : Bool := hashMask pline &&& sig == hashMask pline

/-- Set bits of a signature. -/
def countBits (sig : BitVec 896) : Nat := (List.range 896).countP fun i => sig.getLsbD i

/-- A signature ORed into a core's filter (11 R299, R303). -/
def Core.addSig (c : Core) (sig : BitVec 896) (sat : Bool) : Core :=
  let f := c.filter ||| sig
  { c with filter := f, filterSat := c.filterSat || sat || (f != c.filter && decide (448 < countBits f)) }

namespace State

/-- A write of a core to a self-invalidating line enters its filter (11 R299). -/
def noteWrite (s : State) (c pline : Nat) : State := s.modCore c fun k => k.addSig (hashMask pline) false

/-! ## The L1 (10 R268, R278) -/

/-- The placement class of an L1 line on a page by its hint (10 R279). -/
def l1PlaceOf (home hint : Nat) : Place :=
  if home = 1 then .pinned else if hint = 1 then .stream else if hint = 2 then .keep else .default

/-- The placement class of an L2 line (10 R279). -/
def l2PlaceOf (home hint : Nat) : Place :=
  if home = 2 then .pinned else if hint = 1 then .stream else .default

/-- The class a fill takes within the limits of an L1 set: at most 2 ways pinned, 4 pinned or keep
(10 R278). -/
def l1Limit (same : List L1Line) (k : Place) : Place :=
  let pins := same.countP fun x => x.place == .pinned
  let keeps := same.countP fun x => x.place == .pinned || x.place == .keep
  let k := if k = .pinned && 2 ≤ pins then .keep else k
  if (k = .pinned || k = .keep) && 4 ≤ keeps then .default else k

/-- The victim of a full L1 set (10 R278). -/
def l1Victim (same : List L1Line) : Option L1Line :=
  if same.length < 8 then none
  else
    let last (k : Place) := (same.filter fun x => x.place == k).getLast?
    (last .stream).orElse fun _ => (last .default).orElse fun _ => last .keep

/-- The lines of the L1 set of an access that hold other physical lines. -/
def l1Others (s : State) (c : Nat) (e : TlbEntry) (va : Nat) : List L1Line :=
  (s.core c).l1.filter fun x => x.vline % 128 == va / 128 % 128 && x.pline != e.phys va / 128

/-- A way is made free in the L1 set of an access, where the physical line is not there already (10 R268, R278). -/
def l1Room (s : State) (c : Nat) (e : TlbEntry) (va : Nat) : State :=
  if (l1Phys (s.core c).l1 (e.phys va / 128)).any fun x => x.vline % 128 == va / 128 % 128 then s
  else match l1Victim (s.l1Others c e va) with
    | some v => s.l1Evict c v.pline
    | none => s

/-- The core's L1 holds the physical line under the tag of this access, at the front of its use order: a line
under another address moves to the new tag (09 R249); a missing line is allocated without data. -/
def l1Take (s : State) (c : Nat) (e : TlbEntry) (asid va hint : Nat) : State :=
  let pline := e.phys va / 128
  let others := s.l1Others c e va
  s.modCore c fun k =>
    { k with l1 := match l1Phys k.l1 pline with
        | some x => { x with vline := va / 128, asid := asid, g := e.g, r := e.r, w := e.w } :: l1DropPhys k.l1 pline
        | none =>
          ⟨va / 128, asid, e.g, e.r, e.w, pline, e.coh, l1Limit others (l1PlaceOf e.home hint), l2PlaceOf e.home hint, 0, 0, 0⟩
            :: k.l1 }

/-- The core's cluster TLB holds the translation of an access at present: without it the L1 takes no line of the page, and
the access is served at the L2 (09 R248). -/
def bound (s : State) (c : Nat) (e : TlbEntry) (asid va : Nat) : Bool :=
  (s.clusterHit (clusterOf c) asid va).any fun x => x.ok && x.phys va == e.phys va

/-- The core's line of a physical line changed. -/
def modL1 (s : State) (c pline : Nat) (f : L1Line → L1Line) : State :=
  s.modCore c fun k => { k with l1 := k.l1.map fun x => if x.pline == pline then f x else x }

/-! ## The directory (10 R274 to R276) -/

/-- The union of the masks of the other participants. -/
def othersMask (l : List (Nat × BitVec 128)) (c : Nat) : BitVec 128 :=
  l.foldl (fun m x => if x.1 = c then m else m ||| x.2) 0

/-- The answer from state I (10 R275). -/
def dirFromI (c : Nat) (write : Bool) (x : BitVec 128) : DirState := if write then .o c x else .s [c]

/-- The directory's answer to a request of core `c` for bytes `x`: the next state, or none for a merge
(10 R275). -/
def dirNext (d : DirState) (c : Nat) (write : Bool) (x : BitVec 128) : Option DirState :=
  match d with
  | .i => some (dirFromI c write x)
  | .s l =>
    if !write then some (.s (insertNat c l))
    else if l.all (· == c) then some (.o c x)
    else
      let all := insertNat c l
      if all.length ≤ 8 then some (.p (all.map fun k => (k, if k = c then x else 0))) else none
  | .o k m =>
    if k = c then some (.o c (if write then m ||| x else m))
    else if x &&& m = 0 then
      some (.p (tput [(k, m)] c (if write then x else 0)))
    else none
  | .p l =>
    if x &&& othersMask l c != 0 then none
    else match tget? l c with
      | some m => some (.p (tput l c (if write then m ||| x else m)))
      | none => if l.length < 8 then some (.p (tput l c (if write then x else 0))) else none

/-- What the directory does with a request: its next state, after a merge where it must merge first. The merge takes the
requesting core's copy too: it is allocated again, empty (10 R275). -/
def dirTurn (s : State) (c pline : Nat) (write : Bool) (x : BitVec 128) (y : L2Line) : State × DirState :=
  match dirNext y.dir c write x with
  | some d => (s, d)
  | none =>
    let t := s.mergeLine (coreSlot c) pline
    (match l1Phys (s.core c).l1 pline with
      | some l => t.modCore c fun q => { q with l1 := { l with valid := 0, dirty := 0 } :: l1DropPhys q.l1 pline }
      | none => t, dirFromI c write x)

/-- A write narrows the windows of the other participants (10 R276). -/
def dirNarrow (s : State) (c pline : Nat) (write : Bool) (x : BitVec 128) (d : DirState) : State :=
  if write then d.cores.foldl (fun s q =>
      if q = c then s else s.modL1 q pline fun l => { l with valid := l.valid &&& ~~~ x }) s
  else s

/-- The bytes that the other participants of a shared line own. -/
def dirOthers (d : DirState) (c : Nat) : BitVec 128 :=
  match d with
  | .p l => othersMask l c
  | _ => 0

/-- A request of core `c` to the directory of its chiplet for a line its L1 has allocated (10 R275, R276):
the state, the bytes the L1 copy gains, and the windows it narrows elsewhere. -/
def dirRequest (s : State) (c pline : Nat) (write : Bool) (x : BitVec 128) (k : Place) : State :=
  let p := coreSlot c
  let s := if write then s.l2Own p pline k else s.l2Fetch p pline k
  match s.l2Line? p pline with
  | none => s
  | some y =>
    let t := s.dirTurn c pline write x y
    let s := (t.1.modL2 p pline fun z => { z with dir := t.2 }).dirNarrow c pline write x t.2
    match s.l2Line? p pline with
    | none => s
    | some z => s.modL1 c pline fun l =>
        { l with data := overlay l.dirty l.data z.data, valid := (~~~ dirOthers t.2 c &&& ~~~ s.hostMask pline) ||| l.dirty }

/-! ## Host sectors (10 R280) -/

/-- What a write of bytes asks first: the entries of the TLBs built from them go (09 R250), the device owns the host sectors
it writes in a cache (10 R280), and the host gives up a device line (10 R288). -/
def beforeWrite (s : State) (e : TlbEntry) (pa n : Nat) : State :=
  let s := (s.pteWritten pa n).backInvalidate (pa / 128)
  if e.home = 3 then s.snoopHost pa n else s.takeSectors pa n

/-! ## Loads and stores of bytes within one line -/

/-- The bytes are valid in the core's L1 under the entry's physical line. -/
def l1Has (s : State) (c : Nat) (e : TlbEntry) (va n : Nat) : Bool :=
  match l1Phys (s.core c).l1 (e.phys va / 128) with
  | some x => lineMask (va % 128) n &&& ~~~ x.valid == 0
  | none => false

/-- A `.nol1` access first writes back and invalidates the core's own copy (10 R279). -/
def l1Flush (s : State) (c pline : Nat) : State :=
  s.l1Evict c pline

/-- Bytes of the L2 copy of a chiplet. -/
def l2Bytes (s : State) (p pline o n : Nat) : List Byte :=
  lineBytes (((s.l2Line? p pline).map (·.data)).getD 0) o n

/-- Other cores' bytes of the mask are merged into the L2 copy (10 R275). -/
def mergeIfDirty (s : State) (p pline : Nat) (x : BitVec 128) : State :=
  match s.l2Line? p pline with
  | none => s
  | some y =>
    let m := match y.dir with
      | .o _ m => m
      | .p l => othersMask l 864
      | _ => 0
    if x &&& m = 0 then s else s.mergeLine p pline

/-- A `.nol1` load (10 R279). -/
def loadPast (s : State) (c : Nat) (e : TlbEntry) (va n hint : Nat) : State × List Byte :=
  let pa := e.phys va
  let pline := pa / 128
  let p := coreSlot c
  let s := (s.l1Flush c pline).l2Fetch p pline (l2PlaceOf e.home hint)
  let s := if e.coh then s else s.mergeIfDirty p pline (lineMask (pa % 128) n)
  (s, s.l2Bytes p pline (pa % 128) n)

/-- The bytes of a line that a core's L1 lacks are brought in, but for a sector that the host owns (10 R272 to R277, R280). -/
def l1Fill (s : State) (c : Nat) (e : TlbEntry) (va n hint : Nat) : State :=
  let pline := e.phys va / 128
  let p := coreSlot c
  if e.coh then
    let s := s.l2Fetch p pline (l2PlaceOf e.home hint)
    match s.l2Line? p pline with
    | some z => s.modL1 c pline fun l =>
        { l with data := overlay l.valid l.data z.data, valid := l.valid ||| ~~~ s.hostMask pline }
    | none => s
  else s.dirRequest c pline false (lineMask (e.phys va % 128) n) (l2PlaceOf e.home hint)

/-- A load through the L1 (10 R272 to R278). -/
def loadL1 (s : State) (c : Nat) (e : TlbEntry) (asid va n hint : Nat) : State × List Byte :=
  let hit := s.l1Has c e va n
  let s := s.l1Take c e asid va hint
  let s := if hit then s else s.l1Fill c e va n hint
  (s, lineBytes (((l1Phys (s.core c).l1 (e.phys va / 128)).map (·.data)).getD 0) (e.phys va % 128) n)

/-- A load of `n` bytes at a translated address (09 R259, 10 R272 to R279). -/
def loadBytes (s : State) (c : Nat) (e : TlbEntry) (asid va n hint : Nat) : State × List Byte :=
  let pa := e.phys va
  if isPeer pa then (s, (List.range n).map fun i => s.memByte (pa + i))
  else if !s.usable pa then (s, List.replicate n 0)
  else
    let past := hint = 3 && e.home != 1
    let s := if e.home != 3 && !past && s.l1Has c e va n then s else s.snoopHost pa n
    if e.home = 3 then
      let s := s.memFetch (pa / 128)
      (s, lineBytes (s.memLine (pa / 128)) (pa % 128) n)
    else if past then s.loadPast c e va n hint
    else
      let s := s.l1Room c e va
      if s.bound c e asid va then s.loadL1 c e asid va n hint else s.loadPast c e va n hint

/-- The directory's part of a write that a slice performs for a core whose L1 takes no copy: the others' windows narrow, or
their copies merge (10 R275, R276, R279). -/
def dirPast (s : State) (c pline : Nat) (x : BitVec 128) : State :=
  let p := coreSlot c
  match s.l2Line? p pline with
  | none => s
  | some y =>
    match dirNext y.dir c true x with
    | none => s.mergeLine p pline
    | some d => (s.dirNarrow c pline true x d).modL2 p pline fun z => { z with dir := d.leave c }

/-- A `.nol1` store (10 R279). -/
def storePast (s : State) (c : Nat) (e : TlbEntry) (va : Nat) (l : List Byte) (hint : Nat) : State :=
  let pa := e.phys va
  let pline := pa / 128
  let p := coreSlot c
  let m := lineMask (pa % 128) l.length
  let s := (s.l1Flush c pline).l2Own p pline (l2PlaceOf e.home hint)
  let s := if e.coh then s else s.dirPast c pline m
  s.l2Write p pline m (lineOf (pa % 128) l) (l2PlaceOf e.home hint)

/-- A store into the L1, which leaves its bytes dirty there (10 R272 to R277). -/
def storeL1 (s : State) (c : Nat) (e : TlbEntry) (asid va : Nat) (l : List Byte) (hint : Nat) : State :=
  let pa := e.phys va
  let pline := pa / 128
  let m := lineMask (pa % 128) l.length
  let s := s.l1Take c e asid va hint
  let s := if e.coh then s else s.dirRequest c pline true m (l2PlaceOf e.home hint)
  s.modL1 c pline fun x =>
    { x with data := overlay m (lineOf (pa % 128) l) x.data, valid := x.valid ||| m, dirty := x.dirty ||| m }

/-- A store of bytes at a translated address (09 R259, 10 R272 to R279, 11 R299). -/
def storeBytes (s : State) (c : Nat) (e : TlbEntry) (asid va : Nat) (l : List Byte) (hint : Nat) : State :=
  let pa := e.phys va
  let pline := pa / 128
  let m := lineMask (pa % 128) l.length
  if isPeer pa then s.memPut pa l
  else if !s.usable pa then s
  else
    let s := s.beforeWrite e pa l.length
    if e.home = 3 then s.memPutLine pline m (lineOf (pa % 128) l)
    else
      let s := if e.coh then s.noteWrite c pline else s
      if hint = 3 && e.home != 1 then s.storePast c e va l hint
      else
        let s := s.l1Room c e va
        if s.bound c e asid va then s.storeL1 c e asid va l hint else s.storePast c e va l hint

/-! ## Synchronisation at the home (11 R292) -/

/-- Before a synchronisation event of a core on `n` bytes of a line: its own dirty bytes go to L2, its copy is invalidated,
and the home holds the line, with ownership of the host sectors. An uncached line that proves uncorrectable is retired, as
memory's line is at the LLC (13 R372). -/
def toHome (s : State) (c : Nat) (e : TlbEntry) (va : Nat) (n : Nat := 8) : State :=
  let pa := e.phys va
  if isPeer pa || !s.usable pa then s
  else if e.home = 3 then (s.snoopHost pa n).memFetch (pa / 128)
  else ((s.l1Evict c (pa / 128)).recallAll (pa / 128)).takeSectors pa n

/-- Before a test of WAIT kind 5: the core's dirty bytes of the cell's line go to L2, and nothing is invalidated; the device
owns the cell's host sector (07 R200, 11 R292). No task consumes what a test reads: an uncorrectable line is retired and ends
none (13 R373, log 73). -/
def reachCell (s : State) (c : Nat) (e : TlbEntry) (va : Nat) : State :=
  let pa := e.phys va
  if isPeer pa || !s.usable pa then s
  else if e.home = 3 then (s.snoopHost pa 8).memFetch (pa / 128)
  else
    let s := (s.l1Clean c (pa / 128)).takeSectors pa 8
    if s.poisoned (pa / 128) then s.memFetch (pa / 128) else s

/-- The 8 bytes of a cell at its home, as a test of WAIT kind 5 finds them (11 R292). -/
def cellWord (s : State) (pa : Nat) : W64 :=
  if isPeer pa then BitVec.ofNat 64 (natOfBytes ((List.range 8).map fun i => s.memByte (pa + i))) else s.homeWord pa

/-- The bytes of a location as its home holds them, after `toHome`. -/
def homeRead (s : State) (e : TlbEntry) (va n : Nat) : List Byte :=
  let pa := e.phys va
  if isPeer pa then (List.range n).map fun i => s.memByte (pa + i)
  else if !s.usable pa then List.replicate n 0
  else if e.home = 3 then lineBytes (s.memLine (pa / 128)) (pa % 128) n
  else lineBytes (((llcGetLine s.llc (pa / 128)).map (·.data)).getD 0) (pa % 128) n

/-- A write at the home, after `toHome` (11 R292). -/
def homePut (s : State) (e : TlbEntry) (va : Nat) (l : List Byte) : State :=
  let pa := e.phys va
  if isPeer pa then s.memPut pa l
  else if !s.usable pa then s
  else
    let s := s.beforeWrite e pa l.length
    let m := lineMask (pa % 128) l.length
    let d := lineOf (pa % 128) l
    if e.home = 3 then s.memPutLine (pa / 128) m d else s.llcPut (pa / 128) m d

/-- A write at the home by a word whose writes enter its core's filter (11 R299). -/
def homeStore (s : State) (c : Nat) (e : TlbEntry) (va : Nat) (l : List Byte) : State :=
  let pa := e.phys va
  let s := s.homePut e va l
  if e.coh && e.home != 3 && !isPeer pa && s.usable pa then s.noteWrite c (pa / 128) else s

/-! ## Publishing and acquiring (11 R301, R303, R308) -/

/-- Every dirty byte of every self-invalidating line of a core is written to L2; the lines stay, clean. -/
def cleanSelf (s : State) (c : Nat) : State :=
  ((s.core c).l1.filter fun x => x.self && x.dirty != 0).foldl (fun s x => s.l1Clean c x.pline) s

/-- The chosen self-invalidating lines of a core are written back and invalidated (11 R303). -/
def dropSelf (s : State) (c : Nat) (choose : Nat → Bool) : State := s.l1EvictAll c fun x => x.self && choose x.pline

end State

end Sys2Proof.Machine
end

