-- ==== Sys2Proof/Machine/Access.lean ====
section
/-! DEFINITION. The checks of an access and the access itself: leases, alignment, rights, range locks, and
scratchpad (08 R207 to R215, 09 R245, R254 to R257, 13 R371, 18 R479). -/

namespace Sys2Proof.Machine

/-! ## Trap causes (17 R447) -/

/-- A cause with its TRAP_INFO and TRAP_FADDR. -/
structure Cause where
  code : Nat
  info : W64
  faddr : W64
  deriving DecidableEq, Repr

namespace Cause

def illegalOpcode : Nat := 0x01
def illegalEncoding : Nat := 0x02
def illegalOperand : Nat := 0x03
def privileged : Nat := 0x04
def misaligned : Nat := 0x05
def outsideLease : Nat := 0x06
def permission : Nat := 0x07
def rangeLock : Nat := 0x08
def token : Nat := 0x09
def matrixMismatch : Nat := 0x0A
def registerDeadlock : Nat := 0x0B
def dataError : Nat := 0x0C
def fetch : Nat := 0x0D
def software : Nat := 0x0E
def breakpoint : Nat := 0x0F
def preempt : Nat := 0x10
def shed : Nat := 0x11
def nodeFenced : Nat := 0x12
def barrierMisuse : Nat := 0x13
def multicastPermission : Nat := 0x14

/-- ILLEGAL_OPERAND with its information. -/
def operand (info : Nat) : Cause := ⟨illegalOperand, BitVec.ofNat 64 info, 0⟩

/-- MISALIGNED: the information and the address are the value (17 R447). -/
def align (v : W64) : Cause := ⟨misaligned, v, v⟩

/-- BARRIER_MISUSE of a barrier, object or descriptor. -/
def misuse (n : Nat) : Cause := ⟨barrierMisuse, BitVec.ofNat 64 n, 0⟩

/-- PERMISSION in the window: TRAP_INFO[63] = 1 with a reason (08 R209, 09 R255). -/
def window (a reason : Nat) : Cause := ⟨permission, BitVec.ofNat 64 (2 ^ 63 + reason), BitVec.ofNat 64 a⟩

/-- PERMISSION of a translated address (09 R255). -/
def rights (a reason : Nat) : Cause := ⟨permission, BitVec.ofNat 64 reason, BitVec.ofNat 64 a⟩

end Cause

/-! ## Scratchpad (08 R207 to R211) -/

namespace State

/-- The block of BLK_IN_COH `j` of a cohort. -/
def cohortBlock (s : State) (cid j : Nat) : Option Nat := (s.cohort? cid).bind fun c => c.blocks[j]?

/-- The scratchpad bytes of a block. -/
def scratchSize (s : State) (bid : Nat) : Nat :=
  match s.block? bid with
  | none => 0
  | some b => (((s.cohort? b.cohort).bind fun c => s.launch? c.launch).map Launch.scratch).getD 0

/-- A byte of a block's scratchpad; what is read of a block that has ended is free (08 R207, log 19). -/
def scratchByte (s : State) (bid o : Nat) : Byte :=
  match s.block? bid with
  | none => Config.lostByte s.choice (2 ^ 18 * bid + o)
  | some b => tgetD 0 b.scratch o

def scratchRead (s : State) (bid o n : Nat) : List Byte := (List.range n).map fun i => s.scratchByte bid (o + i)

/-- A scratchpad write, which raises HWM (16 R442). Where it reaches the descriptor of a buffer at which requests wait, what
it lets be granted is granted next, before anything else (08 R232, log 67). -/
def scratchWrite (s : State) (bid o : Nat) (l : List Byte) : State :=
  let waits := (s.block? bid).any fun b => b.bufq.any fun q => decide (q.off < o + l.length) && decide (o < q.off + 32)
  let s := s.modBlock bid fun b =>
    { b with scratch := memPutFrom b.scratch o l, hwm := max b.hwm ((o + l.length + 15) / 16 * 16) }
  { s with agenda := if waits then .grant bid :: s.agenda else s.agenda }

def scratchWord (s : State) (bid o : Nat) : W32 := BitVec.ofNat 32 (natOfBytes (s.scratchRead bid o 4))
def scratchDword (s : State) (bid o : Nat) : W64 := BitVec.ofNat 64 (natOfBytes (s.scratchRead bid o 8))

def scratchPut (s : State) (bid o n x : Nat) : State := s.scratchWrite bid o (bytesOfNat n x)

/-- The window address of a block offset (08 R209, R210). -/
def windowAddr (s : State) (bid o : Nat) : Nat :=
  windowBase + 2 ^ 18 * ((s.block? bid).map Block.index).getD 0 + o

/-- The scratchpad checks of 08 R210 for an offset and a size. -/
def scratchCheck (s : State) (bid o n : Nat) : Option Cause :=
  if o + n ≤ s.scratchSize bid then none
  else some (Cause.window (s.windowAddr bid o) 0)

end State

/-! ## Range locks (08 R213, R214) -/

/-- What an access touches: bytes of a block's scratchpad, or bytes of virtual memory. -/
inductive Touch where
  | scr (block off : Nat)
  | mem (va : Nat)
  deriving DecidableEq, Repr

/-- The first address at which `n` bytes overlap a lock range, as an offset from the access. -/
def LockRange.overlap (r : LockRange) (t : Touch) (n : Nat) : Option Nat :=
  match r, t with
  | .mem lo hi, .mem a =>
    if lo ≤ (a + n - 1) / 128 && a / 128 ≤ hi then some (max a (128 * lo) - a) else Option.none
  | .scr b lo hi, .scr b' o =>
    if b = b' && lo ≤ (o + n - 1) / 16 && o / 16 ≤ hi then some (max o (16 * lo) - o) else Option.none
  | _, _ => Option.none

/-- The first byte of an access that a lock of the cluster forbids, with the entry's index (08 R214). -/
def State.lockHit (s : State) (k : Nat) (t : Touch) (n : Nat) (write : Bool) : Option (Nat × Nat) :=
  ((s.cluster k).locks.filterMap fun e =>
    if write || e.2.write then (e.2.range.overlap t n).map fun o => (o, e.1) else none).foldl
    (fun best x => match best with
      | none => some x
      | some b => if x.1 < b.1 then some x else some b) none

/-- The RANGE_LOCK cause of a touch. -/
def State.lockCause (s : State) (k : Nat) (t : Touch) (n : Nat) (write : Bool) : Option Cause :=
  (s.lockHit k t n write).map fun h =>
    let a := match t with
      | .scr b o => s.windowAddr b (o + h.1)
      | .mem va => va + h.1
    ⟨Cause.rangeLock, BitVec.ofNat 64 h.2, BitVec.ofNat 64 a⟩

/-! ## The checks of R254 -/

/-- The kind of an access (09 R245). -/
structure AccessKind where
  r : Bool
  w : Bool
  deriving DecidableEq, Repr

def AccessKind.read : AccessKind := ⟨true, false⟩
def AccessKind.write : AccessKind := ⟨false, true⟩
def AccessKind.rmw : AccessKind := ⟨true, true⟩

/-- TRAP_INFO[1:0] of OUTSIDE_LEASE (09 R245). -/
def AccessKind.code (k : AccessKind) : Nat := if k.r && k.w then 3 else if k.w then 2 else 1

/-- How an instruction treats addresses of the scratchpad window and of scale-up windows. -/
structure Accepts where
  window : Bool
  peer : Bool
  deriving DecidableEq, Repr

/-- Who accesses: the group's parties, resolved once. -/
structure Who where
  core : Nat
  bid : Nat
  cid : Nat
  aspace : W64
  leases : List Lease
  deriving DecidableEq, Repr

/-- Where an access goes, once its checks pass. -/
inductive Target where
  | scr (block off : Nat)
  | mem (e : TlbEntry)
  deriving DecidableEq, Repr

namespace State

/-- Step 1 of 09 R254: the first byte outside the lease. Bytes of the window are not checked, and those from 2^55 up are
outside every lease (09 R245). -/
def checkLease (w : Who) (a n : Nat) (k : AccessKind) : Option Cause :=
  let low := if a < windowBase then leaseGap w.leases a (min (a + n) windowBase - a) k.r k.w else none
  let gap := low.orElse fun _ => if 2 ^ 55 < a + n then some (max a (2 ^ 55)) else none
  gap.map fun b =>
    ⟨Cause.outsideLease, BitVec.ofNat 64 (k.code + (if 2 ^ 55 ≤ b then 4 else 0)), BitVec.ofNat 64 b⟩

/-- Step 2 of 09 R254. -/
def checkAlign (a n : Nat) : Option Cause := if a % n = 0 then none else some (Cause.align (BitVec.ofNat 64 a))

/-- An access to a scale-up window: exported, and reachable (18 R479). -/
def checkPeer (s : State) (pa a n : Nat) : Option Cause :=
  let peer := pa / 2 ^ 40 % 1024
  let off := pa % 2 ^ 40
  match tget? s.peers peer with
  | none => some ⟨Cause.nodeFenced, BitVec.ofNat 64 (16 + 256 * (peer % 256)), BitVec.ofNat 64 a⟩
  | some p =>
    if s.catWord 29 = 0 then some ⟨Cause.nodeFenced, BitVec.ofNat 64 (16 + 256 * (peer % 256)), BitVec.ofNat 64 a⟩
    else if p.exports.any fun r => r.1 ≤ off && off + n ≤ r.2 then none
    else some (Cause.rights a 1)

/-- A checked translation: the state after TLB changes, and the target or the cause. -/
structure Resolved where
  s : State
  target : Except Cause Target

/-- Step 3 of 09 R254, and the DATA_ERROR of a walk that meets a poisoned line (13 R371). -/
def resolve (s : State) (w : Who) (a n : Nat) (k : AccessKind) (acc : Accepts) : Resolved :=
  if inWindow a then
    let j := (a - windowBase) / 2 ^ 18
    let o := (a - windowBase) % 2 ^ 18
    if !acc.window then ⟨s, .error (Cause.window a 1)⟩
    else
      match s.cohortBlock w.cid j with
      | none => ⟨s, .error (Cause.window a 0)⟩
      | some b =>
        if o + n ≤ s.scratchSize b then ⟨s, .ok (.scr b o)⟩
        else ⟨s, .error (Cause.window (max a (windowBase + 2 ^ 18 * j + s.scratchSize b)) 0)⟩
  else
    match s.translate w.core w.aspace a with
    | ⟨s, _, some l⟩ =>
      let ch := (s.channelOf (128 * l)).getD 0
      ⟨s.retireLine l 0, .error ⟨Cause.dataError, BitVec.ofNat 64 (128 * l + 2 ^ 52 * ch), BitVec.ofNat 64 a⟩⟩
    | ⟨s, none, none⟩ => ⟨s, .error (Cause.rights a 1)⟩
    | ⟨s, some e, none⟩ =>
      if k.r && !e.r then ⟨s, .error (Cause.rights a 2)⟩
      else if k.w && !e.w then ⟨s, .error (Cause.rights a 3)⟩
      else if isPeer (e.phys a) then
        if !acc.peer then ⟨s, .error (Cause.window a 1)⟩
        else match s.checkPeer (e.phys a) a n with
          | some c => ⟨s, .error c⟩
          | none => ⟨s, .ok (.mem e)⟩
      else ⟨s, .ok (.mem e)⟩

/-- Step 4 of 09 R254. -/
def checkLock (s : State) (w : Who) (t : Target) (a n : Nat) (k : AccessKind) : Option Cause :=
  match t with
  | .scr b o => s.lockCause (clusterOf w.core) (.scr b o) n k.w
  | .mem _ => s.lockCause (clusterOf w.core) (.mem a) n k.w

/-- The line that an access of `n` bytes reads is uncorrectable where it is read (13 R371): through the caches with a hint,
where the L1 may serve all of it, or at its home. -/
def dataError (s : State) (w : Who) (t : Target) (a n : Nat) (hint : Option Nat) : Option (Nat × Cause) :=
  match t with
  | .scr _ _ => none
  | .mem e =>
    let l := e.phys a / 128
    let inL1 := match hint with
      | some h => !(h = 3 && e.home != 1) && s.l1Has w.core e a n
      | none => false
    if s.bad.contains l && (e.home = 3 || (s.poisoned l && !inL1)) then
      some (l, ⟨Cause.dataError, BitVec.ofNat 64 (128 * l + 2 ^ 52 * (s.channelOf (128 * l)).getD 0),
        BitVec.ofNat 64 a⟩)
    else none

end State

/-- The accesses of a word, checked: the state (with its TLB changes), and the targets in order, or the cause that
comes first (09 R254). An access is an address with the number of its lane; a `soft` one is a helper lane's, which
raises nothing and has no target when a check fails (04 R117). -/
structure Checked where
  s : State
  out : Except Cause (List (Option Target))

/-- The first cause of a list of checks. -/
def firstCause {α : Type} (l : List α) (f : α → Option Cause) : Option Cause := l.findSome? f

/-- One access to check. -/
structure Want where
  a : Nat
  n : Nat
  soft : Bool
  deriving DecidableEq, Repr

/-- Step 3 for every access in order, threading the TLB changes. -/
def resolveAll (s : State) (w : Who) (k : AccessKind) (acc : Accepts) :
    List Want → State × List (Want × Except Cause Target)
  | [] => (s, [])
  | x :: t =>
    let r := s.resolve w x.a x.n k acc
    let q := resolveAll r.s w k acc t
    (q.1, (x, r.target) :: q.2)

/-- What step 4 finds of a resolved access. -/
def lockOf (s : State) (w : Who) (k : AccessKind) (x : Want × Except Cause Target) : Option Cause :=
  match x.2 with
  | .ok t => s.checkLock w t x.1.a x.1.n k
  | .error _ => none

/-- The uncorrectable line that a resolved read would use, with its cause. -/
def lineErrorOf (s : State) (w : Who) (k : AccessKind) (hint : Option Nat) (x : Want × Except Cause Target) :
    Option (Nat × Cause) :=
  match x.2 with
  | .ok t => if k.r then s.dataError w t x.1.a x.1.n hint else none
  | .error _ => none

/-- The first failure of resolved accesses that are not soft. -/
def firstHard {α : Type} (r : List (Want × Except Cause Target)) (f : Want × Except Cause Target → Option α) : Option α :=
  r.findSome? fun x => if x.1.soft then none else f x

/-- Steps 3 and 4 and the DATA_ERROR of reads, once the accesses are resolved: a line that a read finds uncorrectable is
retired in the same step (13 R372); a helper lane's load of one writes 0 (13 R373). Among the causes of step 3, a walk's
DATA_ERROR and NODE_FENCED too, the lowest lane wins (log 71). -/
def checkResolved (s : State) (w : Who) (k : AccessKind) (l : List Want) (r : List (Want × Except Cause Target))
    (hint : Option Nat := some 0) : Checked :=
  let rights (x : Want × Except Cause Target) : Option Cause := match x.2 with
    | .error c => some c
    | .ok _ => none
  match (firstHard r rights).orElse fun _ => firstHard r (lockOf s w k) with
  | some c => ⟨s, .error c⟩
  | none =>
    match firstHard r (lineErrorOf s w k hint) with
    | some (line, c) => ⟨s.retireLine line 0, .error c⟩
    | none =>
      let target (x : Want) : Option Target :=
        match r.find? fun y => y.1 == x with
        | some y => match y.2 with
          | .ok t => if x.soft && ((lockOf s w k y).isSome || (lineErrorOf s w k hint y).isSome) then none else some t
          | .error _ => none
        | none => none
      ⟨r.foldl (fun t x => match lineErrorOf s w k hint x with
          | some (line, _) => if t.bad.contains line then t.retireLine line 0 else t
          | none => t) s, .ok (l.map target)⟩

/-- The checks of 09 R254 over the accesses of a word, and the DATA_ERROR of reads. -/
def checkAll (s : State) (w : Who) (k : AccessKind) (acc : Accepts) (l : List Want) (hint : Option Nat := some 0) : Checked :=
  let lease (x : Want) : Option Cause := State.checkLease w x.a x.n k
  let align (x : Want) : Option Cause := State.checkAlign x.a x.n
  let hard := l.filter fun x => !x.soft
  match (firstCause hard lease).orElse fun _ => firstCause hard align with
  | some c => ⟨s, .error c⟩
  | none =>
    let r := resolveAll s w k acc (l.filter fun x => !x.soft || ((lease x).isNone && (align x).isNone))
    checkResolved r.1 w k l r.2 hint

/-! ## Performing an access -/

namespace State

/-- A load from a target. -/
def targetLoad (s : State) (w : Who) (t : Target) (a n hint : Nat) : State × List Byte :=
  match t with
  | .scr b o => (s, s.scratchRead b o n)
  | .mem e => s.loadBytes w.core e (fieldOf w.aspace 0 16) a n hint

/-- A store to a target. -/
def targetStore (s : State) (w : Who) (t : Target) (a : Nat) (l : List Byte) (hint : Nat) : State :=
  match t with
  | .scr b o => s.scratchWrite b o l
  | .mem e => s.storeBytes w.core e (fieldOf w.aspace 0 16) a l hint

/-- A read-modify-write of a location at its home (11 R314): the state and the old bytes. Where `f` gives none, the bytes are
left unchanged. -/
def targetRmw (s : State) (w : Who) (t : Target) (a n : Nat) (f : List Byte → Option (List Byte)) : State × List Byte :=
  match t with
  | .scr b o =>
    let old := s.scratchRead b o n
    ((match f old with
      | some l => s.scratchWrite b o l
      | none => s), old)
  | .mem e =>
    let s := s.toHome w.core e a n
    let old := s.homeRead e a n
    ((match f old with
      | some l => s.homeStore w.core e a l
      | none => s), old)

end State

/-- Who a group is, for its accesses. -/
def State.who? (s : State) (gid : Nat) : Option Who :=
  (s.owner? gid).map fun o => ⟨o.b.core, o.g.block, o.b.cohort, o.l.aspace, s.leasesOf o.l⟩

/-! ## Barrier objects (08 R218, R219) -/

/-- The four words of an object. -/
structure BarObj where
  expected : Nat
  arrived : Nat
  phase : Nat
  mode : Nat
  deriving DecidableEq, Repr

namespace State

def barObj (s : State) (bid o : Nat) : BarObj :=
  ⟨(s.scratchWord bid o).toNat, (s.scratchWord bid (o + 4)).toNat, (s.scratchWord bid (o + 8)).toNat,
   (s.scratchWord bid (o + 12)).toNat⟩

def putBarObj (s : State) (bid o : Nat) (x : BarObj) : State :=
  s.scratchWrite bid o (bytesOfNat 4 x.expected ++ bytesOfNat 4 x.arrived ++ bytesOfNat 4 x.phase ++ bytesOfNat 4 x.mode)

end State

/-- The RSV bits of an object: [127:105] and [103:98] (08 R218). -/
def BarObj.rsv (x : BarObj) : Bool := x.mode / 512 != 0 || x.mode / 4 % 64 != 0

/-- An arrival of `n`, or none when it is refused (08 R219). -/
def BarObj.arrive (x : BarObj) (n : Nat) : Option BarObj :=
  if x.expected = 0 || x.rsv then none
  else if x.expected ≤ x.arrived + n then
    let mode2 := if x.expected < x.arrived + n then x.mode ||| 2 else x.mode
    some { x with phase := (x.phase + 1) % 2 ^ 32, arrived := 0, mode := mode2 &&& (2 ^ 32 - 1 - 256) }
  else some { x with arrived := x.arrived + n }

/-- An arrival at an object of a block: the state, and whether it was taken. -/
def State.arriveAt (s : State) (bid o n : Nat) : State × Bool :=
  match (s.barObj bid o).arrive n with
  | some x => (s.putBarObj bid o x, true)
  | none => (s, false)

end Sys2Proof.Machine
end

