-- ==== Sys2Proof/Machine/Fetch.lean ====
section
/-! DEFINITION. The issue selector, the fetch of a clause and every decode check of its words (02 R21 to R32,
R40 to R55, 04 R96 to R102, 12 R330, 17 R449, R451). -/

namespace Sys2Proof.Machine

/-! ## The selector (04 R97 to R100) -/

namespace Group

/-- Lane `i` may be selected: live and unheld, or in H while the handler runs (17 R451). -/
def selectable (g : Group) (i : Nat) : Bool :=
  if g.handler then g.hset.contains i else (g.lane i).st == .live

/-- A place to issue from: a clause, or a word with its resume clause (17 R454, log 21). -/
def place (g : Group) (i : Nat) : W64 × Option W64 := ((g.lane i).pc, (g.lane i).resume)

/-- A lane stands at the word at which the group was blocked when a cause was delivered to it. -/
def atKept (g : Group) (i : Nat) : Bool :=
  (g.lane i).resume.isSome && (g.kept.map (·.1)) == some (g.lane i).pc

/-- The lanes the selector chooses from: those that stand at the group's blocked word, since no other PC issues until the
word resumes (04 R98), else every lane it may select. -/
def candidates (g : Group) : List Nat :=
  let sel := lanes32.filter g.selectable
  let first := sel.filter g.atKept
  if first.isEmpty then sel else first

/-- The lane whose place the selector picks: the highest count at 64, then the lowest PC (04 R100). -/
def pick (g : Group) : Option Nat :=
  let sel := g.candidates
  let better (i j : Nat) : Bool :=
    let a := g.lane i
    let b := g.lane j
    if sel.any fun k => (g.lane k).age == 64 then
      decide (b.age < a.age) || (a.age == b.age && a.pc.ult b.pc)
    else a.pc.ult b.pc
  sel.foldl (fun best i => match best with
    | none => some i
    | some j => if better i j then some i else some j) none

/-- The leader of a helper lane: the lowest live lane of its quad (04 R116). -/
def leader (g : Group) (i : Nat) : Option Nat :=
  ([0, 1, 2, 3].map (4 * (i / 4) + ·)).find? fun j => (g.lane j).st == .live || (g.lane j).st == .held

/-- The thread of a lane: the PC of a helper lane is its leader's, whatever its own was (04 R117). -/
def thread (g : Group) (i : Nat) : Thread :=
  let t := g.lane i
  match if t.st == .helper then g.leader i else none with
  | some j => { t with pc := (g.lane j).pc, resume := (g.lane j).resume, served := (g.lane j).served }
  | none => t

/-- Threads with the helper lanes whose leaders are among them (04 R97, R117). -/
def withHelpers (g : Group) (set : List Nat) : List Nat :=
  lanes32.filter fun j => set.contains j || ((g.lane j).st == .helper && (g.leader j).any set.contains)

/-- The issue set at the place of a lane, with the helper lanes that follow (04 R97, R117). -/
def issueSet (g : Group) (i : Nat) : List Nat :=
  let core := lanes32.filter fun j => g.selectable j && g.place j == g.place i
  if g.handler then core else g.withHelpers core

/-- Ages after an issue of the set (04 R99). -/
def aged (g : Group) (set : List Nat) : Group :=
  lanes32.foldl (fun g i =>
    if set.contains i then g.modLane i fun t => { t with age := 0 }
    else if g.selectable i then g.modLane i fun t => { t with age := min 64 (t.age + 1) }
    else g) g

end Group

/-! ## Headers (02 R22, R23) -/

def hdrClass (h : W64) : Nat := fieldOf h 0 4
def hdrCount (h : W64) : Nat := fieldOf h 4 4
def hdrWait (h : W64) : Nat := fieldOf h 8 12
def hdrSetA (h : W64) : Nat := fieldOf h 20 4
def hdrSetB (h : W64) : Nat := fieldOf h 24 4

/-- The header check (02 R23). -/
def hdrOk (h : W64) : Bool :=
  fieldOf h 28 4 == 0xC && hdrClass h ≤ 4 && fieldOf h 32 32 == 0
    && !(12 ≤ hdrSetA h && hdrSetA h ≤ 14) && !(12 ≤ hdrSetB h && hdrSetB h ≤ 14)

/-- The flag a long-latency word counts on, or none for a set field of 15 (02 R26). -/
def flagOf (h : W64) (sch : Sched) : Option Nat :=
  let f := if sch.fs = 0 then hdrSetA h else hdrSetB h
  if f = 15 then none else some f

/-- The address of the clause that follows. -/
def nextClause (c h : W64) : W64 := c + BitVec.ofNat 64 (8 * (hdrCount h + 2))

/-- The address of word `j` of a clause. -/
def wordAddr (c : W64) (j : Nat) : W64 := c + BitVec.ofNat 64 (8 * (j + 1))

/-! ## The system registers that exist (17 R449) -/

/-- Indices that name a register. -/
def sysRegExists (i : Nat) : Bool :=
  i ≤ 0x008 || i == 0x010 || i == 0x011 || i == 0x018 || i == 0x020 || i == 0x021 || i == 0x030
    || (0x100 ≤ i && i ≤ 0x105) || i == 0x110 || i == 0x140 || i == 0x142 || i == 0x143 || i == 0x1A0
    || (0x1B2 ≤ i && i ≤ 0x1B7) || (0x1C0 ≤ i && i ≤ 0x1C4) || i == 0x1D0
    || (0x1E0 ≤ i && i ≤ 0x1EA) || i == 0x1F0

/-! ## Decode checks of a word (02 R26 to R55) -/

/-- What the checks of a word depend on beside the word: the header, its place, the group's allocation and
mode, its launch, and the accepted features. -/
structure Env where
  header : W64
  idx : Nat
  alloc : Nat
  handler : Bool
  priv : Bool
  cls : Nat
  tiles : Nat
  accs : Nat
  features : BitVec 128

/-- A used register field at or beyond what the group may name (02 R40, R41, 12 R330). -/
def operandLegal (o : Operand) (alloc tiles accs : Nat) (handler : Bool) : Bool :=
  let r := o.reg.toNat
  match o.use with
  | .none => true
  | .rd n al _ =>
    if n = 1 then r < min alloc 120 || (120 ≤ r && r < 124 && handler) || r = 124 || r = 125
    else if n = 2 then
      r % 2 = 0 && (r + 1 < min alloc 120 || ((r = 120 || r = 122) && handler) || r = 124)
    else r % al = 0 && r + n ≤ min alloc 120
  | .wr n =>
    if n = 1 then r < min alloc 120 || (120 ≤ r && r < 124 && handler) || r = 124
    else if n = 2 then
      r % 2 = 0 && (r + 1 < min alloc 120 || ((r = 120 || r = 122) && handler) || r = 124)
    else r % n = 0 && r + n ≤ min alloc 120
  | .tile => r < tiles
  | .acc => r < accs

/-- TRAP_INFO of an ILLEGAL_OPERAND of a field: 1 for an index field, else its value (12 R330, 17 R447). -/
def operandInfo (o : Operand) : Nat :=
  match o.use with
  | .tile | .acc => 1
  | _ => o.reg.toNat

/-- Words that handler mode forbids (17 R451). -/
def handlerForbids (op : Nat) : Bool :=
  op == 0x07 || (0x0C ≤ op && op ≤ 0x0F) || (0x10 ≤ op && op ≤ 0x12) || (0x88 ≤ op && op ≤ 0x8A)
    || (0x08 ≤ op && op ≤ 0x0A)

/-- The privilege rule (17 R449), with index or class in TRAP_INFO[41:32]. -/
def privFault (i : Instr) (e : Env) : Option Cause :=
  let no (info : Nat) : Cause := ⟨Cause.privileged, BitVec.ofNat 64 (opcodeOf i + 2 ^ 32 * info), 0⟩
  let priv := e.priv || e.handler
  match i with
  | .sread w => if 0x100 ≤ w.imm.toNat && !priv then some (no w.imm.toNat) else none
  | .swrite w => if !priv then some (no w.imm.toNat) else none
  | .tlbinv _ | .tlbinvAsid _ => if !priv then some (no 0) else none
  | .pricls w => if e.cls < w.imm.toNat && !priv then some (no w.imm.toNat) else none
  | .eret _ | .pmack _ => if !e.handler then some (no 0) else none
  | _ => none

/-- An SREAD or SWRITE index that names no register, tested last (02 R55). -/
def indexFault (i : Instr) : Option Cause :=
  match i with
  | .sread w | .swrite w => if sysRegExists w.imm.toNat then none else some (Cause.operand w.imm.toNat)
  | _ => none

/-- The first decode rule a decoded word breaks, in the order of 02 R55. The opcodes of bit 0 need no negotiation (18 R471). -/
def instrFault (i : Instr) (e : Env) : Option Cause :=
  let op := opcodeOf i
  let enc : Cause := ⟨Cause.illegalEncoding, 0, 0⟩
  match shape i with
  | none => some ⟨Cause.illegalOpcode, BitVec.ofNat 64 op, 0⟩
  | some p =>
    if !((featuresOf op).all fun b => b == 0 || e.features.getLsbD b) then
      some ⟨Cause.illegalOpcode, BitVec.ofNat 64 op, 0⟩
    else if !p.ok then some enc
    else if p.cls.any fun c => c != hdrClass e.header then some enc
    else if p.branch && e.idx != hdrCount e.header then some enc
    else if p.long && !p.setFree && (flagOf e.header p.sched).isNone then some enc
    else
      match p.ops.find? fun o => !operandLegal o e.alloc e.tiles e.accs e.handler with
      | some o => some (Cause.operand (operandInfo o))
      | none =>
        let guard (g : BitVec 3) : Option Cause :=
          if g != 0 && min e.alloc 120 ≤ 112 + g.toNat then some (Cause.operand (112 + g.toNat)) else none
        ((guard p.sched.g0).orElse fun _ => guard p.sched.g1).orElse fun _ =>
          (if e.handler && handlerForbids op then some (Cause.operand op) else none).orElse fun _ =>
            (privFault i e).orElse fun _ => indexFault i

/-- The check of a word of a clause. -/
def wordFault (x : W64) (e : Env) : Option Cause :=
  match fields x with
  | none => some ⟨Cause.illegalOpcode, BitVec.ofNat 64 (opcode x), 0⟩
  | some i => instrFault i e

/-! ## The fetch of a clause (02 R31, R32) -/

/-- The environment of the words of a group's clause. -/
def State.envOf (s : State) (o : Owner) (h : W64) (idx : Nat) : Env :=
  { header := h, idx := idx, alloc := o.g.alloc, handler := o.g.handler, priv := o.l.system, cls := o.l.cls
    tiles := o.l.tiles, accs := o.l.accs, features := s.features }

/-- What the fetch of one 8-byte unit finds. -/
inductive Unit8 where
  | ok (w : W64)
  /-- FETCH with its reason (02 R32). -/
  | fails (reason : Nat)
  /-- An uncorrectable line (02 R32, 13 R371). -/
  | bad (pline : Nat)
  deriving DecidableEq, Repr

/-- The unit lies in the code object or in a lease (02 R32 reason 4); handler code is fetched without
that test (17 R448). -/
def codeLeased (s : State) (o : Owner) (a : Nat) : Bool :=
  o.g.handler || (leaseGap (s.leasesOf o.l) a 8 true false).isNone
    || (leaseGap (s.leasesOf o.l) a 8 false true).isNone
    || (o.l.text.1 ≤ a && a + 8 ≤ o.l.text.1 + o.l.text.2)

/-- A translation with no change to the TLBs: for fetch (log 2). -/
def State.xlat (s : State) (core : Nat) (aspace : W64) (va : Nat) : Option TlbEntry × Option Nat :=
  let t := s.translate core aspace va
  (t.entry, t.bad)

/-- The contents of a unit other than those in memory that a fetch may return: as its launch began, and as the core's
instruction cache took them since (02 R34). -/
def oldUnits (s : State) (o : Owner) (a pa : Nat) (now : W64) : List W64 :=
  let cached := ((s.core o.b.core).icache.find? fun l => l.pline == pa / 128).map fun l =>
    l.data.extractLsb' (8 * (pa % 128)) 64
  ((tget? o.l.code a).toList ++ cached.toList).filter (· != now)

/-- The fetch of the unit at an address (02 R32, R34). -/
def fetchUnit (s : State) (o : Owner) (a : Nat) : Unit8 :=
  if o.l.translated && 2 ^ 55 ≤ a then
    -- The words of a translated body (16 R446, log 10).
    match tget? o.l.code a with
    | some w => .ok w
    | none => .fails 4
  else if !codeLeased s o a then .fails 4
  else
    match s.xlat o.b.core o.l.aspace a with
    | (_, some l) => .bad l
    | (none, none) => .fails 1
    | (some e, none) =>
      if !e.x then .fails 2
      else if e.home = 3 then .fails 3
      else if s.poisoned (e.phys a / 128) then .bad (e.phys a / 128)
      else
        let now := s.homeWord (e.phys a)
        match oldUnits s o a (e.phys a) now with
        | [] => .ok now
        | old => .ok ((now :: old).getD (Config.oldCode s.choice a % (old.length + 1)) now)

/-- A core's instruction cache holds a line as memory has it, if it did not hold it before (01 R12). -/
def State.codeFill (s : State) (core pline : Nat) : State :=
  s.modCore core fun c =>
    match c.icache.find? fun l => l.pline == pline with
    | some l => { c with icache := l :: c.icache.erase l }
    | none =>
      let l : CodeLine := ⟨pline, BitVec.ofNat 1024 (natOfBytes (s.homeBytes (128 * pline) 128))⟩
      { c with icache := (l :: c.icache).take 512 }

/-- The line of a unit that has been fetched is in the core's instruction cache. -/
def State.fetched (s : State) (o : Owner) (a : Nat) : State :=
  if o.l.translated && 2 ^ 55 ≤ a then s
  else match (s.xlat o.b.core o.l.aspace a).1 with
    | some e => s.codeFill o.b.core (e.phys a / 128)
    | none => s

/-- What a clause fetch gives: the header and the words, or the cause with the address it is reported at and
whether it is the header's or a fetch failure. -/
inductive Fetched where
  | ok (header : W64) (words : List W64)
  | fault (c : Cause) (pc : W64) (clause : Bool) (bad : Option Nat)
  deriving DecidableEq, Repr

/-- The cause of a unit that cannot be fetched. -/
def unitCause (s : State) (u : Unit8) (a : W64) : Option (Cause × Option Nat) :=
  match u with
  | .ok _ => none
  | .fails r => some (⟨Cause.fetch, BitVec.ofNat 64 r, a⟩, none)
  | .bad l => some (⟨Cause.dataError,
      BitVec.ofNat 64 (128 * l + 2 ^ 52 * (s.channelOf (128 * l)).getD 0), a⟩, some l)

/-- The words of a clause, in ascending order, stopping at the first unit that fails (02 R31). -/
def fetchWords (s : State) (o : Owner) (c h : W64) : List Nat → List W64 → Fetched
  | [], acc => .ok h acc.reverse
  | j :: rest, acc =>
    let a := wordAddr c j
    let u := fetchUnit s o a.toNat
    match unitCause s u a with
    | some (x, b) => .fault x c true b
    | none =>
      match u with
      | .ok w =>
        match wordFault w (s.envOf o h j) with
        | some x => .fault x a false none
        | none => fetchWords s o c h rest (w :: acc)
      | _ => .fault ⟨Cause.fetch, 1, a⟩ c true none

/-- The fetch and every check of the clause at `c` (02 R31). -/
def fetchClause (s : State) (o : Owner) (c : W64) : Fetched :=
  if c.toNat % 8 != 0 then .fault ⟨Cause.illegalEncoding, 0, 0⟩ c true none
  else
    let u := fetchUnit s o c.toNat
    match unitCause s u c with
    | some (x, b) => .fault x c true b
    | none =>
      match u with
      | .ok h =>
        if !hdrOk h then .fault ⟨Cause.illegalEncoding, 0, 0⟩ c true none
        else fetchWords s o c h (List.range (hdrCount h + 1)) []
      | _ => .fault ⟨Cause.fetch, 1, c⟩ c true none

/-! ## Readiness (04 R102) -/

/-- The slot a group is served by (04 R95). -/
def Group.islot (g : Group) : Nat := g.gslot % 4

/-- The WAIT mask the chosen clause of a group applies: none for a resumed word, for a header that does not pass,
or where nothing is selected. -/
def waitMask (s : State) (o : Owner) (i : Nat) : Nat :=
  let t := o.g.lane i
  if t.resume.isSome then 0
  else match fetchUnit s o t.pc.toNat with
    | .ok h => if hdrOk h then hdrWait h else 0
    | _ => 0

/-- The cohort may issue: it runs, or it is being pre-empted and has not yet been saved. -/
def Cohort.issues (c : Cohort) : Bool :=
  match c.state with
  | .running | .preempting _ => true
  | .saved _ _ => false

/-- A group is ready (04 R102): not blocked, no clause in progress, a selectable thread, no fault or cause that
is delivered first, not held (15 R419), not stopped (15 R401), and the WAIT flags clear. -/
def ready (s : State) (gid : Nat) : Bool :=
  match s.owner? gid with
  | none => false
  | some o =>
    let g := o.g
    let k := clusterOf o.b.core
    if g.blocked.isSome || g.run.isSome || !g.late.isEmpty || g.shut || g.pmacked
        || (!g.handler && (g.preempt || g.shed || g.restore.isSome)) || !o.c.issues
        || (s.cluster k).stopped || (s.chiplet (coreSlot o.b.core)).power != .active then false
    else match g.pick with
      | none => false
      | some i =>
        let m := waitMask s o i
        (List.range 12).all fun f => !m.testBit f || g.flag f == 0

/-- The groups served by an issue slot of a core, by group slot. -/
def servedBy (s : State) (core islot : Nat) : List (Nat × Nat) :=
  (List.range 12).filterMap fun k =>
    let gs := 4 * k + islot
    (s.groups.find? fun e => e.2.gslot == gs && ((s.block? e.2.block).map Block.core) == some core).map
      fun e => (gs, e.1)

end Sys2Proof.Machine
end

