-- ==== Sys2Proof/Machine/Lifecycle.lean ====
section
/-! DEFINITION. Groups, blocks and cohorts as they run and end: meetings, helper lanes, the regroup pool, the
claim queue, block barriers, register deadlock, trap delivery and context images (04 R109 to R126, 05 R135 to
R146, 17 R447 to R459). -/

namespace Sys2Proof.Machine

/-! ## Meetings and helper lanes (04 R111 to R118) -/

namespace Group

/-- Threads of the given lanes whose PC equals their MEET become held (04 R112); not in handler mode
(17 R451). -/
def holdMet (g : Group) (l : List Nat) : Group :=
  if g.handler then g
  else l.foldl (fun g i =>
    let t := g.lane i
    if t.st == .live && t.meet != 0 && t.pc == t.meet then g.setLane i { t with st := .held }
    else g) g

/-- S(v) of 04 R113. -/
def meeting (g : Group) (v : W64) : List Nat :=
  g.liveLanes.filter fun i => (g.lane i).meet == v

/-- Every meeting whose threads are all held is released (04 R113). -/
def releaseMet (g : Group) : Group :=
  if g.handler then g
  else
    let vs := (g.liveLanes.map fun i => (g.lane i).meet).filter (· != 0)
    vs.foldl (fun g v =>
      let m := g.meeting v
      if !m.isEmpty && m.all fun i => (g.lane i).st == .held then
        m.foldl (fun g i => g.modLane i fun t => { t with st := .live, meet := 0 }) g
      else g) g

/-- Helper lanes of a quad with no live lane are exited again (04 R118). -/
def dropHelpers (g : Group) : Group :=
  if g.handler then g
  else lanes32.foldl (fun g i =>
    if (g.lane i).st == .helper && (g.leader i).isNone then g.modLane i fun t => { t with st := .exited } else g) g

/-- The group has ended (04 R110): no live, held or helper thread, every flag clear, no fault still to
deliver. -/
def ended (g : Group) : Bool :=
  !g.handler && g.run.isNone && g.late.isEmpty && g.flagsClear
    && lanes32.all fun i => (g.lane i).st == .exited || (g.lane i).st == .gone

/-- A group as it starts (04 R92, R126, 05 R132, R133, 07 R195). -/
def fresh (block slot gslot alloc cls : Nat) (lanes : List Thread) (regs : List (Nat × W32)) (hold : Bool) : Group :=
  { block := block, slot := slot, gslot := gslot, alloc := alloc, regs := regs, lanes := lanes
    flags := List.replicate 12 0, cls := cls, run := none, blocked := none, saved := none, hsaved := none, pending := []
    handler := false, hset := [], entry := [], recorded := none, trapCause := 0, trapPc := 0, trapCaddr := 0
    trapFaddr := 0, trapInfo := 0, trapSave := 0, late := [], preempt := false, shed := false, restore := none
    waitCount := 0, yieldTo := [], shedHold := hold, holdNext := false, shedAt := none, pmacked := false }

/-- The registers of a lane, by register number. -/
def laneRegs (g : Group) (i : Nat) : List (Nat × W32) :=
  (List.range 124).filterMap fun r => let v := g.reg i r; if v = 0 then none else some (r, v)

end Group

/-- The register table of threads laid in lanes 0 upward. -/
def layRegs (ts : List PoolThread) : List (Nat × W32) :=
  (List.range ts.length).foldl (fun a j =>
    ((ts.getD j ⟨[]⟩).regs).foldl (fun a e => tset 0 a (32 * e.1 + j) e.2) a) []

/-! ## The loop of WAIT (07 R198 to R201) -/

/-- The offsets of the barrier objects that the descriptors of a WAIT name (08 R218). -/
def WaitLoop.objs (x : WaitLoop) : List Nat := (x.descs.filter fun d => d.kind = 2).map WaitDesc.addr

/-- What the context of a group keeps of a WAIT: the start and the timeout alone (07 R201). -/
def WaitLoop.suspended (x : WaitLoop) : WaitLoop := { x with act := [], descs := [], met := [], held := [], res := none }

/-! ## The clause in progress -/

/-- What is saved of a blocked word, unless it is the word that ends now. -/
def Group.unsaved (g : Group) (r : Run) : Option (W64 × Blocked) :=
  g.kept.filter fun x => x.1 != wordAddr r.caddr r.idx

/-- A group whose word ends now: nothing of it is saved any longer. -/
def Group.left (g : Group) : Group :=
  match g.run with
  | some r => g.setKept (g.unsaved r)
  | none => g

/-- The pass count of a cluster (04 R104, 15 R395). -/
def passFloor (c : Cluster) : Nat :=
  let drp := match c.droop with
    | .hold _ => 1
    | _ => 0
  max (max drp c.balance) (max c.thermal (max c.rail (max c.shed c.power)))

def passCount (c : Cluster) : Nat := 2 ^ max (passFloor c) c.pass

/-- A DL delay that begins by cycle `n` takes the pass count `p` in force (02 R48). -/
def Run.begun (r : Run) (n p : Nat) : Run :=
  if r.passes.isNone && decide (r.since ≤ n) then { r with passes := some p } else r

namespace State

/-- The slot of a core no longer runs a clause of the group. -/
def freeSlot (s : State) (core gid : Nat) : State :=
  s.modCore core fun c => { c with slots := c.slots.map fun x => if x.cur == some gid then { x with cur := none } else x }

def coreOfGroup (s : State) (gid : Nat) : Nat :=
  (((s.group? gid).bind fun g => s.block? g.block).map Block.core).getD 0

/-- The groups that go first after YH or YIELD (02 R47, 04 R115). -/
def yieldList (s : State) (gid : Nat) (g : Group) (core : Nat) (all : Bool) : List Nat :=
  ((servedBy s core g.islot).map (·.2)).filter fun h =>
    h != gid && ready s h && (all || ((s.group? h).map Group.cls) == some g.cls)

/-- The end of a clause (02 R29, 04 R112, R113, R118): lanes listed in `jumps` have their new PC, the other live
lanes of the issue set go on at the following clause; the slot is free. -/
def endClause (s : State) (gid : Nat) (jumps : List (Nat × W64)) : State :=
  match s.group? gid with
  | none => s
  | some g =>
    match g.run with
    | none => s
    | some r =>
      let core := s.coreOfGroup gid
      let next := nextClause r.caddr r.header
      let step (g : Group) (i : Nat) : Group :=
        let t := g.lane i
        if t.st == .live then
          g.setLane i { t with pc := (tget? jumps i).getD next, resume := none, served := false }
        else g
      let g1 := ((r.set.foldl step g).holdMet r.set).releaseMet.dropHelpers
      let g2 := { g1 with run := none, blocked := none, shedHold := g1.shedHold || (g1.holdNext && !g1.handler) }
      let s1 := (s.freeSlot core gid).setGroup gid (g2.setKept (g1.unsaved r))
      if r.yh || r.yielded then
        s1.modGroup gid fun x => { x with yieldTo := s1.yieldList gid g1 core r.yielded }
      else s1

/-- The word of a clause is done: the next word comes up, or the clause ends. A shed group is held before its next
word (15 R419). -/
def advance (s : State) (gid : Nat) (jumps : List (Nat × W64)) : State :=
  match s.group? gid with
  | none => s
  | some g =>
    match g.run with
    | none => s
    | some r =>
      if r.idx + 1 < r.words.length then
        let core := s.coreOfGroup gid
        let c := s.cluster (clusterOf core)
        let slot := (s.core core).slots.getD g.islot ⟨none, 0, []⟩
        -- A group that is not in its slot, because another step ended its word, takes the slot again first.
        let wait := g.shut || slot.cur != some gid
        let s := if g.shut then s.freeSlot core gid else s
        s.setGroup gid ({ g with blocked := if wait then some .slot else none
                                 run := some { r with idx := r.idx + 1, asked := [], served := false, since := max c.cycles slot.freeAt,
                                                      passes := if slot.freeAt ≤ c.cycles then some (passCount c) else none }
                               }.setKept (g.unsaved r))
      else s.endClause gid jumps

end State

/-! ## Register units (05 R135 to R139) -/

namespace State

/-- The quota of a launch on a core. -/
def quota? (s : State) (core lid : Nat) : Option Quota := (s.core core).quotas.find? fun q => q.launch == lid

/-- The launch of a block. -/
def launchOfBlock (s : State) (bid : Nat) : Option Nat :=
  ((s.block? bid).bind fun b => s.cohort? b.cohort).map Cohort.launch

/-- used(K) of a launch on a core (05 R136). -/
def usedUnits (s : State) (core lid : Nat) : Nat :=
  (s.groups.filterMap fun e =>
    match s.block? e.2.block with
    | some b => if b.core = core && s.launchOfBlock e.2.block == some lid then some e.2.units else none
    | none => none).sum

/-- free(K) of a launch on a core. -/
def freeUnits (s : State) (core lid : Nat) : Nat :=
  match s.quota? core lid with
  | some q => q.units - s.usedUnits core lid
  | none => 0

def modQuota (s : State) (core lid : Nat) (f : Quota → Quota) : State :=
  s.modCore core fun c => { c with quotas := c.quotas.map fun q => if q.launch == lid then f q else q }

/-- A claim leaves the queue (05 R145, R146). -/
def dropClaim (s : State) (core lid : Nat) (p : Claim → Bool) : State :=
  s.modQuota core lid fun q => { q with claims := q.claims.filter fun x => !p x }

/-- A group's RCLAIM is granted: its allocation grows, the new registers read 0, the word is done
(05 R141). -/
def grantGroup (s : State) (gid units : Nat) : State :=
  let s := s.modGroup gid fun g =>
    { g with alloc := g.alloc + 4 * units
             regs := g.regs.filter fun e => !(g.alloc ≤ e.1 / 32 && e.1 / 32 < g.alloc + 4 * units) }
  s.advance gid []

/-- A formed group starts in its slot (04 R126). -/
def startFormed (s : State) (bid slot : Nat) (f : Formed) : State :=
  match s.block? bid, (s.launchOfBlock bid).bind s.launch? with
  | some b, some l =>
    let n := f.threads.length
    let lanes := lanes32.map fun i => if i < n then Thread.start f.succ else Thread.empty
    -- A group that forms while its cohort is pre-empted is asked too (17 R455).
    let reason := match (s.cohort? b.cohort).map Cohort.state with
      | some (.preempting p) => p.reason
      | _ => 0
    s.setGroup (gidOf bid slot)
      { Group.fresh bid slot (b.gslots.getD slot 0) l.regs l.cls lanes (layRegs f.threads) (!s.classAllowed l.cls) with
        preempt := reason == Cause.preempt, shed := reason == Cause.shed }
  | _, _ => s

/-- The first formed group of a block that holds a slot takes its units. -/
def grantFormed (s : State) (bid : Nat) : State :=
  match s.block? bid with
  | none => s
  | some b =>
    match b.forming.find? fun f => f.slot.isSome with
    | none => s
    | some f =>
      let s := s.modBlock bid fun b => { b with forming := b.forming.erase f }
      s.startFormed bid (f.slot.getD 0) f

/-- Grants from the head of a claim queue, as long as free(K) covers it (05 R138). -/
def grantClaims (s : State) (core lid : Nat) : Nat → State
  | 0 => s
  | fuel + 1 =>
    match s.quota? core lid with
    | none => s
    | some q =>
      match q.claims with
      | [] => s
      | c :: rest =>
        let free := s.freeUnits core lid
        match c with
        | .group gid u =>
          if u ≤ free then
            ((s.modQuota core lid fun q => { q with claims := rest }).grantGroup gid u).grantClaims core lid fuel
          else s
        | .formed bid u =>
          if u ≤ free then
            ((s.modQuota core lid fun q => { q with claims := rest }).grantFormed bid).grantClaims core lid fuel
          else s

/-- Claims leave the queue, and the grants are tested again (05 R138, R145). -/
def withdraw (s : State) (core lid : Nat) (p : Claim → Bool) : State := (s.dropClaim core lid p).grantClaims core lid 64

end State

/-! ## The regroup pool (04 R123 to R126) -/

/-- A thread put into the pool, with the groups formed at once, or none where no entry is free
(04 R124, R125). -/
def Block.pool? (b : Block) (succ : W64) (t : PoolThread) : Option Block :=
  let full (e : PoolEntry) : Block → Block := fun b =>
    if 32 ≤ e.threads.length then
      { b with forming := b.forming ++ [⟨e.succ, e.threads.take 32, none⟩]
               pool := (b.pool.map fun x => if x.succ == e.succ then { x with threads := x.threads.drop 32 } else x).filter
                 fun x => !x.threads.isEmpty }
    else b
  match b.pool.find? fun e => e.succ == succ with
  | some e =>
    let e' := { e with threads := e.threads ++ [t] }
    some (full e' { b with pool := b.pool.map fun x => if x.succ == succ then e' else x })
  | none => if b.pool.length < 8 then some { b with pool := b.pool ++ [⟨succ, [t]⟩] } else none

/-- Threads in groups of 32. -/
def chunks32 (succ : W64) : Nat → List PoolThread → List Formed
  | 0, _ => []
  | fuel + 1, l => if l.isEmpty then [] else ⟨succ, l.take 32, none⟩ :: chunks32 succ fuel (l.drop 32)

/-- Every entry of the pool forms groups, in ascending order of successor (04 R125). -/
def Block.flush (b : Block) : Block :=
  let es := sortBy (fun x y => decide (x.succ.toNat ≤ y.succ.toNat)) b.pool
  { b with pool := [], forming := b.forming ++ (es.map fun e => chunks32 e.succ 32 e.threads).flatten }

namespace State

/-- The lanes of a SUCC or SUCCX that is at its turn move into the pool in order, or exit; what must wait is
returned, and the first of the lanes that wait takes part in no meeting any longer (04 R113, R123, R124). -/
def moveLanes (s : State) (gid : Nat) : List (Nat × Option W64) → State × List (Nat × Option W64)
  | [] => (s, [])
  | (i, none) :: t =>
    (s.modGroup gid fun g => g.modLane i fun x => { x with st := .exited }).moveLanes gid t
  | (i, some v) :: t =>
    match s.group? gid with
    | none => (s, [])
    | some g =>
      match (s.block? g.block).bind fun b => b.pool? v ⟨g.laneRegs i⟩ with
      | none => (s.modGroup gid fun g => (g.modLane i fun x => { x with meet := 0 }).releaseMet, (i, some v) :: t)
      | some b =>
        ((s.setBlock g.block b).modGroup gid fun g =>
          g.modLane i fun x => { x with st := .gone, meet := 0 }).moveLanes gid t

/-- The lowest slot of a block with no group, which no formed group has taken (04 R126). -/
def emptySlot (s : State) (bid : Nat) (b : Block) : Option Nat :=
  (List.range b.gslots.length).find? fun i =>
    (s.group? (gidOf bid i)).isNone && !b.forming.any fun f => f.slot == some i

/-- The first formed group without a slot takes one. -/
def takeSlot (slot : Nat) : List Formed → List Formed
  | [] => []
  | f :: t => if f.slot.isNone then { f with slot := some slot } :: t else f :: takeSlot slot t

/-- A group blocked at BARS or BARW: the phase it waits for has not completed. -/
def atBarrier (b : Block) (g : Group) : Bool :=
  match g.blocked with
  | some (.barrier n ph) => (b.barriers.getD n ⟨false, .unset, []⟩).phase == ph
  | _ => false

/-- A group blocked in RCLAIM. -/
def atClaim (g : Group) : Bool :=
  match g.blocked with
  | some (.claim _) => true
  | _ => false

/-- Live threads wait to enter the pool in this group. -/
def poolWait (g : Group) : List Nat :=
  match g.blocked with
  | some (.pool l) => l.map (·.1)
  | _ => []

/-- The flush condition of 04 R125; a shed group that is held counts as blocked at BARS (15 R419). -/
def flushDue (s : State) (bid : Nat) (b : Block) : Bool :=
  b.pool.any (fun e => !e.threads.isEmpty) && b.forming.isEmpty
    && (s.groupsOf bid).all fun e =>
      let g := e.2
      g.shut || atBarrier b g || atClaim g || g.liveLanes.all fun i => (poolWait g).contains i

/-- The groups of a block that wait for a barrier's phase to differ from `ph` wait no longer: the word of one that is blocked
is done, and a group whose class is shed by then is held before its next word (04 R120, 15 R419). -/
def passBarrier (s : State) (bid n : Nat) (ph : Bool) : State :=
  (s.groupsOf bid).foldl (fun s e =>
    let g := e.2
    let s := if (g.saved.map (·.2)) == some (.barrier n ph) then
        s.modGroup e.1 fun g => { g with saved := g.saved.map fun x => (x.1, .passed) } else s
    if g.blocked == some (.barrier n ph) then
      (s.modGroup e.1 fun g => { g with shedHold := g.shedHold || !s.classAllowed g.cls }).advance e.1 []
    else s) s

/-- The phase of a barrier completes: its bit inverts, its mode and its arrivals are cleared (04 R119), and the groups that
wait for it go on. -/
def turnBarrier (s : State) (bid n : Nat) : State :=
  match s.block? bid with
  | none => s
  | some b =>
    let x := b.barriers.getD n ⟨false, .unset, []⟩
    (s.setBlock bid { b with barriers := b.barriers.set n ⟨!x.phase, .unset, []⟩ }).passBarrier bid n x.phase

/-- A barrier's phase is complete (04 R121). -/
def barrierDone (s : State) (bid : Nat) (b : Block) (x : Barrier) : Bool :=
  match x.mode with
  | .unset => false
  | .count k => x.arrived.length == k
  | .all =>
    b.pool.all (fun e => e.threads.isEmpty) && b.forming.isEmpty
      && (s.groupsOf bid).all fun e =>
        (poolWait e.2).isEmpty && (!e.2.hasLive || x.arrived.contains e.2.slot)

end State

/-! ## The units of a copy (08 R223) -/

namespace Copy

def per (c : Copy) : Nat := c.rows * c.units

/-- The number of units. -/
def total (c : Copy) : Nat := c.recv.length * c.per

/-- Receiver, row and column of a unit. -/
def recvOf (c : Copy) (u : Nat) : Nat := u / c.per
def rowOf (c : Copy) (u : Nat) : Nat := u % c.per / c.units
def colOf (c : Copy) (u : Nat) : Nat := u % c.units

/-- Its memory address and its scratchpad offset. -/
def memAt (c : Copy) (u : Nat) : Nat :=
  (c.maddr + BitVec.ofNat 64 (c.rowOf u) * c.mstride.signExtend 64 + BitVec.ofNat 64 (16 * c.colOf u)).toNat
def scrAt (c : Copy) (u : Nat) : Nat :=
  (((if c.cb then c.slot.getD 0 else c.soff : Nat) : Int) + (c.rowOf u : Int) * c.sstride.toInt + 16 * c.colOf u).toNat

end Copy

/-! ## Ends -/

namespace State

/-- The block's boost lease ends (15 R407). -/
def endBoost (s : State) (bid : Nat) (note : Nat) : State :=
  match s.block? bid with
  | none => s
  | some b =>
    if b.boostUntil.isNone then s
    else
      (s.setBlock bid { b with boostUntil := none, boostNote := note }).modCluster (clusterOf b.core)
        fun c => { c with boostedAt := some (max (min s.now (b.boostUntil.getD s.now)) (c.boostedAt.getD 0)) }

/-- Range-lock entries of an operation freed (08 R213). -/
def freeLocks (s : State) (op : Nat) : State :=
  { s with clusters := s.clusters.map fun e => (e.1, { e.2 with locks := e.2.locks.filter fun x => x.2.op != op }) }

/-- An operation removed with its locks. -/
def dropOp (s : State) (op : Nat) : State := { s.freeLocks op with ops := tdel s.ops op }

/-- A block leaves its core: its groups, reservations and lease go; the kernel's quota goes with its last block
there (05 R135, 16 R441). That a block's resources are free at its own end, and not only at the end of the last block of its
cohort, is the model's choice where 04 R91 says that the cohort holds its cores (DESIGN CHOICE, log 80). -/
def dropBlock (s : State) (bid : Nat) : State :=
  match s.block? bid with
  | none => s
  | some b =>
    let lid := s.launchOfBlock bid
    let s := s.endBoost bid 0
    let gids := (List.range b.gslots.length).map (gidOf bid)
    let s := gids.foldl (fun s g => s.freeSlot b.core g) s
    let s := { s with groups := s.groups.filter (fun e => e.2.block != bid), blocks := tdel s.blocks bid }
    match lid with
    | none => s
    | some lid =>
      if s.blocks.any fun e => e.2.core == b.core && s.launchOfBlock e.1 == some lid then
        s.withdraw b.core lid fun c => match c with
          | .group g _ => gids.contains g
          | .formed x _ => x == bid
      else s.modCore b.core fun c => { c with quotas := c.quotas.filter fun q => q.launch != lid }

/-- The operations of a block are dropped but for those of a list, with its operations in the engine queue; one that had begun
leaves nothing begun to a drain (12 R322). -/
def cancelOps (s : State) (bid : Nat) (kept : List Nat) : State :=
  let s := (s.ops.filter fun e => e.2.block == bid && !kept.contains e.1).foldl (fun s e => s.dropOp e.1) s
  match s.block? bid with
  | none => s
  | some b =>
    let s := ((s.core b.core).engine.filter fun e => e.block == bid).foldl (fun s e => s.freeLocks e.num) s
    s.modCore b.core fun c => 
      { c with engine := c.engine.filter (fun e => e.block != bid)
               drainHead := c.drainHead && (c.engine.head?.any fun e => e.block != bid) }

/-- A block is saved with its cohort. -/
def isSaved (s : State) (bid : Nat) : Bool :=
  s.cohorts.any fun e => match e.2.state with
    | .saved _ bs => bs.any fun x => x.bid == bid
    | _ => false

/-- A cohort is taken off the device, with its groups, its blocks and their operations but for those of a list. What it wrote
outside a core's caches, its atomics and its launch's event counts stay (18 R476). -/
def removeCohort (s : State) (cid : Nat) (kept : List Nat) : State :=
  match s.cohort? cid with
  | none => s
  | some c =>
    let s := c.blocks.foldl (fun s b => (s.cancelOps b kept).dropBlock b) s
    { s with cohorts := tdel s.cohorts cid }

/-- The copies of a block: those under way, or those of circular buffers that still wait for a slot. -/
def copiesOf (s : State) (bid : Nat) (waiting : Bool) : List Nat :=
  (s.ops.filter fun e => e.2.block == bid && match e.2.kind with
    | .copy c => (c.cb && c.slot.isNone) == waiting
    | _ => false).map (·.1)

/-- A copy out of a scratchpad reads what the scratchpad holds as its block leaves the core (log 89). -/
def freezeCopy (s : State) (n : Nat) : State :=
  { s with ops := tmod s.ops n fun o => match o.kind with
      | .copy c =>
        if c.out && c.snap.isNone then
          { o with kind := .copy { c with snap := some (((List.range c.per).map fun u =>
              (s.scratchRead (c.recv.headD 0) (c.scrAt u) 16).mapIdx fun i x => (16 * u + i, x)).flatten) } }
        else o
      | _ => o }

/-- A block is about to leave its core for good: its copies under way run on, and the completion of its launch waits for them;
those that wait for a slot of a circular buffer are dropped (16 R434, 19 R486, log 89). -/
def leaveCopies (s : State) (bid : Nat) : State :=
  match s.launchOfBlock bid with
  | none => s
  | some lid =>
    let going := s.copiesOf bid false
    let s := (s.copiesOf bid true).foldl dropOp s
    (going.foldl freezeCopy s).modLaunch lid fun l => { l with copies := l.copies ++ going }

/-- A launch ends before its cohorts have: they are ended, and the status is kept for its completion (16 R434). -/
def endLaunch (s : State) (lid status cause : Nat) : State :=
  match s.launch? lid with
  | none => s
  | some l =>
    if l.status.isSome || l.stage = .done then s
    else
      let mine := s.cohorts.filter fun e => e.2.launch == lid
      let s := mine.foldl (fun s e => e.2.blocks.foldl leaveCopies s) s
      let kept := ((s.launch? lid).map Launch.copies).getD []
      let s := mine.foldl (fun s e => s.removeCohort e.1 kept) s
      s.modLaunch lid fun l => { l with status := some (status, cause), again := [] }

end State

/-! ## Context images (17 R457 to R459) -/

/-- Offsets of the sections of an image and its size (17 R458). -/
structure ImageMap where
  devlen : Nat
  reg : Nat
  scr : Nat
  tile : Nat
  acc : Nat
  size : Nat
  deriving DecidableEq, Repr

def round256 (n : Nat) : Nat := (n + 255) / 256 * 256

def imageMap (g scratch tiles accs : Nat) : ImageMap :=
  let devlen := 1024 + 1152 * g
  let reg := round256 (256 + devlen)
  let scr := round256 (reg + 16384 * g)
  let tile := round256 (scr + scratch)
  let acc := round256 (tile + 8192 * tiles)
  ⟨devlen, reg, scr, tile, acc, acc + 16384 * accs⟩

/-- The layout of a launch's images. -/
def Launch.image (l : Launch) : ImageMap := imageMap l.ngroups l.scratch l.tiles l.accs

namespace State

/-- A device write of bytes at virtual addresses of one page or several, 128-byte line by line; none where a page
has no translation with W. -/
def virtWrite (s : State) (aspace : W64) (a : Nat) (l : List Byte) : Nat → Option State
  | 0 => some s
  | fuel + 1 =>
    if l.isEmpty then some s
    else
      let n := min l.length (128 - a % 128)
      match s.look aspace a with
      | none => none
      | some e =>
        if !e.w then none
        else (s.homeWrite (e.phys a) (l.take n)).virtWrite aspace (a + n) (l.drop n) fuel

/-- A device read of bytes at virtual addresses; none where a page has no translation with R. -/
def virtRead (s : State) (aspace : W64) (a n : Nat) : Option (List Byte) :=
  if n = 0 then some []
  else (List.range ((a % 128 + n + 127) / 128)).foldl (fun acc k => acc.bind fun l =>
    let lo := max a (128 * (a / 128 + k))
    let hi := min (a + n) (128 * (a / 128 + k + 1))
    match s.look aspace lo with
    | none => none
    | some e => if e.r then some (l ++ s.homeBytes (e.phys lo) (hi - lo)) else none) (some [])

/-- The image header (17 R459). -/
def imageHeader (s : State) (m : ImageMap) (g reason : Nat) : List Byte :=
  bytesOfNat 8 (0x43545831 + 2 ^ 32 * 1 + 2 ^ 48 * 1)
    ++ bytesOfNat 8 (Config.stepping.toNat + 2 ^ 32 * m.devlen)
    ++ bytesOfNat 16 s.features.toNat
    ++ bytesOfNat 8 (m.reg + 2 ^ 32 * m.scr)
    ++ bytesOfNat 8 (m.tile + 2 ^ 32 * m.acc)
    ++ bytesOfNat 8 (g + 2 ^ 8 * reason)
    ++ List.replicate (8 * 25) 0

/-- A block's image written to the context store (17 R457, R458; the device section log 7). -/
def writeImage (s : State) (l : Launch) (b : Block) (reason recorded : Nat) : Option State :=
  let m := l.image
  let wr (s : Option State) (o : Nat) (d : List Byte) : Option State :=
    s.bind fun s => s.virtWrite l.aspace (b.image + o) d (d.length + 1)
  let s1 := wr (some s) 0 (s.imageHeader m recorded reason)
  let s2 := wr s1 256 ((List.range m.devlen).map fun i => Config.imageByte s.choice (b.image + i))
  let s3 := wr s2 m.scr ((List.range b.hwm).map fun i => tgetD 0 b.scratch i)
  let s4 := wr s3 m.tile ((List.range (8192 * l.tiles)).map fun i => tgetD 0 b.tiles i)
  wr s4 m.acc (((List.range (4096 * l.accs)).map fun i => bytesOfNat 4 (tgetD 0 b.accs i).toNat).flatten)

/-- Every group of a cohort has PMACKed or ended (17 R457). -/
def allAcked (s : State) (c : Cohort) : Bool :=
  c.blocks.all fun bid => (s.groupsOf bid).all fun e => e.2.pmacked

/-- A block ends when all its slots are empty and its pool is empty (04 R110). -/
def blockEnded (s : State) (bid : Nat) (b : Block) : Bool :=
  b.pool.isEmpty && b.forming.isEmpty && (s.groupsOf bid).isEmpty

/-- A cohort whose blocks have all ended is done (04 R110). -/
def endCohort (s : State) (cid : Nat) : State :=
  match s.cohort? cid with
  | none => s
  | some c =>
    match c.state with
    | .saved _ _ => s
    | _ =>
      if c.blocks.any fun b => (s.block? b).isSome then s
      else
        ({ s with cohorts := tdel s.cohorts cid }).modLaunch c.launch fun l => { l with ended := l.ended + 1 }

/-- An operation that must complete before its group's handler starts, before PMACK, and before the image of its block is
written: any but a signature of a round that has not issued and a TOKTAKE (12 R350, 17 R455 to R457). -/
def unperformed (s : State) (n : Nat) (o : Op) : Bool :=
  match o.kind with
  | .token _ => false
  | .engine => (s.core o.core).engine.any fun e => e.ops.contains n
  | _ => true

/-- The images of a pre-empted cohort are written and its cores released, once the operations of its blocks are performed,
those of groups that have ended too (12 R350, 17 R457); one whose blocks have all ended is
done. -/
def saveCohort (s : State) (cid : Nat) : State :=
  match s.cohort? cid with
  | none => s
  | some c =>
    match c.state, s.launch? c.launch with
    | .preempting p, some l =>
      if !s.allAcked c then s
      else if c.blocks.all fun bid => (s.block? bid).all (s.blockEnded bid) then
        -- A KILL that waited for the end of the move takes effect (16 R442).
        let s := (c.blocks.foldl (fun s b => (s.leaveCopies b).dropBlock b) s).endCohort cid
        if l.killed then s.endLaunch c.launch 9 0 else s
      else if s.ops.any fun e => c.blocks.contains e.2.block && s.unperformed e.1 e.2 then s
      else
        let step (a : Option (State × List Saved)) (bid : Nat) : Option (State × List Saved) :=
          a.bind fun (s, out) =>
            match s.block? bid with
            | none => some (s, out)
            | some b =>
              let left := match b.boostUntil with
                | some t => (t - s.now) / 76500
                | none => 0
              let s := (s.cleanSelf b.core).endBoost bid b.boostNote
              let gs := s.groupsOf bid
              -- The lease of a block that moves to another core travels with it and keeps counting; else its time is banked
              -- (15 R399, R407).
              let moves := p.move.any fun x => 96 * x.1 + x.2.getD (c.blocks.idxOf bid) 0 != b.core
              let b := if moves then b else { b with boostUntil := none, boostBank := left }
              (s.writeImage l b p.reason gs.length).map fun s' =>
                (s', out ++ [⟨bid, b, gs, (s.core b.core).filter, (s.core b.core).filterSat⟩])
        match c.blocks.foldl step (some (s, [])) with
        | none =>
          -- A page table that proved uncorrectable on the way is retired (13 R373).
          (c.blocks.foldl (fun (s : State) bid => match s.block? bid with
            | some b => s.cleanWalks l.aspace ((List.range (l.image.size / 65536 + 1)).map fun i => b.image + 65536 * i)
            | none => s) s).endLaunch c.launch 8 0x07
        | some (s, out) =>
          let s := c.blocks.foldl (fun s b => s.dropBlock b) s
          s.setCohort cid { c with state := .saved p out }
    | _, _ => s

end State

/-! ## Trap delivery (17 R450 to R452) -/

namespace State

/-- The virtual address of a group's register area (17 R448, R458). -/
def saveArea (o : Owner) : W64 := BitVec.ofNat 64 (o.b.image + o.l.image.reg + 16384 * o.g.slot)

/-- WAITED of barrier objects of a block on which no WAIT is blocked any longer is cleared (08 R218). -/
def clearWaited (s : State) (bid : Nat) (objs : List Nat) : State :=
  objs.foldl (fun s o =>
    let held := (s.groupsOf bid).any fun e => match e.2.blocked with
      | some (.wait x) => x.res.isNone && x.objs.contains o
      | _ => false
    let m := (s.scratchWord bid (o + 12)).toNat
    if held || !m.testBit 8 then s else s.scratchPut bid (o + 12) 4 (m - 256)) s

/-- The clause in progress of a group is left at its word: the lanes of the issue set stand at the word with their
resume clause, requests that wait elsewhere are withdrawn (02 R24, 05 R145, 08 R232). -/
def unwind (s : State) (gid : Nat) : State :=
  match s.owner? gid with
  | none => s
  | some o =>
    match o.g.run with
    | none => s
    | some r =>
      let core := o.b.core
      let s := s.freeSlot core gid
      let s := if atClaim o.g then s.withdraw core o.c.launch fun c => match c with
          | .group g _ => g == gid
          | .formed _ _ => false
        else s
      let s := s.modBlock o.g.block fun b => { b with bufq := b.bufq.filter fun q => !(q.gid == gid && q.op.isNone) }
      -- Of a WAIT, the start and the timeout are saved (07 R201).
      let keep := match o.g.blocked with
        | some (.wait x) => some (wordAddr r.caddr r.idx, Blocked.wait x.suspended)
        | some .slot | none => o.g.kept
        | some b => some (wordAddr r.caddr r.idx, b)
      let objs := match o.g.blocked with
        | some (.wait x) => x.objs
        | _ => []
      let s := s.modGroup gid fun g =>
        let g := r.set.foldl (fun g i =>
          let t := g.lane i
          if t.st == .live then
            g.setLane i { t with pc := wordAddr r.caddr r.idx, resume := some r.caddr, served := o.g.blocked != some .slot }
          else g) g
        { g with run := none, blocked := none }.setKept keep
      s.clearWaited o.g.block objs

/-- Delivery of a cause to a group (17 R450): `lanes` is H, `frame` gives the frame of each lane and `served` whether the
DL delay of the word it names has been served. The clause in progress has been left. -/
def enterHandler (s : State) (gid : Nat) (o : Owner) (t : Trap) (late : Bool) (restore : Bool) (lanes : List Nat)
    (frame : Nat → W64 × W64) (served : Nat → Bool) : State :=
  let vec := s.trapVec
  let lanes := lanes32.filter lanes.contains
  let cause := t.code + (if late then 256 else 0) + (if restore then 512 else 0)
  let g := o.g
  let async := t.code == Cause.preempt || t.code == Cause.shed
  let g1 := lanes.foldl (fun g i =>
    let f := frame i
    let g := (g.setReg i 120 (lowHalf f.1)).setReg i 121 (highHalf f.1)
    (g.setReg i 122 (lowHalf f.2)).setReg i 123 (highHalf f.2)) g
  let entry := lanes32.map fun i =>
    if lanes.contains i then
      let f := frame i
      { g.lane i with pc := f.1, resume := if f.1 = f.2 then none else some f.2, served := served i }
    else g.lane i
  let g2 := lanes.foldl (fun g i => g.modLane i fun x => { x with pc := vec, resume := none, st := .live, age := 0, served := false }) g1
  s.setGroup gid
    { g2 with handler := true, hset := lanes, entry := entry, hsaved := none
              recorded := if async then some (lanes32.map g.thread) else none
              trapCause := BitVec.ofNat 64 cause, trapPc := t.pc, trapCaddr := t.caddr, trapFaddr := t.faddr
              trapInfo := t.info, trapSave := saveArea o, run := none, blocked := none }

/-- The group of a trap may take it in a handler; otherwise the trap ends its launch (17 R450). -/
def terminal (s : State) (o : Owner) (code : Nat) : Bool :=
  code == Cause.outsideLease || code == Cause.dataError || o.g.handler || s.trapVec = 0

/-- Delivery of a synchronous trap to its issue set (17 R450): at a word that has issued (`issued`), or at the fetch of its
clause. -/
def deliver (s : State) (gid : Nat) (t : Trap) (issued : Bool := true) : State :=
  match s.owner? gid with
  | none => s
  | some o =>
    if s.terminal o t.code then s.endLaunch o.c.launch 8 t.code
    else
      let s := s.freeSlot o.b.core gid
      s.enterHandler gid (if issued then { o with g := o.g.left } else o) t false false t.set
          (fun _ => (t.resume, t.resumeClause)) fun _ => issued && t.resume == t.pc

/-- Where the thread of a lane stands, as a frame (17 R451). -/
def standing (g : Group) (i : Nat) : W64 × W64 := ((g.thread i).pc, (g.thread i).resume.getD (g.thread i).pc)

/-- Delivery of a fault detected after issue (02 R33, 17 R450): its resume point is where it is delivered. -/
def deliverLate (s : State) (gid : Nat) (t : Trap) : State :=
  let s := s.unwind gid
  match s.owner? gid with
  | none => s
  | some o =>
    if s.terminal o t.code then s.endLaunch o.c.launch 8 t.code
    else s.enterHandler gid o t true false t.set (standing o.g) fun i => (o.g.thread i).served

/-- Delivery of PREEMPT or SHED, or of a restore (17 R450, R461). -/
def deliverAsync (s : State) (gid code : Nat) (restore : Bool) : State :=
  let s := s.unwind gid
  match s.owner? gid with
  | none => s
  | some o =>
    if s.terminal o code then s.endLaunch o.c.launch 8 code
    else
      let at_ := ((o.g.pick).map (standing o.g)).getD (0, 0)
      let t : Trap := ⟨code, at_.1, at_.2, 0, 0, 0, 0, []⟩
      s.enterHandler gid o t false restore lanes32 (standing o.g) fun i => (o.g.thread i).served

/-- A trap at the word the group issues or is blocked at (17 R450, 02 R33). -/
def trapWord (s : State) (gid : Nat) (c : Cause) (resume : W64 × W64) : State :=
  match s.group? gid with
  | none => s
  | some g =>
    match g.run with
    | none => s
    | some r =>
      s.deliver gid ⟨c.code, wordAddr r.caddr r.idx, r.caddr, c.faddr, c.info, resume.1, resume.2, r.set⟩

/-- The resume point of a trap at its own word. -/
def atWord (r : Run) : W64 × W64 := (wordAddr r.caddr r.idx, r.caddr)

end State

/-! ## Settling a block -/

namespace State

/-- Every live group of the block is blocked where only another group could help, and one waits for units
(05 R146). A group that has no live thread left and has not ended yet is no live group (log 65). -/
def deadlocked (s : State) (bid : Nat) (b : Block) : Bool :=
  let gs := (s.groupsOf bid).filter fun e => e.2.hasLive
  (gs.any (fun e => atClaim e.2) || b.forming.any fun f => f.slot.isSome)
    && gs.all fun e => e.2.shut || atClaim e.2 || atBarrier b e.2

/-- Every group of the block in RCLAIM takes REGISTER_DEADLOCK, and the grants are then tested again (05 R145, R146). -/
def trapDeadlock (s : State) (bid core lid : Nat) : State :=
  let free := s.freeUnits core lid
  let gs := (s.groupsOf bid).filterMap fun e => match e.2.blocked with
    | some (.claim u) => some (e.1, u)
    | _ => none
  let s := s.dropClaim core lid fun c => match c with
    | .group g _ => gs.any fun e => e.1 == g
    | .formed _ _ => false
  (gs.foldl (fun s e =>
    match (s.group? e.1).bind Group.run with
    | none => s
    | some r =>
      s.trapWord e.1 ⟨Cause.registerDeadlock, BitVec.ofNat 64 (e.2 % 2 ^ 11 + 2 ^ 16 * (free % 2 ^ 11)), 0⟩ (atWord r)) s
    ).grantClaims core lid 64

/-- The operations of a group that has ended belong to no group: one formed later in its slot is no party to them
(12 R336). -/
def leaveOps (s : State) (gid : Nat) : State :=
  { s with ops := s.ops.map fun e => if e.2.gid = gid then (e.1, { e.2 with gid := 0 }) else e }

/-- A group of a block that has ended leaves its slot; it leaves the convergence registers, and a round this completes is
taken up next (04 R110, 12 R336). -/
def endGroup (s : State) (gid : Nat) (g : Group) : State :=
  let leave (c : ConvReg) : ConvReg :=
    let signed := c.signed.filter (· != g.slot)
    { c with decl := c.decl.filter (· != g.slot), signed := signed, record := if signed.isEmpty then none else c.record }
  let s := ({ s.leaveOps gid with groups := tdel s.groups gid }).modBlock g.block fun b => { b with conv := b.conv.map leave }
  let due := match s.block? g.block with
    | some b => (List.range 8).filter fun k => (b.conv[k]?).any fun (c : ConvReg) => !c.signed.isEmpty && c.signed == c.decl
    | none => []
  { s with agenda := due.map (fun k => Event.op (.engineRoundDeferredIssue g.block k)) ++ s.agenda }

/-- One round of the changes a block's groups bring about, and whether there was one: a formed group takes an empty slot
before any group that ends now leaves its own (04 R125, R126). -/
def settleOnce (s : State) (bid : Nat) : State × Bool :=
  match s.block? bid, s.launchOfBlock bid with
  | some b, some lid =>
    match b.forming.find? fun f => f.slot.isNone, s.emptySlot bid b, ((s.launch? lid).map Launch.groupUnits) with
    | some _, some slot, some u =>
      let s := s.modBlock bid fun b => { b with forming := takeSlot slot b.forming }
      let s := s.modQuota b.core lid fun q => { q with claims := q.claims ++ [.formed bid u] }
      (s.grantClaims b.core lid 64, true)
    | _, _, _ =>
    match (s.groupsOf bid).find? fun e => e.2.ended with
    | some e => ((s.endGroup e.1 e.2).grantClaims b.core lid 64, true)
    | none =>
      -- The pool admits threads that wait (04 R124).
      match (s.groupsOf bid).find? fun e => match e.2.blocked with
          | some (.pool ((_, some v) :: _)) => b.pool.length < 8 || b.pool.any fun x => x.succ == v
          | some (.pool _) => true
          | _ => false with
      | some e =>
        let l := match e.2.blocked with
          | some (.pool l) => l
          | _ => []
        let r := s.moveLanes e.1 l
        if r.2.isEmpty then (r.1.advance e.1 [], true)
        else (r.1.modGroup e.1 fun g => { g with blocked := some (.pool r.2) }, true)
      | none =>
        if s.flushDue bid b then (s.modBlock bid Block.flush, true)
        else
          match (List.range 16).find? fun i => s.barrierDone bid b (b.barriers.getD i ⟨false, .unset, []⟩) with
          | some i =>
            (s.turnBarrier bid i, true)
          | none =>
            if s.deadlocked bid b then
              (s.trapDeadlock bid b.core lid, (s.groupsOf bid).any fun e => e.2.hasLive && atClaim e.2)
            else (s, false)
  | _, _ => (s, false)

def settleLoop (s : State) (bid : Nat) : Nat → State
  | 0 => s
  | fuel + 1 =>
    let r := s.settleOnce bid
    if r.2 then r.1.settleLoop bid fuel else r.1

/-- The consequences of a change of a block's groups, to the end of the block and of its cohort. -/
def settle (s : State) (bid : Nat) : State :=
  let s := s.settleLoop bid 256
  match s.block? bid with
  | none =>
    -- An operation of a block that has ended may be the last that the images of its cohort wait for (12 R350, 17 R457).
    match s.cohorts.find? fun e => e.2.blocks.contains bid with
    | some e => s.saveCohort e.1
    | none => s
  | some b =>
    let cid := b.cohort
    let s := if (match (s.cohort? cid).map Cohort.state with
        | some .running => s.blockEnded bid b
        | _ => false) then ((s.leaveCopies bid).dropBlock bid).endCohort cid else s
    s.saveCohort cid

/-- The block of a group settled. -/
def settleGroup (s : State) (gid : Nat) : State := s.settle (gid / 32)

end State

end Sys2Proof.Machine
end

