-- ==== Sys2Proof/Machine/Flags.lean ====
section
/-! DEFINITION. Completion flags, outstanding operations and the floating-point event counters (02 R26, R27,
03 R79, R86 to R90, 07 R195, 16 R436). -/

namespace Sys2Proof.Machine

/-! ## Event records (16 R436) -/

namespace State

/-- An event record posted to a queue, with its interrupt vector; a queue with EVQ = 0 posts none. -/
def postEvent (s : State) (q kind fmt ev : Nat) (w1 w2 w3 : W64) : State :=
  let x := s.queue q
  if x.evq = 0 then s
  else
    let w0 := kind + 2 ^ 8 * fmt + 2 ^ 16 * ev + 2 ^ 24 * q + (if x.count.toNat.testBit x.evqLog2 then 2 ^ 63 else 0)
    let at_ := x.evq.toNat + 32 * (x.count.toNat % 2 ^ x.evqLog2)
    let s := s.homeWrite at_ (bytesOfNat 8 w0 ++ bytesOfNat 8 w1.toNat ++ bytesOfNat 8 w2.toNat ++ bytesOfNat 8 w3.toNat)
    (s.setQueue q { x with count := x.count + 1 }).postMsix x.msi

/-- A record posted to every queue with ENABLE = 1 and EVQ ≠ 0 (16 R436 kinds 4 and 5). -/
def postAll (s : State) (kind : Nat) (w1 w2 w3 : W64) : State :=
  s.queues.foldl (fun s e => if e.2.enable then s.postEvent e.1 kind 0 0 w1 w2 w3 else s) s

end State

/-! ## Event counters (03 R86 to R90) -/

/-- The kinds of 03 R79. -/
inductive EventKind where
  | nan
  | infinity
  | overflow
  | underflow
  deriving DecidableEq, Repr

/-- The number of a kind (16 R436). -/
def EventKind.num : EventKind → Nat
  | .nan => 0
  | .infinity => 1
  | .overflow => 2
  | .underflow => 3

/-- The formats with counters, in order (03 R86). -/
inductive EventFmt where
  | f32
  | f16
  | bf16
  | e4m3
  | e5m2
  | e2m1
  | bfp
  deriving DecidableEq, Repr

def EventFmt.num : EventFmt → Nat
  | .f32 => 0
  | .f16 => 1
  | .bf16 => 2
  | .e4m3 => 3
  | .e5m2 => 4
  | .e2m1 => 5
  | .bfp => 6

/-- A counter: format and kind. -/
abbrev FpEvent := EventFmt × EventKind

/-- The number of a counter, 4f + k (17 R466). -/
def FpEvent.num (e : FpEvent) : Nat := 4 * e.1.num + e.2.num

namespace State

/-- A counter of a launch rises by `n`; it saturates, and it posts its record when it passes the threshold for the
first time (03 R86, R89). -/
def countEvent (s : State) (lid : Nat) (e : FpEvent) (n : Nat) : State :=
  match s.launch? lid with
  | none => s
  | some l =>
    let k := FpEvent.num e
    let old := l.counters.getD k 0
    let new := min (old + n) (2 ^ 32 - 1)
    let thr := s.fevThresh.toNat
    let post := thr != 0 && decide (old < thr) && decide (thr ≤ new) && !l.posted.contains k
    let s := s.setLaunch lid { l with counters := l.counters.set k new
                                      posted := if post then insertNat k l.posted else l.posted }
    if post then s.postEvent l.queue 2 e.1.num e.2.num l.recId 0 0 else s

/-- Events of a word, one by one. -/
def countEvents (s : State) (lid : Nat) (l : List FpEvent) : State := l.foldl (fun s e => s.countEvent lid e 1) s

end State

/-! ## Flags and outstanding operations (02 R26 to R28, 07 R195) -/

namespace State

/-- A completion flag rises or falls by one. -/
def raiseFlag (s : State) (gid : Nat) (f : Option Nat) : State :=
  match f with
  | none => s
  | some f => s.modGroup gid fun g => g.setFlag f (g.flag f + 1)

def lowerFlag (s : State) (gid : Nat) (f : Option Nat) : State :=
  match f with
  | none => s
  | some f => s.modGroup gid fun g => g.setFlag f (g.flag f - 1)

/-- A long-latency word is outstanding: its flag is up, and its result registers, by key, have their values, or
none while they are not known (02 R26). -/
def addOp (s : State) (op : Op) (results : List (Nat × Option W32)) : State :=
  let n := s.fresh
  let s := { s with ops := tput s.ops n op, fresh := n + 1 }
  (s.raiseFlag op.gid op.flag).modGroup op.gid fun g =>
    { g with pending := g.pending ++ (results.filter fun e => e.1 / 32 < 124).map fun e => ⟨e.1, n, e.2⟩ }

/-- The values of an operation's result registers that were not known at issue become known. -/
def setResults (s : State) (n gid : Nat) (vals : List (Nat × W32)) : State :=
  s.modGroup gid fun g => { g with pending := g.pending.map fun p =>
    if p.op = n then { p with val := (tget? vals p.key).orElse fun _ => p.val } else p }

/-- Completion (02 R26): the destination registers are written, the flag falls, the operation and its locks
go; its group, its block and its cohort may end. -/
def completeOp (s : State) (n : Nat) : State :=
  match tget? s.ops n with
  | none => s
  | some op =>
    let s := s.modGroup op.gid fun g =>
      let mine := g.pending.filter (·.op == n)
      { g with regs := mine.foldl (fun t p => tset 0 t p.key (p.val.getD 0)) g.regs
               pending := g.pending.filter (·.op != n) }
    ((s.lowerFlag op.gid op.flag).dropOp n).settle op.block

/-- A fault of an operation detected after issue waits for its group's next clause boundary or blocking point
(02 R33). -/
def addLate (s : State) (op : Op) (c : Cause) : State :=
  s.modGroup op.gid fun g =>
    { g with late := g.late ++ [⟨c.code, op.pc, op.caddr, c.faddr, c.info, 0, 0, op.set⟩] }

end State

end Sys2Proof.Machine
end

