-- ==== Sys2Proof/Machine/Operands.lean ====
section
/-! DEFINITION. Operand forms: what an issuing word reads and writes in each lane, its guards, its address and its
targets (02 R36 to R45, R50, 05 R131). -/

namespace Sys2Proof.Machine

/-- A word at its issue: the group and what it belongs to, its clause in progress, the lanes of Active, those of
them that are not helper lanes, and the choice number of its reads. -/
structure Ctx where
  gid : Nat
  o : Owner
  r : Run
  sch : Sched
  act : List Nat
  real : List Nat
  ch : Nat
  deriving DecidableEq, Repr

/-- A lane passes a guard (02 R44). -/
def passes (g : Group) (ch i : Nat) (code : BitVec 3) : Bool :=
  code = 0 || (g.read ch i (112 + code.toNat)).getLsbD 0

/-- Active: the lanes of the issue set that pass both guards (02 R44, 04 R97). -/
def activeLanes (g : Group) (ch : Nat) (sch : Sched) (set : List Nat) : List Nat :=
  lanes32.filter fun i => set.contains i && passes g ch i sch.g0 && passes g ch i sch.g1

namespace Ctx

/-- The address of the word, its clause and its header. -/
def pc (c : Ctx) : W64 := wordAddr c.r.caddr c.r.idx
def caddr (c : Ctx) : W64 := c.r.caddr
def next (c : Ctx) : W64 := nextClause c.r.caddr c.r.header

/-- The flag a long-latency word counts on. -/
def flag (c : Ctx) : Option Nat := flagOf c.r.header c.sch

/-- The core, block and launch. -/
def core (c : Ctx) : Nat := c.o.b.core
def bid (c : Ctx) : Nat := c.o.g.block
def lid (c : Ctx) : Nat := c.o.c.launch
def cid (c : Ctx) : Nat := c.o.b.cohort

/-- Code with privilege (17 R449). -/
def priv (c : Ctx) : Bool := c.o.l.system || c.o.g.handler

/-- Register `k` of a source operand as lane `i` reads it, through its crossbar (02 R43). -/
def rd (c : Ctx) (f : Src) (i : Nat) (k : Nat := 0) : W32 := c.o.g.readAt c.ch (crossbar f.xb.toNat i) f.reg.toNat k

/-- A 64-bit operand (02 R41). -/
def rdw (c : Ctx) (f : Src) (i : Nat) : W64 := pair (c.rd f i 0) (c.rd f i 1)

/-- `n` registers of an operand as one number, the first the lowest. -/
def rdn (c : Ctx) (f : Src) (i n : Nat) : Nat :=
  (List.range n).foldl (fun a k => a + (c.rd f i k).toNat * 2 ^ (32 * k)) 0

/-- Register `k` of a field without a crossbar, read in the lane itself. -/
def rdd (c : Ctx) (r : BitVec 7) (i : Nat) (k : Nat := 0) : W32 := c.o.g.readAt c.ch i r.toNat k

/-- The lowest Active lane that is not a helper lane (08 R217). -/
def l0 (c : Ctx) : Option Nat := c.real.head?

/-- The lowest lane of the issue set (04 R120, R129). -/
def lmin (c : Ctx) : Nat := c.r.set.head?.getD 0

/-- A lane is a helper lane. -/
def helper (c : Ctx) (i : Nat) : Bool := (c.o.g.lane i).st == .helper && !c.o.g.handler

end Ctx

/-- `n` registers of a number, the first the lowest. -/
def regsOfNat (n x : Nat) : List W32 := (List.range n).map fun k => BitVec.ofNat 32 (x / 2 ^ (32 * k))

/-- Writes of registers from D in each lane listed. -/
def writeLanes (g : Group) (d : BitVec 7) (l : List (Nat × List W32)) : Group :=
  l.foldl (fun g e => g.writeList e.1 d.toNat 0 e.2) g

/-- The result keys of registers from D in each lane listed; those of w124 and xz are discarded. -/
def resultKeys (d : BitVec 7) (l : List (Nat × List (Option W32))) : List (Nat × Option W32) :=
  if d = 124 then []
  else (l.map fun e => (List.range e.2.length).map fun k => (32 * (d.toNat + k) + e.1, e.2.getD k none)).flatten

/-- The address of an M-format access in a lane (02 R38). -/
def mAddr (c : Ctx) (w : MWord) (size : Nat) (i : Nat) : Nat :=
  let idx : BitVec 64 := if w.b = noReg then 0 else (c.rdd w.b i).signExtend 64
  (c.rdw w.a i + idx * BitVec.ofNat 64 size + w.off.signExtend 64).toNat

/-- The target of a K-format word (02 R39). -/
def kTarget (c : Ctx) (w : KWord) : W64 := c.caddr + 8 * w.off.signExtend 64

/-- The elements of `n` bits of a number of `t` bits, from bit 0 upward (02 R49). -/
def elems (n t x : Nat) : List Nat := (List.range (t / n)).map fun k => x / 2 ^ (n * k) % 2 ^ n

/-- A number from elements of `n` bits. -/
def ofElems (n : Nat) (l : List Nat) : Nat := l.foldr (fun e a => e % 2 ^ n + 2 ^ n * a) 0

end Sys2Proof.Machine
end

