-- ==== Sys2Proof/Machine/Issue.lean ====
section
/-! DEFINITION. The issue of one word: when it may issue, the checks made again at its issue, and what follows its
effect: the next word, a branch, a blocking point or a trap (02 R24 to R33, R47, R48, 04 R97, R104). -/

namespace Sys2Proof.Machine

/-- What a word's effect comes to. -/
inductive WordOut where
  /-- The word is done; the lanes listed have their new PC when its clause ends. -/
  | done (s : State) (jumps : List (Nat × W64))
  /-- The same, after a change that groups of the block may wait for. -/
  | settle (s : State) (jumps : List (Nat × W64))
  /-- A trap at this word, with its resume point (00 R7, 17 R450). The state has nothing of the word's own effect. -/
  | trap (c : Cause) (resume : W64 × W64) (s : State)
  /-- The word waits at a blocking point (02 R24). -/
  | block (b : Blocked) (s : State)
  /-- The word has placed its threads itself. -/
  | left (s : State)

namespace State

/-- The word that a group at its issue would issue. -/
def nextWord (s : State) (gid : Nat) : Option (Owner × Run × W64 × Instr) := do
  let o ← s.owner? gid
  let r ← o.g.run
  let x ← r.words[r.idx]?
  let i ← fields x
  some (o, r, x, i)

/-- The issue slot of a group. -/
def slotOfGroup (s : State) (o : Owner) : IssueSlot := (s.core o.b.core).slots.getD o.g.islot ⟨none, 0, []⟩

/-- A word makes memory events from its issue on: the accesses of class 1 but for PREF, WALK and CINV, BOREAD, copies, CPYQ
and the lane queue's words, and the scratchpad sides of TLOAD, TSTORE and MMAS (07 R203, 11 R289). -/
def eventWord (x : W64) : Bool :=
  let op := x.toNat % 256
  (0x90 ≤ op && op ≤ 0x9C && op != 0x98) || (0xB0 ≤ op && op ≤ 0xB8) || [0x0F, 0xA4, 0xC2, 0xC3, 0xC6].contains op

/-- A word of the group that acquires is outstanding: the events that follow it are held until it completes (11 R313; held
at their issue, and a WAIT's tests of cells while it waits, log 74). -/
def acquireOpen (s : State) (gid : Nat) : Bool := s.ops.any fun e => e.2.gid == gid && e.2.kind == .acquire

/-- A group's clause may issue its next word: the slot runs the clause and its last word has ended, DL is served
(02 R48), and the core is not stopped (15 R401). -/
def mayIssue (s : State) (o : Owner) (r : Run) (x : W64) (gid : Nat) : Bool :=
  let k := s.cluster (clusterOf o.b.core)
  let slot := s.slotOfGroup o
  o.g.blocked.isNone && slot.cur == some gid && decide (slot.freeAt ≤ k.cycles) && !k.stopped
    && (s.chiplet (coreSlot o.b.core)).power == .active
    && ((Sched.ofWord x).dl = 0 || r.served) && o.c.issues && !(eventWord x && s.acquireOpen gid)

/-- The issue of the next word of a group's clause begins, where it may. -/
def prepareIssue (s : State) (gid : Nat) : Option (State × Instr) :=
  match s.nextWord gid with
  | none => none
  | some (o, r, x, i) => if s.mayIssue o r x gid then some ({ s with issuing := some gid }, i) else none

/-- The cycles a word occupies its slot (04 R104). -/
def issueCost (op passes : Nat) : Nat := if 0x20 ≤ op && op ≤ 0x8B then passes else 1

/-- The slot is taken for the word's issue cycles, and YH is noted (02 R47). -/
def occupy (s : State) (gid : Nat) (o : Owner) (r : Run) (op : Nat) (yh : Bool) : State :=
  let k := s.cluster (clusterOf o.b.core)
  let s := s.modCore o.b.core fun c =>
    { c with slots := c.slots.modify o.g.islot fun x => { x with freeAt := k.cycles + issueCost op (passCount k) }
             unissued := 0 }
  s.modGroup gid fun g => { g with run := some { r with yh := r.yh || yh } }

/-- What follows a word's effect. -/
def finishWord (gid core : Nat) : WordOut → State
  | .done s jumps => s.advance gid jumps
  | .settle s jumps => (s.advance gid jumps).settleGroup gid
  | .trap c resume s => s.trapWord gid c resume
  | .block b s => ((s.freeSlot core gid).modGroup gid fun g => { g with blocked := some b }).settleGroup gid
  | .left s => s

end State

/-- The issue of word `i` by the group at its issue, with `body` as its effect. -/
def runWord (i : Instr) (body : Ctx → State → WordOut) (s : State) : Out :=
  match s.issuing with
  | none => .fault .noGroupAtIssue
  | some gid =>
    match s.owner? gid with
    | none => .fault .noGroupAtIssue
    | some o =>
      match o.g.run with
      | none => .fault .noGroupAtIssue
      | some r =>
        let s := { s with issuing := none }
        let sch := ((shape i).map Shape.sched).getD ⟨0, 0, 0, 0, 0, 0⟩
        let s := s.occupy gid o r (opcodeOf i) (sch.yh == 1)
        match instrFault i (s.envOf o r.header r.idx) with
        | some c => .next (s.trapWord gid c (State.atWord r))
        | none =>
          let act := activeLanes o.g s.choice sch r.set
          let real := act.filter fun j => o.g.handler || (o.g.lane j).st != .helper
          let c : Ctx := ⟨gid, o, { r with yh := r.yh || sch.yh == 1 }, sch, act, real, s.choice⟩
          .next (State.finishWord gid o.b.core (body c s))

namespace Ctx

/-- A trap at the word itself. -/
def trap (c : Ctx) (x : Cause) (s : State) : WordOut := .trap x (State.atWord c.r) s

/-- A short-latency word that writes registers from D in its Active lanes (02 R25). -/
def write (c : Ctx) (s : State) (d : BitVec 7) (f : Nat → List W32) : WordOut :=
  .done (s.modGroup c.gid fun g => writeLanes g d (c.act.map fun i => (i, f i))) []

/-- The outstanding operation of a long-latency word. -/
def op (c : Ctx) (kind : OpKind) (dest : BitVec 7) : Op :=
  { gid := c.gid, block := c.bid, core := c.core, flag := c.flag, pc := c.pc, caddr := c.caddr, set := c.r.set
    act := c.act, dest := dest.toNat, kind := kind, held := false }

/-- The flag is at 63, so that the word stalls (02 R27). -/
def full (c : Ctx) : Option Nat := c.flag.filter fun f => 63 ≤ c.o.g.flag f

/-- A long-latency word: it stalls at a full flag, and is otherwise outstanding with its effect at issue `body` and
its results (02 R26, R27). -/
def long (c : Ctx) (s : State) (kind : OpKind) (dest : BitVec 7)
    (body : State → Except (Cause × State) (State × List (Nat × Option W32))) : WordOut :=
  match c.full with
  | some f => .block (.flagFull f) s
  | none =>
    match body s with
    | .error (x, s) => c.trap x s
    | .ok (s, results) => .done (s.addOp (c.op kind dest) results) []

/-- A long-latency word whose results in the Active lanes are known at issue. -/
def longWrite (c : Ctx) (s : State) (d : BitVec 7) (f : Nat → List W32) : WordOut :=
  c.long s .plain d fun s => .ok (s, resultKeys d (c.act.map fun i => (i, (f i).map some)))

end Ctx

end Sys2Proof.Machine
end

