-- ==== Sys2Proof/Machine/Objects.lean ====
section
/-! DEFINITION. Objects in scratchpad as instructions use them: their checks, and lane queues (04 R128, 08 R210,
R214). -/

namespace Sys2Proof.Machine

namespace State

/-- Alignment, then the scratchpad checks, of an operand of `n` bytes at a block offset (08 R210; MISALIGNED gives the
offset and its window address, log 22). -/
def objCheck (s : State) (bid o n align : Nat) : Option Cause :=
  if o % align != 0 then
    some ⟨Cause.misaligned, BitVec.ofNat 64 o, BitVec.ofNat 64 (s.windowAddr bid o)⟩
  else s.scratchCheck bid o n

/-- The range-lock check of an access of an instruction to scratchpad (08 R214). -/
def objLock (s : State) (core bid o n : Nat) (write : Bool) : Option Cause :=
  s.lockCause (clusterOf core) (.scr bid o) n write

/-- All checks of one object that an instruction uses. -/
def objUse (s : State) (core bid o n align : Nat) (write : Bool) : Option Cause :=
  (s.objCheck bid o n align).orElse fun _ => s.objLock core bid o n write

end State

/-- A lane queue (04 R128). -/
structure LaneQueue where
  base : Nat
  slots : Nat
  head : Nat
  tail : Nat
  deriving DecidableEq, Repr

namespace State

def laneQueue (s : State) (bid d : Nat) : LaneQueue :=
  ⟨(s.scratchWord bid d).toNat, (s.scratchWord bid (d + 4)).toNat, (s.scratchWord bid (d + 8)).toNat,
   (s.scratchWord bid (d + 12)).toNat⟩

end State

namespace LaneQueue

/-- Items made available and not yet taken. -/
def avail (q : LaneQueue) : Nat := (q.tail + 2 ^ 32 - q.head) % 2 ^ 32

/-- The descriptor passes the test of 04 R129. -/
def valid (q : LaneQueue) : Bool := q.slots != 0 && q.slots ≤ 32768 && q.avail ≤ q.slots && q.base % 8 == 0

/-- The block offset of an item index: REFILL's HEAD + i is exact, and TAIL is a word that wraps with each push (00 R7, 04 R129,
08 R234). -/
def at_ (q : LaneQueue) (i : Nat) : Nat := q.base + 8 * (i % q.slots)

end LaneQueue

/-- The scratchpad and range-lock checks of 8-byte items of a queue, in order. -/
def State.itemCheck (s : State) (core bid : Nat) (write : Bool) (l : List Nat) : Option Cause :=
  (l.findSome? fun o => s.scratchCheck bid o 8).orElse fun _ => l.findSome? fun o => s.objLock core bid o 8 write

end Sys2Proof.Machine
end

