-- ==== Sys2Proof/Machine/Control.lean ====
section
/-! DEFINITION. Control and convergence: ILL, the words of opcodes 0x01 to 0x14, the start of a clause, and the
resumption of blocked words (02 R24, R27, R33, R48, R54, 04 R102, R105 to R130, 17 R463). -/

namespace Sys2Proof.Machine

/-! ## Branches and calls (04 R106 to R110) -/

namespace Ctx

/-- The targets of the Active lanes that branch; a helper lane follows its leader (04 R117). -/
def targets (c : Ctx) (f : Nat → W64) : List (Nat × W64) := c.real.map fun i => (i, f i)

/-- A branch to targets, after the links are written (04 R107). -/
def branch (c : Ctx) (s : State) (link : Option (BitVec 7)) (f : Nat → W64) : WordOut :=
  match (c.targets f).find? fun e => e.2.toNat % 8 != 0 with
  | some e => c.trap (Cause.align e.2) s
  | none =>
    let s := match link with
      | none => s
      | some d => s.modGroup c.gid fun g =>
          writeLanes g d (c.act.map fun i => (i, [lowHalf c.next, highHalf c.next]))
    .done s (c.targets f)

end Ctx

/-- ILL (02 R54). -/
def execIll (high : Bool) (rest : BitVec 56) (s : State) : Out :=
  runWord (.ill high rest) (fun c s => c.trap ⟨Cause.illegalOpcode, if high then 0xFF else 0, 0⟩ s) s

/-- NOP (04 R106). -/
def execNop (w : VWord) (s : State) : Out := runWord (.nop w) (fun _ s => .done s []) s

/-- BRA (04 R107). -/
def execBra (w : KWord) (s : State) : Out := runWord (.bra w) (fun c s => c.branch s none fun _ => kTarget c w) s

/-- BRX (04 R107). -/
def execBrx (w : VWord) (s : State) : Out := runWord (.brx w) (fun c s => c.branch s none (c.rdw w.a)) s

/-- CALL (04 R107). -/
def execCall (w : KWord) (s : State) : Out :=
  runWord (.call w) (fun c s => c.branch s (some w.d) fun _ => kTarget c w) s

/-- CALLX (04 R107). -/
def execCallx (w : VWord) (s : State) : Out := runWord (.callx w) (fun c s => c.branch s (some w.d) (c.rdw w.a)) s

/-- RET has the effect of BRX (04 R107). -/
def execRet (w : VWord) (s : State) : Out := runWord (.ret w) (fun c s => c.branch s none (c.rdw w.a)) s

/-- EXIT (04 R109). -/
def execExit (w : VWord) (s : State) : Out :=
  runWord (.exit w) (fun c s => .settle (s.modGroup c.gid fun g =>
    c.real.foldl (fun g i => g.modLane i fun t => { t with st := .exited }) g) []) s

/-! ## Meetings (04 R111 to R114) -/

namespace Ctx

/-- New MEET values in the Active lanes, helper lanes among them (04 R111, R117); a meeting this completes is released
(04 R113). -/
def setMeet (c : Ctx) (s : State) (f : Nat → W64) : State :=
  s.modGroup c.gid fun g => (c.act.foldl (fun g i => g.modLane i fun t => { t with meet := f i }) g).releaseMet

end Ctx

/-- MEET (04 R111). -/
def execMeet (w : KWord) (s : State) : Out := runWord (.meet w) (fun c s => .done (c.setMeet s fun _ => kTarget c w) []) s

/-- MEETX (04 R111). -/
def execMeetx (w : VWord) (s : State) : Out :=
  runWord (.meetx w) (fun c s =>
    match if w.a.reg = noReg then none else c.real.find? fun i => (c.rdw w.a i).toNat % 8 != 0 with
    | some i => c.trap (Cause.align (c.rdw w.a i)) s
    | none =>
      let s := if w.d = noReg then s else s.modGroup c.gid fun g =>
        writeLanes g w.d (c.act.map fun i => (i, [lowHalf (c.o.g.lane i).meet, highHalf (c.o.g.lane i).meet]))
      .done (if w.a.reg = noReg then s else c.setMeet s (c.rdw w.a)) []) s

/-- MEETCLR (04 R111). -/
def execMeetclr (w : VWord) (s : State) : Out := runWord (.meetclr w) (fun c s => .done (c.setMeet s fun _ => 0) []) s

/-- YIELD (04 R115). -/
def execYield (w : VWord) (s : State) : Out :=
  runWord (.yield w) (fun c s =>
    .done (s.modGroup c.gid fun g => { g with run := g.run.map fun r => { r with yielded := true } }) []) s

/-- The exited lanes of the quads that hold a lane of an issue set become helper lanes (04 R116). -/
def Group.bringHelpers (g : Group) (set : List Nat) : Group :=
  lanes32.foldl (fun g i =>
    if (g.lane i).st == .exited && set.any fun j => j / 4 == i / 4 then g.modLane i fun t => { t with st := .helper }
    else g) g

/-- QHELP (04 R116): the new helper lanes are in the issue set with their leaders from the next word on (04 R117). -/
def execQhelp (w : VWord) (s : State) : Out :=
  runWord (.qhelp w) (fun c s =>
    .done (s.modGroup c.gid fun g =>
      let h := g.bringHelpers c.r.set
      { h with run := h.run.map fun r => { r with set := h.withHelpers r.set } }) []) s

/-! ## Segment mode (04 R122 to R127, 05 R134) -/

namespace Ctx

/-- The lowest barrier at which the group has arrived and whose phase has not completed (04 R122). -/
def arrivedAt (c : Ctx) : Option Nat :=
  (List.range 16).find? fun n => (c.o.b.barriers.getD n ⟨false, .unset, []⟩).arrived.contains c.o.g.slot

/-- SUCC and SUCCX: `f` gives the successors, or none for an exit (04 R123). -/
def succeed (c : Ctx) (s : State) (f : Nat → Option W64) : WordOut :=
  if !c.o.g.flagsClear then .block .flags s
  else if c.o.g.alloc != c.o.l.regs then c.trap (Cause.operand c.o.g.alloc) s
  else
    match c.arrivedAt with
    | some n => c.trap (Cause.misuse n) s
    | none =>
      match c.real.findSome? fun i => (f i).filter fun v => v.toNat % 8 != 0 with
      | some v => c.trap (Cause.align v) s
      | none =>
        let r := s.moveLanes c.gid (c.real.map fun i => (i, f i))
        if r.2.isEmpty then .settle r.1 [] else .block (.pool r.2) r.1

end Ctx

/-- The clause of a segment of a translated body; an index of no segment names no code (16 R446, log 10). -/
def Launch.segment (l : Launch) (n : Nat) : W64 := l.segments.getD n 0xFFFFFFFFFFFFFFF8

/-- SUCC (04 R123); in a translated body its offset is the unsigned index of a segment (16 R445). -/
def execSucc (w : KWord) (s : State) : Out :=
  runWord (.succ w) (fun c s =>
    c.succeed s fun _ => some (if c.o.l.translated then c.o.l.segment w.off.toNat else kTarget c w)) s

/-- SUCCX, whose 0 exits (04 R123); in a translated body its register holds the index of a segment (16 R445). -/
def execSuccx (w : VWord) (s : State) : Out :=
  runWord (.succx w) (fun c s => c.succeed s fun i =>
    let v := c.rdw w.a i
    if v = 0 then none else some (if c.o.l.translated then c.o.l.segment v.toNat else v)) s

/-- The lanes REFILL may fill: exited, gone and helper lanes (04 R129). -/
def emptyLanes (g : Group) : List Nat :=
  g.lanesWith fun t => t.st == .exited || t.st == .gone || t.st == .helper

/-- REFILL (04 R129, R130). -/
def execRefill (w : VWord) (s : State) : Out :=
  runWord (.refill w) (fun c s =>
    if !c.o.g.flagsClear then .block .flags s
    else
      let d := (c.rd w.a c.lmin).toNat
      match s.objUse c.core c.bid d 16 16 true with
      | some x => c.trap x s
      | none =>
        let q := s.laneQueue c.bid d
        if !q.valid then c.trap (Cause.misuse d) s
        else
          let take := (emptyLanes c.o.g).take q.avail
          let offs := (List.range take.length).map fun i => q.at_ (q.head + i)
          match s.itemCheck c.core c.bid false offs with
          | some x => c.trap x s
          | none =>
            let items := take.zip (offs.map fun o => s.scratchDword c.bid o)
            let s1 := s.modGroup c.gid fun g =>
              items.foldl (fun g e => (g.setLane e.1 (Thread.start c.next)).writeList e.1 w.d.toNat 0
                [lowHalf e.2, highHalf e.2]) g
            .settle (s1.scratchPut c.bid (d + 8) 4 ((q.head + take.length) % 2 ^ 32)) []) s

/-! ## Block barriers (04 R119 to R122, 15 R419) -/

namespace Ctx

/-- The group may use a block barrier: its issue set is every live thread and holds no helper lane (04 R120). -/
def whole (c : Ctx) : Bool := c.o.g.liveLanes == c.r.set

/-- The block's barrier of a number. -/
def barrier (c : Ctx) (n : Nat) : Barrier := c.o.b.barriers.getD n ⟨false, .unset, []⟩

/-- The mode an arrival names, or none for a count out of range (04 R120). -/
def barMode (c : Ctx) (a : Src) : Option BarMode :=
  if a.reg = noReg then some .all
  else
    let k := (c.rd a c.lmin).toNat
    if 1 ≤ k && k ≤ 32 then some (.count k) else none

/-- A shed group is held from its barrier word on (15 R419). -/
def hold (c : Ctx) (s : State) : State :=
  if s.classAllowed c.o.g.cls then s else s.modGroup c.gid fun g => { g with shedHold := true }

/-- An arrival (04 R120): the state, or the misuse. -/
def arrive (c : Ctx) (s : State) (a : Src) (n : Nat) : Option State :=
  let b := c.barrier n
  match c.barMode a with
  | none => none
  | some m =>
    if !c.whole || b.arrived.contains c.o.g.slot || (b.mode != .unset && b.mode != m) then none
    else
      let b' : Barrier := { b with mode := m, arrived := insertNat c.o.g.slot b.arrived }
      some (c.hold (s.modBlock c.bid fun x => { x with barriers := x.barriers.set n b' }))

/-- The phase of a barrier completes in this step where the arrival was the last (04 R121). -/
def complete (c : Ctx) (s : State) (n : Nat) : Option State :=
  match s.block? c.bid with
  | none => none
  | some b => if s.barrierDone c.bid b (b.barriers.getD n ⟨false, .unset, []⟩) then some (s.turnBarrier c.bid n) else none

/-- What is saved of this word from an earlier issue of it. -/
def savedHere (c : Ctx) : Option Blocked := (c.o.g.kept.filter fun x => x.1 == c.pc).map (·.2)

end Ctx

/-- BARS (04 R120). -/
def execBars (w : VWord) (s : State) : Out :=
  runWord (.bars w) (fun c s =>
    let n := w.e.toNat % 16
    match c.savedHere with
    | some (.barrier b ph) => .block (.barrier b ph) (c.hold s)
    | some .passed => .settle (c.hold s) []
    | _ =>
      match c.arrive s w.a n with
      | none => c.trap (Cause.misuse n) s
      | some s1 =>
        match c.complete s1 n with
        | some s2 => .settle s2 []
        | none => .block (.barrier n (c.barrier n).phase) s1) s

/-- BARA (04 R120). -/
def execBara (w : VWord) (s : State) : Out :=
  runWord (.bara w) (fun c s =>
    let n := w.e.toNat % 16
    match c.arrive s w.a n with
    | none => c.trap (Cause.misuse n) s
    | some s1 =>
      .settle (s1.modGroup c.gid fun g =>
        writeLanes g w.d (c.r.set.map fun i => (i, [if (c.barrier n).phase then 1 else 0]))) []) s

/-- BARW (04 R120). -/
def execBarw (w : VWord) (s : State) : Out :=
  runWord (.barw w) (fun c s =>
    let n := w.e.toNat % 16
    if !c.whole then c.trap (Cause.misuse n) s
    else
      match c.savedHere with
      | some (.barrier b ph) => .block (.barrier b ph) (c.hold s)
      | some .passed => .settle (c.hold s) []
      | _ =>
        let ph := (c.rd w.a c.lmin).getLsbD 0
        if (c.barrier n).phase != ph then .settle (c.hold s) [] else .block (.barrier n ph) (c.hold s)) s

/-! ## TRAP and BKPT (17 R463) -/

/-- TRAP. -/
def execTrap (w : IWord) (s : State) : Out :=
  runWord (.trap w) (fun c s =>
    if c.real.isEmpty then .done s []
    else .trap ⟨Cause.software, w.imm.setWidth 64, 0⟩ (c.next, c.next) s) s

/-- BKPT. -/
def execBkpt (w : IWord) (s : State) : Out :=
  runWord (.bkpt w) (fun c s =>
    if c.real.isEmpty then .done s []
    else
      let resume := if c.r.idx + 1 < c.r.words.length then (wordAddr c.caddr (c.r.idx + 1), c.caddr) else (c.next, c.next)
      .trap ⟨Cause.breakpoint, w.imm.setWidth 64, 0⟩ resume s) s

/-! ## The start of a clause (02 R24, R31, R32, 04 R97 to R102) -/

/-- A group that goes after others it has let pass (02 R47, 04 R115). -/
def yields (s : State) (gid : Nat) : Bool :=
  match s.group? gid with
  | none => false
  | some g => g.yieldTo.any fun h => h != gid && ready s h

/-- The better of two groups whose wait count has reached 4,096. -/
def longest (s : State) (l : List (Nat × Nat)) : Option (Nat × Nat) :=
  let count (e : Nat × Nat) : Nat := ((s.group? e.2).map Group.waitCount).getD 0
  (l.filter fun e => decide (4096 ≤ count e)).foldl (fun b e => match b with
    | none => some e
    | some x => if count x < count e then some e else some x) none

/-- The next group of a class in group-slot order, after the slot chosen last (04 R102). -/
def roundRobin (last : Option Nat) (l : List (Nat × Nat)) : Option (Nat × Nat) :=
  match last with
  | none => l.head?
  | some k => (l.find? fun e => decide (k < e.1)).orElse fun _ => l.head?

/-- The slot's choice among the groups it serves (04 R102). -/
def choose (s : State) (core islot : Nat) : Option (Nat × Nat) :=
  let l := (servedBy s core islot).filter fun e => ready s e.2 && !yields s e.2
  let cls (e : Nat × Nat) : Nat := ((s.group? e.2).map Group.cls).getD 0
  let slot := (s.core core).slots.getD islot ⟨none, 0, []⟩
  (longest s l).orElse fun _ =>
    ([7, 6, 5, 4, 3, 2, 1, 0].find? fun k => l.any fun e => cls e == k).bind fun k =>
      roundRobin (tget? slot.last k) (l.filter fun e => cls e == k)

/-- The word of a clause at an address, where the address is one of a word of the clause (17 R454). -/
def wordIndex (c : W64) (pc : W64) (n : Nat) : Option Nat :=
  (List.range n).find? fun j => wordAddr c j == pc

/-- The clause of a group starts (02 R31): its first word, or the word at which its threads resume, is to issue next;
or the fault of its fetch is delivered to its issue set. Where threads resume at a word, every word of the clause is
fetched and checked again, against the allocation that is then in force (log 64). -/
def startClause (s : State) (gid islot gs : Nat) (o : Owner) (i : Nat) : State :=
  let t := o.g.lane i
  let c := t.resume.getD t.pc
  let set := o.g.issueSet i
  let k := s.cluster (clusterOf o.b.core)
  let s := s.modGroup gid fun g =>
    { (g.aged set).setKept (g.kept.filter fun x => t.resume.isSome && x.1 == t.pc) with waitCount := 0, yieldTo := [] }
  let s : State := { s with groups := s.groups.map fun (e : Nat × Group) =>
    (e.1, { e.2 with yieldTo := e.2.yieldTo.filter (· != gid) }) }
  let s := s.modCore o.b.core fun x =>
    { x with slots := x.slots.modify islot fun y => { y with last := tput y.last o.g.cls gs } }
  let fault (s : State) (x : Cause) (pc : W64) (resume : W64) : State :=
    s.deliver gid ⟨x.code, pc, c, x.faddr, x.info, resume, c, set⟩ false
  match fetchClause s o c with
  | .fault x pc clause bad =>
    let s := match bad with
      | some l => s.retireLine l 0
      | none => s
    fault s x pc (if clause then c else pc)
  | .ok h ws =>
    match if t.resume.isSome then wordIndex c t.pc ws.length else some 0 with
    | none => fault s ⟨Cause.illegalEncoding, 0, 0⟩ t.pc t.pc
    | some j =>
      let s := ((s.fetched o c.toNat).fetched o (c.toNat + 8 * ws.length)).modCore o.b.core fun x =>
        { x with slots := x.slots.modify islot fun y => { y with cur := some gid } }
      s.modGroup gid fun g =>
        { g with run := some ⟨c, h, ws, j, set, t.resume.isSome && t.served, k.cycles, some (passCount k),
                              ws.any fun x => (Sched.ofWord x).yh == 1, ws.any fun x => opcode x == 0x0B, []⟩ }

/-- CLAUSE_START (04 R102). -/
def execClauseStart (core islot : Nat) (s : State) : Out :=
  let slot := (s.core core).slots.getD islot ⟨none, 0, []⟩
  let k := s.cluster (clusterOf core)
  if slot.cur.isSome || k.cycles < slot.freeAt then .next s
  else
    match choose s core islot with
    | none => .next s
    | some (gs, gid) =>
      match s.owner? gid with
      | none => .next s
      | some o =>
        match o.g.pick with
        | none => .next s
        | some i => .next (startClause s gid islot gs o i)

/-! ## Resumption (02 R24, R27, R48) -/

/-- A group that waits for its slot only: its blocked word is done, or it has left the loop of its WAIT. It is at no blocking
point any longer (02 R24, 07 R198). -/
def onlySlot (g : Group) : Bool :=
  match g.blocked with
  | some .slot => true
  | some (.wait x) => x.res.isSome
  | _ => false

/-- Nothing is to be delivered to the group before it goes on (02 R33, 17 R452), and its class is not held (15 R419). -/
def undisturbed (g : Group) : Bool :=
  !g.shut && (onlySlot g
    || (g.late.isEmpty && (g.handler || (g.restore.isNone && !(g.preempt || g.shed)))))

/-- A blocked group whose issue slot is at a clause boundary takes the slot and issues its word again; the phase it
waits for, or its deadline, is kept (02 R24). -/
def resumeWord (s : State) (gid : Nat) (holds : Owner → Blocked → Bool) : State :=
  match s.owner? gid with
  | none => s
  | some o =>
    match o.g.blocked, o.g.run with
    | some b, some r =>
      let slot := s.slotOfGroup o
      let k := s.cluster (clusterOf o.b.core)
      if !holds o b || !undisturbed o.g || slot.cur.isSome || k.cycles < slot.freeAt then s
      else
        let keep := match b with
          | .barrier _ _ | .wait _ => some (wordAddr r.caddr r.idx, b)
          | _ => o.g.kept
        let s := s.modCore o.b.core fun x =>
          { x with slots := x.slots.modify o.g.islot fun y => { y with cur := some gid } }
        let s := s.setGroup gid ({ o.g with blocked := none, run := some { r with served := b != Blocked.slot } }.setKept keep)
        { s with agenda := .issue gid :: s.agenda }
    | _, _ => s

/-- The operations of the Shelf Reader of a cluster. -/
def shelfWalks (s : State) (cluster : Nat) : Nat :=
  s.ops.countP fun e => clusterOf e.2.core == cluster && match e.2.kind with
    | .shelf _ _ _ _ _ _ => true
    | _ => false

/-- The condition a blocked word waits for holds (02 R24). Claims, pool entries and buffer runs are granted by the step
that frees them. -/
def blockOver (s : State) (o : Owner) (b : Blocked) : Bool :=
  match b with
  | .flags => o.g.flagsClear
  | .wait x => x.res.isSome
  | .walkers => decide (shelfWalks s (clusterOf o.b.core) < 8)
  | .slot => true
  | .sign k => !(((o.b.conv[k]?).map ConvReg.signed).getD []).contains o.g.slot
  | .pmack => true
  | _ => false

/-- FLAG_STALL_RESUME (02 R27). -/
def execFlagStallResume (g : Nat) (s : State) : Out :=
  .next (resumeWord s g fun o b => match b with
    | .flagFull f => decide (o.g.flag f < 63)
    | _ => false)

/-- ISSUE_DELAY_EXPIRY (02 R48). -/
def execIssueDelayExpiry (g : Nat) (s : State) : Out :=
  match s.nextWord g with
  | none => .next s
  | some (o, r, x, _) =>
    let dl := (Sched.ofWord x).dl.toNat
    let due := match r.passes with
      | some p => decide (r.since + dl * p ≤ (s.cluster (clusterOf o.b.core)).cycles)
      | none => false
    if dl = 0 || r.served || o.g.blocked.isSome || !due then .next s
    else
      .next { s.setGroup g { o.g with run := some { r with served := true } } with agenda := .issue g :: s.agenda }

/-- LONG_LATENCY_COMPLETION (02 R26). -/
def execLongLatencyCompletion (op : Nat) (s : State) : Out :=
  match tget? s.ops op with
  | some x => .next (if x.kind = .plain || x.kind = .acquire then s.completeOp op else s)
  | none => .next s

/-- A delivery point of 02 R24: a clause boundary, a word at a blocking point, or the hold of a shed class after a barrier
word (15 R419). -/
def deliverable (g : Group) : Bool :=
  match g.run, g.blocked with
  | none, _ => true
  | some _, none => false
  | some _, some _ => !onlySlot g || g.shut

/-- LATE_FAULT_DELIVERY (02 R33). -/
def execLateFaultDelivery (g : Nat) (s : State) : Out :=
  match s.group? g with
  | none => .next s
  | some x =>
    match x.late with
    | [] => .next s
    | t :: rest =>
      if !deliverable x then .next s
      else .next ((s.setGroup g { x with late := rest }).deliverLate g t)

end Sys2Proof.Machine
end

