-- ==== Sys2Proof/Machine/Locks.lean ====
section
/-! DEFINITION. Range-lock tables: taking entries, conflicts between operations, and the stalls they cause
(08 R213 to R215). -/

namespace Sys2Proof.Machine

/-- An entry an operation takes: the cluster of its table, its range, and whether the range is written. -/
structure LockWant where
  cluster : Nat
  range : LockRange
  write : Bool
  deriving DecidableEq, Repr

/-- Two ranges share a line or a unit. -/
def LockRange.meets (a b : LockRange) : Bool :=
  match a, b with
  | .mem lo hi, .mem lo' hi' => lo ≤ hi' && lo' ≤ hi
  | .scr x lo hi, .scr y lo' hi' => x == y && lo ≤ hi' && lo' ≤ hi
  | _, _ => false

namespace State

/-- The tables of entries wanted have room for them all (08 R213). -/
def roomForLocks (s : State) (tables : List Nat) : Bool :=
  tables.all fun k => decide ((s.cluster k).locks.length + tables.count k ≤ 64)

/-- A table's lowest free index, of 64. -/
def freeLock (s : State) (k : Nat) : Option Nat :=
  (List.range 64).find? fun i => !(s.cluster k).locks.any fun e => e.1 == i

/-- All the entries of an operation taken together, each at the lowest free index, or none (08 R213). -/
def takeLocks (s : State) (op : Nat) : List LockWant → Option State
  | [] => some s
  | w :: t =>
    match s.freeLock w.cluster with
    | none => none
    | some i => (s.modCluster w.cluster fun c => { c with locks := tput c.locks i ⟨w.range, w.write, op⟩ }).takeLocks op t

/-- An operation waits for an earlier one: an entry of its own conflicts with an entry of an operation that issued before
it in the same table (08 R215). -/
def lockWaits (s : State) (op : Nat) : Bool :=
  s.clusters.any fun k => k.2.locks.any fun x => x.2.op == op && k.2.locks.any fun y =>
    decide (y.2.op < op) && (x.2.write || y.2.write) && x.2.range.meets y.2.range

/-- An operation has moved no byte yet: it may still have to wait for an entry of an earlier one (08 R215). -/
def unmoved (o : Op) : Bool :=
  match o.kind with
  | .copy c => c.done.isEmpty
  | .cpyq _ _ _ _ _ => true
  | _ => false

/-- An entry of an operation covers more bytes: it, and the later operations that have moved no byte, wait where they
conflict with earlier ones (08 R215, R233). -/
def holdLater (s : State) (op : Nat) : State :=
  { s with ops := s.ops.map fun (e : Nat × Op) =>
      if op ≤ e.1 && unmoved e.2 then (e.1, { e.2 with held := e.2.held || s.lockWaits e.1 }) else e }

/-- An operation outstanding with its entries, held where they conflict with earlier ones; none where they cannot all be
taken (08 R213, R215). -/
def addLocked (s : State) (op : Op) (l : List LockWant) (results : List (Nat × Option W32)) : Option State :=
  (s.takeLocks s.fresh l).map fun t => t.addOp { op with held := t.lockWaits s.fresh } results

/-- An operation ends with a status in its result register. -/
def endWith (s : State) (n status : Nat) : State :=
  match tget? s.ops n with
  | none => s
  | some o =>
    (s.setResults n o.gid (o.act.map (fun i => (32 * o.dest + i, BitVec.ofNat 32 status)))).completeOp n

/-- An operation ends without a write of its result register. -/
def endSilent (s : State) (n : Nat) : State :=
  match tget? s.ops n with
  | none => s
  | some o => (s.modGroup o.gid fun g => { g with pending := g.pending.filter (·.op != n) }).completeOp n

/-- A fault of an operation detected after issue, in its group or, where that has ended and the cause is terminal, in its task
(02 R33, 13 R371). -/
def lateFault (s : State) (o : Op) (x : Cause) : State :=
  if (s.group? o.gid).isSome then s.addLate o x
  else if x.code != Cause.dataError && x.code != Cause.outsideLease then s
  else match s.launchOfBlock o.block with
    | some l => s.endLaunch l 8 x.code
    | none => s

/-- The time of the request of the pre-emption in progress of an operation's cohort. -/
def preemptedAt (s : State) (o : Op) : Option Nat :=
  ((s.block? o.block).bind fun b => s.cohort? b.cohort).bind fun c => match c.state with
    | .preempting p => some p.at_
    | _ => none

end State

/-- RANGE_LOCK_CONFLICT_START: an operation that waited starts once the entries it conflicts with are freed (08 R215). -/
def execRangeLockConflictStart (op : Nat) (s : State) : Out :=
  match tget? s.ops op with
  | some o => .next (if o.held && !s.lockWaits op then { s with ops := tput s.ops op { o with held := false } } else s)
  | none => .next s

/-- RLT_STALL_RESUME: a group whose word waits for entries issues it again once the tables have room for all of them
(08 R213). -/
def execRltStallResume (g : Nat) (s : State) : Out :=
  .next (resumeWord s g fun _ b => match b with
    | .rlt tables => s.roomForLocks tables
    | _ => false)

end Sys2Proof.Machine
end

