-- ==== Sys2Proof/Machine/Buffers.lean ====
section
/-! DEFINITION. Circular buffers, their waiting requests, lane-queue words, and the resumption of blocked words
(02 R24, 08 R227 to R234). -/

namespace Sys2Proof.Machine

/-! ## Descriptors (08 R227, R228) -/

/-- A circular-buffer descriptor. -/
structure CbDesc where
  base : Nat
  slotSize : Nat
  rsv : Nat
  freeBo : Nat
  fillBo : Nat
  slots : Nat
  filled : Nat
  free : Nat
  acq : Nat
  res : Nat
  nres : Nat
  cmt : Nat
  rel : Nat
  deriving DecidableEq, Repr

namespace CbDesc

/-- The descriptor of 32 bytes as a number. -/
def ofNat (x : Nat) : CbDesc :=
  let f (lo n : Nat) : Nat := x / 2 ^ lo % 2 ^ n
  ⟨f 0 32, f 32 32, f 64 48, f 112 16, f 128 16, f 144 8, f 152 8, f 160 8, f 168 8, f 176 8, f 184 8, f 192 32, f 224 32⟩

def toNat (d : CbDesc) : Nat :=
  d.base + 2 ^ 32 * d.slotSize + 2 ^ 64 * d.rsv + 2 ^ 112 * d.freeBo + 2 ^ 128 * d.fillBo + 2 ^ 144 * d.slots
    + 2 ^ 152 * d.filled + 2 ^ 160 * d.free + 2 ^ 168 * d.acq + 2 ^ 176 * d.res + 2 ^ 184 * d.nres + 2 ^ 192 * d.cmt
    + 2 ^ 224 * d.rel

/-- Validity within a scratchpad of `size` bytes. -/
def valid (d : CbDesc) (size : Nat) : Bool :=
  1 ≤ d.slots && d.slots ≤ 32 && d.slotSize % 16 == 0 && 16 ≤ d.slotSize && d.slotSize ≤ 65536 && d.base % 16 == 0
    && d.base + d.slots * d.slotSize ≤ size && d.free + d.filled + d.nres ≤ d.slots && d.res < d.slots && d.acq < d.slots
    && d.cmt < 2 ^ d.slots && d.rel < 2 ^ d.slots && d.rsv == 0
    && (d.fillBo == 0 || 16 * d.fillBo + 16 ≤ size) && (d.freeBo == 0 || 16 * d.freeBo + 16 ≤ size)

/-- Slots acquired and not yet returned, the oldest reserved slot and the oldest acquired one. -/
def nacq (d : CbDesc) : Nat := d.slots - d.free - d.filled - d.nres
def cmtAt (d : CbDesc) : Nat := (d.acq + d.filled) % d.slots
def relAt (d : CbDesc) : Nat := (d.res + d.free) % d.slots

/-- The block offset of a slot. -/
def slotAt (d : CbDesc) (i : Nat) : Nat := d.base + i * d.slotSize

/-- The slot that starts at an offset. -/
def slotOf (d : CbDesc) (t : Nat) : Option Nat := (List.range d.slots).find? fun i => d.slotAt i == t

/-- Slots in the run a request takes from: the free run or the filled run. -/
def count (d : CbDesc) (res : Bool) : Nat := if res then d.free else d.filled

/-- The oldest slot of a run taken (08 R230). -/
def take (d : CbDesc) (res : Bool) : CbDesc × Nat :=
  if res then ({ d with res := (d.res + 1) % d.slots, free := d.free - 1, nres := d.nres + 1 }, d.slotAt d.res)
  else ({ d with acq := (d.acq + 1) % d.slots, filled := d.filled - 1 }, d.slotAt d.acq)

/-- Slots counted filled from the oldest reserved one on, with the number of arrivals (08 R231). -/
def fill : Nat → CbDesc → Nat → CbDesc × Nat
  | 0, d, n => (d, n)
  | fuel + 1, d, n =>
    if 0 < d.nres && d.cmt.testBit d.cmtAt then
      fill fuel { d with cmt := d.cmt - 2 ^ d.cmtAt, filled := d.filled + 1, nres := d.nres - 1 } (n + 1)
    else (d, n)

/-- Slots counted free from the oldest acquired one on. -/
def drain : Nat → CbDesc → Nat → CbDesc × Nat
  | 0, d, n => (d, n)
  | fuel + 1, d, n =>
    if 0 < d.nacq && d.rel.testBit d.relAt then drain fuel { d with rel := d.rel - 2 ^ d.relAt, free := d.free + 1 } (n + 1)
    else (d, n)

/-- A slot given back: a commit (`commit`) or a release, with the number of arrivals, or none for a misuse (08 R231). -/
def giveBack (d : CbDesc) (commit : Bool) (t : Nat) : Option (CbDesc × Nat) :=
  match d.slotOf t with
  | none => none
  | some i =>
    if commit then
      if d.nres ≤ (i + d.slots - d.cmtAt) % d.slots || d.cmt.testBit i then none
      else some (fill 33 { d with cmt := d.cmt + 2 ^ i } 0)
    else
      if d.nacq ≤ (i + d.slots - d.relAt) % d.slots || d.rel.testBit i then none
      else some (drain 33 { d with rel := d.rel + 2 ^ i } 0)

/-- The object that takes the arrivals of a commit or a release. -/
def bo (d : CbDesc) (commit : Bool) : Option Nat :=
  let n := if commit then d.fillBo else d.freeBo
  if n = 0 then none else some (16 * n)

end CbDesc

namespace State

def cbDesc (s : State) (bid d : Nat) : CbDesc := CbDesc.ofNat (natOfBytes (s.scratchRead bid d 32))

def putCbDesc (s : State) (bid d : Nat) (x : CbDesc) : State := s.scratchPut bid d 32 x.toNat

/-- Alignment, 08 R210, range locks, then validity (08 R228). -/
def cbCheck (s : State) (core bid d : Nat) : Option Cause :=
  (s.objUse core bid d 32 32 true).orElse fun _ =>
    if (s.cbDesc bid d).valid (s.scratchSize bid) then none else some (Cause.misuse d)

/-- `n` arrivals of 1 at an object; none if it refuses them. -/
def arriveMany (s : State) (bid : Nat) (bo : Option Nat) (n : Nat) : Option State :=
  match bo with
  | none => some s
  | some o => (List.range n).foldl (fun a _ => a.bind fun s =>
      let r := s.arriveAt bid o 1
      if r.2 then some r.1 else none) (some s)

/-! ## Waiting requests (08 R232, R233) -/

/-- The requests of a block that may be granted at present, in the order in which they began to wait: the first of its
run, and for a copy the first copy at its descriptor. While stores have made the descriptor invalid, nothing is granted at it
(DESIGN CHOICE, log 91). -/
def firstGrant (s : State) (bid : Nat) : List BufReq → List BufReq → Option BufReq
  | _, [] => none
  | before, r :: rest =>
    let d := s.cbDesc bid r.off
    if d.valid (s.scratchSize bid) && 0 < d.count r.res && !before.any (fun q => q.off == r.off && q.res == r.res)
        && !(r.op.isSome && before.any fun q => q.off == r.off && q.op.isSome) then some r
    else s.firstGrant bid (before ++ [r]) rest

/-- A copy takes its slot: its scratchpad entry covers the whole slot from now on (08 R233). Its extent, tested at issue, is not
tested again against a SLOTSZ that stores have changed since (DESIGN CHOICE, log 91). -/
def giveSlot (s : State) (bid op slot size : Nat) : State :=
  match tget? s.ops op with
  | none => s
  | some o =>
    match o.kind with
    | .copy c =>
      let s := { s with ops := tput s.ops op { o with kind := .copy { c with slot := some slot } } }
      (s.modCluster (clusterOf o.core) fun k => { k with locks := k.locks.map fun (e : Nat × Lock) =>
        if e.2.op = op && e.2.range == .none then
          (e.1, { e.2 with range := .scr bid (slot / 16) ((slot + size - 1) / 16) }) else e }).holdLater op
    | _ => s

/-- A group's CBRES or CBACQ receives its slot. -/
def grantSlotTo (s : State) (gid slot : Nat) : State :=
  match s.nextWord gid with
  | some (o, r, _, i) =>
    let w? := match i with
      | .cbres w | .cbacq w => some w
      | _ => none
    match w? with
    | some w =>
      let act := activeLanes o.g s.choice w.sched r.set
      (s.modGroup gid fun g => writeLanes g w.d (act.map fun i => (i, [BitVec.ofNat 32 slot]))).advance gid []
    | none => s
  | none => s

/-- Waiting requests of a block granted in order, as many as its counts allow (08 R232). -/
def grantBuffers (s : State) (bid : Nat) : Nat → State
  | 0 => s
  | fuel + 1 =>
    match s.block? bid with
    | none => s
    | some b =>
      match s.firstGrant bid [] b.bufq with
      | none => s
      | some r =>
        let d := s.cbDesc bid r.off
        let t := d.take r.res
        let s := (s.putCbDesc bid r.off t.1).modBlock bid fun b => { b with bufq := b.bufq.erase r }
        (match r.op with
          | some op => s.giveSlot bid op t.2 d.slotSize
          | none => s.grantSlotTo r.gid t.2).grantBuffers bid fuel

end State

/-! ## The words (08 R229 to R231) -/

/-- CBINIT. -/
def execCbinit (w : VWord) (s : State) : Out :=
  runWord (.cbinit w) (fun c s =>
    match c.l0 with
    | none => .done s []
    | some l =>
      let d := (c.rd w.a l).toNat
      let b (k : Nat) : Nat := (c.rd w.b l k).toNat
      match s.objUse c.core c.bid d 32 32 true with
      | some x => c.trap x s
      | none =>
        let x : CbDesc := ⟨b 0, b 1, 0, b 3 / 65536, b 3 % 65536, b 2 % 256, 0, b 2 % 256, 0, 0, 0, 0, 0⟩
        let held := s.ops.any fun e => e.2.block == c.bid && match e.2.kind with
          | .copy y => y.cb && y.soff == d && y.slot.isSome
          | _ => false
        if 256 ≤ b 2 || !x.valid (s.scratchSize c.bid) || (c.o.b.bufq.any fun q => q.off == d) || held then
          c.trap (Cause.misuse d) s
        else .done (s.putCbDesc c.bid d x) []) s

/-- CBRES and CBACQ: the oldest slot of a run, a wait for it, or all ones where the word only tries (08 R230). -/
def Ctx.takeSlot (c : Ctx) (s : State) (w : VWord) (res : Bool) : WordOut :=
  match c.l0 with
  | none => .done s []
  | some l =>
    let d := (c.rd w.a l).toNat
    match s.cbCheck c.core c.bid d with
    | some x => c.trap x s
    | none =>
      let x := s.cbDesc c.bid d
      if 0 < x.count res && !(c.o.b.bufq.any fun q => q.off == d && q.res == res) then
        let t := x.take res
        c.write (s.putCbDesc c.bid d t.1) w.d fun _ => [BitVec.ofNat 32 t.2]
      else if w.ebit 5 then c.write s w.d fun _ => [0xFFFFFFFF]
      else .block (.buffer res d) (s.modBlock c.bid fun b => { b with bufq := b.bufq ++ [⟨d, res, c.gid, none⟩] })

/-- CBRES. -/
def execCbres (w : VWord) (s : State) : Out := runWord (.cbres w) (fun c s => c.takeSlot s w true) s

/-- CBACQ. -/
def execCbacq (w : VWord) (s : State) : Out := runWord (.cbacq w) (fun c s => c.takeSlot s w false) s

/-- CBCOMMIT and CBREL: a refused arrival changes nothing and is a misuse of its object (08 R219, R231). -/
def Ctx.giveSlot (c : Ctx) (s : State) (w : VWord) (commit : Bool) : WordOut :=
  match c.l0 with
  | none => .done s []
  | some l =>
    let d := (c.rd w.a l).toNat
    match s.cbCheck c.core c.bid d with
    | some x => c.trap x s
    | none =>
      let x := s.cbDesc c.bid d
      match x.giveBack commit (c.rd w.b l).toNat with
      | none => c.trap (Cause.misuse d) s
      | some (y, n) =>
        -- The arrivals write their object (08 R214).
        match if n = 0 then none else (x.bo commit).bind fun o => s.objLock c.core c.bid o 16 true with
        | some e => c.trap e s
        | none =>
          match (s.putCbDesc c.bid d y).arriveMany c.bid (x.bo commit) n with
          | none => c.trap (Cause.misuse ((x.bo commit).getD 0)) s
          | some s => .done (s.grantBuffers c.bid 64) []

/-- CBCOMMIT. -/
def execCbcommit (w : VWord) (s : State) : Out := runWord (.cbcommit w) (fun c s => c.giveSlot s w true) s

/-- CBREL. -/
def execCbrel (w : VWord) (s : State) : Out := runWord (.cbrel w) (fun c s => c.giveSlot s w false) s

/-! ## Lane queues (08 R234) -/

/-- The checks of a lane queue (04 R129). -/
def State.queueCheck (s : State) (core bid q : Nat) (write : Bool) : Option Cause :=
  (s.objUse core bid q 16 16 write).orElse fun _ => if (s.laneQueue bid q).valid then none else some (Cause.misuse q)

/-- LKQ.push. -/
def execLkqPush (w : VWord) (s : State) : Out :=
  runWord (.lkqPush w) (fun c s =>
    match c.l0 with
    | none => .done s []
    | some l =>
      let q := (c.rd w.a l).toNat
      match s.queueCheck c.core c.bid q true with
      | some x => c.trap x s
      | none =>
        let x := s.laneQueue c.bid q
        let taken := c.real.take (x.slots - x.avail)
        let offs := (List.range taken.length).map fun i => x.at_ ((x.tail + i) % 2 ^ 32)
        match s.itemCheck c.core c.bid true offs with
        | some e => c.trap e s
        | none =>
          let s := (offs.zip taken).foldl (fun s e => s.scratchPut c.bid e.1 8 (c.rdw w.b e.2).toNat) s
          let s := s.scratchPut c.bid (q + 12) 4 ((x.tail + taken.length) % 2 ^ 32)
          c.write s w.d fun i => [if taken.contains i then 0 else 1]) s

/-- LKQ.len. -/
def execLkqLen (w : VWord) (s : State) : Out :=
  runWord (.lkqLen w) (fun c s =>
    match c.l0 with
    | none => .done s []
    | some l =>
      let q := (c.rd w.a l).toNat
      match s.queueCheck c.core c.bid q false with
      | some x => c.trap x s
      | none => c.write s w.d fun _ => [BitVec.ofNat 32 (s.laneQueue c.bid q).avail]) s

/-! ## Resumption -/

/-- BLOCKED_WORD_RESUME (02 R24): a request that waits at a buffer is granted where its count allows. -/
def execBlockedWordResume (g : Nat) (s : State) : Out :=
  match (s.group? g).bind Group.blocked with
  | some (.buffer _ _) => .next (s.grantBuffers (g / 32) 64)
  | _ => .next (resumeWord s g (blockOver s))

end Sys2Proof.Machine
end

