-- ==== Sys2Proof/Machine/Manage.lean ====
section
/-! DEFINITION. The management controller's shared operations: commits of the catalogue, the words it builds, mailbox
records, and memory that stops existing (01 R17 to R20, 13 R355 to R358, 18 R470). -/

namespace Sys2Proof.Machine

namespace State

/-! ## The catalogue (01 R17 to R20) -/

/-- The commit in progress is written to its end, so that every reader finds it (01 R18). -/
def finishCommit (s : State) : State := { s with shown := s.catalogue, publishing := [] }

/-- The next word of the commit in progress is written: readers find it (01 R18). -/
def publishWord (s : State) : State :=
  match s.publishing with
  | [] => s
  | e :: t => { s with shown := s.shown.set e.1 e.2, publishing := t }

/-- One commit, after the one before: GEN rises, the words change, GEN_TAIL follows. The package goes by the new words from
here on; readers find them as they are written, in this order (01 R18, log 26). -/
def commit (s : State) (words : List (Nat × W64)) : State :=
  let g := s.catWord 0 + 1
  let cat := words.foldl (fun (c : List W64) e => c.set e.1 e.2) (s.catalogue.set 0 g)
  { s with catalogue := cat.set 31 g, shown := s.catalogue, publishing := (0, g) :: words ++ [(31, g)] }

/-- The copy of the configuration image in use (18 R472). -/
def imageUsed (s : State) : Image := if s.usesB then s.imageB else s.imageA

/-- The chiplet slots in a state of power. -/
def slotsIn (s : State) (p : SlotPower) : List Nat := (List.range 9).filter fun i => (s.chiplet i).power == p

/-- A mask of small numbers. -/
def maskOf (l : List Nat) : Nat := l.foldl (fun a i => a ||| 2 ^ i) 0

/-- Word 1 of the catalogue: cores of a chiplet, active count, spares and active slots. -/
def slotWord (s : State) : W64 :=
  let act := s.slotsIn .active
  BitVec.ofNat 64 (96 * 2 ^ 40 + act.length * 2 ^ 32 + maskOf (s.slotsIn .spare) * 2 ^ 16 + maskOf act)

/-- CHIPMAP with the slot of a logical chiplet, 15 for none. -/
def chipmapWith (s : State) (logical slot : Nat) : W64 := setField (s.catWord 2) (4 * logical) 4 slot

/-- Words 3 to 10: the state and live channels of a stack. -/
def stackWord (s : State) (k st : Nat) : W64 :=
  let l := (s.liveChannels.filter fun c => c / 32 == k).map (· % 32)
  BitVec.ofNat 64 (st * 2 ^ 38 + l.length * 2 ^ 32 + maskOf l)

/-- The STATE field of a stack as the catalogue has it. -/
def stackState (s : State) (k : Nat) : Nat := fieldOf (s.catWord (3 + k)) 38 2

/-- Words 11 to 26: an interleave set, with MIGRATING and PAUSED as given. -/
def setWordWith (s : State) (k : Nat) (migrating paused : Bool) : W64 :=
  match tget? s.sets k with
  | none => 0
  | some t =>
    if t.creating then 0
    else
      let live := t.mask.filter s.liveChannels.contains
      BitVec.ofNat 64 (2 ^ 63 + (if paused then 2 ^ 51 else 0) + (if migrating then 2 ^ 50 else 0)
        + (if t.linear then 2 ^ 49 else 0) + live.length * 2 ^ 40 + t.size)

/-- MIGRATING of a set as the catalogue has it. -/
def migratingBit (s : State) (k : Nat) : Bool := (s.catWord (11 + k)).getLsbD 50

/-- PAUSED of a set as the catalogue has it. -/
def pausedBit (s : State) (k : Nat) : Bool := (s.catWord (11 + k)).getLsbD 51

/-- The words of sets, MIGRATING and PAUSED kept. -/
def setWords (s : State) (sets : List Nat) : List (Nat × W64) :=
  sets.map fun k => (11 + k, s.setWordWith k (s.migratingBit k) (s.pausedBit k))

/-- The words of sets with MIGRATING set or cleared (13 R362). -/
def setWordsMigrating (s : State) (sets : List Nat) (x : Bool) : List (Nat × W64) :=
  sets.map fun k => (11 + k, s.setWordWith k x (s.pausedBit k))

/-- The words of sets with PAUSED set or cleared (13 R362). -/
def setWordsPaused (s : State) (sets : List Nat) (x : Bool) : List (Nat × W64) :=
  sets.map fun k => (11 + k, s.setWordWith k (s.migratingBit k) x)

/-- Word 28: the point in force, its classes, bit 7 of which is always set, and its ceiling (01 R17, 15 R423). -/
def curveWord (point classes ceil : Nat) : W64 :=
  BitVec.ofNat 64 (point % 2 ^ 8 * 2 ^ 24 + (classes % 2 ^ 7 + 2 ^ 7) * 2 ^ 16 + ceil % 2 ^ 16)

/-! ## Mailbox records (13 R357, 18 R470) -/

/-- A mailbox record as it is taken: its address and its words. -/
structure Mail where
  addr : Nat
  words : List W64
  deriving DecidableEq, Repr

namespace Mail

def word (m : Mail) (n : Nat) : W64 := m.words.getD n 0
def opcode (m : Mail) : Nat := fieldOf (m.word 0) 0 8
def linear (m : Mail) : Bool := (m.word 0).getLsbD 16
def set (m : Mail) : Nat := fieldOf (m.word 0) 20 4
def arg (m : Mail) : Nat := fieldOf (m.word 0) 32 8
def bytes (m : Mail) : Nat := (m.word 3).toNat
def chmask (m : Mail) : List Nat :=
  (List.range 256).filter fun c => (m.word (4 + c / 64)).getLsbD (c % 64)
/-- An RSV bit of 13 R357 is set. -/
def rsv (m : Mail) : Bool :=
  fieldOf (m.word 0) 8 8 != 0 || fieldOf (m.word 0) 17 3 != 0 || fieldOf (m.word 0) 24 8 != 0
    || fieldOf (m.word 0) 40 8 != 0 || m.word 1 != 0 || m.word 2 != 0

end Mail

/-- The opcodes that a command defines. -/
def mailDefined (op : Nat) : Bool := (1 ≤ op && op ≤ 5) || (16 ≤ op && op ≤ 20)

/-- STATUS of a record written, after the commit that the command made. -/
def mailStatus (s : State) (addr st : Nat) : State := s.finishCommit.homeWrite (addr + 6) (bytesOfNat 2 st)

/-- The result field of a negotiation (18 R470). -/
def mailResult (s : State) (addr : Nat) (v : BitVec 128) : State := s.homeWrite (addr + 48) (bytesOfNat 16 v.toNat)

/-- A command ends with its status; the result of a negotiation that is not 0 reads 0 (18 R470). -/
def mailEnd (s : State) (m : Mail) (st : Nat) : State :=
  (if m.opcode = 16 && st != 0 then s.mailResult m.addr 0 else s).mailStatus m.addr st

/-- The next record taken, where its opcode is one of those given: `body` gives the status, or none while the command is
not done. -/
def takeMail (s : State) (ops : Nat → Bool) (body : Mail → State → State × Option Nat) : State :=
  match s.mailbox, s.creating with
  | a :: rest, none =>
    let s := s.cleanPhys a.toNat 64
    let m : Mail := ⟨a.toNat, (List.range 8).map fun i => s.homeWord (a.toNat + 8 * i)⟩
    if !ops m.opcode then s
    else
      let s := { s with mailbox := rest }
      if !s.imageUsed.valid && m.opcode != 18 then s.mailEnd m 2
      else if !mailDefined m.opcode || m.rsv then s.mailEnd m 1
      else
        let r := body m s
        match r.2 with
        | some st => r.1.mailEnd m st
        | none => r.1
  | _, _ => s

/-! ## Memory that stops existing -/

/-- Addresses from `lo` up to `hi` hold nothing any longer: memory, cached copies and marks go (13 R355, R358, R360). -/
def forget (s : State) (lo hi : Nat) : State :=
  let gone (pline : Nat) : Bool := lo ≤ 128 * pline && 128 * pline < hi
  { s with
    mem := s.mem.filter fun e => !(lo ≤ e.1 && e.1 < hi)
    llc := s.llc.filter fun x => !gone x.pline
    chiplets := s.chiplets.map fun e => (e.1, { e.2 with l2 := e.2.l2.filter fun x => !gone x.pline })
    cores := s.cores.map fun e => (e.1, { e.2 with l1 := e.2.l1.filter fun x => !gone x.pline })
    bad := s.bad.filter fun l => !gone l }

end State

/-- MAILBOX_INVALID_COMMAND (18 R470). -/
def execMailboxInvalidCommand (s : State) : Out :=
  .next (s.takeMail (fun op => !State.mailDefined op) fun _ s => (s, some 1))

end Sys2Proof.Machine
end

