-- ==== Sys2Proof/Machine/Float.lean ====
section
/-! DEFINITION. Number formats, the rounding function, and exact floating-point arithmetic (03 R65 to R85). -/

namespace Sys2Proof.Machine

/-! ## Formats (03 R66 to R69) -/

/-- How a format uses its topmost codes. -/
inductive FmtKind where
  /-- Infinities and NaNs in the topmost exponent. -/
  | ieee
  /-- One NaN code and no infinity (E4M3). -/
  | noInf
  /-- Neither (E2M1). -/
  | plain
  deriving DecidableEq, Repr

/-- A floating-point format: exponent and mantissa field widths, bias, and its event counters. -/
structure Fmt where
  eb : Nat
  mb : Nat
  bias : Nat
  kind : FmtKind
  ev : EventFmt
  deriving DecidableEq, Repr

namespace Fmt

def f32 : Fmt := ⟨8, 23, 127, .ieee, .f32⟩
def f16 : Fmt := ⟨5, 10, 15, .ieee, .f16⟩
def bf16 : Fmt := ⟨8, 7, 127, .ieee, .bf16⟩
def e4m3 : Fmt := ⟨4, 3, 7, .noInf, .e4m3⟩
def e5m2 : Fmt := ⟨5, 2, 15, .ieee, .e5m2⟩
def e2m1 : Fmt := ⟨2, 1, 1, .plain, .e2m1⟩

/-- Bits of a code. -/
def bits (f : Fmt) : Nat := f.eb + f.mb + 1

/-- P, the precision. -/
def prec (f : Fmt) : Nat := f.mb + 1

/-- EMIN. -/
def emin (f : Fmt) : Int := 1 - (f.bias : Int)

/-- The topmost exponent field. -/
def etop (f : Fmt) : Nat := 2 ^ f.eb - 1

/-- MAX as an integer mantissa and the exponent of its unit. -/
def maxM (f : Fmt) : Nat :=
  match f.kind with
  | .ieee => 2 ^ f.prec - 1
  | .noInf => 2 ^ f.prec - 2
  | .plain => 2 ^ f.prec - 1

def maxE (f : Fmt) : Int :=
  match f.kind with
  | .ieee => (f.etop : Int) - 1 - f.bias - f.mb
  | _ => (f.etop : Int) - f.bias - f.mb

/-- The code of MAX, without its sign. -/
def maxCode (f : Fmt) : Nat :=
  match f.kind with
  | .ieee => f.etop * 2 ^ f.mb - 1
  | .noInf => f.etop * 2 ^ f.mb + 2 ^ f.mb - 2
  | .plain => f.etop * 2 ^ f.mb + 2 ^ f.mb - 1

/-- The code of +∞ (formats that have it). -/
def infCode (f : Fmt) : Nat := f.etop * 2 ^ f.mb

/-- The canonical NaN (03 R69); E2M1 has none and gives +0 (03 R80, log 16). -/
def nan (f : Fmt) : Nat :=
  match f.kind with
  | .ieee => f.etop * 2 ^ f.mb + 2 ^ (f.mb - 1)
  | .noInf => f.etop * 2 ^ f.mb + 2 ^ f.mb - 1
  | .plain => 0

/-- The sign bit of a code, and the code without it. -/
def neg (f : Fmt) (x : Nat) : Bool := x.testBit (f.bits - 1)
def mag (f : Fmt) (x : Nat) : Nat := x % 2 ^ (f.bits - 1)

/-- A code with a sign. -/
def signed (f : Fmt) (neg : Bool) (m : Nat) : Nat := if neg then m + 2 ^ (f.bits - 1) else m

def isNan (f : Fmt) (x : Nat) : Bool :=
  match f.kind with
  | .ieee => decide (f.infCode < f.mag x)
  | .noInf => f.mag x == f.nan
  | .plain => false

def isInf (f : Fmt) (x : Nat) : Bool := f.kind = .ieee && f.mag x == f.infCode

end Fmt

/-- The format of a float type code (02 R49). -/
def fmtOf (t : Nat) : Fmt :=
  match t with
  | 0x11 | 0x14 => .f16
  | 0x12 | 0x15 => .bf16
  | 0x16 => .e4m3
  | 0x17 => .e5m2
  | 0x18 => .e2m1
  | _ => .f32

/-! ## Exact values (03 R67, R70, R81) -/

/-- An extended real: NaN, an infinity, or ± m × 2^e. With `more`, the magnitude lies strictly between m × 2^e
and (m + 1) × 2^e. -/
inductive FVal where
  | nan
  | inf (neg : Bool)
  | num (neg : Bool) (m : Nat) (e : Int) (more : Bool)
  deriving DecidableEq, Repr

namespace FVal

def zero (neg : Bool) : FVal := .num neg 0 0 false

def isZero : FVal → Bool
  | .num _ 0 _ false => true
  | _ => false

def isNan : FVal → Bool
  | .nan => true
  | _ => false

def isInf : FVal → Bool
  | .inf _ => true
  | _ => false

/-- An integer. -/
def ofInt (x : Int) : FVal := .num (decide (x < 0)) x.natAbs 0 false

end FVal

/-- The value of a code (03 R67, R68). -/
def Fmt.value (f : Fmt) (x : Nat) : FVal :=
  let s := f.neg x
  if f.isNan x then .nan
  else if f.isInf x then .inf s
  else
    let e := f.mag x / 2 ^ f.mb
    let m := f.mag x % 2 ^ f.mb
    if e = 0 then .num s m (f.emin - f.mb) false
    else .num s (2 ^ f.mb + m) ((e : Int) - f.bias - f.mb) false

namespace FVal

/-- −x. -/
def opp : FVal → FVal
  | .nan => .nan
  | .inf s => .inf !s
  | .num s m e k => .num (!s) m e k

/-- The signed integer mantissa of a finite value at a smaller or equal exponent. -/
def atExp (neg : Bool) (m : Nat) (e e' : Int) : Int :=
  let v : Int := m * 2 ^ (e - e').toNat
  if neg then -v else v

/-- x + y, exact; `rdn` says that the mode is RDN, which gives −0 for an exact zero (03 R70). -/
def add (rdn : Bool) (x y : FVal) : FVal :=
  match x, y with
  | .nan, _ => .nan
  | _, .nan => .nan
  | .inf s, .inf t => if s = t then .inf s else .nan
  | .inf s, _ => .inf s
  | _, .inf t => .inf t
  | .num s m e _, .num t n k _ =>
    if m = 0 ∧ n = 0 then zero (if s = t then s else rdn)
    else
      let lo := min e k
      let v := atExp s m e lo + atExp t n k lo
      if v = 0 then zero rdn else .num (decide (v < 0)) v.natAbs lo false

/-- x × y, exact. -/
def mul (x y : FVal) : FVal :=
  match x, y with
  | .nan, _ => .nan
  | _, .nan => .nan
  | .inf s, .inf t => .inf (s != t)
  | .inf s, .num t n _ _ => if n = 0 then .nan else .inf (s != t)
  | .num s m _ _, .inf t => if m = 0 then .nan else .inf (s != t)
  | .num s m e _, .num t n k _ => .num (s != t) (m * n) (e + k) false

/-- The quotient of two magnitudes, to more than 64 bits. -/
def divMag (neg : Bool) (m : Nat) (e : Int) (n : Nat) (k : Int) : FVal :=
  let sh := 65 + Nat.log2 n
  .num neg (m * 2 ^ sh / n) (e - k - sh) (m * 2 ^ sh % n != 0)

/-- x / y (06 R178). -/
def div (x y : FVal) : FVal :=
  match x, y with
  | .nan, _ => .nan
  | _, .nan => .nan
  | .inf _, .inf _ => .nan
  | .inf s, .num t _ _ _ => .inf (s != t)
  | .num s _ _ _, .inf t => zero (s != t)
  | .num s m e _, .num t n k _ =>
    if n = 0 then (if m = 0 then .nan else .inf (s != t))
    else if m = 0 then zero (s != t)
    else divMag (s != t) m e n k

/-- The sum of a list of products and a first term, exact (03 R83, R84). -/
def sum (rdn : Bool) (x : FVal) (l : List FVal) : FVal := l.foldl (add rdn) x

end FVal

/-! ## Rounding (03 R75 to R78) -/

/-- Rounding modes (03 R75). -/
inductive RMode where
  | rne
  | rtz
  | rdn
  | rup
  | rst
  deriving DecidableEq, Repr

/-- The mode of a code (03 R75). -/
def modeOf (n : Nat) : RMode :=
  match n with
  | 1 => .rtz
  | 2 => .rdn
  | 3 => .rup
  | 4 => .rst
  | _ => .rne

/-- The random bits of element `k` from a source register (03 R77). -/
def rndOf (x : W32) (k : Nat) : Nat := (x.rotateRight (4 * k)).toNat % 65536

/-- Whether the magnitude lo + r / 2^k, with `more`, moves up to lo + 1 (03 R76); k is at least 17. -/
def movesUp (mode : RMode) (rnd : Nat) (neg : Bool) (lo r k : Nat) (more : Bool) : Bool :=
  if r = 0 && !more then false
  else
    match mode with
    | .rne =>
      if r < 2 ^ (k - 1) then false
      else if r = 2 ^ (k - 1) && !more then lo % 2 == 1
      else true
    | .rtz => false
    | .rup => !neg
    | .rdn => neg
    | .rst => decide (rnd * 2 ^ (k - 16) < r) || (more && rnd * 2 ^ (k - 16) == r)

/-- A magnitude over a spacing of 2^q: its floor in units of the spacing, whether it is inexact, and what it rounds
to. -/
def roundAt (mode : RMode) (rnd : Nat) (neg : Bool) (m : Nat) (e q : Int) (more : Bool) : Nat × Bool :=
  let m' := m * 2 ^ (e - (q - 17)).toNat
  let k := (q - min e (q - 17)).toNat
  let lo := m' / 2 ^ k
  let r := m' % 2 ^ k
  (if movesUp mode rnd neg lo r k more then lo + 1 else lo, r != 0 || more)

/-- A code and the kinds of events it counts. -/
abbrev Coded := Nat × List EventKind

/-- The code of n × 2^q, at most MAX, where q is the spacing of its binade or of the subnormals. -/
def Fmt.code (f : Fmt) (n : Nat) (q : Int) : Nat :=
  if n < 2 ^ f.mb then n
  else if n = 2 ^ f.prec then (q + 1 + f.bias + f.mb).toNat * 2 ^ f.mb
  else (q + f.bias + f.mb).toNat * 2 ^ f.mb + (n - 2 ^ f.mb)

/-- n × 2^q lies above MAX. -/
def Fmt.overMax (f : Fmt) (n : Nat) (q : Int) : Bool :=
  decide (f.maxE < q) && n != 0 || (q == f.maxE && decide (f.maxM < n))

/-- Round of 03 R76 of a finite value, with the saturation modifier. -/
def Fmt.round (f : Fmt) (mode : RMode) (rnd : Nat) (sat : Bool) (neg : Bool) (m : Nat) (e : Int) (more : Bool) : Coded :=
  if m = 0 then (f.signed neg 0, [])
  else
    let top := (Nat.log2 m : Int) + e
    let q := max top f.emin - f.prec + 1
    -- A magnitude far below the smallest spacing rounds as any such magnitude does.
    let tiny := decide (top < f.emin - 300)
    let r := roundAt mode rnd neg (if tiny then 1 else m) (if tiny then f.emin - 300 else e) q (more || tiny)
    let under := if decide (top < f.emin) && r.2 then [EventKind.underflow] else []
    if f.overMax r.1 q then
      let toMax := sat || f.kind != .ieee || mode == .rtz || (mode == .rup && neg) || (mode == .rdn && !neg)
      (f.signed neg (if toMax then f.maxCode else f.infCode), .overflow :: under)
    else (f.signed neg (f.code r.1 q), under)

/-- Round of any value; NaN is the canonical NaN and an infinity stays one (03 R69, R76). -/
def Fmt.roundVal (f : Fmt) (mode : RMode) (rnd : Nat) (sat : Bool) : FVal → Coded
  | .nan => (f.nan, [])
  | .inf s => (f.signed s f.infCode, [])
  | .num s m e more => f.round mode rnd sat s m e more

/-- The events of a result that depend on its operands (03 R79). -/
def Fmt.checked (f : Fmt) (ops : List FVal) (r : Coded) : Coded :=
  let n := if f.isNan r.1 && !ops.any FVal.isNan then [EventKind.nan] else []
  let i := if f.isInf r.1 && !ops.any FVal.isInf then [EventKind.infinity] else []
  (r.1, r.2 ++ n ++ i)

/-- An operation on values of a format: rounded once and checked. -/
def Fmt.result (f : Fmt) (mode : RMode) (rnd : Nat) (ops : List FVal) (x : FVal) : Coded :=
  f.checked ops (f.roundVal mode rnd false x)

/-- Round to an integer (03 R78): the magnitude. -/
def roundToInt (mode : RMode) (rnd : Nat) (neg : Bool) (m : Nat) (e : Int) : Nat :=
  (roundAt mode rnd neg m e 0 false).1

/-- A conversion to an integer type with limits (03 R65). -/
def toIntSat (mode : RMode) (rnd : Nat) (lo hi : Int) : FVal → Int
  | .nan => 0
  | .inf s => if s then lo else hi
  | .num s m e _ =>
    let v : Int := roundToInt mode rnd s m e
    max lo (min hi (if s then -v else v))

/-! ## Ordering (06 R179, R181) -/

/-- The order of codes that are not NaN, −0 equal to +0. -/
def Fmt.key (f : Fmt) (x : Nat) : Int := if f.neg x then -(f.mag x : Int) else f.mag x

/-- The order with −0 below +0. -/
def Fmt.keyZ (f : Fmt) (x : Nat) : Int := if f.neg x then -(f.mag x : Int) - 1 else f.mag x

/-- FMIN and FMAX of two codes (06 R179). -/
def Fmt.minMax (f : Fmt) (isMax num : Bool) (a b : Nat) : Nat :=
  if f.isNan a || f.isNan b then
    if num && !f.isNan a then a else if num && !f.isNan b then b else f.nan
  else if (if isMax then decide (f.keyZ b ≤ f.keyZ a) else decide (f.keyZ a ≤ f.keyZ b)) then a else b

/-- The class mask of a code (06 R182). -/
def Fmt.classOf (f : Fmt) (x : Nat) : Nat :=
  let s := f.neg x
  if f.isNan x then 256
  else if f.isInf x then (if s then 1 else 128)
  else if f.mag x = 0 then (if s then 8 else 16)
  else if f.mag x < 2 ^ f.mb then (if s then 4 else 32)
  else if s then 2 else 64

end Sys2Proof.Machine
end

