-- ==== Sys2Proof/Machine/RealFn.lean ====
section
/-! DEFINITION. The special functions: their special operands, and their values to more than 400 bits, so that one
rounding gives the correctly rounded result (06 R183, log 15). -/

namespace Sys2Proof.Machine

namespace RealFn

/-! ## Fixed-point numbers of 640 fraction bits -/

/-- Fraction bits. -/
def N : Nat := 640

/-- 1 in fixed point. -/
def one : Nat := 2 ^ N

/-- The floor of the square root, bit by bit from the top. -/
def isqrt (n : Nat) : Nat :=
  (List.range (Nat.log2 n / 2 + 1)).reverse.foldl (fun r k => if (r + 2 ^ k) * (r + 2 ^ k) ≤ n then r + 2 ^ k else r) 0

/-- Σ z^(2k+1) / (2k+1) with alternating signs where `alt`, for z of fixed point below 1/2. -/
def oddSeries (alt : Bool) (z : Nat) : Nat :=
  let z2 := z * z / one
  let r := (List.range 330).foldl (fun (a : Nat × Int) k =>
    let t : Int := (a.1 / (2 * k + 1) : Nat)
    (a.1 * z2 / one, if alt && k % 2 == 1 then a.2 - t else a.2 + t)) (z, 0)
  r.2.toNat

/-- ln 2 = 2 artanh (1/3). -/
def ln2 : Nat := 2 * oddSeries false (one / 3)

/-- π = 16 arctan (1/5) − 4 arctan (1/239). -/
def pi : Nat := 16 * oddSeries true (one / 5) - 4 * oddSeries true (one / 239)

/-- e^x for 0 ≤ x < 1. -/
def expFix (x : Nat) : Nat :=
  ((List.range 140).foldl (fun (a : Nat × Nat) k => (a.1 * x / one / (k + 1), a.2 + a.1)) (one, 0)).2

/-- sin x and cos x for 0 ≤ x < 1. -/
def sinFix (x : Nat) : Nat :=
  let x2 := x * x / one
  ((List.range 80).foldl (fun (a : Nat × Int) k =>
    (a.1 * x2 / one / ((2 * k + 2) * (2 * k + 3)), if k % 2 == 0 then a.2 + a.1 else a.2 - a.1)) (x, (0 : Int))).2.toNat

def cosFix (x : Nat) : Nat :=
  let x2 := x * x / one
  ((List.range 80).foldl (fun (a : Nat × Int) k =>
    (a.1 * x2 / one / ((2 * k + 1) * (2 * k + 2)), if k % 2 == 0 then a.2 + a.1 else a.2 - a.1)) (one, (0 : Int))).2.toNat

/-- A positive irrational value of fixed point, its last 64 bits dropped. -/
def near (neg : Bool) (v : Nat) (shift : Int := 0) : FVal := .num neg (v / 2 ^ 64) (shift - N + 64) true

/-- Just above 1 and just below 1. -/
def above1 : FVal := .num false (2 ^ 64) (-64) true
def below1 (neg : Bool) : FVal := .num neg (2 ^ 65 - 1) (-65) true

/-- m × 2^e in fixed point, for a magnitude below 2^64. -/
def fix (m : Nat) (e : Int) : Nat := if 0 ≤ e + N then m * 2 ^ (e + N).toNat else m / 2 ^ (-(e + N)).toNat

/-- m × 2^e < 2^k, for m > 0. -/
def below (m : Nat) (e : Int) (k : Int) : Bool := decide ((Nat.log2 m : Int) + e < k)

/-! ## The functions of a finite operand -/

/-- √(m × 2^e). -/
def sqrtMag (neg : Bool) (m : Nat) (e : Int) : FVal :=
  let par : Nat := (e % 2).toNat
  let v := m * 2 ^ (140 + par)
  let r := isqrt v
  .num neg r ((e - par) / 2 - 70) (r * r != v)

/-- 1 / √(m × 2^e). -/
def rsqrtMag (m : Nat) (e : Int) : FVal :=
  let par : Nat := (e % 2).toNat
  let n := m * 2 ^ par
  let t := 66 + Nat.log2 n
  let r := isqrt (2 ^ (2 * t) / n)
  .num false r (-((e - par) / 2) - t) (r * r * n != 2 ^ (2 * t))

/-- 2^a. -/
def exp2Mag (neg : Bool) (m : Nat) (e : Int) : FVal :=
  if m = 0 then .num false 1 0 false
  else if below m e (-70) then (if neg then below1 false else above1)
  else if !below m e 9 then .num false (2 ^ 64) (if neg then -600 else 200) true
  else
    let v := fix m e
    let k : Int := if neg then -((v + one - 1) / one : Nat) else (v / one : Nat)
    let f : Nat := if neg then (-(v : Int) - k * one).toNat else v % one
    if f = 0 then .num false 1 k false else near false (expFix (f * ln2 / one)) k

/-- log2 (m × 2^e), for m > 0. -/
def log2Mag (m : Nat) (e : Int) : FVal :=
  let L := Nat.log2 m
  let x := m * 2 ^ N / 2 ^ L
  let E : Int := L + e
  let big := decide (3 * one ≤ 2 * x)
  let E := if big then E + 1 else E
  let num : Int := if big then (x : Int) - 2 * one else (x : Int) - one
  let den : Nat := if big then x + 2 * one else x + one
  if num = 0 then .ofInt E
  else
    let z := num.natAbs * one / den
    let l : Int := (2 * oddSeries false z * one / ln2 : Nat)
    let v : Int := E * one + (if num < 0 then -l else l)
    near (decide (v < 0)) v.natAbs

/-- sin (π u) and cos (π u) for a dyadic u = m × 2^e of [0, 1/2], u in fixed point. -/
def sinHalf (neg : Bool) (u : Nat) : FVal :=
  if 4 * u ≤ one then near neg (sinFix (u * pi / one))
  else
    let v := one / 2 - u
    if v = 0 then .num neg 1 0 false
    else if v < 2 ^ (N - 100) then below1 neg
    else near neg (cosFix (v * pi / one))

/-- sin (π a), by the half-turns of a. -/
def sinMag (neg : Bool) (m : Nat) (e : Int) : FVal :=
  if 0 ≤ e then .zero neg
  else
    let v := fix m e % (2 * one)
    let s := neg != decide (one ≤ v)
    let w := v % one
    if w = 0 then .zero neg
    else sinHalf s (if 2 * w ≤ one then w else one - w)

/-- cos (π a) = sin (π (1/2 − a)), for a reduced below 2. -/
def cosMag (m : Nat) (e : Int) : FVal :=
  if 0 ≤ e then .num (decide (e = 0) && m % 2 == 1) 1 0 false
  else
    let v := fix m e % (2 * one)
    let w := if v ≤ one then v else 2 * one - v
    let s := decide (one < 2 * w)
    let d := if s then w - one / 2 else one / 2 - w
    if m = 0 then .num false 1 0 false
    else if d = 0 then .zero false
    else if below m e (-200) then below1 false
    else sinHalf s d

/-- tanh (m × 2^e) for m > 0. -/
def tanhMag (neg : Bool) (m : Nat) (e : Int) : FVal :=
  if below m e (-60) then .num neg (m * 2 ^ 64 - 1) (e - 64) true
  else if !below m e 7 then below1 neg
  else
    let y := 2 * fix m e * one / ln2
    let t := expFix (y % one * ln2 / one) * 2 ^ (y / one)
    near neg ((t - one) * one / (t + one))

end RealFn

/-! ## The special functions (06 R183) -/

/-- FRCP. -/
def frcpVal (x : FVal) : FVal := FVal.div (.num false 1 0 false) x

/-- FRSQ. -/
def frsqVal : FVal → FVal
  | .nan => .nan
  | .inf s => if s then .nan else .zero false
  | .num s m e _ => if m = 0 then .inf s else if s then .nan else RealFn.rsqrtMag m e

/-- FSQRT. -/
def fsqrtVal : FVal → FVal
  | .nan => .nan
  | .inf s => if s then .nan else .inf false
  | .num s m e _ => if m = 0 then .zero s else if s then .nan else RealFn.sqrtMag false m e

/-- FEXP2. -/
def fexp2Val : FVal → FVal
  | .nan => .nan
  | .inf s => if s then .zero false else .inf false
  | .num s m e _ => RealFn.exp2Mag s m e

/-- FLOG2. -/
def flog2Val : FVal → FVal
  | .nan => .nan
  | .inf s => if s then .nan else .inf false
  | .num s m e _ => if m = 0 then .inf true else if s then .nan else RealFn.log2Mag m e

/-- FSIN. -/
def fsinVal : FVal → FVal
  | .nan => .nan
  | .inf _ => .nan
  | .num s m e _ => if m = 0 then .zero s else RealFn.sinMag s m e

/-- FCOS. -/
def fcosVal : FVal → FVal
  | .nan => .nan
  | .inf _ => .nan
  | .num _ m e _ => RealFn.cosMag m e

/-- FTANH. -/
def ftanhVal : FVal → FVal
  | .nan => .nan
  | .inf s => .num s 1 0 false
  | .num s m e _ => if m = 0 then .zero s else RealFn.tanhMag s m e

end Sys2Proof.Machine
end

