-- ==== Sys2Proof/Machine/VectorFloat.lean ====
section
/-! DEFINITION. Floating-point words of the vector datapath: arithmetic, special functions, conversions, dot products
and block scales (03 R65 to R87, 06 R177 to R194). -/

namespace Sys2Proof.Machine

/-! ## Words of float elements -/

/-- The registers and events of one lane. -/
abbrev FpLane := List W32 × List FpEvent

/-- Results of a format laid out in `n` registers (03 R66, R79). -/
def layCodes (f : Fmt) (n : Nat) (l : List Coded) : FpLane :=
  (regsOfNat n (ofElems f.bits (l.map (·.1))), (l.map fun r => r.2.map fun k => (f.ev, k)).flatten)

/-- Operations on the elements of one, two and three operands; the first argument counts elements. -/
def fpOp1 (t : Nat) (f : Nat → Nat → Coded) (a : Nat) : FpLane :=
  layCodes (fmtOf t) (tyRegs t) ((elems (fmtOf t).bits (32 * tyRegs t) a).mapIdx f)

def fpOp2 (t : Nat) (f : Nat → Nat → Nat → Coded) (a b : Nat) : FpLane :=
  let n := (fmtOf t).bits
  let m := 32 * tyRegs t
  layCodes (fmtOf t) (tyRegs t) (((elems n m a).zip (elems n m b)).mapIdx fun k x => f k x.1 x.2)

def fpOp3 (t : Nat) (f : Nat → Nat → Nat → Nat → Coded) (a b x : Nat) : FpLane :=
  let n := (fmtOf t).bits
  let m := 32 * tyRegs t
  layCodes (fmtOf t) (tyRegs t)
    (((elems n m a).zip ((elems n m b).zip (elems n m x))).mapIdx fun k y => f k y.1 y.2.1 y.2.2)

namespace Ctx

/-- The width of a float operand of a type. -/
def fopnd (c : Ctx) (t : Nat) (f : Src) (i : Nat) : Nat := c.rdn f i (tyRegs t)

/-- The events of the results that a word writes: those of lanes that are not helper lanes, and none where D is 124
(03 R87). -/
def countLanes (c : Ctx) (s : State) (d : BitVec 7) (r : List (Nat × FpLane)) : State :=
  if d = 124 then s
  else s.countEvents c.lid ((r.filter fun e => c.real.contains e.1).map fun e => e.2.2).flatten

/-- A short-latency float word. -/
def fpWrite (c : Ctx) (s : State) (d : BitVec 7) (f : Nat → FpLane) : WordOut :=
  let r := c.act.map fun i => (i, f i)
  .done ((c.countLanes s d r).modGroup c.gid fun g => writeLanes g d (r.map fun e => (e.1, e.2.1))) []

/-- A long-latency float word. -/
def fpLong (c : Ctx) (s : State) (d : BitVec 7) (f : Nat → FpLane) : WordOut :=
  c.long s .plain d fun s =>
    let r := c.act.map fun i => (i, f i)
    .ok (c.countLanes s d r, resultKeys d (r.map fun e => (e.1, e.2.1.map some)))

/-- The random bits of element `k` (03 R77). -/
def rnd (c : Ctx) (w : VWord) (i k : Nat) : Nat := rndOf (c.rd w.c i) k

end Ctx

/-- The mode of a word with all five modes, or with RNE and RST alone (06 R160). -/
def fMode (w : VWord) : RMode := if w.c.reg = noReg then modeOf w.md else .rst
def fMode2 (w : VWord) : RMode := if w.c.reg = noReg then .rne else .rst

/-! ## Arithmetic (06 R177, R178) -/

/-- A two-operand operation of a word, rounded once. -/
def arith2 (w : VWord) (f : FVal → FVal → FVal) (rnd : Nat → Nat) (a b : Nat) : FpLane :=
  let F := fmtOf w.ty
  fpOp2 w.ty (fun k x y => F.result (fMode w) (rnd k) [F.value x, F.value y] (f (F.value x) (F.value y))) a b

/-- A function of one operand of a word, rounded once. -/
def arith1 (w : VWord) (f : FVal → FVal) (rnd : Nat → Nat) (a : Nat) : FpLane :=
  let F := fmtOf w.ty
  fpOp1 w.ty (fun k x => F.result (fMode w) (rnd k) [F.value x] (f (F.value x))) a

/-- FADD. -/
def execFadd (w : VWord) (s : State) : Out :=
  runWord (.fadd w) (fun c s => c.fpWrite s w.d fun i =>
    arith2 w (FVal.add ((fMode w) == .rdn)) (c.rnd w i) (c.fopnd w.ty w.a i) (c.fopnd w.ty w.b i)) s

/-- FSUB. -/
def execFsub (w : VWord) (s : State) : Out :=
  runWord (.fsub w) (fun c s => c.fpWrite s w.d fun i =>
    arith2 w (fun x y => FVal.add ((fMode w) == .rdn) x y.opp) (c.rnd w i) (c.fopnd w.ty w.a i) (c.fopnd w.ty w.b i)) s

/-- FMUL. -/
def execFmul (w : VWord) (s : State) : Out :=
  runWord (.fmul w) (fun c s => c.fpWrite s w.d fun i =>
    arith2 w (FVal.mul) (c.rnd w i) (c.fopnd w.ty w.a i) (c.fopnd w.ty w.b i)) s

/-- FMA: one rounding, mode E[6:5]. -/
def execFma (w : VWord) (s : State) : Out :=
  runWord (.fma w) (fun c s => c.fpWrite s w.d fun i =>
    let F := fmtOf w.ty
    let m := modeOf w.md
    fpOp3 w.ty (fun _ x y z => F.result m 0 [F.value x, F.value y, F.value z]
        (FVal.add (m == .rdn) (FVal.mul (F.value x) (F.value y)) (F.value z)))
      (c.fopnd w.ty w.a i) (c.fopnd w.ty w.b i) (c.fopnd w.ty w.c i)) s

/-- FDIV. -/
def execFdiv (w : VWord) (s : State) : Out :=
  runWord (.fdiv w) (fun c s => c.fpLong s w.d fun i =>
    arith2 w (FVal.div) (c.rnd w i) (c.fopnd w.ty w.a i) (c.fopnd w.ty w.b i)) s

/-! ## Selection and comparison (06 R179 to R182) -/

/-- FMIN and FMAX: no rounding, no event. -/
def minMaxLane (w : VWord) (isMax : Bool) (a b : Nat) : FpLane :=
  fpOp2 w.ty (fun _ x y => ((fmtOf w.ty).minMax isMax (w.ebit 5) x y, [])) a b

/-- FMIN. -/
def execFmin (w : VWord) (s : State) : Out :=
  runWord (.fmin w) (fun c s => c.fpWrite s w.d fun i =>
    minMaxLane w false (c.fopnd w.ty w.a i) (c.fopnd w.ty w.b i)) s

/-- FMAX. -/
def execFmax (w : VWord) (s : State) : Out :=
  runWord (.fmax w) (fun c s => c.fpWrite s w.d fun i =>
    minMaxLane w true (c.fopnd w.ty w.a i) (c.fopnd w.ty w.b i)) s

/-- FABS. -/
def execFabs (w : VWord) (s : State) : Out :=
  runWord (.fabs w) (fun c s => c.fpWrite s w.d fun i =>
    let F := fmtOf w.ty
    fpOp1 w.ty (fun _ x => (if F.isNan x then F.nan else F.mag x, [])) (c.fopnd w.ty w.a i)) s

/-- FNEG. -/
def execFneg (w : VWord) (s : State) : Out :=
  runWord (.fneg w) (fun c s => c.fpWrite s w.d fun i =>
    let F := fmtOf w.ty
    fpOp1 w.ty (fun _ x => (if F.isNan x then F.nan else F.signed (!F.neg x) (F.mag x), [])) (c.fopnd w.ty w.a i)) s

/-- The condition of FCMP (06 R181). -/
def fcmpCond (f : Fmt) (m : Nat) (a b : Nat) : Bool :=
  let un := f.isNan a || f.isNan b
  match m with
  | 0 => !un && f.key a == f.key b
  | 1 => !un && decide (f.key a < f.key b)
  | 2 => !un && decide (f.key a ≤ f.key b)
  | _ => un

/-- FCMP. -/
def execFcmp (w : VWord) (s : State) : Out :=
  runWord (.fcmp w) (fun c s => c.fpWrite s w.d fun i =>
    let F := fmtOf w.ty
    fpOp2 w.ty (fun _ x y => (if fcmpCond F w.md x y then 2 ^ F.bits - 1 else 0, []))
      (c.fopnd w.ty w.a i) (c.fopnd w.ty w.b i)) s

/-- FCLASS. -/
def execFclass (w : VWord) (s : State) : Out :=
  runWord (.fclass w) (fun c s => c.fpWrite s w.d fun i =>
    fpOp1 w.ty (fun _ x => ((fmtOf w.ty).classOf x, [])) (c.fopnd w.ty w.a i)) s

/-! ## Special functions, long-latency (06 R183) -/

/-- FRCP. -/
def execFrcp (w : VWord) (s : State) : Out :=
  runWord (.frcp w) (fun c s => c.fpLong s w.d fun i => arith1 w frcpVal (c.rnd w i) (c.fopnd w.ty w.a i)) s

/-- FRSQ. -/
def execFrsq (w : VWord) (s : State) : Out :=
  runWord (.frsq w) (fun c s => c.fpLong s w.d fun i => arith1 w frsqVal (c.rnd w i) (c.fopnd w.ty w.a i)) s

/-- FSQRT. -/
def execFsqrt (w : VWord) (s : State) : Out :=
  runWord (.fsqrt w) (fun c s => c.fpLong s w.d fun i => arith1 w fsqrtVal (c.rnd w i) (c.fopnd w.ty w.a i)) s

/-- FEXP2. -/
def execFexp2 (w : VWord) (s : State) : Out :=
  runWord (.fexp2 w) (fun c s => c.fpLong s w.d fun i => arith1 w fexp2Val (c.rnd w i) (c.fopnd w.ty w.a i)) s

/-- FLOG2. -/
def execFlog2 (w : VWord) (s : State) : Out :=
  runWord (.flog2 w) (fun c s => c.fpLong s w.d fun i => arith1 w flog2Val (c.rnd w i) (c.fopnd w.ty w.a i)) s

/-- FSIN. -/
def execFsin (w : VWord) (s : State) : Out :=
  runWord (.fsin w) (fun c s => c.fpLong s w.d fun i => arith1 w fsinVal (c.rnd w i) (c.fopnd w.ty w.a i)) s

/-- FCOS. -/
def execFcos (w : VWord) (s : State) : Out :=
  runWord (.fcos w) (fun c s => c.fpLong s w.d fun i => arith1 w fcosVal (c.rnd w i) (c.fopnd w.ty w.a i)) s

/-- FTANH. -/
def execFtanh (w : VWord) (s : State) : Out :=
  runWord (.ftanh w) (fun c s => c.fpLong s w.d fun i => arith1 w ftanhVal (c.rnd w i) (c.fopnd w.ty w.a i)) s

/-! ## Rounding to integers and conversion (06 R184 to R188) -/

/-- Round to an integer of a code, in its format (03 R78, 06 R184). -/
def frndCode (f : Fmt) (mode : RMode) (rnd x : Nat) : Nat :=
  match f.value x with
  | .nan => f.nan
  | .inf s => f.signed s f.infCode
  | .num s m e _ => if m = 0 then x else (f.round .rne 0 false s (roundToInt mode rnd s m e) 0 false).1

/-- FRND. -/
def execFrnd (w : VWord) (s : State) : Out :=
  runWord (.frnd w) (fun c s => c.fpWrite s w.d fun i =>
    fpOp1 w.ty (fun k x => (frndCode (fmtOf w.ty) (fMode w) (c.rnd w i k) x, [])) (c.fopnd w.ty w.a i)) s

/-- A conversion from FP32 to a narrower format (03 R80, 06 R186). -/
def narrow (f : Fmt) (mode : RMode) (rnd : Nat) (sat : Bool) (v : FVal) : Coded :=
  match v with
  | .nan => (f.nan, if f.kind = .plain then [.nan] else [])
  | .inf s => if sat || f.kind != .ieee then (f.signed s f.maxCode, [.overflow]) else (f.signed s f.infCode, [])
  | .num s m e more => f.checked [v] (f.round mode rnd sat s m e more)

/-- CVTF, narrowing. -/
def execCvtf (w : VWord) (s : State) : Out :=
  runWord (.cvtf w) (fun c s => c.fpWrite s w.d fun i =>
    let F := fmtOf w.ty
    let n := (cvtfNarrow w.ty).getD (1, 1)
    let vals := (List.range n.1).map (fun k => c.rd w.a i k) ++ (List.range n.1).map fun k => c.rd w.b i k
    layCodes F n.2 (vals.mapIdx fun k v => narrow F (fMode2 w) (c.rnd w i k) (w.ebit 5) (Fmt.f32.value v.toNat))) s

/-- CVTF, widening: exact. -/
def execCvtfWide (w : VWord) (s : State) : Out :=
  runWord (.cvtfWide w) (fun c s => c.fpWrite s w.d fun i =>
    let F := fmtOf w.ty
    let n := (cvtfWiden w.ty).getD (1, 2)
    let all := elems F.bits (32 * n.1) (c.rdn w.a i n.1)
    let part := (all.drop (if w.ty = 0x18 && w.ebit 5 then 4 else 0)).take n.2
    layCodes .f32 n.2 (part.map fun x => Fmt.f32.roundVal .rne 0 false (F.value x))) s

/-- CVTI (03 R65, 06 R187). -/
def execCvti (w : VWord) (s : State) : Out :=
  runWord (.cvti w) (fun c s => c.fpWrite s w.d fun i =>
    let n := tyBits w.ty
    let src := if w.ty = 4 || w.ty = 0xC then 2 else 1
    let lo : Int := if isSint w.ty then -(2 : Int) ^ (n - 1) else 0
    let hi : Int := if isSint w.ty then (2 : Int) ^ (n - 1) - 1 else (2 : Int) ^ n - 1
    let l := (List.range src).map fun k =>
      wrapInt n (toIntSat (fMode w) (c.rnd w i k) lo hi (Fmt.f32.value (c.rd w.a i k).toNat))
    (regsOfNat (tyRegs w.ty) (ofElems n l), [])) s

/-- ICVTF (06 R188). -/
def execIcvtf (w : VWord) (s : State) : Out :=
  runWord (.icvtf w) (fun c s => c.fpWrite s w.d fun i =>
    let n := tyBits w.ty
    let l := elems n (32 * tyRegs w.ty) (c.rdn w.a i (tyRegs w.ty))
    let v (x : Nat) : FVal := .ofInt (if isSint w.ty then sextInt n x else x)
    (regsOfNat l.length (ofElems 32 (l.mapIdx fun k x => (Fmt.f32.roundVal (fMode w) (c.rnd w i k) false (v x)).1)), [])) s

/-! ## Dot products (03 R83, 06 R189) -/

/-- FDOT2 and FDOT4: exact products and sum, one rounding. -/
def fdot (t : Nat) (mode : RMode) (a b x : Nat) : FpLane :=
  let F := fmtOf t
  let as := (elems F.bits 32 a).map F.value
  let bs := (elems F.bits 32 b).map F.value
  let c := Fmt.f32.value x
  layCodes .f32 1 [Fmt.f32.result mode 0 (c :: (as ++ bs)) (FVal.sum (mode == .rdn) c (List.zipWith FVal.mul as bs))]

/-- FDOT2. -/
def execFdot2 (w : VWord) (s : State) : Out :=
  runWord (.fdot2 w) (fun c s => c.fpWrite s w.d fun i =>
    fdot w.ty (modeOf w.md) (c.rd w.a i).toNat (c.rd w.b i).toNat (c.rd w.c i).toNat) s

/-- FDOT4. -/
def execFdot4 (w : VWord) (s : State) : Out :=
  runWord (.fdot4 w) (fun c s => c.fpWrite s w.d fun i =>
    fdot w.ty (modeOf w.md) (c.rd w.a i).toNat (c.rd w.b i).toNat (c.rd w.c i).toNat) s

/-! ## Block scales (03 R72 to R74, 06 R190 to R194) -/

/-- SCACC (06 R194). -/
def scacc (d p : W32) (ea eb : Nat) : FpLane :=
  let acc := Fmt.f32.value d.toNat
  if ea = 255 || eb = 255 || acc.isNan then ([BitVec.ofNat 32 Fmt.f32.nan], [])
  else if acc.isInf then ([d], [])
  else
    let x := sextInt 32 p.toNat
    let v : FVal := if x = 0 then .zero false else .num (decide (x < 0)) x.natAbs ((ea : Int) + eb - 254) false
    layCodes .f32 1 [Fmt.f32.result .rne 0 [acc] (FVal.add false acc v)]

/-- SCACC: D is read in the lane itself. -/
def execScacc (w : VWord) (s : State) : Out :=
  runWord (.scacc w) (fun c s => c.fpWrite s w.d fun i =>
    scacc (c.rdd w.d i) (c.rd w.a i) ((c.rd w.b i).toNat % 256) ((c.rd w.c i).toNat % 256)) s

/-- SCALEX of one element (06 R193). -/
def scalex (f : Fmt) (mode : RMode) (rnd : Nat) (sat : Bool) (k : Int) (x : Nat) : Coded :=
  match f.value x with
  | .nan => (f.nan, [])
  | .inf _ => (x, [])
  | .num s m e more => if m = 0 then (x, []) else f.checked [f.value x] (f.round mode rnd sat s m (e + k) more)

/-- SCALEX. -/
def execScalex (w : VWord) (s : State) : Out :=
  runWord (.scalex w) (fun c s => c.fpWrite s w.d fun i =>
    let F := fmtOf w.ty
    let b := (c.rd w.b i).toNat
    let k : Int := if w.ebit 5 then (b % 256 : Nat) - 127 else sextInt 32 b
    fpOp1 w.ty (fun j x => if w.ebit 5 && b % 256 == 255 then (F.nan, [])
      else scalex F (fMode2 w) (c.rnd w i j) (w.ebit 6) k x) (c.rd w.a i).toNat) s

/-- Mantissa bits of a bfp type, and elements in a word (03 R74). -/
def bfpBits (t : Nat) : Nat := t - 0x17
def bfpCount (m : Nat) : Nat := 32 / m

/-- The scale of BFPPACK.scale (06 R190). -/
def bfpScale (m : Nat) (x : Nat) : Nat :=
  match Fmt.f32.value (Fmt.f32.mag x) with
  | .nan => 255
  | .inf _ => 254
  | .num _ n e _ =>
    if n = 0 then 0 else (max 0 (min 254 ((Nat.log2 n : Int) + e + 127 - ((m : Int) - 2)))).toNat

/-- BFPPACK.scale. -/
def execBfppackScale (w : VWord) (s : State) : Out :=
  runWord (.bfppackScale w) (fun c s => c.fpWrite s w.d fun i =>
    ([BitVec.ofNat 32 (bfpScale (bfpBits w.ty) (c.rd w.a i).toNat)], [])) s

/-- |n × 2^e| compared with 2^k: it is at least, and it is above. -/
def magGe (n : Nat) (e : Int) (k : Nat) : Bool := decide (2 ^ k * 2 ^ (-e).toNat ≤ n * 2 ^ e.toNat)
def magGt (n : Nat) (e : Int) (k : Nat) : Bool := decide (2 ^ k * 2 ^ (-e).toNat < n * 2 ^ e.toNat)

/-- A mantissa of BFPPACK and its events (06 R191). -/
def bfpMantissa (m : Nat) (mode : RMode) (rnd e : Nat) (v : FVal) : Int × List EventKind :=
  let top : Int := (2 : Int) ^ (m - 1)
  if e = 255 then (0, [])
  else
    match v with
    | .nan => (0, [])
    | .inf s => (if s then -top else top - 1, [.overflow])
    | .num s n k _ =>
      let k' := k - ((e : Int) - 127)
      let q : Int := roundToInt mode rnd s n k'
      let q := if s then -q else q
      let above := if s then magGt n k' (m - 1) else n != 0 && magGe n k' (m - 1)
      (max (-top) (min (top - 1) q),
        (if above then [EventKind.overflow] else []) ++ (if n != 0 && q == 0 then [EventKind.underflow] else []))

/-- BFPPACK: the elements it selects are replaced, the rest of D is kept (06 R191). -/
def bfppack (m : Nat) (mode : RMode) (rnd : Nat → Nat) (d e k0 : Nat) (v : List FVal) : FpLane :=
  let r := ((v.mapIdx fun i x => (k0 + i, bfpMantissa m mode (rnd i) e x)).filter fun x => decide (x.1 < bfpCount m))
  let put (d : Nat) (x : Nat × (Int × List EventKind)) : Nat :=
    let at_ := m * x.1
    d % 2 ^ at_ + wrapInt m x.2.1 * 2 ^ at_ + d / 2 ^ (at_ + m) * 2 ^ (at_ + m)
  ([BitVec.ofNat 32 (r.foldl put d)], (r.map fun x => x.2.2.map fun k => (EventFmt.bfp, k)).flatten)

/-- BFPPACK. -/
def execBfppack (w : VWord) (s : State) : Out :=
  runWord (.bfppack w) (fun c s => c.fpWrite s w.d fun i =>
    let b := (c.rd w.b i).toNat
    bfppack (bfpBits w.ty) (fMode2 w) (c.rnd w i) (c.rdd w.d i).toNat (b % 256) (b / 256 % 256)
      ((List.range 4).map fun k => Fmt.f32.value (c.rd w.a i k).toNat)) s

/-- An element of BFPUNPK (06 R192). -/
def bfpValue (m e x j : Nat) : Coded :=
  if bfpCount m ≤ j then (0, [])
  else if e = 255 then (Fmt.f32.nan, [])
  else
    let q := sextInt m (x / 2 ^ (m * j) % 2 ^ m)
    let v : FVal := .num (decide (q < 0)) q.natAbs ((e : Int) - 127) false
    Fmt.f32.result .rne 0 [] v

/-- BFPUNPK. -/
def execBfpunpk (w : VWord) (s : State) : Out :=
  runWord (.bfpunpk w) (fun c s => c.fpWrite s w.d fun i =>
    let b := (c.rd w.b i).toNat
    layCodes .f32 4 ((List.range 4).map fun k =>
      bfpValue (bfpBits w.ty) (b % 256) (c.rd w.a i).toNat (b / 256 % 256 + k))) s

end Sys2Proof.Machine
end

