-- ==== Sys2Proof/Machine/VectorInt.lean ====
section
/-! DEFINITION. Integer words of the vector datapath: arithmetic, immediates, logic, shifts, bit operations, moves,
repacking and dot products (03 R62 to R64, 06 R157 to R176). -/

namespace Sys2Proof.Machine

/-! ## Elements (03 R62, R63, 06 R158) -/

/-- An element of an integer type as an integer. -/
def elemInt (t x : Nat) : Int := if isSint t then sextInt (tyBits t) x else (x : Int)

/-- The limits of an integer type (03 R63). -/
def intMin (t : Nat) : Int := if isSint t then -(2 : Int) ^ (tyBits t - 1) else 0
def intMax (t : Nat) : Int := if isSint t then (2 : Int) ^ (tyBits t - 1) - 1 else (2 : Int) ^ tyBits t - 1

/-- Saturation to a type (03 R63). -/
def satInt (t : Nat) (x : Int) : Int := max (intMin t) (min (intMax t) x)

/-- All ones of an element where a condition holds (06 R165). -/
def maskIf (b : Bool) : Int := if b then -1 else 0

/-- An operation of one, two or three operands on the elements of a type; results are reduced to the element. -/
def intOp1 (t : Nat) (f : Int → Int) (a : Nat) : List W32 :=
  let n := tyBits t
  regsOfNat (tyRegs t) (ofElems n ((elems n (32 * tyRegs t) a).map fun x => wrapInt n (f (elemInt t x))))

def intOp2 (t : Nat) (f : Int → Int → Int) (a b : Nat) : List W32 :=
  let n := tyBits t
  let m := 32 * tyRegs t
  regsOfNat (tyRegs t) (ofElems n (List.zipWith (fun x y => wrapInt n (f (elemInt t x) (elemInt t y)))
    (elems n m a) (elems n m b)))

def intOp3 (t : Nat) (f : Int → Int → Int → Int) (a b c : Nat) : List W32 :=
  let n := tyBits t
  let m := 32 * tyRegs t
  regsOfNat (tyRegs t) (ofElems n (List.zipWith (fun (xy : Int × Int) z => wrapInt n (f xy.1 xy.2 (elemInt t z)))
    (List.zipWith (fun x y => (elemInt t x, elemInt t y)) (elems n m a) (elems n m b)) (elems n m c)))

/-- The same on the elements as numbers of their width. -/
def natOp1 (t : Nat) (f : Nat → Nat) (a : Nat) : List W32 :=
  let n := tyBits t
  regsOfNat (tyRegs t) (ofElems n ((elems n (32 * tyRegs t) a).map f))

def natOp2 (t : Nat) (f : Nat → Nat → Nat) (a b : Nat) : List W32 :=
  let n := tyBits t
  let m := 32 * tyRegs t
  regsOfNat (tyRegs t) (ofElems n (List.zipWith f (elems n m a) (elems n m b)))

namespace Ctx

/-- An operand of the width of a type. -/
def opnd (c : Ctx) (t : Nat) (f : Src) (i : Nat) : Nat := c.rdn f i (tyRegs t)

end Ctx

/-! ## Division and shifts (03 R64, 06 R168 to R171) -/

/-- The quotient of an element: all ones for a zero divisor. -/
def idivElem (a b : Int) : Int := if b = 0 then -1 else Int.tdiv a b

/-- The remainder of an element: the dividend for a zero divisor. -/
def iremElem (a b : Int) : Int := if b = 0 then a else Int.tmod a b

def shlElem (n a s : Nat) : Nat := if n ≤ s then 0 else a * 2 ^ s % 2 ^ n
def shrElem (n a s : Nat) : Nat := if n ≤ s then 0 else a / 2 ^ s
def sarElem (n a s : Nat) : Nat := wrapInt n (sextInt n a / (2 : Int) ^ min s n)
def rolElem (n a s : Nat) : Nat := let k := s % n; (a * 2 ^ k) % 2 ^ n + a / 2 ^ (n - k)
def rotElem (n : Nat) (right : Bool) (a s : Nat) : Nat := if right then rolElem n a (n - s % n) else rolElem n a s

def clzElem (n a : Nat) : Nat := if a = 0 then n else n - 1 - Nat.log2 a
def ffsElem (n a : Nat) : Nat := ((List.range n).find? fun k => a.testBit k).getD n
def popcElem (n a : Nat) : Nat := (List.range n).countP fun k => a.testBit k
def brevElem (n a : Nat) : Nat := (List.range n).foldl (fun r k => if a.testBit k then r + 2 ^ (n - 1 - k) else r) 0

/-- The funnel shift (06 R170). -/
def funnel (n : Nat) (left : Bool) (a b s : Nat) : Nat :=
  let k := s % 64 % n
  if left then ((a * 2 ^ n + b) * 2 ^ k / 2 ^ n) % 2 ^ n else ((b * 2 ^ n + a) / 2 ^ k) % 2 ^ n

/-- The field a control word names: its position and length, or none (06 R171). -/
def bitField (n x : Nat) : Option (Nat × Nat) :=
  let pos := x % 256
  let len := x / 256 % 256
  if n ≤ pos || len = 0 then none else some (pos, min len (n - pos))

def bfxElem (t n a x : Nat) : Nat :=
  match bitField n x with
  | none => 0
  | some (pos, l) =>
    let f := a / 2 ^ pos % 2 ^ l
    if isSint t then wrapInt n (sextInt l f) else f

def bfiElem (n a b x : Nat) : Nat :=
  match bitField n x with
  | none => a
  | some (pos, l) => a % 2 ^ pos + (b % 2 ^ l) * 2 ^ pos + a / 2 ^ (pos + l) * 2 ^ (pos + l)

/-! ## Repacking (06 R172 to R176) -/

/-- PACK (06 R174): the sources as integers, saturated or cut to the elements of the type. -/
def packElems (t : Nat) (sat : Bool) (a b : Nat) : List W32 :=
  let n := tyBits t
  let src (x : Nat) : List Int := if n = 16 then [sextInt 32 x] else (elems 16 32 x).map (sextInt 16)
  regsOfNat 1 (ofElems n ((src a ++ src b).map fun v => wrapInt n (if sat then satInt t v else v)))

/-- UNPK (06 R174). -/
def unpkElems (t a : Nat) : List W32 :=
  let n := tyBits t
  regsOfNat 2 (ofElems (2 * n) ((elems n 32 a).map fun x => wrapInt (2 * n) (elemInt t x)))

/-- BYTEP (06 R175). -/
def bytep (a b x : Nat) : Nat :=
  ofElems 8 ((List.range 4).map fun k =>
    let s := x / 2 ^ (4 * k) % 16
    if 8 ≤ s then 0 else (a + 2 ^ 32 * b) / 2 ^ (8 * s) % 256)

/-- IDOT4 and IDOT2 (06 R176). -/
def idot (t : Nat) (sat mix : Bool) (a b x : Nat) : Nat :=
  let n := tyBits t
  let el (sg : Bool) (v : Nat) : Int := if sg then sextInt n v else (v : Int)
  let signed := isSint t || mix
  let sum := (List.zipWith (fun u v => el (isSint t) u * el (isSint t != mix) v) (elems n 32 a) (elems n 32 b)).sum
  let c : Int := if signed then sextInt 32 x else (x : Int)
  let r := c + sum
  wrapInt 32 (if sat then satInt (if signed then 0 else 8) r else r)

/-- The scale of LEA (06 R173). -/
def leaScale (m : Nat) : Nat :=
  match m with
  | 0 => 1
  | 1 => 4
  | 2 => 8
  | _ => 16

/-! ## Integer arithmetic (06 R163 to R165) -/

/-- IADD. -/
def execIadd (w : VWord) (s : State) : Out :=
  runWord (.iadd w) (fun c s => c.write s w.d fun i => intOp2 w.ty (· + ·) (c.opnd w.ty w.a i) (c.opnd w.ty w.b i)) s

/-- ISUB. -/
def execIsub (w : VWord) (s : State) : Out :=
  runWord (.isub w) (fun c s => c.write s w.d fun i => intOp2 w.ty (· - ·) (c.opnd w.ty w.a i) (c.opnd w.ty w.b i)) s

/-- IMUL. -/
def execImul (w : VWord) (s : State) : Out :=
  runWord (.imul w) (fun c s => c.write s w.d fun i => intOp2 w.ty (· * ·) (c.opnd w.ty w.a i) (c.opnd w.ty w.b i)) s

/-- IMULH: the floor of the exact product over 2^n. -/
def execImulh (w : VWord) (s : State) : Out :=
  runWord (.imulh w) (fun c s => c.write s w.d fun i => intOp2 w.ty (fun a b => a * b / (2 : Int) ^ tyBits w.ty) (c.opnd w.ty w.a i) (c.opnd w.ty w.b i)) s

/-- IMAD. -/
def execImad (w : VWord) (s : State) : Out :=
  runWord (.imad w) (fun c s => c.write s w.d fun i =>
    intOp3 w.ty (fun a b x => a * b + x) (c.opnd w.ty w.a i) (c.opnd w.ty w.b i) (c.opnd w.ty w.c i)) s

/-- IDIV, long-latency (06 R164). -/
def execIdiv (w : VWord) (s : State) : Out :=
  runWord (.idiv w) (fun c s => c.longWrite s w.d fun i =>
    intOp2 w.ty idivElem (c.opnd w.ty w.a i) (c.opnd w.ty w.b i)) s

/-- IREM, long-latency (06 R164). -/
def execIrem (w : VWord) (s : State) : Out :=
  runWord (.irem w) (fun c s => c.longWrite s w.d fun i =>
    intOp2 w.ty iremElem (c.opnd w.ty w.a i) (c.opnd w.ty w.b i)) s

/-- IMIN. -/
def execImin (w : VWord) (s : State) : Out :=
  runWord (.imin w) (fun c s => c.write s w.d fun i => intOp2 w.ty (fun a b => min a b) (c.opnd w.ty w.a i) (c.opnd w.ty w.b i)) s

/-- IMAX. -/
def execImax (w : VWord) (s : State) : Out :=
  runWord (.imax w) (fun c s => c.write s w.d fun i => intOp2 w.ty (fun a b => max a b) (c.opnd w.ty w.a i) (c.opnd w.ty w.b i)) s

/-- IABS, saturated with `.sat`. -/
def execIabs (w : VWord) (s : State) : Out :=
  runWord (.iabs w) (fun c s => c.write s w.d fun i => intOp1 w.ty (fun a => let v : Int := a.natAbs; if w.ebit 5 then satInt w.ty v else v) (c.opnd w.ty w.a i)) s

/-- INEG, saturated with `.sat`. -/
def execIneg (w : VWord) (s : State) : Out :=
  runWord (.ineg w) (fun c s => c.write s w.d fun i => intOp1 w.ty (fun a => if w.ebit 5 then satInt w.ty (-a) else -a) (c.opnd w.ty w.a i)) s

/-- IADDS. -/
def execIadds (w : VWord) (s : State) : Out :=
  runWord (.iadds w) (fun c s => c.write s w.d fun i => intOp2 w.ty (fun a b => satInt w.ty (a + b)) (c.opnd w.ty w.a i) (c.opnd w.ty w.b i)) s

/-- ISUBS. -/
def execIsubs (w : VWord) (s : State) : Out :=
  runWord (.isubs w) (fun c s => c.write s w.d fun i => intOp2 w.ty (fun a b => satInt w.ty (a - b)) (c.opnd w.ty w.a i) (c.opnd w.ty w.b i)) s

/-- IAVG, rounded up unless `.fl`. -/
def execIavg (w : VWord) (s : State) : Out :=
  runWord (.iavg w) (fun c s => c.write s w.d fun i => intOp2 w.ty (fun a b => (a + b + (if w.ebit 5 then 0 else 1)) / 2) (c.opnd w.ty w.a i) (c.opnd w.ty w.b i)) s

/-- The condition of ICMP (06 R165). -/
def icmpCond (m : Nat) (a b : Int) : Bool :=
  match m with
  | 0 => a == b
  | 1 => a != b
  | 2 => decide (a < b)
  | _ => decide (a ≤ b)

/-- ICMP. -/
def execIcmp (w : VWord) (s : State) : Out :=
  runWord (.icmp w) (fun c s => c.write s w.d fun i => intOp2 w.ty (fun a b => maskIf (icmpCond w.md a b)) (c.opnd w.ty w.a i) (c.opnd w.ty w.b i)) s

/-! ## Immediate forms (06 R166) -/

namespace Ctx

/-- An immediate word: a function of x(A). -/
def imm (c : Ctx) (s : State) (w : IWord) (f : W32 → W32) : WordOut := c.write s w.d fun i => [f (c.rd w.a i)]

end Ctx

/-- IADDI. -/
def execIaddi (w : IWord) (s : State) : Out := runWord (.iaddi w) (fun c s => c.imm s w fun a => a + w.imm.signExtend 32) s

/-- MOVI. -/
def execMovi (w : IWord) (s : State) : Out := runWord (.movi w) (fun c s => c.write s w.d fun _ => [w.imm.signExtend 32]) s

/-- MOVHI. -/
def execMovhi (w : IWord) (s : State) : Out :=
  runWord (.movhi w) (fun c s => c.imm s w fun a => w.imm.extractLsb' 0 16 ++ a.extractLsb' 0 16) s

/-- SHLI. -/
def execShli (w : IWord) (s : State) : Out := runWord (.shli w) (fun c s => c.imm s w fun a => a <<< w.imm.toNat) s

/-- SHRI. -/
def execShri (w : IWord) (s : State) : Out := runWord (.shri w) (fun c s => c.imm s w fun a => a >>> w.imm.toNat) s

/-- SARI. -/
def execSari (w : IWord) (s : State) : Out := runWord (.sari w) (fun c s => c.imm s w fun a => a.sshiftRight w.imm.toNat) s

/-! ## Logic, shifts and bit operations (06 R167 to R171) -/

namespace Ctx

/-- A bitwise word over whole registers. -/
def bitwise (c : Ctx) (s : State) (w : VWord) (f : W32 → W32 → W32) : WordOut :=
  c.write s w.d fun i => (List.range (tyRegs w.ty)).map fun k => f (c.rd w.a i k) (c.rd w.b i k)

end Ctx

/-- AND. -/
def execAnd (w : VWord) (s : State) : Out := runWord (.and w) (fun c s => c.bitwise s w fun a b => a &&& b) s

/-- OR. -/
def execOr (w : VWord) (s : State) : Out := runWord (.or w) (fun c s => c.bitwise s w fun a b => a ||| b) s

/-- XOR. -/
def execXor (w : VWord) (s : State) : Out := runWord (.xor w) (fun c s => c.bitwise s w fun a b => a ^^^ b) s

/-- NOT. -/
def execNot (w : VWord) (s : State) : Out :=
  runWord (.not w) (fun c s => c.write s w.d fun i => (List.range (tyRegs w.ty)).map fun k => ~~~ c.rd w.a i k) s

/-- ANDN. -/
def execAndn (w : VWord) (s : State) : Out := runWord (.andn w) (fun c s => c.bitwise s w fun a b => a &&& ~~~ b) s

/-- ORN. -/
def execOrn (w : VWord) (s : State) : Out := runWord (.orn w) (fun c s => c.bitwise s w fun a b => a ||| ~~~ b) s

/-- SHL. -/
def execShl (w : VWord) (s : State) : Out :=
  runWord (.shl w) (fun c s => c.write s w.d fun i => natOp2 w.ty (shlElem (tyBits w.ty)) (c.opnd w.ty w.a i) (c.opnd w.ty w.b i)) s

/-- SHR. -/
def execShr (w : VWord) (s : State) : Out :=
  runWord (.shr w) (fun c s => c.write s w.d fun i => natOp2 w.ty (shrElem (tyBits w.ty)) (c.opnd w.ty w.a i) (c.opnd w.ty w.b i)) s

/-- SAR. -/
def execSar (w : VWord) (s : State) : Out :=
  runWord (.sar w) (fun c s => c.write s w.d fun i => natOp2 w.ty (sarElem (tyBits w.ty)) (c.opnd w.ty w.a i) (c.opnd w.ty w.b i)) s

/-- ROT, to the right with `.r`. -/
def execRot (w : VWord) (s : State) : Out :=
  runWord (.rot w) (fun c s => c.write s w.d fun i => natOp2 w.ty (rotElem (tyBits w.ty) (w.ebit 5)) (c.opnd w.ty w.a i) (c.opnd w.ty w.b i)) s

/-- FSHF (06 R170). -/
def execFshf (w : VWord) (s : State) : Out :=
  runWord (.fshf w) (fun c s => c.write s w.d fun i =>
    regsOfNat (tyRegs w.ty) (funnel (tyBits w.ty) (w.ebit 5) (c.opnd w.ty w.a i) (c.opnd w.ty w.b i) (c.rd w.c i).toNat)) s

/-- CLZ (06 R169). -/
def execClz (w : VWord) (s : State) : Out :=
  runWord (.clz w) (fun c s => c.write s w.d fun i => natOp1 w.ty (clzElem (tyBits w.ty)) (c.opnd w.ty w.a i)) s

/-- FFS (06 R169). -/
def execFfs (w : VWord) (s : State) : Out :=
  runWord (.ffs w) (fun c s => c.write s w.d fun i => natOp1 w.ty (ffsElem (tyBits w.ty)) (c.opnd w.ty w.a i)) s

/-- POPC (06 R169). -/
def execPopc (w : VWord) (s : State) : Out :=
  runWord (.popc w) (fun c s => c.write s w.d fun i => natOp1 w.ty (popcElem (tyBits w.ty)) (c.opnd w.ty w.a i)) s

/-- BREV (06 R169). -/
def execBrev (w : VWord) (s : State) : Out :=
  runWord (.brev w) (fun c s => c.write s w.d fun i => natOp1 w.ty (brevElem (tyBits w.ty)) (c.opnd w.ty w.a i)) s

/-- BFX (06 R171). -/
def execBfx (w : VWord) (s : State) : Out :=
  runWord (.bfx w) (fun c s => c.write s w.d fun i =>
    regsOfNat (tyRegs w.ty) (bfxElem w.ty (tyBits w.ty) (c.opnd w.ty w.a i) (c.rd w.b i).toNat)) s

/-- BFI (06 R171). -/
def execBfi (w : VWord) (s : State) : Out :=
  runWord (.bfi w) (fun c s => c.write s w.d fun i =>
    regsOfNat (tyRegs w.ty) (bfiElem (tyBits w.ty) (c.opnd w.ty w.a i) (c.opnd w.ty w.b i) (c.rd w.c i).toNat)) s

/-! ## Moves, addresses and repacking (06 R172 to R175) -/

/-- SEL (06 R172). -/
def execSel (w : VWord) (s : State) : Out :=
  runWord (.sel w) (fun c s => c.write s w.d fun i =>
    (List.range (tyRegs w.ty)).map fun k => if (c.rd w.c i).getLsbD 0 then c.rd w.a i k else c.rd w.b i k) s

/-- MOV (06 R172). -/
def execMov (w : VWord) (s : State) : Out :=
  runWord (.mov w) (fun c s => c.write s w.d fun i => (List.range (tyRegs w.ty)).map fun k => c.rd w.a i k) s

/-- LEA (06 R173). -/
def execLea (w : VWord) (s : State) : Out :=
  runWord (.lea w) (fun c s => c.write s w.d fun i =>
    let x : W64 := if w.ty = 0 then (c.rd w.b i).signExtend 64 else (c.rd w.b i).setWidth 64
    let v := c.rdw w.a i + x * BitVec.ofNat 64 (leaScale w.md)
    [lowHalf v, highHalf v]) s

/-- IEXT of one element (06 R174). -/
def execIext (w : VWord) (s : State) : Out :=
  runWord (.iext w) (fun c s => c.write s w.d fun i =>
    [BitVec.ofNat 32 (wrapInt 32 (elemInt w.ty ((elems (tyBits w.ty) 32 (c.rd w.a i).toNat).getD w.md 0)))]) s

/-- IEXT to 64 bits (06 R174). -/
def execIextWide (w : VWord) (s : State) : Out :=
  runWord (.iextWide w) (fun c s => c.write s w.d fun i =>
    let v : W64 := if w.ty = 0 then (c.rd w.a i).signExtend 64 else (c.rd w.a i).setWidth 64
    [lowHalf v, highHalf v]) s

/-- PACK (06 R174). -/
def execPack (w : VWord) (s : State) : Out :=
  runWord (.pack w) (fun c s => c.write s w.d fun i =>
    packElems w.ty (w.ebit 5) (c.rd w.a i).toNat (c.rd w.b i).toNat) s

/-- UNPK (06 R174). -/
def execUnpk (w : VWord) (s : State) : Out :=
  runWord (.unpk w) (fun c s => c.write s w.d fun i => unpkElems w.ty (c.rd w.a i).toNat) s

/-- BYTEP (06 R175). -/
def execBytep (w : VWord) (s : State) : Out :=
  runWord (.bytep w) (fun c s => c.write s w.d fun i =>
    [BitVec.ofNat 32 (bytep (c.rd w.a i).toNat (c.rd w.b i).toNat (c.rd w.c i).toNat)]) s

/-! ## Integer dot products (06 R176) -/

/-- IDOT4. -/
def execIdot4 (w : VWord) (s : State) : Out :=
  runWord (.idot4 w) (fun c s => c.write s w.d fun i =>
    [BitVec.ofNat 32 (idot w.ty (w.ebit 5) (w.ebit 6) (c.rd w.a i).toNat (c.rd w.b i).toNat (c.rd w.c i).toNat)]) s

/-- IDOT2. -/
def execIdot2 (w : VWord) (s : State) : Out :=
  runWord (.idot2 w) (fun c s => c.write s w.d fun i =>
    [BitVec.ofNat 32 (idot w.ty (w.ebit 5) (w.ebit 6) (c.rd w.a i).toNat (c.rd w.b i).toNat (c.rd w.c i).toNat)]) s

end Sys2Proof.Machine
end

