-- ==== Sys2Proof/Machine/CrossLane.lean ====
section
/-! DEFINITION. Cross-lane words: lane selection, quads, votes, reductions, scans, matching and election
(05 R147 to R156). -/

namespace Sys2Proof.Machine

namespace Ctx

/-- Registers of an operand in a lane named by the word, whatever its state (05 R147). -/
def laneOpnd (c : Ctx) (t : Nat) (f : Src) (lane : Nat) : List W32 :=
  (List.range (tyRegs t)).map fun k => c.o.g.readAt c.ch lane f.reg.toNat k

end Ctx

/-- LANESEL (05 R149). -/
def execLanesel (w : VWord) (s : State) : Out :=
  runWord (.lanesel w) (fun c s => c.write s w.d fun i =>
    let t := w.ty
    let idx := (c.rd w.b i).toNat
    let lane := idx / 8 % 32
    let k := idx % 8
    let a := (c.laneOpnd t w.a lane).foldr (fun x n => x.toNat + 2 ^ 32 * n) 0
    let v : Int := if k < tyElems t then elemInt t ((elems (tyBits t) (32 * tyRegs t) a).getD k 0) else 0
    regsOfNat (tyRegs t) (wrapInt (32 * tyRegs t) v)) s

/-- QSWAP (05 R150). -/
def execQswap (w : VWord) (s : State) : Out :=
  runWord (.qswap w) (fun c s => c.write s w.d fun i => c.laneOpnd w.ty w.a (4 * (i / 4) + (i % 4 ^^^ w.md))) s

/-- QBCAST (05 R150). -/
def execQbcast (w : VWord) (s : State) : Out :=
  runWord (.qbcast w) (fun c s => c.write s w.d fun i => c.laneOpnd w.ty w.a (4 * (i / 4) + w.md)) s

/-- VOTE over the participants (05 R151). -/
def voteVal (m : Nat) (bits : List (Nat × Bool)) : W32 :=
  match m with
  | 0 => if bits.any (·.2) then 1 else 0
  | 1 => if bits.all (·.2) then 1 else 0
  | 2 => laneMask ((bits.filter (·.2)).map (·.1))
  | _ => if bits.all (·.2) || !bits.any (·.2) then 1 else 0

/-- VOTE. -/
def execVote (w : VWord) (s : State) : Out :=
  runWord (.vote w) (fun c s =>
    let r := voteVal w.md (c.real.map fun i => (i, (c.rd w.a i).getLsbD 0))
    c.write s w.d fun _ => [r]) s

/-! ## Reductions and scans (05 R152 to R154) -/

/-- One element combined with another (05 R152): the result and its events. -/
def combineElem (t op : Nat) (u v : Nat) : Coded :=
  let n := tyBits t
  if isFlt t then
    let F := fmtOf t
    match op with
    | 0 => F.result .rne 0 [F.value u, F.value v] (FVal.add false (F.value u) (F.value v))
    | 1 => (F.minMax false false u v, [])
    | _ => (F.minMax true false u v, [])
  else
    match op with
    | 0 => ((u + v) % 2 ^ n, [])
    | 1 => (if elemInt t u ≤ elemInt t v then u else v, [])
    | 2 => (if elemInt t u ≤ elemInt t v then v else u, [])
    | _ => (u ||| v, [])

/-- The value of a lane, or none where it gives none. -/
abbrev LaneVal := Option (List Nat)

/-- Combine of 05 R152. -/
def combine (t op : Nat) (u v : LaneVal) : LaneVal × List EventKind :=
  match u, v with
  | none, v => (v, [])
  | u, none => (u, [])
  | some a, some b =>
    let r := List.zipWith (combineElem t op) a b
    (some (r.map (·.1)), (r.map (·.2)).flatten)

/-- Tree of 05 R152 over a list of 2^fuel values. -/
def tree (t op : Nat) : Nat → List LaneVal → LaneVal × List EventKind
  | 0, l => (l.headD none, [])
  | fuel + 1, l =>
    let h := l.length / 2
    let r := List.zipWith (combine t op) (l.take h) (l.drop h)
    let q := tree t op fuel (r.map (·.1))
    (q.1, (r.map (·.2)).flatten ++ q.2)

/-- The identity of an operation (05 R152). -/
def identElem (t op : Nat) : Nat :=
  let n := tyBits t
  match op with
  | 1 => if isFlt t then (fmtOf t).infCode else if isSint t then 2 ^ (n - 1) - 1 else 2 ^ n - 1
  | 2 => if isFlt t then (fmtOf t).signed true (fmtOf t).infCode else if isSint t then 2 ^ (n - 1) else 0
  | _ => 0

/-- The registers of a lane value. -/
def laneValRegs (t op : Nat) (v : LaneVal) : List W32 :=
  regsOfNat (tyRegs t) (ofElems (tyBits t) (v.getD (List.replicate (tyElems t) (identElem t op))))

namespace Ctx

/-- The values of the 32 lanes: those of the participants (05 R153). -/
def laneVals (c : Ctx) (w : VWord) : List LaneVal :=
  lanes32.map fun i => if c.real.contains i then some (elems (tyBits w.ty) (32 * tyRegs w.ty) (c.opnd w.ty w.a i)) else none

/-- Events of a float type counted for a word whose D is not 124. -/
def countKinds (c : Ctx) (s : State) (w : VWord) (l : List EventKind) : State :=
  if w.d = 124 then s else s.countEvents c.lid (l.map fun k => ((fmtOf w.ty).ev, k))

end Ctx

/-- RED (05 R153). -/
def execRed (w : VWord) (s : State) : Out :=
  runWord (.red w) (fun c s =>
    let r := tree w.ty w.md 5 (c.laneVals w)
    c.write (c.countKinds s w r.2) w.d fun _ => laneValRegs w.ty w.md r.1) s

/-- The subtree of `2^k` lanes from lane `b`. -/
def subtree (t op : Nat) (v : List LaneVal) (b k : Nat) : LaneVal × List EventKind :=
  tree t op k ((v.drop b).take (2 ^ k))

/-- The subtrees a lane's prefix takes, as first lane and size exponent (05 R154). -/
def prefixParts (lane : Nat) : List (Nat × Nat) :=
  ([4, 3, 2, 1, 0].filter fun k => lane.testBit k).map fun k => (lane / 2 ^ (k + 1) * 2 ^ (k + 1), k)

/-- A lane's prefix and the events of its own steps. -/
def prefixOf (t op : Nat) (v : List LaneVal) (lane : Nat) : LaneVal × List EventKind :=
  (prefixParts lane).foldl (fun a p =>
    let r := combine t op a.1 (subtree t op v p.1 p.2).1
    (r.1, a.2 ++ r.2)) (none, [])

/-- SCANX (05 R154): shared subtrees count once. The subtrees are those that the lanes which are no helpers use; whether one
that only helper lanes use counts, no rule says (DESIGN CHOICE, log 82). -/
def execScanx (w : VWord) (s : State) : Out :=
  runWord (.scanx w) (fun c s =>
    let v := c.laneVals w
    let parts := ((c.real.map prefixParts).flatten).eraseDups
    let shared := (parts.map fun p => (subtree w.ty w.md v p.1 p.2).2).flatten
    let own := (c.real.map fun i => (prefixOf w.ty w.md v i).2).flatten
    c.write (c.countKinds s w (shared ++ own)) w.d fun i => laneValRegs w.ty w.md (prefixOf w.ty w.md v i).1) s

/-- MATCH (05 R155). -/
def execMatchLanes (w : VWord) (s : State) : Out :=
  runWord (.matchLanes w) (fun c s => c.write s w.d fun i =>
    [if c.real.contains i then laneMask (c.real.filter fun j => c.opnd w.ty w.a j == c.opnd w.ty w.a i) else 0]) s

/-- ELECT (05 R156). -/
def execElect (w : VWord) (s : State) : Out :=
  runWord (.elect w) (fun c s =>
    let cand := if w.a.reg = noReg then c.real else c.real.filter fun i => (c.rd w.a i).getLsbD 0
    c.write s w.d fun i => [if cand.head? == some i then 1 else 0]) s

end Sys2Proof.Machine
end

