-- ==== Sys2Proof/Machine/Memory.lean ====
section
/-! DEFINITION. Loads and stores, PREF, LDT with its walks, multicast and reducing stores, and TLBINV (09 R247,
R251 to R267). -/

namespace Sys2Proof.Machine

/-! ## Writes that a translation in use holds back (08 R223) -/

/-- The translations that an outstanding copy found at its issue. -/
def OpKind.xlat : OpKind → List (Nat × TlbEntry)
  | .copy c => c.xlat
  | .cpyq _ _ _ l _ => l
  | _ => []

/-- The scale-up peer of a physical address (18 R479). -/
def peerOf (pa : Nat) : Option Nat := if isPeer pa then some (pa / 2 ^ 40 % 1024) else none

/-- A copy that has units left and whose memory side has pages of a peer. -/
def OpKind.atPeer (k : OpKind) (peer : Nat) : Bool :=
  match k with
  | .copy c => decide (c.done.length < c.recv.length * (c.rows * c.units))
      && c.xlat.any fun x => peerOf (x.2.phys (65536 * x.1)) == some peer
  | _ => false

namespace State

/-- Bytes [pa, pa + n) hold an entry of a page table from which a translation of an outstanding copy was built: a write to
them waits for the copy, but for the writes of the copy `self` (08 R223). -/
def pteBusy (s : State) (pa n : Nat) (self : Nat := 0) : Bool :=
  let lo := pteTag pa
  let hi := pteTag (pa + n - 1)
  s.ops.any fun e => e.1 != self && e.2.kind.xlat.any fun x => x.2.tags.any fun t => lo ≤ t && t ≤ hi

/-- An access of a group to a scale-up peer waits while a copy of the group with a number below `op` still has units to
perform there: a group's accesses to one peer are performed in issue order (18 R480, log 85). -/
def peerBusy (s : State) (gid op pa : Nat) : Bool :=
  (peerOf pa).any fun p => s.ops.any fun e => decide (e.1 < op) && e.2.gid == gid && e.2.kind.atPeer p

/-- A write to a target waits for a copy. -/
def busyTarget (s : State) (t : Target) (a n : Nat) : Bool :=
  match t with
  | .scr _ _ => false
  | .mem e => s.pteBusy (e.phys a) n

end State

/-- The addresses of accesses that are translated: those outside the window that pass steps 1 and 2 of 09 R254, where every
access but a helper lane's passes them. -/
def walkAddrs (u : Who) (k : AccessKind) (l : List Want) : List Nat :=
  let ok (x : Want) : Bool := (State.checkLease u x.a x.n k).isNone && (State.checkAlign x.a x.n).isNone
  if l.all fun x => x.soft || ok x then (l.filter fun x => ok x && !inWindow x.a).map (·.a) else []

namespace Ctx

/-- The accesses of a word in its Active lanes, at addresses `f`; a helper lane's raises nothing (04 R117). -/
def wants (c : Ctx) (f : Nat → Nat) (n : Nat) : List Want := c.act.map fun i => ⟨f i, n, c.helper i⟩

/-- A long-latency word that accesses memory for its group: `body` has the party of the accesses. -/
def longAccess (c : Ctx) (s : State) (d : BitVec 7)
    (body : Who → State → Except (Cause × State) (State × List (Nat × Option W32))) (kind : OpKind := .plain) : WordOut :=
  match s.who? c.gid with
  | none => .left s
  | some u => c.long s kind d (body u)

/-- The same for a word that may have to wait: `vas` are the addresses that it translates, whose misses may join walks, and
`busy` says whether an earlier copy holds its accesses back. -/
def longWriteAccess (c : Ctx) (s : State) (d : BitVec 7) (vas : Who → List Nat) (busy : Who → State → Bool)
    (body : Who → State → Except (Cause × State) (State × List (Nat × Option W32))) (kind : OpKind := .plain) : WordOut :=
  match s.who? c.gid with
  | none => .left s
  | some u =>
    match s.waitWalks u.core u.aspace (vas u) with
    | some s => .left s
    | none => if busy u s then .left s else c.long s kind d (body u)

end Ctx

/-! ## LD and ST (09 R258, R259) -/

/-- A loaded value, extended as its size code gives (02 R37). -/
def extendCode (code : Nat) (l : List Byte) : List W32 :=
  let x := natOfBytes l
  let y := match code with
    | 1 => wrapInt 32 (sextInt 8 x)
    | 3 => wrapInt 32 (sextInt 16 x)
    | _ => x
  regsOfNat (sizeRegs code) y

/-- The bytes of a data register of a lane. -/
def Ctx.dataBytes (c : Ctx) (d : BitVec 7) (n i : Nat) : List Byte :=
  bytesOfNat n ((List.range ((n + 3) / 4)).foldl (fun a k => a + (c.rdd d i k).toNat * 2 ^ (32 * k)) 0)

/-- The loads of the lanes in ascending order, each with its target, or none for a helper lane's that failed. -/
def loadLanes (u : Who) (n hint : Nat) (value : List Byte → List W32) :
    List (Nat × Nat × Option Target) → State → State × List (Nat × List (Option W32))
  | [], s => (s, [])
  | (i, a, t) :: rest, s =>
    let r := match t with
      | some t => s.targetLoad u t a n hint
      | none => (s, List.replicate n 0)
    let q := loadLanes u n hint value rest r.1
    (q.1, (i, (value r.2).map some) :: q.2)

/-- A lane of a word whose checks pass accesses a peer where an earlier copy of the group still runs (18 R480). -/
def peerWaits (c : Ctx) (lanes : List Nat) (k : Checked) (a : Nat → Nat) : Bool :=
  match k with
  | ⟨_, .error _⟩ => false
  | ⟨s, .ok ts⟩ => (lanes.zip ts).any fun e => match e.2 with
    | some (.mem x) => s.peerBusy c.gid s.fresh (x.phys (a e.1))
    | _ => false

/-- LD. -/
def execLd (w : MWord) (s : State) : Out :=
  runWord (.ld w) (fun c s =>
    let code := w.size.toNat
    let n := sizeOf code
    let a := mAddr c w n
    c.longWriteAccess s w.d (fun u => walkAddrs u .read (c.wants a n)) (fun u s =>
      peerWaits c c.act (checkAll s u .read ⟨true, true⟩ (c.wants a n) (some w.sched.h.toNat)) a) fun u s =>
    match checkAll s u .read ⟨true, true⟩ (c.wants a n) (some w.sched.h.toNat) with
    | ⟨s, .error x⟩ => .error (x, s)
    | ⟨s, .ok ts⟩ =>
      let r := loadLanes u n w.sched.h.toNat (extendCode code) ((c.act.zip ts).map fun e => (e.1, a e.1, e.2)) s
      .ok (r.1, resultKeys w.d r.2)) s

/-- The accesses of a word that writes, or that reads at the home: no helper lane's (04 R117). -/
def Ctx.realWants (c : Ctx) (a : Nat → Nat) (n : Nat) : List Want := c.real.map fun i => ⟨a i, n, false⟩

/-- The targets of the lanes of a word that writes, or that reads at the home, where every check passes. -/
def writeTargets (c : Ctx) (u : Who) (s : State) (k : AccessKind) (acc : Accepts) (a : Nat → Nat) (n : Nat) :
    Checked := checkAll s u k acc (c.realWants a n) none

/-- A writing lane of a word that would pass its checks writes to a page table in use, or to a peer that an earlier copy of
the group still writes. -/
def writesBusy (c : Ctx) (u : Who) (s : State) (k : AccessKind) (acc : Accepts) (a : Nat → Nat) (n : Nat) : Bool :=
  peerWaits c c.real (writeTargets c u s k acc a n) a || match writeTargets c u s k acc a n with
  | ⟨_, .error _⟩ => false
  | ⟨s, .ok ts⟩ => (c.real.zip ts).any fun e => match e.2 with
    | some t => s.busyTarget t (a e.1) n
    | none => false

/-- The stores of the lanes in ascending order. -/
def storeLanes (u : Who) (hint : Nat) (l : List (Nat × Option Target × List Byte)) (s : State) : State :=
  l.foldl (fun s e => match e.2.1 with
    | some t => s.targetStore u t e.1 e.2.2 hint
    | none => s) s

/-- ST: its data are read at issue; helper lanes write nothing (04 R117). -/
def execSt (w : MWord) (s : State) : Out :=
  runWord (.st w) (fun c s =>
    let n := sizeOf w.size.toNat
    let a := mAddr c w n
    c.longWriteAccess s noReg (fun u => walkAddrs u .write (c.realWants a n))
        (fun u s => writesBusy c u s .write ⟨true, true⟩ a n) fun u s =>
      match writeTargets c u s .write ⟨true, true⟩ a n with
      | ⟨s, .error x⟩ => .error (x, s)
      | ⟨s, .ok ts⟩ =>
        .ok (storeLanes u w.sched.h.toNat ((c.real.zip ts).map fun e => (a e.1, e.2, c.dataBytes w.d n e.1)) s, [])) s

/-! ## PREF and the walks in flight (09 R247, R260) -/

namespace State

/-- A line that a prefetch asks for is brought in, where its translation and the range locks allow the read (09 R260). -/
def prefFill (s : State) (core : Nat) (aspace : W64) (va n hint : Nat) : State :=
  match s.translate core aspace va with
  | ⟨s, some e, _⟩ =>
    if !e.r || isPeer (e.phys va) || e.home = 3 || (s.lockCause (clusterOf core) (.mem va) n false).isSome then s
    else (s.loadBytes core e (fieldOf aspace 0 16) va 1 hint).1
  | ⟨s, none, _⟩ => s

/-- A lane's prefetch (09 R260). -/
def prefLane (s : State) (u : Who) (n hint va : Nat) : State :=
  if inWindow va || (checkLease u va n .read).isSome || (checkAlign va n).isSome then s
  else if s.hasEntry u.core u.aspace va then s.prefFill u.core u.aspace va n hint
  else (s.joinWalk u.core u.aspace va fun w => { w with prefs := w.prefs ++ [⟨u.core, va, n, hint⟩] }).1

/-- Held entries of a cluster TLB (09 R263). -/
def heldEntries (s : State) (k : Nat) : Nat :=
  (s.cluster k).tlb.countP fun e => e.hold.any s.holds

/-- A walk's result installed in a cluster's TLB, with the holds of the LDTs of its cores (09 R263). -/
def installHeld (s : State) (k : Nat) (e : TlbEntry) (ldts : List LdtJoin) : State :=
  let mine := ldts.filterMap fun j => (tget? s.ops j.op).bind fun o =>
    if clusterOf o.core = k then some (o.gid, j.op, s.rt.toNat + 2000) else none
  let already := (s.cluster k).tlb.any fun x => x.samePage e && x.hold.any s.holds
  if !e.ok && mine.isEmpty then s
  else s.installCluster k { e with hold := if already || s.heldEntries k < 1024 then mine else [] }

/-- The next waiting walk of a bank becomes active. -/
def nextWalk (s : State) (chip bank : Nat) : State :=
  match s.walks.find? fun e => !e.2.active && e.2.chip == chip && e.2.bank == bank with
  | some e => { s with walks := tput s.walks e.1 { e.2 with active := true } }
  | none => s

end State

/-- PREF. -/
def execPref (w : MWord) (s : State) : Out :=
  runWord (.pref w) (fun c s =>
    match s.who? c.gid with
    | none => .left s
    | some u =>
      let n := sizeOf w.size.toNat
      .done (c.act.foldl (fun s i => s.prefLane u n w.sched.h.toNat (mAddr c w n i)) s) []) s

/-- PAGE_WALK_COMPLETION: the walk reads the tables and its result is installed; an uncorrectable line ends the tasks of
the LDTs that wait for it (09 R247, R263, 13 R371). -/
def execPageWalkCompletion (walk : Nat) (s : State) : Out :=
  match tget? s.walks walk with
  | none => .next s
  | some w =>
    if !w.active then .next s
    else
      let va := 65536 * w.vpage
      let r := s.walk w.aspace va
      let s := ({ s with walks := tdel s.walks walk }).nextWalk w.chip w.bank
      match r.bad with
      | some l =>
        let x (a : Nat) : Cause :=
          ⟨Cause.dataError, BitVec.ofNat 64 (128 * l + 2 ^ 52 * (s.channelOf (128 * l)).getD 0), BitVec.ofNat 64 a⟩
        .next ((w.ldts.foldl (fun s j =>
          match tget? s.ops j.op, j.va with
          | some o, some a => s.addLate o (x a)
          | _, _ => s) s).retireLine l 0)
      | none =>
        let e := r.leaf.getD { asid := fieldOf w.aspace 0 16, vpage := w.vpage, lvl := 1, ok := false, frame := 0, home := 0
                               coh := false, g := false, x := false, w := false, r := false, tags := r.tags, hold := [] }
        let s := if e.ok then s.installChip w.chip e else s
        let s := w.clusters.foldl (fun s k => s.installHeld k e w.ldts) s
        .next (w.prefs.foldl (fun s p => s.prefFill p.core w.aspace p.va p.size p.hint) s)

/-! ## LDT (09 R261 to R263) -/

/-- The address of a lane of LDT. -/
def ldtAddr (c : Ctx) (w : VWord) (n i : Nat) : Nat :=
  (c.rdw w.a i + (c.rdd w.b.reg i).signExtend 64 * BitVec.ofNat 64 n).toNat

/-- LDT: leases and alignment in every lane, then rights and range locks where a translation is held; the other lanes
start or join walks and keep their destination. -/
def execLdt (w : VWord) (s : State) : Out :=
  runWord (.ldt w) (fun c s =>
    match s.who? c.gid, c.full with
    | none, _ => .left s
    | _, some f => .block (.flagFull f) s
    | some u, none =>
      let code := w.b.xb.toNat
      let n := sizeOf code
      let a := ldtAddr c w n
      match (firstCause c.real fun i => State.checkLease u (a i) n .read).orElse fun _ =>
          firstCause c.real fun i => State.checkAlign (a i) n with
      | some x => c.trap x s
      | none =>
        let hit (i : Nat) : Bool := inWindow (a i) || s.hasEntry u.core u.aspace (a i)
        let passed (i : Nat) : Bool := (State.checkLease u (a i) n .read).isNone && (State.checkAlign (a i) n).isNone
        let hits := c.act.filter hit
        let misses := c.act.filter fun i => !hit i
        match checkAll s u .read ⟨false, false⟩ (hits.map fun i => ⟨a i, n, c.helper i⟩)
            (some w.sched.h.toNat) with
        | ⟨s, .error x⟩ => c.trap x s
        | ⟨s, .ok ts⟩ =>
          let r := loadLanes u n w.sched.h.toNat (extendCode code) ((hits.zip ts).map fun e => (e.1, a e.1, e.2)) s
          -- A helper lane whose lease or alignment fails starts no walk and receives 0 (04 R117).
          let failed := (misses.filter fun i => !passed i).map fun i => (i, (extendCode code (List.replicate n 0)).map some)
          let op := r.1.fresh
          let walks := misses.filter passed
          let q := walks.foldl (fun (b : State × List Nat) i =>
            let va := if c.helper i then none else some (a i)
            let p := b.1.joinWalk u.core u.aspace (a i) fun w =>
              { w with ldts := if w.ldts.any fun j => j.op == op then
                  w.ldts.map fun j => if j.op = op && j.va.isNone then { j with va := va } else j
                else w.ldts ++ [⟨op, va⟩] }
            (p.1, insertNat p.2 b.2)) ({ r.1 with fresh := op + 1 }, [])
          let results := resultKeys w.d (r.2 ++ failed)
            ++ resultKeys w.e (c.act.map fun i => (i, [some (if hit i then 0 else 1)]))
          .done ({ q.1 with fresh := op }.addOp (c.op (.ldt q.2) w.d) results |> fun s => { s with fresh := q.1.fresh }) []) s

/-- LDT_COMPLETION: once every walk it started or joined is done; the holds of the group's earlier LDTs end, and the time of
its own begins (09 R262, R263, log 87). -/
def execLdtCompletion (op : Nat) (s : State) : Out :=
  match tget? s.ops op with
  | none => .next s
  | some o =>
    match o.kind with
    | .ldt walks =>
      if walks.any fun n => (tget? s.walks n).isSome then .next s
      else
        let free (e : TlbEntry) : TlbEntry :=
          { e with hold := (e.hold.filter fun h => !(h.1 == o.gid && h.2.1 < op)).map fun h =>
              if h.2.1 = op then (h.1, op, s.rt.toNat + 2000) else h }
        .next ((s.modCluster (clusterOf o.core) fun c => { c with tlb := c.tlb.map free }).completeOp op)
    | _ => .next s

/-- LDT_HOLD_EXPIRY: the holds of a page that have reached their end go (09 R263). -/
def execLdtHoldExpiry (cluster page : Nat) (s : State) : Out :=
  let free (e : TlbEntry) : TlbEntry :=
    if e.vpage = page then { e with hold := e.hold.filter s.holds } else e
  .next (s.modCluster cluster fun c => { c with tlb := c.tlb.map free })

/-! ## STMC and STRD (09 R264 to R267) -/

/-- The destinations of a lane, in ascending order of k, with their addresses. -/
def multiDests (c : Ctx) (w : VWord) (i : Nat) : List (Nat × Nat) :=
  (bitsOf 32 (c.rd w.b i).toNat).map fun k =>
    (k, (c.rdw w.a i + BitVec.ofNat 64 k * (c.rd w.c i).signExtend 64).toNat)

/-- The destinations of every writing lane: lane, k and address, lowest lane first and then lowest k. -/
def allDests (c : Ctx) (w : VWord) : List (Nat × Nat × Nat) :=
  (c.real.map fun i => (multiDests c w i).map fun e => (i, e.1, e.2)).flatten

/-- The addresses of every writing lane, lowest lane first and then lowest address, each once. -/
def destOrder (c : Ctx) (w : VWord) : List Nat :=
  (c.real.map fun i => unionNat ((multiDests c w i).map (·.2)) []).flatten

/-- Step 3 for every destination, threading the TLB changes. -/
def resolveDests (u : Who) (k : AccessKind) (n : Nat) :
    List (Nat × Nat × Nat) → State → State × List ((Nat × Nat × Nat) × Except Cause Target)
  | [], s => (s, [])
  | x :: t, s =>
    let r := s.resolve u x.2.2 n k ⟨false, false⟩
    let q := resolveDests u k n t r.s
    (q.1, (x, r.target) :: q.2)

/-- MULTICAST_PERMISSION of the destinations that fail step 3 (09 R265), before a walk's DATA_ERROR and NODE_FENCED
(log 71). -/
def multiCause (l : List ((Nat × Nat × Nat) × Except Cause Target)) : Option Cause :=
  let bad := l.filter fun x => match x.2 with
    | .error c => c.code == Cause.permission
    | .ok _ => false
  match bad with
  | [] => l.findSome? fun x => match x.2 with
    | .error c => some c
    | .ok _ => none
  | x :: _ => some ⟨Cause.multicastPermission, (laneMask (bad.map fun y => y.1.2.1)).setWidth 64, BitVec.ofNat 64 x.1.2.2⟩

/-- Every check of a multicast or reducing store: the state, and the targets by lane, k and address, or the cause. -/
def checkDests (c : Ctx) (w : VWord) (u : Who) (s : State) (k : AccessKind) (n : Nat) :
    State × Except Cause (List (Nat × Nat × Nat × Target)) :=
  let order := destOrder c w
  match (order.findSome? fun a => (State.checkLease u a n k)).orElse fun _ => order.findSome? fun a => State.checkAlign a n with
  | some x => (s, .error x)
  | none =>
    let r := resolveDests u k n (allDests c w) s
    match multiCause r.2 with
    | some x => (r.1, .error x)
    | none =>
      match order.findSome? fun a => r.1.lockCause (clusterOf u.core) (.mem a) n k.w with
      | some x => (r.1, .error x)
      | none =>
        let ts := r.2.filterMap fun x => match x.2 with
          | .ok t => some (x.1.1, x.1.2.1, x.1.2.2, t)
          | .error _ => none
        match if k.r then ts.findSome? fun x => r.1.dataError u x.2.2.2 x.2.2.1 n none else none with
        | some (l, x) => (r.1.retireLine l 0, .error x)
        | none => (r.1, .ok ts)

/-- The destinations that are translated. -/
def destAddrs (c : Ctx) (w : VWord) (u : Who) (k : AccessKind) (n : Nat) : List Nat :=
  walkAddrs u k ((allDests c w).map fun x => ⟨x.2.2, n, false⟩)

/-- A destination lies on a page table in use. -/
def destsBusy (c : Ctx) (w : VWord) (u : Who) (s : State) (k : AccessKind) (n : Nat) : Bool :=
  match checkDests c w u s k n with
  | (_, .error _) => false
  | (s, .ok ts) => ts.any fun x => s.busyTarget x.2.2.2 x.2.2.1 n

/-- STMC. -/
def execStmc (w : VWord) (s : State) : Out :=
  runWord (.stmc w) (fun c s =>
    let n := sizeOf (w.e.toNat % 8)
    c.longWriteAccess s noReg (fun u => destAddrs c w u .write n) (fun u s => destsBusy c w u s .write n) fun u s =>
      match checkDests c w u s .write n with
      | (s, .error x) => .error (x, s)
      | (s, .ok ts) =>
        .ok (ts.foldl (fun s x => s.targetStore u x.2.2.2 x.2.2.1 (c.dataBytes w.d n x.1) w.sched.h.toNat) s, [])) s

/-- The elements of a word combined with data: the bytes and the events (09 R267, 05 R152). -/
def combineBytes (t op : Nat) (data : Nat) (old : List Byte) : List Byte × List EventKind :=
  let n := tyBits t
  let m := 32 * tyRegs t
  let r := List.zipWith (combineElem t op) (elems n m (natOfBytes old)) (elems n m data)
  (bytesOfNat (m / 8) (ofElems n (r.map (·.1))), (r.map (·.2)).flatten)

/-- STRD. -/
def execStrd (w : VWord) (s : State) : Out :=
  runWord (.strd w) (fun c s =>
    let n := 4 * tyRegs w.ty
    c.longWriteAccess s noReg (fun u => destAddrs c w u .rmw n) (fun u s => destsBusy c w u s .rmw n) fun u s =>
      match checkDests c w u s .rmw n with
      | (s, .error x) => .error (x, s)
      | (s, .ok ts) =>
        .ok (ts.foldl (fun s x =>
          let data := natOfBytes (c.dataBytes w.d n x.1)
          let r := s.targetRmw u x.2.2.2 x.2.2.1 n fun old => some (combineBytes w.ty w.md data old).1
          r.1.countEvents c.lid ((combineBytes w.ty w.md data r.2).2.map fun k => ((fmtOf w.ty).ev, k))) s, [])) s

/-! ## TLBINV (09 R251 to R253) -/

/-- The test of 09 R252 for an entry or a walk. -/
structure InvTest where
  asid : Nat
  g : Bool
  lo : Nat
  hi : Nat
  deriving DecidableEq, Repr

def InvTest.matches (t : InvTest) (e : TlbEntry) : Bool :=
  (e.asid == t.asid || (t.g && e.g)) && decide (65536 * e.vpage < t.hi) && decide (t.lo < 65536 * (e.vpage + e.pages))

namespace State

/-- The walks in flight of a matching page. -/
def invWalks (s : State) (t : InvTest) : List Nat :=
  let walk (w : WalkRec) : TlbEntry :=
    match s.walk w.aspace (65536 * w.vpage) with
    | ⟨_, some e, _⟩ => e
    | _ => { asid := fieldOf w.aspace 0 16, vpage := w.vpage, lvl := 1, ok := false, frame := 0, home := 0, coh := false
             g := false, x := false, w := false, r := false, tags := [], hold := [] }
  s.walks.filterMap fun e => if t.matches (walk e.2) then some e.1 else none

/-- The operations with a translation of a matching page. -/
def invOps (s : State) (t : InvTest) : List Nat :=
  s.ops.filterMap fun e => if e.2.kind.xlat.any fun x => t.matches x.2 then some e.1 else none

end State

/-- A TLBINV of a test, at its issue. -/
def Ctx.tlbinv (c : Ctx) (s : State) (d : BitVec 7) (t : InvTest) : WordOut :=
  match c.full with
  | some f => .block (.flagFull f) s
  | none => .done ((s.removeEntries t.matches).addOp (c.op (.tlbinv (s.invWalks t) (s.invOps t) t.asid t.g t.lo t.hi) d) []) []

/-- TLBINV by range; a length of 0 completes at once with no effect, once its flag has room (02 R27). -/
def execTlbinv (w : VWord) (s : State) : Out :=
  runWord (.tlbinv w) (fun c s =>
    match c.l0 with
    | none => .done s []
    | some l =>
      let a := (c.rdw w.a l).toNat
      let n := (c.rdw w.b l).toNat
      if n = 0 then (match c.full with
        | some f => .block (.flagFull f) s
        | none => .done s [])
      else c.tlbinv s w.d ⟨(c.rd w.c l).toNat % 65536, w.ebit 5, a, min (a + n) (2 ^ 55)⟩) s

/-- TLBINV of a whole address space. -/
def execTlbinvAsid (w : VWord) (s : State) : Out :=
  runWord (.tlbinvAsid w) (fun c s =>
    match c.l0 with
    | none => .done s []
    | some l => c.tlbinv s w.d ⟨(c.rd w.c l).toNat % 65536, w.ebit 5, 0, 2 ^ 55⟩) s

/-- TLBINV_COMPLETION: once the walks that began before it are done, the matching entries that they and their like installed
go; it completes when the accesses translated from removed entries are done too (09 R252). -/
def execTlbinvCompletion (op : Nat) (s : State) : Out :=
  match tget? s.ops op with
  | none => .next s
  | some o =>
    match o.kind with
    | .tlbinv walks ops asid g lo hi =>
      if walks.any fun n => (tget? s.walks n).isSome then .next s
      else
        let t : InvTest := ⟨asid, g, lo, hi⟩
        let more := if walks.isEmpty then [] else s.invOps t
        let s := if walks.isEmpty then s else s.removeEntries t.matches
        let left := (unionNat ops more).filter fun n => (tget? s.ops n).isSome
        if left.isEmpty then .next (s.completeOp op)
        else .next { s with ops := tput s.ops op { o with kind := .tlbinv [] left asid g lo hi } }
    | _ => .next s

end Sys2Proof.Machine
end

