-- ==== Sys2Proof/Machine/Hbm.lean ====
section
/-! DEFINITION. Device memory as it changes in service: set commands, retirements, the Drift Engine, scrubbing and
recalibration, error reports, and host accesses (10 R271, R280, R288, 13 R352 to R375, 18 R468, R478). -/

namespace Sys2Proof.Machine

/-- 512 MiB (13 R352). -/
def gran : Nat := 2 ^ 29

namespace State

/-! ## Capacity (13 R354, R360) -/

/-- The lines that a set of `n` lines over a live list puts on its channel `i` (13 R354). -/
def lineCount (n len i : Nat) : Nat := if len = 0 || n ≤ i then 0 else (n - 1 - i) / len + 1

/-- The lines a set of `n` lines puts on channel `c`. -/
def countOn (n : Nat) (live : List Nat) (c : Nat) : Nat :=
  match live.findIdx? (· == c) with
  | some i => lineCount n live.length i
  | none => 0

/-- The live channels of a set's mask. -/
def liveOf (s : State) (t : ISet) : List Nat := t.mask.filter s.liveChannels.contains

/-- The maps of a set: the one in force, and the new one of each retirement of it that migrates or is to migrate. A paused
retirement leaves the old map and the size (13 R360, R361). -/
def mapsOf (s : State) (k : Nat) (t : ISet) : List (List Nat) :=
  t.live :: ((s.retirements.filter fun r => !r.paused).map fun r =>
    (r.todo.filter fun e => e.1 == k).map (·.2) ++ ((r.cur.toList.filter fun m => m.set == k).map (·.new))).flatten

/-- The limit of 13 R354 holds on the channels of `new` with set `k` at `n` lines over `old` and `new`; every other set
counts the larger of its counts under its maps (13 R360). -/
def fits (s : State) (k n : Nat) (old new : List Nat) : Bool :=
  new.all fun c =>
    let others := (s.sets.filter fun e => e.1 != k).map fun e =>
      ((s.mapsOf e.1 e.2).map fun l => countOn (e.2.size / 128) l c).foldl max 0
    decide (others.sum + max (countOn n old c) (countOn n new c) ≤ 2 ^ 24)

/-- The largest size up to `g` times 512 MiB that fits; 0 where the new list is empty. -/
def largest (s : State) (k : Nat) (old new : List Nat) : Nat → Nat
  | 0 => 0
  | g + 1 =>
    if new.isEmpty then 0
    else if s.fits k ((g + 1) * gran / 128) old new then (g + 1) * gran
    else s.largest k old new g

/-- The end of the highest 512 MiB of a set that holds a pinned frame (13 R360). -/
def pinnedEnd (s : State) (k : Nat) : Nat :=
  s.frames.foldl (fun e f =>
    let pa := 65536 * f.1
    if pa / 2 ^ 40 = k && !f.2.pins.isEmpty then max e ((pa % 2 ^ 40 / gran + 1) * gran) else e) 0

/-- The extent of a set. -/
def extent (s : State) (k : Nat) (t : ISet) : Nat := max t.hold (s.pinnedEnd k)

/-- SIZE′ of a set, no larger than its SIZE and its extent need: a larger one changes nothing (13 R360). -/
def sizeFor (s : State) (k : Nat) (t : ISet) : Nat :=
  s.largest k t.live (s.liveOf t) (min 1024 (max t.size (s.extent k t) / gran))

/-- The new map of each affected set of a retirement. -/
def newMaps (s : State) (affected : List Nat) : List (Nat × List Nat) :=
  affected.filterMap fun k => (tget? s.sets k).map fun t => (k, s.liveOf t)

/-- A retirement as it starts, not paused. -/
def asRetirement (s : State) (channels : List Nat) (stack : Option Nat) (affected : List Nat) : Retirement :=
  { channels := channels, stack := stack, engine := channels.head?.getD 0 / 64, paused := false, affected := affected
    todo := s.newMaps affected, cur := none }

/-- The new sizes of the affected sets of a retirement, where every one covers its extent and every set being created keeps
within the limit beside them; the affected sets count under their old and their new maps (13 R354, R360). -/
def newSizes (s : State) (affected : List Nat) : Option (List (Nat × Nat)) :=
  let s : State := { s with retirements := s.asRetirement [] none affected :: s.retirements }
  let l := affected.filterMap fun k => (tget? s.sets k).map fun t => (k, t, s.sizeFor k t)
  let sized : State := { s with sets := l.foldl (fun a (e : Nat × ISet × Nat) =>
    tput a e.1 { e.2.1 with size := min e.2.1.size e.2.2 }) s.sets }
  if (l.all fun (e : Nat × ISet × Nat) => s.extent e.1 e.2.1 ≤ e.2.2)
      && s.sets.all fun e => !e.2.creating || sized.fits e.1 (e.2.size / 128) e.2.live (s.liveOf e.2) then
    some (l.map fun (e : Nat × ISet × Nat) => (e.1, e.2.2))
  else none

/-- A set takes a smaller size at once: the lines above it are dropped, unmoved (13 R360). -/
def shrink (s : State) (k size : Nat) : State :=
  match tget? s.sets k with
  | none => s
  | some t =>
    if t.size ≤ size then s
    else
      let n := size / 128
      let s := { s with sets := tput s.sets k { t with size := size } }.forget (2 ^ 40 * k + size) (2 ^ 40 * k + t.size)
      let cut (m : Migration) : Migration :=
        if m.set = k then
          { m with lines := min m.lines n, tide := min m.tide n, transit := m.transit.filter fun e => e.1 < n
                   landed := m.landed.filter fun x => x < n }
        else m
      { s with retirements := s.retirements.map fun r => { r with cur := r.cur.map cut } }

/-! ## Retirements (13 R359 to R363) -/

/-- A retirement may begin to migrate: nothing earlier is paused, shares its engine, or affects a set of it. -/
def mayMigrate (earlier : List Retirement) (r : Retirement) : Bool :=
  !r.paused && earlier.all fun e => !e.paused && e.engine != r.engine && !e.affected.any r.affected.contains

/-- The next set of a retirement to migrate: ascending order of new size, then of number (13 R359). -/
def nextSet (s : State) (r : Retirement) : Option (Nat × List Nat) :=
  let size (k : Nat) : Nat := ((tget? s.sets k).map ISet.size).getD 0
  r.todo.foldl (fun b e => match b with
    | none => some e
    | some x => if size e.1 < size x.1 || (size e.1 = size x.1 && e.1 < x.1) then some e else some x) none

/-- The finish event: MIGRATING is cleared on every affected set, and the retired stack and a stack with no live channel left
get STATE 0 (13 R362). -/
def finishRetirement (s : State) (pre post : List Retirement) (r : Retirement) : State :=
  let s := { s with retirements := pre ++ post }
  let ks := (r.channels.map (· / 32)).eraseDups
  let words := ks.map fun k =>
    let empty := s.liveChannels.all fun c => c / 32 != k
    (3 + k, s.stackWord k (if empty then 0 else s.stackState k))
  s.commit (s.setWordsMigrating r.affected false ++ words)

/-- One advance of the retirements: a set whose tideline reached its end is done, the next set starts, or a retirement
finishes; and whether there was one. -/
def advanceOne (s : State) : List Retirement → List Retirement → State × Bool
  | _, [] => (s, false)
  | pre, r :: post =>
    match r.cur with
    | some m =>
      if m.tide < m.lines then s.advanceOne (pre ++ [r]) post
      else
        let sets := match tget? s.sets m.set with
          | some t => tput s.sets m.set { t with live := m.new }
          | none => s.sets
        ({ s with sets := sets, retirements := pre ++ { r with cur := none } :: post }, true)
    | none =>
      if !mayMigrate pre r then s.advanceOne (pre ++ [r]) post
      else
        match s.nextSet r with
        | none => (s.finishRetirement pre post r, true)
        | some (k, new) =>
          match tget? s.sets k with
          | none => ({ s with retirements := pre ++ { r with todo := r.todo.filter fun e => e.1 != k } :: post }, true)
          | some t =>
            let m : Migration := ⟨k, t.live, new, 0, t.size / 128, [], []⟩
            ({ s with retirements := pre ++ { r with cur := some m, todo := r.todo.filter fun e => e.1 != k } :: post }, true)

/-- The retirements advance as far as they can without moving a line. -/
def advanceRetirements (s : State) : Nat → State
  | 0 => s
  | fuel + 1 =>
    let r := s.advanceOne [] s.retirements
    if r.2 then r.1.advanceRetirements fuel else r.1

/-- The retirements after a change of them. -/
def settleRetirements (s : State) : State := s.advanceRetirements (40 * (s.retirements.length + 1))

/-- A capacity event posted to the queues, after its commit (13 R362). -/
def capacityEvent (s : State) : State := s.finishCommit.postAll 4 0 (s.catWord 0) 0

/-- A retirement of live channels starts (13 R359 to R362, R369). -/
def startRetirement (s : State) (channels : List Nat) (stack : Option Nat) : State :=
  let affected := (s.sets.filter fun e => !e.2.creating && e.2.mask.any channels.contains).map (·.1)
  let behind := s.retirements.any (·.paused)
  let s := { s with liveChannels := s.liveChannels.filter fun c => !channels.contains c
                    logChannels := unionNat channels s.logChannels }
  let sizes := if behind then none else s.newSizes affected
  let r := s.asRetirement channels stack affected
  let s := match sizes with
    | some l => l.foldl (fun (s : State) (e : Nat × Nat) => s.shrink e.1 e.2) s
    | none => s
  let s := { s with retirements := s.retirements ++ [r] }
  let ks := (channels.map (· / 32)).eraseDups
  let words := ks.map fun k => (3 + k, s.stackWord k (if stack = some k then 2 else s.stackState k))
  let s := s.commit (words ++ s.setWordsMigrating affected true)
  let s := channels.foldl (fun (s : State) c => s.postError 5 c 0 0 0 0) s
  let s := if sizes.isSome then s
    else
      let s := { s with retirements := s.retirements.dropLast ++ [{ r with paused := true }] }
      (s.commit (s.setWordsPaused affected true)).capacityEvent
  s.settleRetirements

/-- The retest of a paused retirement is due (13 R361). -/
def retest (s : State) : State :=
  if s.retirements.any (·.paused) then
    { s with retestDue := true, agenda := s.agenda ++ [Event.op .retirementResume] } else s

/-- The first paused retirement resumes where the test of 13 R360 passes. -/
def resumeRetirement (s : State) : State :=
  match s.retirements.find? (·.paused) with
  | none => s
  | some r =>
    match s.newSizes r.affected with
    | none => s
    | some l =>
      let s := l.foldl (fun (s : State) (e : Nat × Nat) => s.shrink e.1 e.2) s
      -- The first paused one only.
      let pre := s.retirements.takeWhile fun x => !x.paused
      let post := (s.retirements.dropWhile fun x => !x.paused).drop 1
      let s := { s with retirements := pre ++ { r with paused := false } :: post }
      (s.commit (s.setWordsPaused r.affected false)).settleRetirements.retest

end State

/-! ## Set commands (13 R356 to R358) -/

/-- CREATE_SET. -/
def execCreateSet (s : State) : Out :=
  .next (s.takeMail (· == 1) fun m s =>
    let live := m.chmask.filter s.liveChannels.contains
    if (tget? s.sets m.set).isSome then (s, some 2)
    else if m.bytes % gran != 0 || m.bytes = 0 || 2 ^ 39 < m.bytes || live.isEmpty then (s, some 3)
    else if !s.fits m.set (m.bytes / 128) [] live then (s, some 4)
    else
      let t : ISet := { size := m.bytes, linear := m.linear, mask := m.chmask, live := live, hold := 0, visible := false
                        creating := true }
      ({ s with sets := tput s.sets m.set t, creating := some (m.set, BitVec.ofNat 64 m.addr) }, none))

/-- SET_CREATE_COMPLETE: every byte of the new set reads 0, and "set created" commits. Where a retirement that started
meanwhile leaves no room for it within the limit, the creation is refused (13 R354, log 78). -/
def execSetCreateComplete (s : State) : Out :=
  match s.creating with
  | none => .next s
  | some (k, a) =>
    match tget? s.sets k with
    | none => .next { s with creating := none }
    | some t =>
      let s := (s.forget (2 ^ 40 * k) (2 ^ 40 * (k + 1)))
      if (s.liveOf t).isEmpty || !s.fits k (t.size / 128) [] (s.liveOf t) then
        .next ({ s with sets := tdel s.sets k, creating := none }.mailStatus a.toNat 4)
      else
      let s := { s with sets := tput s.sets k { t with creating := false, live := s.liveOf t }, creating := none }
      .next ((s.commit (s.setWords [k])).mailStatus a.toNat 0)

/-- DELETE_SET. -/
def execDeleteSet (s : State) : Out :=
  .next (s.takeMail (· == 2) fun m s =>
    if (tget? s.sets m.set).isNone || m.set = 0 then (s, some 2)
    else if s.pinnedEnd m.set != 0 || s.retirements.any fun r => r.affected.contains m.set then (s, some 5)
    else
      let s := { s with sets := tdel s.sets m.set }.forget (2 ^ 40 * m.set) (2 ^ 40 * (m.set + 1))
      ((s.commit (s.setWords [m.set])).retest, some 0))

/-- RETIRE_CHANNEL: memory command 3, or a retirement that the management controller starts of its own for a channel with
no spare line left or with too many corrected errors (13 R356, R372). -/
def execRetireChannel (own : Option Nat) (s : State) : Out :=
  match own with
  | none =>
    .next (s.takeMail (· == 3) fun m s =>
      if s.liveChannels.contains m.arg then (s.startRetirement [m.arg] none, some 0) else (s, some 6))
  | some c =>
    let due := 4096 ≤ tgetD 0 s.spares c || decide (s.imageUsed.errLimit < tgetD 0 s.correctedTotal c)
    .next (if due && s.liveChannels.contains c then s.startRetirement [c] none else s)

/-- RETIRE_STACK. -/
def execRetireStack (s : State) : Out :=
  .next (s.takeMail (· == 4) fun m s =>
    let l := s.liveChannels.filter fun c => c / 32 == m.arg
    if l.isEmpty then (s, some 6) else (s.startRetirement l (some m.arg), some 0))

/-- SET_HOLD. -/
def execSetHold (s : State) : Out :=
  .next (s.takeMail (· == 5) fun m s =>
    match tget? s.sets m.set with
    | none => (s, some 2)
    | some t =>
      if m.bytes % gran != 0 then (s, some 3)
      else ({ s with sets := tput s.sets m.set { t with hold := m.bytes } }.retest, some 0))

/-- RETIREMENT_RESUME: the test of the first paused retirement is repeated, once for each cause of 13 R361. -/
def execRetirementResume (s : State) : Out :=
  .next (if s.retestDue then ({ s with retestDue := false } : State).resumeRetirement else s)

/-! ## The Drift Engine (13 R363 to R366) -/

namespace State

/-- The retirement that an engine is migrating, with its migration. -/
def drifting (s : State) (engine : Nat) : Option (Retirement × Migration) :=
  (s.retirements.filter fun r => r.engine == engine).findSome? fun r => r.cur.map fun m => (r, m)

/-- A migration changed. -/
def setMigration (s : State) (engine set : Nat) (m : Migration) : State :=
  { s with retirements := s.retirements.map fun r =>
      if r.engine = engine && r.cur.any (fun x => x.set == set) then { r with cur := some m } else r }

/-- The physical line of line `n` of a set. -/
def setLine (k n : Nat) : Nat := (2 ^ 40 * k + 128 * n) / 128

/-- The next line to take: the lowest that is waiting (13 R363). -/
def nextLine (m : Migration) : Nat :=
  ((List.range 65).map (m.tide + ·)).find? (fun n => !m.landed.contains n && (tget? m.transit n).isNone) |>.getD (m.tide + 64)

/-- The tideline after a landing: past every landed line. -/
def advanceTide (m : Migration) : Nat → Migration
  | 0 => m
  | fuel + 1 =>
    if m.landed.contains m.tide then
      advanceTide { m with tide := m.tide + 1, landed := m.landed.filter (· != m.tide) } fuel
    else m

/-- The channel of line `n` of a migrating set over one of its live lists. -/
def driftChannel (s : State) (m : Migration) (live : List Nat) (n : Nat) : Nat :=
  channelIn ((tget? s.sets m.set).any (·.linear)) live n

/-- The use falls in the 10 µs that end now. -/
def recentUse (s : State) (u : Nat × Nat × Nat) : Bool := s.now < u.2.2 + State.us 10

/-- One more line fits the engine's share of the channel: over 10 µs its lines of 128 bytes take at most DRIFT percent
of 150 GB/s (13 R351, R367). -/
def shareLeft (s : State) (engine ch : Nat) : Bool :=
  128 * ((s.driftUse.filter fun u => u.1 == engine && u.2.1 == ch && s.recentUse u).length + 1) ≤
    15000 * (s.bgShare.toNat % 256)

/-- The engine reads or writes a line of the channel now. -/
def useShare (s : State) (engine ch : Nat) : State :=
  { s with driftUse := (engine, ch, s.now) :: s.driftUse.filter s.recentUse }

end State

/-- DRIFT_LINE_TAKE: the next line is recalled and enters transit, where the share of its old channel allows its read. -/
def execDriftLineTake (engine : Nat) (s : State) : Out :=
  match s.drifting engine with
  | none => .next s
  | some (_, m) =>
    let n := State.nextLine m
    let ch := s.driftChannel m m.old n
    if m.lines ≤ n || m.tide + 64 ≤ n || 64 ≤ m.transit.length || !s.shareLeft engine ch then .next s
    else
      let s := (s.recallHome (State.setLine m.set n)).useShare engine ch
      .next (s.setMigration engine m.set { m with transit := tput m.transit n ⟨false, 0⟩ })

/-- DRIFT_LINE_DATA_ARRIVAL: the data of the old location arrives under the bytes held; an uncorrectable line gives zeros. -/
def execDriftLineDataArrival (engine line : Nat) (s : State) : Out :=
  match s.drifting engine with
  | none => .next s
  | some (_, m) =>
    match tget? m.transit line with
    | none => .next s
    | some t =>
      if t.arrived then .next s
      else
        let p := State.setLine m.set line
        let s := if s.bad.contains p then s.retireLine p 0 else s
        .next (s.setMigration engine m.set { m with transit := tput m.transit line ⟨true, 0⟩ })

/-- DRIFT_LINE_LAND: the line stands at its new location, and its home LLC is the new one. -/
def execDriftLineLand (engine line : Nat) (s : State) : Out :=
  match s.drifting engine with
  | none => .next s
  | some (_, m) =>
    match tget? m.transit line with
    | none => .next s
    | some t =>
      let ch := s.driftChannel m m.new line
      if !t.arrived || !s.shareLeft engine ch then .next s
      else
        let s := (s.recallHome (State.setLine m.set line)).useShare engine ch
        let m := State.advanceTide { m with transit := tdel m.transit line, landed := insertNat line m.landed } 65
        .next (s.setMigration engine m.set m).settleRetirements

/-! ## Scrubbing, recalibration and reports (13 R370, R373, R374, 18 R478) -/

/-- The time of a scrub pass: SCRUB_H hours (13 R367, R374). -/
def State.scrubPeriod (s : State) : Nat := State.ms 3600000 * fieldOf s.bgShare 8 8

/-- SCRUB_READ: a line that the pass has not read yet; one that is uncorrectable is retired, and no task ends. A pass begins
SCRUB_H hours after the one before (13 R373, R374, 18 R481, log 95). -/
def execScrubRead (pline : Nat) (s : State) : Out :=
  let s := if s.scrubSince + s.scrubPeriod ≤ s.now then { s with scrubSince := s.now, scrubbed := [] } else s
  if !isDevice (128 * pline) || s.scrubbed.contains pline then .next s
  else
    let s := { s with scrubbed := insertNat pline s.scrubbed }
    .next (if s.bad.contains pline then s.retireLine pline 0 else s)

/-- PHY_RECALIBRATION: once in every period of 50 ms. -/
def execPhyRecalibration (channel : Nat) (s : State) : Out :=
  let period := s.now / State.ms 50 + 1
  if !s.liveChannels.contains channel || period ≤ tgetD 0 s.recalAt channel || (tget? s.recalibrating channel).isSome then
    .next s
  else
    .next { s with recalAt := tput s.recalAt channel period, recalibrating := tput s.recalibrating channel s.now }

/-- PHY_RECALIBRATION_END. -/
def execPhyRecalibrationEnd (channel : Nat) (s : State) : Out :=
  .next { s with recalibrating := tdel s.recalibrating channel }

/-- CORRECTED_ERROR_REPORT: the count since the last record, at most once a second for a channel. -/
def execCorrectedErrorReport (channel : Nat) (s : State) : Out :=
  let n := tgetD 0 s.corrected channel
  let due := match tget? s.reported channel with
    | some t => t + State.ms 1000 ≤ s.now
    | none => true
  if n = 0 || !due then .next s
  else
    let s := s.postError 1 channel 0 0 0 n
    .next { s with corrected := tset 0 s.corrected channel 0, reported := tput s.reported channel s.now }

/-- The lines of an LLC that its sets have no way for any longer are written back and dropped, the least recently used first
(10 R271). -/
def State.trimLlc (s : State) (cacheChip : Nat) : State :=
  (s.llc.filter fun x => s.llcHome x.pline == cacheChip).reverse.foldl (fun (s : State) x =>
    if s.llcWays x.pline < (s.llcSame x.pline).length then
      match llcGetLine s.llc x.pline with
      | some y => s.llcEvict y
      | none => s
    else s) s

/-- LLC_CAPACITY_RETIREMENT: 1 MiB of an LLC, a way of a quarter of its sets, leaves service; its lines are written back
first (10 R271). A set keeps a way at least (log 72). -/
def execLlcCapacityRetirement (cacheChip : Nat) (s : State) : Out :=
  let left := (s.catWord 27).toNat
  let n := tgetD 0 s.llcRetired cacheChip
  if 4 ≤ cacheChip || left < 2 ^ 20 || 92 ≤ n then .next s
  else
    let s := ({ s with llcRetired := tset 0 s.llcRetired cacheChip (n + 1) } : State).trimLlc cacheChip
    .next (s.commit [(27, BitVec.ofNat 64 (left - 2 ^ 20))])

/-! ## Host accesses (10 R280, R288, 13 R355, R373, 18 R468) -/

/-- HOST_CXL_CACHE_WRITE: the device's copies of the sector's line go back, and the host writes its bytes and holds the sector
modified. A write to a page table from which a running copy's translation was built waits for the copy (08 R223, 09 R250). -/
def execHostCxlCacheWrite (sector : Nat) (mask : BitVec 64) (data : BitVec 512) (s : State) : Out :=
  let pa := 64 * sector
  if !isHost pa || s.pteBusy pa 64 then .next s
  else
    let s := (s.recallHome (pa / 128)).pteWritten pa 64
    let m : BitVec 128 := (mask.setWidth 128) <<< (pa % 128)
    let d : BitVec 1024 := (data.setWidth 1024) <<< (8 * (pa % 128))
    .next { s.memPutLine (pa / 128) m d with sectors := s.sectors.filter (· != sector)
                                             hostSectors := insertNat sector s.hostSectors }

/-- A set that the host sees holds a line (13 R352, R358). -/
def State.offered (s : State) (pline : Nat) : Bool :=
  isDevice (128 * pline) && (s.setOf (128 * pline)).any fun e => (tget? s.sets e.1).any (·.visible)

/-- HOST_CXL_MEM_ACCESS: a host access of a line of a host-visible set, with its completion; one outside every usable set, or
in a set that the host does not see, completes unsuccessfully (13 R355). A read of an uncorrectable line is poisoned, for that
one response (13 R373); under host bias the host may keep what it reads (10 R288). A poisoned write
stores zeros in every byte of the line (18 R468). A write to a page table in use by a copy
waits for it (08 R223, 09 R250). -/
def execHostCxlMemAccess (pline : Nat) (write poison : Bool) (mask : BitVec 128) (data : BitVec 1024) (s : State) : Out :=
  let pa := 128 * pline
  if !s.offered pline then .next { s with hostReply := ⟨false, false, 0⟩ }
  else if write then
    if s.pteBusy pa 128 then .next s
    else
      let s := (s.recallHome pline).pteWritten pa 128
      let s := if poison then (s.retireLine pline 0).storeLine pline (BitVec.allOnes 128) 0 else s.memPutLine pline mask data
      .next { s with hostReply := ⟨true, false, 0⟩ }
  else
    let s := s.recallHome pline
    let bias := (tget? s.frames (pa / 65536)).any (·.bias)
    let s := { s with hostReply := ⟨true, s.bad.contains pline, s.memLine pline⟩
                      hostLines := if bias then s.hostLines else insertNat pline s.hostLines }
    .next (if s.bad.contains pline then s.retireLine pline 0 else s)

end Sys2Proof.Machine
end

