-- ==== Sys2Proof/Machine/System.lean ====
section
/-! DEFINITION. The system words: CAPQ, SREAD and SWRITE of every system register, ERET, PMACK, LEASEQ, BOOST, PRICLS,
FEVQ and HCALL, and the expiry of a boost lease (15 R403 to R409, 17 R448, R449, R454, R456, R464 to R467, 18 R477). -/

namespace Sys2Proof.Machine

/-! ## Small operations -/

namespace State

/-- A cluster is boosted: a block resident on it holds a lease with time remaining and is not pre-empted (15 R403). -/
def boosted (s : State) (k : Nat) : Bool :=
  s.blocks.any fun e => clusterOf e.2.core == k && (match e.2.boostUntil with
    | some t => decide (s.now < t)
    | none => false)

/-- A block's lease has time remaining. -/
def leased (s : State) (b : Block) : Bool :=
  match b.boostUntil with
  | some t => decide (s.now < t)
  | none => false

/-- The clusters to which the boost places of cohorts in a move pass (15 R407). -/
def movedLeases (s : State) : List Nat :=
  (s.cohorts.map fun e => match e.2.state with
    | .saved p bs => match p.move with
      | some (slot, cores) => (bs.filter fun x => s.leased x.block).map fun x =>
          clusterOf (96 * slot + cores.getD (e.2.blocks.idxOf x.bid) 0)
      | none => []
    | _ => []).flatten

/-- The boosted clusters, with those whose place a move keeps. -/
def boostPlaces (s : State) : List Nat :=
  ((s.blocks.filter fun e => s.leased e.2).map fun e => clusterOf e.2.core) ++ s.movedLeases

/-- How many clusters are boosted once one is. -/
def boostedWith (s : State) (k : Nat) : Nat := (k :: s.boostPlaces).eraseDups.length

/-- A lease whose time has run out ends (15 R407). -/
def expireBoost (s : State) (bid : Nat) : State :=
  match s.block? bid with
  | none => s
  | some b =>
    match b.boostUntil with
    | some t =>
      if t ≤ s.now then
        (s.setBlock bid { b with boostUntil := none, boostNote := 0 }).modCluster (clusterOf b.core) fun c =>
          { c with boostedAt := some (max t (c.boostedAt.getD 0)) }
      else s
    | none => s

/-- Every lease whose time has run out ends. -/
def expireBoosts (s : State) : State := s.blocks.foldl (fun s e => s.expireBoost e.1) s

/-- The time that remains of a block's lease, in whole µs. -/
def boostLeft (s : State) (b : Block) : Option Nat :=
  b.boostUntil.bind fun t => if s.now < t then some ((t - s.now) / us 1) else none

/-- The first test of 15 R403 that refuses a lease to a block, with its code of 15 R406; `cls` says that the class test
passes. -/
def boostRefusal (s : State) (b : Block) (cls : Bool) : Option Nat :=
  let k := clusterOf b.core
  let maxcl := fieldOf s.boostCfg 0 8
  let rest := fieldOf s.boostCfg 8 8
  if s.ceilW < 2200 || s.power.railOver then some 1
  else if !cls then some 3
  else if maxcl = 0 then some 1
  else if s.boosted k then none
  else if maxcl < s.boostedWith k then some 1
  else match (s.cluster k).boostedAt with
    | some t => if s.now < t + ms rest then some 2 else none
    | none => none

/-- A lease of a block starts (15 R403, R406). -/
def startBoost (s : State) (bid t : Nat) : State :=
  s.modBlock bid fun b => { b with boostUntil := some (s.now + us t) }

/-- FNV-1a 64 of bytes (16 R445). -/
def fnv (l : List Byte) : W64 :=
  l.foldl (fun h b => (h ^^^ b.setWidth 64) * 0x100000001B3#64) 0xCBF29CE484222325#64

/-- DEV_SHELFMARK: 0 until feature negotiation ends (16 R445). -/
def shelfmark (s : State) : W64 :=
  if s.negotiated then fnv (bytesOfNat 4 1 ++ bytesOfNat 4 Config.stepping.toNat ++ bytesOfNat 16 s.features.toNat) else 0

/-- DRIFT_STAT of an engine (13 R368). -/
def driftStat (s : State) (e : Nat) : W64 :=
  match s.retirements.filter fun r => r.engine == e with
  | [] => 0
  | r :: rest =>
    let m := match r.cur with
      | some m => m.tide % 2 ^ 32 * 2 ^ 32 + m.set % 16 * 2 ^ 20 + m.transit.length % 128 * 2 ^ 8
      | none => 0
    BitVec.ofNat 64 (m + min rest.length 15 * 2 ^ 16 + (if r.paused then 2 else 0) + 1)

/-- PSTP_STAT (15 R413). -/
def pstpStat (s : State) : W64 :=
  let p := s.power
  BitVec.ofNat 64 (p.freq % 2 ^ 24 * 2 ^ 40 + p.vbus % 2 ^ 24 * 2 ^ 16 + p.badFrames % 256 * 2 ^ 8
    + (if p.failsafe then 1 else 0))

/-- PWR_STAT of a cluster (15 R396). -/
def pwrStat (s : State) (k : Nat) : W64 :=
  let c := s.cluster k
  let drp := match c.droop with
    | .hold _ => 1
    | _ => 0
  let dstate := match c.droop with
    | .idle => 0
    | .stretch _ _ => 1
    | .hold _ => 2
  BitVec.ofNat 64 (c.trips % 2 ^ 16 * 2 ^ 48 + c.ballast % 256 * 2 ^ 40 + (if s.boosted k then 2 ^ 32 else 0)
    + max (max c.rail c.shed) c.power * 2 ^ 12 + c.thermal * 2 ^ 10 + c.balance * 2 ^ 8 + drp * 2 ^ 6 + dstate)

/-- MX_STAT of a core (12 R319). -/
def mxStat (s : State) (core : Nat) : W64 :=
  let k := s.core core
  BitVec.ofNat 64 (k.swaps % 2 ^ 16 * 2 ^ 32 + (if k.drain then 2 ^ 17 else 0) + (if k.twin then 2 ^ 16 else 0)
    + k.temp1 % 256 * 2 ^ 8 + k.temp0 % 256)

/-- REG_QUOTA and REG_FREE of a kernel on a core (05 R137). -/
def regQuota (s : State) (core lid : Nat) : W64 :=
  match s.quota? core lid with
  | none => 0
  | some q => BitVec.ofNat 64 (q.slots % 64 * 2 ^ 48 + q.units % 2 ^ 11 * 2 ^ 32 + q.scratch % 2 ^ 19)

/-- REG_FREE. A formed group that has taken an empty slot and waits for its units holds no slot of SLOTS_FREE until it starts
(DESIGN CHOICE, log 90). -/
def regFree (s : State) (core lid : Nat) : W64 :=
  match s.quota? core lid with
  | none => 0
  | some q =>
    let held := s.groups.countP fun e => match s.block? e.2.block with
      | some b => b.core == core && s.launchOfBlock e.2.block == some lid
      | none => false
    let head := match q.claims with
      | .group _ u :: _ | .formed _ u :: _ => u
      | [] => 0
    let reserved := ((s.core core).quotas.map Quota.units).sum
    BitVec.ofNat 64 ((q.slots - held) % 64 * 2 ^ 48 + s.freeUnits core lid % 2 ^ 11 * 2 ^ 32 + head % 2 ^ 11 * 2 ^ 16
      + (1024 - reserved) % 2 ^ 11)

/-- Some queue has ENABLE = 1. -/
def anyEnabled (s : State) : Bool := s.queues.any fun e => e.2.enable

end State

/-! ## System registers (17 R448, R464) -/

namespace Ctx

/-- The value of a system register as the group reads it at its issue. -/
def sysRead (c : Ctx) (s : State) (idx : Nat) : W64 :=
  let o := c.o
  let k := clusterOf o.b.core
  let trap (v : Group → W64) : W64 := ((s.group? c.gid).map v).getD 0
  if idx = 0x000 then BitVec.ofNat 64 ((o.c.number * o.l.cohortBlocks + o.b.index) % 2 ^ 40)
  else if idx = 0x001 then BitVec.ofNat 64 (o.b.gslots.length % 64 * 2 ^ 8 + o.g.slot % 32)
  else if idx = 0x002 then BitVec.ofNat 64 (o.b.index % 16 * 2 ^ 32 + o.c.number % 2 ^ 32)
  else if idx = 0x003 then BitVec.ofNat 64 ((s.logicalOf (coreSlot o.b.core)).getD 0)
  else if idx = 0x004 then BitVec.ofNat 64 (k % 24)
  else if idx = 0x005 then BitVec.ofNat 64 (o.g.islot * 2 ^ 8 + o.g.gslot * 2 ^ 2 + o.b.core % 4)
  else if idx = 0x006 then BitVec.ofNat 64 ((s.group? c.gid).map Group.cls |>.getD 0)
  else if idx = 0x007 then BitVec.ofNat 64 (o.l.shapeZ * 2 ^ 32 + o.l.shapeY * 2 ^ 16 + o.l.shapeX)
  else if idx = 0x008 then BitVec.ofNat 64 windowBase
  else if idx = 0x010 then BitVec.ofNat 64 (passFloor (s.cluster k) * 2 ^ 8 + (s.cluster k).pass)
  else if idx = 0x011 then s.pwrStat k
  else if idx = 0x018 then s.mxStat o.b.core
  else if idx = 0x020 then s.regQuota o.b.core o.c.launch
  else if idx = 0x021 then s.regFree o.b.core o.c.launch
  else if idx = 0x030 then s.shelfmark
  else if idx = 0x100 then trap Group.trapCause
  else if idx = 0x101 then trap Group.trapPc
  else if idx = 0x102 then trap Group.trapCaddr
  else if idx = 0x103 then trap Group.trapFaddr
  else if idx = 0x104 then trap Group.trapInfo
  else if idx = 0x105 then trap Group.trapSave
  else if idx = 0x110 then o.l.aspace
  else if idx = 0x140 then s.trapVec
  else if idx = 0x142 then s.ctxStore
  else if idx = 0x143 then s.ctxUnits
  else if idx = 0x1A0 then s.fevThresh.setWidth 64
  else if idx = 0x1B2 then BitVec.ofNat 64 s.thot
  else if idx = 0x1B3 then BitVec.ofNat 64 s.tcool
  else if idx = 0x1B4 then BitVec.ofNat 64 s.drpLvl
  else if idx = 0x1B5 then BitVec.ofNat 64 s.drpStretch
  else if idx = 0x1B6 then BitVec.ofNat 64 s.drpHold
  else if idx = 0x1B7 then s.boostCfg
  else if 0x1C0 ≤ idx && idx ≤ 0x1C3 then s.driftStat (idx - 0x1C0)
  else if idx = 0x1C4 then s.bgShare
  else if idx = 0x1D0 then s.netWrr
  else if 0x1E0 ≤ idx && idx ≤ 0x1E7 then s.power.curve.getD (idx - 0x1E0) 0
  else if idx = 0x1E8 then setField s.power.ctl 40 1 0
  else if idx = 0x1E9 then s.shedCfg
  else if idx = 0x1EA then s.pstpStat
  else if idx = 0x1F0 then s.qtab
  else 0

end Ctx

/-- What a write of a system register comes to: taken, or refused. -/
abbrev SysWrite := Option State

/-- The value sets no bit outside a mask: no RSV bit (00 R6). -/
def onlyBits (v : W64) (mask : Nat) : Bool := v.toNat &&& mask == v.toNat

/-- A field lies in a range. -/
def inRange (v : W64) (lo n least most : Nat) : Bool := least ≤ fieldOf v lo n && fieldOf v lo n ≤ most

namespace Ctx

/-- A write of a system register: none where it is refused, by 00 R6 or by the register's own rule (17 R464). -/
def sysWrite (c : Ctx) (s : State) (idx : Nat) (v : W64) : SysWrite :=
  let k := clusterOf c.o.b.core
  let when (p : Bool) (t : State) : SysWrite := if p then some t else none
  if idx ≤ 0x008 || idx = 0x011 || idx = 0x018 || idx = 0x020 || idx = 0x021 then none
  else if idx = 0x010 then
    when (onlyBits v 0x303 && inRange v 0 2 0 2) (s.modCluster k fun x => { x with pass := fieldOf v 0 2 })
  else if idx = 0x100 then when (onlyBits v 0x3FF) s
  else if idx = 0x140 then when (onlyBits v 0x7FFFFFFFFFFFF8) { s with trapVec := v }
  else if idx = 0x142 then when (onlyBits v 0x7FFFFFFFFF0000 && !s.anyEnabled) { s with ctxStore := v }
  else if idx = 0x143 then when (onlyBits v 0xFFFFFFFF && !s.anyEnabled) { s with ctxUnits := v }
  else if idx = 0x1A0 then when (onlyBits v 0xFFFFFFFF) { s with fevThresh := v.setWidth 32 }
  else if idx = 0x1B2 then
    when (onlyBits v 0xFF && inRange v 0 8 60 125 && s.tcool + 4 ≤ fieldOf v 0 8) { s with thot := fieldOf v 0 8 }
  else if idx = 0x1B3 then
    when (onlyBits v 0xFF && inRange v 0 8 60 125 && fieldOf v 0 8 + 4 ≤ s.thot) { s with tcool := fieldOf v 0 8 }
  else if idx = 0x1B4 then when (onlyBits v 0xFF && inRange v 0 8 20 80) { s with drpLvl := fieldOf v 0 8 }
  else if idx = 0x1B5 then when (onlyBits v 0x3F && inRange v 0 6 1 32) { s with drpStretch := fieldOf v 0 6 }
  else if idx = 0x1B6 then when (onlyBits v 0xFFF) { s with drpHold := fieldOf v 0 12 }
  else if idx = 0x1B7 then when (onlyBits v 0xFFFF && inRange v 8 8 1 100 && inRange v 0 8 0 192) { s with boostCfg := v }
  else if idx = 0x1C4 then when (onlyBits v 0xFFFF && inRange v 8 8 1 255 && inRange v 0 8 1 50) { s with bgShare := v }
  else if idx = 0x1D0 then
    when (onlyBits v 0xFFFF && inRange v 0 4 1 15 && inRange v 4 4 1 15 && inRange v 8 4 1 15 && inRange v 12 4 1 15)
      { s with netWrr := v }
  else if 0x1E0 ≤ idx && idx ≤ 0x1E7 then
    when (onlyBits v 0x80FFFFFFFFFFFFFF) { s with power := { s.power with curve := s.power.curve.set (idx - 0x1E0) v } }
  else if idx = 0x1E8 then
    if !onlyBits v 0x307FFFFFFFF then none
    else
      -- BAD keeps its value; COMMIT reads 0 and is remembered until the commit is performed (15 R416).
      let ctl := setField (setField v 41 1 (fieldOf s.power.ctl 41 1)) 40 1 (fieldOf (v ||| s.power.ctl) 40 1)
      some { s with power := { s.power with ctl := ctl }
                    agenda := if v.getLsbD 40 then .op .curveCommit :: s.agenda else s.agenda }
  else if idx = 0x1E9 then
    when (onlyBits v 0xFFFFFFFFF && inRange v 0 16 50 2000 && inRange v 16 16 10 1000 && inRange v 32 4 1 8)
      { s with shedCfg := v }
  else if idx = 0x1F0 then when (onlyBits v 0xFFFFFFFFE0000 && !s.anyEnabled) { s with qtab := v }
  else some s

end Ctx

/-- SREAD (17 R464). -/
def execSread (w : IWord) (s : State) : Out :=
  runWord (.sread w) (fun c s =>
    let v := c.sysRead s w.imm.toNat
    c.write s w.d fun _ => [lowHalf v, highHalf v]) s

/-- SWRITE (17 R464). -/
def execSwrite (w : IWord) (s : State) : Out :=
  runWord (.swrite w) (fun c s =>
    match c.l0 with
    | none => .done s []
    | some l =>
      match c.sysWrite s w.imm.toNat (c.rdw w.a l) with
      | none => c.write s w.d fun _ => [1]
      | some t => c.write t w.d fun _ => [0]) s

/-- CAPQ (18 R477). -/
def execCapq (w : IWord) (s : State) : Out :=
  runWord (.capq w) (fun c s =>
    let v := s.shownWord w.imm.toNat
    c.write s w.d fun _ => [lowHalf v, highHalf v]) s

/-! ## Return and acknowledgement (17 R454, R456) -/

/-- The frame of a lane: k0:k1 and k2:k3 (17 R451). -/
def frameOf (g : Group) (i : Nat) : W64 × W64 :=
  (pair (g.reg i 120) (g.reg i 121), pair (g.reg i 122) (g.reg i 123))

/-- The thread of a lane of H after the return: where its frame says, live; a lane that entered exited, helper or gone
is so again unless its frame has changed (17 R454). -/
def returned (g : Group) (i : Nat) : Thread :=
  let f := frameOf g i
  let e := g.entry.getD i Thread.empty
  let same := f == (e.pc, e.resume.getD e.pc)
  let t : Thread := { e with
    pc := if f.1 = f.2 then f.2 else f.1, resume := if f.1 = f.2 then none else some f.2, served := e.served && same }
  let was := e.st == .exited || e.st == .helper || e.st == .gone
  if was && t == e then e else { t with st := .live, age := 0 }

/-- A group out of handler mode: what handler mode kept is gone, and meetings and helper lanes count again
(17 R450, R451, R454). -/
def leftHandler (g : Group) : Group :=
  let g := { g with handler := false, shedHold := g.shedHold || g.holdNext, hset := [], entry := [], recorded := none
                    run := none, blocked := none, hsaved := none }
  ((g.holdMet lanes32).releaseMet).dropHelpers

/-- The return of a group whose threads take their places by `f`: its clause ends there (17 R454). -/
def Ctx.returnBy (c : Ctx) (s : State) (f : Group → Group) : State :=
  let s := (s.freeSlot c.core c.gid).modGroup c.gid fun g => leftHandler (f g)
  if c.r.yh || c.r.yielded then
    s.modGroup c.gid fun x => { x with yieldTo := s.yieldList c.gid c.o.g c.core c.r.yielded }
  else s

/-- ERET: the group leaves handler mode; what waits to be delivered is delivered before any word issues (17 R454). -/
def execEret (w : VWord) (s : State) : Out :=
  runWord (.eret w) (fun c s =>
    let g := c.o.g
    let code := g.trapCause.toNat % 256
    match if code = Cause.preempt || code = Cause.shed then g.recorded else none with
    | some ts => .left ((c.returnBy s fun g => { g with lanes := ts }).settleGroup c.gid)
    | none =>
      match g.hset.find? fun i => (frameOf g i).1.toNat % 8 != 0 || (frameOf g i).2.toNat % 8 != 0 with
      | some i =>
        let f := frameOf g i
        c.trap (Cause.align (if f.1.toNat % 8 != 0 then f.1 else f.2)) s
      | none =>
        .left ((c.returnBy s fun x => g.hset.foldl (fun x i => x.setLane i (returned g i)) x).settleGroup c.gid)) s

/-- PMACK: once every earlier write of the group is performed at `.dev` the group issues nothing further (17 R456). -/
def execPmack (w : VWord) (s : State) : Out :=
  runWord (.pmack w) (fun c s =>
    if s.ops.any fun e => e.2.gid == c.gid && s.unperformed e.1 e.2 then .block .pmack s
    else
      let s := (s.cleanSelf c.core).freeSlot c.core c.gid
      .left ((s.modGroup c.gid fun g => { g with pmacked := true, run := none, blocked := none }).settleGroup c.gid)) s

/-! ## LEASEQ, FEVQ and HCALL (17 R465 to R467) -/

/-- The rights of leases at an address. -/
def rightsAt (ls : List Lease) (a : Nat) : Nat :=
  let at_ := ls.filter fun x => x.base ≤ a && a < x.base + x.len
  (if at_.any (·.r) then 1 else 0) + (if at_.any (·.w) then 2 else 0)

/-- LEASEQ of an address (17 R465). -/
def leaseQuery (ls : List Lease) (a : Nat) : Nat :=
  if inWindow a then 8
  else if 2 ^ 55 ≤ a then 0
  else
    let all := rightsAt ls a
    let given := rightsAt (ls.filter fun x => !x.implicit) a
    all + (if given = all then 0 else 4)

/-- LEASEQ. -/
def execLeaseq (w : VWord) (s : State) : Out :=
  runWord (.leaseq w) (fun c s =>
    let ls := s.leasesOf c.o.l
    c.write s w.d fun i => [BitVec.ofNat 32 (leaseQuery ls (c.rdw w.a i).toNat)]) s

/-- FEVQ. -/
def execFevq (w : VWord) (s : State) : Out :=
  runWord (.fevq w) (fun c s =>
    let k := ((s.launch? c.lid).map Launch.counters).getD []
    c.write s w.d fun i => [BitVec.ofNat 32 (k.getD ((c.rd w.a i).toNat % 32) 0)]) s

/-- HCALL. -/
def execHcall (w : IWord) (s : State) : Out :=
  runWord (.hcall w) (fun c s =>
    match c.l0 with
    | none => .done s []
    | some l =>
      let q := c.o.l.queue
      if (s.queue q).evq = 0 then c.write s w.d fun _ => [1]
      else
        let w2 := BitVec.ofNat 64 (w.imm.toNat + (c.sysRead s 0).toNat % 2 ^ 32 * 2 ^ 32)
        c.write (s.postEvent q 6 0 0 c.o.l.recId w2 (c.rdw w.a l)) w.d fun _ => [0]) s

/-! ## Boost leases (15 R405 to R407) -/

/-- The result of BOOST: a code and a time. -/
def boostResult (code t : Nat) : W32 := BitVec.ofNat 32 (code * 2 ^ 28 + t % 2 ^ 14)

namespace Ctx

/-- BOOST acts once for the block, on its lease as it stands at the issue. -/
def boosting (c : Ctx) (s : State) (d : BitVec 7) (body : State → Block → Option Nat → Except Cause (State × W32)) : WordOut :=
  if c.real.isEmpty then .done s []
  else
    let s1 := s.expireBoosts
    match s1.block? c.bid with
    | none => .done s []
    | some b =>
      match body s1 b (s1.boostLeft b) with
      | .error x => c.trap x s
      | .ok (t, r) => c.write t d fun _ => [r]

end Ctx

/-- BOOST: a request. -/
def execBoost (w : VWord) (s : State) : Out :=
  runWord (.boost w) (fun c s => c.boosting s w.d fun s b left =>
    let t := (c.rd w.a (c.l0.getD 0)).toNat
    if t = 0 then .error (Cause.operand 0)
    else match left with
      | some n => .ok (s, boostResult 4 n)
      | none =>
        match s.boostRefusal b (s.classAllowed c.o.g.cls) with
        | some code => .ok (s, boostResult code 0)
        | none => .ok (s.startBoost c.bid (min t 10000), boostResult 0 (min t 10000))) s

/-- BOOST.q: a query. -/
def execBoostQuery (w : VWord) (s : State) : Out :=
  runWord (.boostQuery w) (fun c s => c.boosting s w.d fun s b left =>
    match left with
    | some n => .ok (s, boostResult 4 n)
    | none =>
      .ok (s.modBlock c.bid fun b => { b with boostNote := 0 }, boostResult (if b.boostNote = 0 then 5 else b.boostNote) 0)) s

/-- BOOST.rel: a release. -/
def execBoostRelease (w : VWord) (s : State) : Out :=
  runWord (.boostRelease w) (fun c s => c.boosting s w.d fun s _ left =>
    match left with
    | some n => .ok (s.endBoost c.bid 0, boostResult 6 n)
    | none => .ok (s, boostResult 5 0)) s

/-- BOOST_LEASE_EXPIRY (15 R407). -/
def execBoostLeaseExpiry (block : Nat) (s : State) : Out := .next (s.expireBoost block)

/-! ## Priority (15 R409, R420) -/

namespace State

/-- A group of a cohort is shed (15 R419). -/
def hasShed (s : State) (c : Cohort) : Bool :=
  c.blocks.any fun b => (s.groupsOf b).any fun e => !s.classAllowed e.2.cls

/-- The barrier window starts for every shed group of a cohort that has none (15 R420). -/
def startWindow (s : State) (cid : Nat) : State :=
  match s.cohort? cid with
  | none => s
  | some c => (c.blocks.map fun b => (s.groupsOf b)).flatten.foldl (fun s e =>
      s.modGroup e.1 fun g =>
        if !s.classAllowed g.cls && g.shedAt.isNone then { g with shedAt := some (s.now + us (fieldOf s.shedCfg 0 16)) }
        else g) s

end State

/-- PRICLS (15 R409). -/
def execPricls (w : IWord) (s : State) : Out :=
  runWord (.pricls w) (fun c s =>
    if c.real.isEmpty then .done s []
    else
      let n := w.imm.toNat % 8
      let s := s.modGroup c.gid fun g => s.freed { g with cls := n }
      .done (if s.classAllowed n then s else s.startWindow c.cid) []) s

end Sys2Proof.Machine
end

