-- ==== Sys2Proof/Machine/Place.lean ====
section
/-! DEFINITION. What a block needs to start, quotas, room in the context store, the start of a cohort, and the choice of
what to pre-empt (04 R91 to R93, 05 R135, R136, 12 R323, R324, 16 R435, R440, R441, 17 R455, R458). -/

namespace Sys2Proof.Machine

/-- What a block takes of a core (04 R91, 12 R323). -/
structure Need where
  slots : Nat
  units : Nat
  scratch : Nat
  tiles : Nat
  accs : Nat
  deriving DecidableEq, Repr

/-- The need of a block that starts (05 R136). -/
def Launch.need (l : Launch) : Need := ⟨l.ngroups, l.ngroups * l.groupUnits, l.scratch, l.tiles, l.accs⟩

/-- The 64 KiB units of an image (17 R458). -/
def Launch.imageUnits (l : Launch) : Nat := (l.image.size + 65535) / 65536

namespace State

/-! ## Quotas and room on a core -/

/-- The blocks on a core, with their launches. -/
def blocksOn (s : State) (core : Nat) : List (Nat × Block × Nat × Launch) :=
  s.blocks.filterMap fun e =>
    if e.2.core != core then none
    else match s.launchOfBlock e.1 with
      | some lid => (s.launch? lid).map fun l => (e.1, e.2, lid, l)
      | none => none

/-- The quota of a launch on a core is reserved, where it lies in no other (16 R441). -/
def withQuota (s : State) (core lid : Nat) (l : Launch) : Option State :=
  match s.quota? core lid with
  | some _ => some s
  | none =>
    let q := (s.core core).quotas
    if (q.map Quota.units).sum + l.quotaUnits ≤ 1024 && (q.map Quota.slots).sum + l.quotaSlots ≤ 48
        && (q.map Quota.scratch).sum + l.quotaScratch ≤ 262144 then
      some (s.modCore core fun c => { c with quotas := c.quotas ++ [⟨lid, l.quotaUnits, l.quotaSlots, l.quotaScratch, []⟩], icache := [] })
    else none

/-- The quota, and the group slots that a block of the launch takes on a core, where the core and the quota have room for
its need (04 R91, 05 R135, 12 R323): those it keeps, for a block that has run (04 R94, log 84), or else the lowest free. -/
def roomFor (s : State) (core lid : Nat) (l : Launch) (n : Need) (keep : Option (List Nat) := none) : Option (State × List Nat) :=
  match s.withQuota core lid l with
  | none => none
  | some s =>
    match s.quota? core lid with
    | none => none
    | some q =>
      let here := s.blocksOn core
      let mine := here.filter fun e => e.2.2.1 == lid
      let slots := (mine.map fun e => e.2.1.gslots.length).sum
      let scratch := (mine.map fun e => e.2.2.2.scratch).sum
      let tiles := (here.map fun e => e.2.2.2.tiles).sum
      let accs := (here.map fun e => e.2.2.2.accs).sum
      let taken := (here.map fun e => e.2.1.gslots).flatten
      let free := (List.range 48).filter fun k => !taken.contains k
      if slots + n.slots ≤ q.slots && n.units ≤ s.freeUnits core lid && scratch + n.scratch ≤ q.scratch
          && tiles + n.tiles ≤ 16 && accs + n.accs ≤ 16 && n.slots ≤ free.length then
        match keep with
        | none => some (s, free.take n.slots)
        | some gs => if gs.all free.contains then some (s, gs) else none
      else none

/-- The number of fresh blocks of a launch that a core has room for, up to 16. -/
def blockRoom (s : State) (core lid : Nat) (l : Launch) : Nat :=
  match s.withQuota core lid l with
  | none => 0
  | some s =>
    match s.quota? core lid with
    | none => 0
    | some q =>
      if !q.claims.isEmpty then 0 else
      let here := s.blocksOn core
      let mine := here.filter fun e => e.2.2.1 == lid
      let fit (free need : Nat) : Nat := if need = 0 then 16 else free / need
      let slots := q.slots - (mine.map fun e => e.2.1.gslots.length).sum
      let scratch := q.scratch - (mine.map fun e => e.2.2.2.scratch).sum
      let tiles := 16 - (here.map fun e => e.2.2.2.tiles).sum
      let accs := 16 - (here.map fun e => e.2.2.2.accs).sum
      let n := l.need
      min 16 (min (fit slots n.slots) (min (fit (s.freeUnits core lid) n.units) (min (fit scratch n.scratch)
        (min (fit tiles n.tiles) (fit accs n.accs)))))

/-! ## The context store (17 R458, log 20) -/

/-- The units of the context store that images hold, as ranges of units. -/
def imageRanges (s : State) : List (Nat × Nat) :=
  let unit (a : Nat) : Nat := (a - s.ctxStore.toNat) / 65536
  let live := s.blocks.filterMap fun e =>
    (s.launchOfBlock e.1).bind s.launch? |>.map fun l => (unit e.2.image, l.imageUnits)
  let kept := (s.cohorts.map fun e => match e.2.state with
    | .saved _ bs => match s.launch? e.2.launch with
      | some l => bs.map fun (b : Saved) => (unit b.block.image, l.imageUnits)
      | none => []
    | _ => []).flatten
  live ++ kept

/-- The first run of `n` units of the context store that no image of a list holds, from unit `k` on (log 20). -/
def freeRun (total n : Nat) (used : List (Nat × Nat)) : Nat → Nat → Option Nat
  | 0, _ => none
  | fuel + 1, k =>
    if total < k + n then none
    else match used.find? fun u => k < u.1 + u.2 && u.1 < k + n with
      | some u => freeRun total n used fuel (u.1 + u.2)
      | none => some k

/-- The places of `b` images of `n` units each, or none where the store has no room. -/
def imagePlaces (s : State) (n : Nat) : Nat → List (Nat × Nat) → Option (List Nat)
  | 0, _ => some []
  | b + 1, used =>
    match freeRun s.ctxUnits.toNat n used (used.length + 1) 0 with
    | none => none
    | some k => (s.imagePlaces n b ((k, n) :: used)).map fun l => (s.ctxStore.toNat + 65536 * k) :: l

/-! ## The balance of placement (15 R393 step 1) -/

/-- The imbalance of a cluster's pair with a current added to the cluster: the difference of the layers, and the larger
(15 R392). -/
def imbalance (s : State) (k add : Nat) : Nat × Nat :=
  let a := (s.cluster k).amps + add
  let b := (s.cluster (pairOf k)).amps
  (max a b - min a b, max a b)

/-- The PKS prefers the cluster of a core for a block that adds a current: no other cluster of the chiplet with room for the
block has a pair that would be less unbalanced (15 R393 step 1, log 83). -/
def prefers (s : State) (core add : Nat) (fits : Nat → Bool) : Bool :=
  let k := clusterOf core
  let same (j : Nat) : Bool := (s.cluster j).amps == (s.cluster k).amps && (s.cluster (pairOf j)).amps == (s.cluster (pairOf k)).amps
  (clustersOf (coreSlot core)).all fun j => same j
    || !decide ((s.imbalance j add).1 * max 1 (s.imbalance k add).2 < (s.imbalance k add).1 * max 1 (s.imbalance j add).2)
    || !(coresOf j).any fits

/-! ## The start of a cohort -/

/-- The registers of a group as it starts: w0 holds ARGS in every lane (05 R133, 16 R435). -/
def startRegs (l : Launch) : List (Nat × W32) :=
  lanes32.foldl (fun t i => tset 0 (tset 0 t i (lowHalf l.args)) (32 + i) (highHalf l.args)) []

/-- A block as it starts (04 R92, R119, 08 R207, 12 R324). -/
def freshBlock (cid idx core image : Nat) (gslots : List Nat) : Block :=
  { cohort := cid, index := idx, core := core, gslots := gslots, barriers := List.replicate 16 ⟨false, .unset, []⟩
    pool := [], forming := [], conv := List.replicate 8 ⟨[], [], none⟩, tiles := [], tcfg := List.replicate 16 0
    accs := [], vectorTokens := [], scratch := [], hwm := 0, bufq := [], boostUntil := none, boostBank := 0
    boostNote := 0, image := image }

/-- A block of a launch starts on a core with all its groups (04 R91, R92), while the claim queue there is empty
(05 R138). -/
def startBlock (s : State) (lid cid idx core image : Nat) (l : Launch) : Option (State × Nat) :=
  match if (s.quota? core lid).any fun q => !q.claims.isEmpty then none else s.roomFor core lid l l.need with
  | none => none
  | some (s, gs) =>
    let bid := s.fresh
    let s := { s with fresh := bid + 1 }.setBlock bid (freshBlock cid idx core image gs)
    let lanes := List.replicate 32 (Thread.start l.entry)
    let regs := startRegs l
    let s := (List.range l.ngroups).foldl (fun s i =>
      s.setGroup (gidOf bid i) (Group.fresh bid i (gs.getD i 0) l.regs l.cls lanes regs false)) s
    some (s, bid)

/-- The cohort of a launch with a number starts on the cores given of a chiplet slot, all its blocks at once, or not at all
(04 R91, R93). -/
def startCohort (s : State) (lid number slot : Nat) (cores : List Nat) (l : Launch) : Option State :=
  let n := l.cohortBlocks
  if cores.length != n || cores.any (96 ≤ ·) then none
  else match s.imagePlaces l.imageUnits n s.imageRanges with
    | none => none
    | some images =>
      let cid := s.fresh
      let c : Cohort := { launch := lid, number := number, chip := slot, blocks := [], state := .running, lastMove := none }
      let s := { s with fresh := cid + 1 }.setCohort cid c
      let step (a : Option (State × List Nat)) (i : Nat) : Option (State × List Nat) :=
        a.bind fun (s, bs) =>
          let core := 96 * slot + cores.getD i 0
          if !s.prefers core (Config.blockAmps l.record) (fun c => 0 < s.blockRoom c lid l) then none
          else (s.startBlock lid cid i core (images.getD i 0) l).map fun r => (r.1, bs ++ [r.2])
      match (List.range n).foldl step (some (s, [])) with
      | none => none
      | some (s, bs) => some (s.setCohort cid { c with blocks := bs })

/-! ## Who waits, and what gives way (16 R440, 17 R455) -/

/-- A chiplet slot has room for a fresh cohort of a launch. -/
def chipRoom (s : State) (slot lid : Nat) (l : Launch) : Bool :=
  (s.chiplet slot).power == .active
    && decide (l.cohortBlocks ≤ ((List.range 96).map fun c => s.blockRoom (96 * slot + c) lid l).sum)

/-- The launches parsed before a launch from its queue, which it follows; the nodes of graphs follow their edges alone
(16 R433, R443). -/
def earlier (s : State) (lid : Nat) (l : Launch) : List (Nat × Launch) :=
  if l.graph.isSome then []
  else s.launches.filter fun e => e.2.queue == l.queue && e.1 < lid && e.2.system == l.system && e.2.graph.isNone
    && e.2.status.isNone

/-- A cohort of the launch has been placed. -/
def begun (l : Launch) : Bool := l.placed != 0 || !l.ahead.isEmpty

/-- A launch has a cohort to place (16 R433, R440): it is in placement, its class is allowed, and the launches parsed
before it from its queue have placed every cohort. -/
def placing (s : State) (lid : Nat) (l : Launch) : Bool :=
  l.stage == .placing && l.status.isNone && s.classAllowed l.cls
    && (!l.again.isEmpty || (decide (l.placed < l.cohortCount)
      && (begun l || (s.earlier lid l).all fun e => e.2.placed == e.2.cohortCount)))

/-- A cohort number of a launch still to be placed, in whatever order (04 R93). -/
def unplaced (l : Launch) (n : Nat) : Bool :=
  l.again.contains n || (decide (l.placed ≤ n) && decide (n < l.cohortCount) && !l.ahead.contains n)

/-- The numbers placed ahead of order that follow on the count. -/
def catchUp : Nat → Nat → List Nat → Nat × List Nat
  | 0, k, l => (k, l)
  | fuel + 1, k, l => if l.contains k then catchUp fuel (k + 1) (l.erase k) else (k, l)

/-- A launch with one more of its cohorts placed. -/
def nowPlaced (l : Launch) (n : Nat) : Launch :=
  if l.again.contains n then { l with again := l.again.erase n }
  else
    let r := catchUp (l.ahead.length + 1) l.placed (insertNat n l.ahead)
    { l with placed := r.1, ahead := r.2 }

/-- A launch goes before another in placement. -/
def before (l m : Launch) : Bool := m.cls < l.cls || (l.cls = m.cls && l.order < m.order)

/-- A cohort of the launch fits on some active chiplet now. -/
def fitsNow (s : State) (lid : Nat) (l : Launch) : Bool :=
  (s.imagePlaces l.imageUnits l.cohortBlocks s.imageRanges).isSome && (List.range 9).any fun p => s.chipRoom p lid l

/-- The blocks of a saved cohort find room on a chiplet slot, each on the first core that has it, with their groups'
allocations and group slots (16 R441, R442, log 9). -/
def savedRoom (s : State) (slot lid : Nat) (l : Launch) (blocks : List Saved) : Bool :=
  (s.chiplet slot).power == .active && (blocks.foldl (fun (a : Option State) x => a.bind fun t =>
    (List.range 96).findSome? fun c =>
      (t.roomFor (96 * slot + c) lid l { l.need with units := (x.groups.map fun e => e.2.units).sum } (some x.block.gslots)).map
        fun r => x.groups.foldl (fun t e => t.setGroup e.1 e.2) (r.1.setBlock x.bid { x.block with core := 96 * slot + c }))
          (some s)).isSome

/-- A saved cohort may be restored as far as its classes and TRAP_VEC go (15 R420, 17 R453). -/
def restorable (s : State) (blocks : List Saved) : Bool :=
  s.trapVec != 0 && blocks.all fun x => x.groups.all fun g => s.classAllowed g.2.cls

/-- Some cohort that can start now goes before one of a launch: the next fresh cohort of another launch that fits, or a saved
cohort of another launch, in no move, that fits (16 R440). -/
def outranked (s : State) (lid : Nat) (l : Launch) : Bool :=
  (s.launches.any fun e => e.1 != lid && before e.2 l && s.placing e.1 e.2 && s.fitsNow e.1 e.2)
    || s.cohorts.any fun e => match e.2.state, s.launch? e.2.launch with
      | .saved p bs, some m => e.2.launch != lid && before m l && p.move.isNone && s.restorable bs
          && (List.range 9).any fun k => s.savedRoom k e.2.launch m bs
      | _, _ => false

/-- The state without the blocks of a list of cohorts. -/
def without (s : State) (cs : List (Nat × Cohort)) : State :=
  cs.foldl (fun s c => c.2.blocks.foldl (fun s b => s.dropBlock b) s) s

/-- The cohorts of a chiplet that may give way to a class, in ascending order of class, of number and of entry
(17 R455). -/
def victims (s : State) (slot cls : Nat) : List (Nat × Cohort) :=
  let clsOf (c : Cohort) : Nat := ((s.launch? c.launch).map Launch.cls).getD 7
  let l := s.cohorts.filter fun e => e.2.chip == slot && e.2.state == .running && decide (clsOf e.2 < cls)
  sortBy (fun a b => clsOf a.2 < clsOf b.2
    || (clsOf a.2 = clsOf b.2 && (a.2.number < b.2.number || (a.2.number = b.2.number && a.1 ≤ b.1)))) l

/-- The fewest of the cohorts listed, in order, whose leaving gives a chiplet room for a cohort of the launch. -/
def fewest (s : State) (slot lid : Nat) (l : Launch) : List (Nat × Cohort) → List (Nat × Cohort) → Option (List (Nat × Cohort))
  | taken, [] => if s.chipRoom slot lid l then some taken else none
  | taken, c :: rest =>
    if s.chipRoom slot lid l then some taken else (s.without [c]).fewest slot lid l (taken ++ [c]) rest

/-- What the PKS pre-empts for a waiting launch: on the chiplet that needs the fewest cohorts, then of the lowest logical
number (17 R455). Cohorts that are being pre-empted are as good as gone. -/
def giveWay (s : State) (lid : Nat) (l : Launch) : Option (List (Nat × Cohort)) :=
  let going := s.cohorts.filter fun e => match e.2.state with
    | .preempting _ => true
    | _ => false
  let s0 := s.without going
  if (List.range 9).any fun p => s0.chipRoom p lid l then none
  else
    (List.range 8).foldl (fun best i =>
      match s.slotOf i with
      | none => best
      | some p =>
        match s0.fewest p lid l [] (s0.victims p l.cls) with
        | none => best
        | some v => match best with
          | some b => if v.length < b.length then some v else best
          | none => some v) none

/-! ## Pre-emption (17 R453, R455) -/

/-- The groups of a cohort are asked to leave for a reason, those that have taken a cause already but for it; a request for a
shed ends the barrier windows (15 R420, 17 R455). -/
def askGroups (s : State) (c : Cohort) (reason : Nat) : State :=
  c.blocks.foldl (fun s b => (s.groupsOf b).foldl (fun s e => s.modGroup e.1 fun g =>
    { g with preempt := g.preempt || (reason == Cause.preempt && g.recorded.isNone)
             shed := g.shed || (reason == Cause.shed && g.recorded.isNone)
             shedAt := if reason = Cause.shed then none else g.shedAt }) s) s

/-- A request to pre-empt a whole cohort; with TRAP_VEC = 0 none is made (17 R453). A cohort that is asked to leave already
may still be asked for a shed, which goes first in each group that has taken no cause (17 R452). -/
def preempt (s : State) (cid reason : Nat) (move : Option (Nat × List Nat)) : State :=
  match s.cohort? cid with
  | none => s
  | some c =>
    if s.trapVec = 0 then s
    else
      match c.state with
      | .running => (s.setCohort cid { c with state := .preempting ⟨reason, s.now, s.now, move⟩ }).askGroups c reason
      | .preempting p =>
        if reason == Cause.shed then
          (s.setCohort cid { c with state := .preempting { p with reason := Cause.shed } }).askGroups c reason
        else s
      | .saved _ _ => s

/-! ## The move of a block within a launch's quotas (15 R399, 16 R442) -/

/-- The units that the groups of a block hold (05 R145). -/
def heldUnits (s : State) (bid : Nat) : Nat := ((s.groupsOf bid).map fun e => e.2.units).sum

/-- A block placed on another core, where that has room (16 R442). -/
def blockTo (s : State) (bid core : Nat) : Option State :=
  match s.block? bid, (s.launchOfBlock bid) with
  | some b, some lid =>
    match s.launch? lid with
    | none => none
    | some l =>
      (s.roomFor core lid l { l.need with units := s.heldUnits bid } (some b.gslots)).map fun r =>
        r.1.setBlock bid { b with core := core, gslots := r.2 }
  | _, _ => none

/-- Cores of a target cluster for the blocks of a cohort that are on a hot cluster, the other blocks staying; none where the
target has no room (15 R399). -/
def coolCores (s : State) (hot target : Nat) : List Nat → Option (List Nat)
  | [] => some []
  | bid :: rest =>
    match s.block? bid with
    | none => (s.coolCores hot target rest).map (0 :: ·)
    | some b =>
      if clusterOf b.core != hot then (s.coolCores hot target rest).map (b.core % 96 :: ·)
      else
        match (coresOf target).findSome? fun c => (s.blockTo bid c).map fun t => (c, t) with
        | none => none
        | some (c, t) => (t.coolCores hot target rest).map (c % 96 :: ·)

end State

end Sys2Proof.Machine
end

