-- ==== Sys2Proof/Machine/Power.lean ====
section
/-! DEFINITION. Power, current and heat: the balance controller, the droop detector, hot clusters, the rail ceiling, the
telemetry port, the droop curve, ebb and flood, shedding (15 R391 to R422). -/

namespace Sys2Proof.Machine

/-! ## The balance controller (15 R392, R393) -/

/-- BALANCE_EVALUATION: the mean currents of the two layers of a pair over the last 10 µs. -/
def execBalanceEvaluation (slot pair iLo iHi : Nat) (s : State) : Out :=
  let lo := 24 * slot + 2 * pair
  let hi := lo + 1
  if (s.chiplet slot).power != .active || s.now < (s.cluster lo).evalAt + State.us 1 then .next s
  else
    let top := max iLo iHi
    let diff := top - min iLo iHi
    -- Δ against a percentage, exactly; two idle layers are balanced.
    let above (p : Nat) : Bool := p * top < 100 * diff
    let calm := 100 * diff < 4 * top || top = 0
    let light := if iLo ≤ iHi then lo else hi
    let heavy := if iLo ≤ iHi then hi else lo
    let s := (s.modCluster lo fun c => { c with evalAt := s.now, amps := iLo }).modCluster hi fun c => { c with amps := iHi }
    let s := if above 6 then s.modCluster light fun c => { c with ballast := min 100 (c.ballast + 10) } else s
    let s := if calm then [lo, hi].foldl (fun (s : State) k => s.modCluster k fun c => { c with ballast := c.ballast - 10 }) s else s
    let s := if above 8 && (s.cluster light).ballast = 100 && (s.cluster heavy).balanceAt + State.us 2 ≤ s.now
        && (s.cluster heavy).balance < 2 then
        s.modCluster heavy fun c => { c with balance := c.balance + 1, balanceAt := s.now }
      else s
    .next ([lo, hi].foldl (fun (s : State) k => s.modCluster k fun c =>
      if !calm then { c with calmSince := none }
      else match c.calmSince with
        | none => { c with calmSince := some s.now }
        | some t =>
          if t + State.us 10 ≤ s.now then { c with balance := c.balance - 1, calmSince := some s.now } else c) s)

/-! ## The droop detector (15 R397) -/

/-- DROOP_TRIP: the local supply of a cluster falls by more than DRP_LVL; both layers of the pair stretch. -/
def execDroopTrip (cluster mv : Nat) (s : State) : Out :=
  if mv ≤ s.drpLvl || (s.chiplet (clusterSlot cluster)).power != .active then .next s
  else
    .next ([cluster, pairOf cluster].foldl (fun (s : State) k => s.modCluster k fun c =>
      { c with trips := (c.trips + 1) % 65536, droop := .stretch s.drpStretch s.drpHold }) s)

/-- DROOP_STRETCH_END: the stretched cycles are over. -/
def execDroopStretchEnd (cluster : Nat) (s : State) : Out :=
  .next (s.modCluster cluster fun c => match c.droop with
    | .stretch 0 h => { c with droop := if h = 0 then .idle else .hold h }
    | _ => c)

/-- DROOP_HOLD_END. -/
def execDroopHoldEnd (cluster : Nat) (s : State) : Out :=
  .next (s.modCluster cluster fun c => match c.droop with
    | .hold 0 => { c with droop := .idle }
    | _ => c)

/-! ## Heat (15 R399, R400) -/

namespace State

/-- The hottest twin reading of a cluster. -/
def hottestOf (s : State) (k : Nat) : Nat :=
  (coresOf k).foldl (fun m c => max m (max (s.core c).temp0 (s.core c).temp1)) 0

/-- A cluster is hot: for 1 ms both twins of one of its cores have read at or above THOT (15 R399). -/
def isHot (s : State) (k : Nat) : Bool := (s.cluster k).hotSince.any fun e => e.2 + ms 1 ≤ s.now

/-- The groups of a cohort on a cluster. -/
def groupsOn (s : State) (c : Cohort) (k : Nat) : Nat :=
  (c.blocks.map fun b => match s.block? b with
    | some x => if clusterOf x.core = k then (s.groupsOf b).length else 0
    | none => 0).sum

/-- The cohorts that may leave a hot cluster, the one with the most groups there first, then the lowest COHORT. -/
def hotCohorts (s : State) (k : Nat) : List (Nat × Cohort) :=
  let ok (e : Nat × Cohort) : Bool :=
    e.2.state == .running
      && (e.2.blocks.any fun b => ((s.block? b).map fun x => clusterOf x.core) == some k)
      && (e.2.blocks.all fun b => (s.groupsOf b).all fun g => g.2.cls != 7)
      && (match e.2.lastMove with
        | some t => decide (t + ms 20 ≤ s.now)
        | none => true)
  sortBy (fun a b => s.groupsOn b.2 k < s.groupsOn a.2 k || (s.groupsOn a.2 k = s.groupsOn b.2 k
    && (a.2.number < b.2.number || (a.2.number = b.2.number && a.1 ≤ b.1)))) (s.cohorts.filter ok)

/-- The targets for a hot cluster: clusters of its chiplet at least 6 °C cooler, the coolest first, then the lowest. -/
def coolTargets (s : State) (k : Nat) : List Nat :=
  let h := s.hottestOf k
  sortBy (fun a b => s.hottestOf a < s.hottestOf b || (s.hottestOf a = s.hottestOf b && a ≤ b))
    ((clustersOf (clusterSlot k)).filter fun t => s.hottestOf t + 6 ≤ h)

/-- The cohort chosen for a hot cluster moves to the coolest target with room, or the thermal code of the cluster rises. -/
def coolDown (s : State) (k : Nat) : State :=
  let move := match s.hotCohorts k with
    | [] => none
    | (cid, c) :: _ =>
      (s.coolTargets k).findSome? fun t => (s.coolCores k t c.blocks).map fun cores => (cid, c.chip, cores)
  match if s.trapVec = 0 then none else move with
  | some (cid, chip, cores) => s.preempt cid Cause.preempt (some (chip, cores))
  | none => s.modCluster k fun c => { c with thermal := min 2 (c.thermal + 1) }

end State

/-- THERMAL_CHECK, once per millisecond. -/
def execThermalCheck (s : State) : Out :=
  let due := match s.power.thermalAt with
    | some t => t + State.ms 1 ≤ s.now
    | none => true
  if !due then .next s
  else
    let s := { s with power := { s.power with thermalAt := some s.now } }
    let ks := (List.range 216).filter fun k => (s.chiplet (clusterSlot k)).power == .active
    let s := (ks.filter s.isHot).foldl (fun (s : State) k => s.coolDown k) s
    .next (ks.foldl (fun (s : State) k =>
      let c := s.cluster k
      match c.coolSince with
      | some t => if t + State.ms 1 ≤ s.now && 0 < c.thermal then
          s.setCluster k { c with thermal := c.thermal - 1, coolSince := some s.now }
        else s
      | none => s) s)

/-! ## The rail ceiling (15 R402) -/

namespace State

/-- Every cluster of the active chiplets. -/
def liveClusters (s : State) : List Nat := (List.range 216).filter fun k => (s.chiplet (clusterSlot k)).power == .active

/-- A block in a move no longer holds a lease that has time left; one that has run out has ended by itself (15 R407). -/
def Saved.revoked (x : Saved) (now : Nat) : Saved :=
  match x.block.boostUntil with
  | some t => { x with block := { x.block with boostUntil := none, boostNote := if now < t then 8 else x.block.boostNote } }
  | none => x

/-- Every boost lease is revoked, with note 8, those of blocks in a move among them (15 R407). -/
def revokeBoosts (s : State) : State :=
  let s := s.expireBoosts
  let s := s.blocks.foldl (fun (s : State) e => s.endBoost e.1 8) s
  { s with cohorts := s.cohorts.map fun (e : Nat × Cohort) => (e.1, match e.2.state with
      | .saved p bs => { e.2 with state := .saved p (bs.map fun x => Saved.revoked x s.now) }
      | _ => e.2) }

end State

/-- RAIL_CURRENT_SAMPLE: the mean of 10 µs, in mA. -/
def execRailCurrentSample (mA : Nat) (s : State) : Out :=
  let due := match s.power.railAt with
    | some t => t + State.us 10 ≤ s.now
    | none => true
  if !due then .next s
  else
    let l := (mA :: s.power.rail).take 1000
    let above := 1100000 < mA || (l.length = 1000 && l.all fun x => 960000 < x)
    let since := s.power.railSince
    let fall := !above && (match since with
      | some t => decide (t + State.us 100 ≤ s.now)
      | none => false)
    let s := { s with power := { s.power with rail := l, railOver := above, railAt := some s.now
                                              railSince := if above || fall then some s.now else since } }
    if above then
      .next (s.revokeBoosts.liveClusters.foldl (fun (s : State) k => s.modCluster k fun c => { c with rail := min 2 (c.rail + 1) })
        s.revokeBoosts)
    else if fall then .next (s.liveClusters.foldl (fun (s : State) k => s.modCluster k fun c => { c with rail := c.rail - 1 }) s)
    else .next s

/-! ## The droop curve (15 R415 to R417) -/

namespace Point

def en (p : W64) : Bool := p.getLsbD 63
def classes (p : W64) : Nat := fieldOf p 48 8
def ceil (p : W64) : Nat := fieldOf p 36 12
def fmin (p : W64) : Nat := fieldOf p 18 18
def vmin (p : W64) : Nat := fieldOf p 0 18

/-- A sample lies in a point, and in its restore region. -/
def holds (p : W64) (f v : Nat) : Bool := fmin p ≤ f && vmin p ≤ v
def restores (p : W64) (hyst : Nat × Nat) (f v : Nat) : Bool := fmin p + hyst.1 ≤ f && vmin p + hyst.2 ≤ v

/-- The limits the hardware keeps (15 R415, R423; log 24). -/
def inLimits (p : W64) : Bool := 900 ≤ ceil p && ceil p ≤ 2200 && (classes p).testBit 7

/-- A point may follow another in the curve. -/
def follows (p q : W64) : Bool :=
  fmin q ≤ fmin p && vmin q ≤ vmin p && ceil q ≤ ceil p && classes q &&& classes p == classes q

end Point

/-- The enabled points of a curve with their numbers, ascending. -/
def enabledPoints (curve : List W64) : List (Nat × W64) :=
  ((List.range 8).map fun i => (i, curve.getD i 0)).filter fun e => Point.en e.2

/-- Each point may follow the one before it. -/
def pointsFall : List (Nat × W64) → Bool
  | p :: q :: t => Point.follows p.2 q.2 && pointsFall (q :: t)
  | _ => true

/-- The commit check (15 R416). -/
def curveOk (curve : List W64) (failsafe : Nat) : Bool :=
  let l := enabledPoints curve
  (l.any fun e => e.1 == 0) && pointsFall l && (l.all fun e => Point.inLimits e.2)
    && (match l.getLast? with
      | some e => Point.fmin e.2 == 0 && Point.vmin e.2 == 0
      | none => false)
    && l.any fun e => e.1 == failsafe

/-- The point that a sample selects: the lowest enabled one it lies in (15 R417). -/
def selectPoint (curve : List W64) (f v : Nat) : Nat :=
  ((enabledPoints curve).find? fun e => Point.holds e.2 f v).map (·.1) |>.getD 0

/-- CURVE_COMMIT: a COMMIT that was written is checked; the curve that passes is in use from the next sample (15 R416). -/
def execCurveCommit (s : State) : Out :=
  let p := s.power
  if fieldOf p.ctl 40 1 = 0 then .next s
  else
    let ctl := setField p.ctl 40 1 0
    let fs := fieldOf ctl 32 3
    if curveOk p.curve fs then
      .next { s with power := { p with ctl := setField ctl 41 1 0
                                       pending := some (p.curve, fs, (fieldOf ctl 16 16, fieldOf ctl 0 16)) } }
    else .next { s with power := { p with ctl := setField ctl 41 1 1 } }

/-! ## Shedding (15 R419, R420, 17 R453) -/

namespace State

/-- A loose shed group is on a cluster (15 R418). -/
def shedOn (s : State) (k : Nat) : Bool :=
  s.groups.any fun e => s.looseShed e.2 && ((s.block? e.2.block).map fun b => clusterOf b.core) == some k

/-- The shed code of a cluster is 0 again where no loose shed group remains on it (15 R418). -/
def refreshShed (s : State) : State :=
  { s with clusters := s.clusters.map fun e => if e.2.shed != 0 && !s.shedOn e.1 then (e.1, { e.2 with shed := 0 }) else e }

/-- The classes allowed have changed: held groups of an allowed class go on, and windows start for cohorts that are shed
(15 R419, R420). -/
def classesChanged (s : State) : State :=
  let s : State := { s with groups := s.groups.map fun (e : Nat × Group) => (e.1, s.freed e.2) }
  s.cohorts.foldl (fun (s : State) e => s.startWindow e.1) s

end State

/-- SHED_WINDOW_EXPIRY: a cohort with a shed group that is neither held nor pre-empted is pre-empted as a whole; one that holds
a group of class 7, or that is never pre-empted, is held at clause boundaries instead (15 R420, 17 R453). -/
def execShedWindowExpiry (cohort : Nat) (s : State) : Out :=
  match s.cohort? cohort with
  | none => .next s
  | some c =>
    let gs := (c.blocks.map s.groupsOf).flatten
    let late := gs.filter fun e => s.looseShed e.2 && !e.2.holdNext && (match e.2.shedAt with
      | some t => decide (t ≤ s.now)
      | none => false)
    if late.isEmpty then .next s
    else if s.trapVec = 0 || gs.any (fun e => e.2.cls == 7) then
      .next (late.foldl (fun (s : State) e => s.modGroup e.1 fun g =>
        { g with holdNext := true, shedAt := none, shedHold := g.run.isNone && !g.handler }) s)
    else .next (s.preempt cohort Cause.shed none)

/-! ## Ebb and flood (15 R418, R422) -/

namespace State

/-- The point in force changes to one of the curve in use with its own classes: an ebb, or the first choice on a new curve
(15 R416, R418). -/
def setPoint (s : State) (j : Nat) : State :=
  let p := s.power.inUse.getD j 0
  let old := s.ceilW
  let s := s.commit [(28, curveWord j (Point.classes p) (Point.ceil p))]
  -- Below a ceiling that falls, power has stayed for no time yet (15 R418 step 3).
  let s := { s with power := { s.power with worse := [], flood := none
                                            lowSince := if Point.ceil p < old then none else s.power.lowSince } }
  let s := if Point.ceil p < 2200 then s.revokeBoosts else s
  let s := s.classesChanged
  s.liveClusters.foldl (fun (s : State) k => if s.shedOn k then s.modCluster k fun c => { c with shed := 2 } else s) s

/-- An ebb to a point. -/
def ebb (s : State) (j : Nat) : State :=
  let s := s.setPoint j
  { s with power := { s.power with ebb := true } }

/-- A point is put in force, whatever samples came before: an ebb where it is greater than the one in force. Word 28 is
committed where the point, its classes or its ceiling differ from what stands there (15 R412, R416, R418). That a change of
CEIL_W alone is committed, as one event, is the model's choice (DESIGN CHOICE, log 43). -/
def choosePoint (s : State) (j : Nat) : State :=
  let p := s.power.inUse.getD j 0
  if s.curvePoint < j then s.ebb j
  else if curveWord j (Point.classes p) (Point.ceil p) = s.catWord 28 then s
  else s.setPoint j

/-- The failsafe point is in force (15 R412). -/
def failsafeOn (s : State) : State :=
  let s := { s with power := { s.power with failsafe := true, worse := [], flood := none, rechoose := false } }
  s.choosePoint s.power.useFailsafe

/-- The curve that a commit has passed is in use, and the point is to be chosen again (15 R416). -/
def takeCurve (s : State) : State :=
  match s.power.pending with
  | none => s
  | some (curve, fs, hyst) =>
    { s with power := { s.power with inUse := curve, useFailsafe := fs, useHyst := hyst, pending := none, rechoose := true
                                     worse := [] } }

/-- An accepted sample joins those of the last 20 ms (15 R422). -/
def noteSample (s : State) (f v : Nat) : State :=
  { s with power := { s.power with samples := ⟨f, v, s.now⟩ :: s.power.samples.filter fun x => s.now < x.at_ + ms 20 } }

/-- The lowest point below the one in force whose restore region contained every sample of the last 20 ms (15 R422). -/
def floodPoint (s : State) : Option Nat :=
  let p := s.power
  let recent := p.samples.filter fun x => s.now < x.at_ + ms 20
  ((enabledPoints p.inUse).find? fun e => recent.all fun x => Point.restores e.2 p.useHyst x.freq x.vbus).bind fun e =>
    if e.1 < s.curvePoint then some e.1 else none

/-- A flood begins: the point and its ceiling change, the classes not yet (15 R422 step 1). -/
def beginFlood (s : State) (k : Nat) : State :=
  let p := s.power.inUse.getD k 0
  let s := s.commit [(28, curveWord k (fieldOf (s.catWord 28) 16 8) (Point.ceil p))]
  { s with power := { s.power with flood := some ⟨k, s.now⟩, worse := [] }, agenda := .op .floodRestore :: s.agenda }

/-- A sample with both readings is used (15 R412, R417, R418, R422); the first on a new curve chooses the point again
(15 R416). -/
def useSample (s : State) (f v : Nat) (both : Bool) : State :=
  let p := { s.power with failsafe := s.power.failsafe && !both }
  let j := selectPoint p.inUse f v
  let s := { s with power := p }
  if p.failsafe then s.failsafeOn
  else if p.rechoose then ({ s with power := { p with rechoose := false } }).choosePoint j
  else
    let i := s.curvePoint
    let worse := if i < j then j :: p.worse else []
    let s := { s with power := { p with worse := worse } }
    let n := fieldOf s.shedCfg 32 4
    if n ≤ worse.length && !worse.isEmpty then s.ebb ((worse.take n).foldl max 0)
    else
      -- A sample outside the restore region stops the restores.
      let s := match s.power.flood with
        | some fl => if Point.restores (s.power.inUse.getD fl.point 0) s.power.useHyst f v then s
          else { s with power := { s.power with flood := none } }
        | none => s
      if s.power.ebb then s
      else match s.floodPoint with
        | some k => s.beginFlood k
        | none => s

end State

/-- CRC-16/CCITT-FALSE over the bits [127:16] of a frame, in the order they are sent (15 R411). -/
def crc16 (x : BitVec 128) : Nat :=
  (List.range 112).foldl (fun (r : Nat) i =>
    let top := r.testBit 15 != x.getLsbD (127 - i)
    (2 * r % 65536) ^^^ (if top then 0x1021 else 0)) 0xFFFF

/-- A field of a frame. -/
def frameField (x : BitVec 128) (lo n : Nat) : Nat := x.toNat / 2 ^ lo % 2 ^ n

/-- PSTP_FRAME: the frame is checked, answered with the reply to the frame before it, and used (15 R410 to R412). -/
def execPstpFrame (nbits : Nat) (frame : BitVec 128) (s : State) : Out :=
  let fl := frameField frame
  let good := nbits = 128 && fl 124 4 = 0xA && fl 120 4 = 1 && fl 56 5 = 0 && fl 16 16 = 0 && fl 0 16 = crc16 frame
  let reply (s : State) : State :=
    { s with power := { s.power with
        reply := BitVec.ofNat 32 (s.power.seq % 256 * 2 ^ 24 + s.curvePoint % 256 * 2 ^ 16 + s.power.watts % 65536) } }
  if !good then .next (reply { s with power := { s.power with badFrames := (s.power.badFrames + 1) % 256 } })
  else
    let p := s.power
    let fok := fl 63 1 = 1
    let vok := fl 62 1 = 1
    let recent (t : Option Nat) : Bool := match t with
      | some t => decide (s.now ≤ t + State.ms 10)
      | none => false
    let alarm := fl 61 1 = 1
    let have_ := (fok || recent p.freqAt) && (vok || recent p.vbusAt)
    let p := { p with seq := fl 112 8, frameAt := s.now
                      freq := if fok then fl 88 24 else p.freq
                      vbus := if vok then fl 64 24 else p.vbus
                      freqAt := if fok then some s.now else p.freqAt
                      vbusAt := if vok then some s.now else p.vbusAt }
    -- A sample without readings lies in no restore region of a point above the last.
    let s := ({ s with power := p }).takeCurve.noteSample (if have_ then p.freq else 0) (if have_ then p.vbus else 0)
    .next (reply (if !have_ || alarm then s.failsafeOn else s.useSample p.freq p.vbus (fok && vok)))

/-- PSTP_TIMEOUT: no frame accepted for 10 ms (15 R412). -/
def execPstpTimeout (s : State) : Out :=
  if s.now < s.power.frameAt + State.ms 10 then .next s else .next s.failsafeOn

/-- PACKAGE_POWER_SAMPLE: the package power over 100 µs (15 R418 step 3). -/
def execPackagePowerSample (watts : Nat) (s : State) : Out :=
  let due := match s.power.wattsAt with
    | some t => t + State.us 100 ≤ s.now
    | none => true
  if !due then .next s
  else
    let ceil := s.ceilW
    let low := 100 * watts < 95 * ceil
    let since := if low then (match s.power.lowSince with
      | some t => some t
      | none => some s.now) else none
    let fall := match since with
      | some t => decide (t + State.ms 1 ≤ s.now)
      | none => false
    let s := { s with power := { s.power with watts := watts, wattsAt := some s.now, lowSince := since
                                              ebb := s.power.ebb && decide (ceil < watts) } }
    let step (f : Nat → Nat) (s : State) : State :=
      s.liveClusters.foldl (fun (s : State) k => s.modCluster k fun c => { c with power := f c.power }) s
    .next (if ceil < watts then step (fun n => min 2 (n + 1)) s else if fall then step (· - 1) s else s)

/-- The core-rail current of the last 1 ms exceeds that of the 1 ms before by at most RAMP_A (15 R422 step 3). -/
def rampOk (s : State) : Bool :=
  let sum (l : List Nat) : Nat := l.foldl (· + ·) 0
  sum (s.power.rail.take 100) ≤ sum ((s.power.rail.drop 100).take 100) + 100 * 1000 * fieldOf s.shedCfg 16 16

/-- FLOOD_RESTORE: the highest class of the flood's point that is not allowed is restored, 2 ms after the one before. -/
def execFloodRestore (s : State) : Out :=
  match s.power.flood with
  | none => .next s
  | some f =>
    let w := s.catWord 28
    let now := fieldOf w 16 8
    let want := Point.classes (s.power.inUse.getD f.point 0)
    match [7, 6, 5, 4, 3, 2, 1, 0].find? fun c => want.testBit c && !now.testBit c with
    | none => .next { s with power := { s.power with flood := none } }
    | some c =>
      if s.now < f.next || !rampOk s then .next s
      else
        let s := s.commit [(28, State.curveWord (fieldOf w 24 8) (now + 2 ^ c) (fieldOf w 0 16))]
        let s := { s with power := { s.power with flood := some { f with next := s.now + State.ms 2 } } }
        .next s.classesChanged

/-! ## PMBus (15 R414) -/

/-- PMBUS_READ_PSTP_STAT. -/
def execPmbusReadPstpStat (s : State) : Out := .next { s with pmbus := s.pstpStat }

/-- PMBUS_READ_CATALOGUE_28. -/
def execPmbusReadCatalogue28 (s : State) : Out := .next { s with pmbus := s.shownWord 28 }

/-- PMBUS_READ_POWER. -/
def execPmbusReadPower (s : State) : Out := .next { s with pmbus := BitVec.ofNat 64 s.power.watts }

end Sys2Proof.Machine
end

