-- ==== Sys2Proof/Machine/Shelf.lean ====
section
/-! DEFINITION. The Shelf Reader, CINV and the directory's answers as events of their own (10 R275, R281 to R285). -/

namespace Sys2Proof.Machine

/-! ## Acting on a line (10 R283) -/

/-- What a walk does to a line it finds: flush, invalidate. -/
structure LineOp where
  flush : Bool
  inv : Bool
  deriving DecidableEq, Repr

/-- The op field of WALK. -/
def lineOp (op : Nat) : LineOp := ⟨op % 2 == 1, 2 ≤ op⟩

namespace State

/-- One L1 copy of a line: its dirty bytes go to the L2 slice with a flush, and it is removed with an invalidation. -/
def walkL1 (s : State) (c pline : Nat) (o : LineOp) : State :=
  if o.inv then
    if o.flush then s.l1Evict c pline else (s.modL1 c pline fun y => { y with dirty := 0 }).l1Evict c pline
  else if o.flush then s.l1Clean c pline
  else s

/-- The line is privatised in a chiplet. -/
def privatised (s : State) (p pline : Nat) : Bool :=
  match s.l2Line? p pline with
  | some x => (match x.dir with
    | .p _ => true
    | _ => false)
  | none => false

/-- A chiplet's L1s and its L2 slice. -/
def walkChip (s : State) (p pline : Nat) (o : LineOp) : State :=
  let s := if s.privatised p pline then s.mergeLine p pline else s
  let s := (s.cores.filter fun e => coreSlot e.1 == p).foldl (fun s e => s.walkL1 e.1 pline o) s
  match s.l2Line? p pline with
  | none => s
  | some x =>
    let s := if o.flush then (s.llcPut pline x.dirty x.data).modL2 p pline fun y => { y with dirty := 0 } else s
    if o.inv then s.modChiplet p fun c => { c with l2 := l2Drop c.l2 pline } else s

/-- The home LLC. -/
def walkLlc (s : State) (pline : Nat) (o : LineOp) : State :=
  match llcGetLine s.llc pline with
  | none => s
  | some x =>
    let s := if o.flush then s.llcWriteBack x else s
    if o.inv then { s with llc := s.llc.filter fun y => y.pline != pline }
    else { s with llc := s.llc.map fun y => if o.flush && y.pline == pline then { y with dirty := 0 } else y }

/-- A physical line handled in every cache of the reach. -/
def walkLine (s : State) (core reach pline : Nat) (o : LineOp) : State :=
  match reach with
  | 0 => s.walkL1 core pline
      (if s.privatised (coreSlot core) pline && (l1Phys (s.core core).l1 pline).any (fun x => !x.self) then
        { o with flush := true } else o)
  | 1 => s.walkChip (coreSlot core) pline o
  | _ => ((List.range 9).foldl (fun s p => s.walkChip p pline o) s).walkLlc pline o

end State

/-! ## WALK (10 R281, R282) -/

namespace State

/-- Lease, rights and range locks of a range of whole lines, in the order of 09 R254: rights page by page, the lowest first,
and then the window, which a walk does not accept (10 R282; no data are read). -/
def checkRange (s : State) (u : Who) (k : AccessKind) (a n : Nat) : Option Cause :=
  if n = 0 then none
  else
    (checkLease u a n k).orElse fun _ =>
      let stop := min (a + n) windowBase
      let pages := if a < stop then (List.range ((stop - 1) / 65536 - a / 65536 + 1)).map fun i => max a (65536 * (a / 65536 + i))
        else []
      (pages.findSome? fun b =>
        match s.xlat u.core u.aspace b with
        | (_, some l) => some ⟨Cause.dataError,
            BitVec.ofNat 64 (128 * l + 2 ^ 52 * (s.channelOf (128 * l)).getD 0), BitVec.ofNat 64 b⟩
        | (none, none) => some (Cause.rights b 1)
        | (some e, none) =>
          if k.r && !e.r then some (Cause.rights b 2)
          else if k.w && !e.w then some (Cause.rights b 3)
          else if isPeer (e.phys b) then some (Cause.window b 1)
          else none).orElse fun _ =>
        if windowBase < a + n then some (Cause.window (max a windowBase) 1)
        else s.lockCause (clusterOf u.core) (.mem a) n k.w

end State

/-- WALK: every check, an entry of the range-lock table and a place in the Shelf Reader. A length of 0 completes at once, with
its arrival: status 0, or 2 where the arrival is refused (10 R282, R284; DEDUCED, log 35). -/
def execWalk (w : VWord) (s : State) : Out :=
  runWord (.walk w) (fun c s =>
    match c.l0, s.who? c.gid, c.full with
    | none, _, _ => .done s []
    | _, none, _ => .left s
    | _, _, some f => .block (.flagFull f) s
    | some l, some u, none =>
      let a := (c.rdw w.a l).toNat
      let n := (c.rdw w.b l).toNat
      let op := w.e.toNat % 4
      let bo := if w.c.reg = noReg then none else some (c.rd w.c l).toNat
      let k : AccessKind := if op = 1 then .read else .write
      let lo := a / 128
      let stop := if n = 0 then lo else (a + n - 1) / 128 + 1
      if 2 ^ 40 < n then c.trap (Cause.operand (n / 2 ^ 40)) s
      else
        match (s.checkRange u k (128 * lo) (128 * (stop - lo))).orElse fun _ =>
            bo.bind fun o => s.objCheck c.bid o 16 16 with
        | some x => c.trap x s
        | none =>
          let results := resultKeys w.d (c.act.map fun i => (i, [none]))
          let x := c.op (.shelf op (w.e.toNat / 4 % 4) bo lo stop u.aspace) w.d
          if n = 0 then
            let r := match bo with
              | some o => s.arriveAt c.bid o 1
              | none => (s, true)
            c.write r.1 w.d fun _ => [if r.2 then 0 else 2]
          else if 8 ≤ shelfWalks s (clusterOf c.core) then .block .walkers s
          else
            match s.addLocked x [⟨clusterOf c.core, .mem lo (stop - 1), k.w⟩] results with
            | none => .block (.rlt [clusterOf c.core]) s
            | some s => .done s []) s

/-- SHELF_READER_LINE: the walk handles its next line in every cache it touches (10 R283). A line whose page has lost its
translation since issue is passed over. -/
def execShelfReaderLine (op : Nat) (s : State) : Out :=
  match tget? s.ops op with
  | none => .next s
  | some x =>
    match x.kind with
    | .shelf o reach bo next stop aspace =>
      if stop ≤ next || x.held then .next s
      else
        let r := s.translate x.core aspace (128 * next)
        let s := match r.entry with
          | some e =>
            if isPeer (e.phys (128 * next)) || e.home = 3 then r.s
            else r.s.walkLine x.core reach (e.phys (128 * next) / 128) (lineOp o)
          | none => r.s
        .next { s with ops := tput s.ops op { x with kind := .shelf o reach bo (next + 1) stop aspace } }
    | _ => .next s

/-- WALK_COMPLETION (10 R284). -/
def execWalkCompletion (op : Nat) (s : State) : Out :=
  match tget? s.ops op with
  | none => .next s
  | some x =>
    match x.kind with
    | .shelf _ _ bo next stop _ =>
      if next < stop then .next s
      else
        let r := match bo with
          | some o => s.arriveAt x.block o 1
          | none => (s, true)
        .next (r.1.endWith op (if r.2 then 0 else 2))
    | _ => .next s

/-! ## CINV (10 R285) -/

/-- The checks of one-byte reads at the lanes' addresses, in the order of 09 R254, with the translations found; no data
are read. -/
def checkProbe (u : Who) : List Nat → State → State × Except Cause (List (Nat × TlbEntry))
  | [], s => (s, .ok [])
  | a :: t, s =>
    let r := s.resolve u a 1 .read ⟨false, false⟩
    match r.target with
    | .error x => (r.s, .error x)
    | .ok (.scr _ _) => checkProbe u t r.s
    | .ok (.mem e) =>
      match checkProbe u t r.s with
      | (s, .error x) => (s, .error x)
      | (s, .ok l) => (s, .ok ((a, e) :: l))

/-- An L1 line holds a virtual line in an address space (09 R248, R249). -/
def L1Line.named (x : L1Line) (asid vline : Nat) : Bool := x.vline == vline && (x.g || x.asid == asid)

/-- CINV. -/
def execCinv (w : VWord) (s : State) : Out :=
  runWord (.cinv w) (fun c s =>
    match s.who? c.gid with
    | none => .left s
    | some u =>
      let as := c.real.map fun i => (c.rdw w.a i).toNat
      match as.findSome? fun a => State.checkLease u a 1 .read with
      | some x => c.trap x s
      | none =>
        match checkProbe u as s with
        | (s, .error x) => c.trap x s
        | (s, .ok l) =>
          match l.findSome? fun x => s.lockCause (clusterOf u.core) (.mem x.1) 1 false with
          | some x => c.trap x s
          | none =>
            .done (l.foldl (fun s x =>
              ((s.core u.core).l1.filter fun y => y.named (fieldOf u.aspace 0 16) (x.1 / 128)).foldl (fun s y =>
                s.walkL1 u.core y.pline ⟨!y.self || w.ebit 5, true⟩) s) s) []) s

/-! ## The directory (10 R275, R276) -/

/-- DIRECTORY_REQUEST: a request of a core for bytes of a line that its L1 holds is served. -/
def execDirectoryRequest (core pline : Nat) (write : Bool) (bytes : BitVec 128) (s : State) : Out :=
  match l1Phys (s.core core).l1 pline with
  | some x =>
    if x.self || (write && !x.w) then .next s
    else .next (s.dirRequest core pline write bytes x.below)
  | none => .next s

end Sys2Proof.Machine
end

