-- ==== Sys2Proof/Machine/Launches.lean ====
section
/-! DEFINITION. Launches: the record check, code objects, leases and residency, the choice of a body and the translator,
page moves, and placement (09 R241 to R244, 10 R286, R287, 13 R355, 16 R432, R433, R438 to R446). -/

namespace Sys2Proof.Machine

/-! ## Reads of the command processor -/

/-- Words from bytes (00 R3). -/
def wordsOf (l : List Byte) : List W64 :=
  (List.range (l.length / 8)).map fun i => BitVec.ofNat 64 (natOfBytes ((l.drop (8 * i)).take 8))

namespace State

/-- The words at a physical address. -/
def physWords (s : State) (pa n : Nat) : State × List W64 :=
  let s := s.cleanPhys pa (8 * n)
  (s, (List.range n).map fun i => s.homeWord (pa + 8 * i))

/-- The words at a virtual address, the uncorrectable lines that the read meets retired (13 R373); none where a byte has no
translation or its page lacks R. -/
def virtWords (s : State) (aspace : W64) (a n : Nat) : State × Option (List W64) :=
  let s := s.cleanVirt aspace a (8 * n)
  (s, (s.virtRead aspace a (8 * n)).map wordsOf)

end State

/-! ## The record (16 R432) -/

/-- Bits of a word outside a list of fields are 0. -/
def onlyFields (v : W64) (fs : List (Nat × Nat)) : Bool :=
  (List.range 64).all fun i => !v.getLsbD i || fs.any fun f => f.1 ≤ i && i < f.1 + f.2

/-- The reserved bits of a launch record are 0. -/
def recordClear (r : List W64) : Bool :=
  let w (n : Nat) : W64 := r.getD n 0
  onlyFields (w 0) [(0, 21)] && onlyFields (w 2) [(0, 16)] && onlyFields (w 3) [(0, 36)] && onlyFields (w 4) [(0, 48)]
    && onlyFields (w 5) [(0, 7), (8, 29)] && onlyFields (w 6) [(0, 11), (16, 6), (32, 19)] && onlyFields (w 8) [(0, 9)]
    && onlyFields (w 10) [(0, 13)] && onlyFields (w 13) [(0, 9)] && onlyFields (w 15) [(0, 5)]
    && (List.range 16).all fun i => w (16 + i) == 0

namespace Launch

def nleases (l : Launch) : Nat := fieldOf (l.word 8) 0 9
def leaseList (l : Launch) : Nat := (l.word 7).toNat
def nmoves (l : Launch) : Nat := fieldOf (l.word 15) 0 5
def moveList (l : Launch) : Nat := (l.word 14).toNat

/-- A quota field is 0, or at least one block's need and at most the core's total (16 R433). -/
def quotaOk (field need total : Nat) : Bool := field = 0 || (need ≤ field && field ≤ total)

/-- Every field meets its table range, one block fits a core, and the quotas fit (16 R432, R433 stage 1). -/
def fieldsOk (l : Launch) (maxClass : Nat) : Bool :=
  let xyz := l.shapeX * l.shapeY * l.shapeZ
  recordClear l.record && fieldOf (l.word 0) 0 8 == 1 && fieldOf (l.word 0) 8 8 == 1 && l.codeBase.toNat % 65536 == 0
    && 1 ≤ l.cohortCount && 1 ≤ l.shapeX && 1 ≤ l.shapeY && 1 ≤ l.shapeZ && xyz % 32 == 0 && xyz ≤ 1024
    && l.accs ≤ 16 && l.tiles ≤ 16 && l.scratch % 16 == 0 && l.scratch ≤ 262144
    && l.regs % 4 == 0 && 4 ≤ l.regs && l.regs ≤ 120 && l.leaseList % 16 == 0 && l.nleases ≤ 256
    && l.args.toNat % 8 == 0 && l.argSize % 8 == 0 && l.argSize ≤ 4096 && l.compl.toNat % 128 == 0
    && l.moveList % 16 == 0 && l.nmoves ≤ 16 && l.cls ≤ maxClass && l.ngroups * l.groupUnits ≤ 1024
    && quotaOk (fieldOf (l.word 6) 0 11) (l.ngroups * l.groupUnits) 1024
    && quotaOk (fieldOf (l.word 6) 16 6) l.ngroups 48 && quotaOk (fieldOf (l.word 6) 32 19) l.scratch 262144

/-! ## Code objects (16 R444) -/

/-- A section of the code object: 0 `.text`, 1 `.rodata`, 2 `.data`, 3 Lemlon; its offset and size. -/
def secOff (l : Launch) (k : Nat) : Nat := fieldOf (l.object.getD (2 + k) 0) 0 32
def secSize (l : Launch) (k : Nat) : Nat := fieldOf (l.object.getD (2 + k) 0) 32 32
def objTotal (l : Launch) : Nat := (l.object.getD 1 0).toNat
def kernels (l : Launch) : Nat := fieldOf (l.object.getD 0 0) 48 16
def ktab (l : Launch) : Nat := fieldOf (l.object.getD 6 0) 0 32

/-- The header and the kernel's place in the table. -/
def objectOk (l : Launch) : Bool :=
  let w (n : Nat) : W64 := l.object.getD n 0
  fieldOf (w 0) 0 32 == 0x48454E4F && fieldOf (w 0) 32 16 == 1 && fieldOf (w 6) 32 32 == 0 && w 7 == 0
    && ([0, 1, 2, 3].all fun k => l.secOff k % 8 == 0 && l.secOff k + l.secSize k ≤ l.objTotal)
    && l.ktab + 64 * l.kernels ≤ l.objTotal && l.kernel < l.kernels

/-- The kernel's entry, and its minimums (16 R433, R444). -/
def entryOk (l : Launch) : Bool :=
  let m := l.kent.getD 2 0
  ([4, 5, 6, 7].all fun k => l.kent.getD k 0 == 0)
    && fieldOf m 0 7 ≤ l.regs && fieldOf m 8 19 ≤ l.scratch && fieldOf m 27 5 ≤ l.tiles && fieldOf m 32 5 ≤ l.accs
    && fieldOf m 37 13 ≤ l.argSize

/-- The implicit leases (09 R242). -/
def implicits (l : Launch) : List Lease :=
  let sec (k : Nat) (w : Bool) : Lease := ⟨l.codeBase.toNat + l.secOff k, l.secSize k, true, w, true⟩
  [sec 0 false, sec 1 false, sec 2 true, ⟨l.args.toNat, l.argSize, true, false, true⟩].filter fun x => x.len != 0

end Launch

/-! ## Lease lists and page-move lists (09 R241, R243, 16 R439) -/

/-- An entry of a lease list; none where it breaks R241, reaches the window or passes 2^55. -/
def leaseOf (lo hi : W64) : Option Lease :=
  let base := lo.toNat / 65536 * 65536
  if onlyFields lo [(0, 2), (16, 39)] && (lo.getLsbD 0 || lo.getLsbD 1) && hi != 0 && hi.toNat % 65536 == 0
      && base + hi.toNat ≤ windowBase then
    some ⟨base, hi.toNat, lo.getLsbD 0, lo.getLsbD 1, false⟩
  else none

/-- An entry of a page-move list. -/
def moveOf (lo hi : W64) : Option (Nat × Bool) :=
  if onlyFields lo [(0, 1), (16, 39)] && hi == 0 then some (lo.toNat / 65536, lo.getLsbD 0) else none

/-- The entries of two words each of a list, or none where one is bad. -/
def entries {α : Type} (f : W64 → W64 → Option α) : List W64 → Option (List α)
  | lo :: hi :: rest => (f lo hi).bind fun x => (entries f rest).map fun l => x :: l
  | [_] => none
  | [] => some []

/-- The range of a lease covers a page. -/
def Lease.hasPage (x : Lease) (page : Nat) : Bool := x.base / 65536 ≤ page && 65536 * page < x.base + x.len

/-- The pages of a lease. -/
def Lease.pages (x : Lease) : List Nat :=
  if x.len = 0 then []
  else (List.range ((x.base + x.len - 1) / 65536 - x.base / 65536 + 1)).map (x.base / 65536 + ·)

namespace State

/-- The lists of a launch as they are read at parse (16 R433, R439, R443). -/
def readLists (s : State) (l : Launch) : State × Launch :=
  let n := if l.nleases ≤ 256 then l.nleases else 0
  let m := if l.nmoves ≤ 16 then l.nmoves else 0
  let a := s.virtWords l.aspace l.leaseList (2 * n)
  let b := a.1.virtWords l.aspace l.moveList (2 * m)
  let ls := a.2.bind (entries leaseOf)
  let ms := b.2.bind (entries moveOf)
  (b.1, { l with leases := ls.getD [], leaseBad := ls.isNone, moves := ms.getD [], movesBad := ms.isNone })

/-- Stage 1 of a launch, with what it learns of its code object; none where the record is invalid (16 R433). -/
def recordCheck (s : State) (l : Launch) : State × Option Launch :=
  let maxClass := if l.system then 7 else (s.queue l.queue).maxClass
  if !l.fieldsOk maxClass then (s, none)
  else
    match s.virtWords l.aspace l.codeBase.toNat 8 with
    | (s, none) => (s, none)
    | (s, some obj) =>
      let l := { l with object := obj }
      if !l.objectOk then (s, none)
      else
        match s.virtWords l.aspace (l.codeBase.toNat + l.ktab + 64 * l.kernel) 8 with
        | (s, none) => (s, none)
        | (s, some ke) =>
          let l := { l with kent := ke }
          let l := { l with leases := l.leases ++ l.implicits, text := (l.codeBase.toNat, l.objTotal) }
          let paged := l.leaseBad || l.moves.all fun m => l.leases.any fun x => x.hasPage m.1
          if l.entryOk && !l.movesBad && paged then (s, some l) else (s, none)

/-- A launch begins its stages (16 R433). -/
def startStages (s : State) (lid : Nat) : State :=
  match s.launch? lid with
  | none => s
  | some l =>
    match s.recordCheck l with
    | (s, none) => s.endLaunch lid 1 0
    | (s, some l) => s.setLaunch lid { l with stage := .leases }

end State

/-- A launch as a record gives it, before its stages; of its address space only ROOT and ASID (09 R238). -/
def freshLaunch (record : List W64) (queue : Nat) (aspace : W64) (system : Bool) (graph : Option (Nat × Nat)) : Launch :=
  { record := record, queue := queue, aspace := aspace &&& 0xFFFFFFFFFFFFF, system := system, recId := record.getD 1 0
    leases := [], leaseBad := false, moves := [], movesBad := false, object := [], kent := [], entry := 0
    segments := [], translated := false, text := (0, 0), code := []
    stage := .waiting, status := none, order := 0, placed := 0, ahead := [], again := [], ended := 0
    counters := List.replicate 28 0, posted := [], graph := graph, killed := false
    copies := [] }

namespace State

/-- A launch is created at parse, its lists read. -/
def addLaunch (s : State) (record : List W64) (queue : Nat) (aspace : W64) (system : Bool) (graph : Option (Nat × Nat)) :
    State × Nat :=
  let lid := s.fresh
  let r := s.readLists (freshLaunch record queue aspace system graph)
  ({ r.1 with fresh := lid + 1 }.setLaunch lid r.2, lid)

/-! ## Entry into placement (16 R433 stage 6) -/

/-- A launch has passed every stage before placement. -/
def entersNext (l : Launch) : Bool := l.stage == .moves && l.moves.isEmpty && l.status.isNone

/-- Launches of one queue enter placement in parse order, as soon as they can. -/
def enterPlacement (s : State) : State :=
  s.launches.foldl (fun (s : State) (e : Nat × Launch) =>
    match s.launch? e.1 with
    | none => s
    | some l =>
      if entersNext l && (s.earlier e.1 l).all fun x => x.2.stage == .placing || x.2.stage == .running then
        { s with fresh := s.fresh + 1 }.setLaunch e.1 { l with stage := .placing, order := s.fresh }
      else s) s

/-! ## Frames (09 R243, R244, 10 R286) -/

/-- The frame of a page of a launch's address space, with its leaf. -/
def frameOfPage (s : State) (aspace : W64) (page : Nat) : Option (Nat × TlbEntry) :=
  if 2 ^ 39 ≤ page then none
  else (s.walk aspace (65536 * page)).leaf.map fun e => (e.phys (65536 * page) / 65536, e)

/-- A leased page has a valid leaf with the leased rights, on a frame that can hold data (09 R243, 13 R355). -/
def pageResident (s : State) (aspace : W64) (x : Lease) (page : Nat) : Bool :=
  match s.frameOfPage aspace page with
  | none => false
  | some (f, e) => (!x.r || e.r) && (!x.w || e.w) && s.usable (65536 * f)

/-- What `WALK.flinv.dev` does, on every line of a frame. -/
def flushFrame (s : State) (f : Nat) : State :=
  (List.range 512).foldl (fun (s : State) i => s.walkLine 0 2 (512 * f + i) ⟨true, true⟩) s

/-- The treatment a frame has when a launch pins it: the recorded one, while any launch pins it or where its leaf is as it
was when that was recorded, and else the leaf's (10 R286, R287, log 77). -/
def frameAtPin (x : Frame) (e : TlbEntry) : Frame :=
  if !x.pins.isEmpty then x
  else if x.leaf = some (e.home, e.coh) || x.leaf = none then { x with leaf := some (e.home, e.coh) }
  else { x with home := e.home, coh := e.coh, leaf := some (e.home, e.coh) }

/-- A launch pins a frame. A frame that no launch pins takes its treatment then, once no cache holds a line of it under
another (10 R273, R286, R287); the bias stays, and is host bias where no move has set it (10 R288; DESIGN CHOICE, log 92). -/
def pinFrame (s : State) (lid f : Nat) (e : TlbEntry) : State :=
  let y := match tget? s.frames f with
    | some x => frameAtPin x e
    | none => ⟨e.home, e.coh, false, [], some (e.home, e.coh)⟩
  let same := match tget? s.frames f with
    | some x => x.home == y.home && x.coh == y.coh
    | none => y.home != 3
  let s := if same then s else s.flushFrame f
  { s with frames := tput s.frames f { y with pins := insertNat lid y.pins } }

/-- The pins of a launch end; the treatment of a frame stays recorded (09 R244, 10 R286). -/
def unpin (s : State) (lid : Nat) : State :=
  { s with frames := s.frames.map fun e => (e.1, { e.2 with pins := e.2.pins.filter (· != lid) }) }

/-- Frames that a launch parsed earlier, or software's request, is still to move (10 R287, 16 R439). -/
def movingFrames (s : State) (lid : Nat) : List Nat :=
  s.pageMoves.map (·.1 / 65536) ++ (s.launches.filter fun e => e.1 < lid && e.2.status.isNone).foldl (fun a e =>
    (e.2.moves.filterMap fun m => (s.frameOfPage e.2.aspace m.1).map (·.1)) ++ a) []

/-! ## The body (16 R445, R446) -/

/-- The words of a launch's `.text` as it begins (02 R34). -/
def textWords (s : State) (l : Launch) : List (Nat × W64) :=
  (List.range (l.secSize 0 / 8)).filterMap fun i =>
    let a := l.codeBase.toNat + l.secOff 0 + 8 * i
    (s.look l.aspace a).map fun e => (a, s.homeWord (e.phys a))

end State

/-- A word of a Lemlon segment that must be its last, or may stand only there (16 R445). -/
def segmentEnds (i : Instr) : Bool :=
  match i with
  | .succ _ | .succx _ | .exit _ => true
  | _ => false

def segmentBars (i : Instr) : Bool :=
  match i with
  | .meet _ | .meetx _ | .meetclr _ => true
  | _ => false

/-- The class of a word, its latency, and a register destination. -/
def wordClass (x : W64) : Option Nat := ((fields x).bind shape).bind Shape.cls
def wordLong (x : W64) : Bool := (((fields x).bind shape).map Shape.long).getD false
def wordWrites (x : W64) : Bool :=
  (((fields x).bind shape).map fun p => p.ops.any fun o => match o.use with
    | .wr _ => o.reg != 124
    | _ => false).getD false

/-- A word of a segment is accepted: Henoa revision 1 decodes it, FS, DL and YH are 0, and it may stand in its place
(16 R445, R446). What the group's allocation, tiles and privilege decide is left to the run. -/
def segmentWordOk (features : BitVec 128) (n : Nat) (last : Bool) (x : W64) : Bool :=
  match fields x with
  | none => false
  | some i =>
    match shape i with
    | none => false
    | some p =>
      let h : W64 := BitVec.ofNat 64 (0xC1000000 + p.cls.getD 0)
      let env : Env := { header := h, idx := 0, alloc := 120, handler := false, priv := true, cls := 7, tiles := 16
                         accs := 16, features := features }
      (instrFault i env).isNone && p.sched.fs == 0 && p.sched.dl == 0 && p.sched.yh == 0
        && (if last then segmentEnds i else !p.branch && !segmentBars i && !segmentEnds i)
        && match i with
          | .succ w => w.off.toNat < n
          | _ => true

/-- The segments of a Lemlon section: a header of two words with the count, then the words. -/
def segmentsOf : Nat → List W64 → Option (List (List W64))
  | 0, _ => none
  | _ + 1, [] => some []
  | _ + 1, [_] => none
  | fuel + 1, h :: _ :: rest =>
    let n := fieldOf h 0 32
    if n = 0 || 4096 < n || rest.length < n then none
    else (segmentsOf fuel (rest.drop n)).map fun l => rest.take n :: l

/-- The words of a segment in clauses: one class to a clause, at most 16 words, and a long-latency word ends its clause. -/
def clausesOf (open_ : List W64) (cls : Option Nat) : List W64 → List (Nat × List W64)
  | [] => if open_.isEmpty then [] else [(cls.getD 0, open_.reverse)]
  | x :: rest =>
    let c := wordClass x
    let clash := match cls, c with
      | some a, some b => a != b
      | _, _ => false
    if open_.length = 16 || clash then
      (cls.getD 0, open_.reverse) :: (if wordLong x then (c.getD 0, [x]) :: clausesOf [] none rest else clausesOf [x] c rest)
    else
      let k := match cls with
        | some a => some a
        | none => c
      if wordLong x then (k.getD 0, (x :: open_).reverse) :: clausesOf [] none rest else clausesOf (x :: open_) k rest

/-- A clause's header: it waits for f0; long-latency words with a destination count on f0, others on f1. -/
def clauseWords (c : Nat × List W64) : List W64 :=
  BitVec.ofNat 64 (0xC1000000 + 256 + 16 * (c.2.length - 1) + c.1) ::
    c.2.map fun x => if wordLong x && !wordWrites x then x ||| (1#64 <<< 60) else x

/-- The words of a translated segment. -/
def segmentCode (x : List W64) : List W64 := ((clausesOf [] none x).map clauseWords).flatten

/-- A translation of a Lemlon section, its segments' addresses and its words (16 R446, log 10). -/
def translateBody (lemlon : List Byte) (mark : W64) (features : BitVec 128) (entry : Nat) (key : List W64) : Option Body :=
  if lemlon.length % 8 != 0 then none
  else
    let ws := wordsOf lemlon
    match segmentsOf (ws.length + 1) ws with
    | none => none
    | some segs =>
      let n := segs.length
      let ok (x : List W64) : Bool :=
        (x.dropLast.all (segmentWordOk features n false)) && (x.getLast?.any (segmentWordOk features n true))
      if !segs.all ok || n ≤ entry then none
      else
        let base := 2 ^ 55 + 8 * (Config.bodyPlace lemlon mark % 2 ^ 40)
        let code := segs.map segmentCode
        let addrs := (code.foldl (fun (a : List Nat × Nat) x => (a.1 ++ [a.2], a.2 + 8 * x.length)) ([], base)).1
        let all := code.flatten
        some { key := key, entry := BitVec.ofNat 64 (addrs.getD entry 0), segments := addrs.map (BitVec.ofNat 64)
               words := (List.range all.length).map fun i => (base + 8 * i, all.getD i 0) }

namespace State

/-- The key of a translation (16 R446). -/
def bodyKey (s : State) (l : Launch) : List W64 := [l.codeBase, BitVec.ofNat 64 l.kernel, l.kent.getD 3 0, s.shelfmark]

/-- A launch takes a translated body, which becomes the most recently used. -/
def useBody (s : State) (lid : Nat) (l : Launch) (b : Body) : State :=
  let s := { s with bodies := (b :: s.bodies.filter fun x => x.key != b.key).take 256 }
  (s.setLaunch lid { l with stage := .moves, translated := true, entry := b.entry, segments := b.segments
                            code := b.words }).enterPlacement

/-- Stage 3: the native body, a translation that is kept, or a wait for the translator (16 R445, R446). -/
def chooseBody (s : State) (lid : Nat) : State :=
  match s.launch? lid with
  | none => s
  | some l =>
    if l.kent.getD 0 0 = s.shelfmark then
      let s := s.cleanVirt l.aspace (l.codeBase.toNat + l.secOff 0) (l.secSize 0)
      (s.setLaunch lid { l with
        stage := .moves, code := s.textWords l
        entry := l.codeBase + BitVec.ofNat 64 (l.secOff 0 + fieldOf (l.kent.getD 1 0) 0 32) }).enterPlacement
    else if l.secSize 3 = 0 then (s.endLaunch lid 5 0).enterPlacement
    else
      match s.bodies.find? fun b => b.key == s.bodyKey l with
      | some b => s.useBody lid l b
      | none => s.setLaunch lid { l with stage := .body }

end State

/-- LEASE_RESIDENCY: the launch is refused, where a lease breaks R241 or a range, an implicit one too, reaches the window,
or every leased page is resident and pinned and it goes on; it waits behind a page move of a launch parsed earlier
(09 R243, R244, 13 R355, 16 R433, R439). -/
def execLeaseResidency (lid : Nat) (s : State) : Out :=
  match s.launch? lid with
  | none => .next s
  | some l =>
    if l.stage != .leases || l.status.isSome then .next s
    else if l.leaseBad || l.leases.any fun x => windowBase < x.base + x.len then .next (s.endLaunch lid 2 0).enterPlacement
    else
      let pages := (l.leases.map fun x => x.pages.map fun p => (x, p)).flatten
      if !pages.all fun e => s.pageResident l.aspace e.1 e.2 then
        .next ((s.cleanWalks l.aspace (pages.map fun e => 65536 * e.2)).endLaunch lid 3 0).enterPlacement
      else
        let frames := pages.filterMap fun e => s.frameOfPage l.aspace e.2
        let s := s.launches.foldl (fun (s : State) e => s.cleanWalks e.2.aspace (e.2.moves.map fun m => 65536 * m.1)) s
        let moving := s.movingFrames lid
        if frames.any fun f => moving.contains f.1 then .next s
        else .next ((frames.foldl (fun (s : State) (f : Nat × TlbEntry) => s.pinFrame lid f.1 f.2) s).chooseBody lid)

namespace State

/-- A system launch translates for a launch that waits at stage 3: a kernel of class 1, the only one for its key (16 R446). -/
def beginTranslation (s : State) (lid : Nat) (serves : Option Nat) : State :=
  match serves.bind s.launch?, s.launch? lid with
  | some l, some t =>
    let key := s.bodyKey l
    if l.stage == .body && l.status.isNone && t.cls == 1 && !s.translated.contains key
        && !(s.translators.any fun x => x.2 == key) then
      { s with translators := s.translators ++ [(lid, key)] }
    else s
  | _, _ => s

/-- A system launch has completed: a translator that ran to its end has made its translation (16 R446). -/
def translatorDone (s : State) (lid status : Nat) : State :=
  { s with translators := s.translators.filter fun x => x.1 != lid
           translated := s.translated ++ if status = 0 then (s.translators.filter fun x => x.1 == lid).map (·.2) else [] }

end State

/-- TRANSLATION_READY: the body that the translator's kernels have made, which ran at class 1 (16 R446, log 10). -/
def execTranslationReady (lid : Nat) (s : State) : Out :=
  match s.launch? lid with
  | none => .next s
  | some l =>
    if l.stage != .body || l.status.isSome then .next s
    else
      match s.bodies.find? fun b => b.key == s.bodyKey l with
      | some b => .next (s.useBody lid l b)
      | none =>
        if !s.translated.contains (s.bodyKey l) then .next s
        else
          let key := s.bodyKey l
          let s := { s with translated := s.translated.filter (· != key) }
          let s := s.cleanVirt l.aspace (l.codeBase.toNat + l.secOff 3) (l.secSize 3)
          let bytes := s.virtRead l.aspace (l.codeBase.toNat + l.secOff 3) (l.secSize 3)
          match bytes.bind fun d => translateBody d s.shelfmark s.features (fieldOf (l.kent.getD 1 0) 32 32) key with
          | some b => .next (s.useBody lid l b)
          | none => .next (s.endLaunch lid 6 0).enterPlacement

/-! ## Page moves (10 R286, R287, 16 R439) -/

namespace State

/-- A frame moves to a treatment at a quiesce point; the host gives up its copies (10 R287, R288). -/
def treatFrame (s : State) (f home : Nat) (coh bias : Bool) : State :=
  let s := s.flushFrame f
  let old := tget? s.frames f
  { s with frames := tput s.frames f ⟨home, coh, bias, (old.map Frame.pins).getD [], old.bind Frame.leaf⟩
           hostLines := s.hostLines.filter fun l => l / 512 != f }

/-- Launches that pin a frame, other than one. -/
def pinnedBy (s : State) (f : Nat) (but : Nat) : Bool :=
  match tget? s.frames f with
  | some x => x.pins.any (· != but)
  | none => false

end State

/-- PAGE_HOME_MOVE: the next page move of a launch, or, for launch 0, the next that software asked for, where no other
launch's lease covers the frame (10 R287, 16 R439). -/
def execPageHomeMove (lid : Nat) (s : State) : Out :=
  if lid = 0 then
    match s.pageMoves with
    | [] => .next s
    | (pa, home, coh, bias) :: rest =>
      let f := pa / 65536
      if s.pinnedBy f 0 then .next s
      else .next ({ s with pageMoves := rest }.treatFrame f home coh bias)
  else
    match s.launch? lid with
    | none => .next s
    | some l =>
      if l.stage != .moves || l.status.isSome then .next s
      else
        match l.moves with
        | [] => .next s
        | (page, bias) :: rest =>
          match s.frameOfPage l.aspace page with
          | none => .next ((s.cleanWalk l.aspace (65536 * page)).setLaunch lid { l with moves := rest }).enterPlacement
          | some (f, e) =>
            if s.pinnedBy f lid then .next s
            else .next ((s.setLaunch lid { l with moves := rest }).treatFrame f e.home e.coh bias).enterPlacement

/-! ## Placement (16 R438, R440) -/

/-- GEN_SEEN of a launch is the generation in force: the same number, read since the last reset (01 R18, 16 R438). A record
does not say when its number was read, so that a number published before the reset too may be from either side (log 52). -/
def State.genMatches (s : State) (l : Launch) : Bool :=
  l.genSeen == s.catWord 0 && !(l.genSeen.toNat ≤ s.pastGen.toNat && Config.genFromBefore l.record)

/-- COHORT_PLACEMENT of a cohort, by its launch and its number: one not yet placed starts on the cores given of a chiplet,
where no cohort goes before it that fits; the first placement compares the generation (04 R93, 16 R433, R435, R438,
R440). -/
def execCohortPlacement (cohort : Nat × Nat) (slot : Nat) (cores : List Nat) (s : State) : Out :=
  let (lid, number) := cohort
  match s.launch? lid with
  | none => .next s
  | some l =>
    if !s.placing lid l || !State.unplaced l number || s.outranked lid l || (s.chiplet slot).power != .active then .next s
    else
      match s.startCohort lid number slot cores l with
      | none => .next s
      | some t =>
        if !State.begun l && l.genchk && !s.genMatches l then .next (s.endLaunch lid 4 0).enterPlacement
        else
          .next (t.modLaunch lid fun x =>
            let y := State.nowPlaced x number
            { y with stage := if y.again.isEmpty && y.placed == y.cohortCount then .running else .placing })

end Sys2Proof.Machine
end

