-- ==== Sys2Proof/Machine/Graphs.lean ====
section
/-! DEFINITION. Completion of launches and graphs, and the nodes of graphs (16 R434, R443). -/

namespace Sys2Proof.Machine

/-! ## Completion records (16 R434) -/

namespace State

/-- A translation of an address that a packet names; the scale-up windows are not for the command processor (18 R479). -/
def packetLook (s : State) (aspace : W64) (a : Nat) : Option TlbEntry :=
  (s.look aspace a).filter fun e => !isPeer (e.phys a)

/-- A completion record written: bytes 8 to 127, then word 0; an event record of kind 7 where a byte of it cannot be
written. -/
def writeRecord (s : State) (q : Nat) (aspace compl recId : W64) (status cause : Nat) (counts : List Nat) : State :=
  if compl = 0 then s
  else
    let body := bytesOfNat 8 recId.toNat ++ ((List.range 28).map fun i => bytesOfNat 4 (counts.getD i 0)).flatten
    let w0 := 2 ^ 63 + 2 ^ 16 * (cause % 256) + status
    let a := compl.toNat
    let ok := [a, a + 127].all fun x => (s.packetLook aspace x).any fun e => e.w
    let done := if !ok then none
      else (s.virtWrite aspace (a + 8) body 3).bind fun t => t.virtWrite aspace a (bytesOfNat 8 w0) 2
    match done with
    | some t => t
    | none => (s.cleanVirt aspace a 128 false).postEvent q 7 0 0 recId compl (BitVec.ofNat 64 (2 ^ 16 * (cause % 256) + status))

/-! ## Graphs (16 R443) -/

/-- The status and the trap cause of a graph whose nodes have all completed: those of the lowest-numbered node whose status is
not 0. -/
def graphStatus (g : Graph) : Nat × Nat :=
  if g.killed then (9, 0) else ((g.statuses.filterMap id).find? (·.1 != 0)).getD (0, 0)

/-- A graph completes when every node has. -/
def finishGraph (s : State) (gid : Nat) : State :=
  match tget? s.graphs gid with
  | none => s
  | some g =>
    if g.statuses.any Option.isNone then s
    else { s with graphs := tdel s.graphs gid }.writeRecord g.queue g.aspace g.compl g.recId (graphStatus g).1 (graphStatus g).2 g.counts

/-- Nodes whose predecessors have all completed with status 0 start their stages; a node with a failed predecessor ends. -/
def advanceGraph (s : State) (gid : Nat) : State :=
  match tget? s.graphs gid with
  | none => s
  | some g =>
    (List.range g.nodes.length).foldl (fun (s : State) i =>
      let lid := g.nodes.getD i 0
      match s.launch? lid with
      | none => s
      | some l =>
        if l.stage != .waiting || l.status.isSome then s
        else
          let preds := (g.edges.filter fun e => e.2 == i).map fun e => g.statuses.getD e.1 none
          if preds.any fun x => x.any (·.1 != 0) then s.endLaunch lid 10 0
          else if preds.all fun x => x.any (·.1 == 0) then s.startStages lid
          else s) s

/-- A node of a graph has completed. -/
def nodeDone (s : State) (gid i status cause : Nat) (counts : List Nat) : State :=
  match tget? s.graphs gid with
  | none => s
  | some g =>
    let sum := (List.range 28).map fun k => min (g.counts.getD k 0 + counts.getD k 0) (2 ^ 32 - 1)
    ({ s with graphs := tput s.graphs gid { g with statuses := g.statuses.set i (some (status, cause)), counts := sum } }.advanceGraph
      gid).finishGraph gid

end State

/-- The nodes left after those with no edge from a node that is left go, in rounds; none are left of an acyclic graph. -/
def cyclic (edges : List (Nat × Nat)) : Nat → List Nat → Bool
  | 0, l => !l.isEmpty
  | fuel + 1, l => cyclic edges fuel (l.filter fun i => edges.any fun e => e.2 == i && l.contains e.1)

/-- The edges of an edge array. -/
def edgesOf (l : List Byte) : List (Nat × Nat) :=
  (List.range (l.length / 4)).map fun i =>
    let x := natOfBytes ((l.drop (4 * i)).take 4)
    (x % 65536, x / 65536)

namespace State

/-- What a GRAPH finds at its parse, or at a later test while it waits. -/
inductive GraphOutcome where
  /-- The template cannot be read (16 R428). -/
  | error (s : State)
  | wait (s : State)
  | done (s : State)

/-- The snapshot bytes of a node: its record and its lease list. -/
def nodeBytes (r : List W64) : Nat := 256 + 16 * min 256 (fieldOf (r.getD 8 0) 0 9)

/-- A GRAPH packet's template is read into a snapshot and its nodes without predecessors start; it waits while it is
serial and an earlier graph of the template runs, or while its snapshot does not fit in 64 MiB; an invalid template
completes the graph with GRAPH_INVALID. -/
def startGraph (s : State) (q : Nat) (words : List W64) : GraphOutcome :=
  let aspace := (s.queue q).aspace
  let template := words.getD 1 0
  let compl := words.getD 2 0
  let recId := words.getD 3 0
  let bad (s : State) : GraphOutcome := .done (s.writeRecord q aspace compl recId 11 0 [])
  match s.virtWords aspace template.toNat 8 with
  | (s, none) => .error s
  | (s, some h) =>
    let w (n : Nat) : W64 := h.getD n 0
    let n := fieldOf (w 0) 0 16
    let e := fieldOf (w 0) 32 16
    let serial := (w 0).getLsbD 16
    if serial && s.graphs.any (fun g => g.2.template == template && g.2.asid == fieldOf aspace 0 16) then .wait s
    else if !onlyFields (w 0) [(0, 17), (32, 16)] || ([3, 4, 5, 6, 7].any fun k => w k != 0) || n = 0 || 256 < n
        || 4096 < e then bad s
    else
      let s := s.cleanVirt aspace (w 2).toNat (4 * e)
      match s.virtWords aspace (w 1).toNat (32 * n), s.virtRead aspace (w 2).toNat (4 * e) with
      | (s, some ns), some es =>
        let edges := edgesOf es
        let recs := (List.range n).map fun i => (ns.drop (32 * i)).take 32
        if edges.any (fun x => n ≤ x.1 || n ≤ x.2) || cyclic edges n (List.range n) then bad s
        else
          let bytes := 64 + 4 * e + (recs.map nodeBytes).sum
          if 2 ^ 26 < bytes + (s.graphs.map fun g => g.2.bytes).sum then .wait s
          else
            let gid := s.fresh
            let s : State := { s with fresh := gid + 1 }
            let r := (List.range n).foldl (fun (a : State × List Nat) i =>
              let x := a.1.addLaunch (recs.getD i []) q aspace false (some (gid, i))
              (x.1, a.2 ++ [x.2])) (s, [])
            let g : Graph :=
              { queue := q, template := template, asid := fieldOf aspace 0 16, serial := serial, compl := compl
                recId := recId, aspace := aspace, edges := edges, nodes := r.2, statuses := List.replicate n none
                counts := List.replicate 28 0, bytes := bytes, killed := false }
            .done ({ r.1 with graphs := tput r.1.graphs gid g }.advanceGraph gid)
      | (s, _), _ => bad s

end State

/-! ## Launch completion (16 R434) -/

/-- The status a launch completes with, where it has ended. -/
def Launch.outcome (l : Launch) : Option (Nat × Nat) :=
  match l.status with
  | some x => some x
  | none =>
    if (l.stage == .placing || l.stage == .running) && l.again.isEmpty && l.ended == l.cohortCount
        && l.placed == l.cohortCount then some (0, 0)
    else none

/-- LAUNCH_COMPLETION: once the copies that were under way as its blocks ended are done (19 R486), every write is performed at
`.sys`, the completion record is written, the pins end, and a graph it
is a node of goes on (09 R244, 13 R361, 16 R433, R434, R443). -/
def execLaunchCompletion (lid : Nat) (s : State) : Out :=
  match s.launch? lid with
  | none => .next s
  | some l =>
    match l.outcome with
    | none => .next s
    | some (status, cause) =>
      if l.copies.any fun n => (tget? s.ops n).isSome then .next s else
      let s := s.cores.foldl (fun (s : State) (e : Nat × Core) => s.cleanSelf e.1) s
      let s := s.writeRecord l.queue l.aspace l.compl l.recId status cause l.counters
      let s : State := { s with launches := tdel s.launches lid }
      let s := (s.unpin lid).retest
      let s := match l.graph with
        | some (gid, i) => s.nodeDone gid i status cause l.counters
        | none => s
      .next (s.translatorDone lid status).enterPlacement

end Sys2Proof.Machine
end

