-- ==== Sys2Proof/Machine/Queues.lean ====
section
/-! DEFINITION. Work queues: doorbells, QCTL, and the packets (16 R424 to R431, R434, R436, R443). -/

namespace Sys2Proof.Machine

namespace State

/-! ## Queue contexts (16 R424) -/

/-- A queue changed, with the words of its context that the device writes. -/
def putQueue (s : State) (q : Nat) (x : Queue) : State :=
  let a := s.qtab.toNat + 64 * q
  let s := s.setQueue q x
  (s.homeWrite (a + 24) (bytesOfNat 8 x.rptr.toNat ++ bytesOfNat 8 x.wptr.toNat)).homeWrite (a + 56)
    (bytesOfNat 8 (x.state + 256 * x.err))

/-- A queue error (16 R428, R436 kind 3). -/
def queueError (s : State) (q code : Nat) (w1 : W64) : State :=
  (s.putQueue q { s.queue q with state := 3, err := code, held := none }).postEvent q 3 0 0 w1 (BitVec.ofNat 64 code) 0

/-- A queue has a packet to parse. -/
def Queue.hasWork (x : Queue) : Bool := x.enable && x.state == 1 && x.held.isNone && x.rptr != x.wptr

/-- It is a queue's turn: no queue with work stands between the one served last and it (16 R427). -/
def myTurn (s : State) (q : Nat) : Bool :=
  let far (k : Nat) : Nat := (k + 2047 - s.lastQueue) % 2048
  s.queues.all fun e => !Queue.hasWork e.2 || far q ≤ far e.1

/-- The packet at RPTR of a queue whose turn it is, where its type is one of those given: RPTR advances (16 R427). -/
def parse (s : State) (q : Nat) (type : Nat → Bool) : Option (State × W64 × List W64) :=
  let x := s.queue q
  if !Queue.hasWork x || !s.myTurn q then none
  else
    let r := s.physWords (x.ring.toNat + 256 * (x.rptr.toNat % 2 ^ x.log2Slots)) 32
    if type (fieldOf (r.2.getD 0 0) 0 8) then
      let y := r.1.queue q
      some ({ r.1 with lastQueue := q }.putQueue q { y with rptr := y.rptr + 1 }, x.rptr, r.2)
    else none

/-- The packet that holds its queue back. -/
def hold (s : State) (q : Nat) (h : Option Held) : State := s.setQueue q { s.queue q with held := h }

/-- Every LAUNCH and GRAPH of a queue has completed (16 R431). -/
def queueDone (s : State) (q : Nat) : Bool :=
  (s.launches.all fun e => e.2.queue != q || e.2.system) && s.graphs.all fun e => e.2.queue != q

/-- The index of the packet that a queue holds. -/
def heldIndex (s : State) (q : Nat) : W64 := (s.queue q).rptr - 1

end State

/-- Version of a packet. -/
def packetVersion (w : List W64) : Nat := fieldOf (w.getD 0 0) 8 8

/-- The reserved bits of a control packet are 0: fields of word 0, and the further words that are used. -/
def packetClear (w : List W64) (fs : List (Nat × Nat)) (used : Nat → Bool) : Bool :=
  onlyFields (w.getD 0 0) ((0, 16) :: fs) && (List.range 32).all fun i => i = 0 || used i || w.getD i 0 == 0

namespace State

/-- An 8-byte word at an address that a packet names can be read, and written with `w`. -/
def packetWord (s : State) (q : Nat) (a : W64) (w : Bool) : Bool :=
  a.toNat % 8 == 0 && (s.packetLook (s.queue q).aspace a.toNat).any fun e => e.r && (!w || e.w)

/-- Where words that a packet names cannot be used, the page tables found uncorrectable on the way are retired (13 R373). -/
def cleanWords (s : State) (q : Nat) (l : List W64) : State := s.cleanWalks (s.queue q).aspace (l.map BitVec.toNat)

/-- The word at an address that a packet names; none where it cannot be read. -/
def readPacketWord (s : State) (q : Nat) (a : W64) : State × Option W64 :=
  let s := s.cleanWords q [a]
  match (s.packetLook (s.queue q).aspace a.toNat).filter fun e => e.r with
  | none => (s, none)
  | some e =>
    let s := s.cleanPhys (e.phys a.toNat) 8
    (s, some (s.homeWord (e.phys a.toNat)))

end State

/-! ## Doorbells and QCTL (16 R426) -/

namespace State

/-- A write to the DOORBELL of a queue (16 R426). -/
def doorbell (s : State) (q : Nat) (v : W64) : State :=
  let x := s.queue q
  if !x.enable || x.state = 3 then s
  else if 2 ^ x.log2Slots < (v - x.rptr).toNat then s.queueError q 1 v
  else s.putQueue q { x with wptr := v, state := if x.state = 0 then 1 else x.state }

/-- A cohort of the launch is being moved by the task streamer (16 R442). -/
def moving (s : State) (lid : Nat) : Bool :=
  s.cohorts.any fun e => e.2.launch == lid && match e.2.state with
    | .running => false
    | .preempting p | .saved p _ => p.move.isSome

/-- KILL of a launch; during a move it waits for its end (16 R434, R442). -/
def killLaunch (s : State) (lid : Nat) : State :=
  if s.moving lid then s.modLaunch lid fun l => { l with killed := true } else s.endLaunch lid 9 0

/-- A write to the QCTL of a queue: 1 STOP, 2 RESUME, 3 KILL (16 R426). -/
def qctl (s : State) (q v : Nat) : State :=
  let x := s.queue q
  if !x.enable then s
  else if v = 1 then if x.state ≤ 1 then s.putQueue q { x with state := 2 } else s
  else if v = 2 then if x.state = 2 then s.putQueue q { x with state := 1 } else s
  else if v = 3 then
    let s := s.putQueue q { x with rptr := x.wptr, err := 0, state := 0, held := none }
    let s : State := { s with graphs := s.graphs.map fun e =>
      (e.1, if e.2.queue = q then { e.2 with killed := true } else e.2) }
    let mine := s.launches.filter fun e => e.2.queue == q && !e.2.system
    (mine.foldl (fun (s : State) (e : Nat × Launch) => s.killLaunch e.1) s).enterPlacement
  else s

end State

/-- DOORBELL (16 R426). -/
def execDoorbell (q : Nat) (v : W64) (s : State) : Out := .next (s.doorbell q v)

/-- QCTL 1, STOP (16 R426). -/
def execQctlStop (q : Nat) (s : State) : Out := .next (s.qctl q 1)

/-- QCTL 2, RESUME (16 R426). -/
def execQctlResume (q : Nat) (s : State) : Out := .next (s.qctl q 2)

/-- QCTL 3, KILL: in every state (16 R426). -/
def execQctlKill (q : Nat) (s : State) : Out := .next (s.qctl q 3)

/-! ## Packets -/

/-- NOP, and the types that are none (16 R427, R428). -/
def execNopPacket (q : Nat) (s : State) : Out :=
  match s.parse q fun t => t == 0 || 6 ≤ t with
  | none => .next s
  | some (t, idx, w) =>
    if fieldOf (w.getD 0 0) 0 8 != 0 || packetVersion w != 1 then .next (t.queueError q 2 idx) else .next t

/-- LAUNCH: the record check and the lists (16 R432, R433). -/
def execLaunchPacket (q : Nat) (s : State) : Out :=
  match s.parse q (· == 1) with
  | none => .next s
  | some (t, _, w) =>
    let r := t.addLaunch w q (t.queue q).aspace false none
    .next (r.1.startStages r.2).enterPlacement

namespace State

/-- The counters of a FENCE that are not yet met, or none where one cannot be read (16 R430). -/
def testCounters (s : State) (q : Nat) : List (W64 × W64) → State × Option (List (W64 × W64))
  | [] => (s, some [])
  | (a, v) :: rest =>
    match s.readPacketWord q a with
    | (s, none) => (s, none)
    | (s, some x) =>
      let r := s.testCounters q rest
      (r.1, r.2.map fun l => if v.toNat ≤ x.toNat then l else (a, v) :: l)

/-- A test of the FENCE that a queue holds: its TIMEOUT has elapsed first, or its counters are read; a met counter stays met
(16 R430). -/
def testFence (s : State) (q : Nat) : State :=
  match (s.queue q).held with
  | some (.fence left start timeout) =>
    if timeout != 0 && start + us timeout ≤ s.now then s.queueError q 5 (s.heldIndex q)
    else
    match s.testCounters q left with
    | (s, none) => s.queueError q 4 (s.heldIndex q)
    | (s, some l) => s.hold q (if l.isEmpty then none else some (.fence l start timeout))
  | _ => s

end State

/-- FENCE, with its first test (16 R429, R430). -/
def execFencePacket (q : Nat) (s : State) : Out :=
  match s.parse q (· == 2) with
  | none => .next s
  | some (t, idx, w) =>
    let n := fieldOf (w.getD 0 0) 16 4 + 1
    let cs := (List.range n).map fun i => (w.getD (2 + 2 * i) 0, w.getD (3 + 2 * i) 0)
    if packetVersion w != 1 then .next (t.queueError q 2 idx)
    else if 12 < n then .next (t.queueError q 6 idx)
    else if !packetClear w [(16, 4), (32, 32)] (fun i => 2 ≤ i && i < 2 + 2 * n) then .next (t.queueError q 3 idx)
    else if !cs.all fun c => t.packetWord q c.1 false then .next ((t.cleanWords q (cs.map (·.1))).queueError q 4 idx)
    else
      .next ((t.hold q (some (.fence cs t.now (fieldOf (w.getD 0 0) 32 32)))).testFence q)

/-- A test of the counters of a FENCE (16 R430). -/
def execFenceCounterTest (q : Nat) (s : State) : Out := .next (s.testFence q)

/-- TIMEOUT of a FENCE elapses (16 R430). -/
def execFenceTimeout (q : Nat) (s : State) : Out :=
  match (s.queue q).held with
  | some (.fence _ start timeout) =>
    if timeout != 0 && start + State.us timeout ≤ s.now then .next (s.queueError q 5 (s.heldIndex q)) else .next s
  | _ => .next s

/-- SIGNAL (16 R429, R431). -/
def execSignalPacket (q : Nat) (s : State) : Out :=
  match s.parse q (· == 3) with
  | none => .next s
  | some (t, idx, w) =>
    let op := fieldOf (w.getD 0 0) 16 2
    let a := w.getD 1 0
    if packetVersion w != 1 then .next (t.queueError q 2 idx)
    else if !packetClear w [(16, 3)] (fun i => i == 1 || i == 2) || 2 ≤ op then .next (t.queueError q 3 idx)
    else if !t.packetWord q a true then .next ((t.cleanWords q [a]).queueError q 4 idx)
    else .next (t.hold q (some (.signal op ((w.getD 0 0).getLsbD 18) a (w.getD 2 0) idx.toNat)))

/-- The SIGNAL that a queue holds is performed once every earlier LAUNCH and GRAPH has completed (16 R431). -/
def execSignalPerform (q : Nat) (s : State) : Out :=
  match (s.queue q).held with
  | some (.signal op irq a v idx) =>
    if !s.queueDone q then .next s
    else
      match s.readPacketWord q a, s.packetLook (s.queue q).aspace a.toNat with
      | (s, some old), some e =>
        if !e.w then .next (s.queueError q 4 (s.heldIndex q))
        else
          let new := if op = 0 then v else old + v
          let s := (s.homeWrite (e.phys a.toNat) (bytesOfNat 8 new.toNat)).hold q none
          .next (if irq then s.postEvent q 1 0 0 (BitVec.ofNat 64 idx) a new else s)
      | (s, _), _ => .next (s.queueError q 4 (s.heldIndex q))
  | _ => .next s

/-- GRAPH: its parse, or a further test of one that waits (16 R429, R443). -/
def execGraphPacket (q : Nat) (s : State) : Out :=
  match (s.queue q).held with
  | some (.graph w) =>
    match s.startGraph q w with
    | .error t => .next (t.queueError q 4 (t.heldIndex q))
    | .wait t => .next t
    | .done t => .next (t.hold q none).enterPlacement
  | _ =>
    match s.parse q (· == 4) with
    | none => .next s
    | some (t, idx, w) =>
      if packetVersion w != 1 then .next (t.queueError q 2 idx)
      else if !packetClear w [] (fun i => 1 ≤ i && i ≤ 3) then .next (t.queueError q 3 idx)
      else if (w.getD 1 0).toNat % 64 != 0 || (w.getD 2 0).toNat % 128 != 0 then .next (t.queueError q 4 idx)
      else
        match t.startGraph q w with
        | .error t => .next (t.queueError q 4 idx)
        | .wait t => .next (t.hold q (some (.graph w)))
        | .done u => .next u.enterPlacement

namespace State

/-- The named completion records all have DONE = 1; none where one cannot be read (16 R431). -/
def recordsDone (s : State) (q : Nat) : List W64 → State × Option Bool
  | [] => (s, some true)
  | a :: rest =>
    match s.readPacketWord q a with
    | (s, none) => (s, none)
    | (s, some x) =>
      let r := s.recordsDone q rest
      (r.1, r.2.map fun b => b && x.getLsbD 63)

/-- A BARRIER-AND held by its queue is tested. -/
def testBarrier (s : State) (q : Nat) (recs : List W64) : State :=
  match s.recordsDone q recs with
  | (s, none) => s.queueError q 4 (s.heldIndex q)
  | (s, some b) => if b && s.queueDone q then s.hold q none else s

end State

/-- BARRIER-AND: its parse, or a further test of one that waits (16 R429, R431). -/
def execBarrierAndPacket (q : Nat) (s : State) : Out :=
  match (s.queue q).held with
  | some (.barrier recs) => .next (s.testBarrier q recs)
  | _ =>
    match s.parse q (· == 5) with
    | none => .next s
    | some (t, idx, w) =>
      let n := fieldOf (w.getD 0 0) 16 4
      let recs := (List.range n).map fun i => w.getD (2 + i) 0
      if packetVersion w != 1 then .next (t.queueError q 2 idx)
      else if 12 < n then .next (t.queueError q 6 idx)
      else if !packetClear w [(16, 4)] (fun i => 2 ≤ i && i < 2 + n) then .next (t.queueError q 3 idx)
      else if !recs.all fun a => t.packetWord q a false then .next ((t.cleanWords q recs).queueError q 4 idx)
      else .next ((t.hold q (some (.barrier recs))).testBarrier q recs)

end Sys2Proof.Machine
end

