-- ==== Sys2Proof/Machine/Context.lean ====
section
/-! DEFINITION. Pre-emption, the save and restore of cohorts, and the task streamer (11 R308, 14 R390, 15 R407, 16 R442,
17 R450, R452 to R461). -/

namespace Sys2Proof.Machine

/-! ## Requests (16 R442, 17 R455) -/

namespace State

/-- The launches that wait for room, the first in placement order first (16 R440). -/
def waitingLaunches (s : State) : List (Nat × Launch) :=
  sortBy (fun a b => !State.before b.2 a.2) (s.launches.filter fun e => s.placing e.1 e.2 && !s.fitsNow e.1 e.2)

/-- What the PKS pre-empts next for a waiting launch (17 R455). -/
def nextVictims (s : State) : List (Nat × Cohort) :=
  (s.waitingLaunches.findSome? fun e => s.giveWay e.1 e.2).getD []

/-- A cohort has not moved in the last 20 ms (15 R399, 16 R442). -/
def mayMove (s : State) (c : Cohort) : Bool :=
  c.state == .running && (match c.lastMove with
    | some t => decide (t + ms 20 ≤ s.now)
    | none => true)

/-- The blocks of a cohort placed one by one on cores of a chiplet slot, or none where there is no room. -/
def cohortTo (s : State) (slot : Nat) : List Nat → List Nat → Option State
  | [], [] => some s
  | bid :: bs, c :: cs =>
    if 96 ≤ c then none
    else if (s.block? bid).isNone then s.cohortTo slot bs cs
    else if !s.prefers (96 * slot + c) (Config.blockAmps (((s.launchOfBlock bid).bind s.launch?).map Launch.record |>.getD []))
        fun k => (s.blockTo bid k).isSome then none
    else (s.blockTo bid (96 * slot + c)).bind fun t => t.cohortTo slot bs cs
  | _, _ => none

end State

/-- PREEMPTION_REQUEST of a cohort that gives way to a waiting higher class; the cohorts chosen with it are asked together
(17 R455). -/
def execPreemptionRequest (cohort : Nat) (s : State) : Out :=
  let v := s.nextVictims
  if v.any fun e => e.1 == cohort then
    .next (v.foldl (fun (s : State) (e : Nat × Cohort) => s.preempt e.1 Cause.preempt none) s)
  else .next s

/-- A cohort that waits, of a class above one given, could start on a chiplet without some cohorts: the next fresh one of a
launch, with room for its images in the context store, or a saved one (16 R442, 17 R458). -/
def State.letsStart (s : State) (slot cls : Nat) (out : List (Nat × Cohort)) : Bool :=
  let t := s.without out
  (s.waitingLaunches.any fun e => decide (cls < e.2.cls) && t.chipRoom slot e.1 e.2
      && (s.imagePlaces e.2.imageUnits e.2.cohortBlocks s.imageRanges).isSome)
    || s.cohorts.any fun e => match e.2.state, s.launch? e.2.launch with
      | .saved p bs, some m => decide (cls < m.cls) && p.move.isNone && s.restorable bs
          && !((List.range 9).any fun k => s.savedRoom k e.2.launch m bs) && t.savedRoom slot e.2.launch m bs
      | _, _ => false

/-- TASK_STREAMER_MOVE: a move for load imbalance begins, of a cohort of a class below that of a waiting launch, to another
chiplet, where that lets the waiting cohort start; it goes on with the restore (16 R442). -/
def execTaskStreamerMove (cohort slot : Nat) (cores : List Nat) (s : State) : Out :=
  match s.cohort? cohort with
  | none => .next s
  | some c =>
    let cls := ((s.launch? c.launch).map Launch.cls).getD 7
    if s.mayMove c && slot != c.chip && (s.chiplet slot).power == .active && s.letsStart c.chip cls [(cohort, c)]
        && (s.cohortTo slot c.blocks cores).isSome then
      .next (s.preempt cohort Cause.preempt (some (slot, cores)))
    else .next s

/-! ## Delivery of PREEMPT, SHED and a restore (17 R450, R452, R455, R461) -/

namespace State

/-- Every outstanding operation of a group has drained. -/
def drained (s : State) (gid : Nat) : Bool := s.ops.all fun e => e.2.gid != gid || !s.unperformed e.1 e.2

end State

/-- ASYNC_TRAP_DELIVERY at a clause boundary or a blocking point. -/
def execAsyncTrapDelivery (gid : Nat) (s : State) : Out :=
  match s.group? gid with
  | none => .next s
  | some g =>
    if g.handler || !g.late.isEmpty || !deliverable g then .next s
    else
      match g.restore with
      | some r =>
        .next ((s.setGroup gid { g with restore := none }).deliverAsync gid r true)
      | none =>
        if !(g.preempt || g.shed) || !s.drained gid then .next s
        else
          let code := if g.shed then Cause.shed else Cause.preempt
          .next ((s.setGroup gid { g with preempt := false, shed := false }).deliverAsync gid code false)

/-- A `.cb` copy of a cohort that has taken its slot runs on (17 R455). -/
def State.copyRuns (s : State) (c : Cohort) : Bool :=
  s.ops.any fun e => c.blocks.contains e.2.block && match e.2.kind with
    | .copy x => x.cb && x.slot.isSome
    | _ => false

/-- PMACK_TIMEOUT: 2 ms after the request, or after the end of the last `.cb` copy that ran past 20 µs (17 R456). -/
def execPmackTimeout (cohort : Nat) (s : State) : Out :=
  match s.cohort? cohort with
  | none => .next s
  | some c =>
    match c.state with
    | .preempting p =>
      if max p.at_ p.last + State.ms 2 ≤ s.now && !s.copyRuns c && !s.allAcked c then .next (s.endLaunch c.launch 8 0x10) else .next s
    | _ => .next s

/-! ## Restore (17 R460, R461) -/

/-- The header of an image fails: its cause (17 R459, R460). -/
def headerCause (h : List W64) (features : BitVec 128) : Option Nat :=
  let w (n : Nat) : W64 := h.getD n 0
  if fieldOf (w 0) 0 32 != 0x43545831 || fieldOf (w 0) 32 16 != 1 || fieldOf (w 0) 48 16 != 1
      || fieldOf (w 6) 16 48 != 0 || (List.range 25).any fun i => w (7 + i) != 0 then some 0x80
  else
    let live := (w 2).toNat + 2 ^ 64 * (w 3).toNat
    (List.range 128).find? fun f => live.testBit f && !features.getLsbD f

/-- Bytes as a table, zeros not listed. -/
def byteTable (l : List Byte) : List (Nat × Byte) :=
  (List.range l.length).foldl (fun t i => tset 0 t i (l.getD i 0)) []

/-- The accumulator elements of an image. -/
def accTable (l : List Byte) : List (Nat × W32) :=
  (List.range (l.length / 4)).foldl (fun t i =>
    tset 0 t i (BitVec.ofNat 32 (natOfBytes ((l.drop (4 * i)).take 4)))) []

namespace State

/-- The first cause by which the image of a block of a saved cohort cannot be restored (17 R460). -/
def imageCause (s : State) (l : Launch) (blocks : List Saved) : Option Nat :=
  blocks.findSome? fun x =>
    match s.virtRead l.aspace x.block.image 256 with
    | none => some 0x80
    | some h => headerCause (wordsOf h) s.features

/-- The scratchpad, tile and accumulator sections of an image; none where a byte cannot be read. -/
def imageData (s : State) (l : Launch) (b : Block) : Option (List Byte × List Byte × List Byte) :=
  let m := l.image
  match s.virtRead l.aspace (b.image + m.scr) b.hwm, s.virtRead l.aspace (b.image + m.tile) (8192 * l.tiles),
      s.virtRead l.aspace (b.image + m.acc) (16384 * l.accs) with
  | some sc, some ti, some ac => some (sc, ti, ac)
  | _, _, _ => none

/-- A group as the restore loads it: its allocation, with registers at 0, and its recorded threads (17 R461). Its class is
allowed, so that nothing holds it (15 R419, R420). -/
def restoredGroup (g : Group) (gslot reason : Nat) : Group :=
  { g with gslot := gslot, regs := [], lanes := g.recorded.getD g.lanes, run := none, blocked := none, hsaved := none
           handler := false, hset := [], entry := [], recorded := none, preempt := false, shed := false
           restore := some reason, waitCount := 0, yieldTo := [], shedHold := false, holdNext := false, shedAt := none
           pmacked := false }

/-- The boost lease of a restored block: one that travelled with it counts on, and a banked one is requested again
(15 R407). -/
def restoreBoost (s : State) (bid : Nat) : State :=
  match s.block? bid with
  | none => s
  | some b =>
    if b.boostUntil.isSome then
      if s.leased b then s else s.setBlock bid { b with boostUntil := none }
    else if b.boostBank = 0 then s
    else
      let cls := (s.groupsOf bid).any fun e => s.classAllowed e.2.cls
      let s := (s.setBlock bid { b with boostBank := 0 }).expireBoosts
      match s.boostRefusal b cls with
      | some _ => s.modBlock bid fun b => { b with boostNote := 7 }
      | none => s.startBoost bid (min b.boostBank 10000)

/-- A block restored on a core, or none where there is no room: its place, scratchpad, tiles, accumulators, groups, claims,
operations and write filter; it keeps its group slots, and REASON is what its header says (04 R94, 11 R308, 16 R441, R442,
17 R459, R461). -/
def restoreBlock (s : State) (lid : Nat) (l : Launch) (core : Nat) (x : Saved) : Option State :=
  let units := (x.groups.map fun e => e.2.units).sum
  let reason := fieldOf (((s.virtRead l.aspace x.block.image 256).map wordsOf).getD [] |>.getD 6 0) 8 8
  match s.roomFor core lid l { l.need with units := units } (some x.block.gslots) with
  | none => none
  | some (s, gs) =>
    let b := x.block
    let bid := x.bid
    match s.imageData l b with
    | none => none
    | some (sc, ti, ac) =>
      let s := s.setBlock bid { b with core := core, gslots := gs, scratch := byteTable sc, tiles := byteTable ti
                                       accs := accTable ac }
      let s := x.groups.foldl (fun (s : State) (e : Nat × Group) =>
        s.setGroup e.1 (restoredGroup e.2 (gs.getD e.2.slot 0) reason)) s
      let s := (b.forming.filter fun f => f.slot.isSome).foldl (fun (s : State) _ =>
        s.modQuota core lid fun q => { q with claims := q.claims ++ [.formed bid l.groupUnits] }) s
      let s : State := { s with ops := s.ops.map fun e => (e.1, if e.2.block = bid then { e.2 with core := core } else e.2) }
      let s := (s.modCore core fun c => c.addSig x.filter x.filterSat).dropSelf core fun _ => true
      some (s.restoreBoost bid)

/-- The core given for a block of a cohort, by its place in the cohort. -/
def coreFor (c : Cohort) (slot : Nat) (cores : List Nat) (bid : Nat) : Nat :=
  96 * slot + cores.getD (c.blocks.idxOf bid) 0

/-- The blocks of a saved cohort restored on cores of a chiplet, all or none. -/
def restoreBlocks (s : State) (c : Cohort) (l : Launch) (slot : Nat) (cores : List Nat) :
    List Saved → Option State
  | [] => some s
  | x :: xs =>
    (s.restoreBlock c.launch l (coreFor c slot cores x.bid) x).bind fun t =>
      t.restoreBlocks c l slot cores xs

/-- A forwarding entry for a block that has moved: its earlier entry goes, and a full table drops its oldest (14 R390). -/
def forward (s : State) (cid bid src dst : Nat) : State :=
  if src = dst then s
  else
    let s : State := { s with chiplets := s.chiplets.map fun e =>
      (e.1, { e.2 with forwards := e.2.forwards.filter fun f => f.block != bid }) }
    s.modChiplet (coreSlot src) fun c =>
      { c with forwards := c.forwards.drop (c.forwards.length - 63) ++ [⟨cid, bid, src, dst, s.now⟩] }

/-- Where a saved cohort may be restored: at the target of its move, at its source where the target is no longer active,
and otherwise anywhere (16 R442). -/
def restorePlace (s : State) (c : Cohort) (p : Preempt) (slot : Nat) (cores : List Nat) : Bool :=
  (s.chiplet slot).power == .active && match p.move with
    | none => true
    | some (t, cs) =>
      if (s.chiplet t).power == .active then slot == t && cores == cs
      else slot == c.chip || (s.chiplet c.chip).power != .active

end State

/-- COHORT_RESTORE: the saved cohort starts again on the cores given of a chiplet, while TRAP_VEC is not 0, the classes of its
groups are allowed, and no cohort goes before it that fits; the headers of its images are checked first
(15 R420, 16 R440, R442, 17 R453, R460, R461). -/
def execCohortRestore (cohort slot : Nat) (cores : List Nat) (s : State) : Out :=
  match s.cohort? cohort with
  | none => .next s
  | some c =>
    match c.state, s.launch? c.launch with
    | .saved p blocks, some l =>
      let shaped := cores.length == c.blocks.length && cores.all fun k => k < 96
      if !s.restorable blocks || (p.move.isNone && s.outranked c.launch l) || !shaped || !s.restorePlace c p slot cores then .next s
      else
        -- Uncorrectable lines that the reads of the images meet are retired (13 R373).
        let s := blocks.foldl (fun (s : State) x => s.cleanVirt l.aspace x.block.image l.image.size) s
        match s.imageCause l blocks with
        | some cause => .next (s.endLaunch c.launch 12 cause).enterPlacement
        | none =>
          if blocks.any fun x => (s.imageData l x.block).isNone then .next (s.endLaunch c.launch 8 0x07).enterPlacement else
          match s.restoreBlocks c l slot cores blocks with
          | none => .next s
          | some t =>
            let moved := p.move.isSome && blocks.any fun x => x.block.core != State.coreFor c slot cores x.bid
            let t := t.modCohort cohort fun x =>
              { x with state := .running, chip := slot, lastMove := if moved then some s.now else x.lastMove }
            let t := if p.move.isNone then t
              else blocks.foldl (fun (t : State) (x : Saved) =>
                t.forward cohort x.bid x.block.core (State.coreFor c slot cores x.bid)) t
            let t := c.blocks.foldl (fun (t : State) b => match t.block? b with
              | some x => (t.grantClaims x.core c.launch 64).settle b
              | none => t) t
            .next (if l.killed then (t.endLaunch c.launch 9 0).enterPlacement else t)
    | _, _ => .next s

end Sys2Proof.Machine
end

