-- ==== Sys2Proof/Machine/Copies.lean ====
section
/-! DEFINITION. Copies: CPY, CPYMC and CPYQ, the units they write, their ends, and their drain at pre-emption
(08 R222 to R226, R233, R235). -/

namespace Sys2Proof.Machine

/-! ## The tile (08 R222) -/

/-- A tile description. -/
structure Tile where
  maddr : W64
  mstride : W32
  soff : W32
  sstride : W32
  rows : Nat
  /-- Row length in units of 16 bytes. -/
  units : Nat
  bo : W32
  deriving DecidableEq, Repr

namespace Tile

/-- The tile in x(A) to x(A + 7) of a lane. -/
def read (c : Ctx) (a : Src) (l : Nat) : Tile :=
  let x (k : Nat) : W32 := c.rd a l k
  ⟨pair (x 0) (x 1), x 2, x 3, x 4, (x 5).toNat % 4096 + 1, (x 5).toNat / 4096 % 4096 + 1, x 6⟩

/-- Row length in bytes. -/
def len (t : Tile) : Nat := 16 * t.units

/-- The memory address of a row. -/
def maddrAt (t : Tile) (r : Nat) : Nat := (t.maddr + BitVec.ofNat 64 r * t.mstride.signExtend 64).toNat

/-- The memory addresses of the rows. -/
def mrows (t : Tile) : List Nat := (List.range t.rows).map t.maddrAt

/-- The scratchpad offset of a row from that of row 0, and the extent of all rows from there: its start and its end. -/
def srow (t : Tile) (r : Nat) : Int := (r : Int) * t.sstride.toInt
def extent (t : Tile) : Int × Int :=
  (min 0 (t.srow (t.rows - 1)), max 0 (t.srow (t.rows - 1)) + t.len)

/-- The barrier object, if any. -/
def obj (t : Tile) : Option Nat := if t.bo = 0xFFFFFFFF then none else some t.bo.toNat

end Tile

/-! ## The checks (08 R223, R225) -/

namespace State

/-- MISALIGNED of a scratchpad offset (log 22). -/
def offCause (s : State) (bid o : Nat) : Cause := ⟨Cause.misaligned, BitVec.ofNat 64 o, BitVec.ofNat 64 (s.windowAddr bid o)⟩

/-- Step 1: the alignments of the fields. -/
def tileAlign (s : State) (bid : Nat) (t : Tile) : Option Cause :=
  if t.maddr.toNat % 16 != 0 then some (Cause.align t.maddr)
  else if t.mstride.toNat % 16 != 0 then some (Cause.align (t.mstride.setWidth 64))
  else if t.soff.toNat % 16 != 0 then some (s.offCause bid t.soff.toNat)
  else if t.sstride.toNat % 16 != 0 then some (Cause.align (t.sstride.setWidth 64))
  else if t.bo != 0xFFFFFFFF && t.bo.toNat % 16 != 0 then some (s.offCause bid t.bo.toNat)
  else none

/-- An extent from an offset of a scratchpad lies within a size. -/
def extentOk (t : Tile) (off size : Nat) : Bool := 0 ≤ (off : Int) + t.extent.1 && (off : Int) + t.extent.2 ≤ size

/-- PERMISSION of an extent of a block's scratchpad, at the window address of its start from an offset; under `.cb`, where no
slot is known yet, from offset 0 (log 68). -/
def extentCause (s : State) (bid : Nat) (t : Tile) (off : Nat) : Cause :=
  Cause.window (((s.windowAddr bid 0 : Int) + off + t.extent.1) % (2 ^ 64 : Nat)).toNat 0

/-- Step 2: the extent, the object, and under `.cb` the descriptor. The extent under `.cb` is tested against the SLOTSZ that
the descriptor holds, where it can be read (log 68). -/
def tileScratch (s : State) (bid : Nat) (t : Tile) (cb : Bool) : Option Cause :=
  let obj := t.obj.bind fun o => s.scratchCheck bid o 16
  if cb then
    let d := s.cbDesc bid t.soff.toNat
    let desc := s.objCheck bid t.soff.toNat 32 32
    (if desc.isNone && !extentOk t 0 d.slotSize then some (s.extentCause bid t 0) else none).orElse fun _ =>
      obj.orElse fun _ => desc.orElse fun _ =>
        if d.valid (s.scratchSize bid) then none else some (Cause.misuse t.soff.toNat)
  else (if extentOk t t.soff.toNat (s.scratchSize bid) then none else some (s.extentCause bid t t.soff.toNat)).orElse
    fun _ => obj

/-- The first byte of a window range that no scratchpad of the cohort holds (08 R209); a block that has ended holds none
(log 69). -/
def windowGap (s : State) (blocks : List Nat) (a n : Nat) : Nat → Option Nat
  | 0 => some a
  | fuel + 1 =>
    let j := (a - windowBase) / 2 ^ 18
    match blocks[j]? with
    | none => some a
    | some b =>
      let stop := windowBase + 2 ^ 18 * j + s.scratchSize b
      if a + n ≤ stop then none
      else if stop ≤ a then some a
      else if s.scratchSize b = 2 ^ 18 then s.windowGap blocks stop (a + n - stop) fuel
      else some stop

/-- The pages of rows that are not yet translated, each with the first byte and the number of bytes touched in it. -/
def rowPages (rows : List Nat) (n : Nat) : List (Nat × Nat × Nat) :=
  (rows.map fun a => (List.range ((a + n - 1) / 65536 - a / 65536 + 1)).map fun i =>
    let p := a / 65536 + i
    let lo := max a (65536 * p)
    (p, lo, min (a + n) (65536 * (p + 1)) - lo)).flatten

/-- The addresses of a memory side that are translated: one of each page, where every row lies outside the window and passes the
leases. -/
def sideAddrs (u : Who) (rows : List Nat) (n : Nat) (k : AccessKind) : List Nat :=
  let bad (a : Nat) : Bool := (decide (windowBase < a + n) && decide (a < 2 ^ 55)) || (checkLease u a n k).isSome
  if rows.any bad then [] else ((rowPages (unionNat rows []) n).map (·.2.1)).eraseDups

/-- Translations and rights of pages in order, with what they find. -/
def resolvePages (u : Who) (k : AccessKind) (peer : Bool) :
    List (Nat × Nat × Nat) → List (Nat × TlbEntry) → State → State × Except Cause (List (Nat × TlbEntry))
  | [], l, s => (s, .ok l)
  | (p, a, n) :: t, l, s =>
    let r := s.resolve u a n k ⟨false, peer⟩
    match r.target with
    | .error x => (r.s, .error x)
    | .ok (.scr _ _) => resolvePages u k peer t l r.s
    | .ok (.mem e) => resolvePages u k peer t (tput l p e) r.s

/-- Steps 3 and 4: the memory side, rows of `n` bytes, lowest address first. A side partly in the window fails at the first
window address of its lowest row there (log 70). -/
def memorySide (s : State) (u : Who) (rows : List Nat) (n : Nat) (k : AccessKind) (peer : Bool) :
    State × Except Cause (List (Nat × TlbEntry)) :=
  let rows := unionNat rows []
  let touches (a : Nat) : Bool := decide (windowBase < a + n) && decide (a < 2 ^ 55)
  if rows.any touches then
    if rows.all fun a => decide (windowBase ≤ a) && decide (a + n ≤ 2 ^ 55) then
      match rows.findSome? fun a => s.windowGap ((s.cohort? u.cid).map Cohort.blocks |>.getD []) a n 3 with
      | some a => (s, .error (Cause.window a 0))
      | none => (s, .ok [])
    else (s, .error (Cause.window (max windowBase ((rows.find? touches).getD 0)) 0))
  else
    match rows.findSome? fun a => checkLease u a n k with
    | some x => (s, .error x)
    | none => resolvePages u k peer (rowPages rows n).eraseDups [] (s.evictPtes u.aspace (sideAddrs u rows n k) 4)

/-- The lock entries of a memory side (08 R213). -/
def memoryLocks (s : State) (u : Who) (rows : List Nat) (n : Nat) (write : Bool) : List LockWant :=
  let lo := rows.foldl min (rows.headD 0)
  let hi := rows.foldl max 0 + n
  if lo < windowBase then [⟨clusterOf u.core, .mem (lo / 128) ((hi - 1) / 128), write⟩]
  else
    let blocks := ((s.cohort? u.cid).map Cohort.blocks).getD []
    (List.range blocks.length).filterMap fun j =>
      let base := windowBase + 2 ^ 18 * j
      if rows.any fun a => decide (a < base + 2 ^ 18) && decide (base < a + n) then
        (blocks[j]?).bind fun b => (s.block? b).map fun x =>
          ⟨clusterOf x.core, .scr b ((max lo base - base) / 16) ((min hi (base + 2 ^ 18) - 1 - base) / 16), write⟩
      else none

/-- The lock entry of a tile in a block's scratchpad. -/
def tileLock (s : State) (bid : Nat) (t : Tile) (write : Bool) : LockWant :=
  let o (x : Int) : Nat := ((t.soff.toNat : Int) + x).toNat
  ⟨clusterOf (((s.block? bid).map Block.core).getD 0), .scr bid (o t.extent.1 / 16) ((o t.extent.2 - 1) / 16), write⟩

end State

/-! ## Issue (08 R223, R225, R233) -/

/-- The copy of a tile. -/
def Tile.copy (t : Tile) (out cb : Bool) (recv peers : List Nat) (xlat : List (Nat × TlbEntry)) (u : Who) (hint : Nat) :
    Copy :=
  { out := out, cb := cb, maddr := t.maddr, mstride := t.mstride, soff := t.soff.toNat, sstride := t.sstride, rows := t.rows
    units := t.units, bo := t.obj, recv := recv, peers := peers, slot := none, xlat := xlat, aspace := u.aspace, hint := hint
    done := [], counted := [], snap := none, refused := false }

/-- A word with a memory side: it waits at its issue while translations of the side join walks or queue for a walker, and goes on
with what its checks find (09 R247). -/
def Ctx.withSide (c : Ctx) (s : State) (u : Who) (rows : List Nat) (n : Nat) (k : AccessKind) (peer : Bool)
    (f : State → List (Nat × TlbEntry) → WordOut) : WordOut :=
  match s.waitWalks u.core u.aspace (State.sideAddrs u rows n k) with
  | some s => .left s
  | none =>
    match s.memorySide u rows n k peer with
    | (s, .error x) => c.trap x s
    | (s, .ok l) => f s l

/-- A word whose copy starts, or stalls for entries. -/
def Ctx.startCopy (c : Ctx) (s : State) (d : BitVec 7) (y : Copy) (locks : List LockWant) : WordOut :=
  let results := resultKeys d (c.act.map fun i => (i, [none]))
  match s.addLocked (c.op (.copy y) d) locks results with
  | none => .block (.rlt (locks.map (·.cluster))) s
  | some t =>
    if y.cb then
      let t := t.modBlock c.bid fun b => { b with bufq := b.bufq ++ [⟨y.soff, !y.out, c.gid, some s.fresh⟩] }
      .done (t.grantBuffers c.bid 64) []
    else .done t []

/-- CPY. -/
def execCpy (w : VWord) (s : State) : Out :=
  runWord (.cpy w) (fun c s =>
    match c.l0, s.who? c.gid, c.full with
    | none, _, _ => .done s []
    | _, none, _ => .left s
    | _, _, some f => .block (.flagFull f) s
    | some l, some u, none =>
      let t := Tile.read c w.a l
      let out := w.ebit 5
      let cb := w.ebit 6
      match (s.tileAlign c.bid t).orElse fun _ => s.tileScratch c.bid t cb with
      | some x => c.trap x s
      | none =>
        c.withSide s u t.mrows t.len (if out then .write else .read) true fun s xl =>
          let scr : LockWant := if cb then ⟨clusterOf c.core, .none, !out⟩ else s.tileLock c.bid t (!out)
          c.startCopy s w.d (t.copy out cb [c.bid] c.o.c.blocks xl u w.sched.h.toNat)
            (s.memoryLocks u t.mrows t.len out ++ [scr])) s

/-- CPYMC. -/
def execCpymc (w : VWord) (s : State) : Out :=
  runWord (.cpymc w) (fun c s =>
    match c.l0, s.who? c.gid, c.full with
    | none, _, _ => .done s []
    | _, none, _ => .left s
    | _, _, some f => .block (.flagFull f) s
    | some l, some u, none =>
      let t := Tile.read c w.a l
      let mask := bitsOf 16 (c.rd w.b l).toNat
      let rows (j : Nat) : Bool :=
        match c.o.c.blocks[j]? with
        | none => true
        | some b => !State.extentOk t t.soff.toNat (s.scratchSize b)
      let fails (j : Nat) : Bool :=
        rows j || (c.o.c.blocks[j]?).any fun b => t.obj.any fun o => (s.scratchCheck b o 16).isSome
      match s.tileAlign c.bid t with
      | some x => c.trap x s
      | none =>
        match mask.filter fails with
        | j :: rest =>
          -- The rows are tested before the object: the address is that of the first to fail (log 69).
          c.trap ⟨Cause.multicastPermission, (laneMask (j :: rest)).setWidth 64,
            BitVec.ofInt 64 ((windowBase + 2 ^ 18 * j : Nat) +
              (if rows j then (t.soff.toNat : Int) + t.extent.1 else (t.obj.getD 0 : Int)))⟩ s
        | [] =>
          c.withSide s u t.mrows t.len .read false fun s xl =>
            let recv := mask.filterMap fun j => c.o.c.blocks[j]?
            if recv.isEmpty then c.write s w.d fun _ => [0]
            else c.startCopy s w.d (t.copy false false recv c.o.c.blocks xl u w.sched.h.toNat)
              (s.memoryLocks u t.mrows t.len false ++ recv.map fun b => s.tileLock b t true)) s

/-! ## Units (08 R223, R224, 09 R257) -/

namespace Copy

/-- A later row has already written the same destination unit (08 R223). -/
def overwritten (c : Copy) (u : Nat) : Bool :=
  c.done.any fun v => c.recvOf v == c.recvOf u && decide (c.rowOf u < c.rowOf v)
    && (if c.out then c.memAt v == c.memAt u else c.scrAt v == c.scrAt u)

/-- A window memory side shares bytes with the scratchpad side (09 R257). -/
def selfOverlap (c : Copy) : Bool :=
  windowBase ≤ c.maddr.toNat && (List.range c.total).any fun u => (List.range c.per).any fun v =>
    let a := c.memAt v
    c.peers[(a - windowBase) / 2 ^ 18]? == c.recv[c.recvOf u]? && (a - windowBase) % 2 ^ 18 == c.scrAt u

end Copy

namespace State

/-- The 16 bytes of a copy's source unit, or the cause of an uncorrectable line. -/
def copyRead (s : State) (o : Op) (c : Copy) (u : Nat) : State × Except (Nat × Cause) (List Byte) :=
  let a := c.memAt u
  if c.out then (s, .ok (s.scratchRead (c.recv.headD 0) (c.scrAt u) 16))
  else if windowBase ≤ a then
    (s, .ok (s.scratchRead (c.peers.getD ((a - windowBase) / 2 ^ 18) 0) ((a - windowBase) % 2 ^ 18) 16))
  else
    match tget? c.xlat (a / 65536) with
    | none => (s, .ok (List.replicate 16 0))
    | some e =>
      match s.dataError ⟨o.core, o.block, 0, c.aspace, []⟩ (.mem e) a 16 (some c.hint) with
      | some x => (s, .error x)
      | none => let r := s.loadBytes o.core e (fieldOf c.aspace 0 16) a 16 c.hint; (r.1, .ok r.2)

/-- An object of a receiver counts the bytes of a copy (08 R224). -/
def copyCounts (s : State) (c : Copy) (bid : Nat) : Bool :=
  c.bo.any fun o => (s.block? bid).isSome && (s.barObj bid o).mode.testBit 0

/-- 16 bytes written to a copy's destination unit. Where an object counts its bytes, a write to memory is performed at device
scope before it arrives: the unit's bytes go from the L1 to L2 (08 R224, 10 R277, 11 R309). -/
def copyWrite (s : State) (o : Op) (c : Copy) (u : Nat) (l : List Byte) : State :=
  let a := c.memAt u
  if !c.out then s.scratchWrite (c.recv.getD (c.recvOf u) 0) (c.scrAt u) l
  else if windowBase ≤ a then
    s.scratchWrite (c.peers.getD ((a - windowBase) / 2 ^ 18) 0) ((a - windowBase) % 2 ^ 18) l
  else
    match tget? c.xlat (a / 65536) with
    | none => s
    | some e =>
      let s := s.storeBytes o.core e (fieldOf c.aspace 0 16) a l c.hint
      if e.coh && s.copyCounts c (c.recv.headD 0) then s.l1Clean o.core (e.phys a / 128) (lineMask (a % 128) 16) else s

/-- Every source unit of a copy as bytes, keyed by 16 times the unit plus the byte (09 R257). -/
def copySnap (s : State) (o : Op) (c : Copy) : State × List (Nat × Byte) :=
  (List.range c.per).foldl (fun (b : State × List (Nat × Byte)) u =>
    let r := b.1.copyRead o c u
    let l := match r.2 with
      | .ok l => l
      | .error _ => []
    (r.1, b.2 ++ (List.range l.length).map fun i => (16 * u + i, l.getD i 0))) (s, [])

/-- A destination of a copy lies on a page table that another copy's translation was built from. -/
def copyBusy (s : State) (n : Nat) (c : Copy) (u : Nat) : Bool :=
  c.out && match tget? c.xlat (c.memAt u / 65536) with
    | some e => s.pteBusy (e.phys (c.memAt u)) 16 n
    | none => false

/-- A unit lies at a peer where an earlier copy of the group has units left (18 R480). -/
def copyAfter (s : State) (n : Nat) (o : Op) (c : Copy) (u : Nat) : Bool :=
  match tget? c.xlat (c.memAt u / 65536) with
  | some e => s.peerBusy o.gid n (e.phys (c.memAt u))
  | none => false

/-- A unit lies at a peer that no live port reaches any longer: the access raises NODE_FENCED (18 R479). -/
def unitFenced (s : State) (c : Copy) (u : Nat) : Option Cause :=
  let a := c.memAt u
  match tget? c.xlat (a / 65536) with
  | some e => if isPeer (e.phys a) then (s.checkPeer (e.phys a) a 16).filter fun x => x.code == Cause.nodeFenced else none
  | none => none

/-- Every unit of a receiver is written. -/
def recvDone (c : Copy) (k : Nat) : Bool := (c.done.filter fun u => c.recvOf u == k).length == c.per

/-- An arrival at the object of a copy in a receiving block, where it counts what `bytes` says; true if it is refused. -/
def copyArrive (s : State) (c : Copy) (bid : Nat) (bytes : Bool) : State × Bool :=
  match c.bo with
  | none => (s, false)
  | some o =>
    if (s.block? bid).isNone || s.copyCounts c bid != bytes then (s, false)
    else
      let r := s.arriveAt bid o (if bytes then 16 else 1)
      (r.1, !r.2)

end State

/-- The count arrival of a receiver whose units are all written, made once and independently of the other receivers
(08 R224, R225). -/
def State.countRecv (s : State) (c : Copy) (k : Nat) : State × Copy :=
  if c.counted.contains k || !State.recvDone c k then (s, c)
  else
    let r := s.copyArrive c (c.recv.getD k 0) false
    (r.1, { c with counted := insertNat k c.counted, refused := c.refused || r.2 })

/-- COPY_UNIT_WRITE: a copy whose peer is reached no longer ends with NODE_FENCED (18 R479); else a unit not yet written is read
and written, and arrives where its object counts bytes; for a unit that is written, its receiver's arrival is made, where that
is due. -/
def execCopyUnitWrite (op unit : Nat) (s : State) : Out :=
  match tget? s.ops op with
  | none => .next s
  | some o =>
    match o.kind with
    | .copy c =>
      if o.held || (c.cb && c.slot.isNone) || c.total ≤ unit || s.copyBusy op c unit || s.copyAfter op o c (unit % c.per) then .next s
      else if c.done.contains unit then
        let r := s.countRecv c (c.recvOf unit)
        .next { r.1 with ops := tmod r.1.ops op fun o => { o with kind := .copy r.2 } }
      else if let some x := s.unitFenced c (unit % c.per) then .next ((s.lateFault o x).endSilent op)
      else
        let p := if c.done.isEmpty && c.snap.isNone && c.selfOverlap then
            let r := s.copySnap o c
            (r.1, some r.2)
          else (s, c.snap)
        let src := unit % c.per
        let r : State × Except (Nat × Cause) (List Byte) := match p.2 with
          | some l => (p.1, .ok ((List.range 16).map fun i => tgetD 0 l (16 * src + i)))
          | none => p.1.copyRead o c src
        match r.2 with
        | .error (line, x) => .next ((r.1.retireLine line 0).lateFault o x)
        | .ok l =>
          let s := if c.overwritten unit then r.1 else r.1.copyWrite o c unit l
          let a := s.copyArrive c (c.recv.getD (c.recvOf unit) 0) true
          let c := { c with done := insertNat unit c.done, snap := p.2, refused := c.refused || a.2 }
          .next { a.1 with ops := tmod a.1.ops op fun o => { o with kind := .copy c } }
    | _ => .next s

/-! ## Ends (08 R224, R226, R233) -/

namespace State

/-- The commit or release of a `.cb` copy's slot against the descriptor as it stands: the state, whether the slot change was
refused, and whether an arrival was. -/
def copyGive (s : State) (bid : Nat) (c : Copy) : State × Bool × Bool :=
  let d := s.cbDesc bid c.soff
  let commit := !c.out
  if !d.valid (s.scratchSize bid) then (s, true, false)
  else
    match d.giveBack commit (c.slot.getD 0) with
    | none => (s, true, false)
    | some (y, n) =>
      let s := s.putCbDesc bid c.soff y
      match s.arriveMany bid (d.bo commit) n with
      | some s => (s, false, false)
      | none => (s, false, true)

end State

/-- A `.cb` copy ended: its cohort's acknowledgement is due 2 ms after, where it ran past 20 µs (17 R456). -/
def State.noteCopy (s : State) (bid : Nat) : State :=
  match s.block? bid with
  | none => s
  | some b => s.modCohort b.cohort fun c => match c.state with
    | .preempting p => if p.at_ + State.us 20 < s.now then { c with state := .preempting { p with last := s.now } } else c
    | _ => c

/-- COPY_COMPLETION: every unit is written; the count arrivals and the slot change are made, and the status written. -/
def execCopyCompletion (op : Nat) (s : State) : Out :=
  match tget? s.ops op with
  | none => .next s
  | some o =>
    match o.kind with
    | .copy c =>
      if c.done.length < c.total then .next s
      else
        let r := (List.range c.recv.length).foldl (fun (b : State × Copy) k => b.1.countRecv b.2 k) (s, c)
        let a := (r.1, r.2.refused)
        let g := if c.cb && (a.1.block? o.block).isSome then a.1.copyGive o.block c else (a.1, false, false)
        let status := if g.2.1 then 3 else if a.2 || g.2.2 then 2 else 0
        let s := g.1.endWith op status
        .next (if c.cb then (s.noteCopy o.block).grantBuffers o.block 64 else s)
    | _ => .next s

/-- COPY_DRAIN_EXPIRY: 20 µs after the pre-emption of its cohort was requested, a copy, a CPYQ or a walk that still runs is
cancelled, but for a `.cb` copy that has its slot (08 R226, R235, 10 R284). -/
def execCopyDrainExpiry (op : Nat) (s : State) : Out :=
  match tget? s.ops op with
  | none => .next s
  | some o =>
    match s.preemptedAt o with
    | none => .next s
    | some t =>
      if s.now < t + State.us 20 then .next s
      else
        match o.kind with
        | .copy c =>
          if c.cb && c.slot.isSome then .next s
          else
            let s := s.modBlock o.block fun b => { b with bufq := b.bufq.filter fun q => q.op != some op }
            .next ((s.endWith op 1).grantBuffers o.block 64)
        | .cpyq _ _ _ _ _ => .next (s.endWith op (2 ^ 32 - 1))
        | .shelf _ _ _ _ _ _ => .next (s.endWith op 1)
        | _ => .next s

/-! ## CPYQ (08 R235) -/

/-- CPYQ. -/
def execCpyq (w : VWord) (s : State) : Out :=
  runWord (.cpyq w) (fun c s =>
    match c.l0, s.who? c.gid, c.full with
    | none, _, _ => .done s []
    | _, none, _ => .left s
    | _, _, some f => .block (.flagFull f) s
    | some l, some u, none =>
      let q := (c.rd w.a l).toNat
      let n := min (c.rd w.c l).toNat 32
      let a := (c.rdw w.b l).toNat
      if a % 8 != 0 then c.trap (Cause.align (BitVec.ofNat 64 a)) s
      else
        c.withSide s u (if n = 0 then [] else [a]) (8 * n) .read false fun s xl =>
          match s.queueCheck c.core c.bid q true with
          | some x => c.trap x s
          | none =>
            if n = 0 then c.write s w.d fun _ => [0]
            else
              match s.addLocked (c.op (.cpyq q n (BitVec.ofNat 64 a) xl w.sched.h.toNat) w.d) (s.memoryLocks u [a] (8 * n) false)
                  (resultKeys w.d (c.act.map fun i => (i, [none]))) with
              | none => .block (.rlt ((s.memoryLocks u [a] (8 * n) false).map (·.cluster))) s
              | some s => .done s []) s

namespace State

/-- The address space of a block's launch. -/
def aspaceOf (s : State) (bid : Nat) : W64 := (((s.launchOfBlock bid).bind s.launch?).map Launch.aspace).getD 0

/-- The items of a CPYQ, 8 bytes each, or the cause of an uncorrectable line. -/
def cpyqItems (s : State) (o : Op) (xl : List (Nat × TlbEntry)) (hint a : Nat) : Nat → State × Except (Nat × Cause) (List (List Byte))
  | 0 => (s, .ok [])
  | n + 1 =>
    let r : State × Except (Nat × Cause) (List Byte) :=
      if windowBase ≤ a then
        (s, .ok (s.scratchRead (((s.block? o.block).bind fun b => s.cohortBlock b.cohort ((a - windowBase) / 2 ^ 18)).getD 0)
          ((a - windowBase) % 2 ^ 18) 8))
      else
        match tget? xl (a / 65536) with
        | none => (s, .ok (List.replicate 8 0))
        | some e =>
          match s.dataError ⟨o.core, o.block, 0, 0, []⟩ (.mem e) a 8 (some hint) with
          | some x => (s, .error x)
          | none => let b := s.loadBytes o.core e (fieldOf (s.aspaceOf o.block) 0 16) a 8 hint; (b.1, .ok b.2)
    match r.2 with
    | .error x => (r.1, .error x)
    | .ok l =>
      let q := r.1.cpyqItems o xl hint (a + 8) n
      (q.1, match q.2 with
        | .ok t => .ok (l :: t)
        | .error x => .error x)

end State

/-- CPYQ_COMPLETION: the items are read, and pushed in one atomic step at the queue as it stands. -/
def execCpyqCompletion (op : Nat) (s : State) : Out :=
  match tget? s.ops op with
  | none => .next s
  | some o =>
    match o.kind with
    | .cpyq q n a xl hint =>
      if o.held then .next s
      else if (s.block? o.block).isNone then .next (s.endSilent op)
      else
        let r := s.cpyqItems o xl hint a.toNat n
        match r.2 with
        | .error (line, x) => .next (((r.1.retireLine line 0).lateFault o x).endSilent op)
        | .ok items =>
          let s := r.1
          let x := s.laneQueue o.block q
          if !x.valid then .next ((s.lateFault o (Cause.misuse q)).endSilent op)
          else
            let k := min n (x.slots - x.avail)
            let offs := (List.range k).map fun i => x.at_ ((x.tail + i) % 2 ^ 32)
            match offs.findSome? fun p => s.scratchCheck o.block p 8 with
            | some e => .next ((s.lateFault o e).endSilent op)
            | none =>
              let s := (offs.zip items).foldl (fun s e => s.scratchWrite o.block e.1 e.2) s
              let s := s.scratchPut o.block (q + 12) 4 ((x.tail + k) % 2 ^ 32)
              .next (s.endWith op k)
    | _ => .next s

end Sys2Proof.Machine
end

