-- ==== Sys2Proof/Machine/Network.lean ====
section
/-! DEFINITION. The rings of a compute chiplet and the package fabric: routes, numbered flows, drop and replay,
arbitration, ageing, hubs and forwarding (14 R376 to R390; log 14). -/

namespace Sys2Proof.Machine

/-! ## Stops and routes (14 R376, R378)

A station of a compute chiplet is numbered 14 (4 slot + quadrant) + position; 504 + n stands for node n. -/

def stChip (st : Nat) : Nat := st / 56
def stQuad (st : Nat) : Nat := st / 14 % 4
def stPos (st : Nat) : Nat := st % 14
def stationAt (chip quad pos : Nat) : Nat := 14 * (4 * chip + quad) + pos

/-- The stop of a cluster (14 R376). -/
def clusterStop (k : Nat) : Nat :=
  let i := k % 24 % 6
  stationAt (clusterSlot k) (k % 24 / 6) (if i < 3 then 1 + i else 5 + i)

/-- The stop of an L2 slice of a chiplet, by its number there (14 R376). -/
def sliceStop (chip slice : Nat) : Nat :=
  let j := slice % 20 / 4
  stationAt chip (slice / 20) (if j < 3 then 5 + j else 9 + j)

/-- A stop where a unit of the chiplet sits: a cluster or L2 slices, and no bridge and no gateway (14 R376). -/
def unitStop (st : Nat) : Bool :=
  st < 504 && ((clustersOf (stChip st)).any (fun k => clusterStop k == st)
    || (List.range 80).any fun i => sliceStop (stChip st) i == st)

/-- The node of a station. -/
def nodeOf (st : Nat) : Nat := if st < 504 then stChip st else st - 504

/-- The hub a node is attached to (01 R9). The table gives node 15 none; that it sends by hub 0 is the model's choice
(DESIGN CHOICE, log 79). -/
def hubOf (node : Nat) : Nat :=
  if node ≤ 7 then node / 2
  else if node = 8 then 1
  else if node ≤ 12 then node - 9
  else if node = 13 then 0
  else if node = 14 then 2
  else 0

/-- A bridge or a gateway, which holds 16 packets of a class; a stop holds 8 (14 R382). -/
def entriesAt (st : Nat) : Nat := if stPos st = 0 || stPos st = 4 || stPos st = 11 then 16 else 8

/-- The other side of a bridge (14 R376). -/
def bridgeTwin (st : Nat) : Option Nat :=
  if stPos st = 4 then some (stationAt (stChip st) ((stQuad st + 1) % 4) 11)
  else if stPos st = 11 then some (stationAt (stChip st) ((stQuad st + 3) % 4) 4)
  else none

/-- The ring of a segment: twice the pair, and 1 for anticlockwise (14 R378). -/
def ringOf (src dst : Nat) : Nat :=
  (if (stPos src ^^^ stPos dst) % 2 = 0 then 0 else 2) + (if (stPos dst + 14 - stPos src) % 14 ≤ 7 then 0 else 1)

/-- The stops a packet passes on a segment. -/
def segLength (src dst : Nat) : Nat :=
  let d := (stPos dst + 14 - stPos src) % 14
  if d ≤ 7 then d else 14 - d

namespace State

/-- The cycle of the rings (log 14). -/
def cyc (s : State) : Nat := s.now / 34

def station (s : State) (st : Nat) : Station := tgetD Station.idle s.stations st
def setStation (s : State) (st : Nat) (x : Station) : State := { s with stations := tset Station.idle s.stations st x }
def modStation (s : State) (st : Nat) (f : Station → Station) : State := s.setStation st (f (s.station st))

/-- The chiplet slot of a packet's destination, by CHIPMAP where it names a logical chiplet (14 R388). -/
def destSlot (s : State) (p : Packet) : Option Nat :=
  if 504 ≤ p.dst then none
  else if p.logical then s.slotOf (stChip p.dst) else some (stChip p.dst)

/-- The end of the next segment of a packet at a station, or none where the station is its destination (14 R378). -/
def segEnd (s : State) (here : Nat) (p : Packet) : Option Nat :=
  let c := stChip here
  let q := stQuad here
  if s.destSlot p == some c then
    let q' := stQuad p.dst
    let e := if q' = q then stationAt c q (stPos p.dst)
      else if q' = (q + 3) % 4 then stationAt c q 11
      else stationAt c q 4
    if e = here then none else some e
  else
    let e := stationAt c q 0
    if e = here then none else some e

/-- A packet is on its way out of its chiplet at a gateway. -/
def leaves (s : State) (here : Nat) (p : Packet) : Bool := stPos here = 0 && s.destSlot p != some (stChip here)

/-- A packet joins the queue of a station for its next segment, ready now, its age starting (14 R384, R385). -/
def enqueue (s : State) (here : Nat) (entry : Option Nat) (p : Packet) : State :=
  match s.segEnd here p with
  | some e => s.modStation here fun x =>
      { x with queue := x.queue ++ [⟨ringOf here e, e, entry, { p with ready := s.cyc, promoted := false }⟩] }
  | none => s

/-! ## Entries (14 R382) -/

/-- The entries of a class taken at a destination. -/
def taken (s : State) (st cls : Nat) : List Nat :=
  ((s.station st).accepted.filter fun e => e.2.cls == cls).map (·.1)
    ++ s.fabric.filterMap fun e => match e.2.gate with
      | some (g, n) => if g = st && e.2.pkt.cls = cls then some n else none
      | none => none

/-- Of the entries of a class, one that a packet may take; entry 0 is reserved for promoted packets. -/
def freeEntry (entries : Nat) (taken : List Nat) (promoted : Bool) : Option Nat :=
  (((List.range entries).drop 1).find? fun n => !taken.contains n).orElse fun _ =>
    if promoted && !taken.contains 0 then some 0 else none

/-- Space(class, promoted) at the end of a segment: the entry that a packet takes. -/
def space (s : State) (st cls : Nat) (promoted : Bool) : Option Nat :=
  freeEntry (entriesAt st) (s.taken st cls) promoted

/-- The same in the direction from the fabric at a gateway, where an entry is freed when its packet is injected. -/
def gateSpace (s : State) (st cls : Nat) (promoted : Bool) : Option Nat :=
  freeEntry 16 ((s.station st).queue.filterMap fun e => if e.pkt.cls = cls then e.entry else none) promoted

/-- An accepted packet takes its entry, and may be forwarded or consumed from that cycle on, before its later flits have arrived
(DESIGN CHOICE, log 88); at a gateway that it leaves by, it waits for the fabric, and elsewhere its promotion is
over, since its age starts anew on a next segment (14 R385, log 14). -/
def accept (s : State) (st entry : Nat) (p : Packet) : State :=
  if s.leaves st p then
    { s with fabric := tput s.fabric s.fresh ⟨p, stChip st, some (st, entry), none⟩, fresh := s.fresh + 1 }
  else s.modStation st fun x => { x with accepted := x.accepted ++ [(entry, { p with promoted := false })] }

/-! ## Injection (14 R379, R383 to R386) -/

/-- A packet that a station may inject: where it waits, the end of its segment and its number if it has one. -/
inductive Source where
  | queue (i : Nat)
  | bridge (i : Nat)
  | replay (i : Nat)
  deriving DecidableEq, Repr

/-- A candidate of a class on a ring. -/
structure Candidate where
  src : Source
  dst : Nat
  pkt : Packet
  deriving DecidableEq, Repr

/-- A packet is promoted from age 128 (14 R385). -/
def aged (s : State) (p : Packet) : Bool := p.promoted || p.ready + 128 ≤ s.cyc

/-- The packets that a bridge station has to forward from its twin, in the order of acceptance (14 R380). -/
def bridged (s : State) (st : Nat) : List (Nat × Packet) :=
  match bridgeTwin st with
  | none => []
  | some t => (s.station t).accepted.filter fun e => stQuad e.2.dst != stQuad t

/-- The flow of a segment has resends to make (14 R383). -/
def resending (x : Station) (dst cls : Nat) : Bool := x.replay.any fun r => r.resend && r.dst == dst && r.pkt.cls == cls

/-- The ready packets of a class on a ring: of each flow to resend, the first copy that is still to be sent, then the queue,
then what a bridge has to forward, each in order; an unsent packet waits for the resends of its flow (14 R380, R383). -/
def readyOf (s : State) (st ring cls : Nat) : List Candidate :=
  let x := s.station st
  let now := s.cyc
  let far := s.bridged st
  ((List.range x.replay.length).filterMap fun i => x.replay[i]?.bind fun r =>
      if r.resend && r.ring == ring && r.pkt.cls == cls && decide (r.freeAt ≤ now)
          && !resending { x with replay := x.replay.take i } r.dst cls then some ⟨.replay i, r.dst, r.pkt⟩ else none)
    ++ ((List.range x.queue.length).filterMap fun i => x.queue[i]?.bind fun e =>
      if e.ring = ring && e.pkt.cls = cls && e.pkt.ready ≤ now && !resending x e.dst cls then some ⟨.queue i, e.dst, e.pkt⟩
      else none)
    ++ (List.range far.length).filterMap fun i => far[i]?.bind fun p => (s.segEnd st p.2).bind fun e =>
      if ringOf st e = ring && p.2.cls = cls && p.2.ready ≤ now && !resending x e cls then some ⟨.bridge i, e, p.2⟩ else none

/-- The ready packets of a station on a ring, class by class; none while its replay buffer for the ring is full (14 R383,
R384). -/
def candidates (s : State) (st ring : Nat) : List Candidate :=
  if 32 ≤ ((s.station st).replay.filter fun r => r.ring == ring).length then []
  else ((List.range 4).map fun cls => s.readyOf st ring cls).flatten

/-- The slot of a ring that passes a position at a cycle. -/
def slotId (ring pos cycle : Nat) : Nat :=
  if ring % 2 = 0 then (pos + 14 - cycle % 14) % 14 else (pos + cycle) % 14

/-- The flit or beat sent at a cycle on a segment stands at a cycle in the slot that then passes a station of its ring. -/
def inSlot (ring src dst sent here now : Nat) : Bool :=
  src / 14 == here / 14 && slotId ring (stPos src) sent == slotId ring (stPos here) now && decide (sent ≤ now)
    && decide (now ≤ sent + segLength src dst)

/-- The slot of a ring that arrives at a station is empty (14 R379). -/
def slotEmpty (s : State) (st ring : Nat) : Bool :=
  s.flights.all fun e => e.2.ring != ring || e.2.sent.all fun c => !inSlot ring e.2.src e.2.dst c st s.cyc

/-- The slot of a ring's side ring, which runs the other way, is empty where it passes a station (14 R376, R381). -/
def sideEmpty (s : State) (st ring : Nat) : Bool :=
  s.nacks.all fun e => e.2.ring != ring || match e.2.sent with
    | some c => !inSlot (ring + 1) e.2.by_ e.2.target c st s.cyc
    | none => true

/-- The packet of which a station has injected the header on a ring and not yet every flit (14 R379). -/
def inProgress (s : State) (st ring : Nat) : Option (Nat × Flight) :=
  s.flights.find? fun e => e.2.src == st && e.2.ring == ring && decide (e.2.sent.length < e.2.pkt.flits)

/-- The class weights (14 R386). -/
def weights (s : State) : List Nat := [0, 1, 2, 3].map fun c => fieldOf s.netWrr (4 * c) 4

/-- Of packets, the one that became ready first, and of equals the first listed. A resent packet counts from the cycle in which
it first became ready at the station, as its age does (DESIGN CHOICE, log 88). -/
def firstReady (l : List Candidate) : Option Candidate :=
  l.foldl (fun (b : Option Candidate) e => match b with
    | none => some e
    | some y => if e.pkt.ready < y.pkt.ready then some e else some y) none

/-- The packet chosen among the ready ones, with the credits after it and the class served last (14 R384). A promoted packet
leaves the class served last as it was (DESIGN CHOICE, log 88). -/
def arbitrate (s : State) (x : Station) (cands : List Candidate) : Option (Candidate × List Nat × Nat) :=
  match firstReady (cands.filter fun e => s.aged e.pkt) with
  | some e => some (e, x.credit, x.served)
  | none =>
    let credit := if cands.any fun e => 0 < x.credit.getD e.pkt.cls 0 then x.credit else s.weights
    let order := (List.range 4).map fun i => (x.served + 1 + i) % 4
    order.findSome? fun c =>
      if 0 < credit.getD c 0 then (cands.find? fun e => e.pkt.cls == c).map fun e => (e, credit.modify c (· - 1), c) else none

/-- The header of a packet chosen is injected: the packet is numbered and copied into the replay buffer (14 R381, R383). -/
def inject (s : State) (st ring : Nat) (c : Candidate) : State :=
  let x := s.station st
  let now := s.cyc
  let pkt := { c.pkt with promoted := s.aged c.pkt }
  let key := 4 * c.dst + pkt.cls
  let fly (s : State) (seq : Nat) : State :=
    { s with flights := tput s.flights s.fresh ⟨pkt, st, c.dst, ring, seq, [now], false⟩, fresh := s.fresh + 1 }
  let seq := tgetD 0 x.next key
  let y : Station := { x with next := tset 0 x.next key ((seq + 1) % 256)
                              replay := x.replay ++ [⟨pkt, c.dst, ring, seq, now + 32, false⟩] }
  match c.src with
  | .replay i =>
    match x.replay[i]? with
    | none => s
    | some r =>
      fly (s.setStation st { x with replay := x.replay.set i { r with pkt := pkt, freeAt := now + 32, resend := false } }) r.seq
  | .queue i => fly (s.setStation st { y with queue := x.queue.eraseIdx i }) seq
  | .bridge i =>
    let s' := s.setStation st y
    match bridgeTwin st, (s.bridged st)[i]? with
    | some t, some e => fly (s'.modStation t fun z => { z with accepted := z.accepted.erase e }) seq
    | _, _ => fly s' seq

/-- The next flit of a packet is injected; its copy's time to live counts from it, unless a NACK has marked the copy for a resend
(14 R379, R383). -/
def sendFlit (s : State) (n : Nat) (f : Flight) : State :=
  let now := s.cyc
  ({ s with flights := tput s.flights n { f with sent := f.sent ++ [now] } }).modStation f.src fun x =>
    { x with replay := x.replay.map fun (r : Replay) =>
        if r.dst = f.dst && r.pkt.cls = f.pkt.cls && r.seq = f.seq && !r.resend then { r with freeAt := now + 32 } else r }

/-- Every chiplet of a station's packets is powered. -/
def ringOn (s : State) (st : Nat) : Bool := st < 504 && (s.chiplet (stChip st)).power == .active

end State

/-- RING_INJECTION: into a slot that arrives empty, the next flit of the packet in progress, or else the header of the packet
that the arbitration chooses (14 R379, R384). The flits of a packet in progress go on while the replay buffer is full
(DESIGN CHOICE, log 88). -/
def execRingInjection (station ring : Nat) (s : State) : Out :=
  if !s.ringOn station || !s.slotEmpty station ring then .next s
  else
    match s.inProgress station ring with
    | some (n, f) => .next (s.sendFlit n f)
    | none =>
      let x := s.station station
      match s.arbitrate x (s.candidates station ring) with
      | none => .next s
      | some (k, credit, served) =>
        .next ((s.setStation station { x with credit := credit, served := served }).inject station ring k)

namespace Flight

/-- The cycle in which the header arrives, and whether every flit has left the ring. -/
def arrive (f : Flight) : Nat := f.sent.headD 0 + segLength f.src f.dst
def gone (f : Flight) (now : Nat) : Bool :=
  f.judged && f.sent.length == f.pkt.flits && decide (f.sent.getLastD 0 + segLength f.src f.dst < now)

end Flight

/-- PACKET_ARRIVAL: a header is accepted in sequence where there is space, or its packet is dropped with a NACK; headers are
taken at a destination in the order in which they arrive (14 R381). -/
def execPacketArrival (flight : Nat) (s : State) : Out :=
  match tget? s.flights flight with
  | none => .next s
  | some f =>
    let now := s.cyc
    if now < f.arrive || f.judged || s.flights.any fun e => e.2.dst == f.dst && !e.2.judged && decide (e.2.arrive < f.arrive) then
      .next s
    else
      let s := { s with flights := (tput s.flights flight { f with judged := true }).filter fun e => !e.2.gone now }
      let key := 2 * (4 * f.src + f.pkt.cls) + f.ring / 2
      let e := tgetD 0 (s.station f.dst).expect key
      match if f.seq = e then s.space f.dst f.pkt.cls f.pkt.promoted else none with
      | some n =>
        let s := s.modStation f.dst fun x => { x with expect := tset 0 x.expect key ((e + 1) % 256) }
        .next (s.accept f.dst n { f.pkt with ready := now })
      | none =>
        let k : Nack := ⟨f.src, f.dst, f.pkt.cls, f.ring, f.seq, e, now + 1, none⟩
        .next { s with nacks := tput s.nacks s.fresh k, fresh := s.fresh + 1 }

/-- NACK_ARRIVAL: a NACK enters the side ring behind the beats that pass and those of its stop before it, and at its source
the flow is resent from the packet expected (14 R381, R383). -/
def execNackArrival (nack : Nat) (s : State) : Out :=
  match tget? s.nacks nack with
  | none => .next s
  | some k =>
    let now := s.cyc
    match k.sent with
    | none =>
      let first := s.nacks.all fun e => nack ≤ e.1 || e.2.by_ != k.by_ || e.2.ring != k.ring || e.2.sent.isSome
      if k.ready ≤ now && first && s.sideEmpty k.by_ k.ring then
        .next { s with nacks := tput s.nacks nack { k with sent := some now } }
      else .next s
    | some c =>
      if now < c + segLength k.target k.by_ then .next s
      else
        let s := { s with nacks := tdel s.nacks nack }
        if k.dropped != k.expected then .next s
        else
          let mine (r : Replay) : Bool := r.dst == k.by_ && r.pkt.cls == k.cls
          .next (s.modStation k.target fun x =>
            let i := x.replay.findIdx fun r => mine r && r.seq == k.expected
            { x with replay := (x.replay.take i) ++ (x.replay.drop i).map fun r =>
                if mine r then { r with resend := true, freeAt := now + 1 } else r })

/-- A copy may still be asked for: its packet has flits to inject or a header not yet judged, or a NACK of its flow is on its
way (14 R383). -/
def State.awaited (s : State) (st : Nat) (r : Replay) : Bool :=
  (s.flights.any fun e => e.2.src == st && e.2.dst == r.dst && e.2.pkt.cls == r.pkt.cls && e.2.seq == r.seq
      && (!e.2.judged || decide (e.2.sent.length < e.2.pkt.flits)))
    || s.nacks.any fun e => e.2.target == st && e.2.by_ == r.dst && e.2.cls == r.pkt.cls && e.2.dropped == e.2.expected

/-- REPLAY_ENTRY_EXPIRY (14 R383). -/
def execReplayEntryExpiry (station : Nat) (s : State) : Out :=
  let now := s.cyc
  .next (s.modStation station fun x =>
    { x with replay := x.replay.filter fun r => r.resend || decide (now < r.freeAt) || s.awaited station r })

/-- PACKET_PROMOTION (14 R385). -/
def execPacketPromotion (station : Nat) (s : State) : Out :=
  let up (p : Packet) : Packet := { p with promoted := s.aged p }
  let s1 := s.modStation station fun x =>
    { x with queue := x.queue.map fun e => { e with pkt := up e.pkt }, replay := x.replay.map fun r => { r with pkt := up r.pkt } }
  match bridgeTwin station with
  | none => .next s1
  | some t =>
    let far := s.bridged station
    .next (s1.modStation t fun x => { x with accepted := x.accepted.map fun e => if far.contains e then (e.1, up e.2) else e })

/-! ## The fabric (14 R387 to R390) -/

namespace State

/-- A node takes no packets: a compute slot that is not active. -/
def nodeShut (s : State) (node : Nat) : Bool := node ≤ 8 && (s.chiplet node).power != .active

/-- The answer of a hub for a node it may not reach (14 R389). A logical chiplet that is absent has no node: the answer names node
15, as CHIPMAP does (DESIGN CHOICE, log 88). -/
def fencedReply (p : Packet) : Packet :=
  { p with
    cls := 1, src := if p.logical then 504 + 15 else p.dst, dst := p.src, logical := false, flits := 1, promoted := false
    fenced := true, task := none }

/-- A packet of the same flow that stands before this one at the same place (14 R380). -/
def behind (s : State) (n : Nat) (f : FabricPacket) : Bool :=
  s.fabric.any fun e => e.1 < n && e.2.at_ == f.at_ && e.2.pkt.src == f.pkt.src && e.2.pkt.dst == f.pkt.dst
    && e.2.pkt.cls == f.pkt.cls

/-- The credits of a class that are taken on a link: each packet that crossed it and has not gone on holds one, into a compute
chiplet until its gateway has injected it (14 R387). -/
def creditsTaken (s : State) (src dst cls : Nat) : Nat :=
  (s.fabric.countP fun e => e.2.link == some (src, dst) && e.2.pkt.cls == cls)
    + if 16 ≤ src && dst ≤ 8 then
        ((List.range 4).map fun q => (s.station (stationAt dst q 0)).queue.countP fun e => e.entry.isSome && e.pkt.cls == cls).sum
      else 0

/-- A link has a credit of a class (14 R387). -/
def hasCredit (s : State) (src dst cls : Nat) : Bool :=
  decide (s.creditsTaken src dst cls < Config.fabricCredits src dst cls + 1)

/-- A packet crosses a link to a hub with a credit, and gives back what it held; else it waits (14 R387). -/
def cross (s : State) (n : Nat) (f : FabricPacket) (hub : Nat) : State :=
  if s.hasCredit f.at_ (16 + hub) f.pkt.cls then
    { s with fabric := tput s.fabric n ⟨f.pkt, 16 + hub, none, some (f.at_, 16 + hub)⟩ }
  else s

/-- A forwarding entry applied at a gateway of the chiplet it leaves, to a packet addressed to the task at the old core
(14 R390). -/
def redirect (s : State) (chip : Nat) (p : Packet) : Packet :=
  match p.task with
  | none => p
  | some (t, core) =>
    match (s.chiplet chip).forwards.find? fun f => f.cohort == t && f.src == core with
    | some f => { p with dst := clusterStop (clusterOf f.dst), logical := false, task := some (t, f.dst) }
    | none => p

/-- A packet leaves the fabric into a node with a credit of the link; into a compute chiplet by the gateway of its quadrant, where
that has space; one that a forwarding entry sends to another chiplet goes out again, and holds the credit until it does (14 R382,
R387, R390). -/
def arriveNode (s : State) (n : Nat) (f : FabricPacket) (node : Nat) : State :=
  if !s.hasCredit f.at_ node f.pkt.cls then s
  else if 9 ≤ node then { s with fabric := tdel s.fabric n }
  else
    let p := s.redirect node f.pkt
    if nodeOf p.dst != node then { s with fabric := tput s.fabric n ⟨p, node, none, some (f.at_, node)⟩ }
    else
      let g := stationAt node (stQuad p.dst) 0
      match s.gateSpace g p.cls p.promoted with
      | none => s
      | some k => ({ s with fabric := tdel s.fabric n }).enqueue g (some k) p

end State

/-- FABRIC_PACKET_ARRIVAL: a packet goes on from a node to its hub, from hub to hub, or into its node; a fenced node's hub
answers what is addressed to the node, and discards what comes from it (14 R387 to R389). -/
def execFabricPacketArrival (flight : Nat) (s : State) : Out :=
  match tget? s.fabric flight with
  | none => .next s
  | some f =>
    if s.behind flight f then .next s
    else if f.at_ < 16 then
      if s.nodeShut f.at_ then .next { s with fabric := tdel s.fabric flight }
      else
        -- The hub maps a logical number to its slot (14 R388).
        let p := match f.pkt.logical, s.destSlot f.pkt with
          | true, some c => { f.pkt with dst := stationAt c (stQuad f.pkt.dst) (stPos f.pkt.dst), logical := false }
          | true, none => State.fencedReply f.pkt
          | false, _ => f.pkt
        .next (s.cross flight { f with pkt := p } (hubOf f.at_))
    else
      let node := nodeOf f.pkt.dst
      let from_ := nodeOf f.pkt.src
      let h := f.at_ - 16
      if s.nodeShut from_ && !f.pkt.fenced && hubOf from_ = h then .next { s with fabric := tdel s.fabric flight }
      else if hubOf node != h then .next (s.cross flight f (hubOf node))
      else if s.nodeShut node then
        if f.pkt.fenced then .next { s with fabric := tdel s.fabric flight }
        else .next { s with fabric := tput s.fabric flight ⟨State.fencedReply f.pkt, f.at_, none, f.link⟩ }
      else .next (s.arriveNode flight f node)

/-- FORWARDING_ENTRY_EXPIRY: entries 1 ms old go (14 R390). -/
def execForwardingEntryExpiry (slot : Nat) (s : State) : Out :=
  .next (s.modChiplet slot fun c => { c with forwards := c.forwards.filter fun f => decide (s.now < f.at_ + State.ms 1) })

namespace State

/-- The sizes in flits of the packets of a class (14 R377). -/
def flitsOf (cls flits : Nat) : Bool :=
  match cls with
  | 0 | 3 => 1 ≤ flits && flits ≤ 3
  | 1 => flits == 1 || flits == 3
  | 2 => flits == 1
  | _ => false

/-- A place that packets come from and go to: a stop of units, or a node that is no compute chiplet. -/
def endOk (st : Nat) : Bool := unitStop st || (504 + 9 ≤ st && st ≤ 504 + 15)

/-- A unit hands a packet to its station, or to its hub where its node is no compute chiplet (14 R377). -/
def offerPacket (s : State) (st : Nat) (p : Packet) : State :=
  if !flitsOf p.cls p.flits || !endOk st || !endOk p.dst || st = p.dst then s
  else if st < 504 then if s.ringOn st then s.enqueue st none { p with src := st, fenced := false } else s
  else
    { s with fabric := tput s.fabric s.fresh ⟨{ p with src := st, fenced := false, promoted := false }, st - 504, none, none⟩
             fresh := s.fresh + 1 }

/-- A thread's access is answered with NODE_FENCED: its operation ends, and its group takes the trap, which is not terminal;
an acquire whose promotion request is answered so goes on without it (11 R307, 14 R389, 17 R447). -/
def fencedAccess (s : State) (p : Packet) (n : Nat) : State :=
  match tget? s.ops n with
  | none => s
  | some o =>
    if p.promotion then s
    else (s.lateFault o ⟨Cause.nodeFenced, BitVec.ofNat 64 (nodeOf p.src % 16), p.addr⟩).endSilent n

/-- A stop's unit consumes the oldest accepted packet of a class that has reached its destination (14 R382). -/
def consumePacket (s : State) (st cls : Nat) : State :=
  match (s.station st).accepted.find? fun e => e.2.cls == cls && s.destSlot e.2 == some (stChip st) && e.2.dst % 56 == st % 56 with
  | none => s
  | some e =>
    let s := s.modStation st fun x => { x with accepted := x.accepted.erase e }
    match e.2.fenced, e.2.op with
    | true, some n => s.fencedAccess e.2 n
    | _, _ => s

/-- Everything of the network inside a chiplet is lost with it (14 R389). -/
def clearRings (s : State) (chip : Nat) : State :=
  { s with
    stations := s.stations.filter fun e => stChip e.1 != chip
    flights := s.flights.filter fun e => stChip e.2.src != chip
    nacks := s.nacks.filter fun e => stChip e.2.target != chip
    fabric := s.fabric.filter fun e => e.2.at_ != chip }

end State

end Sys2Proof.Machine
end

