-- ==== Sys2Proof/Machine/Manager.lean ====
section
/-! DEFINITION. The host port and the management controller: BAR0, mailbox commands 16 to 20, fencing and the spare,
scale-up ports and peers, fatal errors, and the package reset (01 R10, R18, R20, 13 R356, 14 R389, 18 R468 to R479). -/

namespace Sys2Proof

/-- The fields of a configuration image, whose layout no rule gives (18 R472, log 13). -/
opaque Config.imageFields (bytes : List Byte) : Machine.Image

namespace Machine

/-! ## Mailbox commands 16 to 20 (18 R470 to R473) -/

/-- The feature vector offered: bits 0 to 6 (18 R471). -/
def featOffer : BitVec 128 := 0x7F

/-- NEGOTIATE_FEATURES, command 16. -/
def execNegotiateFeatures (s : State) : Out :=
  .next (s.takeMail (· == 16) fun m s =>
    let want : BitVec 128 := BitVec.ofNat 128 ((m.word 4).toNat + 2 ^ 64 * (m.word 5).toNat)
    let got := featOffer &&& want
    if s.negotiated then (s, some 2)
    else if !got.getLsbD 0 then (s, some 1)
    else (({ s with negotiated := true, features := got } : State).mailResult m.addr got, some 0))

/-- A queue context breaks 16 R424 as command 17 tests it (18 R470). -/
def contextBad (w : Nat → W64) : Bool :=
  let lg := fieldOf (w 1) 0 5
  let el := fieldOf (w 6) 0 16
  lg < 4 || 16 < lg || (w 5 != 0 && (el < 4 || 16 < el)) || (w 0).toNat % 256 != 0 || (w 5).toNat % 32 != 0
    || !onlyFields (w 1) [(0, 5), (8, 4)] || !onlyFields (w 2) [(0, 52)] || !onlyFields (w 6) [(0, 32)]
    || !onlyFields (w 7) [(0, 16)]

/-- LOAD_QUEUE_CONTEXT, command 17. -/
def execLoadQueueContext (s : State) : Out :=
  .next (s.takeMail (· == 17) fun m s =>
    let q := 16 * m.arg + m.set
    let x := s.queue q
    if !s.negotiated then (s, some 2)
    else if 2047 < q then (s, some 3)
    else if x.enable && x.state = 1 then (s, some 2)
    else
      let r := s.physWords (s.qtab.toNat + 64 * q) 8
      let w (n : Nat) : W64 := r.2.getD n 0
      if contextBad w then (r.1, some 3)
      else
        (r.1.putQueue q { ring := w 0, enable := (w 1).getLsbD 11, maxClass := fieldOf (w 1) 8 3
                          log2Slots := fieldOf (w 1) 0 5, aspace := w 2, rptr := 0, wptr := 0, evq := w 5
                          msi := fieldOf (w 6) 16 16, evqLog2 := fieldOf (w 6) 0 16, err := 0, state := 0, count := 0
                          held := none }, some 0))

/-- UPDATE_CONFIGURATION_IMAGE, command 18: the new image takes the place of the copy that is not in use (18 R473). -/
def execUpdateConfigurationImage (s : State) : Out :=
  .next (s.takeMail (· == 18) fun m s =>
    let s := s.cleanPhys m.bytes Config.imageLength
    let bytes := (List.range Config.imageLength).map fun i => s.homeByte (m.bytes + i)
    let x := { Config.imageFields bytes with valid := true }
    if !Config.signatureOk bytes || (s.imageUsed.valid && x.seq ≤ s.imageUsed.seq) then (s, some 7)
    else (if s.usesB then { s with imageA := x } else { s with imageB := x }, some 0))

/-- SET_ERROR_RING, command 20. -/
def execSetErrorRing (s : State) : Out :=
  .next (s.takeMail (· == 20) fun m s =>
    if m.arg < 4 || 16 < m.arg || m.bytes % 32 != 0 then (s, some 3)
    else ({ s with errRing := some ⟨m.bytes, m.arg, 0⟩ }, some 0))

/-! ## Fencing and the spare (14 R389, 18 R474 to R476) -/

namespace State

/-- A cohort is lost: its groups, blocks and operations go, and it is placed again or its launch ends (18 R475). Memory, the
cells of atomics and the launch's event counts are left as they are (18 R476). -/
def loseCohort (s : State) (cid : Nat) : State :=
  match s.cohort? cid with
  | none => s
  | some c =>
    match s.launch? c.launch with
    | none => s.removeCohort cid []
    | some l =>
      let s := s.removeCohort cid []
      if l.killed then s.endLaunch c.launch 9 0
      else if l.rerun then
        s.modLaunch c.launch fun x =>
          { x with again := if x.status.isSome then [] else insertNat c.number x.again, stage := .placing }
      else s.endLaunch c.launch 7 0

/-- What a chiplet holds is lost with it, also the operations that blocks of ended launches still had there. Only bytes that
are dirty in its caches alone are lost: memory, the LLCs and the caches of other chiplets stay as they are (14 R389,
18 R476). -/
def clearChiplet (s : State) (slot : Nat) : State :=
  let s := (s.ops.filter fun e => coreSlot e.2.core == slot && !s.isSaved e.2.block).foldl
    (fun (s : State) e => s.dropOp e.1) s
  { s with
    cores := s.cores.filter fun e => coreSlot e.1 != slot
    clusters := s.clusters.filter fun e => clusterSlot e.1 != slot
    walks := s.walks.filter fun e => e.2.chip != slot }

/-- An active chiplet is isolated, "chiplet fenced" is committed, the log and a record are written, and the cohorts on it
are lost (14 R389, 18 R473 to R476, R478). -/
def fence (s : State) (slot : Nat) : State :=
  if (s.chiplet slot).power != .active then s
  else
    let logical := (s.logicalOf slot).getD 15
    let s := s.setChiplet slot { power := .fenced, lost := some (logical, s.now), tlb := [], l2 := [], forwards := [] }
    let s := s.commit [(1, s.slotWord), (2, s.chipmapWith logical 15)]
    let s := { s with logSlots := insertNat slot s.logSlots }.postError 3 0 slot logical 0 0
    let on := s.cohorts.filter fun e => e.2.chip == slot && match e.2.state with
      | .saved _ _ => false
      | _ => true
    ((on.foldl (fun (s : State) (e : Nat × Cohort) => s.loseCohort e.1) s).clearChiplet slot).enterPlacement

end State

/-- FENCE_CHIPLET_FOR_SERVICE, command 19. -/
def execFenceChipletForService (s : State) : Out :=
  .next (s.takeMail (· == 19) fun m s =>
    match (s.slotOf m.arg).filter fun x => (s.chiplet x).power == .active with
    | none => (s, some 8)
    | some slot => (s.fence slot, some 0))

/-- A core has a ready group. -/
def State.coreReady (s : State) (core : Nat) : Bool :=
  s.groups.any fun e => ((s.block? e.2.block).map Block.core) == some core && ready s e.1

/-- CORE_WATCHDOG_EXPIRY: 100 ms without an issue while groups were ready (18 R474). -/
def execCoreWatchdogExpiry (core : Nat) (s : State) : Out :=
  if s.coreReady core && State.ms 100 ≤ (s.core core).unissued then .next (s.fence (coreSlot core)) else .next s

/-- CHIPLET_FENCE: a contained error of a compute chiplet (18 R474). -/
def execChipletFence (slot : Nat) (s : State) : Out := .next (s.fence slot)

/-- CHIPLET_POWER_OFF: the packets to and from the fenced chiplet that its hub holds are answered or discarded; the answers
go on (14 R389, 18 R474). -/
def execChipletPowerOff (slot : Nat) (s : State) : Out :=
  if (s.chiplet slot).power != .fenced then .next s
  else
    let s := s.clearRings slot
    let here (f : FabricPacket) : Bool := f.at_ == 16 + hubOf slot && !f.pkt.fenced
    let left := s.fabric.filter fun e => !here e.2 || nodeOf e.2.pkt.src != slot
    let answer (f : FabricPacket) : FabricPacket :=
      if here f && nodeOf f.pkt.dst = slot && !f.pkt.logical then ⟨State.fencedReply f.pkt, f.at_, none, f.link⟩ else f
    let s : State := { s with fabric := left.map fun (e : Nat × FabricPacket) => (e.1, answer e.2) }
    .next (s.modChiplet slot fun c => { c with power := .off })

/-- SPARE_MAP_IN: a spare takes over the logical number of a fenced chiplet that is powered off, and "spare mapped in" is
committed (01 R11, 18 R474, R478). -/
def execSpareMapIn (slot logical : Nat) (s : State) : Out :=
  match (List.range 9).find? fun p => ((s.chiplet p).lost.map fun x => x.1) == some logical with
  | none => .next s
  | some p =>
    if (s.chiplet slot).power != .spare || (s.chiplet p).power != .off || 8 ≤ logical then .next s
    else
      let s := s.modChiplet p fun c => { c with lost := none }
      let s := s.setChiplet slot { power := .active, lost := none, tlb := [], l2 := [], forwards := [] }
      let s := (List.range 96).foldl (fun (s : State) i =>
        s.setCore (96 * slot + i) { Core.idle with lastSwap := s.now }) s
      let s := (clustersOf slot).foldl (fun (s : State) k =>
        s.setCluster k { Cluster.idle with balanceAt := s.now, evalAt := s.now }) s
      let s := s.commit [(1, s.slotWord), (2, s.chipmapWith logical slot)]
      .next (s.postError 4 0 slot logical 0 0)

/-! ## BAR0 (18 R469) -/

/-- REGISTER_WRITE: the registers the host can write; a write to any other offset changes nothing. -/
def execRegisterWrite (offset : Nat) (v : W64) (s : State) : Out :=
  if offset = 0x2000 then .next (if v.toNat % 64 = 0 then { s with mbAddr := v } else s)
  else if offset = 0x2008 then .next (if v.getLsbD 0 then { s with mailbox := s.mailbox ++ [s.mbAddr] } else s)
  else if offset % 8 = 0 && 0x100000 ≤ offset && offset < 0x104000 then .next (s.doorbell ((offset - 0x100000) / 8) v)
  else if offset % 8 = 0 && 0x104000 ≤ offset && offset < 0x108000 then .next (s.qctl ((offset - 0x104000) / 8) v.toNat)
  else .next s

namespace State

/-- A read of 8 bytes of BAR0: the registers that can be read, the catalogue as its readers find it, and 0 elsewhere, the
doorbells and QCTL among it (00 R5, 18 R469). -/
def barWord (s : State) (off : Nat) : W64 :=
  if off % 8 != 0 then 0
  else if off = 0 then BitVec.ofNat 64 (Config.stepping.toNat % 2 ^ 16 * 2 ^ 48 + 2 ^ 32 + 0x54384F58)
  else if off = 0x10 then featOffer.setWidth 64
  else if off = 0x18 then (featOffer >>> 64).setWidth 64
  else if 0x1000 ≤ off && off < 0x1100 then s.shownWord ((off - 0x1000) / 8)
  else if off = 0x2000 then s.mbAddr
  else 0

/-- The host reads BAR0 (18 R468). -/
def readBar (s : State) (off : Nat) : State := { s with barReply := s.barWord off }

end State

/-! ## Scale-up ports and peers (01 R17, R20, 18 R479) -/

/-- SCALEUP_PORT_DOWN. -/
def execScaleupPortDown (port : Nat) (s : State) : Out :=
  let w := s.catWord 29
  .next (if port < 64 && w.getLsbD port then s.commit [(29, w &&& ~~~(1#64 <<< port))] else s)

/-- SCALEUP_PORT_UP. -/
def execScaleupPortUp (port : Nat) (s : State) : Out :=
  let w := s.catWord 29
  .next (if port < 64 && !w.getLsbD port then s.commit [(29, w ||| (1#64 <<< port))] else s)

/-- SCALEUP_PEER_ACCESS: an access of a peer is performed at the home of an offset of set 0, while a port is live. -/
def execScaleupPeerAccess (peer offset : Nat) (kind : PeerAccess) (size : Nat) (data : W64) (s : State) : Out :=
  if 1024 ≤ peer || s.catWord 29 = 0 || size = 0 || 8 < size || 128 < offset % 128 + size || (s.setOf offset).isNone
      || 2 ^ 40 ≤ offset then .next s
  else
    let s := if kind = .write then s else s.cleanPhys offset size
    match kind with
    | .read => .next s
    | .write => .next (s.homeWrite offset (bytesOfNat size data.toNat))
    | .atomicAdd =>
      .next (s.homeWrite offset (bytesOfNat size (natOfBytes (s.homeBytes offset size) + data.toNat)))

/-! ## Fatal errors and the package reset (01 R10, R18, 13 R356, 15 R413, R416, 18 R472, R473) -/

/-- FATAL_BOUNDARY_ERROR: an error at the boundary of a cache chiplet, an I/O chiplet or node 15 (01 R10). -/
def execFatalBoundaryError (node : Nat) (s : State) : Out :=
  .next (if 9 ≤ node && node ≤ 15 then { s with dead := true } else s)

namespace State

/-- The machine at reset with what outlives a reset: flash, host memory, peers and the model's own counter. -/
def afterReset (s : State) : State :=
  { State.reset with
    mem := s.mem.filter fun e => !isDevice e.1, imageA := s.imageA, imageB := s.imageB
    usesB := s.imageB.valid && (!s.imageA.valid || decide (s.imageA.seq < s.imageB.seq))
    logSlots := s.logSlots, logChannels := s.logChannels, selfTest := s.selfTest
    pastGen := BitVec.ofNat 64 (max s.pastGen.toNat (s.catWord 0).toNat), peers := s.peers, choice := s.choice }

/-- A set that firmware creates, where its size is a multiple of 512 MiB up to 512 GiB and it fits; its lists of channels are
ascending (13 R352, R356). -/
def bootSet (s : State) (k : Nat) (size : Option Nat) (linear visible : Bool) (mask : List Nat) : State :=
  let mask := (List.range 256).filter mask.contains
  let live := mask.filter s.liveChannels.contains
  let n := size.getD (s.largest k [] live 1024)
  if live.isEmpty || n % 2 ^ 29 != 0 || 2 ^ 39 < n || !s.fits k (n / 128) [] live then s
  else
    { s with sets := tput s.sets k { size := n, linear := linear, mask := mask, live := live, hold := 0, visible := visible
                                     creating := false } }

/-- A curve point as a register holds it: no RSV bit is set (00 R5, 15 R415). -/
def curvePoints (l : List W64) : List W64 := (List.range 8).map fun i => l.getD i 0 &&& 0x80FFFFFFFFFFFFFF

/-- Firmware's work after a reset with the valid image in use and what the self-test finds, to the end of the first
publication, which every later reader finds: of the registers, the fields marked C take the image's values (01 R17, 15 R415,
R416, log 26). An image's curve that fails the commit check is not put in use: the hardware keeps its limits whatever firmware
writes (15 R423, log 24). -/
def firmware (s : State) : State :=
  let x := s.imageUsed
  let up (p : Nat) : Bool := p < 9 && !s.logSlots.contains p && !s.selfTest.slots.contains p
  let act := (x.active.take 8).filter up
  let s := act.foldl (fun (s : State) p => s.modChiplet p fun c => { c with power := .active }) s
  let s := (x.spares.filter fun p => up p && !act.contains p).foldl (fun (s : State) p =>
    s.modChiplet p fun c => { c with power := .spare }) s
  let s := { s with liveChannels := (List.range 256).filter fun c =>
    !s.logChannels.contains c && !s.selfTest.channels.contains c }
  let s := s.bootSet 0 x.set0 false x.set0Visible s.liveChannels
  let more := sortBy (fun a b => decide (a.set ≤ b.set)) (x.sets.filter fun e => 1 ≤ e.set && e.set < 16)
  let s := more.foldl (fun (s : State) e => s.bootSet e.set (some e.size) e.linear e.visible e.mask) s
  let fs := fieldOf x.curveCtl 32 3
  let curve := curvePoints x.curve
  let s := { s with power := { s.power with curve := curve, ctl := x.curveCtl &&& 0x7FFFFFFFF } }
  let s := if curveOk curve fs then
      { s with power := { s.power with inUse := curve, useFailsafe := fs
                                       useHyst := (fieldOf x.curveCtl 16 16, fieldOf x.curveCtl 0 16) } }
    else s
  let map := (List.range 8).foldl (fun (v : W64) i =>
    setField v (4 * i) 4 (match x.active[i]? with
      | some p => if up p then p else 15
      | none => 15)) 0
  let k := s.power.useFailsafe
  let p := s.power.inUse.getD k 0
  let stk := (List.range 8).map fun k => (3 + k, s.stackWord k (if s.liveChannels.any fun c => c / 32 == k then 1 else 0))
  finishCommit <| s.commit ([(1, s.slotWord), (2, map)] ++ stk ++ s.setWords (List.range 16)
    ++ [(27, BitVec.ofNat 64 ((x.llcBytes - s.selfTest.llcBytes) % 2 ^ 40)), (28, curveWord k (Point.classes p) (Point.ceil p)),
        (29, x.ports &&& ~~~s.selfTest.ports)])

end State

/-- PACKAGE_RESET: every register takes its reset value, device memory reads 0, and firmware publishes the catalogue; with no
valid image it publishes nothing (18 R472, log 5). -/
def execPackageReset (s : State) : Out :=
  let s := s.afterReset
  .next (if s.imageUsed.valid then s.firmware else s)

end Machine

end Sys2Proof
end

