-- ==== Sys2Proof/Machine/Matrix.lean ====
section
/-! DEFINITION. The matrix engines: tiles, accumulators and their tokens, signing, the engine queue and the twins
(12 R318 to R350). -/

namespace Sys2Proof.Machine

/-! ## Tiles and accumulators (12 R324 to R326) -/

/-- The fields of a tile configuration. -/
def cfgValid (v : W32) : Bool := v.getLsbD 31
def cfgFmt (v : W32) : Nat := v.toNat / 2 ^ 16 % 32
def cfgRows (v : W32) : Nat := v.toNat / 2 ^ 8 % 64 + 1
def cfgK (v : W32) : Nat := v.toNat % 256 + 1

/-- The most elements of a row of a format, or exactly that many for a block format (12 R326). -/
def kLimit (fmt : Nat) : Nat :=
  match fmt with
  | 0x10 => 32
  | 0x11 | 0x12 => 64
  | 0x18 => 256
  | _ => 128

/-- Formats of tiles: floating, and block mantissas. -/
def isTileFlt (fmt : Nat) : Bool := fmt == 0x10 || fmt == 0x11 || fmt == 0x12 || fmt == 0x16 || fmt == 0x17 || fmt == 0x18
def isTileBfp (fmt : Nat) : Bool := 0x19 ≤ fmt && fmt ≤ 0x1F

/-- A configuration value is accepted (12 R342). -/
def cfgOk (v : W32) : Bool :=
  v.toNat / 2 ^ 21 % 1024 == 0 && v.toNat / 2 ^ 14 % 4 == 0
    && ((isTileFlt (cfgFmt v) && cfgK v ≤ kLimit (cfgFmt v)) || (isTileBfp (cfgFmt v) && cfgK v == 128))

/-- Bytes of `n` elements of a format packed as a row (12 R326, 03 R74). -/
def packedBytes (fmt n : Nat) : Nat :=
  if isTileBfp fmt then let w := 32 / (fmt - 0x17); 4 * ((n + w - 1) / w)
  else ((fmtOf fmt).bits * n + 7) / 8

/-- RB16 of a configuration. -/
def cfgRowBytes (v : W32) : Nat := (packedBytes (cfgFmt v) (cfgK v) + 15) / 16 * 16

/-- Element `k` of packed bytes, as its code (03 R71, R74). -/
def packedElem (fmt k : Nat) (byte : Nat → Byte) : Nat :=
  let word (i : Nat) : Nat := natOfBytes ((List.range 4).map fun j => byte (4 * i + j))
  let n := if isTileBfp fmt then fmt - 0x17 else (fmtOf fmt).bits
  let per := 32 / n
  word (k / per) / 2 ^ (n * (k % per)) % 2 ^ n

namespace Block

def tileByte (b : Block) (m i : Nat) : Byte := tgetD 0 b.tiles (8192 * m + i)
def acc (b : Block) (a i n : Nat) : W32 := tgetD 0 b.accs (4096 * a + 64 * i + n)
def setAcc (b : Block) (a i n : Nat) (v : W32) : Block := { b with accs := tset 0 b.accs (4096 * a + 64 * i + n) v }
def cfg (b : Block) (m : Nat) : W32 := b.tcfg.getD m 0

/-- Element `k` of row `r` of a tile. -/
def tileElem (b : Block) (m fmt r k : Nat) : Nat := packedElem fmt k fun i => b.tileByte m (128 * r + i)

end Block

/-! ## The checks at engine issue (12 R337, R345 to R348) -/

/-- What an operation needs of the range-lock table and the configurations it uses. -/
structure EngineNeed where
  cfg : List W32
  locks : List LockWant
  deriving DecidableEq, Repr

/-- The accumulator an engine operation writes. -/
def engineAcc (i : Instr) : Option Nat :=
  match i with
  | .tzero w | .mma w | .mmas w | .mmbfp w => some w.d.toNat
  | _ => none

/-- A register operand of an operation. -/
def EngineOp.val (e : EngineOp) (k : Nat) : Nat := (e.vals.getD k 0).toNat

/-- TOKEN of an accumulator, at engine issue or not (12 R339). -/
def tokenCause (a : Nat) (engine : Bool) : Cause :=
  ⟨Cause.token, BitVec.ofNat 64 (a + if engine then 16 else 0), 0⟩

/-- The formats of two tiles of an MMA agree. -/
def pairOk (f g : Nat) : Bool :=
  isTileFlt f && isTileFlt g && (f == g || (f == 0x16 && g == 0x17) || (f == 0x17 && g == 0x16))

/-- The fields of the MMAS descriptor (12 R346). -/
def EngineOp.nnz (e : EngineOp) : Nat := e.val 3 / 65536
def EngineOp.fb (e : EngineOp) : Nat := e.val 3 / 256 % 32
def EngineOp.nB (e : EngineOp) : Nat := e.val 3 % 64 + 1

/-- The rows of a load or a store: offset, stride, and the extent from the offset. -/
def rowExtent (rows stride bytes : Nat) : Int × Int :=
  let d : Int := ((rows - 1 : Nat) : Int) * sextInt 32 stride
  (min 0 d, max 0 d + bytes)

namespace State

/-- A lock entry over bytes of the block's scratchpad; none where there are no bytes. -/
def scrLock (core bid o n : Nat) (write : Bool) : LockWant :=
  ⟨clusterOf core, if n = 0 then .none else .scr bid (o / 16) ((o + n - 1) / 16), write⟩

/-- MISALIGNED of a scratchpad offset (log 22). -/
def offAlign (s : State) (bid o n : Nat) : Option Cause :=
  if o % n = 0 then none else some ⟨Cause.misaligned, BitVec.ofNat 64 o, BitVec.ofNat 64 (s.windowAddr bid o)⟩

/-- The checks of TLOAD and TSTORE after the configuration. -/
def rowsCheck (s : State) (bid : Nat) (v : W32) (o st : Nat) (write : Bool) : Except Cause EngineNeed :=
  let core := ((s.block? bid).map Block.core).getD 0
  let x := rowExtent (cfgRows v) st (cfgRowBytes v)
  match (s.offAlign bid o 16).orElse fun _ => if st % 16 = 0 then none else some (Cause.align (BitVec.ofNat 64 st)) with
  | some c => .error c
  | none =>
    if 0 ≤ (o : Int) + x.1 && (o : Int) + x.2 ≤ s.scratchSize bid then
      let lo := ((o : Int) + x.1).toNat
      .ok ⟨[v], [scrLock core bid lo (x.2 - x.1).toNat write]⟩
    else .error (Cause.window (((s.windowAddr bid 0 : Int) + o + x.1) % (2 ^ 64 : Nat)).toNat 0)

/-- The checks of 12 R337, in order. -/
def engineCheck (s : State) (e : EngineOp) : Except Cause EngineNeed :=
  match s.block? e.block with
  | none => .error (Cause.operand 3)
  | some b =>
    let token (a : Nat) (k : Except Cause EngineNeed) : Except Cause EngineNeed :=
      if b.vectorTokens.contains a then .error (tokenCause a true) else k
    match e.instr with
    | .tload w =>
      let v := b.cfg w.d.toNat
      if !cfgValid v then .error (Cause.operand 3) else s.rowsCheck e.block v (e.val 0) (e.val 1) false
    | .tstore w =>
      let v := b.cfg w.a.reg.toNat
      if !cfgValid v then .error (Cause.operand 3) else s.rowsCheck e.block v (e.val 0) (e.val 1) true
    | .tzero w => token w.d.toNat (.ok ⟨[], []⟩)
    | .tzeroM _ => .ok ⟨[], []⟩
    | .mma w =>
      let x := b.cfg w.a.reg.toNat
      let y := b.cfg w.b.reg.toNat
      if !cfgValid x || !cfgValid y then .error (Cause.operand 3)
      else if cfgK x != cfgK y || !pairOk (cfgFmt x) (cfgFmt y) then .error (Cause.operand 4)
      else token w.d.toNat (.ok ⟨[x, y], []⟩)
    | .mmbfp w =>
      let x := b.cfg w.a.reg.toNat
      let y := b.cfg w.b.reg.toNat
      if !cfgValid x || !cfgValid y then .error (Cause.operand 3)
      else if !isTileBfp (cfgFmt x) || !isTileBfp (cfgFmt y) then .error (Cause.operand 4)
      else token w.d.toNat (.ok ⟨[x, y], []⟩)
    | .mmas w =>
      let x := b.cfg w.a.reg.toNat
      let core := b.core
      let size (k : Nat) : Nat := match k with
        | 0 => 4 * (cfgK x + 1)
        | 1 => 2 * e.nnz
        | _ => packedBytes e.fb e.nnz
      if !cfgValid x then .error (Cause.operand 3)
      else if e.val 3 / 64 % 4 != 0 || e.val 3 / 8192 % 8 != 0 || 16384 < e.nnz || !pairOk (cfgFmt x) e.fb then
        .error (Cause.operand 4)
      else token w.d.toNat
        (match ((s.offAlign e.block (e.val 0) 4).orElse fun _ => s.offAlign e.block (e.val 1) 2).orElse
            fun _ => s.offAlign e.block (e.val 2) 4 with
        | some c => .error c
        | none =>
          match [0, 1, 2].findSome? fun k => s.scratchCheck e.block (e.val k) (size k) with
          | some c => .error c
          | none => .ok ⟨[x], [0, 1, 2].map fun k => scrLock core e.block (e.val k) (size k) false⟩)
    | _ => .ok ⟨[], []⟩

/-! ## Issue at the engine (12 R327, R334 to R337, R340) -/

/-- An operation is pending on an accumulator of a block (12 R340). -/
def accPending (s : State) (bid a : Nat) : Bool :=
  match s.block? bid with
  | none => false
  | some b =>
    ((s.core b.core).engine.any fun e => e.block == bid && engineAcc e.instr == some a)
      || b.conv.any fun c => !c.signed.isEmpty && (c.record.map fun e => engineAcc e.instr) == some (some a)

/-- The waiting TOKTAKEs of a block that may complete are taken up next. -/
def wakeTokens (s : State) (bid : Nat) : State :=
  let due := s.ops.filterMap fun e => match e.2.kind with
    | .token a => if e.2.block = bid && !s.accPending bid a then some (Event.op (.toktakeCompletion e.1)) else none
    | _ => none
  { s with agenda := due ++ s.agenda }

/-- The words of an operation complete, with a cause delivered to each signer after issue (12 R335). -/
def endSigners (s : State) (ops : List Nat) (x : Option Cause) : State :=
  ops.foldl (fun s n =>
    let s := match x, tget? s.ops n with
      | some c, some o => s.lateFault o c
      | _, _ => s
    s.completeOp n) s

/-- An operation that passed its checks enters its core's queue with its entries, or none where they cannot all be taken. -/
def pushEngine (s : State) (e : EngineOp) (need : EngineNeed) : Option State :=
  (s.takeLocks s.fresh need.locks).map fun t =>
    ({ t with fresh := s.fresh + 1 }).modCore (((s.block? e.block).map Block.core).getD 0) fun c =>
      { c with engine := c.engine ++ [{ e with cfg := need.cfg, num := s.fresh }] }

/-- A round in which every member has signed is completed (12 R334, R335); none where its entries cannot be taken. -/
def finishRound (s : State) (bid k : Nat) : Option State :=
  match (s.block? bid).bind fun b => b.conv[k]? with
  | none => none
  | some c =>
    match c.record with
    | none => none
    | some e =>
      let clear (s : State) : State := s.modBlock bid fun b =>
        { b with conv := b.conv.modify k fun c => { c with signed := [], record := none } }
      let fail (x : Cause) : Option State := some (((clear s).endSigners e.ops (some x)).wakeTokens bid)
      if e.mismatch then fail ⟨Cause.matrixMismatch, BitVec.ofNat 64 k, 0⟩
      else
        match s.engineCheck e with
        | .error x => fail x
        | .ok need => (s.pushEngine e need).map clear

end State

/-- The tables in which an operation takes its entries, one for each entry. -/
def State.engineTables (s : State) (e : EngineOp) : List Nat :=
  match s.engineCheck e with
  | .ok need => need.locks.map (·.cluster)
  | .error _ => []

/-- Words with the same operands: OP, D, A, B, C and E[4], and the values read (12 R334). -/
def sameOperands (i j : Instr) (v w : List W32) : Bool :=
  let key (i : Instr) : Nat × List (BitVec 7) × Bool :=
    match i with
    | .tload w | .tstore w | .tzero w | .tzeroM w | .mma w | .mmas w | .mmbfp w =>
      (opcodeOf i, [w.d, w.a.reg, w.b.reg, w.c.reg], w.ebit 4)
    | _ => (opcodeOf i, [], false)
  key i == key j && v == w

/-- A signature is added to a convergence register (12 R334). -/
def ConvReg.sign (c : ConvReg) (slot n : Nat) (e : EngineOp) : ConvReg :=
  let rec' := match c.record with
    | none => e
    | some r =>
      if c.signed.isEmpty then e
      else { r with ops := r.ops ++ [n], mismatch := r.mismatch || !sameOperands r.instr e.instr r.vals e.vals }
  { c with signed := insertNat slot c.signed, record := some rec' }

/-- An engine word: solo, or a signature (12 R331, R334, R337). While a last signature's word stalls for range-lock entries it has
not signed (DESIGN CHOICE, log 93). -/
def Ctx.engine (c : Ctx) (s : State) (i : Instr) (w : VWord) (vals : Nat → List W32) : WordOut :=
  match c.l0, c.full with
  | none, _ => .done s []
  | some l, full =>
    let k := w.e.toNat % 8
    let n := s.fresh
    let e : EngineOp := ⟨i, c.bid, vals l, [], 0, [n], false⟩
    let opn := c.op .engine w.d
    if w.ebit 3 then
      let cv := c.o.b.conv.getD k ⟨[], [], none⟩
      if !cv.decl.contains c.o.g.slot then c.trap ⟨Cause.matrixMismatch, BitVec.ofNat 64 (k + 8), 0⟩ s
      else if cv.signed.contains c.o.g.slot then .block (.sign k) s
      else
        match full with
        | some f => .block (.flagFull f) s
        | none =>
          let x := cv.sign c.o.g.slot n e
          let t := (s.addOp opn []).modBlock c.bid fun b => { b with conv := b.conv.set k x }
          if x.signed == x.decl then
            match t.finishRound c.bid k with
            | some t => .settle t []
            | none => .block (.rlt (s.engineTables e)) s
          else .done t []
    else
      match full with
      | some f => .block (.flagFull f) s
      | none =>
        match s.engineCheck e with
        | .error x => c.trap x s
        | .ok need =>
          match (s.addOp opn []).pushEngine e need with
          | some t => .done t []
          | none => .block (.rlt (s.engineTables e)) s

/-! ## The engine words -/

/-- TLOAD. -/
def execTload (w : VWord) (s : State) : Out :=
  runWord (.tload w) (fun c s => c.engine s (.tload w) w fun l => [c.rd w.a l, c.rd w.b l]) s

/-- TSTORE. -/
def execTstore (w : VWord) (s : State) : Out :=
  runWord (.tstore w) (fun c s => c.engine s (.tstore w) w fun l => [c.rd w.b l, c.rd w.c l]) s

/-- TZERO of an accumulator. -/
def execTzero (w : VWord) (s : State) : Out :=
  runWord (.tzero w) (fun c s => c.engine s (.tzero w) w fun _ => []) s

/-- TZERO.m. -/
def execTzeroM (w : VWord) (s : State) : Out :=
  runWord (.tzeroM w) (fun c s => c.engine s (.tzeroM w) w fun _ => []) s

/-- MMA. -/
def execMma (w : VWord) (s : State) : Out :=
  runWord (.mma w) (fun c s => c.engine s (.mma w) w fun _ => []) s

/-- MMAS. -/
def execMmas (w : VWord) (s : State) : Out :=
  runWord (.mmas w) (fun c s => c.engine s (.mmas w) w fun l => (List.range 4).map fun k => c.rd w.b l k) s

/-- MMBFP. -/
def execMmbfp (w : VWord) (s : State) : Out :=
  runWord (.mmbfp w) (fun c s => c.engine s (.mmbfp w) w fun _ => []) s

/-- ENGINE_ROUND_DEFERRED_ISSUE: a round completed by a group's end issues once its entries can be taken (12 R336, R337). -/
def execEngineRoundDeferredIssue (block cv : Nat) (s : State) : Out :=
  match (s.block? block).bind fun b => b.conv[cv]? with
  | none => .next s
  | some c =>
    if c.signed.isEmpty || c.signed != c.decl then .next s
    else .next ((s.finishRound block cv).getD s)

/-! ## What the engine does (12 R343 to R348, 03 R84, R85) -/

/-- One element of a product of floats: groups of 32 terms, each rounded and then added (03 R84). -/
def mmaElem (a b : Nat → FVal) (k acc : Nat) : Nat × List FpEvent :=
  (List.range ((k + 31) / 32)).foldl (fun (x : Nat × List FpEvent) j =>
    let terms := (List.range (min 32 (k - 32 * j))).map (32 * j + ·)
    let as := terms.map a
    let bs := terms.map b
    let g := match List.zipWith FVal.mul as bs with
      | [] => FVal.zero false
      | p :: t => FVal.sum false p t
    let r := Fmt.f32.result .rne 0 (as ++ bs) g
    let c := Fmt.f32.value x.1
    let d := Fmt.f32.value r.1
    let q := Fmt.f32.result .rne 0 [c, d] (FVal.add false c d)
    (q.1, x.2 ++ (r.2 ++ q.2).map fun v => (EventFmt.f32, v))) (acc, [])

/-- A product into an accumulator: `a` and `b` give the elements of both operands by row and k. -/
def mmaInto (b : Block) (acc m n k : Nat) (ea eb : Nat → Nat → FVal) : Block × List FpEvent :=
  (List.range (m * n)).foldl (fun (x : Block × List FpEvent) p =>
    let i := p / n
    let j := p % n
    let r := mmaElem (ea i) (eb j) k (b.acc acc i j).toNat
    (x.1.setAcc acc i j (BitVec.ofNat 32 r.1), x.2 ++ r.2)) (b, [])

/-- The exact partials of MMBFP. -/
def mmbfpInto (b : Block) (w : VWord) (x y : W32) : Block :=
  let ma := cfgFmt x - 0x17
  let mb := cfgFmt y - 0x17
  (List.range (cfgRows x * cfgRows y)).foldl (fun (c : Block) p =>
    let i := p / cfgRows y
    let j := p % cfgRows y
    let sum := (List.range 128).foldl (fun (t : Int) k =>
      t + sextInt ma (b.tileElem w.a.reg.toNat (cfgFmt x) i k) * sextInt mb (b.tileElem w.b.reg.toNat (cfgFmt y) j k)) 0
    c.setAcc w.d.toNat i j (BitVec.ofInt 32 sum)) b

/-- The dense tile of MMAS by element, or none where the compressed rows are not valid (12 R347). -/
def gather (s : State) (e : EngineOp) (k : Nat) : Option (List (Nat × Nat)) :=
  let rptr (i : Nat) : Nat := (s.scratchWord e.block (e.val 0 + 4 * i)).toNat
  let col (j : Nat) : Nat := natOfBytes (s.scratchRead e.block (e.val 1 + 2 * j) 2)
  let value (j : Nat) : Nat := packedElem e.fb j fun i => s.scratchByte e.block (e.val 2 + i)
  if rptr 0 != 0 || rptr k != e.nnz || (List.range k).any (fun i => rptr (i + 1) < rptr i)
      || (List.range e.nnz).any (fun j => e.nB ≤ col j) then none
  else
    some ((List.range k).foldl (fun (t : List (Nat × Nat)) i =>
      (List.range (rptr (i + 1) - rptr i)).foldl (fun t j =>
        tput t (256 * col (rptr i + j) + i) (value (rptr i + j))) t) [])

namespace State

/-- The effect of an operation, with the cause it may end with (12 R343 to R348). -/
def engineEffect (s : State) (e : EngineOp) : State × Option Cause :=
  match s.block? e.block with
  | none => (s, none)
  | some b =>
    let lid := (s.launchOfBlock e.block).getD 0
    let x := e.cfg.getD 0 0
    let y := e.cfg.getD 1 0
    let row (r : Nat) : Nat := ((e.val 0 : Int) + (r : Int) * sextInt 32 (e.val 1)).toNat
    match e.instr with
    | .tload w =>
      (s.setBlock e.block { b with tiles := (List.range (cfgRows x)).foldl (fun t r =>
        memPutFrom t (8192 * w.d.toNat + 128 * r) (s.scratchRead e.block (row r) (cfgRowBytes x))) b.tiles }, none)
    | .tstore w =>
      ((List.range (cfgRows x)).foldl (fun s r =>
        s.scratchWrite e.block (row r) ((List.range (cfgRowBytes x)).map fun i => b.tileByte w.a.reg.toNat (128 * r + i))) s,
       none)
    | .tzero w =>
      (s.setBlock e.block { b with accs := b.accs.filter fun p => p.1 / 4096 != w.d.toNat }, none)
    | .tzeroM w =>
      (s.setBlock e.block { b with tiles := b.tiles.filter fun p => p.1 / 8192 != w.d.toNat }, none)
    | .mma w =>
      let r := mmaInto b w.d.toNat (cfgRows x) (cfgRows y) (cfgK x)
        (fun i k => (fmtOf (cfgFmt x)).value (b.tileElem w.a.reg.toNat (cfgFmt x) i k))
        (fun j k => (fmtOf (cfgFmt y)).value (b.tileElem w.b.reg.toNat (cfgFmt y) j k))
      ((s.setBlock e.block r.1).countEvents lid r.2, none)
    | .mmbfp w => (s.setBlock e.block (mmbfpInto b w x y), none)
    | .mmas w =>
      match gather s e (cfgK x) with
      | none => (s, some (Cause.operand 5))
      | some t =>
        let r := mmaInto b w.d.toNat (cfgRows x) e.nB (cfgK x)
          (fun i k => (fmtOf (cfgFmt x)).value (b.tileElem w.a.reg.toNat (cfgFmt x) i k))
          (fun j k => (fmtOf e.fb).value ((tget? t (256 * j + k)).getD 0))
        ((s.setBlock e.block r.1).countEvents lid r.2, none)
    | _ => (s, none)

end State

/-- ENGINE_OP_COMPLETION: the oldest operation of the queue is performed and its words complete. During a drain only an
operation that had begun is (12 R322, R327). -/
def execEngineOpCompletion (core : Nat) (s : State) : Out :=
  let k := s.core core
  match k.engine with
  | [] => .next s
  | e :: rest =>
    if (k.drain && !k.drainHead) || s.lockWaits e.num then .next s
    else
      let r := s.engineEffect e
      let s := (r.1.modCore core fun k => { k with engine := rest, drainHead := false }).freeLocks e.num
      .next ((s.endSigners e.ops r.2).wakeTokens e.block)

/-! ## Configuration, tokens and signing words (12 R332, R333, R339 to R342) -/

/-- TCFGW. -/
def execTcfgw (w : VWord) (s : State) : Out :=
  runWord (.tcfgw w) (fun c s =>
    match c.l0 with
    | none => .done s []
    | some l =>
      let v := c.rd w.a l
      if !cfgOk v then c.trap (Cause.operand 2) s
      else .done (s.modBlock c.bid fun b => { b with tcfg := b.tcfg.set w.d.toNat (v ||| 0x80000000) }) []) s

/-- TCFGR. -/
def execTcfgr (w : VWord) (s : State) : Out :=
  runWord (.tcfgr w) (fun c s =>
    if c.real.isEmpty then .done s [] else c.write s w.d fun _ => [c.o.b.cfg w.a.reg.toNat]) s

/-- The element index of a lane: column and row (12 R341). -/
def accIndex (c : Ctx) (w : VWord) (i : Nat) : Nat × Nat := ((c.rd w.b i).toNat % 64, (c.rd w.b i).toNat / 64 % 64)

/-- The first lane whose index breaks the alignment of `.x4`. -/
def accMisaligned (c : Ctx) (w : VWord) : Option Nat :=
  if w.ebit 5 then c.real.find? fun i => (accIndex c w i).1 % 4 != 0 else none

/-- ACCRD: a helper lane whose index is misaligned reads 0 (04 R117). -/
def execAccrd (w : VWord) (s : State) : Out :=
  runWord (.accrd w) (fun c s =>
    let a := w.a.reg.toNat
    if c.act.isEmpty then .done s []
    else if !c.o.b.vectorTokens.contains a then c.trap (tokenCause a false) s
    else
      match accMisaligned c w with
      | some i => c.trap (Cause.align ((c.rd w.b i).setWidth 64)) s
      | none =>
        let n := if w.ebit 5 then 4 else 1
        c.write s w.d fun i =>
          let x := accIndex c w i
          if n = 4 && x.1 % 4 != 0 then [0, 0, 0, 0] else (List.range n).map fun j => c.o.b.acc a x.2 (x.1 + j)) s

/-- ACCWR. -/
def execAccwr (w : VWord) (s : State) : Out :=
  runWord (.accwr w) (fun c s =>
    let a := w.d.toNat
    if c.real.isEmpty then .done s []
    else if !c.o.b.vectorTokens.contains a then c.trap (tokenCause a false) s
    else
      match accMisaligned c w with
      | some i => c.trap (Cause.align ((c.rd w.b i).setWidth 64)) s
      | none =>
        let n := if w.ebit 5 then 4 else 1
        .done (s.modBlock c.bid fun b => c.real.foldl (fun b i =>
          let x := accIndex c w i
          (List.range n).foldl (fun b j => b.setAcc a x.2 (x.1 + j) (c.rd w.a i j)) b) b) []) s

/-- TOKGIVE. -/
def execTokgive (w : VWord) (s : State) : Out :=
  runWord (.tokgive w) (fun c s =>
    if c.real.isEmpty then .done s []
    else .done (s.modBlock c.bid fun b => { b with vectorTokens := b.vectorTokens.filter (· != w.d.toNat) }) []) s

/-- TOKTAKE: it completes next where nothing is pending on the accumulator (12 R340). -/
def execToktake (w : VWord) (s : State) : Out :=
  runWord (.toktake w) (fun c s =>
    if c.real.isEmpty then .done s []
    else
      match c.full with
      | some f => .block (.flagFull f) s
      | none =>
        let a := w.d.toNat
        let n := s.fresh
        let now := c.o.b.vectorTokens.contains a || !s.accPending c.bid a
        let s := s.addOp (c.op (.token a) w.d) []
        .done (if now then { s with agenda := .op (.toktakeCompletion n) :: s.agenda } else s) []) s

/-- TOKTAKE_COMPLETION: the token is with the vector side (12 R340). A TOKTAKE of a saved block stays outstanding until
the block has been restored (12 R350). -/
def execToktakeCompletion (op : Nat) (s : State) : Out :=
  match tget? s.ops op with
  | none => .next s
  | some o =>
    match o.kind with
    | .token a =>
      let held := ((s.block? o.block).map fun b => b.vectorTokens.contains a).getD true
      if s.isSaved o.block || !held && s.accPending o.block a then .next s
      else .next ((s.modBlock o.block fun b => { b with vectorTokens := insertNat a b.vectorTokens }).completeOp op)
    | _ => .next s

/-- CVDECL (12 R332). -/
def execCvdecl (w : VWord) (s : State) : Out :=
  runWord (.cvdecl w) (fun c s =>
    match c.l0 with
    | none => .done s []
    | some l =>
      let v := (c.rd w.a l).toNat
      let k := w.e.toNat % 8
      if v = 0 || 2 ^ c.o.b.gslots.length ≤ v then c.trap (Cause.operand 6) s
      else if ((c.o.b.conv[k]?).map ConvReg.signed).getD [] != [] then c.trap (Cause.operand 7) s
      else .done (s.modBlock c.bid fun b => { b with conv := b.conv.modify k fun x => { x with decl := bitsOf 32 v } }) []) s

/-- CVQ (12 R333). -/
def execCvq (w : VWord) (s : State) : Out :=
  runWord (.cvq w) (fun c s =>
    if c.real.isEmpty then .done s []
    else
      let x := c.o.b.conv.getD (w.e.toNat % 8) ⟨[], [], none⟩
      c.write s w.d fun _ => [laneMask (if w.ebit 5 then x.signed else x.decl)]) s

/-! ## The twins (12 R318 to R322, 15 R399 to R401) -/

/-- The hottest reading of the twins of a cluster (15 R399). -/
def State.hottest (s : State) (k : Nat) : Nat :=
  (coresOf k).foldl (fun m c => max m (max (s.core c).temp0 (s.core c).temp1)) 0

/-- Every twin of a cluster reads below TCOOL. -/
def State.coolNow (s : State) (k : Nat) : Bool := decide (s.hottest k < s.tcool)

/-- The comparators of a core are due for a reading: 1 µs after the last, or at once after power-up (12 R321). -/
def Core.twinsDue (k : Core) (now : Nat) : Bool :=
  match k.readAt with
  | some t => decide (t + State.us 1 ≤ now)
  | none => true

/-- TWIN_COMPARATOR_READING, every 1 µs (12 R321): a swap begins where it is due; a cluster notes since when it is hot or cool,
and at 125 °C both clusters of the pair stop issue, until every twin of the pair reads below TCOOL (15 R399 to R401). -/
def execTwinComparatorReading (core t0 t1 : Nat) (s : State) : Out :=
  if (s.chiplet (coreSlot core)).power != .active || 864 ≤ core || !(s.core core).twinsDue s.now then .next s
  else
    let t0 := t0 % 256
    let t1 := t1 % 256
    let k := s.core core
    let hot := if k.twin then t1 else t0
    let idle := if k.twin then t0 else t1
    let swap := !k.drain && s.thot ≤ hot && idle < s.tcool && k.lastSwap + State.us 50 ≤ s.now
    let begun := match k.engine with
      | e :: _ => !s.lockWaits e.num
      | [] => false
    let s := s.setCore core { k with temp0 := t0, temp1 := t1, readAt := some s.now, drain := k.drain || swap
                                     drainHead := if swap then begun else k.drainHead }
    let kl := clusterOf core
    let both := s.thot ≤ t0 && s.thot ≤ t1
    let cool := s.coolNow kl
    let s := s.modCluster kl fun c =>
      { c with hotSince := if both then (if (tget? c.hotSince core).isSome then c.hotSince else tput c.hotSince core s.now)
                 else tdel c.hotSince core
               coolSince := if cool then (match c.coolSince with
                 | some t => some t
                 | none => some s.now) else none }
    let pr := pairOf kl
    let s := if 125 ≤ max t0 t1 then
        let was := (s.cluster kl).stopped
        let s := (s.modCluster kl fun c => { c with stopped := true }).modCluster pr fun c => { c with stopped := true }
        if was then s
        else s.postAll 5 0 (BitVec.ofNat 64 ((s.logicalOf (coreSlot core)).getD 0 + 2 ^ 8 * (kl % 24 / 2 * 2))) 0
      else if s.coolNow kl && s.coolNow pr then
        (s.modCluster kl fun c => { c with stopped := false }).modCluster pr fun c => { c with stopped := false }
      else s
    .next s

/-- TWIN_SWAP_COMPLETE: the operations that had begun are done, and the other twin is active (12 R322). -/
def execTwinSwapComplete (core : Nat) (s : State) : Out :=
  let k := s.core core
  if !k.drain || (k.drainHead && !k.engine.isEmpty) then .next s
  else
    .next (s.setCore core { k with twin := !k.twin, drain := false, drainHead := false, swaps := (k.swaps + 1) % 65536
                                   lastSwap := s.now })

end Sys2Proof.Machine
end

