-- ==== Sys2Proof/Machine/Order.lean ====
section
/-! DEFINITION. Synchronisation: cells, publishing and acquiring, LDACQ, STREL, the atomics, FENCE, SIGCLR and promotion
(11 R289 to R317). -/

namespace Sys2Proof.Machine

/-! ## Cells (11 R297, R298) -/

/-- The colophon of the 128 bytes of a cell. -/
def cellColophon (l : List Byte) : BitVec 896 := BitVec.ofNat 896 (natOfBytes (l.drop 16))

/-- A control field of a cell. -/
def cellBits (l : List Byte) (lo n : Nat) : Nat := natOfBytes (l.take 16) / 2 ^ lo % 2 ^ n

def cellSat (l : List Byte) : Bool := cellBits l 111 1 == 1

/-- The number by which a cell names a core (11 R297). -/
def State.coreName (s : State) (c : Nat) : Nat := 128 * (s.logicalOf (coreSlot c)).getD 0 + c % 96

/-- The core that a cell names, where its chiplet is active. -/
def State.coreNamed (s : State) (n : Nat) : Option Nat :=
  if 96 ≤ n % 128 then none
  else match s.slotOf (n / 128) with
    | some p => if (s.chiplet p).power = .active then some (96 * p + n % 128) else none
    | none => none

/-- The control fields after a release (11 R302), the value, SAT and the reserved bits kept. -/
def releasedWord (w : W64) (scope core : Nat) : W64 :=
  let w := setField w 48 16 (fieldOf w 48 16 + 1)
  let w := setField w 44 3 scope
  let w := setField w 43 1 0
  setField w 0 10 core

/-- The control word of a cell is its second 8 bytes. -/
def cellControl (l : List Byte) : W64 := BitVec.ofNat 64 (natOfBytes ((l.drop 8).take 8))

namespace State

/-- The filter of a core, as it is then, ORed into a cell at its home: COLOPHON and SAT (11 R301 step 3). -/
def publishInto (s : State) (core : Nat) (e : TlbEntry) (a : Nat) : State :=
  let k := s.core core
  let l := s.homeRead e a 128
  let sig := cellColophon l ||| k.filter
  let ctl := cellControl l
  let ctl := if k.filterSat || 448 < countBits sig then setField ctl 47 1 1 else ctl
  s.homePut e a (l.take 8 ++ bytesOfNat 8 ctl.toNat ++ bytesOfNat 112 sig.toNat)

/-- The core's filter and flag cleared, once its word has released its last cell (11 R301 step 3). -/
def clearFilter (s : State) (core : Nat) : State := s.modCore core fun k => { k with filter := 0, filterSat := false }

/-- The update of a cell by a release of a cohort, after its value is written (11 R302). -/
def cellRelease (s : State) (core cid : Nat) (e : TlbEntry) (a scope : Nat) : State :=
  let l := s.homeRead e a 16
  let s := s.homePut e a (l.take 8 ++ bytesOfNat 8 (releasedWord (cellControl l) scope (s.coreName core)).toNat)
  let s := { s with releasers := if scope < 3 then tput s.releasers (e.phys a / 128) cid else tdel s.releasers (e.phys a / 128) }
  if 3 ≤ scope then s.publishInto core e a else s

/-- An acquire of scope `.coh` or wider, by the cells its word read (11 R303). -/
def acquire (s : State) (core scope : Nat) (allCells : Bool) (cells : List (List Byte)) : State :=
  let sig := cells.foldl (fun m l => m ||| cellColophon l) 0
  let sat := cells.any cellSat
  let s := s.dropSelf core fun p => !allCells || sat || scope == 5 || hits p sig
  if cells.isEmpty then s else s.modCore core fun k => k.addSig sig sat

end State

/-! ## Words that synchronise -/

/-- An access is a cell access: 8 bytes at a multiple of 128 outside the scratchpad window (11 R298). -/
def isCell (t : Target) (a n : Nat) : Bool :=
  match t with
  | .scr _ _ => false
  | .mem _ => n == 8 && a % 128 == 0

/-- What the lanes of a word have done so far: the state, the values read, and the cells read. -/
structure SyncAcc where
  s : State
  old : List (Nat × List Byte)
  cells : List (List Byte)

/-- One lane's access of a word: a cell is read whole, `f` gives the new bytes where the word writes, with their events,
and a release updates a cell (11 R302, R312 to R314). -/
def syncLane (c : Ctx) (u : Who) (n scope : Nat) (acq rel : Bool)
    (f : Option (Nat → List Byte → Option (List Byte) × List FpEvent)) (acc : SyncAcc) (x : Nat × Nat × Target) : SyncAcc :=
  let (i, a, t) := x
  let cell := isCell t a n
  let s := match t with
    | .mem e => acc.s.toHome u.core e a (if cell && (acq || rel) then 128 else n)
    | .scr _ _ => acc.s
  let whole := match t with
    | .mem e => if cell && acq then [s.homeRead e a 128] else []
    | .scr _ _ => []
  match f with
  | none =>
    let old := match t with
      | .mem e => s.homeRead e a n
      | .scr b o => s.scratchRead b o n
    ⟨s, acc.old ++ [(i, old)], acc.cells ++ whole⟩
  | some f =>
    let r := s.targetRmw u t a n fun old => (f i old).1
    let s := r.1.countEvents c.lid (f i r.2).2
    let s := match t with
      | .mem e => if cell && rel then s.cellRelease u.core u.cid e a scope else s
      | .scr _ _ => s
    ⟨s, acc.old ++ [(i, r.2)], acc.cells ++ whole⟩

/-- The effect of a synchronising word whose checks passed: steps 1 and 2 of a release's publishing, the lanes in ascending
order, each cell with the filter as it then is, the filter cleared with the last cell's step, and the acquire (11 R301 to R304,
R312, R313). -/
def syncWord (c : Ctx) (u : Who) (n scope : Nat) (acq rel : Bool)
    (f : Option (Nat → List Byte → Option (List Byte) × List FpEvent)) (l : List (Nat × Nat × Target)) (s : State) : SyncAcc :=
  let cell (x : Nat × Nat × Target) : Bool := isCell x.2.2 x.2.1 n
  let pub := rel && 3 ≤ scope && !l.isEmpty
  let upTo := (l.reverse.dropWhile fun x => !cell x).length
  let step := syncLane c u n scope acq rel f
  let r := (l.take upTo).foldl step ⟨if pub then s.cleanSelf u.core else s, [], []⟩
  let r := (l.drop upTo).foldl step (if pub && l.any cell then { r with s := r.s.clearFilter u.core } else r)
  let s := r.s
  { r with s := if acq && 3 ≤ scope && !l.isEmpty then s.acquire u.core scope (l.all cell) r.cells else s }

/-- The lanes of a word with their addresses and targets. -/
def laneTargets (c : Ctx) (a : Nat → Nat) (ts : List (Option Target)) : List (Nat × Nat × Target) :=
  (c.real.zip ts).filterMap fun e => e.2.map fun t => (e.1, a e.1, t)

/-- Registers of bytes. -/
def bytesRegs (l : List Byte) : List W32 := regsOfNat ((l.length + 3) / 4) (natOfBytes l)

/-! ## ATOM, ATOMCAS and REDM (11 R310 to R314) -/

/-- The new value of an atomic, with its events (11 R314). -/
def atomOp (t op old b : Nat) : Nat × List FpEvent :=
  match op with
  | 0 | 1 | 2 => let r := combineElem t op old b; (r.1, r.2.map fun k => ((fmtOf t).ev, k))
  | 3 => (old &&& b, [])
  | 4 => (old ||| b, [])
  | 5 => (old ^^^ b, [])
  | _ => (b, [])

/-- The address of a lane of an atomic: its A field has no crossbar. -/
def atomAddr (c : Ctx) (w : VWord) (i : Nat) : Nat := (pair (c.rdd w.a.reg i 0) (c.rdd w.a.reg i 1)).toNat

/-- An atomic: `f` gives a lane's new value from its old one, none where it writes nothing; `ret` writes the old values to
D. -/
def atomic (c : Ctx) (w : VWord) (ret : Bool) (f : Nat → Nat → Option Nat × List FpEvent) (s : State) : WordOut :=
  let n := 4 * tyRegs w.ty
  let a := atomAddr c w
  let d := if ret then w.d else noReg
  c.longWriteAccess s d (fun u => walkAddrs u .rmw (c.realWants a n)) (fun u s => writesBusy c u s .rmw ⟨true, true⟩ a n) (fun u s =>
    match writeTargets c u s .rmw ⟨true, true⟩ a n with
    | ⟨s, .error x⟩ => .error (x, s)
    | ⟨s, .ok ts⟩ =>
      let g (i : Nat) (old : List Byte) : Option (List Byte) × List FpEvent :=
        let r := f i (natOfBytes old)
        (r.1.map (bytesOfNat n), r.2)
      let r := syncWord c u n w.a.xb.toNat (w.ebit 5) (w.ebit 6) (some g) (laneTargets c a ts) s
      .ok (r.s, if ret then resultKeys w.d (r.old.map fun e => (e.1, (bytesRegs e.2).map some)) else []))
    (if w.ebit 5 then .acquire else .plain)

/-- A data operand of an atomic, read in the lane itself. -/
def atomData (c : Ctx) (w : VWord) (r : BitVec 7) (i : Nat) : Nat := natOfBytes (c.dataBytes r (4 * tyRegs w.ty) i)

/-- ATOM. -/
def execAtom (w : VWord) (s : State) : Out :=
  runWord (.atom w) (fun c s =>
    atomic c w true (fun i old => let r := atomOp w.ty w.b.xb.toNat old (atomData c w w.b.reg i); (some r.1, r.2)) s) s

/-- ATOMCAS: nothing is written where the bytes differ from B. -/
def execAtomcas (w : VWord) (s : State) : Out :=
  runWord (.atomcas w) (fun c s =>
    atomic c w true (fun i old => (if old = atomData c w w.b.reg i then some (atomData c w w.c.reg i) else none, [])) s) s

/-- REDM. -/
def execRedm (w : VWord) (s : State) : Out :=
  runWord (.redm w) (fun c s =>
    atomic c w false (fun i old => let r := atomOp w.ty w.b.xb.toNat old (atomData c w w.b.reg i); (some r.1, r.2)) s) s

/-! ## Promotion (11 R306, R307) -/

/-- The core a promotion of a cell is asked of by an acquirer, before any forwarding (11 R306). -/
def State.promoter (s : State) (acquirer : Nat) (cell : List Byte) : Option Nat :=
  if cellBits cell 108 3 < 3 && cellBits cell 107 1 == 0 && cellBits cell 64 10 != s.coreName acquirer then
    s.coreNamed (cellBits cell 64 10)
  else none

/-- The core that serves a promotion request for a cell: the one that a forwarding entry of the old core's chiplet names for
the task that released the cell, and else the old core; none where the new core's chiplet is fenced, which answers
NODE_FENCED (11 R307, 14 R390, log 76). -/
def State.forwarded (s : State) (core cell : Nat) : Option Nat :=
  match (s.chiplet (coreSlot core)).forwards.find? fun f => f.src == core && tget? s.releasers cell == some f.cohort with
  | some f => if (s.chiplet (coreSlot f.dst)).power = .active then some f.dst else none
  | none => some core

/-- The cells of the lanes of an LDACQ.rm to which promotion applies: translation, address and core (11 R306). -/
def promotions (c : Ctx) (w : MWord) (s : State) : List (TlbEntry × Nat × Nat) :=
  if w.sched.h != 1 || w.size.toNat < 3 then []
  else c.real.filterMap fun i =>
    let a := mAddr c w 8 i
    match (s.xlat c.core c.o.l.aspace a).1 with
    | some e =>
      if a % 128 = 0 && !inWindow a then
        ((s.promoter c.core ((List.range 128).map fun k => s.homeByte (e.phys a + k))).bind fun k =>
          s.forwarded k (e.phys a / 128)).map fun k => (e, a, k)
      else none
    | none => none

/-- Those whose promotion the word has not asked for yet. -/
def wantsPromotion (c : Ctx) (w : MWord) (s : State) : List (TlbEntry × Nat × Nat) :=
  (promotions c w s).filter fun x => !c.r.asked.contains (x.1.phys x.2.1 / 128)

/-- The context of a group whose word is an LDACQ at its issue. -/
def State.acquiring (s : State) (gid : Nat) : Option (Ctx × MWord) := do
  let (o, r, _, i) ← s.nextWord gid
  match i with
  | .ldacq w =>
    if o.g.blocked.isNone && (s.slotOfGroup o).cur == some gid then
      let act := activeLanes o.g s.choice w.sched r.set
      some (⟨gid, o, r, w.sched, act, act.filter fun j => o.g.handler || (o.g.lane j).st != .helper, s.choice⟩, w)
    else none
  | _ => none

/-- REMOTE_PROMOTION_REQUEST: the core a held cell names publishes into it at the acquirer's scope, and the cell is marked;
it happens only for an LDACQ.rm at its issue (11 R306, R307). -/
def execRemotePromotionRequest (acquirer cell scope : Nat) (s : State) : Out :=
  let want := s.groups.findSome? fun e =>
    match s.acquiring e.1 with
    | some (c, w) =>
      if c.core = acquirer && w.size.toNat = scope then
        (promotions c w s).find? fun x => x.1.phys x.2.1 / 128 == cell
      else none
    | none => none
  match want with
  | none => .next s
  | some (e, a, k) =>
    let s := (s.cleanSelf k).toHome acquirer e a 128
    let s := (s.publishInto k e a).clearFilter k
    let l := s.homeRead e a 16
    .next (s.homePut e a (l.take 8 ++ bytesOfNat 8 (setField (cellControl l) 43 1 1).toNat))

/-! ## LDACQ, STREL, FENCE and SIGCLR (11 R310 to R316) -/

/-- The word is at its issue again in this cycle. -/
def Ctx.again (c : Ctx) (s : State) : State :=
  let k := s.cluster (clusterOf c.core)
  s.modCore c.core fun x =>
    { x with slots := x.slots.modify c.o.g.islot fun y => { y with freeAt := k.cycles } }

/-- LDACQ: with `.rm`, the promotions it asks for, each once, come before it (11 R306, R313). -/
def execLdacq (w : MWord) (s : State) : Out :=
  runWord (.ldacq w) (fun c s =>
    let scope := w.size.toNat
    let a := mAddr c w 8
    let ask := match s.who? c.gid with
      | some u => match s.waitWalks u.core u.aspace (walkAddrs u .read (c.realWants a 8)), writeTargets c u s .read ⟨false, true⟩ a 8 with
        | none, ⟨_, .ok _⟩ => wantsPromotion c w s
        | _, _ => []
      | none => []
    if !ask.isEmpty && c.full.isNone then
      let evs := ask.map fun x => Event.op (.remotePromotionRequest c.core (x.1.phys x.2.1 / 128) scope)
      let s := (c.again s).modGroup c.gid fun g =>
        { g with run := some { c.r with asked := unionNat (ask.map fun x => x.1.phys x.2.1 / 128) c.r.asked } }
      .left { s with agenda := evs ++ .issue c.gid :: s.agenda }
    else c.longWriteAccess s w.d (fun u => walkAddrs u .read (c.realWants a 8))
        (fun u s => peerWaits c c.real (writeTargets c u s .read ⟨false, true⟩ a 8) a) (fun u s =>
      match writeTargets c u s .read ⟨false, true⟩ a 8 with
      | ⟨s, .error x⟩ => .error (x, s)
      | ⟨s, .ok ts⟩ =>
        let r := syncWord c u 8 scope true false none (laneTargets c a ts) s
        .ok (r.s, resultKeys w.d (r.old.map fun e => (e.1, (bytesRegs e.2).map some)))) .acquire) s

/-- STREL. -/
def execStrel (w : MWord) (s : State) : Out :=
  runWord (.strel w) (fun c s =>
    let a := mAddr c w 8
    c.longWriteAccess s noReg (fun u => walkAddrs u .write (c.realWants a 8))
        (fun u s => writesBusy c u s .write ⟨false, true⟩ a 8) fun u s =>
      match writeTargets c u s .write ⟨false, true⟩ a 8 with
      | ⟨s, .error x⟩ => .error (x, s)
      | ⟨s, .ok ts⟩ =>
        let r := syncWord c u 8 w.size.toNat false true (some fun i _ => (some (c.dataBytes w.d 8 i), [])) (laneTargets c a ts) s
        .ok (r.s, [])) s

/-- FENCE: every earlier event of the group is performed at its issue, so that only the caches are left to act
(11 R315, log 2). -/
def execFence (w : VWord) (s : State) : Out :=
  runWord (.fence w) (fun c s =>
    let scope := w.e.toNat % 8
    let kind := w.e.toNat / 8 % 4
    if c.real.isEmpty || scope < 3 then .done s []
    else
      let s := if kind = 0 then s else s.cleanSelf c.core
      .done (if kind = 1 then s else s.acquire c.core scope false []) []) s

/-- SIGCLR. -/
def execSigclr (w : VWord) (s : State) : Out :=
  runWord (.sigclr w) (fun c s =>
    let a (i : Nat) : Nat := (c.rdw w.a i).toNat
    c.longWriteAccess s noReg (fun u => walkAddrs u .write (c.realWants a 128))
        (fun u s => writesBusy c u s .write ⟨false, false⟩ a 128) fun u s =>
      match writeTargets c u s .write ⟨false, false⟩ a 128 with
      | ⟨s, .error x⟩ => .error (x, s)
      | ⟨s, .ok ts⟩ =>
        .ok ((laneTargets c a ts).foldl (fun s x => match x.2.2 with
          | .scr _ _ => s
          | .mem e =>
            let s := s.toHome u.core e x.2.1 128
            let l := s.homeRead e x.2.1 16
            s.homePut e x.2.1 (l.take 8 ++ bytesOfNat 8 (setField (cellControl l) 47 1 0).toNat
              ++ List.replicate 112 0)) s, [])) s

end Sys2Proof.Machine
end

