-- ==== Sys2Proof/Machine/Pool.lean ====
section
/-! DEFINITION. The register-pool words (05 R132, R138 to R146). -/

namespace Sys2Proof.Machine

namespace Ctx

/-- The quota of the group's kernel on its core, and the units free. -/
def quota (c : Ctx) (s : State) : Nat := ((s.quota? c.core c.lid).map Quota.units).getD 0
def free (c : Ctx) (s : State) : Nat := s.freeUnits c.core c.lid

/-- The claim queue is empty. -/
def noClaims (c : Ctx) (s : State) : Bool := ((s.quota? c.core c.lid).map fun q => q.claims.isEmpty).getD true

/-- The allocation grows by `n` registers, which read 0 (05 R133, R141). -/
def grow (c : Ctx) (s : State) (n : Nat) : State :=
  s.modGroup c.gid fun g =>
    { g with alloc := g.alloc + n
             regs := g.regs.filter fun e => !(g.alloc ≤ e.1 / 32 && e.1 / 32 < g.alloc + n) }

end Ctx

/-- RCLAIM (05 R141). -/
def execRclaim (w : IWord) (s : State) : Out :=
  runWord (.rclaim w) (fun c s =>
    let n := w.imm.toNat
    let a := c.o.g.alloc
    if c.real.isEmpty then .done s []
    else if 120 < a + n then c.trap (Cause.operand n) s
    else if c.quota s < n / 4 + (a / 4 + 1) then c.trap ⟨Cause.registerDeadlock, BitVec.ofNat 64 (n / 4), 0⟩ s
    else if c.noClaims s && n / 4 ≤ c.free s then .settle (c.grow s n) []
    else .block (.claim (n / 4)) (s.modQuota c.core c.lid fun q => { q with claims := q.claims ++ [.group c.gid (n / 4)] })) s

/-- RGIVE (05 R143). -/
def execRgive (w : IWord) (s : State) : Out :=
  runWord (.rgive w) (fun c s =>
    let n := w.imm.toNat
    let a := c.o.g.alloc
    if c.real.isEmpty then .done s []
    else if !c.o.g.flagsClear then .block .flags s
    else if a < n then c.trap (Cause.operand n) s
    else
      let s := s.modGroup c.gid fun g =>
        { g with alloc := a - n, regs := g.regs.filter fun e => !(a - n ≤ e.1 / 32 && e.1 / 32 < a) }
      .settle (s.grantClaims c.core c.lid 64) []) s

/-- RTRY (05 R142). -/
def execRtry (w : IWord) (s : State) : Out :=
  runWord (.rtry w) (fun c s =>
    let n := w.imm.toNat
    let a := c.o.g.alloc
    if c.real.isEmpty then .done s []
    else if 120 < a + n || c.quota s < n / 4 + (a / 4 + 1) then c.write s w.d fun _ => [2]
    else if c.noClaims s && n / 4 ≤ c.free s then c.write (c.grow s n) w.d fun _ => [0]
    else c.write s w.d fun _ => [1]) s

/-- RCOUNT (05 R144). -/
def execRcount (w : VWord) (s : State) : Out :=
  runWord (.rcount w) (fun c s =>
    let v := match w.md with
      | 0 => c.o.g.alloc
      | 1 => c.free s
      | _ => s.usedUnits c.core c.lid
    c.write s w.d fun _ => [BitVec.ofNat 32 v]) s

end Sys2Proof.Machine
end

