-- ==== Sys2Proof/Machine/Waits.lean ====
section
/-! DEFINITION. WAIT, the reading of flags, barrier objects and time, and the barrier-object words (07 R196 to R206,
08 R218 to R221). -/

namespace Sys2Proof.Machine

/-! ## Descriptors of WAIT (07 R197) -/

namespace Ctx

/-- Descriptor `i` in lane `l`. -/
def waitDesc (c : Ctx) (w : VWord) (l i : Nat) : WaitDesc :=
  let a := pair (c.rdd w.a.reg l (4 * i)) (c.rdd w.a.reg l (4 * i + 1))
  ⟨a.toNat % 8, a.toNat / 8 * 8, pair (c.rdd w.a.reg l (4 * i + 2)) (c.rdd w.a.reg l (4 * i + 3))⟩

/-- The checks of a descriptor, with the state after a cell's translation (07 R197); an object that a test reads is checked
against the range locks here, before the loop (08 R214, log 23). -/
def checkDesc (c : Ctx) (s : State) (i : Nat) (d : WaitDesc) : State × Option Cause :=
  let bad (more : Nat) : Option Cause := some (Cause.operand (i + 16 * d.kind + more))
  match d.kind with
  | 1 => let k := d.obs.toNat % 16; (s, if 12 ≤ k then bad (256 * k) else none)
  | 2 => (s, s.objUse c.core c.bid d.addr 16 16 false)
  | 3 | 4 => (s, s.objUse c.core c.bid d.addr 32 32 false)
  | 5 =>
    match s.who? c.gid with
    | none => (s, none)
    | some u =>
      match State.checkLease u d.addr 8 .read with
      | some x => (s, some x)
      | none =>
        if d.addr % 128 != 0 then (s, some (Cause.align (BitVec.ofNat 64 d.addr)))
        else
          match s.resolve u d.addr 8 .read ⟨false, false⟩ with
          | ⟨s, .error x⟩ => (s, some x)
          | ⟨s, .ok t⟩ => (s, s.checkLock u t d.addr 8 .read)
  | _ => (s, bad 0)

/-- Every descriptor checked in order; the first failure (07 R197). -/
def checkDescs (c : Ctx) : Nat → List WaitDesc → State → State × Option Cause
  | _, [], s => (s, none)
  | i, d :: t, s =>
    match c.checkDesc s i d with
    | (s, some x) => (s, some x)
    | (s, none) => c.checkDescs (i + 1) t s

end Ctx

/-! ## The conditions (07 R197, R200) -/

namespace State

/-- The physical address of a cell, or none where its page has no translation. -/
def cellAddr (s : State) (o : Owner) (a : Nat) : Option Nat := (s.xlat o.b.core o.l.aspace a).1.map fun e => e.phys a

/-- The condition of a descriptor holds (07 R197). A cell whose page has no translation any longer meets no condition
(log 66), nor does one whose tests are held behind an acquire of the group (11 R313, log 74). -/
def descHolds (s : State) (o : Owner) (gid : Nat) (d : WaitDesc) : Bool :=
  match d.kind with
  | 1 => ((s.group? gid).map fun g => g.flag (d.obs.toNat % 16) == 0).getD false
  | 2 => (s.scratchWord o.g.block (d.addr + 8)) != lowHalf d.obs
  | 3 => s.scratchByte o.g.block (d.addr + 19) != 0
  | 4 => s.scratchByte o.g.block (d.addr + 20) != 0
  | 5 =>
    match s.cellAddr o d.addr with
    | some a => !s.acquireOpen gid && s.cellWord a != d.obs
    | none => false
  | _ => false

/-- What every test of a cell does before it reads: the core's dirty bytes of the cell's line go to L2, and the device
takes the cell's host sector (07 R200, 11 R292). Tests that are held do nothing (11 R313). -/
def reachCells (s : State) (o : Owner) (gid : Nat) (x : WaitLoop) : State :=
  if s.acquireOpen gid then s
  else (x.descs.filter fun d => d.kind = 5).foldl (fun s d =>
    match (s.xlat o.b.core o.l.aspace d.addr).1 with
    | some e => s.reachCell o.b.core e d.addr
    | none => s) s

/-- The descriptors of a loop whose conditions hold. -/
def holding (s : State) (o : Owner) (gid : Nat) (x : WaitLoop) : List Nat :=
  (List.range x.descs.length).filter fun i => (x.descs[i]?).any (s.descHolds o gid)

end State

/-! ## The loop (07 R198, R199) -/

namespace WaitLoop

/-- The mode is satisfied by the descriptors met. -/
def satisfied (x : WaitLoop) : Bool :=
  if x.all then (List.range x.descs.length).all x.met.contains else !x.met.isEmpty

/-- The timeout has passed at a reading of TIME, by `late` rt at least. -/
def timedOut (x : WaitLoop) (time : W64) (late : Nat) : Bool :=
  x.timeout != 2 ^ 32 - 1 && decide (x.timeout + late ≤ (time - x.start).toNat)

/-- Descriptors are latched. -/
def latch (x : WaitLoop) (l : List Nat) : WaitLoop := { x with met := unionNat l x.met }

/-- The loop is left where the mode is satisfied, and else where the timeout has passed. -/
def settle (x : WaitLoop) (timeout : Bool) : WaitLoop :=
  if x.satisfied then { x with res := some (laneMask x.met) }
  else if timeout then { x with res := some (laneMask (x.met ++ [31])) }
  else x

/-- One turn of the loop: the conditions that hold are latched, and then the mode and the timeout are tested. A loop that
has been left stays as it is. -/
def turn (x : WaitLoop) (holds : List Nat) (timeout : Bool) : WaitLoop :=
  if x.res.isSome then x else (x.latch holds).settle timeout

/-- The loop after `n` time units in which the same conditions held: one that has held for 100 rt is latched, and the loop
is left no later than 2 rt after its timeout, with a last test of the conditions (07 R199). -/
def pass (x : WaitLoop) (holds : List Nat) (n : Nat) (time : W64) : WaitLoop :=
  if x.res.isSome then x
  else
    let held := (List.range x.descs.length).map fun i => if holds.contains i then x.held.getD i 0 + n else 0
    let due := (List.range x.descs.length).filter fun i => decide (76500 ≤ held.getD i 0)
    let y := { x.latch due with held := held }
    if y.satisfied || !y.timedOut time 2 then y.settle false else y.turn holds true

end WaitLoop

namespace State

/-- The loop of a blocked WAIT of a group in its new form; once it has been left, WAITED of its barrier objects is cleared
(08 R218). -/
def putLoop (s : State) (gid bid : Nat) (x : WaitLoop) : State :=
  let s := s.modGroup gid fun g => { g with blocked := some (.wait x) }
  if x.res.isSome then s.clearWaited bid x.objs else s

/-- The loop that a group is blocked in. -/
def waiting (s : State) (gid : Nat) : Option (Owner × WaitLoop) := do
  let o ← s.owner? gid
  match o.g.blocked with
  | some (.wait x) => some (o, x)
  | _ => none

/-- One turn of the loop of a blocked group; `timeout` tests the clock too. -/
def turnWait (s : State) (gid : Nat) (timeout : Bool) : State :=
  match s.waiting gid with
  | none => s
  | some (o, x) =>
    if x.res.isSome then s
    else
      let s := s.reachCells o gid x
      s.putLoop gid o.g.block (x.turn (s.holding o gid x) (timeout && x.timedOut s.rt 0))

/-- Every blocked WAIT after `n` time units, which the clock has counted. -/
def passWaits (s : State) (n : Nat) : State :=
  s.groups.foldl (fun s e =>
    match s.waiting e.1 with
    | none => s
    | some (o, x) =>
      let s := s.reachCells o e.1 x
      s.putLoop e.1 o.g.block (x.pass (s.holding o e.1 x) n s.rt)) s

end State

namespace Ctx

/-- The number of descriptors and the mode. -/
def waitCount (w : VWord) : Nat := w.e.toNat % 4 + 1
def waitAll (w : VWord) : Bool := w.ebit 5

/-- The descriptors of a WAIT, read in a lane. -/
def waitDescs (c : Ctx) (w : VWord) (l : Nat) : List WaitDesc := (List.range (waitCount w)).map (c.waitDesc w l)

/-- The loop of a WAIT as it is entered, from a start with a timeout. -/
def newLoop (c : Ctx) (w : VWord) (l : Nat) (start : W64) (t : Nat) : WaitLoop :=
  { start := start, timeout := t, all := waitAll w, act := c.act, descs := c.waitDescs w l, met := [], held := [], res := none }

/-- A WAIT that has left its loop writes its result in the lanes of Active (07 R198). -/
def waitDone (c : Ctx) (s : State) (w : VWord) (act : List Nat) (v : W32) : WordOut :=
  .done (s.modGroup c.gid fun g => writeLanes g w.d (act.map fun i => (i, [v]))) []

/-- The loop's first turn (07 R198): it ends at once, or the word blocks with WAITED set on its barrier objects. -/
def enterWait (c : Ctx) (s : State) (w : VWord) (x : WaitLoop) : WordOut :=
  let s := s.reachCells c.o c.gid x
  let y := x.turn (s.holding c.o c.gid x) (x.timedOut s.rt 0)
  match y.res with
  | some v => c.waitDone s w y.act v
  | none =>
    let s := y.objs.foldl (fun s o => s.scratchPut c.bid (o + 12) 4 ((s.scratchWord c.bid (o + 12)).toNat ||| 256)) s
    .block (.wait y) s

/-- The addresses of cells that a WAIT translates. -/
def cellAddrs (u : Who) (ds : List WaitDesc) : List Nat :=
  (ds.filter fun d => d.kind = 5 && d.addr % 128 = 0 && (State.checkLease u d.addr 8 .read).isNone && !inWindow d.addr).map (·.addr)

/-- A WAIT from its descriptors on, with the start and the timeout of its loop (07 R198, R201); the translation of a cell may
join a walk first (09 R247). -/
def beginWait (c : Ctx) (s : State) (w : VWord) (start : State → W64) (t : Nat → Nat) : WordOut :=
  match c.l0 with
  | none => .done s []
  | some l =>
    match (s.who? c.gid).bind fun u => s.waitWalks u.core u.aspace (cellAddrs u (c.waitDescs w l)) with
    | some s => .left s
    | none =>
      match c.checkDescs 0 (c.waitDescs w l) s with
      | (s, some x) => c.trap x s
      | (s, none) => c.enterWait s w (c.newLoop w l (start s) (t l))

end Ctx

/-- WAIT (07 R198, R201): a loop that has been left gives its result; one that a delivery broke off goes on with its start
and timeout. -/
def execWait (w : VWord) (s : State) : Out :=
  runWord (.wait w) (fun c s =>
    match c.savedHere with
    | some (.wait x) =>
      match x.res with
      | some v => c.waitDone s w x.act v
      | none => c.beginWait s w (fun _ => x.start) fun _ => x.timeout
    | _ => c.beginWait s w State.rt fun l => (c.rdd w.b.reg l).toNat) s

/-- WAIT_CONDITION_MET: the conditions that hold are latched; the loop ends when the mode is satisfied, and the word goes on
where its slot is free (07 R198, R199). -/
def execWaitConditionMet (g : Nat) (s : State) : Out := .next (resumeWord (s.turnWait g false) g (blockOver s))

/-- WAIT_TIMEOUT: at the deadline or later, after a last test of the conditions (07 R198, R199). -/
def execWaitTimeout (g : Nat) (s : State) : Out := .next (resumeWord (s.turnWait g true) g (blockOver s))

/-! ## Flags and time (07 R202, R204 to R206) -/

/-- FLAGRD. -/
def execFlagrd (w : VWord) (s : State) : Out :=
  runWord (.flagrd w) (fun c s =>
    c.write s w.d fun _ => [laneMask ((List.range 12).filter fun f => c.o.g.flag f != 0)]) s

/-- FLAGRD.cnt. -/
def execFlagrdCnt (w : VWord) (s : State) : Out :=
  runWord (.flagrdCnt w) (fun c s => c.write s w.d fun _ => [BitVec.ofNat 32 (c.o.g.flag (w.e.toNat % 16))]) s

/-- TIME. -/
def execTime (w : VWord) (s : State) : Out :=
  runWord (.time w) (fun c s => c.write s w.d fun _ => [lowHalf s.rt, highHalf s.rt]) s

/-- CYCLE. -/
def execCycle (w : VWord) (s : State) : Out :=
  runWord (.cycle w) (fun c s =>
    let v := BitVec.ofNat 64 (s.cluster (clusterOf c.core)).cycles
    c.write s w.d fun _ => [lowHalf v, highHalf v]) s

/-! ## Barrier objects (07 R203, 08 R220, R221) -/

/-- BOREAD: its read is checked as every thread's (08 R214, log 23); a helper lane whose check fails reads 0 (04 R117). -/
def execBoread (w : VWord) (s : State) : Out :=
  runWord (.boread w) (fun c s =>
    let off (i : Nat) : Nat := (c.rd w.a i).toNat
    let align (i : Nat) : Option Cause := if off i % 16 = 0 then none else s.objCheck c.bid (off i) 16 16
    match ((c.real.findSome? align).orElse fun _ => c.real.findSome? fun i => s.scratchCheck c.bid (off i) 16).orElse fun _ =>
        c.real.findSome? fun i => s.objLock c.core c.bid (off i) 16 false with
    | some x => c.trap x s
    | none => c.write s w.d fun i =>
        if (s.objUse c.core c.bid (off i) 16 16 false).isSome then [0, 0, 0, 0]
        else (List.range 4).map fun k => s.scratchWord c.bid (off i + 4 * k)) s

/-- BOINIT (08 R220). -/
def execBoinit (w : VWord) (s : State) : Out :=
  runWord (.boinit w) (fun c s =>
    match c.l0 with
    | none => .done s []
    | some l =>
      let o := (c.rd w.a l).toNat
      let e := (c.rd w.b l).toNat
      match s.objUse c.core c.bid o 16 16 true with
      | some x => c.trap x s
      | none =>
        if e = 0 then c.trap (Cause.misuse o) s
        else
          let x := s.barObj c.bid o
          .done (s.putBarObj c.bid o { x with expected := e, arrived := 0, mode := if w.ebit 5 then 1 else 0 }) []) s

/-- BOARR (08 R221). -/
def execBoarr (w : VWord) (s : State) : Out :=
  runWord (.boarr w) (fun c s =>
    match c.l0 with
    | none => .done s []
    | some l =>
      let o := (c.rd w.a l).toNat
      let n := if w.b.reg = noReg then 1 else (c.rd w.b l).toNat
      match s.objUse c.core c.bid o 16 16 true with
      | some x => c.trap x s
      | none =>
        let ph := (s.barObj c.bid o).phase
        match s.arriveAt c.bid o n with
        | (_, false) => c.trap (Cause.misuse o) s
        | (s1, true) => c.write s1 w.d fun _ => [BitVec.ofNat 32 ph]) s

end Sys2Proof.Machine
end

