-- ==== Sys2Proof/Machine/Dispatch.lean ====
section
/-! DEFINITION. The meaning of every instruction word and event: one direct call for each row of
spec/opcode_table.json. -/

namespace Sys2Proof.Machine

/-- The outcome of a word for the group at its issue, or of an event. -/
def exec (i : Instr) (s : State) : Host.Outcome State Fault Refusal :=
  match i with
  | .clauseStart core islot => Sys2Proof.Machine.execClauseStart core islot s
  | .issueDelayExpiry g => Sys2Proof.Machine.execIssueDelayExpiry g s
  | .flagStallResume g => Sys2Proof.Machine.execFlagStallResume g s
  | .blockedWordResume g => Sys2Proof.Machine.execBlockedWordResume g s
  | .longLatencyCompletion op => Sys2Proof.Machine.execLongLatencyCompletion op s
  | .lateFaultDelivery g => Sys2Proof.Machine.execLateFaultDelivery g s
  | .ill high rest => Sys2Proof.Machine.execIll high rest s
  | .nop w => Sys2Proof.Machine.execNop w s
  | .bra w => Sys2Proof.Machine.execBra w s
  | .brx w => Sys2Proof.Machine.execBrx w s
  | .call w => Sys2Proof.Machine.execCall w s
  | .callx w => Sys2Proof.Machine.execCallx w s
  | .ret w => Sys2Proof.Machine.execRet w s
  | .exit w => Sys2Proof.Machine.execExit w s
  | .meet w => Sys2Proof.Machine.execMeet w s
  | .meetx w => Sys2Proof.Machine.execMeetx w s
  | .meetclr w => Sys2Proof.Machine.execMeetclr w s
  | .yield w => Sys2Proof.Machine.execYield w s
  | .qhelp w => Sys2Proof.Machine.execQhelp w s
  | .succ w => Sys2Proof.Machine.execSucc w s
  | .succx w => Sys2Proof.Machine.execSuccx w s
  | .refill w => Sys2Proof.Machine.execRefill w s
  | .bars w => Sys2Proof.Machine.execBars w s
  | .bara w => Sys2Proof.Machine.execBara w s
  | .barw w => Sys2Proof.Machine.execBarw w s
  | .trap w => Sys2Proof.Machine.execTrap w s
  | .bkpt w => Sys2Proof.Machine.execBkpt w s
  | .iadd w => Sys2Proof.Machine.execIadd w s
  | .isub w => Sys2Proof.Machine.execIsub w s
  | .iaddi w => Sys2Proof.Machine.execIaddi w s
  | .imul w => Sys2Proof.Machine.execImul w s
  | .imulh w => Sys2Proof.Machine.execImulh w s
  | .imad w => Sys2Proof.Machine.execImad w s
  | .idiv w => Sys2Proof.Machine.execIdiv w s
  | .irem w => Sys2Proof.Machine.execIrem w s
  | .imin w => Sys2Proof.Machine.execImin w s
  | .imax w => Sys2Proof.Machine.execImax w s
  | .iabs w => Sys2Proof.Machine.execIabs w s
  | .ineg w => Sys2Proof.Machine.execIneg w s
  | .iadds w => Sys2Proof.Machine.execIadds w s
  | .isubs w => Sys2Proof.Machine.execIsubs w s
  | .iavg w => Sys2Proof.Machine.execIavg w s
  | .icmp w => Sys2Proof.Machine.execIcmp w s
  | .and w => Sys2Proof.Machine.execAnd w s
  | .or w => Sys2Proof.Machine.execOr w s
  | .xor w => Sys2Proof.Machine.execXor w s
  | .not w => Sys2Proof.Machine.execNot w s
  | .andn w => Sys2Proof.Machine.execAndn w s
  | .orn w => Sys2Proof.Machine.execOrn w s
  | .shl w => Sys2Proof.Machine.execShl w s
  | .shr w => Sys2Proof.Machine.execShr w s
  | .sar w => Sys2Proof.Machine.execSar w s
  | .rot w => Sys2Proof.Machine.execRot w s
  | .fshf w => Sys2Proof.Machine.execFshf w s
  | .clz w => Sys2Proof.Machine.execClz w s
  | .ffs w => Sys2Proof.Machine.execFfs w s
  | .popc w => Sys2Proof.Machine.execPopc w s
  | .brev w => Sys2Proof.Machine.execBrev w s
  | .bfx w => Sys2Proof.Machine.execBfx w s
  | .bfi w => Sys2Proof.Machine.execBfi w s
  | .sel w => Sys2Proof.Machine.execSel w s
  | .mov w => Sys2Proof.Machine.execMov w s
  | .movi w => Sys2Proof.Machine.execMovi w s
  | .movhi w => Sys2Proof.Machine.execMovhi w s
  | .lea w => Sys2Proof.Machine.execLea w s
  | .iext w => Sys2Proof.Machine.execIext w s
  | .iextWide w => Sys2Proof.Machine.execIextWide w s
  | .pack w => Sys2Proof.Machine.execPack w s
  | .unpk w => Sys2Proof.Machine.execUnpk w s
  | .bytep w => Sys2Proof.Machine.execBytep w s
  | .idot4 w => Sys2Proof.Machine.execIdot4 w s
  | .idot2 w => Sys2Proof.Machine.execIdot2 w s
  | .shli w => Sys2Proof.Machine.execShli w s
  | .shri w => Sys2Proof.Machine.execShri w s
  | .sari w => Sys2Proof.Machine.execSari w s
  | .fadd w => Sys2Proof.Machine.execFadd w s
  | .fsub w => Sys2Proof.Machine.execFsub w s
  | .fmul w => Sys2Proof.Machine.execFmul w s
  | .fma w => Sys2Proof.Machine.execFma w s
  | .fmin w => Sys2Proof.Machine.execFmin w s
  | .fmax w => Sys2Proof.Machine.execFmax w s
  | .fabs w => Sys2Proof.Machine.execFabs w s
  | .fneg w => Sys2Proof.Machine.execFneg w s
  | .fcmp w => Sys2Proof.Machine.execFcmp w s
  | .frcp w => Sys2Proof.Machine.execFrcp w s
  | .frsq w => Sys2Proof.Machine.execFrsq w s
  | .fsqrt w => Sys2Proof.Machine.execFsqrt w s
  | .fdiv w => Sys2Proof.Machine.execFdiv w s
  | .fexp2 w => Sys2Proof.Machine.execFexp2 w s
  | .flog2 w => Sys2Proof.Machine.execFlog2 w s
  | .fsin w => Sys2Proof.Machine.execFsin w s
  | .fcos w => Sys2Proof.Machine.execFcos w s
  | .ftanh w => Sys2Proof.Machine.execFtanh w s
  | .fclass w => Sys2Proof.Machine.execFclass w s
  | .frnd w => Sys2Proof.Machine.execFrnd w s
  | .cvtf w => Sys2Proof.Machine.execCvtf w s
  | .cvtfWide w => Sys2Proof.Machine.execCvtfWide w s
  | .cvti w => Sys2Proof.Machine.execCvti w s
  | .icvtf w => Sys2Proof.Machine.execIcvtf w s
  | .scacc w => Sys2Proof.Machine.execScacc w s
  | .scalex w => Sys2Proof.Machine.execScalex w s
  | .bfppackScale w => Sys2Proof.Machine.execBfppackScale w s
  | .bfppack w => Sys2Proof.Machine.execBfppack w s
  | .bfpunpk w => Sys2Proof.Machine.execBfpunpk w s
  | .fdot2 w => Sys2Proof.Machine.execFdot2 w s
  | .fdot4 w => Sys2Proof.Machine.execFdot4 w s
  | .lanesel w => Sys2Proof.Machine.execLanesel w s
  | .qswap w => Sys2Proof.Machine.execQswap w s
  | .qbcast w => Sys2Proof.Machine.execQbcast w s
  | .vote w => Sys2Proof.Machine.execVote w s
  | .red w => Sys2Proof.Machine.execRed w s
  | .scanx w => Sys2Proof.Machine.execScanx w s
  | .matchLanes w => Sys2Proof.Machine.execMatchLanes w s
  | .elect w => Sys2Proof.Machine.execElect w s
  | .rclaim w => Sys2Proof.Machine.execRclaim w s
  | .rgive w => Sys2Proof.Machine.execRgive w s
  | .rtry w => Sys2Proof.Machine.execRtry w s
  | .rcount w => Sys2Proof.Machine.execRcount w s
  | .ld w => Sys2Proof.Machine.execLd w s
  | .st w => Sys2Proof.Machine.execSt w s
  | .ldt w => Sys2Proof.Machine.execLdt w s
  | .ldtCompletion op => Sys2Proof.Machine.execLdtCompletion op s
  | .ldtHoldExpiry cluster page => Sys2Proof.Machine.execLdtHoldExpiry cluster page s
  | .atom w => Sys2Proof.Machine.execAtom w s
  | .atomcas w => Sys2Proof.Machine.execAtomcas w s
  | .redm w => Sys2Proof.Machine.execRedm w s
  | .stmc w => Sys2Proof.Machine.execStmc w s
  | .strd w => Sys2Proof.Machine.execStrd w s
  | .pref w => Sys2Proof.Machine.execPref w s
  | .ldacq w => Sys2Proof.Machine.execLdacq w s
  | .strel w => Sys2Proof.Machine.execStrel w s
  | .remotePromotionRequest acquirer cell scope => Sys2Proof.Machine.execRemotePromotionRequest acquirer cell scope s
  | .fence w => Sys2Proof.Machine.execFence w s
  | .sigclr w => Sys2Proof.Machine.execSigclr w s
  | .walk w => Sys2Proof.Machine.execWalk w s
  | .shelfReaderLine op => Sys2Proof.Machine.execShelfReaderLine op s
  | .walkCompletion op => Sys2Proof.Machine.execWalkCompletion op s
  | .cinv w => Sys2Proof.Machine.execCinv w s
  | .wait w => Sys2Proof.Machine.execWait w s
  | .waitConditionMet g => Sys2Proof.Machine.execWaitConditionMet g s
  | .waitTimeout g => Sys2Proof.Machine.execWaitTimeout g s
  | .flagrd w => Sys2Proof.Machine.execFlagrd w s
  | .flagrdCnt w => Sys2Proof.Machine.execFlagrdCnt w s
  | .boinit w => Sys2Proof.Machine.execBoinit w s
  | .boarr w => Sys2Proof.Machine.execBoarr w s
  | .boread w => Sys2Proof.Machine.execBoread w s
  | .time w => Sys2Proof.Machine.execTime w s
  | .cycle w => Sys2Proof.Machine.execCycle w s
  | .cpy w => Sys2Proof.Machine.execCpy w s
  | .cpymc w => Sys2Proof.Machine.execCpymc w s
  | .copyUnitWrite op unit => Sys2Proof.Machine.execCopyUnitWrite op unit s
  | .copyCompletion op => Sys2Proof.Machine.execCopyCompletion op s
  | .copyDrainExpiry op => Sys2Proof.Machine.execCopyDrainExpiry op s
  | .rltStallResume g => Sys2Proof.Machine.execRltStallResume g s
  | .rangeLockConflictStart op => Sys2Proof.Machine.execRangeLockConflictStart op s
  | .cbres w => Sys2Proof.Machine.execCbres w s
  | .cbcommit w => Sys2Proof.Machine.execCbcommit w s
  | .cbacq w => Sys2Proof.Machine.execCbacq w s
  | .cbrel w => Sys2Proof.Machine.execCbrel w s
  | .cbinit w => Sys2Proof.Machine.execCbinit w s
  | .lkqPush w => Sys2Proof.Machine.execLkqPush w s
  | .lkqLen w => Sys2Proof.Machine.execLkqLen w s
  | .cpyq w => Sys2Proof.Machine.execCpyq w s
  | .cpyqCompletion op => Sys2Proof.Machine.execCpyqCompletion op s
  | .tcfgw w => Sys2Proof.Machine.execTcfgw w s
  | .tcfgr w => Sys2Proof.Machine.execTcfgr w s
  | .tload w => Sys2Proof.Machine.execTload w s
  | .tstore w => Sys2Proof.Machine.execTstore w s
  | .tzero w => Sys2Proof.Machine.execTzero w s
  | .tzeroM w => Sys2Proof.Machine.execTzeroM w s
  | .mma w => Sys2Proof.Machine.execMma w s
  | .mmas w => Sys2Proof.Machine.execMmas w s
  | .mmbfp w => Sys2Proof.Machine.execMmbfp w s
  | .engineRoundDeferredIssue block cv => Sys2Proof.Machine.execEngineRoundDeferredIssue block cv s
  | .engineOpCompletion core => Sys2Proof.Machine.execEngineOpCompletion core s
  | .accrd w => Sys2Proof.Machine.execAccrd w s
  | .accwr w => Sys2Proof.Machine.execAccwr w s
  | .tokgive w => Sys2Proof.Machine.execTokgive w s
  | .toktake w => Sys2Proof.Machine.execToktake w s
  | .toktakeCompletion op => Sys2Proof.Machine.execToktakeCompletion op s
  | .cvdecl w => Sys2Proof.Machine.execCvdecl w s
  | .cvq w => Sys2Proof.Machine.execCvq w s
  | .twinComparatorReading core t0 t1 => Sys2Proof.Machine.execTwinComparatorReading core t0 t1 s
  | .twinSwapComplete core => Sys2Proof.Machine.execTwinSwapComplete core s
  | .capq w => Sys2Proof.Machine.execCapq w s
  | .sread w => Sys2Proof.Machine.execSread w s
  | .swrite w => Sys2Proof.Machine.execSwrite w s
  | .eret w => Sys2Proof.Machine.execEret w s
  | .pmack w => Sys2Proof.Machine.execPmack w s
  | .leaseq w => Sys2Proof.Machine.execLeaseq w s
  | .boost w => Sys2Proof.Machine.execBoost w s
  | .boostQuery w => Sys2Proof.Machine.execBoostQuery w s
  | .boostRelease w => Sys2Proof.Machine.execBoostRelease w s
  | .pricls w => Sys2Proof.Machine.execPricls w s
  | .fevq w => Sys2Proof.Machine.execFevq w s
  | .tlbinv w => Sys2Proof.Machine.execTlbinv w s
  | .tlbinvAsid w => Sys2Proof.Machine.execTlbinvAsid w s
  | .tlbinvCompletion op => Sys2Proof.Machine.execTlbinvCompletion op s
  | .hcall w => Sys2Proof.Machine.execHcall w s
  | .pageWalkCompletion walk => Sys2Proof.Machine.execPageWalkCompletion walk s
  | .directoryRequest core pline write bytes => Sys2Proof.Machine.execDirectoryRequest core pline write bytes s
  | .hostCxlCacheWrite sector mask data => Sys2Proof.Machine.execHostCxlCacheWrite sector mask data s
  | .hostCxlMemAccess pline write poison mask data => Sys2Proof.Machine.execHostCxlMemAccess pline write poison mask data s
  | .llcCapacityRetirement cacheChip => Sys2Proof.Machine.execLlcCapacityRetirement cacheChip s
  | .pageHomeMove launch => Sys2Proof.Machine.execPageHomeMove launch s
  | .createSet => Sys2Proof.Machine.execCreateSet s
  | .setCreateComplete => Sys2Proof.Machine.execSetCreateComplete s
  | .deleteSet => Sys2Proof.Machine.execDeleteSet s
  | .retireChannel own => Sys2Proof.Machine.execRetireChannel own s
  | .retireStack => Sys2Proof.Machine.execRetireStack s
  | .setHold => Sys2Proof.Machine.execSetHold s
  | .retirementResume => Sys2Proof.Machine.execRetirementResume s
  | .driftLineTake engine => Sys2Proof.Machine.execDriftLineTake engine s
  | .driftLineDataArrival engine line => Sys2Proof.Machine.execDriftLineDataArrival engine line s
  | .driftLineLand engine line => Sys2Proof.Machine.execDriftLineLand engine line s
  | .scrubRead pline => Sys2Proof.Machine.execScrubRead pline s
  | .phyRecalibration channel => Sys2Proof.Machine.execPhyRecalibration channel s
  | .phyRecalibrationEnd channel => Sys2Proof.Machine.execPhyRecalibrationEnd channel s
  | .packetArrival flight => Sys2Proof.Machine.execPacketArrival flight s
  | .nackArrival nack => Sys2Proof.Machine.execNackArrival nack s
  | .ringInjection station ring => Sys2Proof.Machine.execRingInjection station ring s
  | .replayEntryExpiry station => Sys2Proof.Machine.execReplayEntryExpiry station s
  | .packetPromotion station => Sys2Proof.Machine.execPacketPromotion station s
  | .fabricPacketArrival flight => Sys2Proof.Machine.execFabricPacketArrival flight s
  | .forwardingEntryExpiry slot => Sys2Proof.Machine.execForwardingEntryExpiry slot s
  | .balanceEvaluation slot pair iLo iHi => Sys2Proof.Machine.execBalanceEvaluation slot pair iLo iHi s
  | .droopTrip cluster mv => Sys2Proof.Machine.execDroopTrip cluster mv s
  | .droopStretchEnd cluster => Sys2Proof.Machine.execDroopStretchEnd cluster s
  | .droopHoldEnd cluster => Sys2Proof.Machine.execDroopHoldEnd cluster s
  | .thermalCheck => Sys2Proof.Machine.execThermalCheck s
  | .railCurrentSample mA => Sys2Proof.Machine.execRailCurrentSample mA s
  | .boostLeaseExpiry block => Sys2Proof.Machine.execBoostLeaseExpiry block s
  | .pstpFrame nbits frame => Sys2Proof.Machine.execPstpFrame nbits frame s
  | .pstpTimeout => Sys2Proof.Machine.execPstpTimeout s
  | .packagePowerSample watts => Sys2Proof.Machine.execPackagePowerSample watts s
  | .floodRestore => Sys2Proof.Machine.execFloodRestore s
  | .shedWindowExpiry cohort => Sys2Proof.Machine.execShedWindowExpiry cohort s
  | .curveCommit => Sys2Proof.Machine.execCurveCommit s
  | .pmbusReadPstpStat => Sys2Proof.Machine.execPmbusReadPstpStat s
  | .pmbusReadCatalogue28 => Sys2Proof.Machine.execPmbusReadCatalogue28 s
  | .pmbusReadPower => Sys2Proof.Machine.execPmbusReadPower s
  | .doorbell q v => Sys2Proof.Machine.execDoorbell q v s
  | .qctlStop q => Sys2Proof.Machine.execQctlStop q s
  | .qctlResume q => Sys2Proof.Machine.execQctlResume q s
  | .qctlKill q => Sys2Proof.Machine.execQctlKill q s
  | .nopPacket q => Sys2Proof.Machine.execNopPacket q s
  | .launchPacket q => Sys2Proof.Machine.execLaunchPacket q s
  | .fencePacket q => Sys2Proof.Machine.execFencePacket q s
  | .fenceCounterTest q => Sys2Proof.Machine.execFenceCounterTest q s
  | .fenceTimeout q => Sys2Proof.Machine.execFenceTimeout q s
  | .signalPacket q => Sys2Proof.Machine.execSignalPacket q s
  | .signalPerform q => Sys2Proof.Machine.execSignalPerform q s
  | .graphPacket q => Sys2Proof.Machine.execGraphPacket q s
  | .barrierAndPacket q => Sys2Proof.Machine.execBarrierAndPacket q s
  | .leaseResidency launch => Sys2Proof.Machine.execLeaseResidency launch s
  | .translationReady launch => Sys2Proof.Machine.execTranslationReady launch s
  | .cohortPlacement cohort slot cores => Sys2Proof.Machine.execCohortPlacement cohort slot cores s
  | .launchCompletion launch => Sys2Proof.Machine.execLaunchCompletion launch s
  | .taskStreamerMove cohort slot cores => Sys2Proof.Machine.execTaskStreamerMove cohort slot cores s
  | .preemptionRequest cohort => Sys2Proof.Machine.execPreemptionRequest cohort s
  | .asyncTrapDelivery g => Sys2Proof.Machine.execAsyncTrapDelivery g s
  | .pmackTimeout cohort => Sys2Proof.Machine.execPmackTimeout cohort s
  | .cohortRestore cohort slot cores => Sys2Proof.Machine.execCohortRestore cohort slot cores s
  | .negotiateFeatures => Sys2Proof.Machine.execNegotiateFeatures s
  | .loadQueueContext => Sys2Proof.Machine.execLoadQueueContext s
  | .updateConfigurationImage => Sys2Proof.Machine.execUpdateConfigurationImage s
  | .fenceChipletForService => Sys2Proof.Machine.execFenceChipletForService s
  | .setErrorRing => Sys2Proof.Machine.execSetErrorRing s
  | .registerWrite offset v => Sys2Proof.Machine.execRegisterWrite offset v s
  | .coreWatchdogExpiry core => Sys2Proof.Machine.execCoreWatchdogExpiry core s
  | .chipletFence slot => Sys2Proof.Machine.execChipletFence slot s
  | .chipletPowerOff slot => Sys2Proof.Machine.execChipletPowerOff slot s
  | .spareMapIn slot logical => Sys2Proof.Machine.execSpareMapIn slot logical s
  | .correctedErrorReport channel => Sys2Proof.Machine.execCorrectedErrorReport channel s
  | .scaleupPortDown port => Sys2Proof.Machine.execScaleupPortDown port s
  | .scaleupPortUp port => Sys2Proof.Machine.execScaleupPortUp port s
  | .packageReset => Sys2Proof.Machine.execPackageReset s
  | .scaleupPeerAccess peer offset kind size data => Sys2Proof.Machine.execScaleupPeerAccess peer offset kind size data s
  | .fatalBoundaryError node => Sys2Proof.Machine.execFatalBoundaryError node s
  | .mailboxInvalidCommand => Sys2Proof.Machine.execMailboxInvalidCommand s

end Sys2Proof.Machine
end

