-- ==== Sys2Proof/Machine/Agenda.lean ====
section
/-! DEFINITION. What happens next: the agenda of events that follow at once, and otherwise a free choice among
everything that may happen (log 1); and the place of a word that is to issue next (log 17). -/

namespace Sys2Proof

/-- The next happening where none follows at once: a free value for each step (log 1). -/
opaque Config.environment (choice : Nat) : Machine.Event

namespace Machine

/-- What a step does. -/
inductive Turn where
  /-- It performs an instruction word or an event. -/
  | run (i : Instr) (s : State)
  /-- It performs nothing of the opcode table. -/
  | quiet (s : State)
  /-- The package has stopped (01 R10). -/
  | dead
  deriving DecidableEq, Repr

namespace State

/-- The event that comes next, and the state without it. -/
def nextEvent (s : State) : Event × State :=
  match s.agenda with
  | [] => (Config.environment s.choice, { s with choice := s.choice + 1 })
  | e :: t => (e, { s with agenda := t, choice := s.choice + 1 })

/-- The package goes on after a fatal error only by a package reset (01 R10). -/
def stops (s : State) (e : Event) : Bool := s.dead && e != .op .packageReset

/-- The launch that stands for a load of one word (log 17): one cohort of one block of one group, privileged, with every
register, tile and accumulator. -/
def loadLaunch : Launch :=
  { record := [0, 0, 0, 1, 0x100010020, 0x1084000078] ++ List.replicate 10 0
    queue := 0, aspace := 0, system := true, recId := 0, leases := [], leaseBad := false, moves := [], movesBad := false
    object := [], kent := [], entry := 0x10000, segments := []
    translated := false, text := (0x10000, 0x10000), code := [], stage := .running, status := none, order := 0
    placed := 1, ahead := [], again := [], ended := 0, counters := List.replicate 28 0, posted := [], graph := none, killed := false
    copies := [] }

/-- A clause of one word in progress, all lanes in its issue set. -/
def loadRun (x : W64) : Run :=
  let cls := match fields x with
    | some i => ((shape i).bind Shape.cls).getD 0
    | none => 0
  { caddr := 0x10000, header := BitVec.ofNat 64 (0xC0000000 + cls), words := [x], idx := 0, set := lanes32, served := true
    since := 0, passes := some 1, yh := false, yielded := false, asked := [] }

/-- A block of one group, at block barrier reset (04 R119). -/
def loadBlock : Block :=
  { cohort := 1, index := 0, core := 0, gslots := [0], barriers := List.replicate 16 ⟨false, .unset, []⟩, pool := []
    forming := [], conv := List.replicate 8 ⟨[], [], none⟩, tiles := [], tcfg := List.replicate 16 0, accs := []
    vectorTokens := [], scratch := [], hwm := 0, bufq := [], boostUntil := none, boostBank := 0, boostNote := 0, image := 0 }

/-- The state with a word as the next word of the only clause in progress, and its issue next. -/
def loadWord (s : State) (x : W64) : State :=
  let lanes := List.replicate 32 (Thread.start 0x10000)
  let g := { Group.fresh 1 0 0 120 0 lanes [] false with run := some (loadRun x) }
  let s := (s.setLaunch 1 loadLaunch).setCohort 1
    { launch := 1, number := 0, chip := 0, blocks := [1], state := .running, lastMove := none }
  let s := (s.setBlock 1 loadBlock).setGroup 32 g
  let s := s.modChiplet 0 fun c => { c with power := .active }
  let s := s.modCluster 0 fun c => { c with stopped := false }
  let s := s.modCore 0 fun c => { c with quotas := [⟨1, 1024, 48, 262144, []⟩]
                                         slots := c.slots.modify 0 fun x => { x with cur := some 32, freeAt := 0 } }
  { s with fresh := max 2 s.fresh, features := BitVec.allOnes 128, negotiated := true, agenda := [.issue 32], dead := false
           issuing := none }

end State

end Machine

end Sys2Proof
end

