-- ==== Sys2Proof/Machine/World.lean ====
section
/-! DEFINITION. What happens outside the opcode table, the passing of time among it, and one turn of the package. -/

namespace Sys2Proof.Machine

namespace State

/-! ## Time (04 R102, 07 R204, R205, 15 R397, R403, log 8) -/

/-- The length of an arithmetic cycle of a cluster in time units: stretched, boosted or nominal. -/
def cycleLen (s : State) (k : Nat) : Nat :=
  match (s.cluster k).droop with
  | .stretch _ _ => 68
  | _ => if s.boosted k then 30 else 34

/-- The time until a stretch or a hold of a cluster has run its cycles. -/
def droopLeft (s : State) (k : Nat) : Option Nat :=
  let c := s.cluster k
  match c.droop with
  | .idle => none
  | .stretch n _ | .hold n => some (n * s.cycleLen k - c.phase)

/-- A cluster after some time. -/
def runCluster (s : State) (k n : Nat) : State :=
  let l := s.cycleLen k
  s.modCluster k fun c =>
    let d := (c.phase + n) / l
    { c with cycles := c.cycles + d, phase := (c.phase + n) % l
             droop := match c.droop with
               | .idle => .idle
               | .stretch m h => .stretch (m - d) h
               | .hold m => .hold (m - d) }

/-- A group after some time: its wait count, where it was ready throughout, and the DL delay of its next word. -/
def waited (s : State) (e : Nat × Group) (n : Nat) : Group :=
  match s.block? e.2.block with
  | none => e.2
  | some b =>
    let k := clusterOf b.core
    let d := ((s.cluster k).phase + n) / s.cycleLen k
    let g := if ready s e.1 then { e.2 with waitCount := e.2.waitCount + d } else e.2
    { g with run := g.run.map fun r => r.begun ((s.cluster k).cycles + d) (passCount (s.cluster k)) }

/-- Time passes; no stretch or hold ends in it. -/
def pass (s : State) (n : Nat) : State :=
  let groups := s.groups.map fun e => (e.1, s.waited e n)
  let ks := (List.range 216).filter fun k => (s.chiplet (clusterSlot k)).power == .active
  let t := ks.foldl (fun (t : State) k => t.runCluster k n) s
  let cores := s.cores.map fun e => (e.1, { e.2 with unissued := if s.coreReady e.1 then e.2.unissued + n else 0 })
  { t with groups := groups, cores := cores, now := s.now + n }.passWaits n

/-- What changes the length of a cluster's cycles as time passes, with the time left until it: the end of a stretch or a hold,
and the end of a boost lease (15 R397, R403, R407). -/
def cycleEnds (s : State) : List (Event × Nat) :=
  (s.clusters.filterMap fun e => (s.droopLeft e.1).map fun t => (match e.2.droop with
      | .stretch _ _ => Event.op (.droopStretchEnd e.1)
      | _ => Event.op (.droopHoldEnd e.1), t))
    ++ s.blocks.filterMap fun e => e.2.boostUntil.map fun t => (Event.op (.boostLeaseExpiry e.1), t - s.now)

/-- Time passes up to the first of the ends that change a cycle's length, which come next; the rest of the time follows. -/
def elapse (s : State) (n : Nat) : State :=
  match s.cycleEnds.foldl (fun (m : Option Nat) e => some (min e.2 (m.getD e.2))) none with
  | none => s.pass n
  | some t =>
    if n < t then s.pass n
    else
      let u := s.pass t
      { u with agenda := (s.cycleEnds.filter fun e => e.2 = t).map (·.1) ++ [Event.elapse (n - t)] ++ u.agenda }

/-! ## Errors in memory (13 R356, R370, R371) -/

/-- A stored line becomes uncorrectable; one whose data stands in the buffer of a Drift Engine is not stored. -/
def corruptLine (s : State) (pline : Nat) : State :=
  if !(s.transitOf pline).any (·.arrived) && (s.setOf (128 * pline)).isSome && isDevice (128 * pline)
      && !s.bad.contains pline then { s with bad := s.bad ++ [pline] }
  else s

/-- An error of a channel is corrected; past the limit the channel is to be retired. -/
def noteCorrected (s : State) (ch : Nat) : State :=
  let n := tgetD 0 s.correctedTotal ch + 1
  let s := { s with corrected := tset 0 s.corrected ch (tgetD 0 s.corrected ch + 1)
                    correctedTotal := tset 0 s.correctedTotal ch n }
  if s.imageUsed.errLimit < n then { s with agenda := s.agenda ++ [Event.op (.retireChannel (some ch))] } else s

/-- A happening that is no row of the opcode table. -/
def happen (e : Event) (s : State) : State :=
  match e with
  | .op _ | .issue _ => s
  | .elapse n => s.elapse n
  | .corrupt l => s.corruptLine l
  | .corrected c => s.noteCorrected c
  | .peerWrite pa data => if isPeer pa then s.memPut pa data else s
  | .peerExport p ranges => { s with peers := tput s.peers p ⟨ranges⟩ }
  | .codeFill c l => s.codeFill c l
  | .codeDrop c l => s.modCore c fun x => { x with icache := x.icache.filter fun y => y.pline != l }
  | .publish => s.publishWord
  | .barRead off => s.readBar off
  | .grant b => s.grantBuffers b 64
  | .offer st p => s.offerPacket st p
  | .consume st cls => s.consumePacket st cls
  | .systemLaunch words aspace serves =>
    let r := s.addLaunch words 2048 aspace true none
    ((r.1.beginTranslation r.2 serves).startStages r.2).enterPlacement
  | .selfTest t => { s with selfTest := t }
  | .pageMove pa home coh bias => { s with pageMoves := s.pageMoves ++ [(pa, home, coh, bias)] }

/-- What a held group brings about in its block, which counts it as blocked at a barrier: the pool, the barriers and the
deadlock test (04 R125, 05 R146, 15 R419). -/
def settleHeld (s : State) : State :=
  s.blocks.foldl (fun s e => if (s.groupsOf e.1).any fun g => g.2.shut then s.settle e.1 else s) s

/-- What follows at once from the step before: shed codes that are over return to 0 (15 R418), and blocks with held groups are
settled. -/
def caughtUp (s : State) : State := s.refreshShed.settleHeld

/-- The turn of a step: what follows at once from the one before, then the next event, and what it performs. A word of the
opcode map happens only as the issue of a group's clause. -/
def turn (s : State) : Turn :=
  let n := s.caughtUp.nextEvent
  if s.caughtUp.stops n.1 then .dead
  else
    match n.1 with
    | .op i => if (encode? i).isSome then .quiet n.2 else .run i n.2
    | .issue g =>
      match n.2.prepareIssue g with
      | some (t, i) => .run i t
      | none => .quiet n.2
    | e => .quiet (happen e n.2)

end State

end Sys2Proof.Machine
end

