-- ==== Sys2Proof/Machine/Step.lean ====
section
/-! DEFINITION. One step of the package, and where the next instruction is placed. -/

namespace Sys2Proof.Machine

/-- One step: the next event happens; a word issues when its group's clause lets it (log 1). -/
def step (s : State) : Host.Outcome State Fault Refusal :=
  match s.turn with
  | .run i t => exec i t
  | .quiet t => .next t
  | .dead => .fault .packageFatal

/-- The state with a word of `nbits` bits, the bits above them 0, as the word that issues next (log 17). -/
def State.withFetchWord (s : State) (nbits w : Nat) : State := s.loadWord (BitVec.ofNat 64 (w % 2 ^ nbits))

end Sys2Proof.Machine
end

