-- ==== Sys2Proof/Safety.lean ====
section
/-! DEFINITION. What counts as a safe run, and the terms the statements are made in: a word at its issue, what its
completion leaves as it was, and what it writes. -/

namespace Sys2Proof.Machine

/-- Memory lists rising addresses, and no byte equal to what an unlisted address reads as. -/
abbrev Memory.wf (m : List Host.Cell) : Prop := canon (0 : Byte) m = true

/-- A step goes on. -/
def Safe (s : State) : Prop := ∃ t, step s = .next t

/-! ## A word at its issue -/

/-- Bits [63:52] of a word. -/
def schedOf (i : Instr) : Sched := ((shape i).map Shape.sched).getD ⟨0, 0, 0, 0, 0, 0⟩

/-- The group at its issue with its clause in progress. -/
def atIssue (s : State) : Option (Nat × Owner × Run) := do
  let gid ← s.issuing
  let o ← s.owner? gid
  let r ← o.g.run
  some (gid, o, r)

/-- The state in which the effect of word `i` begins: its slot is taken for its issue cycles. -/
def issued (i : Instr) (s : State) (gid : Nat) (o : Owner) (r : Run) : State :=
  ({ s with issuing := none } : State).occupy gid o r (opcodeOf i) ((schedOf i).yh == 1)

/-- The context of word `i`: its group, clause and Active lanes (04 R97, 02 R44). -/
def ctxOf (i : Instr) (s : State) (gid : Nat) (o : Owner) (r : Run) : Ctx :=
  let act := activeLanes o.g s.choice (schedOf i) r.set
  ⟨gid, o, { r with yh := r.yh || (schedOf i).yh == 1 }, schedOf i, act,
    act.filter fun j => o.g.handler || (o.g.lane j).st != .helper, s.choice⟩

/-- Word `i` issues: a group is at its issue with a clause in progress, and no rule of the word's checks is broken. Its
context, and the state in which its effect begins. -/
def issueOf (i : Instr) (s : State) : Option (Ctx × State) :=
  match atIssue s with
  | none => none
  | some (gid, o, r) =>
    match instrFault i ((issued i s gid o r).envOf o r.header r.idx) with
    | some _ => none
    | none => some (ctxOf i s gid o r, issued i s gid o r)

/-- Word `i` is turned away at its issue: the cause of the first rule broken. -/
def issueFault (i : Instr) (s : State) : Option (Cause × Nat × Owner × Run) :=
  match atIssue s with
  | none => none
  | some (gid, o, r) => (instrFault i ((issued i s gid o r).envOf o r.header r.idx)).map fun c => (c, gid, o, r)

/-! ## What a word's completion leaves as it was -/

/-- Every group but one and every core but one is as it was, and that core but for its issue slots. -/
structure Others (gid core : Nat) (s u : State) : Prop where
  groups : ∀ h, h ≠ gid → u.group? h = s.group? h
  cores : ∀ k, k ≠ core → u.core k = s.core k
  own : u.core core = { s.core core with slots := (u.core core).slots, unissued := (u.core core).unissued }

/-- A group but for its registers, its threads, its clause and its blocking point: its allocation, its flags, its
outstanding results and its trap registers are as they were. -/
def SameGroup (g h : Group) : Prop :=
  h = { g with regs := h.regs, lanes := h.lanes, run := h.run, blocked := h.blocked, saved := h.saved
               hsaved := h.hsaved, yieldTo := h.yieldTo, shedHold := h.shedHold }

/-- The word of clause `r` is done: the next word of the clause comes up, or the clause ends, and the live lanes of its
issue set go on where `jumps` says or else at the clause that follows (02 R29). -/
def WentOn (g : Group) (r : Run) (jumps : List (Nat × W64)) (h : Group) : Prop :=
  if r.idx + 1 < r.words.length then
    h.lanes = g.lanes ∧
      ∃ q, h.run = some q ∧ q.idx = r.idx + 1 ∧ q.caddr = r.caddr ∧ q.header = r.header ∧ q.words = r.words ∧ q.set = r.set
  else
    h.run = none ∧ h.blocked = none ∧ ∀ i, (h.lane i).pc =
      if i ∈ r.set ∧ (g.lane i).st = .live then (tget? jumps i).getD (nextClause r.caddr r.header) else (g.lane i).pc

/-- What register `r` of a lane gets from results `l` written from register `d` upward: nothing for d = 124, whose
writes are discarded (02 R40, R41). -/
def resultReg (d : BitVec 7) (l : List W32) (r : Nat) : Option W32 :=
  if d = 124 ∨ r < d.toNat ∨ 124 ≤ r then none else l[r - d.toNat]?

/-- What a word leaves whose own effect has come to state `b` and that then changes registers of its group only: the word
is done, with the lanes of `jumps` elsewhere; register `r` of lane `i` has what `f i` gives for it where the lane is
Active; and nothing else changes: no other group, no flag, no other register, no memory, no special register. -/
structure WroteFrom (c : Ctx) (b u : State) (jumps : List (Nat × W64)) (d : BitVec 7) (f : Nat → List W32) : Prop where
  rest : u = { b with groups := u.groups, cores := u.cores }
  others : Others c.gid c.core b u
  group : ∃ g, u.group? c.gid = some g ∧ SameGroup c.o.g g ∧ WentOn c.o.g c.r jumps g ∧
    ∀ i, i < 32 → ∀ r, g.reg i r = ((if i ∈ c.act then resultReg d (f i) r else none).getD (c.o.g.reg i r))

/-- Word `i` issues at `s`, completes, and its whole effect is to write `f` from register `d` in its Active lanes and to
send the lanes of `jumps` elsewhere. -/
def Completes (i : Instr) (s : State) (c : Ctx) (jumps : List (Nat × W64)) (d : BitVec 7) (f : Nat → List W32) : Prop :=
  ∃ u, exec i s = .next u ∧ WroteFrom c { s with issuing := none } u jumps d f

/-- Flags with one of them up by one. -/
def raised (fl : Option Nat) (l : List Nat) : List Nat :=
  match fl with
  | none => l
  | some f => l.set f (l.getD f 0 + 1)

/-- What a long-latency word leaves whose own effect at issue has come to state `b`: an operation is outstanding, the
word's flag is up by one, the results `l`, by register and lane, are pending, and the word is done; no register
changes yet (02 R26). -/
structure StartedFrom (c : Ctx) (b u : State) (kind : OpKind) (d : BitVec 7) (l : List (Nat × Option W32)) : Prop where
  rest : u = { b with groups := u.groups, cores := u.cores, ops := tput b.ops b.fresh (c.op kind d), fresh := b.fresh + 1 }
  others : Others c.gid c.core b u
  group : ∃ g, u.group? c.gid = some g ∧ g.regs = c.o.g.regs ∧ WentOn c.o.g c.r [] g ∧
    SameGroup { c.o.g with
      flags := raised c.flag c.o.g.flags
      pending := c.o.g.pending ++ (l.filter fun e => e.1 / 32 < 124).map fun e => ⟨e.1, b.fresh, e.2⟩ } g

/-- Word `i` issues at `s` and its whole effect is that `f` from register `d` in its Active lanes is outstanding. -/
def Starts (i : Instr) (s : State) (c : Ctx) (d : BitVec 7) (f : Nat → List W32) : Prop :=
  ∃ u, exec i s = .next u ∧ StartedFrom c { s with issuing := none } u .plain d
    (resultKeys d (c.act.map fun i => (i, (f i).map some)))

/-- The word is done at state `b`, which has all of its own effect: what comes next for its group is settled, and nothing
else changes. -/
structure MovedOn (c : Ctx) (b u : State) (jumps : List (Nat × W64)) : Prop where
  rest : u = { b with groups := u.groups, cores := u.cores }
  others : Others c.gid c.core b u
  group : ∃ g r h, b.group? c.gid = some g ∧ g.run = some r ∧ u.group? c.gid = some h ∧ SameGroup g h ∧
    h.regs = g.regs ∧ WentOn g r jumps h

/-- What a group holds at the start of a word's effect that then changes its threads only, lane by lane, with its clause `r`
(04 R92). -/
structure Threads (c : Ctx) (t b : State) (f : Nat → Thread → Thread) (r : Run := c.r) : Prop where
  rest : b = { t with groups := b.groups }
  groups : ∀ h, h ≠ c.gid → b.group? h = t.group? h
  group : ∃ g, b.group? c.gid = some g ∧ g = { c.o.g with lanes := g.lanes, run := some r } ∧
    ∀ i, i < c.o.g.lanes.length → i < 32 → g.lane i = f i (c.o.g.lane i)

/-! ## Traps (17 R450, R451) -/

/-- A group that enters its handler: the trap registers, the frames in k0 to k3 of the lanes of H, where those lanes
go, and that every other register, thread and field is as it was. -/
structure TrapTaken (s u : State) (gid : Nat) (o : Owner) (t : Trap) : Prop where
  rest : u = { s with groups := u.groups, cores := u.cores }
  others : Others gid o.b.core s u
  group : ∃ g, u.group? gid = some g ∧
    g.trapCause = BitVec.ofNat 64 t.code ∧ g.trapPc = t.pc ∧ g.trapCaddr = t.caddr ∧ g.trapFaddr = t.faddr ∧
    g.trapInfo = t.info ∧ g.trapSave = State.saveArea o ∧ g.handler = true ∧ g.run = none ∧ g.blocked = none ∧
    (∀ i, i ∈ g.hset ↔ i ∈ t.set ∧ i < 32) ∧
    (∀ i, i < 32 → ∀ r, g.reg i r =
      if i ∈ t.set then
        if r = 120 then t.resume.extractLsb' 0 32 else if r = 121 then t.resume.extractLsb' 32 32
        else if r = 122 then t.resumeClause.extractLsb' 0 32 else if r = 123 then t.resumeClause.extractLsb' 32 32
        else o.g.reg i r
      else o.g.reg i r) ∧
    (∀ i, i < o.g.lanes.length → i < 32 → g.lane i =
      if i ∈ t.set then { o.g.lane i with pc := s.trapVec, resume := none, st := .live, age := 0, served := false }
      else o.g.lane i) ∧
    g = { o.g with
      regs := g.regs, lanes := g.lanes, run := none, blocked := none, handler := true, hset := g.hset, entry := g.entry
      saved := g.saved, recorded := g.recorded, trapCause := g.trapCause, trapPc := g.trapPc, trapCaddr := g.trapCaddr
      trapFaddr := g.trapFaddr, trapInfo := g.trapInfo, trapSave := g.trapSave, hsaved := none }

/-- The trap of a word: its cause, its address and its clause, the resume point and the issue set. -/
def wordTrap (c : Ctx) (x : Cause) (resume : W64 × W64) : Trap :=
  ⟨x.code, c.pc, c.caddr, x.faddr, x.info, resume.1, resume.2, c.r.set⟩

/-- Word `i`, issued at `s`, traps: its group enters its handler with the cause, or, where the trap is terminal, its
launch ends as TRAPPED. -/
def Traps (i : Instr) (s t : State) (c : Ctx) (x : Cause) (resume : W64 × W64) : Prop :=
  (t.terminal c.o x.code = true → exec i s = .next (t.endLaunch c.lid 8 x.code)) ∧
  (t.terminal c.o x.code = false → ∃ u, exec i s = .next u ∧ TrapTaken t u c.gid c.o (wordTrap c x resume))

/-- The resume point of a trap at the word itself. -/
def Ctx.here (c : Ctx) : W64 × W64 := (c.pc, c.caddr)

/-! ## Branches (04 R107) -/

/-- A branch of the Active threads to `f`, with links in register `d`: each goes on at its target when the clause ends;
where a target is no multiple of 8 the word traps for the lowest such lane, and writes no link. -/
def BranchWord (i : Instr) (d : BitVec 7) (f : Ctx → Nat → W64) : Prop :=
  ∀ s c t, issueOf i s = some (c, t) →
    ((∀ l ∈ c.real, (f c l).toNat % 8 = 0) →
      Completes i s c (c.real.map fun l => (l, f c l)) d fun _ => [c.next.extractLsb' 0 32, c.next.extractLsb' 32 32]) ∧
    ∀ l, l ∈ c.real → (f c l).toNat % 8 ≠ 0 → (∀ k ∈ c.real, k < l → (f c k).toNat % 8 = 0) →
      Traps i s t c ⟨Cause.misaligned, f c l, f c l⟩ c.here

/-! ## Other ends of a word -/

/-- Word `i`, issued at `s`, waits at a blocking point: its slot is free, and its group keeps what it waits for (02 R24). -/
def Blocks (i : Instr) (s b : State) (c : Ctx) (k : Blocked) : Prop :=
  exec i s = .next (((b.freeSlot c.core c.gid).modGroup c.gid fun g => { g with blocked := some k }).settleGroup c.gid)

/-- Every meeting of a group whose threads are all held is released, and nothing else changes (04 R113). -/
def Released (g h : Group) : Prop :=
  h = { g with lanes := h.lanes } ∧ ∀ i, i < g.lanes.length → i < 32 → h.lane i =
    if g.handler = false ∧ (g.lane i).meet ≠ 0 ∧ (g.lane i).st = .held ∧
        ∀ j ∈ g.liveLanes, (g.lane j).meet = (g.lane i).meet → (g.lane j).st = .held
    then { g.lane i with st := .live, meet := 0 } else g.lane i

/-- SUCC and SUCCX with successors `f`, none for an exit (04 R122 to R124, 05 R134). -/
def SuccessorWord (i : Instr) (s t : State) (c : Ctx) (f : Nat → Option W64) : Prop :=
  let r := t.moveLanes c.gid (c.real.map fun l => (l, f l))
  (c.o.g.flagsClear = false → Blocks i s t c .flags) ∧
  (c.o.g.flagsClear = true → c.o.g.alloc ≠ c.o.l.regs → Traps i s t c (Cause.operand c.o.g.alloc) c.here) ∧
  (∀ n, c.o.g.flagsClear = true → c.o.g.alloc = c.o.l.regs → c.arrivedAt = some n →
    Traps i s t c (Cause.misuse n) c.here) ∧
  (c.o.g.flagsClear = true → c.o.g.alloc = c.o.l.regs → c.arrivedAt = none →
    (∀ l ∈ c.real, ∀ v, f l = some v → v.toNat % 8 = 0) →
    (r.2 = [] → ∃ u, exec i s = .next (u.settleGroup c.gid) ∧ MovedOn c r.1 u []) ∧
    (r.2 ≠ [] → Blocks i s r.1 c (.pool r.2)))

/-- No change of its block is due but the deadlock test: no formed group may take a slot (04 R126), no group has ended (R110),
the pool admits no thread that waits (R124), no flush is due (R125) and no barrier's phase is complete (R121). -/
structure State.Quiet (s : State) (bid : Nat) (b : Block) : Prop where
  slots : (∀ f ∈ b.forming, f.slot ≠ none) ∨ s.emptySlot bid b = none
  ends : ∀ e ∈ s.groupsOf bid, e.2.ended = false
  pool : ∀ e ∈ s.groupsOf bid, ∀ l, e.2.blocked = some (.pool l) →
    ∃ i v t, l = (i, some v) :: t ∧ 8 ≤ b.pool.length ∧ ∀ x ∈ b.pool, x.succ ≠ v
  flush : s.flushDue bid b = false
  barriers : ∀ i, i < 16 → s.barrierDone bid b (b.barriers.getD i ⟨false, .unset, []⟩) = false

/-- The group may arrive at barrier `n` in mode `m`, and `b` is the state after its arrival (04 R120). -/
def Arrives (c : Ctx) (t : State) (a : Src) (n : Nat) (m : BarMode) (b : State) : Prop :=
  c.barMode a = some m ∧ c.whole = true ∧ c.o.g.slot ∉ (c.barrier n).arrived ∧
  ((c.barrier n).mode = .unset ∨ (c.barrier n).mode = m) ∧
  b = c.hold (t.modBlock c.bid fun x => { x with
    barriers := x.barriers.set n { c.barrier n with mode := m, arrived := insertNat c.o.g.slot (c.barrier n).arrived } })

/-- A group whose allocation has grown by `n` registers, which read 0 (05 R133, R141). -/
def Grown (c : Ctx) (n : Nat) (g : Group) : Prop :=
  g = { c.o.g with run := some c.r, alloc := c.o.g.alloc + n, regs := g.regs } ∧
  ∀ i, i < 32 → ∀ r, g.reg i r = if c.o.g.alloc ≤ r ∧ r < c.o.g.alloc + n then 0 else c.o.g.reg i r

/-- A group out of handler mode, its clause ended, with its threads where `place` says (17 R454). -/
structure Returned (c : Ctx) (t u : State) (place : Nat → W64 × Option W64) : Prop where
  rest : u = { t with groups := u.groups, cores := u.cores }
  others : Others c.gid c.core t u
  group : ∃ g, u.group? c.gid = some g ∧ g.handler = false ∧ g.run = none ∧ g.blocked = none ∧ g.regs = c.o.g.regs ∧
    g.flags = c.o.g.flags ∧ g.pending = c.o.g.pending ∧ g.alloc = c.o.g.alloc ∧
    ∀ i, ((g.lane i).pc, (g.lane i).resume) = place i

/-! ## Elements of results -/

/-- Element `k` of a number, of `n` bits (02 R49). -/
def elemOf (n k x : Nat) : Nat := x / 2 ^ (n * k) % 2 ^ n

/-- Registers as one number, the first the lowest (00 R3). -/
def numOf (l : List W32) : Nat := l.foldr (fun r a => r.toNat + 2 ^ 32 * a) 0

/-- Registers of the width of type `t` whose element `k` is `g k`. -/
def Elementwise (t : Nat) (l : List W32) (g : Nat → Nat) : Prop :=
  l.length = tyRegs t ∧ ∀ k, k < tyElems t → elemOf (tyBits t) k (numOf l) = g k

/-- Element `k` of an operand in a lane, as a number of its width and as an integer of its type (03 R62). -/
def Ctx.el (c : Ctx) (t : Nat) (f : Src) (i k : Nat) : Nat := elemOf (tyBits t) k (c.opnd t f i)
def Ctx.elInt (c : Ctx) (t : Nat) (f : Src) (i k : Nat) : Int := elemInt t (c.el t f i k)

/-- Every word of a form issues, completes, and writes in each Active lane, from D, elements that are `g` of the word,
its context, the lane and the element's number; its whole effect. -/
def ElemWord (mk : VWord → Instr) (g : VWord → Ctx → Nat → Nat → Nat) : Prop :=
  ∀ w s c t, issueOf (mk w) s = some (c, t) →
    ∃ f, Completes (mk w) s c [] w.d f ∧ ∀ i ∈ c.act, Elementwise w.ty (f i) (g w c i)

/-- The same of a long-latency form whose flag can rise. -/
def ElemLong (mk : VWord → Instr) (g : VWord → Ctx → Nat → Nat → Nat) : Prop :=
  ∀ w s c t, issueOf (mk w) s = some (c, t) → c.full = none →
    ∃ f, Starts (mk w) s c w.d f ∧ ∀ i ∈ c.act, Elementwise w.ty (f i) (g w c i)

/-- Every word of a form issues, completes, and writes `f` from D in each Active lane; its whole effect. -/
def WordV (mk : VWord → Instr) (f : VWord → Ctx → Nat → List W32) : Prop :=
  ∀ w s c t, issueOf (mk w) s = some (c, t) → Completes (mk w) s c [] w.d (f w c)

/-- The same of a form in I format. -/
def WordI (mk : IWord → Instr) (f : IWord → Ctx → Nat → List W32) : Prop :=
  ∀ w s c t, issueOf (mk w) s = some (c, t) → Completes (mk w) s c [] w.d (f w c)

/-- Every word of a short-latency float form issues, completes, counts the events of `f` and writes its registers. -/
def FloatWord (mk : VWord → Instr) (f : VWord → Ctx → Nat → FpLane) : Prop :=
  ∀ w s c t, issueOf (mk w) s = some (c, t) →
    ∃ u, exec (mk w) s = .next u ∧
      WroteFrom c (c.countLanes t w.d (c.act.map fun i => (i, f w c i))) u [] w.d fun i => (f w c i).1

/-- The same of a long-latency float form whose flag can rise. -/
def FloatLong (mk : VWord → Instr) (f : VWord → Ctx → Nat → FpLane) : Prop :=
  ∀ w s c t, issueOf (mk w) s = some (c, t) → c.full = none →
    ∃ u, exec (mk w) s = .next u ∧
      StartedFrom c (c.countLanes t w.d (c.act.map fun i => (i, f w c i))) u .plain w.d
        (resultKeys w.d (c.act.map fun i => (i, (f w c i).1.map some)))

/-! ## The memory system -/

/-- From `s` to `u` nothing changes but the memory system: memory, the caches, the TLBs and the write-set filters, the owners of
host sectors and of lines the host holds, the tasks that released cells, the lines of channels in retirement, scratchpad bytes,
and the error records of uncorrectable lines. -/
structure OnlyMemory (s u : State) : Prop where
  rest : u = { s with
    blocks := u.blocks, cores := u.cores, clusters := u.clusters, chiplets := u.chiplets, mem := u.mem, llc := u.llc
    sectors := u.sectors, hostSectors := u.hostSectors, hostLines := u.hostLines, releasers := u.releasers
    retirements := u.retirements, bad := u.bad, spares := u.spares, agenda := u.agenda, errRing := u.errRing, msix := u.msix }
  blocks : ∀ b, ∃ x h, u.block? b = (s.block? b).map fun y => { y with scratch := x, hwm := h }
  cores : ∀ k, ∃ a f g, u.core k = { s.core k with l1 := a, filter := f, filterSat := g }
  clusters : ∀ k, ∃ t, u.cluster k = { s.cluster k with tlb := t }
  chiplets : ∀ p, ∃ t l, u.chiplet p = { s.chiplet p with tlb := t, l2 := l }

/-- The same, with the counts of floating-point events of launches and the records they post (03 R86, R89). -/
structure MemoryAndCounts (s u : State) : Prop where
  rest : u = { s with
    launches := u.launches, queues := u.queues, blocks := u.blocks, cores := u.cores, clusters := u.clusters
    chiplets := u.chiplets, mem := u.mem, llc := u.llc, sectors := u.sectors, hostSectors := u.hostSectors
    hostLines := u.hostLines, releasers := u.releasers, retirements := u.retirements, bad := u.bad
    spares := u.spares, agenda := u.agenda, errRing := u.errRing, msix := u.msix }
  launches : ∀ l, ∃ k p, u.launch? l = (s.launch? l).map fun y => { y with counters := k, posted := p }
  queues : ∀ q, ∃ n, u.queue q = { s.queue q with count := n }
  blocks : ∀ b, ∃ x h, u.block? b = (s.block? b).map fun y => { y with scratch := x, hwm := h }
  cores : ∀ k, ∃ a f g, u.core k = { s.core k with l1 := a, filter := f, filterSat := g }
  clusters : ∀ k, ∃ t, u.cluster k = { s.cluster k with tlb := t }
  chiplets : ∀ p, ∃ t l, u.chiplet p = { s.chiplet p with tlb := t, l2 := l }

/-- The group of a word as a party to accesses. -/
def Ctx.who (c : Ctx) (t : State) : Who := ⟨c.o.b.core, c.o.g.block, c.o.b.cohort, c.o.l.aspace, t.leasesOf c.o.l⟩

/-- A long-latency word that accesses memory, with the outcome of its checks and accesses: it stalls at a full flag
(02 R27); a failed check traps, with nothing performed; otherwise it is outstanding with its results, and `R` bounds what
its accesses have changed. -/
def LongWord (R : State → State → Prop) (i : Instr) (s t : State) (c : Ctx) (d : BitVec 7)
    (out : Except (Cause × State) (State × List (Nat × Option W32))) (kind : OpKind := .plain) : Prop :=
  (∀ f, c.full = some f → Blocks i s t c (.flagFull f)) ∧
  (c.full = none → match out with
    | .error (x, b) => OnlyMemory t b ∧ Traps i s b c x c.here
    | .ok (b, l) => R t b ∧ ∃ u, exec i s = .next u ∧ StartedFrom c b u kind d l)

/-- A word whose misses must wait, `v` holding the walks they join or wait for: its effect is left to a later issue of it, and
only the walks have changed (09 R247). -/
def WaitsForWalks (i : Instr) (s t v : State) : Prop :=
  exec i s = .next v ∧ v = { t with walks := v.walks, fresh := v.fresh }

/-- The same of a word that translates the addresses `vas`, whose misses may have to wait for walks (09 R247), and whose accesses
`busy` may hold back for an earlier copy of its group (08 R223, 18 R480): its effect is then left to a later issue of it, and it
is at its issue still. -/
def AccessWord (R : State → State → Prop) (vas : List Nat) (busy : Bool) (i : Instr) (s t : State) (c : Ctx) (d : BitVec 7)
    (out : Except (Cause × State) (State × List (Nat × Option W32))) (kind : OpKind := .plain) : Prop :=
  (∀ v, t.waitWalks c.core c.o.l.aspace vas = some v → WaitsForWalks i s t v) ∧
  (t.waitWalks c.core c.o.l.aspace vas = none →
    (busy = true → exec i s = .next t) ∧ (busy = false → LongWord R i s t c d out kind))

/-- A word with a memory side of rows at `rows`, whose misses may have to wait for walks (09 R247). -/
def SideWaits (i : Instr) (s t : State) (c : Ctx) (rows : List Nat) (n : Nat) (k : AccessKind) : Prop :=
  ∀ v, t.waitWalks c.core c.o.l.aspace (State.sideAddrs (c.who t) rows n k) = some v → WaitsForWalks i s t v

/-- The memory side of a word waits for no walk. -/
def SideReady (t : State) (c : Ctx) (rows : List Nat) (n : Nat) (k : AccessKind) : Prop :=
  t.waitWalks c.core c.o.l.aspace (State.sideAddrs (c.who t) rows n k) = none

/-- Byte `o` of block `k`'s scratchpad lies in an access of `n` bytes at a target. -/
def Covers (x : Option Target) (n k o : Nat) : Prop := ∃ p, x = some (.scr k p) ∧ p ≤ o ∧ o < p + n

/-- ATOM, ATOMCAS and REDM with the operation `f` of a lane on its old value, none where it writes nothing; `ret` for those
with results. The word of a group whose earlier copy holds the place back leaves its effect to a later issue (11 R310 to
R314, 08 R223, 09 R247, 18 R480). -/
def AtomicWord (i : Instr) (s t : State) (c : Ctx) (w : VWord) (ret : Bool) (f : Nat → Nat → Option Nat × List FpEvent) : Prop :=
  let n := 4 * tyRegs w.ty
  let a := atomAddr c w
  let g (i : Nat) (old : List Byte) : Option (List Byte) × List FpEvent :=
    ((f i (natOfBytes old)).1.map (bytesOfNat n), (f i (natOfBytes old)).2)
  AccessWord MemoryAndCounts (walkAddrs (c.who t) .rmw (c.realWants a n))
    (writesBusy c (c.who t) t .rmw ⟨true, true⟩ a n) i s t c (if ret then w.d else 127) (match writeTargets c (c.who t) t .rmw ⟨true, true⟩ a n with
    | ⟨b, .error x⟩ => .error (x, b)
    | ⟨b, .ok ts⟩ =>
      let r := syncWord c (c.who t) n w.a.xb.toNat (w.ebit 5) (w.ebit 6) (some g) (laneTargets c a ts) b
      .ok (r.s, if ret then resultKeys w.d (r.old.map fun e => (e.1, (bytesRegs e.2).map some)) else []))
    (if w.ebit 5 then .acquire else .plain)

/-! ## The loop of WAIT (07 R198) -/

/-- The descriptors met satisfy the mode of a loop. -/
def WaitLoop.Ends (x : WaitLoop) (met : List Nat) : Prop := if x.all then ∀ i, i < x.descs.length → i ∈ met else met ≠ []

/-- One turn of loop `x` makes it `y`: what holds is latched, and the loop is left, with its result, where its mode is
satisfied, and else where it `isLate`. -/
structure Turned (s : State) (o : Owner) (gid : Nat) (x y : WaitLoop) (isLate : Prop) : Prop where
  rest : y = { x with met := y.met, res := y.res }
  met : ∀ i, i ∈ y.met ↔ i ∈ x.met ∨ ∃ d, x.descs[i]? = some d ∧ s.descHolds o gid d = true
  ends : x.Ends y.met → y.res = some (laneMask y.met)
  late : ¬ x.Ends y.met → isLate → y.res = some (laneMask (y.met ++ [31]))
  goes : ¬ x.Ends y.met → ¬ isLate → y.res = none

/-- The timeout of a loop has passed at a reading of TIME. -/
def WaitLoop.Late (x : WaitLoop) (time : W64) : Prop := x.timeout ≠ 2 ^ 32 - 1 ∧ x.timeout ≤ (time - x.start).toNat

/-- An event `i` makes one turn of the loop of group `g`: what it leaves, and that the word goes on once the loop is left. -/
def TurnsWait (i : Instr) (s : State) (g : Nat) (timeout : Prop) : Prop :=
  ∀ o x, s.waiting g = some (o, x) → x.res = none → ∃ y,
    let v := s.reachCells o g x
    let p := v.modGroup g fun z => { z with blocked := some (.wait y) }
    OnlyMemory s v ∧ Turned v o g x y (timeout ∧ x.Late s.rt) ∧
      (y.res = none → exec i s = .next p) ∧
      (y.res ≠ none → exec i s = .next (resumeWord (p.clearWaited o.g.block y.objs) g fun _ _ => true))

/-! ## The end of an operation (02 R26) -/

/-- A flag list with one flag lower by one. -/
def lowered (fl : Option Nat) (l : List Nat) : List Nat :=
  match fl with
  | none => l
  | some f => l.set f (l.getD f 0 - 1)

/-- Operation `n` has come to its end from `s` to `b`: its pending values are in their registers and no others change, its
flag is down by one, and it is gone with its range-lock entries; nothing else changes. -/
structure Finished (s b : State) (n : Nat) (o : Op) : Prop where
  rest : b = { s with groups := b.groups, ops := tdel s.ops n, clusters := b.clusters }
  groups : ∀ h, h ≠ o.gid → b.group? h = s.group? h
  group : ∀ g, s.group? o.gid = some g → ∃ h, b.group? o.gid = some h ∧
    h = { g with regs := h.regs, flags := lowered o.flag g.flags, pending := g.pending.filter (·.op != n) } ∧
    (∀ key, (∀ p ∈ g.pending, p.op = n → p.key ≠ key) → tgetD 0 h.regs key = tgetD 0 g.regs key) ∧
    ∀ p ∈ g.pending, p.op = n → (∀ q ∈ g.pending, q.op = n → q.key = p.key → q = p) →
      tgetD 0 h.regs p.key = p.val.getD 0
  clusters : ∀ k, b.cluster k = { s.cluster k with locks := (s.cluster k).locks.filter fun x => x.2.op != n }

/-- An event ends operation `n` at `s`, with a status in D of its Active lanes where there is one. -/
def Ends (i : Instr) (s0 s : State) (n : Nat) (o : Op) (status : Option Nat) : Prop :=
  let t := match status with
    | none => s
    | some x => s.setResults n o.gid (o.act.map fun i => (32 * o.dest + i, BitVec.ofNat 32 x))
  ∃ b, exec i s0 = .next (b.settleGroup o.gid) ∧ Finished t b n o

/-- An engine word `i` with operands `vals` (12 R331 to R337): without SIGN its checks run and it enters its core's queue;
with SIGN it joins the round of a convergence register that has declared it and that it has not signed. -/
def EngineWord (i : Instr) (w : VWord) (vals : Ctx → Nat → List W32) : Prop :=
  ∀ s c t l, issueOf i s = some (c, t) → c.l0 = some l →
    let k := w.e.toNat % 8
    let e : EngineOp := ⟨i, c.bid, vals c l, [], 0, [t.fresh], false⟩
    let cv := c.o.b.conv.getD k ⟨[], [], none⟩
    let added := t.addOp (c.op .engine w.d) []
    (∀ f, c.full = some f → w.ebit 3 = false → Blocks i s t c (.flagFull f)) ∧
    (∀ x, c.full = none → w.ebit 3 = false → t.engineCheck e = .error x → Traps i s t c x c.here) ∧
    (∀ need, c.full = none → w.ebit 3 = false → t.engineCheck e = .ok need → added.pushEngine e need = none →
      Blocks i s t c (.rlt (need.locks.map (·.cluster)))) ∧
    (∀ need b, c.full = none → w.ebit 3 = false → t.engineCheck e = .ok need → added.pushEngine e need = some b →
      (∃ u, exec i s = .next u ∧ MovedOn c b u []) ∧
      (b.core c.core).engine = (t.core c.core).engine ++ [{ e with cfg := need.cfg, num := t.fresh + 1 }]) ∧
    (w.ebit 3 = true → c.o.g.slot ∉ cv.decl → Traps i s t c ⟨Cause.matrixMismatch, BitVec.ofNat 64 (k + 8), 0⟩ c.here) ∧
    (w.ebit 3 = true → c.o.g.slot ∈ cv.decl → c.o.g.slot ∈ cv.signed → Blocks i s t c (.sign k)) ∧
    (c.full = none → w.ebit 3 = true → c.o.g.slot ∈ cv.decl → c.o.g.slot ∉ cv.signed →
      let x := cv.sign c.o.g.slot t.fresh e
      let b := added.modBlock c.bid fun y => { y with conv := y.conv.set k x }
      (x.signed ≠ x.decl → ∃ u, exec i s = .next u ∧ MovedOn c b u []) ∧
      (∀ v, x.signed = x.decl → b.finishRound c.bid k = some v →
        exec i s = .next ((v.advance c.gid []).settleGroup c.gid)) ∧
      (x.signed = x.decl → b.finishRound c.bid k = none → Blocks i s t c (.rlt (t.engineTables e))))

/-- A TLBINV of `test` issues at `s`, completes and is outstanding; no TLB holds an entry of `test` any more, and nothing
but the memory system changes (09 R252). -/
def Invalidates (i : Instr) (s t : State) (c : Ctx) (d : BitVec 7) (test : InvTest) : Prop :=
  let b := t.removeEntries test.matches
  OnlyMemory t b ∧ (∃ u, exec i s = .next u ∧ StartedFrom c b u (.tlbinv (t.invWalks test) (t.invOps test) test.asid test.g test.lo test.hi) d []) ∧
    (∀ k, ∀ e ∈ (b.cluster k).tlb, test.matches e = false) ∧ ∀ p, ∀ e ∈ (b.chiplet p).tlb, test.matches e = false

/-- The bytes of a line that core `k` owns in a state of the directory. -/
def DirState.maskOf (d : DirState) (k : Nat) : BitVec 128 :=
  match d with
  | .o c m => if k = c then m else 0
  | .p l => tgetD 0 l k
  | _ => 0

/-- An operation of kind `kind` that takes range-lock entries, at the issue of word `i` whose effect has come to `b`: it
stalls where its entries cannot all be taken, and otherwise it is outstanding, held where an entry of its own conflicts with
one of an earlier operation (08 R213, R215). -/
def LockedWord (i : Instr) (s b : State) (c : Ctx) (d : BitVec 7) (kind : OpKind) (locks : List LockWant) : Prop :=
  (b.takeLocks b.fresh locks = none → Blocks i s b c (.rlt (locks.map (·.cluster)))) ∧
  ∀ t, b.takeLocks b.fresh locks = some t → ∃ u,
    StartedFrom c t u kind d (resultKeys d (c.act.map fun i => (i, [none]))) ∧
    exec i s = .next { u with ops := tput u.ops t.fresh { c.op kind d with held := t.lockWaits b.fresh } }

/-- A blocked group goes on: it takes its free slot, and its word is issued again next (02 R24). -/
structure Reissued (s u : State) (gid : Nat) (o : Owner) (b : Blocked) (r : Run) : Prop where
  rest : u = { s with groups := u.groups, cores := u.cores, agenda := .issue gid :: s.agenda }
  groups : ∀ h, h ≠ gid → u.group? h = s.group? h
  group : ∃ g, u.group? gid = some g ∧
    g = { o.g with blocked := none, run := some { r with served := b != Blocked.slot }, saved := g.saved, hsaved := g.hsaved }
  cores : ∀ k, k ≠ o.b.core → u.core k = s.core k
  slot : u.core o.b.core = { s.core o.b.core with
    slots := (s.core o.b.core).slots.modify o.g.islot fun y => { y with cur := some gid } }

/-- An event that reissues the word of a blocked group, where its wait is over, its slot is free and nothing is to be
delivered to it first. -/
def Reissues (i : Instr) (s : State) (gid : Nat) (isOver : Owner → Blocked → Prop) : Prop :=
  ∀ o b r, s.owner? gid = some o → o.g.blocked = some b → o.g.run = some r → isOver o b → undisturbed o.g = true →
    (s.slotOfGroup o).cur = none → (s.slotOfGroup o).freeAt ≤ (s.cluster (clusterOf o.b.core)).cycles →
    ∃ u, exec i s = .next u ∧ Reissued s u gid o b r

/-! ## The management controller's mailbox (13 R357, 18 R470) -/

/-- The mailbox record that is taken next, as memory and the caches hold it, where no set is being created and a valid
configuration image is in use. -/
def nextMail (s : State) : Option State.Mail :=
  match s.mailbox, s.creating with
  | a :: _, none =>
    if s.imageUsed.valid = true then
      some ⟨a.toNat, (List.range 8).map fun i => (s.cleanPhys a.toNat 64).homeWord (a.toNat + 8 * i)⟩
    else none
  | _, _ => none

/-- Mailbox command `op`, as event `i`: where the next record holds it and breaks no reserved bit, the record is taken and
`body` gives the state and the status that the record receives. -/
def Commands (i : Instr) (s : State) (op : Nat) (body : State.Mail → State → State → Nat → Prop) : Prop :=
  ∀ m, nextMail s = some m → m.opcode = op → m.rsv = false →
    ∀ u st, body m { s.cleanPhys m.addr 64 with mailbox := s.mailbox.tail } u st → exec i s = .next (u.mailEnd m st)

/-- The packet of type `type` that a running queue parses next: its words, and the state once it is parsed (16 R427). -/
def Parses (s : State) (q type : Nat) (t : State) (idx : W64) (w : List W64) : Prop :=
  s.parse q (fun x => x == type) = some (t, idx, w)

end Sys2Proof.Machine
end

