-- ==== Sys2Proof/WellFormed.lean ====
section
/-! DEFINITION. Well-formed instructions: a word whose fields its encoding tables accept (02 R55), and an
event whose parties exist in a package (01 R9, R12, 13 R351, 16 R424). -/

namespace Sys2Proof

/-- The parties of an event are numbers the package has. Words are not judged here. -/
def Instr.partiesOk : Instr → Bool
  | .clauseStart core islot => core < 864 && islot < 4
  | .ldtHoldExpiry cluster _ => cluster < 216
  | .remotePromotionRequest acq cell scope => acq < 864 && cell < 2 ^ 45 && scope ≤ 5
  | .engineRoundDeferredIssue _ cv => cv < 8
  | .engineOpCompletion core => core < 864
  | .twinComparatorReading core t0 t1 => core < 864 && t0 < 256 && t1 < 256
  | .twinSwapComplete core => core < 864
  | .directoryRequest core pline _ _ => core < 864 && pline < 2 ^ 45
  | .hostCxlCacheWrite sector _ _ => sector < 2 ^ 46
  | .hostCxlMemAccess pline _ _ _ _ => pline < 2 ^ 45
  | .llcCapacityRetirement c => c < 4
  | .retireChannel own => own.all (· < 256)
  | .driftLineTake e | .driftLineDataArrival e _ | .driftLineLand e _ => e < 4
  | .scrubRead pline => pline < 2 ^ 45
  | .phyRecalibration c | .phyRecalibrationEnd c | .correctedErrorReport c => c < 256
  | .replayEntryExpiry n | .packetPromotion n => n < 504
  | .ringInjection n r => n < 504 && r < 4
  | .forwardingEntryExpiry slot | .chipletFence slot | .chipletPowerOff slot => slot < 9
  | .balanceEvaluation slot pair _ _ => slot < 9 && pair < 12
  | .droopTrip cl _ | .droopStretchEnd cl | .droopHoldEnd cl => cl < 216
  | .doorbell q _ | .qctlStop q | .qctlResume q | .qctlKill q | .nopPacket q | .launchPacket q | .fencePacket q
  | .fenceCounterTest q | .fenceTimeout q | .signalPacket q | .signalPerform q | .graphPacket q
  | .barrierAndPacket q => q < 2048
  | .cohortPlacement _ slot cores | .taskStreamerMove _ slot cores | .cohortRestore _ slot cores =>
    slot < 9 && cores.all (· < 96)
  | .coreWatchdogExpiry core => core < 864
  | .spareMapIn slot logical => slot < 9 && logical < 8
  | .scaleupPortDown p | .scaleupPortUp p => p < 64
  | .scaleupPeerAccess peer off _ size _ =>
    peer < 1024 && off < 2 ^ 40 && (size == 1 || size == 2 || size == 4 || size == 8)
  | .fatalBoundaryError n => 9 ≤ n && n ≤ 15
  | _ => true

/-- An instruction is well-formed. -/
def Instr.wellFormed (i : Instr) : Bool :=
  match shape i with
  | some p => p.ok
  | none => i.partiesOk

/-- Well-formedness as a proposition. -/
abbrev Instr.WellFormed (i : Instr) : Prop := i.wellFormed = true

end Sys2Proof
end

