-- ==== Sys2Proof/Certificates/Slice0/Obligations.lean ====
section
/-! DEFINITION. The statements about the model. -/

open Sys2Proof Sys2Proof.Machine

/-! ## Encoding -/

/-- Words written out from the encodings of the spec (02 R36, R51 and "Worked encoding", 03, 04, 17) decode to the
instructions they stand for. -/
def Obligations.WrittenWordsDecode : Prop :=
  decodeWord 0x000FFF8408010890 = .ok (.ld ⟨⟨0, 0, 0, 0, 0, 0⟩, 0x1FFF0, 4, 4, ⟨0, 2⟩, 8⟩) ∧
  decodeWord 0x000003F90E040620 = .ok (.iadd ⟨⟨0, 0, 0, 0, 0, 0⟩, 0, ⟨0, 127⟩, ⟨1, 7⟩, ⟨0, 8⟩, 6⟩) ∧
  decodeWord 0x000FE3F8FE3FFF07 = .ok (.exit ⟨⟨0, 0, 0, 0, 0, 0⟩, 127, ⟨0, 127⟩, ⟨0, 127⟩, ⟨0, 127⟩, 127⟩) ∧
  decodeWord 0x00000000123FFF08 = .ok (.meet ⟨⟨0, 0, 0, 0, 0, 0⟩, 9, ⟨0, 127⟩, 127⟩) ∧
  decodeWord 0x003000000E3FFF02 = .ok (.bra ⟨⟨0, 0, 0, 0, 0, 3⟩, 7, ⟨0, 127⟩, 127⟩) ∧
  decodeWord 0x000200300A020A53 = .ok (.fma ⟨⟨0, 0, 0, 0, 0, 0⟩, 0x10, ⟨0, 6⟩, ⟨0, 5⟩, ⟨0, 4⟩, 10⟩) ∧
  decodeWord 0x000303F848102864 = .ok (.cvtf ⟨⟨0, 0, 0, 0, 0, 0⟩, 0x18, ⟨0, 127⟩, ⟨0, 36⟩, ⟨0, 32⟩, 40⟩) ∧
  decodeWord 0x000000000A3FFF13 = .ok (.trap ⟨⟨0, 0, 0, 0, 0, 0⟩, 5, ⟨0, 127⟩, 127⟩) ∧
  decodeWord 0 = .ok (.ill false 0)

/-- Every well-formed instruction that has a word is what its word decodes to: no bit of an operand is dropped and no
two instructions share a word (02 R35, R36, R51). -/
def Obligations.EncodedWordsDecodeBack : Prop :=
  ∀ i x, encode? i = some x → i.WellFormed → decodeWord x = .ok i

/-- Every word that decodes is the word of what it decodes to: the decoder ignores no bit (02 R36, R42, R53). -/
def Obligations.DecodedWordsEncodeBack : Prop :=
  ∀ x i, decodeWord x = .ok i → encode? i = some x

/-- A reserved opcode has no meaning, whatever the word's other bits (02 R53). -/
def Obligations.ReservedOpcodesRejected : Prop :=
  ∀ x : W64, (let op := opcode x
    (0x15 ≤ op ∧ op ≤ 0x1F) ∨ op = 0x4F ∨ (0x6D ≤ op ∧ op ≤ 0x7F) ∨ (0x8C ≤ op ∧ op ≤ 0x8F) ∨ op = 0x9F ∨
    (0xA7 ≤ op ∧ op ≤ 0xAF) ∨ (0xB9 ≤ op ∧ op ≤ 0xBF) ∨ (0xCE ≤ op ∧ op ≤ 0xDF) ∨ (0xEB ≤ op ∧ op ≤ 0xFE)) ↔
    decodeWord x = .error .illegalOpcode

/-! ## A step -/

/-- A step whose turn it is to issue the next word of a group's clause, where the group may issue, is the meaning of the
instruction that the word names, with the group at its issue: nothing else is added but what follows at once from the step
before, the event's leaving the agenda and the count of choices. What follows at once is the return of shed codes that are over
to 0 (15 R418) and what held groups bring about in their blocks (15 R419); with no held group, the codes alone. The model's own
reading here: log 1. -/
def Obligations.StepRunsTheIssuedWord : Prop :=
  (∀ (s : State) (gid : Nat) (rest : List Event) (o : Owner) (r : Run) (x : W64) (i : Instr),
    let t := s.caughtUp
    t.agenda = .issue gid :: rest → t.dead = false → t.owner? gid = some o → o.g.run = some r →
    r.words[r.idx]? = some x → decodeWord x = .ok i → t.mayIssue o r x gid = true →
    step s = exec i { t with agenda := rest, choice := t.choice + 1, issuing := some gid }) ∧
  (∀ s : State, (∀ e ∈ s.groups, e.2.shut = false) → s.caughtUp = s.refreshShed)

/-! ## Integer words -/

/-- The integer arithmetic of 06 R163 and R165, element by element: what each word writes, that it completes, and that
it changes nothing else. -/
def Obligations.IntegerArithmeticByElement : Prop :=
  ElemWord .iadd (fun w c i k => wrapInt (tyBits w.ty) (c.elInt w.ty w.a i k + c.elInt w.ty w.b i k)) ∧
  ElemWord .isub (fun w c i k => wrapInt (tyBits w.ty) (c.elInt w.ty w.a i k - c.elInt w.ty w.b i k)) ∧
  ElemWord .imul (fun w c i k => wrapInt (tyBits w.ty) (c.elInt w.ty w.a i k * c.elInt w.ty w.b i k)) ∧
  ElemWord .imulh (fun w c i k =>
    wrapInt (tyBits w.ty) (c.elInt w.ty w.a i k * c.elInt w.ty w.b i k / (2 : Int) ^ tyBits w.ty)) ∧
  ElemWord .imad (fun w c i k =>
    wrapInt (tyBits w.ty) (c.elInt w.ty w.a i k * c.elInt w.ty w.b i k + c.elInt w.ty w.c i k)) ∧
  ElemWord .imin (fun w c i k => wrapInt (tyBits w.ty) (min (c.elInt w.ty w.a i k) (c.elInt w.ty w.b i k))) ∧
  ElemWord .imax (fun w c i k => wrapInt (tyBits w.ty) (max (c.elInt w.ty w.a i k) (c.elInt w.ty w.b i k))) ∧
  ElemWord .iabs (fun w c i k => wrapInt (tyBits w.ty)
    (if w.ebit 5 then min (intMax w.ty) (c.elInt w.ty w.a i k).natAbs else (c.elInt w.ty w.a i k).natAbs)) ∧
  ElemWord .ineg (fun w c i k => wrapInt (tyBits w.ty)
    (if w.ebit 5 then max (intMin w.ty) (min (intMax w.ty) (-c.elInt w.ty w.a i k)) else -c.elInt w.ty w.a i k)) ∧
  ElemWord .iadds (fun w c i k => wrapInt (tyBits w.ty)
    (max (intMin w.ty) (min (intMax w.ty) (c.elInt w.ty w.a i k + c.elInt w.ty w.b i k)))) ∧
  ElemWord .isubs (fun w c i k => wrapInt (tyBits w.ty)
    (max (intMin w.ty) (min (intMax w.ty) (c.elInt w.ty w.a i k - c.elInt w.ty w.b i k)))) ∧
  ElemWord .iavg (fun w c i k => wrapInt (tyBits w.ty)
    ((c.elInt w.ty w.a i k + c.elInt w.ty w.b i k + (if w.ebit 5 then 0 else 1)) / 2)) ∧
  ElemWord .icmp (fun w c i k =>
    let x := c.elInt w.ty w.a i k
    let y := c.elInt w.ty w.b i k
    if w.md = 0 ∧ x = y ∨ w.md = 1 ∧ x ≠ y ∨ w.md = 2 ∧ x < y ∨ w.md = 3 ∧ x ≤ y then 2 ^ tyBits w.ty - 1 else 0)

/-- Division by element (03 R64): all ones and the dividend for a divisor of 0, otherwise the quotient truncated
towards zero and the remainder with the sign of the dividend; the word starts, and its results are pending on its
flag. -/
def Obligations.DivisionByElement : Prop :=
  ElemLong .idiv (fun w c i k =>
    if c.el w.ty w.b i k = 0 then 2 ^ tyBits w.ty - 1
    else wrapInt (tyBits w.ty) (Int.tdiv (c.elInt w.ty w.a i k) (c.elInt w.ty w.b i k))) ∧
  ElemLong .irem (fun w c i k =>
    if c.el w.ty w.b i k = 0 then c.el w.ty w.a i k
    else wrapInt (tyBits w.ty) (Int.tmod (c.elInt w.ty w.a i k) (c.elInt w.ty w.b i k)))

/-- The immediate words (06 R166). -/
def Obligations.ImmediateWords : Prop :=
  WordI .iaddi (fun w c i => [c.rd w.a i + w.imm.signExtend 32]) ∧
  WordI .movi (fun w _ _ => [w.imm.signExtend 32]) ∧
  WordI .movhi (fun w c i =>
    [BitVec.ofNat 32 (w.imm.toNat % 2 ^ 16 * 2 ^ 16 + (c.rd w.a i).toNat % 2 ^ 16)]) ∧
  WordI .shli (fun w c i => [BitVec.ofNat 32 ((c.rd w.a i).toNat * 2 ^ w.imm.toNat)]) ∧
  WordI .shri (fun w c i => [BitVec.ofNat 32 ((c.rd w.a i).toNat / 2 ^ w.imm.toNat)]) ∧
  WordI .sari (fun w c i => [BitVec.ofInt 32 ((c.rd w.a i).toInt / (2 : Int) ^ w.imm.toNat)])

/-- The words over whole registers (06 R167, R172). -/
def Obligations.LogicAndMoves : Prop :=
  WordV .and (fun w c i => (List.range (tyRegs w.ty)).map fun k => c.rd w.a i k &&& c.rd w.b i k) ∧
  WordV .or (fun w c i => (List.range (tyRegs w.ty)).map fun k => c.rd w.a i k ||| c.rd w.b i k) ∧
  WordV .xor (fun w c i => (List.range (tyRegs w.ty)).map fun k => c.rd w.a i k ^^^ c.rd w.b i k) ∧
  WordV .not (fun w c i => (List.range (tyRegs w.ty)).map fun k => ~~~ c.rd w.a i k) ∧
  WordV .andn (fun w c i => (List.range (tyRegs w.ty)).map fun k => c.rd w.a i k &&& ~~~ c.rd w.b i k) ∧
  WordV .orn (fun w c i => (List.range (tyRegs w.ty)).map fun k => c.rd w.a i k ||| ~~~ c.rd w.b i k) ∧
  WordV .sel (fun w c i => (List.range (tyRegs w.ty)).map fun k =>
    if (c.rd w.c i).toNat % 2 = 1 then c.rd w.a i k else c.rd w.b i k) ∧
  WordV .mov (fun w c i => (List.range (tyRegs w.ty)).map fun k => c.rd w.a i k)

/-- Shifts and bit counts by element (06 R168, R169): a shift by the width or more leaves no bit, or copies of the
sign. -/
def Obligations.ShiftsAndBitCounts : Prop :=
  ElemWord .shl (fun w c i k => c.el w.ty w.a i k * 2 ^ c.el w.ty w.b i k % 2 ^ tyBits w.ty) ∧
  ElemWord .shr (fun w c i k => c.el w.ty w.a i k / 2 ^ c.el w.ty w.b i k) ∧
  ElemWord .sar (fun w c i k => wrapInt (tyBits w.ty)
    (sextInt (tyBits w.ty) (c.el w.ty w.a i k) / (2 : Int) ^ c.el w.ty w.b i k)) ∧
  ElemWord .rot (fun w c i k =>
    let n := tyBits w.ty
    let s := if w.ebit 5 then (n - c.el w.ty w.b i k % n) % n else c.el w.ty w.b i k % n
    (c.el w.ty w.a i k * 2 ^ s) % 2 ^ n + c.el w.ty w.a i k / 2 ^ (n - s)) ∧
  ElemWord .clz (fun w c i k => clzElem (tyBits w.ty) (c.el w.ty w.a i k)) ∧
  ElemWord .ffs (fun w c i k => ffsElem (tyBits w.ty) (c.el w.ty w.a i k)) ∧
  ElemWord .popc (fun w c i k => popcElem (tyBits w.ty) (c.el w.ty w.a i k)) ∧
  ElemWord .brev (fun w c i k => brevElem (tyBits w.ty) (c.el w.ty w.a i k))

/-- Funnel shifts and bit fields (06 R170, R171). -/
def Obligations.FunnelShiftsAndBitFields : Prop :=
  WordV .fshf (fun w c i => regsOfNat (tyRegs w.ty)
    (let n := tyBits w.ty
     let a := c.opnd w.ty w.a i
     let b := c.opnd w.ty w.b i
     let k := (c.rd w.c i).toNat % 64 % n
     if w.ebit 5 then (a * 2 ^ n + b) * 2 ^ k / 2 ^ n % 2 ^ n else (b * 2 ^ n + a) / 2 ^ k % 2 ^ n)) ∧
  WordV .bfx (fun w c i => regsOfNat (tyRegs w.ty)
    (let n := tyBits w.ty
     let x := (c.rd w.b i).toNat
     let pos := x % 256
     let len := x / 256 % 256
     let l := min len (n - pos)
     let f := c.opnd w.ty w.a i / 2 ^ pos % 2 ^ l
     if n ≤ pos ∨ len = 0 then 0 else if isSint w.ty then wrapInt n (sextInt l f) else f)) ∧
  WordV .bfi (fun w c i => regsOfNat (tyRegs w.ty)
    (let n := tyBits w.ty
     let x := (c.rd w.c i).toNat
     let a := c.opnd w.ty w.a i
     let pos := x % 256
     let len := x / 256 % 256
     let l := min len (n - pos)
     if n ≤ pos ∨ len = 0 then a
     else a % 2 ^ pos + c.opnd w.ty w.b i % 2 ^ l * 2 ^ pos + a / 2 ^ (pos + l) * 2 ^ (pos + l)))

/-- Addresses, changes of width, byte permutation and integer dot products (06 R173 to R176). -/
def Obligations.RepackingAndDotProducts : Prop :=
  WordV .lea (fun w c i =>
    let x : W64 := if w.ty = 0 then (c.rd w.b i).signExtend 64 else (c.rd w.b i).setWidth 64
    let v := c.rdw w.a i + x * (match w.md with | 0 => 1 | 1 => 4 | 2 => 8 | _ => 16)
    [v.extractLsb' 0 32, v.extractLsb' 32 32]) ∧
  WordV .iext (fun w c i =>
    [BitVec.ofNat 32 (wrapInt 32 (elemInt w.ty ((elems (tyBits w.ty) 32 (c.rd w.a i).toNat).getD w.md 0)))]) ∧
  WordV .iextWide (fun w c i =>
    let v : W64 := if w.ty = 0 then (c.rd w.a i).signExtend 64 else (c.rd w.a i).setWidth 64
    [v.extractLsb' 0 32, v.extractLsb' 32 32]) ∧
  WordV .pack (fun w c i => packElems w.ty (w.ebit 5) (c.rd w.a i).toNat (c.rd w.b i).toNat) ∧
  WordV .unpk (fun w c i => unpkElems w.ty (c.rd w.a i).toNat) ∧
  WordV .bytep (fun w c i => [BitVec.ofNat 32 (ofElems 8 ((List.range 4).map fun k =>
    let s := (c.rd w.c i).toNat / 2 ^ (4 * k) % 16
    if 8 ≤ s then 0
    else ((c.rd w.a i).toNat + 2 ^ 32 * (c.rd w.b i).toNat) / 2 ^ (8 * s) % 256))]) ∧
  WordV .idot4 (fun w c i =>
    [BitVec.ofNat 32 (idot w.ty (w.ebit 5) (w.ebit 6) (c.rd w.a i).toNat (c.rd w.b i).toNat (c.rd w.c i).toNat)]) ∧
  WordV .idot2 (fun w c i =>
    [BitVec.ofNat 32 (idot w.ty (w.ebit 5) (w.ebit 6) (c.rd w.a i).toNat (c.rd w.b i).toNat (c.rd w.c i).toNat)])

/-! ## Floating-point words -/

/-- The short-latency float arithmetic, comparison and selection words (06 R177 to R182): each rounds the exact result
once, counts its events and writes; nothing else changes. -/
def Obligations.FloatArithmeticWords : Prop :=
  FloatWord .fadd (fun w c i => arith2 w (FVal.add ((fMode w) == .rdn)) (c.rnd w i) (c.fopnd w.ty w.a i) (c.fopnd w.ty w.b i)) ∧
  FloatWord .fsub (fun w c i =>
    arith2 w (fun x y => FVal.add ((fMode w) == .rdn) x y.opp) (c.rnd w i) (c.fopnd w.ty w.a i) (c.fopnd w.ty w.b i)) ∧
  FloatWord .fmul (fun w c i => arith2 w FVal.mul (c.rnd w i) (c.fopnd w.ty w.a i) (c.fopnd w.ty w.b i)) ∧
  FloatWord .fma (fun w c i =>
    let F := fmtOf w.ty
    let m := modeOf w.md
    fpOp3 w.ty (fun _ x y z => F.result m 0 [F.value x, F.value y, F.value z]
        (FVal.add (m == .rdn) (FVal.mul (F.value x) (F.value y)) (F.value z)))
      (c.fopnd w.ty w.a i) (c.fopnd w.ty w.b i) (c.fopnd w.ty w.c i)) ∧
  FloatWord .fmin (fun w c i => fpOp2 w.ty (fun _ x y => ((fmtOf w.ty).minMax false (w.ebit 5) x y, []))
    (c.fopnd w.ty w.a i) (c.fopnd w.ty w.b i)) ∧
  FloatWord .fmax (fun w c i => fpOp2 w.ty (fun _ x y => ((fmtOf w.ty).minMax true (w.ebit 5) x y, []))
    (c.fopnd w.ty w.a i) (c.fopnd w.ty w.b i)) ∧
  FloatWord .fabs (fun w c i => fpOp1 w.ty (fun _ x =>
    (if (fmtOf w.ty).isNan x then (fmtOf w.ty).nan else (fmtOf w.ty).mag x, [])) (c.fopnd w.ty w.a i)) ∧
  FloatWord .fneg (fun w c i => fpOp1 w.ty (fun _ x =>
    (if (fmtOf w.ty).isNan x then (fmtOf w.ty).nan
     else (fmtOf w.ty).signed (!(fmtOf w.ty).neg x) ((fmtOf w.ty).mag x), [])) (c.fopnd w.ty w.a i)) ∧
  FloatWord .fcmp (fun w c i => fpOp2 w.ty (fun _ x y =>
    (if fcmpCond (fmtOf w.ty) w.md x y then 2 ^ (fmtOf w.ty).bits - 1 else 0, []))
    (c.fopnd w.ty w.a i) (c.fopnd w.ty w.b i)) ∧
  FloatWord .fclass (fun w c i => fpOp1 w.ty (fun _ x => ((fmtOf w.ty).classOf x, [])) (c.fopnd w.ty w.a i))

/-- FDIV and the special functions (06 R178, R183): the exact value rounded once, pending on the word's flag. The model's
own reading here: log 15. -/
def Obligations.LongFloatWords : Prop :=
  FloatLong .fdiv (fun w c i => arith2 w FVal.div (c.rnd w i) (c.fopnd w.ty w.a i) (c.fopnd w.ty w.b i)) ∧
  FloatLong .frcp (fun w c i => arith1 w frcpVal (c.rnd w i) (c.fopnd w.ty w.a i)) ∧
  FloatLong .frsq (fun w c i => arith1 w frsqVal (c.rnd w i) (c.fopnd w.ty w.a i)) ∧
  FloatLong .fsqrt (fun w c i => arith1 w fsqrtVal (c.rnd w i) (c.fopnd w.ty w.a i)) ∧
  FloatLong .fexp2 (fun w c i => arith1 w fexp2Val (c.rnd w i) (c.fopnd w.ty w.a i)) ∧
  FloatLong .flog2 (fun w c i => arith1 w flog2Val (c.rnd w i) (c.fopnd w.ty w.a i)) ∧
  FloatLong .fsin (fun w c i => arith1 w fsinVal (c.rnd w i) (c.fopnd w.ty w.a i)) ∧
  FloatLong .fcos (fun w c i => arith1 w fcosVal (c.rnd w i) (c.fopnd w.ty w.a i)) ∧
  FloatLong .ftanh (fun w c i => arith1 w ftanhVal (c.rnd w i) (c.fopnd w.ty w.a i))

/-- Conversions, dot products and block scales (06 R184 to R194). The model's own reading here: log 33. -/
def Obligations.ConversionsAndBlockScales : Prop :=
  FloatWord .frnd (fun w c i => fpOp1 w.ty (fun k x => (frndCode (fmtOf w.ty) (fMode w) (c.rnd w i k) x, []))
    (c.fopnd w.ty w.a i)) ∧
  FloatWord .cvtf (fun w c i =>
    let n := (cvtfNarrow w.ty).getD (1, 1)
    let vals := (List.range n.1).map (fun k => c.rd w.a i k) ++ (List.range n.1).map fun k => c.rd w.b i k
    layCodes (fmtOf w.ty) n.2
      (vals.mapIdx fun k v => narrow (fmtOf w.ty) (fMode2 w) (c.rnd w i k) (w.ebit 5) (Fmt.f32.value v.toNat))) ∧
  FloatWord .cvtfWide (fun w c i =>
    let n := (cvtfWiden w.ty).getD (1, 2)
    let all := elems (fmtOf w.ty).bits (32 * n.1) (c.rdn w.a i n.1)
    let part := (all.drop (if w.ty = 0x18 && w.ebit 5 then 4 else 0)).take n.2
    layCodes .f32 n.2 (part.map fun x => Fmt.f32.roundVal .rne 0 false ((fmtOf w.ty).value x))) ∧
  FloatWord .cvti (fun w c i =>
    let n := tyBits w.ty
    let src := if w.ty = 4 || w.ty = 0xC then 2 else 1
    let l := (List.range src).map fun k =>
      wrapInt n (toIntSat (fMode w) (c.rnd w i k) (intMin w.ty) (intMax w.ty) (Fmt.f32.value (c.rd w.a i k).toNat))
    (regsOfNat (tyRegs w.ty) (ofElems n l), [])) ∧
  FloatWord .icvtf (fun w c i =>
    let l := elems (tyBits w.ty) (32 * tyRegs w.ty) (c.rdn w.a i (tyRegs w.ty))
    (regsOfNat l.length (ofElems 32 (l.mapIdx fun k x =>
      (Fmt.f32.roundVal (fMode w) (c.rnd w i k) false (.ofInt (elemInt w.ty x))).1)), [])) ∧
  FloatWord .scacc (fun w c i =>
    scacc (c.rdd w.d i) (c.rd w.a i) ((c.rd w.b i).toNat % 256) ((c.rd w.c i).toNat % 256)) ∧
  FloatWord .scalex (fun w c i =>
    let b := (c.rd w.b i).toNat
    let k : Int := if w.ebit 5 then (b % 256 : Nat) - 127 else sextInt 32 b
    fpOp1 w.ty (fun j x => if w.ebit 5 && b % 256 == 255 then ((fmtOf w.ty).nan, [])
      else scalex (fmtOf w.ty) (fMode2 w) (c.rnd w i j) (w.ebit 6) k x) (c.rd w.a i).toNat) ∧
  FloatWord .bfppackScale (fun w c i => ([BitVec.ofNat 32 (bfpScale (bfpBits w.ty) (c.rd w.a i).toNat)], [])) ∧
  FloatWord .bfppack (fun w c i =>
    bfppack (bfpBits w.ty) (fMode2 w) (c.rnd w i) (c.rdd w.d i).toNat ((c.rd w.b i).toNat % 256)
      ((c.rd w.b i).toNat / 256 % 256) ((List.range 4).map fun k => Fmt.f32.value (c.rd w.a i k).toNat)) ∧
  FloatWord .bfpunpk (fun w c i => layCodes .f32 4 ((List.range 4).map fun k =>
    bfpValue (bfpBits w.ty) ((c.rd w.b i).toNat % 256) (c.rd w.a i).toNat ((c.rd w.b i).toNat / 256 % 256 + k))) ∧
  FloatWord .fdot2 (fun w c i => fdot w.ty (modeOf w.md) (c.rd w.a i).toNat (c.rd w.b i).toNat (c.rd w.c i).toNat) ∧
  FloatWord .fdot4 (fun w c i => fdot w.ty (modeOf w.md) (c.rd w.a i).toNat (c.rd w.b i).toNat (c.rd w.c i).toNat)

/-! ## Cross-lane words -/

/-- Lanes named by a word are read whatever their state (05 R147 to R150); VOTE, MATCH and ELECT take the participants
only (05 R151, R155, R156). -/
def Obligations.CrossLaneWords : Prop :=
  WordV .lanesel (fun w c i =>
    let idx := (c.rd w.b i).toNat
    let a := numOf (c.laneOpnd w.ty w.a (idx / 8 % 32))
    regsOfNat (tyRegs w.ty) (wrapInt (32 * tyRegs w.ty)
      (if idx % 8 < tyElems w.ty then elemInt w.ty (elemOf (tyBits w.ty) (idx % 8) a) else 0))) ∧
  WordV .qswap (fun w c i => c.laneOpnd w.ty w.a (4 * (i / 4) + (i % 4 ^^^ w.md))) ∧
  WordV .qbcast (fun w c i => c.laneOpnd w.ty w.a (4 * (i / 4) + w.md)) ∧
  WordV .vote (fun w c _ => [voteVal w.md (c.real.map fun i => (i, (c.rd w.a i).getLsbD 0))]) ∧
  WordV .matchLanes (fun w c i =>
    [if i ∈ c.real then laneMask (c.real.filter fun j => c.opnd w.ty w.a j == c.opnd w.ty w.a i) else 0]) ∧
  WordV .elect (fun w c i =>
    [if (if w.a.reg = 127 then c.real else c.real.filter fun j => (c.rd w.a j).getLsbD 0).head? = some i then 1 else 0])

/-- RED and SCANX (05 R152 to R154): the tree over the participants in every Active lane, or each lane's prefix; the
events of the steps are counted first. That SCANX counts the events of the subtrees that the lanes which are no helper lanes
use, and of no others, is the model's choice (log 82). -/
def Obligations.ReductionsAndScans : Prop :=
  (∀ w s c t, issueOf (.red w) s = some (c, t) →
    let r := tree w.ty w.md 5 (c.laneVals w)
    ∃ u, exec (.red w) s = .next u ∧
      WroteFrom c (c.countKinds t w r.2) u [] w.d fun _ => laneValRegs w.ty w.md r.1) ∧
  (∀ w s c t, issueOf (.scanx w) s = some (c, t) →
    let parts := ((c.real.map prefixParts).flatten).eraseDups
    let shared := (parts.map fun p => (subtree w.ty w.md (c.laneVals w) p.1 p.2).2).flatten
    let own := (c.real.map fun i => (prefixOf w.ty w.md (c.laneVals w) i).2).flatten
    ∃ u, exec (.scanx w) s = .next u ∧
      WroteFrom c (c.countKinds t w (shared ++ own)) u [] w.d fun i => laneValRegs w.ty w.md (prefixOf w.ty w.md (c.laneVals w) i).1)


/-! ## Control and convergence -/

/-- BRA, BRX, CALL, CALLX and RET (04 R107): each Active thread goes on at its target, a misaligned target traps, and
CALL and CALLX write the following clause into D. -/
def Obligations.BranchesAndCalls : Prop :=
  (∀ w, BranchWord (.bra w) 124 fun c _ => c.caddr + 8 * w.off.signExtend 64) ∧
  (∀ w, BranchWord (.brx w) 124 fun c l => c.rdw w.a l) ∧
  (∀ w, BranchWord (.call w) w.d fun c _ => c.caddr + 8 * w.off.signExtend 64) ∧
  (∀ w, BranchWord (.callx w) w.d fun c l => c.rdw w.a l) ∧
  (∀ w, BranchWord (.ret w) 124 fun c l => c.rdw w.a l)

/-- NOP has no effect, YIELD asks for its slot to be yielded, EXIT makes the Active threads exited, and QHELP makes the
exited lanes of every quad of its issue set helper lanes, which are in the issue set with their leaders from then on
(04 R106, R109, R115 to R117). A group with no thread left, no flag up and nothing to deliver has ended: it leaves its slot and
the convergence registers, and the claims are tested again. A block of a running cohort with no group, no formed group and no
thread in its pool ends: it leaves its core, and its cohort ends with its last block (04 R110). -/
def Obligations.ThreadStateWords : Prop :=
  (∀ w s c t, issueOf (.nop w) s = some (c, t) → Completes (.nop w) s c [] 124 fun _ => []) ∧
  (∀ w s c t, issueOf (.yield w) s = some (c, t) → ∃ u, exec (.yield w) s = .next u ∧
    MovedOn c (t.setGroup c.gid { c.o.g with run := some { c.r with yielded := true } }) u []) ∧
  (∀ w s c t, issueOf (.exit w) s = some (c, t) → ∃ b u, exec (.exit w) s = .next (u.settleGroup c.gid) ∧
    Threads c t b (fun i th => if i ∈ c.real then { th with st := .exited } else th) ∧ MovedOn c b u []) ∧
  (∀ w s c t, issueOf (.qhelp w) s = some (c, t) → ∃ b u set, exec (.qhelp w) s = .next u ∧
    Threads c t b (fun i th =>
      if th.st = .exited ∧ ∃ j ∈ c.r.set, j / 4 = i / 4 then { th with st := .helper } else th) { c.r with set := set } ∧
    MovedOn c b u [] ∧
    ∀ g, b.group? c.gid = some g → ∀ i, i ∈ set ↔
      i < 32 ∧ (i ∈ c.r.set ∨ (g.lane i).st = .helper ∧ ∃ j ∈ c.r.set, g.leader i = some j)) ∧
  (∀ (g : Group), g.ended = true ↔ g.handler = false ∧ g.run = none ∧ g.late = [] ∧ g.flagsClear = true ∧
    ∀ i, i < 32 → (g.lane i).st = .exited ∨ (g.lane i).st = .gone) ∧
  (∀ (s : State) bid b lid e, s.block? bid = some b → s.launchOfBlock bid = some lid →
    (∀ f ∈ b.forming, f.slot ≠ none) ∨ s.emptySlot bid b = none →
    (s.groupsOf bid).find? (fun e => e.2.ended) = some e →
    s.settleOnce bid = ((s.endGroup e.1 e.2).grantClaims b.core lid 64, true)) ∧
  (∀ (s : State) gid g b, s.group? gid = some g → s.block? g.block = some b →
    let u := s.endGroup gid g
    u.group? gid = none ∧ (∀ h, h ≠ gid → u.group? h = s.group? h) ∧
    (∀ n, (tget? u.ops n).isSome = (tget? s.ops n).isSome) ∧
    ∃ conv : List ConvReg, u.block? g.block = some { b with conv := conv } ∧ ∀ (k : Nat) (x : ConvReg), b.conv[k]? = some x → ∃ y : ConvReg, conv[k]? = some y ∧
      ∀ j, (j ∈ y.decl ↔ j ∈ x.decl ∧ j ≠ g.slot) ∧ (j ∈ y.signed ↔ j ∈ x.signed ∧ j ≠ g.slot)) ∧
  (∀ (s : State) bid n, s.settleLoop bid (n + 1) =
    if (s.settleOnce bid).2 = true then (s.settleOnce bid).1.settleLoop bid n else (s.settleOnce bid).1) ∧
  (∀ (s : State) bid b c, (s.settleLoop bid 256).block? bid = some b → (s.settleLoop bid 256).cohort? b.cohort = some c →
    let t := s.settleLoop bid 256
    (c.state = .running ∧ b.pool = [] ∧ b.forming = [] ∧ t.groupsOf bid = [] →
      s.settle bid = (((t.leaveCopies bid).dropBlock bid).endCohort b.cohort).saveCohort b.cohort) ∧
    (¬ (c.state = .running ∧ b.pool = [] ∧ b.forming = [] ∧ t.groupsOf bid = []) → s.settle bid = t.saveCohort b.cohort)) ∧
  (∀ (s : State) bid, (s.dropBlock bid).block? bid = none) ∧
  (∀ (s : State) cid c l, s.cohort? cid = some c → c.state = .running → s.launch? c.launch = some l →
    (∀ b ∈ c.blocks, s.block? b = none) →
    s.endCohort cid = ({ s with cohorts := tdel s.cohorts cid } : State).setLaunch c.launch { l with ended := l.ended + 1 }) ∧
  (∀ (s : State) cid c b, s.cohort? cid = some c → b ∈ c.blocks → (s.block? b).isSome → s.endCohort cid = s)

/-- MEET, MEETX and MEETCLR set the meeting registers of the Active lanes, helper lanes among them (04 R111, R117); MEETX
gives the old ones; a value with low bits set traps; then every meeting whose threads are all held is released (04
R113). -/
def Obligations.MeetingWords : Prop :=
  (∀ w s c t, issueOf (.meet w) s = some (c, t) → ∃ b g h u, exec (.meet w) s = .next u ∧
    Threads c t b (fun i th => if i ∈ c.act then { th with meet := c.caddr + 8 * w.off.signExtend 64 } else th) ∧
    b.group? c.gid = some g ∧ Released g h ∧ MovedOn c (b.setGroup c.gid h) u []) ∧
  (∀ w s c t, issueOf (.meetclr w) s = some (c, t) → ∃ b g h u, exec (.meetclr w) s = .next u ∧
    Threads c t b (fun i th => if i ∈ c.act then { th with meet := 0 } else th) ∧
    b.group? c.gid = some g ∧ Released g h ∧ MovedOn c (b.setGroup c.gid h) u []) ∧
  (∀ w s c t, issueOf (.meetx w) s = some (c, t) → w.a.reg = 127 →
    Completes (.meetx w) s c [] (if w.d = 127 then 124 else w.d) fun i =>
      [(c.o.g.lane i).meet.extractLsb' 0 32, (c.o.g.lane i).meet.extractLsb' 32 32]) ∧
  (∀ w s c t, issueOf (.meetx w) s = some (c, t) → w.a.reg ≠ 127 → (∀ l ∈ c.real, (c.rdw w.a l).toNat % 8 = 0) →
    ∃ b g h u, exec (.meetx w) s = .next u ∧
      Threads c t b (fun i th => if i ∈ c.act then { th with meet := c.rdw w.a i } else th) ∧
      b.group? c.gid = some g ∧ Released (writeLanes g (if w.d = 127 then 124 else w.d) (c.act.map fun i =>
        (i, [(c.o.g.lane i).meet.extractLsb' 0 32, (c.o.g.lane i).meet.extractLsb' 32 32]))) h ∧
      MovedOn c (b.setGroup c.gid h) u []) ∧
  (∀ w s c t l, issueOf (.meetx w) s = some (c, t) → w.a.reg ≠ 127 → l ∈ c.real → (c.rdw w.a l).toNat % 8 ≠ 0 →
    (∀ k ∈ c.real, k < l → (c.rdw w.a k).toNat % 8 = 0) →
    Traps (.meetx w) s t c ⟨Cause.misaligned, c.rdw w.a l, c.rdw w.a l⟩ c.here)

/-- SUCC and SUCCX (04 R123): once the flags are clear, with the allocation the kernel's and no phase open at a barrier of
the group, each Active thread moves into the pool for its successor, or exits for a zero of SUCCX; threads that find no
entry wait at the word, and a flag that is not clear is waited for (04 R124). The pool takes a thread for an entry of its
successor or a free one of its eight, and 32 threads of one successor form a group at once (04 R125). A thread takes part in no
meeting from its turn on, though it waits (R113, R123). When no thread of the block can go on but through the pool, the pool is
flushed: its entries form groups in ascending order of successor (R125). A formed group takes the lowest empty slot, claims the
kernel's units, and starts there with its threads in its lowest lanes (R126). The model's own reading here: log 31. -/
def Obligations.SuccessorWords : Prop :=
  (∀ w s c t, issueOf (.succ w) s = some (c, t) →
    SuccessorWord (.succ w) s t c fun _ => some (if c.o.l.translated then c.o.l.segment w.off.toNat
      else c.caddr + 8 * w.off.signExtend 64)) ∧
  (∀ w s c t, issueOf (.succx w) s = some (c, t) →
    SuccessorWord (.succx w) s t c fun i =>
      if c.rdw w.a i = 0 then none
      else some (if c.o.l.translated then c.o.l.segment (c.rdw w.a i).toNat else c.rdw w.a i)) ∧
  (∀ (b : Block) v th, b.pool? v th = none ↔ 8 ≤ b.pool.length ∧ ∀ e ∈ b.pool, e.succ ≠ v) ∧
  (∀ (b : Block) v th, b.pool.length < 8 → (∀ e ∈ b.pool, e.succ ≠ v) →
    b.pool? v th = some { b with pool := b.pool ++ [⟨v, [th]⟩] }) ∧
  (∀ (b : Block) e pre post th, b.pool = pre ++ e :: post → (∀ x ∈ pre ++ post, x.succ ≠ e.succ ∧ x.threads ≠ []) →
    (e.threads.length < 31 →
      b.pool? e.succ th = some { b with pool := pre ++ { e with threads := e.threads ++ [th] } :: post }) ∧
    (e.threads.length = 31 → b.pool? e.succ th =
      some { b with pool := pre ++ post, forming := b.forming ++ [⟨e.succ, e.threads ++ [th], none⟩] })) ∧
  (∀ (s : State) gid g b i rest, s.group? gid = some g → s.block? g.block = some b →
    s.moveLanes gid ((i, none) :: rest) = (s.setGroup gid (g.modLane i fun x => { x with st := .exited })).moveLanes gid rest ∧
    (∀ v y, b.pool? v ⟨g.laneRegs i⟩ = some y → s.moveLanes gid ((i, some v) :: rest) =
      ((s.setBlock g.block y).setGroup gid (g.modLane i fun x => { x with st := .gone, meet := 0 })).moveLanes gid rest) ∧
    ∀ v, b.pool? v ⟨g.laneRegs i⟩ = none → ∃ h, Released (g.modLane i fun x => { x with meet := 0 }) h ∧
      s.moveLanes gid ((i, some v) :: rest) = (s.setGroup gid h, (i, some v) :: rest)) ∧
  (∀ (s : State) bid b, s.flushDue bid b = true ↔ (∃ e ∈ b.pool, e.threads ≠ []) ∧ b.forming = [] ∧
    ∀ e ∈ s.groupsOf bid, e.2.shut = true ∨ State.atBarrier b e.2 = true ∨ State.atClaim e.2 = true ∨
      ∀ i ∈ e.2.liveLanes, i ∈ State.poolWait e.2) ∧
  (∀ (b : Block), (∀ e ∈ b.pool, e.threads ≠ [] ∧ e.threads.length ≤ 32) → ∃ es : List PoolEntry, es.Perm b.pool ∧
    es.Pairwise (fun x y => x.succ.toNat ≤ y.succ.toNat) ∧
    b.flush = { b with pool := [], forming := b.forming ++ es.map fun e => ⟨e.succ, e.threads, none⟩ }) ∧
  (∀ (s : State) bid b lid l k, s.block? bid = some b → s.launchOfBlock bid = some lid → s.launch? lid = some l →
    (∃ f ∈ b.forming, f.slot = none) → s.emptySlot bid b = some k →
    s.settleOnce bid = (((s.setBlock bid { b with forming := State.takeSlot k b.forming }).modQuota b.core lid fun q =>
      { q with claims := q.claims ++ [.formed bid l.groupUnits] }).grantClaims b.core lid 64, true)) ∧
  (∀ (s : State) bid b k, s.emptySlot bid b = some k → k < b.gslots.length ∧ s.group? (gidOf bid k) = none ∧
    (∀ f ∈ b.forming, f.slot ≠ some k) ∧
    ∀ j, j < k → (s.group? (gidOf bid j)).isSome ∨ ∃ f ∈ b.forming, f.slot = some j) ∧
  (∀ k pre (f : Formed) post, (∀ x ∈ pre, x.slot ≠ none) → f.slot = none →
    State.takeSlot k (pre ++ f :: post) = pre ++ { f with slot := some k } :: post) ∧
  (∀ (s : State) bid b lid l k f, s.block? bid = some b → s.launchOfBlock bid = some lid → s.launch? lid = some l →
    f.threads.length ≤ 32 → (∀ th ∈ f.threads, (th.regs.map (·.1)).Nodup) → ∃ g, (s.startFormed bid k f).group? (gidOf bid k) = some g ∧ g.block = bid ∧ g.slot = k ∧
      g.alloc = l.regs ∧ g.cls = l.cls ∧ g.run = none ∧ (∀ i, g.flag i = 0) ∧
      (∀ i, i < 32 → g.lane i = if i < f.threads.length then Thread.start f.succ else Thread.empty) ∧
      ∀ i r, i < 32 → g.reg i r = ((f.threads[i]?).map fun th => tgetD 0 th.regs r).getD 0)

/-- REFILL (04 R129): once the flags are clear, the items of the queue go to the empty lanes in ascending order, one each,
with a live thread at the following clause and the item in D and D + 1; the queue's head moves past them. -/
def Obligations.RefillWord : Prop :=
  ∀ w s c t, issueOf (.refill w) s = some (c, t) → c.o.g.flagsClear = true →
    let d := (c.rd w.a c.lmin).toNat
    let q := t.laneQueue c.bid d
    let take := (emptyLanes c.o.g).take q.avail
    let item (k : Nat) : W64 := t.scratchDword c.bid (q.base + 8 * ((q.head + k) % q.slots))
    t.objUse c.core c.bid d 16 16 true = none → q.valid = true →
    t.itemCheck c.core c.bid false ((List.range take.length).map fun k => q.base + 8 * ((q.head + k) % q.slots))
      = none →
    ∃ g u, exec (.refill w) s = .next (u.settleGroup c.gid) ∧
      MovedOn c ((t.setGroup c.gid g).scratchPut c.bid (d + 8) 4 ((q.head + take.length) % 2 ^ 32)) u [] ∧
      g = { c.o.g with lanes := g.lanes, regs := g.regs, run := some c.r } ∧
      (∀ i, i < c.o.g.lanes.length → g.lane i = if i ∈ take then Thread.start c.next else c.o.g.lane i) ∧
      ∀ i, i < 32 → ∀ r, g.reg i r = ((take.idxOf? i).bind fun k =>
        resultReg w.d [(item k).extractLsb' 0 32, (item k).extractLsb' 32 32] r).getD (c.o.g.reg i r)

/-- BARS, BARA and BARW (04 R119 to R121): an arrival sets the mode and the group's arrived bit; BARA goes on with the phase
it saw, BARS waits for the phase to end unless its arrival ends it, BARW waits without arriving. A word that a trap or a
pre-emption has interrupted waits for the phase it waited for, or goes on where that is over. When a phase ends, its bit
inverts, its mode and arrivals are cleared, and the groups blocked there wait no longer. The model's own reading here:
log 60. -/
def Obligations.BlockBarriers : Prop :=
  (∀ w s c t m b', issueOf (.bara w) s = some (c, t) → Arrives c t w.a (w.e.toNat % 16) m b' →
    ∃ u, exec (.bara w) s = .next (u.settleGroup c.gid) ∧
      MovedOn c (b'.modGroup c.gid fun g => writeLanes g w.d (c.r.set.map fun i =>
        (i, [if (c.barrier (w.e.toNat % 16)).phase then 1 else 0]))) u []) ∧
  (∀ w s c t m b' x, issueOf (.bars w) s = some (c, t) → c.savedHere = none → Arrives c t w.a (w.e.toNat % 16) m b' →
    b'.block? c.bid = some x →
    (b'.barrierDone c.bid x (x.barriers.getD (w.e.toNat % 16) ⟨false, .unset, []⟩) = true → c.o.g.blocked = none →
      ∃ u, exec (.bars w) s = .next (u.settleGroup c.gid) ∧
        MovedOn c (b'.turnBarrier c.bid (w.e.toNat % 16)) u []) ∧
    (b'.barrierDone c.bid x (x.barriers.getD (w.e.toNat % 16) ⟨false, .unset, []⟩) = false →
      Blocks (.bars w) s b' c (.barrier (w.e.toNat % 16) (c.barrier (w.e.toNat % 16)).phase))) ∧
  (∀ w s c t, issueOf (.barw w) s = some (c, t) → c.savedHere = none → c.whole = true →
    let ph := (c.rd w.a c.lmin).getLsbD 0
    ((c.barrier (w.e.toNat % 16)).phase ≠ ph →
      ∃ u, exec (.barw w) s = .next (u.settleGroup c.gid) ∧ MovedOn c (c.hold t) u []) ∧
    ((c.barrier (w.e.toNat % 16)).phase = ph → Blocks (.barw w) s (c.hold t) c (.barrier (w.e.toNat % 16) ph))) ∧
  (∀ w s c t, issueOf (.barw w) s = some (c, t) → c.whole = false →
    Traps (.barw w) s t c (Cause.misuse (w.e.toNat % 16)) c.here) ∧
  (∀ w s c t n ph, issueOf (.bars w) s = some (c, t) → c.savedHere = some (.barrier n ph) →
    Blocks (.bars w) s (c.hold t) c (.barrier n ph)) ∧
  (∀ w s c t, issueOf (.bars w) s = some (c, t) → c.savedHere = some .passed →
    ∃ u, exec (.bars w) s = .next (u.settleGroup c.gid) ∧ MovedOn c (c.hold t) u []) ∧
  (∀ w s c t n ph, issueOf (.barw w) s = some (c, t) → c.whole = true → c.savedHere = some (.barrier n ph) →
    Blocks (.barw w) s (c.hold t) c (.barrier n ph)) ∧
  (∀ w s c t, issueOf (.barw w) s = some (c, t) → c.whole = true → c.savedHere = some .passed →
    ∃ u, exec (.barw w) s = .next (u.settleGroup c.gid) ∧ MovedOn c (c.hold t) u []) ∧
  (∀ (s : State) bid n b, s.block? bid = some b →
    let x := b.barriers.getD n ⟨false, .unset, []⟩
    let u := s.turnBarrier bid n
    u.block? bid = some { b with barriers := b.barriers.set n ⟨!x.phase, .unset, []⟩ } ∧
    (∀ h, (∀ g, (h, g) ∈ s.groupsOf bid → g.blocked ≠ some (.barrier n x.phase) ∧
      g.saved.map (·.2) ≠ some (.barrier n x.phase)) → u.group? h = s.group? h) ∧
    ∀ h g, s.group? h = some g → g.block = bid → g.blocked = some (.barrier n x.phase) → g.run.isSome = true →
      ∃ g', u.group? h = some g' ∧ g'.blocked ≠ some (.barrier n x.phase))

/-! ## Traps -/

/-- TRAP and BKPT with an Active thread take SOFTWARE and BREAKPOINT, with their immediate and their resume points, and
have no effect without one; a word of ILL takes ILLEGAL_OPCODE (17 R447, R450, R451, R463, 02 R54). -/
def Obligations.SoftwareTraps : Prop :=
  (∀ w s c t, issueOf (.trap w) s = some (c, t) → c.real ≠ [] →
    Traps (.trap w) s t c ⟨0x0E, w.imm.setWidth 64, 0⟩ (c.next, c.next)) ∧
  (∀ w s c t, issueOf (.trap w) s = some (c, t) → c.real = [] → Completes (.trap w) s c [] 124 fun _ => []) ∧
  (∀ w s c t, issueOf (.bkpt w) s = some (c, t) → c.real ≠ [] →
    Traps (.bkpt w) s t c ⟨0x0F, w.imm.setWidth 64, 0⟩
      (if c.r.idx + 1 < c.r.words.length then (wordAddr c.caddr (c.r.idx + 1), c.caddr) else (c.next, c.next))) ∧
  (∀ w s c t, issueOf (.bkpt w) s = some (c, t) → c.real = [] → Completes (.bkpt w) s c [] 124 fun _ => []) ∧
  (∀ high rest s gid o r, atIssue s = some (gid, o, r) →
    let t := issued (.ill high rest) s gid o r
    let a := wordAddr r.caddr r.idx
    (t.terminal o 1 = true → exec (.ill high rest) s = .next (t.endLaunch o.c.launch 8 1)) ∧
    (t.terminal o 1 = false → ∃ u, exec (.ill high rest) s = .next u ∧
      TrapTaken t u gid o ⟨1, a, r.caddr, 0, if high then 0xFF else 0, a, r.caddr, r.set⟩))

/-- A word that breaks a rule of its checks at its issue traps at itself and has none of its effect (02 R31, R55). -/
def Obligations.BrokenChecksTrap : Prop :=
  ∀ i s x gid o r, issueFault i s = some (x, gid, o, r) → (∃ y, encode? i = some y) →
    let t := issued i s gid o r
    let tr : Trap := ⟨x.code, wordAddr r.caddr r.idx, r.caddr, x.faddr, x.info, wordAddr r.caddr r.idx, r.caddr, r.set⟩
    (t.terminal o x.code = true → exec i s = .next (t.endLaunch o.c.launch 8 x.code)) ∧
    (t.terminal o x.code = false → ∃ u, exec i s = .next u ∧ TrapTaken t u gid o tr)

/-- A trap is terminal for OUTSIDE_LEASE and DATA_ERROR, in handler mode, and with no handler; any other delivery enters
the handler (17 R450, R451). -/
def Obligations.TrapDelivery : Prop :=
  ∀ (s : State) gid o t issued, s.owner? gid = some o →
    (s.terminal o t.code = true ↔ t.code = 0x06 ∨ t.code = 0x0C ∨ o.g.handler = true ∨ s.trapVec = 0) ∧
    (s.terminal o t.code = true → s.deliver gid t issued = s.endLaunch o.c.launch 8 t.code) ∧
    (s.terminal o t.code = false → TrapTaken s (s.deliver gid t issued) gid o t)

/-- ERET (17 R454): after PREEMPT and SHED every thread takes the place recorded for it; otherwise each lane of H goes on
where its frame says. The group leaves handler mode and its clause ends. A misaligned frame is MISALIGNED, which in a
handler ends the launch as TRAPPED. The model's own reading here: log 53. -/
def Obligations.ReturnFromHandler : Prop :=
  (∀ w s c t ts, issueOf (.eret w) s = some (c, t) → c.o.g.trapCause.toNat % 256 = 0x10 ∨ c.o.g.trapCause.toNat % 256 = 0x11 →
    c.o.g.recorded = some ts →
    ∃ u, exec (.eret w) s = .next (u.settleGroup c.gid) ∧
      Returned c t u fun i => ((ts.getD i Thread.empty).pc, (ts.getD i Thread.empty).resume)) ∧
  (∀ w s c t, issueOf (.eret w) s = some (c, t) →
    c.o.g.trapCause.toNat % 256 ≠ 0x10 → c.o.g.trapCause.toNat % 256 ≠ 0x11 → (∀ i ∈ c.o.g.hset, i < c.o.g.lanes.length) →
    (∀ i ∈ c.o.g.hset, (frameOf c.o.g i).1.toNat % 8 = 0 ∧ (frameOf c.o.g i).2.toNat % 8 = 0) →
    ∃ u, exec (.eret w) s = .next (u.settleGroup c.gid) ∧
      Returned c t u fun i => if i ∈ c.o.g.hset then ((returned c.o.g i).pc, (returned c.o.g i).resume)
        else ((c.o.g.lane i).pc, (c.o.g.lane i).resume)) ∧
  (∀ w s c t i, issueOf (.eret w) s = some (c, t) → c.o.g.handler = true →
    c.o.g.trapCause.toNat % 256 ≠ 0x10 → c.o.g.trapCause.toNat % 256 ≠ 0x11 → i ∈ c.o.g.hset →
    (frameOf c.o.g i).1.toNat % 8 ≠ 0 ∨ (frameOf c.o.g i).2.toNat % 8 ≠ 0 →
    exec (.eret w) s = .next (t.endLaunch c.lid 8 5)) ∧
  (∀ (g : Group) i, (returned g i).pc = (if (frameOf g i).1 = (frameOf g i).2 then (frameOf g i).2 else (frameOf g i).1) ∧
    (returned g i).resume = if (frameOf g i).1 = (frameOf g i).2 then none else some (frameOf g i).2)

/-! ## Register units -/

/-- RCLAIM, RGIVE, RTRY and RCOUNT (05 R141 to R144): what is granted grows the allocation by registers that read 0;
RCLAIM that is not granted waits in the queue of its kernel on its core, RTRY goes on with its answer, RGIVE gives
registers back, and RCOUNT reads the account. The claims of a kernel on a core are granted from the head of their queue, while
the free units cover the head (R138). Where every live group of a block is blocked at a barrier, at a claim or by a shed, and
one claims, every group in RCLAIM traps with REGISTER_DEADLOCK and its claim leaves the queue (R146); otherwise nothing more
happens. The model's own readings here: logs 31, 65. -/
def Obligations.RegisterUnits : Prop :=
  (∀ w s c t, issueOf (.rclaim w) s = some (c, t) → c.real ≠ [] → c.o.g.alloc + w.imm.toNat ≤ 120 →
    w.imm.toNat / 4 + (c.o.g.alloc / 4 + 1) ≤ c.quota t →
    (c.noClaims t = true ∧ w.imm.toNat / 4 ≤ c.free t → ∃ g u, exec (.rclaim w) s = .next (u.settleGroup c.gid) ∧
      Grown c w.imm.toNat g ∧ MovedOn c (t.setGroup c.gid g) u []) ∧
    (¬ (c.noClaims t = true ∧ w.imm.toNat / 4 ≤ c.free t) →
      Blocks (.rclaim w) s (t.modQuota c.core c.lid fun q =>
        { q with claims := q.claims ++ [.group c.gid (w.imm.toNat / 4)] }) c (.claim (w.imm.toNat / 4)))) ∧
  (∀ w s c t, issueOf (.rclaim w) s = some (c, t) → c.real ≠ [] → 120 < c.o.g.alloc + w.imm.toNat →
    Traps (.rclaim w) s t c (Cause.operand w.imm.toNat) c.here) ∧
  (∀ w s c t, issueOf (.rclaim w) s = some (c, t) → c.real ≠ [] → c.o.g.alloc + w.imm.toNat ≤ 120 →
    c.quota t < w.imm.toNat / 4 + (c.o.g.alloc / 4 + 1) →
    Traps (.rclaim w) s t c ⟨Cause.registerDeadlock, BitVec.ofNat 64 (w.imm.toNat / 4), 0⟩ c.here) ∧
  (∀ w s c t, issueOf (.rgive w) s = some (c, t) → c.real ≠ [] → c.o.g.flagsClear = true → w.imm.toNat ≤ c.o.g.alloc →
    c.noClaims t = true → ∃ g u, exec (.rgive w) s = .next (u.settleGroup c.gid) ∧
      g = { c.o.g with run := some c.r, alloc := c.o.g.alloc - w.imm.toNat, regs := g.regs } ∧
      (∀ i, i < 32 → ∀ r, g.reg i r =
        if c.o.g.alloc - w.imm.toNat ≤ r ∧ r < c.o.g.alloc then 0 else c.o.g.reg i r) ∧
      MovedOn c (t.setGroup c.gid g) u []) ∧
  (∀ w s c t, issueOf (.rtry w) s = some (c, t) → c.real ≠ [] →
    let fits := c.o.g.alloc + w.imm.toNat ≤ 120 ∧ w.imm.toNat / 4 + (c.o.g.alloc / 4 + 1) ≤ c.quota t
    let room := c.noClaims t = true ∧ w.imm.toNat / 4 ≤ c.free t
    (¬ fits → Completes (.rtry w) s c [] w.d fun _ => [2]) ∧
    (fits ∧ ¬ room → Completes (.rtry w) s c [] w.d fun _ => [1]) ∧
    (fits ∧ room → ∃ g u, exec (.rtry w) s = .next u ∧ Grown c w.imm.toNat g ∧
      MovedOn c (t.setGroup c.gid (writeLanes g w.d (c.act.map fun i => (i, [0])))) u [])) ∧
  (∀ w s c t, issueOf (.rcount w) s = some (c, t) → Completes (.rcount w) s c [] w.d fun _ =>
    [BitVec.ofNat 32 (if w.md = 0 then c.o.g.alloc else if w.md = 1 then c.free t else t.usedUnits c.core c.lid)]) ∧
  (∀ (s : State) core lid q n, s.quota? core lid = some q → q.claims = [] → s.grantClaims core lid n = s) ∧
  (∀ (s : State) core lid q gid units rest n, s.quota? core lid = some q → q.claims = .group gid units :: rest →
    (s.freeUnits core lid < units → s.grantClaims core lid n = s) ∧
    (units ≤ s.freeUnits core lid → s.grantClaims core lid (n + 1) =
      ((s.modQuota core lid fun q => { q with claims := rest }).grantGroup gid units).grantClaims core lid n)) ∧
  (∀ (s : State) core lid q bid units rest n, s.quota? core lid = some q → q.claims = .formed bid units :: rest →
    (s.freeUnits core lid < units → s.grantClaims core lid n = s) ∧
    (units ≤ s.freeUnits core lid → s.grantClaims core lid (n + 1) =
      ((s.modQuota core lid fun q => { q with claims := rest }).grantFormed bid).grantClaims core lid n)) ∧
  (∀ (s : State) gid g units, s.group? gid = some g → ∃ h, s.grantGroup gid units = (s.setGroup gid h).advance gid [] ∧
    h = { g with alloc := g.alloc + 4 * units, regs := h.regs } ∧ ∀ i, i < 32 → ∀ r, h.reg i r =
      if g.alloc ≤ r ∧ r < g.alloc + 4 * units then 0 else g.reg i r) ∧
  (∀ (s : State) bid b pre f post, s.block? bid = some b → b.forming = pre ++ f :: post → (∀ x ∈ pre, x.slot = none) →
    ∀ k, f.slot = some k → s.grantFormed bid = (s.setBlock bid { b with forming := pre ++ post }).startFormed bid k f) ∧
  (∀ (s : State) bid b, s.deadlocked bid b = true ↔
    ((∃ e ∈ s.groupsOf bid, e.2.hasLive = true ∧ State.atClaim e.2 = true) ∨ ∃ f ∈ b.forming, f.slot ≠ none) ∧
    ∀ e ∈ s.groupsOf bid, e.2.hasLive = true → e.2.shut = true ∨ State.atClaim e.2 = true ∨ State.atBarrier b e.2 = true) ∧
  (∀ (s : State) bid b lid l, s.block? bid = some b → s.launchOfBlock bid = some lid → s.launch? lid = some l →
    ((s.settleOnce bid).2 = false → s.Quiet bid b) ∧
    (s.Quiet bid b → s.deadlocked bid b = false → s.settleOnce bid = (s, false)) ∧
    (s.Quiet bid b → s.deadlocked bid b = true → (s.settleOnce bid).1 = s.trapDeadlock bid b.core lid)) ∧
  (∀ (s : State) bid core lid, s.trapVec ≠ 0 → (∀ e ∈ s.groupsOf bid, e.2.handler = false) → ∃ v : State,
    s.trapDeadlock bid core lid = v.grantClaims core lid 64 ∧
    (∀ h, (∀ e ∈ s.groupsOf bid, e.1 = h → State.atClaim e.2 = false) → v.group? h = s.group? h) ∧
    ∀ gid g u r o, (gid, g) ∈ s.groupsOf bid → g.blocked = some (.claim u) → g.run = some r → s.owner? gid = some o →
      (∀ q n, v.quota? core lid = some q → .group gid n ∉ q.claims) ∧
      ∃ h : Group, v.group? gid = some h ∧ h.handler = true ∧ h.run = none ∧ h.blocked = none ∧
        h.trapCause = BitVec.ofNat 64 Cause.registerDeadlock ∧ h.trapPc = wordAddr r.caddr r.idx ∧ h.trapCaddr = r.caddr ∧
        h.trapInfo = BitVec.ofNat 64 (u % 2 ^ 11 + 2 ^ 16 * (s.freeUnits core lid % 2 ^ 11)))

/-! ## Loads, stores and atomics -/

/-- LD, LDT and PREF (09 R254 to R263): a load's checks run first and a failed one traps with nothing performed; then its values
are pending on its flag. An LD whose misses must join walks or queue for a walker waits for them (R247). An LDT whose lanes all
have their translations loads them and answers 0 in E; a lane without one keeps its D and answers 1. PREF has no result. No load
changes anything but the memory system. An LD at a scale-up peer waits for an earlier copy of its group there (18 R480). The
model's own reading here: logs 2, 39, 85. -/
def Obligations.LoadWords : Prop :=
  (∀ w s c t, issueOf (.ld w) s = some (c, t) →
    let n := Sys2Proof.sizeOf w.size.toNat
    let a := mAddr c w n
    let k := checkAll t (c.who t) .read ⟨true, true⟩ (c.wants a n) (some w.sched.h.toNat)
    AccessWord OnlyMemory (walkAddrs (c.who t) .read (c.wants a n)) (peerWaits c c.act k a) (.ld w) s t c w.d (match k with
      | ⟨b, .error x⟩ => .error (x, b)
      | ⟨b, .ok ts⟩ =>
        let r := loadLanes (c.who t) n w.sched.h.toNat (extendCode w.size.toNat)
          ((c.act.zip ts).map fun e => (e.1, a e.1, e.2)) b
        .ok (r.1, resultKeys w.d r.2))) ∧
  (∀ w s c t, issueOf (.ldt w) s = some (c, t) → c.full = none →
    let n := Sys2Proof.sizeOf w.b.xb.toNat
    let a := ldtAddr c w n
    (∀ i ∈ c.real, State.checkLease (c.who t) (a i) n .read = none) →
    (∀ i ∈ c.real, State.checkAlign (a i) n = none) →
    (∀ i ∈ c.act, inWindow (a i) = true ∨ t.hasEntry c.core c.o.l.aspace (a i) = true) →
    ∀ b ts, checkAll t (c.who t) .read ⟨false, false⟩ (c.wants a n) (some w.sched.h.toNat) = ⟨b, .ok ts⟩ →
      let r := loadLanes (c.who t) n w.sched.h.toNat (extendCode w.b.xb.toNat)
        ((c.act.zip ts).map fun e => (e.1, a e.1, e.2)) b
      OnlyMemory t r.1 ∧ ∃ u, exec (.ldt w) s = .next u ∧
        StartedFrom c r.1 u (.ldt []) w.d
          (resultKeys w.d r.2 ++ resultKeys w.e (c.act.map fun i => (i, [some 0])))) ∧
  (∀ w s c t i, issueOf (.ldt w) s = some (c, t) → c.full = none → c.act = [i] → c.real = [i] → w.e ≠ 124 → w.e.toNat < 124 →
    let n := Sys2Proof.sizeOf w.b.xb.toNat
    let a := ldtAddr c w n i
    State.checkLease (c.who t) a n .read = none → State.checkAlign a n = none →
    inWindow a = false → t.hasEntry c.core c.o.l.aspace a = false →
    t.walkOf (coreSlot c.core) c.o.l.aspace (t.pageOf c.o.l.aspace a) = none →
    ∃ u g, exec (.ldt w) s = .next u ∧ u.group? c.gid = some g ∧ g.regs = c.o.g.regs ∧
      g.pending = c.o.g.pending ++ [⟨32 * w.e.toNat + i, t.fresh, some 1⟩] ∧
      ∃ k r, tget? u.walks k = some r ∧ r.chip = coreSlot c.core ∧ r.vpage = t.pageOf c.o.l.aspace a ∧ clusterOf c.core ∈ r.clusters ∧
        ⟨t.fresh, some a⟩ ∈ r.ldts) ∧
  (∀ w s c t, issueOf (.pref w) s = some (c, t) → ∃ u, exec (.pref w) s = .next u ∧
    MovedOn c (c.act.foldl (fun s i => s.prefLane (c.who t) (Sys2Proof.sizeOf w.size.toNat) w.sched.h.toNat
      (mAddr c w (Sys2Proof.sizeOf w.size.toNat) i)) t) u [])

/-- LD and ST whose lanes all access the scratchpad window (08 R209, 09 R259): a load has the bytes that are there and
changes none; after a store each byte stored is the highest lane's that stores it, and every other byte of every
scratchpad, and all of memory, is as it was. The model's own reading here: log 2. -/
def Obligations.ScratchpadAccesses : Prop :=
  (∀ w s c t b ts, issueOf (.ld w) s = some (c, t) → c.full = none →
    let n := Sys2Proof.sizeOf w.size.toNat
    checkAll t (c.who t) .read ⟨true, true⟩ (c.wants (mAddr c w n) n) (some w.sched.h.toNat) = ⟨b, .ok ts⟩ →
    (∀ x ∈ ts, ∃ k o, x = some (.scr k o)) →
    b = t ∧ ∃ u, exec (.ld w) s = .next u ∧ StartedFrom c t u .plain w.d (resultKeys w.d ((c.act.zip ts).map fun e =>
      (e.1, match e.2 with
        | some (.scr k o) => (extendCode w.size.toNat (t.scratchRead k o n)).map some
        | _ => [])))) ∧
  (∀ w s c t b ts, issueOf (.st w) s = some (c, t) → c.full = none →
    let n := Sys2Proof.sizeOf w.size.toNat
    writeTargets c (c.who t) t .write ⟨true, true⟩ (mAddr c w n) n = ⟨b, .ok ts⟩ →
    (∀ x ∈ ts, ∃ k o, x = some (.scr k o) ∧ (t.block? k).isSome) →
    ∃ v u, exec (.st w) s = .next u ∧ StartedFrom c v u .plain 127 [] ∧ v.mem = t.mem ∧
      (∀ k o, (∀ e ∈ c.real.zip ts, ¬ Covers e.2 n k o) → v.scratchByte k o = t.scratchByte k o) ∧
      ∀ pre i p k rest, c.real.zip ts = pre ++ (i, some (.scr k p)) :: rest → ∀ j, j < n →
        (∀ e ∈ rest, ¬ Covers e.2 n k (p + j)) → v.scratchByte k (p + j) = (c.dataBytes w.d n i).getD j 0)

/-- ST, STMC and STRD (09 R254 to R259, R264 to R267): a failed check traps with nothing stored; otherwise each lane's
bytes are stored in ascending order, at every destination for STMC, and combined with what is there for STRD; nothing but
the memory system changes, and for STRD the event counts. A word whose misses must wait for walks (R247), or that an earlier
copy holds back (08 R223, 18 R480), leaves its effect to a later issue. The model's own reading here: logs 2, 36, 85. -/
def Obligations.StoreWords : Prop :=
  (∀ w s c t, issueOf (.st w) s = some (c, t) →
    let n := Sys2Proof.sizeOf w.size.toNat
    let a := mAddr c w n
    AccessWord OnlyMemory (walkAddrs (c.who t) .write (c.realWants a n)) (writesBusy c (c.who t) t .write ⟨true, true⟩ a n) (.st w) s t c 127
      (match writeTargets c (c.who t) t .write ⟨true, true⟩ a n with
      | ⟨b, .error x⟩ => .error (x, b)
      | ⟨b, .ok ts⟩ =>
        .ok (storeLanes (c.who t) w.sched.h.toNat ((c.real.zip ts).map fun e => (a e.1, e.2, c.dataBytes w.d n e.1)) b, []))) ∧
  (∀ w s c t, issueOf (.stmc w) s = some (c, t) →
    let n := Sys2Proof.sizeOf (w.e.toNat % 8)
    AccessWord OnlyMemory (destAddrs c w (c.who t) .write n) (destsBusy c w (c.who t) t .write n) (.stmc w) s t c 127 (match checkDests c w (c.who t) t .write n with
      | (b, .error x) => .error (x, b)
      | (b, .ok ts) => .ok (ts.foldl (fun s x =>
          s.targetStore (c.who t) x.2.2.2 x.2.2.1 (c.dataBytes w.d n x.1) w.sched.h.toNat) b, []))) ∧
  (∀ w s c t, issueOf (.strd w) s = some (c, t) →
    let n := 4 * tyRegs w.ty
    AccessWord MemoryAndCounts (destAddrs c w (c.who t) .rmw n) (destsBusy c w (c.who t) t .rmw n) (.strd w) s t c 127 (match checkDests c w (c.who t) t .rmw n with
      | (b, .error x) => .error (x, b)
      | (b, .ok ts) => .ok (ts.foldl (fun s x =>
          let data := natOfBytes (c.dataBytes w.d n x.1)
          let r := s.targetRmw (c.who t) x.2.2.2 x.2.2.1 n fun old => some (combineBytes w.ty w.md data old).1
          r.1.countEvents c.lid ((combineBytes w.ty w.md data r.2).2.map fun k => ((fmtOf w.ty).ev, k))) b, [])))

/-- ATOM, ATOMCAS, REDM and SIGCLR (11 R310 to R316): after their checks the lanes' read-modify-writes take place in
ascending order, each old value the result of its lane in ATOM and ATOMCAS, which writes nothing where it compares unequal;
SIGCLR clears the colophons of its cells. A word whose misses must wait for walks (09 R247) leaves its effect to a later issue,
and so does one that an earlier copy holds back (08 R223, 18 R480), which is the model's reading (logs 36, 85). The model's own
reading here: logs 2, 36, 38, 85. -/
def Obligations.AtomicWords : Prop :=
  (∀ w s c t, issueOf (.atom w) s = some (c, t) →
    AtomicWord (.atom w) s t c w true fun i old =>
      let r := atomOp w.ty w.b.xb.toNat old (atomData c w w.b.reg i)
      (some r.1, r.2)) ∧
  (∀ w s c t, issueOf (.atomcas w) s = some (c, t) →
    AtomicWord (.atomcas w) s t c w true fun i old =>
      (if old = atomData c w w.b.reg i then some (atomData c w w.c.reg i) else none, [])) ∧
  (∀ w s c t, issueOf (.redm w) s = some (c, t) →
    AtomicWord (.redm w) s t c w false fun i old =>
      let r := atomOp w.ty w.b.xb.toNat old (atomData c w w.b.reg i)
      (some r.1, r.2)) ∧
  (∀ w s c t, issueOf (.sigclr w) s = some (c, t) →
    let a (i : Nat) : Nat := (c.rdw w.a i).toNat
    AccessWord OnlyMemory (walkAddrs (c.who t) .write (c.realWants a 128)) (writesBusy c (c.who t) t .write ⟨false, false⟩ a 128) (.sigclr w) s t c 127
      (match writeTargets c (c.who t) t .write ⟨false, false⟩ a 128 with
      | ⟨b, .error x⟩ => .error (x, b)
      | ⟨b, .ok ts⟩ => .ok ((laneTargets c a ts).foldl (fun s x => match x.2.2 with
          | .scr _ _ => s
          | .mem e =>
            let s := s.toHome c.core e x.2.1 128
            let l := s.homeRead e x.2.1 16
            s.homePut e x.2.1 (l.take 8 ++ bytesOfNat 8 (setField (cellControl l) 47 1 0).toNat
              ++ List.replicate 112 0)) b, [])))

/-- LDACQ, STREL and FENCE (11 R301 to R315), and the promotion that LDACQ.rm asks for (11 R306, R307): a release publishes
with its stores, an acquire invalidates after its loads, and a fence does either or both; LDACQ.rm asks for each promotion
once before it acquires; a promotion publishes for the core that the cell names, marks the cell, and changes nothing but the
memory system. A word whose misses must wait for walks (09 R247) leaves its effect to a later issue, and so does one that an
earlier copy holds back (08 R223, 18 R480), which is the model's reading (logs 36, 85). The model's own reading here: logs 2, 36,
40, 76, 85. -/
def Obligations.AcquireAndRelease : Prop :=
  (∀ w s c t, issueOf (.ldacq w) s = some (c, t) → w.sched.h ≠ 1 ∨ wantsPromotion c w t = [] →
    let a := mAddr c w 8
    let k := writeTargets c (c.who t) t .read ⟨false, true⟩ a 8
    AccessWord OnlyMemory (walkAddrs (c.who t) .read (c.realWants a 8)) (peerWaits c c.real k a) (.ldacq w) s t c w.d (match k with
      | ⟨b, .error x⟩ => .error (x, b)
      | ⟨b, .ok ts⟩ =>
        let r := syncWord c (c.who t) 8 w.size.toNat true false none (laneTargets c a ts) b
        .ok (r.s, resultKeys w.d (r.old.map fun e => (e.1, (bytesRegs e.2).map some)))) .acquire) ∧
  (∀ w s c t b ts, issueOf (.ldacq w) s = some (c, t) → c.full = none → wantsPromotion c w t ≠ [] →
    writeTargets c (c.who t) t .read ⟨false, true⟩ (mAddr c w 8) 8 = ⟨b, .ok ts⟩ →
    t.waitWalks c.core c.o.l.aspace (walkAddrs (c.who t) .read (c.realWants (mAddr c w 8) 8)) = none →
    let cells := (wantsPromotion c w t).map fun x => x.1.phys x.2.1 / 128
    ∃ u g, exec (.ldacq w) s = .next u ∧ u = { t with groups := u.groups, cores := u.cores, agenda := u.agenda } ∧
      u.agenda = (cells.map fun x => Event.op (.remotePromotionRequest c.core x w.size.toNat)) ++ .issue c.gid :: t.agenda ∧
      Others c.gid c.core t u ∧ u.group? c.gid = some g ∧
      g = { c.o.g with run := some { c.r with asked := unionNat cells c.r.asked } }) ∧
  (∀ w s c t, issueOf (.strel w) s = some (c, t) →
    let a := mAddr c w 8
    AccessWord OnlyMemory (walkAddrs (c.who t) .write (c.realWants a 8)) (writesBusy c (c.who t) t .write ⟨false, true⟩ a 8) (.strel w) s t c 127
      (match writeTargets c (c.who t) t .write ⟨false, true⟩ a 8 with
      | ⟨b, .error x⟩ => .error (x, b)
      | ⟨b, .ok ts⟩ => .ok ((syncWord c (c.who t) 8 w.size.toNat false true (some fun i _ => (some (c.dataBytes w.d 8 i), []))
          (laneTargets c a ts) b).s, []))) ∧
  (∀ w s c t, issueOf (.fence w) s = some (c, t) →
    let scope := w.e.toNat % 8
    let kind := w.e.toNat / 8 % 4
    let b := if kind = 0 then t else t.cleanSelf c.core
    (c.real = [] ∨ scope < 3 → Completes (.fence w) s c [] 124 fun _ => []) ∧
    (c.real ≠ [] ∧ 3 ≤ scope → ∃ u, exec (.fence w) s = .next u ∧
      OnlyMemory t (if kind = 1 then b else b.acquire c.core scope false []) ∧
      MovedOn c (if kind = 1 then b else b.acquire c.core scope false []) u [])) ∧
  (∀ s c w e a k gid, s.acquiring gid = some (c, w) → (∀ h, h ≠ gid → s.acquiring h = none) →
    (promotions c w s).find? (fun x => x.1.phys x.2.1 / 128 == e.phys a / 128) = some (e, a, k) →
    let s0 := (s.cleanSelf k).toHome c.core e a 128
    let s1 := (s0.publishInto k e a).clearFilter k
    let l := s1.homeRead e a 16
    let u := s1.homePut e a (l.take 8 ++ bytesOfNat 8 (setField (cellControl l) 43 1 1).toNat)
    exec (.remotePromotionRequest c.core (e.phys a / 128) w.size.toNat) s = .next u ∧ OnlyMemory s u)

/-- A core's load after its store of the same bytes to a self-invalidating page, with both through its L1, has the bytes
stored, and the line is in the core's write-set filter (10 R272, 11 R299, R300). -/
def Obligations.LoadAfterStore : Prop :=
  ∀ (s : State) c e asid va l hint hint', e.coh = true → e.home ≠ 3 → isPeer (e.phys va) = false →
    s.usable (e.phys va) = true → (hint ≠ 3 ∨ e.home = 1) → (hint' ≠ 3 ∨ e.home = 1) →
    0 < l.length → e.phys va % 128 + l.length ≤ 128 →
    let u := s.storeBytes c e asid va l hint
    u.usable (e.phys va) = true → (u.loadBytes c e asid va l.length hint').2 = l ∧
      hits (e.phys va / 128) (u.core c).filter = true

/-- Publishing leaves a core no dirty byte of a self-invalidating line; an acquire at the widest scope, or with an access
that is no cell's, leaves it no such line (11 R301, R303). -/
def Obligations.PublishAndAcquire : Prop :=
  (∀ (s : State) c x, x ∈ ((s.cleanSelf c).core c).l1 → x.self = true → x.dirty = 0) ∧
  (∀ (s : State) c scope x, x ∈ ((s.acquire c scope false []).core c).l1 → x.self = false) ∧
  (∀ (s : State) c all cells x, x ∈ ((s.acquire c 5 all cells).core c).l1 → x.self = false)

/-! ## Caches and translations -/

/-- WALK, CINV and TLBINV (09 R251 to R253, 10 R281 to R285): a WALK checks its range and its object, takes its entry and
starts, its result pending, and one of no bytes completes with its arrival; CINV removes the lines of its addresses from the
core's L1; TLBINV removes every matching entry from every TLB, and one of length 0 only asks for room in its flag. The model's
own reading here: log 35. -/
def Obligations.CacheWords : Prop :=
  (∀ w s c t l, issueOf (.walk w) s = some (c, t) → c.l0 = some l → c.full = none →
    let a := (c.rdw w.a l).toNat
    let n := (c.rdw w.b l).toNat
    let op := w.e.toNat % 4
    let bo := if w.c.reg = 127 then none else some (c.rd w.c l).toNat
    let k : AccessKind := if op = 1 then .read else .write
    let lo := a / 128
    let stop := if n = 0 then lo else (a + n - 1) / 128 + 1
    let res := resultKeys w.d (c.act.map fun i => (i, [none]))
    let kind (bo : Option Nat) := OpKind.shelf op (w.e.toNat / 4 % 4) bo lo stop c.o.l.aspace
    (2 ^ 40 < n → Traps (.walk w) s t c (Cause.operand (n / 2 ^ 40)) c.here) ∧
    (n ≤ 2 ^ 40 → (t.checkRange (c.who t) k (128 * lo) (128 * (stop - lo))).orElse
        (fun _ => bo.bind fun o => t.objCheck c.bid o 16 16) = none →
      (n = 0 → bo = none → Completes (.walk w) s c [] w.d fun _ => [0]) ∧
      (∀ o, n = 0 → bo = some o → ∃ u, exec (.walk w) s = .next u ∧
        WroteFrom c (t.arriveAt c.bid o 1).1 u [] w.d fun _ => [if (t.arriveAt c.bid o 1).2 then 0 else 2]) ∧
      (n ≠ 0 → 8 ≤ shelfWalks t (clusterOf c.core) → Blocks (.walk w) s t c .walkers) ∧
      (n ≠ 0 → shelfWalks t (clusterOf c.core) < 8 →
        t.takeLocks t.fresh [⟨clusterOf c.core, .mem lo (stop - 1), k.w⟩] = none →
        Blocks (.walk w) s t c (.rlt [clusterOf c.core])) ∧
      (∀ b, n ≠ 0 → shelfWalks t (clusterOf c.core) < 8 →
        t.takeLocks t.fresh [⟨clusterOf c.core, .mem lo (stop - 1), k.w⟩] = some b → b.lockWaits t.fresh = false →
        ∃ u, exec (.walk w) s = .next u ∧ StartedFrom c b u (kind bo) w.d res))) ∧
  (∀ w s c t b l, issueOf (.cinv w) s = some (c, t) →
    (∀ i ∈ c.real, State.checkLease (c.who t) (c.rdw w.a i).toNat 1 .read = none) →
    checkProbe (c.who t) (c.real.map fun i => (c.rdw w.a i).toNat) t = (b, .ok l) →
    (∀ x ∈ l, b.lockCause (clusterOf c.core) (.mem x.1) 1 false = none) →
    ∃ v, OnlyMemory t v ∧ (∃ u, exec (.cinv w) s = .next u ∧ MovedOn c v u []) ∧
      (∀ x ∈ l, ∀ y ∈ (v.core c.core).l1,
        ¬ (y.vline = x.1 / 128 ∧ (y.g = true ∨ y.asid = fieldOf c.o.l.aspace 0 16))) ∧
      ∀ x y, l = [x] → (b.core c.core).l1.filter (fun z => z.vline == x.1 / 128 && (z.g || z.asid == fieldOf c.o.l.aspace 0 16))
        = [y] → v = b.walkL1 c.core y.pline ⟨!y.self || w.ebit 5, true⟩) ∧
  (∀ w s c t l, issueOf (.tlbinv w) s = some (c, t) → c.l0 = some l → c.full = none → c.rdw w.b l ≠ 0 →
    let a := (c.rdw w.a l).toNat
    Invalidates (.tlbinv w) s t c w.d
      ⟨(c.rd w.c l).toNat % 65536, w.ebit 5, a, min (a + (c.rdw w.b l).toNat) (2 ^ 55)⟩) ∧
  (∀ w s c t l, issueOf (.tlbinv w) s = some (c, t) → c.l0 = some l → c.rdw w.b l = 0 →
    (∀ f, c.full = some f → Blocks (.tlbinv w) s t c (.flagFull f)) ∧
    (c.full = none → Completes (.tlbinv w) s c [] 124 fun _ => [])) ∧
  (∀ w s c t l, issueOf (.tlbinvAsid w) s = some (c, t) → c.l0 = some l → c.full = none →
    Invalidates (.tlbinvAsid w) s t c w.d ⟨(c.rd w.c l).toNat % 65536, w.ebit 5, 0, 2 ^ 55⟩)

/-- The steps of walks and of the directory (09 R247, R263, 10 R275, R283): the Shelf Reader handles the next line of a
walk whose entries do not wait, a page walk installs what it finds, an expired hold goes, and the directory serves a
request of a core for a line of its L1. The model's own reading here: logs 2, 35. -/
def Obligations.WalkSteps : Prop :=
  (∀ (s : State) n x op reach bo next stop asp e, tget? s.ops n = some x → x.kind = .shelf op reach bo next stop asp →
    next < stop → x.held = false → (s.translate x.core asp (128 * next)).entry = some e →
    isPeer (e.phys (128 * next)) = false → e.home ≠ 3 →
    let b := (s.translate x.core asp (128 * next)).s.walkLine x.core reach (e.phys (128 * next) / 128) (lineOp op)
    OnlyMemory s b ∧ exec (.shelfReaderLine n) s =
      .next { b with ops := tput s.ops n { x with kind := .shelf op reach bo (next + 1) stop asp } }) ∧
  (∀ (s : State) n w e, tget? s.walks n = some w → w.active = true → (s.walk w.aspace (65536 * w.vpage)).bad = none →
    (s.walk w.aspace (65536 * w.vpage)).leaf = some e → e.ok = true → w.prefs = [] →
    let t := ({ s with walks := tdel s.walks n }).nextWalk w.chip w.bank
    exec (.pageWalkCompletion n) s =
      .next (w.clusters.foldl (fun s k => s.installHeld k e w.ldts) (t.installChip w.chip e))) ∧
  (∀ (s : State) k page, ∃ u, exec (.ldtHoldExpiry k page) s = .next u ∧ u = { s with clusters := u.clusters } ∧
    (∀ j, j ≠ k → u.cluster j = s.cluster j) ∧ (u.cluster k).tlb = (s.cluster k).tlb.map fun e =>
      if e.vpage = page then { e with hold := e.hold.filter s.holds } else e) ∧
  (∀ (s : State) core pline write bytes x, l1Phys (s.core core).l1 pline = some x → x.self = false →
    (write = true → x.w = true) →
    exec (.directoryRequest core pline write bytes) s = .next (s.dirRequest core pline write bytes x.below) ∧
      OnlyMemory s (s.dirRequest core pline write bytes x.below))

/-- The directory's answers (10 R275), none standing for a merge, after which the request is served from I. From I a reader
shares and a writer owns. From S readers share; a writer alone owns, else the sharers and it take part with its bytes its own,
where they are at most 8, and else a merge comes first. The owner goes on as the owner; another core's request takes part with
its own bytes or none, where the owner has none of the access's bytes. In P a request for bytes of another participant merges;
otherwise a participant goes on, with the bytes it writes added, and another core joins where fewer than 8 take part. No write
is granted for bytes that another core owns. -/
def Obligations.DirectoryAnswers : Prop :=
  (∀ c x, State.dirNext .i c false x = some (.s [c]) ∧ State.dirNext .i c true x = some (.o c x)) ∧
  (∀ l c x, State.dirNext (.s l) c false x = some (.s (insertNat c l))) ∧
  (∀ c m x, State.dirNext (.o c m) c true x = some (.o c (m ||| x)) ∧ State.dirNext (.o c m) c false x = some (.o c m)) ∧
  (∀ k m c x w, k ≠ c → x &&& m ≠ 0 → State.dirNext (.o k m) c w x = none) ∧
  (∀ l c x w, x &&& State.othersMask l c ≠ 0 → State.dirNext (.p l) c w x = none) ∧
  (∀ l c x, (∀ k ∈ l, k = c) → State.dirNext (.s l) c true x = some (.o c x)) ∧
  (∀ l c x, (∃ k ∈ l, k ≠ c) → State.dirNext (.s l) c true x =
    if (insertNat c l).length ≤ 8 then some (.p ((insertNat c l).map fun k => (k, if k = c then x else 0))) else none) ∧
  (∀ k m c x w, k ≠ c → x &&& m = 0 → ∃ l, State.dirNext (.o k m) c w x = some (.p l) ∧ l.length = 2 ∧
    tget? l k = some m ∧ tget? l c = some (if w then x else 0)) ∧
  (∀ l m c x w, x &&& State.othersMask l c = 0 → tget? l c = some m →
    State.dirNext (.p l) c w x = some (.p (tput l c (if w then m ||| x else m)))) ∧
  (∀ l c x w, x &&& State.othersMask l c = 0 → tget? l c = none →
    State.dirNext (.p l) c w x = if l.length < 8 then some (.p (tput l c (if w then x else 0))) else none) ∧
  (∀ (s : State) c pline w x (y : L2Line), State.dirNext y.dir c w x = none →
    (s.dirTurn c pline w x y).2 = if w then .o c x else .s [c]) ∧
  (∀ (d : DirState) c x y, State.dirNext d c true x = some y → ∀ k, k ≠ c → x &&& y.maskOf k = 0)

/-! ## The ends of operations -/

/-- LONG_LATENCY_COMPLETION and the other completions (02 R26, 07 R195, 08 R224 to R226, R235, 09 R252, R262, 10 R284, 12
R340): an operation whose work is done ends: its results are written, with a status where it has one, its flag falls by
one, and its range-lock entries are free. The model's own reading here: log 41. -/
def Obligations.OperationsEnd : Prop :=
  (∀ (s : State) n o, tget? s.ops n = some o → o.kind = .plain ∨ o.kind = .acquire → Ends (.longLatencyCompletion n) s s n o none) ∧
  (∀ (s : State) n o l, tget? s.ops n = some o → o.kind = .ldt l → (∀ k ∈ l, tget? s.walks k = none) →
    Ends (.ldtCompletion n) s (s.modCluster (clusterOf o.core) fun c => { c with tlb := c.tlb.map fun e =>
      { e with hold := (e.hold.filter fun h => !(h.1 == o.gid && h.2.1 < n)).map fun h =>
          if h.2.1 = n then (h.1, n, s.rt.toNat + 2000) else h } }) n o none) ∧
  (∀ (s : State) n o l asid g lo hi, tget? s.ops n = some o → o.kind = .tlbinv [] l asid g lo hi →
    (∀ k ∈ l, tget? s.ops k = none) → Ends (.tlbinvCompletion n) s s n o none) ∧
  (∀ (s : State) n o walks l asid g lo hi, tget? s.ops n = some o → o.kind = .tlbinv walks l asid g lo hi → walks ≠ [] →
    (∀ k ∈ walks, tget? s.walks k = none) → (∀ k ∈ l, tget? s.ops k = none) → s.invOps ⟨asid, g, lo, hi⟩ = [] →
    let b := s.removeEntries (InvTest.matches ⟨asid, g, lo, hi⟩)
    OnlyMemory s b ∧ (∀ k, ∀ e ∈ (b.cluster k).tlb, InvTest.matches ⟨asid, g, lo, hi⟩ e = false) ∧
      Ends (.tlbinvCompletion n) s b n o none) ∧
  (∀ (s : State) n o op reach bo next asp, tget? s.ops n = some o → o.kind = .shelf op reach (some bo) next next asp →
    Ends (.walkCompletion n) s (s.arriveAt o.block bo 1).1 n o (some (if (s.arriveAt o.block bo 1).2 then 0 else 2))) ∧
  (∀ (s : State) n o op reach next asp, tget? s.ops n = some o → o.kind = .shelf op reach none next next asp →
    Ends (.walkCompletion n) s s n o (some 0)) ∧
  (∀ (s : State) n o a, tget? s.ops n = some o → o.kind = .token a → s.isSaved o.block = true →
    exec (.toktakeCompletion n) s = .next s) ∧
  (∀ (s : State) n o a, tget? s.ops n = some o → o.kind = .token a → s.isSaved o.block = false →
    s.accPending o.block a = false → Ends (.toktakeCompletion n) s (s.modBlock o.block fun b => { b with vectorTokens := insertNat a b.vectorTokens }) n o none) ∧
  (∀ (s : State) n o c, tget? s.ops n = some o → o.kind = .copy c → c.total ≤ c.done.length → c.cb = false → c.bo = none →
    Ends (.copyCompletion n) s s n o (some (if c.refused then 2 else 0))) ∧
  (∀ (s : State) n o c at_, tget? s.ops n = some o → o.kind = .copy c → s.preemptedAt o = some at_ →
    at_ + State.us 20 ≤ s.now → (c.cb && c.slot.isSome) = false →
    let t := s.modBlock o.block fun b => { b with bufq := b.bufq.filter fun q => q.op != some n }
    ∃ b, exec (.copyDrainExpiry n) s = .next ((b.settleGroup o.gid).grantBuffers o.block 64) ∧
      Finished (t.setResults n o.gid (o.act.map fun i => (32 * o.dest + i, 1))) b n o) ∧
  (∀ (s : State) n o q k a x hint at_, tget? s.ops n = some o → o.kind = .cpyq q k a x hint → s.preemptedAt o = some at_ →
    at_ + State.us 20 ≤ s.now → Ends (.copyDrainExpiry n) s s n o (some (2 ^ 32 - 1))) ∧
  (∀ (s : State) n o op reach bo next stop asp at_, tget? s.ops n = some o → o.kind = .shelf op reach bo next stop asp →
    s.preemptedAt o = some at_ → at_ + State.us 20 ≤ s.now → Ends (.copyDrainExpiry n) s s n o (some 1)) ∧
  (∀ (s : State) n o q k a x hint b items, tget? s.ops n = some o → o.kind = .cpyq q k a x hint → o.held = false →
    (s.block? o.block).isSome → s.cpyqItems o x hint a.toNat k = (b, .ok items) →
    let y := b.laneQueue o.block q
    let m := min k (y.slots - y.avail)
    let offs := (List.range m).map fun i => y.base + 8 * ((y.tail + i) % 2 ^ 32 % y.slots)
    y.valid = true → (∀ p ∈ offs, b.scratchCheck o.block p 8 = none) →
    Ends (.cpyqCompletion n) s (((offs.zip items).foldl (fun s e => s.scratchWrite o.block e.1 e.2) b).scratchPut
      o.block (q + 12) 4 ((y.tail + m) % 2 ^ 32)) n o (some m))

/-! ## Waits, flags and barrier objects -/

/-- WAIT (07 R197 to R201): where the translation of a cell must wait for a walk, the word waits (09 R247); its descriptors are
checked in order, and the first that fails traps; then its loop takes its first turn. A turn latches what holds and ends the
loop where the mode is satisfied, or else after the deadline with bit 31; the word then writes the result, and otherwise it
waits with WAITED set in its barrier objects. A loop that a delivery broke off goes on with its start and timeout, and the
result of one that had ended is written. A condition that has held for 100 rt is latched, and the loop ends no later than 2 rt
after its deadline. The model's own reading here: logs 2, 23, 60, 66, 73, 74. -/
def Obligations.WaitWords : Prop :=
  (∀ w s c t l start time, issueOf (.wait w) s = some (c, t) → c.l0 = some l →
    ((∀ x, c.savedHere ≠ some (.wait x)) ∧ start = t.rt ∧ time = (c.rdd w.b.reg l).toNat ∨
      ∃ x, c.savedHere = some (.wait x) ∧ x.res = none ∧ start = x.start ∧ time = x.timeout) →
    let ds := (List.range (Ctx.waitCount w)).map fun i => c.waitDesc w l i
    let walks := t.waitWalks c.core c.o.l.aspace (Ctx.cellAddrs (c.who t) ds)
    (∀ v, walks = some v → WaitsForWalks (.wait w) s t v) ∧ (walks = none → match c.checkDescs 0 ds t with
    | (b, some x) => Traps (.wait w) s b c x c.here
    | (b, none) =>
      let x : WaitLoop := { start := start, timeout := time, all := Ctx.waitAll w, act := c.act, descs := ds, met := [], held := []
                            res := none }
      let v := b.reachCells c.o c.gid x
      ∃ y, OnlyMemory t v ∧ Turned v c.o c.gid x y (x.Late t.rt) ∧
        (∀ r, y.res = some r → ∃ u, exec (.wait w) s = .next u ∧ WroteFrom c v u [] w.d fun _ => [r]) ∧
        (y.res = none → Blocks (.wait w) s (((ds.filter fun d => d.kind = 2).map WaitDesc.addr).foldl (fun s o =>
          s.scratchPut c.bid (o + 12) 4 ((s.scratchWord c.bid (o + 12)).toNat ||| 256)) v) c (.wait y)))) ∧
  (∀ w s c t x r, issueOf (.wait w) s = some (c, t) → c.savedHere = some (.wait x) → x.res = some r →
    ∃ u, exec (.wait w) s = .next u ∧
      WroteFrom { c with act := x.act } { s with issuing := none } u [] w.d fun _ => [r]) ∧
  (∀ s g, TurnsWait (.waitConditionMet g) s g False) ∧
  (∀ s g, TurnsWait (.waitTimeout g) s g True) ∧
  (∀ (s : State) g, Reissues (.waitConditionMet g) s g fun _ b => ∃ x, b = .wait x ∧ x.res.isSome = true) ∧
  (∀ (s : State) g, Reissues (.waitTimeout g) s g fun _ b => ∃ x, b = .wait x ∧ x.res.isSome = true) ∧
  ∀ (x : WaitLoop) holds n time, x.res = none →
    let y := x.pass holds n time
    (∀ i, i < x.descs.length → i ∈ holds → 76500 ≤ x.held.getD i 0 + n → i ∈ y.met) ∧
    (x.timeout ≠ 2 ^ 32 - 1 → x.timeout + 2 ≤ (time - x.start).toNat → y.res.isSome = true)

/-- FLAGRD, FLAGRD.cnt, TIME and CYCLE read flags and counters (07 R202, R204 to R206); BOREAD, BOINIT and BOARR read,
initialise and arrive at barrier objects (07 R203, 08 R218 to R221). That BOREAD makes the range-lock check of every read of a
thread is the model's reading of 08 R214 (log 23). The model's own reading here: logs 22, 23, 27. -/
def Obligations.FlagsTimeAndObjects : Prop :=
  WordV .flagrd (fun _ c _ => [laneMask ((List.range 12).filter fun f => c.o.g.flag f != 0)]) ∧
  WordV .flagrdCnt (fun w c _ => [BitVec.ofNat 32 (c.o.g.flag (w.e.toNat % 16))]) ∧
  (∀ w s c t, issueOf (.time w) s = some (c, t) →
    Completes (.time w) s c [] w.d fun _ => [s.rt.extractLsb' 0 32, s.rt.extractLsb' 32 32]) ∧
  (∀ w s c t, issueOf (.cycle w) s = some (c, t) → Completes (.cycle w) s c [] w.d fun _ =>
    let v := BitVec.ofNat 64 (s.cluster (clusterOf c.core)).cycles
    [v.extractLsb' 0 32, v.extractLsb' 32 32]) ∧
  (∀ w s c t, issueOf (.boread w) s = some (c, t) →
    ((∀ i ∈ c.real, t.objUse c.core c.bid (c.rd w.a i).toNat 16 16 false = none) →
      Completes (.boread w) s c [] w.d fun i =>
        if (t.objUse c.core c.bid (c.rd w.a i).toNat 16 16 false).isSome then [0, 0, 0, 0]
        else (List.range 4).map fun k => t.scratchWord c.bid ((c.rd w.a i).toNat + 4 * k)) ∧
    ∀ i x, c.real = [i] → t.objUse c.core c.bid (c.rd w.a i).toNat 16 16 false = some x →
      Traps (.boread w) s t c x c.here) ∧
  (∀ w s c t l, issueOf (.boinit w) s = some (c, t) → c.l0 = some l →
    let o := (c.rd w.a l).toNat
    let e := (c.rd w.b l).toNat
    (∀ x, t.objUse c.core c.bid o 16 16 true = some x → Traps (.boinit w) s t c x c.here) ∧
    (t.objUse c.core c.bid o 16 16 true = none → e = 0 → Traps (.boinit w) s t c (Cause.misuse o) c.here) ∧
    (t.objUse c.core c.bid o 16 16 true = none → e ≠ 0 →
      let b := t.putBarObj c.bid o ⟨e, 0, (t.barObj c.bid o).phase, if w.ebit 5 then 1 else 0⟩
      OnlyMemory t b ∧ ∃ u, exec (.boinit w) s = .next u ∧ MovedOn c b u [])) ∧
  (∀ w s c t l, issueOf (.boarr w) s = some (c, t) → c.l0 = some l →
    let o := (c.rd w.a l).toNat
    let n := if w.b.reg = 127 then 1 else (c.rd w.b l).toNat
    t.objUse c.core c.bid o 16 16 true = none →
    ((t.arriveAt c.bid o n).2 = false → Traps (.boarr w) s t c (Cause.misuse o) c.here) ∧
    ((t.arriveAt c.bid o n).2 = true → ∃ u, exec (.boarr w) s = .next u ∧
      WroteFrom c (t.arriveAt c.bid o n).1 u [] w.d fun _ => [BitVec.ofNat 32 (t.barObj c.bid o).phase]))

/-- An arrival at a barrier object (08 R219): refused where it is not initialised or breaks a reserved bit; the arrival that
reaches the expected count ends the phase, and clears WAITED. -/
def Obligations.BarrierObjectArrivals : Prop :=
  ∀ (x : BarObj) n,
    (x.expected = 0 ∨ x.rsv = true → x.arrive n = none) ∧
    (x.expected ≠ 0 → x.rsv = false → x.arrived + n < x.expected → x.arrive n = some { x with arrived := x.arrived + n }) ∧
    (x.expected ≠ 0 → x.rsv = false → x.expected ≤ x.arrived + n → ∃ y, x.arrive n = some y ∧ y.arrived = 0 ∧
      y.expected = x.expected ∧ y.phase = (x.phase + 1) % 2 ^ 32 ∧ y.mode.testBit 8 = false ∧
      y.mode.testBit 0 = x.mode.testBit 0 ∧ (y.mode.testBit 1 = true ↔ x.mode.testBit 1 = true ∨ x.expected < x.arrived + n))

/-! ## Copies and buffers -/

/-- CPY, CPYMC and CPYQ (08 R222 to R226, R233, R235): the checks of a CPY run at issue and nothing is copied if one
fails; a word whose memory side must wait for walks waits at its issue (09 R247); a word whose checks pass is outstanding with
its range-lock entries. COPY_UNIT_WRITE copies one unit, and ends the copy with NODE_FENCED where the unit lies at a peer that no
live port reaches any longer (18 R479); an operation that waited for others starts when they are gone, and a word that found no
entry is issued again. The model's own reading here: logs 2, 59, 86. -/
def Obligations.CopyWords : Prop :=
  (∀ w s c t l, issueOf (.cpy w) s = some (c, t) → c.l0 = some l → c.full = none →
    let y := Tile.read c w.a l
    let out := w.ebit 5
    let test := (t.tileAlign c.bid y).orElse fun _ => t.tileScratch c.bid y (w.ebit 6)
    let dir : AccessKind := if out then .write else .read
    let side := t.memorySide (c.who t) y.mrows y.len dir true
    let ready := SideReady t c y.mrows y.len dir
    (∀ x, test = some x → Traps (.cpy w) s t c x c.here) ∧
    (test = none → SideWaits (.cpy w) s t c y.mrows y.len dir) ∧
    (∀ b x, test = none → ready → side = (b, .error x) → Traps (.cpy w) s b c x c.here) ∧
    (∀ b xl, test = none → ready → side = (b, .ok xl) →
      let k := OpKind.copy (y.copy out (w.ebit 6) [c.bid] c.o.c.blocks xl (c.who t) w.sched.h.toNat)
      OnlyMemory t b ∧
      (w.ebit 6 = false →
        LockedWord (.cpy w) s b c w.d k (b.memoryLocks (c.who t) y.mrows y.len out ++ [b.tileLock c.bid y (!out)])) ∧
      ∀ v, w.ebit 6 = true →
        b.addLocked (c.op k w.d) (b.memoryLocks (c.who t) y.mrows y.len out ++ [⟨clusterOf c.core, .none, !out⟩])
          (resultKeys w.d (c.act.map fun i => (i, [none]))) = some v →
        exec (.cpy w) s = .next (((v.modBlock c.bid fun x => { x with
          bufq := x.bufq ++ [⟨y.soff.toNat, !out, c.gid, some b.fresh⟩] }).grantBuffers c.bid 64).advance c.gid []))) ∧
  (∀ w s c t l, issueOf (.cpymc w) s = some (c, t) → c.l0 = some l → c.full = none →
    let y := Tile.read c w.a l
    let mask := bitsOf 16 (c.rd w.b l).toNat
    t.tileAlign c.bid y = none →
    (∀ j ∈ mask, ∃ b, c.o.c.blocks[j]? = some b ∧ State.extentOk y y.soff.toNat (t.scratchSize b) = true ∧
      ∀ o, y.obj = some o → t.scratchCheck b o 16 = none) →
    SideWaits (.cpymc w) s t c y.mrows y.len .read ∧
    ∀ b xl, SideReady t c y.mrows y.len .read → t.memorySide (c.who t) y.mrows y.len .read false = (b, .ok xl) →
      let recv := mask.filterMap fun j => c.o.c.blocks[j]?
      OnlyMemory t b ∧
      (mask = [] → ∃ u, exec (.cpymc w) s = .next u ∧ WroteFrom c b u [] w.d fun _ => [0]) ∧
      (mask ≠ [] → LockedWord (.cpymc w) s b c w.d
        (.copy (y.copy false false recv c.o.c.blocks xl (c.who t) w.sched.h.toNat))
        (b.memoryLocks (c.who t) y.mrows y.len false ++ recv.map fun k => b.tileLock k y true))) ∧
  (∀ w s c t l, issueOf (.cpyq w) s = some (c, t) → c.l0 = some l → c.full = none →
    let q := (c.rd w.a l).toNat
    let n := min (c.rd w.c l).toNat 32
    let a := (c.rdw w.b l).toNat
    (a % 8 ≠ 0 → Traps (.cpyq w) s t c (Cause.align (BitVec.ofNat 64 a)) c.here) ∧
    (a % 8 = 0 → n = 0 → t.queueCheck c.core c.bid q true = none → Completes (.cpyq w) s c [] w.d fun _ => [0]) ∧
    (a % 8 = 0 → n ≠ 0 → SideWaits (.cpyq w) s t c [a] (8 * n) .read) ∧
    ∀ b xl, a % 8 = 0 → n ≠ 0 → SideReady t c [a] (8 * n) .read → t.memorySide (c.who t) [a] (8 * n) .read false = (b, .ok xl) →
      b.queueCheck c.core c.bid q true = none → OnlyMemory t b ∧
      LockedWord (.cpyq w) s b c w.d (.cpyq q n (BitVec.ofNat 64 a) xl w.sched.h.toNat) (b.memoryLocks (c.who t) [a] (8 * n) false)) ∧
  (∀ (s : State) n o c unit b l, tget? s.ops n = some o → o.kind = .copy c → o.held = false →
    (c.cb = true → c.slot.isSome) → unit < c.total → unit ∉ c.done → s.copyBusy n c unit = false →
    s.copyAfter n o c (unit % c.per) = false → c.snap = none → s.unitFenced c (unit % c.per) = none →
    c.selfOverlap = false → s.copyRead o c (unit % c.per) = (b, .ok l) →
    let a := (if c.overwritten unit then b else b.copyWrite o c unit l).copyArrive c (c.recv.getD (c.recvOf unit) 0) true
    exec (.copyUnitWrite n unit) s = .next { a.1 with ops := tmod a.1.ops n fun o =>
      { o with kind := .copy { c with done := insertNat unit c.done, refused := c.refused || a.2 } } }) ∧
  (∀ (s : State) n o c unit x, tget? s.ops n = some o → o.kind = .copy c → o.held = false →
    (c.cb = true → c.slot.isSome) → unit < c.total → unit ∉ c.done → s.copyBusy n c unit = false →
    s.copyAfter n o c (unit % c.per) = false → s.unitFenced c (unit % c.per) = some x →
    x.code = Cause.nodeFenced ∧ exec (.copyUnitWrite n unit) s = .next ((s.lateFault o x).endSilent n)) ∧
  (∀ (s : State) n o, tget? s.ops n = some o → o.held = true → s.lockWaits n = false →
    exec (.rangeLockConflictStart n) s = .next { s with ops := tput s.ops n { o with held := false } }) ∧
  (∀ (s : State) g, Reissues (.rltStallResume g) s g fun _ b => ∃ tables, b = .rlt tables ∧ s.roomForLocks tables = true)

/-- CBINIT, CBRES, CBACQ, CBCOMMIT, CBREL and the lane-queue words (08 R227 to R234). The model's own reading here: logs
31, 61. -/
def Obligations.BuffersAndQueues : Prop :=
  (∀ w s c t l, issueOf (.cbinit w) s = some (c, t) → c.l0 = some l →
    let d := (c.rd w.a l).toNat
    let b (k : Nat) : Nat := (c.rd w.b l k).toNat
    let x : CbDesc := ⟨b 0, b 1, 0, b 3 / 65536, b 3 % 65536, b 2, 0, b 2, 0, 0, 0, 0, 0⟩
    t.objUse c.core c.bid d 32 32 true = none → b 2 < 256 → x.valid (t.scratchSize c.bid) = true →
    (∀ q ∈ c.o.b.bufq, q.off ≠ d) →
    (∀ e ∈ t.ops, e.2.block = c.bid → ∀ y, e.2.kind = .copy y → ¬ (y.cb = true ∧ y.soff = d ∧ y.slot.isSome)) →
    OnlyMemory t (t.putCbDesc c.bid d x) ∧
      ∃ u, exec (.cbinit w) s = .next u ∧ MovedOn c (t.putCbDesc c.bid d x) u []) ∧
  (∀ (i : Instr) w s c t l res, i = .cbres w ∧ res = true ∨ i = .cbacq w ∧ res = false → issueOf i s = some (c, t) →
    c.l0 = some l →
    let d := (c.rd w.a l).toNat
    let x := t.cbDesc c.bid d
    let y := if res then { x with res := (x.res + 1) % x.slots, free := x.free - 1, nres := x.nres + 1 }
      else { x with acq := (x.acq + 1) % x.slots, filled := x.filled - 1 }
    let k := if res then x.res else x.acq
    let ready := 0 < (if res then x.free else x.filled) ∧ ∀ q ∈ c.o.b.bufq, ¬ (q.off = d ∧ q.res = res)
    (∀ e, t.cbCheck c.core c.bid d = some e → Traps i s t c e c.here) ∧
    (t.cbCheck c.core c.bid d = none → ready → ∃ u, exec i s = .next u ∧
      WroteFrom c (t.putCbDesc c.bid d y) u [] w.d fun _ => [BitVec.ofNat 32 (x.base + k * x.slotSize)]) ∧
    (t.cbCheck c.core c.bid d = none → ¬ ready → w.ebit 5 = true → Completes i s c [] w.d fun _ => [0xFFFFFFFF]) ∧
    (t.cbCheck c.core c.bid d = none → ¬ ready → w.ebit 5 = false →
      Blocks i s (t.modBlock c.bid fun b => { b with bufq := b.bufq ++ [⟨d, res, c.gid, none⟩] }) c (.buffer res d))) ∧
  (∀ (i : Instr) w s c t l commit, i = .cbcommit w ∧ commit = true ∨ i = .cbrel w ∧ commit = false →
    issueOf i s = some (c, t) → c.l0 = some l →
    let d := (c.rd w.a l).toNat
    let x := t.cbDesc c.bid d
    t.cbCheck c.core c.bid d = none →
    let lock (n : Nat) := if n = 0 then none else (x.bo commit).bind fun o => t.objLock c.core c.bid o 16 true
    (x.giveBack commit (c.rd w.b l).toNat = none → Traps i s t c (Cause.misuse d) c.here) ∧
    (∀ y n e, x.giveBack commit (c.rd w.b l).toNat = some (y, n) → lock n = some e → Traps i s t c e c.here) ∧
    ∀ y n v, x.giveBack commit (c.rd w.b l).toNat = some (y, n) → lock n = none →
      (t.putCbDesc c.bid d y).arriveMany c.bid (x.bo commit) n = some v →
      OnlyMemory t v ∧ exec i s = .next ((v.grantBuffers c.bid 64).advance c.gid []) ∧
      (c.o.b.bufq = [] → ∃ u, exec i s = .next u ∧ MovedOn c v u [])) ∧
  (∀ w s c t l, issueOf (.lkqPush w) s = some (c, t) → c.l0 = some l →
    let q := (c.rd w.a l).toNat
    let x := t.laneQueue c.bid q
    let taken := c.real.take (x.slots - x.avail)
    let offs := (List.range taken.length).map fun i => x.base + 8 * ((x.tail + i) % 2 ^ 32 % x.slots)
    t.queueCheck c.core c.bid q true = none → t.itemCheck c.core c.bid true offs = none →
    ∃ u, exec (.lkqPush w) s = .next u ∧
      WroteFrom c (((offs.zip taken).foldl (fun s e => s.scratchPut c.bid e.1 8 (c.rdw w.b e.2).toNat) t).scratchPut c.bid
        (q + 12) 4 ((x.tail + taken.length) % 2 ^ 32)) u [] w.d fun i => [if i ∈ taken then 0 else 1]) ∧
  (∀ w s c t l, issueOf (.lkqLen w) s = some (c, t) → c.l0 = some l →
    t.queueCheck c.core c.bid (c.rd w.a l).toNat false = none →
    Completes (.lkqLen w) s c [] w.d fun _ => [BitVec.ofNat 32 (t.laneQueue c.bid (c.rd w.a l).toNat).avail])

/-! ## Matrix words -/

/-- The words for the matrix engine (12 R331 to R337), tile configurations (R342), accumulators and their tokens (R339 to
R341), and convergence registers (R332, R333). The model's own reading here: log 22. -/
def Obligations.MatrixWords : Prop :=
  (∀ w, EngineWord (.tload w) w fun c l => [c.rd w.a l, c.rd w.b l]) ∧
  (∀ w, EngineWord (.tstore w) w fun c l => [c.rd w.b l, c.rd w.c l]) ∧
  (∀ w, EngineWord (.tzero w) w fun _ _ => []) ∧
  (∀ w, EngineWord (.tzeroM w) w fun _ _ => []) ∧
  (∀ w, EngineWord (.mma w) w fun _ _ => []) ∧
  (∀ w, EngineWord (.mmas w) w fun c l => [c.rd w.b l 0, c.rd w.b l 1, c.rd w.b l 2, c.rd w.b l 3]) ∧
  (∀ w, EngineWord (.mmbfp w) w fun _ _ => []) ∧
  (∀ w s c t l, issueOf (.tcfgw w) s = some (c, t) → c.l0 = some l →
    (cfgOk (c.rd w.a l) = false → Traps (.tcfgw w) s t c (Cause.operand 2) c.here) ∧
    (cfgOk (c.rd w.a l) = true → ∃ u, exec (.tcfgw w) s = .next u ∧ MovedOn c (t.modBlock c.bid fun b =>
      { b with tcfg := b.tcfg.set w.d.toNat (c.rd w.a l ||| 0x80000000) }) u [])) ∧
  (∀ w s c t, issueOf (.tcfgr w) s = some (c, t) → c.real ≠ [] →
    Completes (.tcfgr w) s c [] w.d fun _ => [c.o.b.tcfg.getD w.a.reg.toNat 0]) ∧
  (∀ w s c t, issueOf (.accrd w) s = some (c, t) → c.act ≠ [] →
    let a := w.a.reg.toNat
    let at' (i : Nat) : Nat × Nat := ((c.rd w.b i).toNat % 64, (c.rd w.b i).toNat / 64 % 64)
    (a ∉ c.o.b.vectorTokens → Traps (.accrd w) s t c ⟨Cause.token, BitVec.ofNat 64 a, 0⟩ c.here) ∧
    (a ∈ c.o.b.vectorTokens → (w.ebit 5 = true → ∀ i ∈ c.real, (at' i).1 % 4 = 0) → Completes (.accrd w) s c [] w.d fun i =>
      if w.ebit 5 then
        if (at' i).1 % 4 = 0 then (List.range 4).map fun j => c.o.b.acc a (at' i).2 ((at' i).1 + j) else [0, 0, 0, 0]
      else [c.o.b.acc a (at' i).2 (at' i).1])) ∧
  (∀ w s c t, issueOf (.accwr w) s = some (c, t) → c.real ≠ [] →
    let a := w.d.toNat
    let at' (i : Nat) : Nat × Nat := ((c.rd w.b i).toNat % 64, (c.rd w.b i).toNat / 64 % 64)
    (a ∉ c.o.b.vectorTokens → Traps (.accwr w) s t c ⟨Cause.token, BitVec.ofNat 64 a, 0⟩ c.here) ∧
    (a ∈ c.o.b.vectorTokens → (w.ebit 5 = true → ∀ i ∈ c.real, (at' i).1 % 4 = 0) →
      let n := if w.ebit 5 then 4 else 1
      ∃ x u, exec (.accwr w) s = .next u ∧ MovedOn c (t.setBlock c.bid { c.o.b with accs := x }) u [] ∧
        (∀ k, (∀ i ∈ c.real, ∀ j, j < n → k ≠ 4096 * a + 64 * (at' i).2 + ((at' i).1 + j)) →
          tgetD 0 x k = tgetD 0 c.o.b.accs k) ∧
        ∀ pre i rest, c.real = pre ++ i :: rest → ∀ j, j < n →
          (∀ k ∈ rest, ∀ m, m < n → 64 * (at' k).2 + ((at' k).1 + m) ≠ 64 * (at' i).2 + ((at' i).1 + j)) →
          tgetD 0 x (4096 * a + 64 * (at' i).2 + ((at' i).1 + j)) = c.rd w.a i j)) ∧
  (∀ w s c t, issueOf (.tokgive w) s = some (c, t) → c.real ≠ [] → ∃ u, exec (.tokgive w) s = .next u ∧
    MovedOn c (t.modBlock c.bid fun b => { b with vectorTokens := b.vectorTokens.filter (· != w.d.toNat) }) u []) ∧
  (∀ w s c t, issueOf (.toktake w) s = some (c, t) → c.real ≠ [] →
    (∀ f, c.full = some f → Blocks (.toktake w) s t c (.flagFull f)) ∧
    (c.full = none → ∃ u, exec (.toktake w) s = .next u ∧
      StartedFrom c (if w.d.toNat ∈ c.o.b.vectorTokens ∨ t.accPending c.bid w.d.toNat = false
        then { t with agenda := .op (.toktakeCompletion t.fresh) :: t.agenda } else t) u (.token w.d.toNat) w.d [])) ∧
  (∀ w s c t l, issueOf (.cvdecl w) s = some (c, t) → c.l0 = some l →
    let v := (c.rd w.a l).toNat
    let k := w.e.toNat % 8
    (v = 0 ∨ 2 ^ c.o.b.gslots.length ≤ v → Traps (.cvdecl w) s t c (Cause.operand 6) c.here) ∧
    ∀ x, 0 < v → v < 2 ^ c.o.b.gslots.length → c.o.b.conv[k]? = some x →
      (x.signed ≠ [] → Traps (.cvdecl w) s t c (Cause.operand 7) c.here) ∧
      (x.signed = [] → ∃ u, exec (.cvdecl w) s = .next u ∧ MovedOn c (t.modBlock c.bid fun b =>
        { b with conv := b.conv.modify k fun x => { x with decl := bitsOf 32 v } }) u [])) ∧
  (∀ w s c t x, issueOf (.cvq w) s = some (c, t) → c.real ≠ [] → c.o.b.conv[w.e.toNat % 8]? = some x →
    Completes (.cvq w) s c [] w.d fun _ => [laneMask (if w.ebit 5 then x.signed else x.decl)])

/-- What the engine does with a tile load, a store, a zero and a product (12 R343 to R348): the rows of the tile, the
bytes of the scratchpad, and the corner of the accumulator that change, and what they change to; everything else is as it
was. MMAS multiplies by the dense tile that its compressed rows give, the last entry of a place counting, and changes nothing
where they are not valid (R346, R347); MMBFP writes exact sums (R348). The model's own reading here: log 58. -/
def Obligations.EngineEffects : Prop :=
  (∀ (s : State) e b w, e.instr = .tload w → s.block? e.block = some b →
    let x := e.cfg.getD 0 0
    let row (r : Nat) : Nat := ((e.val 0 : Int) + (r : Int) * sextInt 32 (e.val 1)).toNat
    cfgRowBytes x ≤ 128 → ∃ l, s.engineEffect e = (s.setBlock e.block { b with tiles := l }, none) ∧
      (∀ r k, r < cfgRows x → k < cfgRowBytes x →
        tgetD 0 l (8192 * w.d.toNat + 128 * r + k) = s.scratchByte e.block (row r + k)) ∧
      ∀ j, (∀ r k, r < cfgRows x → k < cfgRowBytes x → j ≠ 8192 * w.d.toNat + 128 * r + k) → tgetD 0 l j = tgetD 0 b.tiles j) ∧
  (∀ (s : State) e b w, e.instr = .tstore w → s.block? e.block = some b →
    let x := e.cfg.getD 0 0
    let row (r : Nat) : Nat := ((e.val 0 : Int) + (r : Int) * sextInt 32 (e.val 1)).toNat
    ∃ l n, s.engineEffect e = (s.setBlock e.block { b with scratch := l, hwm := n }, none) ∧
      (∀ r k, r < cfgRows x → k < cfgRowBytes x →
        (∀ q m, r < q → q < cfgRows x → m < cfgRowBytes x → row r + k ≠ row q + m) →
        tgetD 0 l (row r + k) = b.tileByte w.a.reg.toNat (128 * r + k)) ∧
      ∀ j, (∀ r k, r < cfgRows x → k < cfgRowBytes x → j ≠ row r + k) → tgetD 0 l j = tgetD 0 b.scratch j) ∧
  (∀ (s : State) e b w, e.instr = .tzero w → s.block? e.block = some b →
    ∃ l, s.engineEffect e = (s.setBlock e.block { b with accs := l }, none) ∧
      ∀ a i n, i < 64 → n < 64 → tgetD 0 l (4096 * a + 64 * i + n) = if a = w.d.toNat then 0 else b.acc a i n) ∧
  (∀ (s : State) e b w, e.instr = .tzeroM w → s.block? e.block = some b →
    ∃ l, s.engineEffect e = (s.setBlock e.block { b with tiles := l }, none) ∧
      ∀ m i, i < 8192 → tgetD 0 l (8192 * m + i) = if m = w.d.toNat then 0 else b.tileByte m i) ∧
  (∀ (s : State) e b w, e.instr = .mma w → s.block? e.block = some b →
    let x := e.cfg.getD 0 0
    let y := e.cfg.getD 1 0
    let at' (i n : Nat) : Nat × List FpEvent :=
      mmaElem (fun k => (fmtOf (cfgFmt x)).value (b.tileElem w.a.reg.toNat (cfgFmt x) i k))
        (fun k => (fmtOf (cfgFmt y)).value (b.tileElem w.b.reg.toNat (cfgFmt y) n k)) (cfgK x) (b.acc w.d.toNat i n).toNat
    ∃ l ev, s.engineEffect e = ((s.setBlock e.block { b with accs := l }).countEvents ((s.launchOfBlock e.block).getD 0) ev, none) ∧
      (∀ i n, i < cfgRows x → n < cfgRows y → tgetD 0 l (4096 * w.d.toNat + 64 * i + n) = BitVec.ofNat 32 (at' i n).1) ∧
      (∀ j, (∀ i n, i < cfgRows x → n < cfgRows y → j ≠ 4096 * w.d.toNat + 64 * i + n) → tgetD 0 l j = tgetD 0 b.accs j) ∧
      ev = (List.range (cfgRows x)).flatMap fun i => (List.range (cfgRows y)).flatMap fun n => (at' i n).2) ∧
  (∀ (s : State) e b w, e.instr = .mmbfp w → s.block? e.block = some b →
    let x := e.cfg.getD 0 0
    let y := e.cfg.getD 1 0
    ∃ l, s.engineEffect e = (s.setBlock e.block { b with accs := l }, none) ∧
      (∀ i n, i < cfgRows x → n < cfgRows y → tgetD 0 l (4096 * w.d.toNat + 64 * i + n) =
        BitVec.ofInt 32 ((List.range 128).map fun k =>
          sextInt (cfgFmt x - 0x17) (b.tileElem w.a.reg.toNat (cfgFmt x) i k)
            * sextInt (cfgFmt y - 0x17) (b.tileElem w.b.reg.toNat (cfgFmt y) n k)).sum) ∧
      ∀ j, (∀ i n, i < cfgRows x → n < cfgRows y → j ≠ 4096 * w.d.toNat + 64 * i + n) → tgetD 0 l j = tgetD 0 b.accs j) ∧
  (∀ (s : State) e b w, e.instr = .mmas w → s.block? e.block = some b →
    let x := e.cfg.getD 0 0
    let rptr (k : Nat) : Nat := (s.scratchWord e.block (e.val 0 + 4 * k)).toNat
    let col (j : Nat) : Nat := natOfBytes (s.scratchRead e.block (e.val 1 + 2 * j) 2)
    let value (j : Nat) : Nat := packedElem e.fb j fun i => s.scratchByte e.block (e.val 2 + i)
    let valid := rptr 0 = 0 ∧ rptr (cfgK x) = e.nnz ∧ (∀ k, k < cfgK x → rptr k ≤ rptr (k + 1)) ∧ ∀ j, j < e.nnz → col j < e.nB
    (¬ valid → s.engineEffect e = (s, some (Cause.operand 5))) ∧
    (valid → ∃ dense : Nat → Nat → Nat,
      (∀ n k j, k < cfgK x → rptr k ≤ j → j < rptr (k + 1) → col j = n → (∀ i, j < i → i < rptr (k + 1) → col i ≠ n) →
        dense n k = value j) ∧
      (∀ n k, k < cfgK x → (∀ j, rptr k ≤ j → j < rptr (k + 1) → col j ≠ n) → dense n k = 0) ∧
      let at' (i n : Nat) : Nat × List FpEvent :=
        mmaElem (fun k => (fmtOf (cfgFmt x)).value (b.tileElem w.a.reg.toNat (cfgFmt x) i k))
          (fun k => (fmtOf e.fb).value (dense n k)) (cfgK x) (b.acc w.d.toNat i n).toNat
      ∃ l ev, s.engineEffect e = ((s.setBlock e.block { b with accs := l }).countEvents ((s.launchOfBlock e.block).getD 0) ev, none) ∧
        (∀ i n, i < cfgRows x → n < e.nB → tgetD 0 l (4096 * w.d.toNat + 64 * i + n) = BitVec.ofNat 32 (at' i n).1) ∧
        (∀ j, (∀ i n, i < cfgRows x → n < e.nB → j ≠ 4096 * w.d.toNat + 64 * i + n) → tgetD 0 l j = tgetD 0 b.accs j) ∧
        ev = (List.range (cfgRows x)).flatMap fun i => (List.range e.nB).flatMap fun n => (at' i n).2))

/-- The events of the engine and its twins (12 R321, R322, R327, R335 to R337, 15 R399 to R401): the oldest operation of a
queue is performed and its words complete; a round waits for its entries; a comparator's reading, 1 µs or more after the one
before, starts a swap or stops a pair of clusters; and a swap ends with the other twin active. The model's own reading here:
log 58. -/
def Obligations.MatrixEvents : Prop :=
  (∀ (s : State) core e rest, (s.core core).engine = e :: rest → (s.core core).drain = false → s.lockWaits e.num = false →
    let r := s.engineEffect e
    exec (.engineOpCompletion core) s = .next (((((r.1.modCore core fun k =>
      { k with engine := rest, drainHead := false }).freeLocks e.num).endSigners e.ops r.2)).wakeTokens e.block)) ∧
  (∀ (s : State) b k x cv v, s.block? b = some x → x.conv[k]? = some cv → cv.signed ≠ [] → cv.signed = cv.decl →
    s.finishRound b k = some v → exec (.engineRoundDeferredIssue b k) s = .next v) ∧
  (∀ (s : State) core t0 t1, (s.chiplet (coreSlot core)).power = .active → core < 864 → t0 < 256 → t1 < 256 →
    (∀ t, (s.core core).readAt = some t → t + State.us 1 ≤ s.now) →
    let k := s.core core
    let hot := if k.twin then t1 else t0
    let idle := if k.twin then t0 else t1
    let swap := s.thot ≤ hot ∧ idle < s.tcool ∧ k.lastSwap + State.us 50 ≤ s.now
    ∃ u, exec (.twinComparatorReading core t0 t1) s = .next u ∧ u.groups = s.groups ∧ u.blocks = s.blocks ∧
      (u.core core).temp0 = t0 ∧ (u.core core).temp1 = t1 ∧ (u.core core).twin = k.twin ∧
      (u.core core).readAt = some s.now ∧ (u.core core).engine = k.engine ∧ ((u.core core).drain = true ↔ k.drain = true ∨ swap) ∧
      (125 ≤ max t0 t1 → (u.cluster (clusterOf core)).stopped = true ∧ (u.cluster (pairOf (clusterOf core))).stopped = true)) ∧
  (∀ (s : State) core, (s.core core).drain = true → (s.core core).drainHead = false ∨ (s.core core).engine = [] →
    exec (.twinSwapComplete core) s = .next (s.setCore core { s.core core with
      twin := !(s.core core).twin, drain := false, drainHead := false, swaps := ((s.core core).swaps + 1) % 65536
      lastSwap := s.now }))

/-! ## System words -/

/-- CAPQ, SREAD, SWRITE, PMACK, LEASEQ, FEVQ, HCALL and PRICLS (17 R448, R449, R456, R464 to R467, 18 R477, 15 R409). A
register that only reads is not written, and the values the trap registers and the device's registers read as. The model's
own reading here: logs 54, 55. -/
def Obligations.SystemWords : Prop :=
  (∀ w s c t, issueOf (.capq w) s = some (c, t) → Completes (.capq w) s c [] w.d fun _ =>
    [(t.shown.getD w.imm.toNat 0).extractLsb' 0 32, (t.shown.getD w.imm.toNat 0).extractLsb' 32 32]) ∧
  (∀ w s c t, issueOf (.sread w) s = some (c, t) → Completes (.sread w) s c [] w.d fun _ =>
    [(c.sysRead t w.imm.toNat).extractLsb' 0 32, (c.sysRead t w.imm.toNat).extractLsb' 32 32]) ∧
  (∀ w s c t, issueOf (.sread w) s = some (c, t) → ∀ e ∈ [(0x100, c.o.g.trapCause), (0x101, c.o.g.trapPc),
      (0x102, c.o.g.trapCaddr), (0x103, c.o.g.trapFaddr), (0x104, c.o.g.trapInfo), (0x105, c.o.g.trapSave),
      (0x110, c.o.l.aspace), (0x140, s.trapVec), (0x142, s.ctxStore), (0x143, s.ctxUnits), (0x1F0, s.qtab),
      (0x1B7, s.boostCfg), (0x1C4, s.bgShare), (0x1D0, s.netWrr), (0x1E9, s.shedCfg)], c.sysRead t e.1 = e.2) ∧
  (∀ w s c t l, issueOf (.swrite w) s = some (c, t) → c.l0 = some l →
    (c.sysWrite t w.imm.toNat (c.rdw w.a l) = none → Completes (.swrite w) s c [] w.d fun _ => [1]) ∧
    ∀ b, c.sysWrite t w.imm.toNat (c.rdw w.a l) = some b →
      ∃ u, exec (.swrite w) s = .next u ∧ WroteFrom c b u [] w.d fun _ => [0]) ∧
  (∀ (c : Ctx) (s : State) v, (∀ k ∈ [0, 1, 2, 3, 4, 5, 6, 7, 8, 0x11, 0x18, 0x20, 0x21], c.sysWrite s k v = none) ∧
    (∀ k ∈ [0x101, 0x102, 0x103, 0x104, 0x105, 0x110, 0x1C0, 0x1C1, 0x1C2, 0x1C3, 0x1EA], c.sysWrite s k v = some s) ∧
    (v.toNat % 8 = 0 → v.toNat < 2 ^ 55 → c.sysWrite s 0x140 v = some { s with trapVec := v }) ∧
    (v.toNat % 8 ≠ 0 ∨ 2 ^ 55 ≤ v.toNat → c.sysWrite s 0x140 v = none)) ∧
  (∀ w s c t, issueOf (.pmack w) s = some (c, t) →
    ((∃ e ∈ t.ops, e.2.gid = c.gid ∧ t.unperformed e.1 e.2 = true) → Blocks (.pmack w) s t c .pmack) ∧
    ((∀ e ∈ t.ops, e.2.gid = c.gid → t.unperformed e.1 e.2 = false) →
      let v := t.cleanSelf c.core
      OnlyMemory t v ∧ ∃ u, exec (.pmack w) s = .next (u.settleGroup c.gid) ∧
        u = { v with groups := u.groups, cores := u.cores } ∧ Others c.gid c.core v u ∧
        u.group? c.gid = some { c.o.g with pmacked := true, run := none, blocked := none })) ∧
  (∀ w s c t, issueOf (.leaseq w) s = some (c, t) → Completes (.leaseq w) s c [] w.d fun i =>
    let a := (c.rdw w.a i).toNat
    let ls := t.leasesOf c.o.l
    let right (p : Lease → Bool) (l : List Lease) : Bool := l.any fun x => p x && decide (x.base ≤ a ∧ a < x.base + x.len)
    let given := ls.filter fun x => !x.implicit
    [if inWindow a then 8
     else if 2 ^ 55 ≤ a then 0
     else BitVec.ofNat 32 ((if right (·.r) ls then 1 else 0) + (if right (·.w) ls then 2 else 0)
       + if right (·.r) given = right (·.r) ls ∧ right (·.w) given = right (·.w) ls then 0 else 4)]) ∧
  (∀ w s c t, issueOf (.fevq w) s = some (c, t) → Completes (.fevq w) s c [] w.d fun i =>
    [BitVec.ofNat 32 ((((t.launch? c.lid).map Launch.counters).getD []).getD ((c.rd w.a i).toNat % 32) 0)]) ∧
  (∀ w s c t l, issueOf (.hcall w) s = some (c, t) → c.l0 = some l →
    ((t.queue c.o.l.queue).evq = 0 → Completes (.hcall w) s c [] w.d fun _ => [1]) ∧
    ((t.queue c.o.l.queue).evq ≠ 0 → ∃ u, exec (.hcall w) s = .next u ∧
      WroteFrom c (t.postEvent c.o.l.queue 6 0 0 c.o.l.recId
        (BitVec.ofNat 64 (w.imm.toNat + (c.sysRead t 0).toNat % 2 ^ 32 * 2 ^ 32)) (c.rdw w.a l)) u [] w.d fun _ => [0])) ∧
  (∀ w s c t, issueOf (.pricls w) s = some (c, t) → c.real ≠ [] →
    let n := w.imm.toNat % 8
    let v := t.modGroup c.gid fun g => if t.classAllowed n = true
      then { g with cls := n, shedHold := false, holdNext := false, shedAt := none } else { g with cls := n }
    ∃ u, exec (.pricls w) s = .next u ∧
      MovedOn c (if v.classAllowed n then v else v.startWindow c.cid) u [])

/-- The boost words (15 R403 to R407): a lease that stands answers with its code and its time left in µs; a request of 0
µs traps; a refused one gives its reason; a granted one starts and gives its length, at most 10,000 µs; a release ends it.
The model's own reading here: log 42. -/
def Obligations.BoostWords : Prop :=
  (∀ w s c t l b, issueOf (.boost w) s = some (c, t) → c.l0 = some l →
    let v := t.expireBoosts
    let T := (c.rd w.a l).toNat
    v.block? c.bid = some b →
    (T = 0 → Traps (.boost w) s t c (Cause.operand 0) c.here) ∧
    (∀ n, T ≠ 0 → v.boostLeft b = some n →
      ∃ u, exec (.boost w) s = .next u ∧ WroteFrom c v u [] w.d fun _ => [BitVec.ofNat 32 (4 * 2 ^ 28 + n % 2 ^ 14)]) ∧
    (∀ k, T ≠ 0 → v.boostLeft b = none → v.boostRefusal b (v.classAllowed c.o.g.cls) = some k →
      ∃ u, exec (.boost w) s = .next u ∧ WroteFrom c v u [] w.d fun _ => [BitVec.ofNat 32 (k * 2 ^ 28)]) ∧
    (T ≠ 0 → v.boostLeft b = none → v.boostRefusal b (v.classAllowed c.o.g.cls) = none →
      ∃ u, exec (.boost w) s = .next u ∧
        WroteFrom c (v.setBlock c.bid { b with boostUntil := some (v.now + State.us (min T 10000)) }) u [] w.d
          fun _ => [BitVec.ofNat 32 (min T 10000)])) ∧
  (∀ w s c t b, issueOf (.boostQuery w) s = some (c, t) → c.real ≠ [] →
    let v := t.expireBoosts
    v.block? c.bid = some b →
    (∀ n, v.boostLeft b = some n → ∃ u, exec (.boostQuery w) s = .next u ∧
      WroteFrom c v u [] w.d fun _ => [BitVec.ofNat 32 (4 * 2 ^ 28 + n % 2 ^ 14)]) ∧
    (v.boostLeft b = none → ∃ u, exec (.boostQuery w) s = .next u ∧
      WroteFrom c (v.setBlock c.bid { b with boostNote := 0 }) u [] w.d
        fun _ => [BitVec.ofNat 32 ((if b.boostNote = 0 then 5 else b.boostNote) * 2 ^ 28)])) ∧
  (∀ w s c t b, issueOf (.boostRelease w) s = some (c, t) → c.real ≠ [] →
    let v := t.expireBoosts
    v.block? c.bid = some b →
    (v.boostLeft b = none → ∃ u, exec (.boostRelease w) s = .next u ∧
      WroteFrom c v u [] w.d fun _ => [BitVec.ofNat 32 (5 * 2 ^ 28)]) ∧
    (∀ n, v.boostLeft b = some n → ∃ u, exec (.boostRelease w) s = .next u ∧
      WroteFrom c ((v.setBlock c.bid { b with boostUntil := none, boostNote := 0 }).modCluster (clusterOf b.core)
        fun k => { k with boostedAt := some (max v.now (k.boostedAt.getD 0)) }) u [] w.d
          fun _ => [BitVec.ofNat 32 (6 * 2 ^ 28 + n % 2 ^ 14)])) ∧
  (∀ (s : State) k b e, s.block? k = some b → b.boostUntil = some e → e ≤ s.now →
    exec (.boostLeaseExpiry k) s = .next ((s.setBlock k { b with boostUntil := none, boostNote := 0 }).modCluster
      (clusterOf b.core) fun c => { c with boostedAt := some (max e (c.boostedAt.getD 0)) }))

/-! ## The start and the resumption of clauses -/

/-- CLAUSE_START and the events that let a group's clause go on (02 R24 to R33, R48, 04 R97 to R102): a slot that is free
starts the clause of the group it chooses, at its first word or at the word where its threads resume, or delivers the fault
of its fetch; ages change; a word that waited for its delay, for a flag or at a blocking point is issued again; and a late
fault is delivered where its group stands. The model's own reading here: logs 21, 34, 64. -/
def Obligations.ClauseStartAndResume : Prop :=
  (∀ (s : State) core islot gs gid o i, ((s.core core).slots.getD islot ⟨none, 0, []⟩).cur = none →
    ((s.core core).slots.getD islot ⟨none, 0, []⟩).freeAt ≤ (s.cluster (clusterOf core)).cycles →
    choose s core islot = some (gs, gid) → s.owner? gid = some o → o.g.pick = some i →
    let th := o.g.lane i
    let a := th.resume.getD th.pc
    let set := o.g.issueSet i
    let g := (o.g.aged set).setKept (o.g.kept.filter fun x => th.resume.isSome && x.1 == th.pc)
    ∃ v, v = { s with groups := v.groups, cores := v.cores } ∧
      v.group? gid = some { g with waitCount := 0, yieldTo := [] } ∧
      (∀ h l j, fetchClause v o a = .ok h l →
        (th.resume = none ∧ j = 0 ∨ th.resume.isSome = true ∧ wordIndex a th.pc l.length = some j) →
        ∃ u q, exec (.clauseStart core islot) s = .next u ∧
        u = { v with groups := u.groups, cores := u.cores } ∧
        u.group? gid = some { g with waitCount := 0, yieldTo := [], run := some q } ∧
        q.caddr = a ∧ q.header = h ∧ q.words = l ∧ q.idx = j ∧ q.set = set ∧
        (q.served = true ↔ th.resume.isSome = true ∧ th.served = true)) ∧
      ∀ x pc whole, fetchClause v o a = .fault x pc whole none → exec (.clauseStart core islot) s =
        .next (v.deliver gid ⟨x.code, pc, a, x.faddr, x.info, if whole then a else pc, a, set⟩ false)) ∧
  (∀ (s : State) g o r x i p, s.nextWord g = some (o, r, x, i) → (Sched.ofWord x).dl ≠ 0 → r.served = false →
    o.g.blocked = none → r.passes = some p → r.since + (Sched.ofWord x).dl.toNat * p ≤ (s.cluster (clusterOf o.b.core)).cycles →
    exec (.issueDelayExpiry g) s =
      .next { s.setGroup g { o.g with run := some { r with served := true } } with agenda := .issue g :: s.agenda }) ∧
  (∀ (s : State) g, Reissues (.flagStallResume g) s g fun o b => ∃ f, b = .flagFull f ∧ o.g.flag f < 63) ∧
  (∀ (s : State) g, Reissues (.blockedWordResume g) s g fun o b => (∀ r d, b ≠ .buffer r d) ∧ blockOver s o b = true) ∧
  (∀ (s : State) g x r d, s.group? g = some x → x.blocked = some (.buffer r d) →
    exec (.blockedWordResume g) s = .next (s.grantBuffers (g / 32) 64)) ∧
  (∀ (s : State) g o t rest, s.owner? g = some o → o.g.late = t :: rest → o.g.run = none →
    (s.terminal o t.code = true →
      exec (.lateFaultDelivery g) s = .next ((s.setGroup g { o.g with late := rest }).endLaunch o.c.launch 8 t.code)) ∧
    (s.terminal o t.code = false → ∃ u h, exec (.lateFaultDelivery g) s = .next u ∧
      u = { s with groups := u.groups, cores := u.cores } ∧ u.group? g = some h ∧ h.handler = true ∧
      h.trapCause = BitVec.ofNat 64 (t.code + 256) ∧ h.trapPc = t.pc ∧ h.trapFaddr = t.faddr ∧ h.trapInfo = t.info ∧
      h.late = rest ∧ ∀ i ∈ t.set, i < 32 →
        pair (h.reg i 120) (h.reg i 121) = (o.g.thread i).pc ∧
        pair (h.reg i 122) (h.reg i 123) = (o.g.thread i).resume.getD (o.g.thread i).pc))

/-! ## Device memory in service -/

/-- The mailbox commands for interleave sets and retirements (13 R356 to R362, 18 R470): a set is created where its number
is free, its size is legal and it fits, and reads 0 once it is complete, where it still fits; it is deleted where nothing
pins or migrates it; channels and stacks that are live are retired; a hold is recorded; a paused retirement whose test is due
resumes where its sets fit. The model's own reading here: logs 26, 56, 57, 78. -/
def Obligations.SetCommands : Prop :=
  (∀ s, Commands .createSet s 1 fun m t u st =>
    (tget? t.sets m.set).isSome ∧ st = 2 ∧ u = t ∨
    (tget? t.sets m.set).isNone ∧ (m.bytes % 2 ^ 29 ≠ 0 ∨ m.bytes = 0 ∨ 2 ^ 39 < m.bytes ∨
      m.chmask.filter t.liveChannels.contains = []) ∧ st = 3 ∧ u = t) ∧
  (∀ s m, nextMail s = some m → m.opcode = 1 → m.rsv = false → tget? s.sets m.set = none →
    let t := s.cleanPhys m.addr 64
    let live := m.chmask.filter s.liveChannels.contains
    m.bytes % 2 ^ 29 = 0 → m.bytes ≠ 0 → m.bytes ≤ 2 ^ 39 → live ≠ [] → t.fits m.set (m.bytes / 128) [] live = true →
    OnlyMemory s t ∧ exec .createSet s = .next { t with
      mailbox := s.mailbox.tail, creating := some (m.set, BitVec.ofNat 64 m.addr)
      sets := tput s.sets m.set ⟨m.bytes, m.linear, m.chmask, live, 0, false, true⟩ }) ∧
  (∀ (s : State) k a t, s.creating = some (k, a) → tget? s.sets k = some t →
    let f := s.forget (2 ^ 40 * k) (2 ^ 40 * (k + 1))
    let u := { f with creating := none, sets := tput f.sets k { t with creating := false, live := f.liveOf t } }
    let fits := f.liveOf t ≠ [] ∧ f.fits k (t.size / 128) [] (f.liveOf t) = true
    (∀ i, i < 2 ^ 40 → f.memByte (2 ^ 40 * k + i) = 0) ∧
    (fits → exec .setCreateComplete s = .next ((u.commit (u.setWords [k])).mailStatus a.toNat 0)) ∧
    (¬ fits → exec .setCreateComplete s =
      .next (({ f with sets := tdel f.sets k, creating := none } : State).mailStatus a.toNat 4))) ∧
  (∀ s, Commands .deleteSet s 2 fun m t u st =>
    ((tget? t.sets m.set).isNone ∨ m.set = 0) ∧ st = 2 ∧ u = t ∨
    (tget? t.sets m.set).isSome ∧ m.set ≠ 0 ∧ t.pinnedEnd m.set = 0 ∧ (∀ r ∈ t.retirements, m.set ∉ r.affected) ∧ st = 0 ∧
      let v := { t with sets := tdel t.sets m.set }.forget (2 ^ 40 * m.set) (2 ^ 40 * (m.set + 1))
      u = (v.commit (v.setWords [m.set])).retest) ∧
  (∀ s, Commands (.retireChannel none) s 3 fun m t u st =>
    m.arg ∈ t.liveChannels ∧ st = 0 ∧ u = t.startRetirement [m.arg] none ∨ m.arg ∉ t.liveChannels ∧ st = 6 ∧ u = t) ∧
  (∀ (s : State) c, c ∈ s.liveChannels → 4096 ≤ tgetD 0 s.spares c ∨ s.imageUsed.errLimit < tgetD 0 s.correctedTotal c →
    exec (.retireChannel (some c)) s = .next (s.startRetirement [c] none)) ∧
  (∀ s, Commands .retireStack s 4 fun m t u st =>
    (∃ c ∈ t.liveChannels, c / 32 = m.arg) ∧ st = 0 ∧
      u = t.startRetirement (t.liveChannels.filter fun c => c / 32 == m.arg) (some m.arg) ∨
    (∀ c ∈ t.liveChannels, c / 32 ≠ m.arg) ∧ st = 6 ∧ u = t) ∧
  (∀ s, Commands .setHold s 5 fun m t u st =>
    ∃ x, tget? t.sets m.set = some x ∧ m.bytes % 2 ^ 29 = 0 ∧ st = 0 ∧
      u = ({ t with sets := tput t.sets m.set { x with hold := m.bytes } } : State).retest) ∧
  (∀ (s : State) pre r post l, s.retestDue = true → s.retirements = pre ++ r :: post → (∀ x ∈ pre, x.paused = false) →
    r.paused = true → ({ s with retestDue := false } : State).newSizes r.affected = some l →
    let t := l.foldl (fun (s : State) (e : Nat × Nat) => s.shrink e.1 e.2) { s with retestDue := false }
    let u := { t with retirements := (t.retirements.takeWhile fun (x : Retirement) => !x.paused) ++ { r with paused := false } ::
      (t.retirements.dropWhile fun (x : Retirement) => !x.paused).drop 1 }
    exec .retirementResume s = .next ((u.commit (u.setWordsPaused r.affected false)).settleRetirements.retest)) ∧
  (∀ s : State, s.retestDue = false → exec .retirementResume s = .next s) ∧
  (∀ s m, nextMail s = some m → State.mailDefined m.opcode = false →
    exec .mailboxInvalidCommand s =
      .next (({ s.cleanPhys m.addr 64 with mailbox := s.mailbox.tail } : State).mailStatus m.addr 1))

/-- The Drift Engine, scrubbing, recalibration, error reports, retirement of LLC capacity, host accesses and page moves
(10 R271, R280, R287, R288, 13 R363 to R374, 18 R478, R481). That a host write waits while a copy uses the page table it writes
is the model's reading (log 36); that a host access leaves its completion in the field hostReply (log 63), and that a retired MiB
takes ways of its LLC, of which at most 92 MiB go (log 72), are the model's choices. The model's own reading here: logs 57, 62,
95. -/
def Obligations.MemoryEvents : Prop :=
  (∀ (s : State) e r m, s.drifting e = some (r, m) → State.nextLine m < m.lines → State.nextLine m < m.tide + 64 →
    m.transit.length < 64 → s.shareLeft e (s.driftChannel m m.old (State.nextLine m)) = true →
    exec (.driftLineTake e) s = .next (((s.recallHome (State.setLine m.set (State.nextLine m))).useShare e
      (s.driftChannel m m.old (State.nextLine m))).setMigration e m.set { m with transit := tput m.transit (State.nextLine m) ⟨false, 0⟩ })) ∧
  (∀ (s : State) e line r m t, s.drifting e = some (r, m) → tget? m.transit line = some t → t.arrived = false →
    State.setLine m.set line ∉ s.bad → exec (.driftLineDataArrival e line) s =
      .next (s.setMigration e m.set { m with transit := tput m.transit line ⟨true, 0⟩ })) ∧
  (∀ (s : State) e line r m t, s.drifting e = some (r, m) → tget? m.transit line = some t → t.arrived = true →
    s.shareLeft e (s.driftChannel m m.new line) = true →
    exec (.driftLineLand e line) s = .next (((s.recallHome (State.setLine m.set line)).useShare e
      (s.driftChannel m m.new line)).setMigration e m.set
      (State.advanceTide { m with transit := tdel m.transit line, landed := insertNat line m.landed } 65)).settleRetirements) ∧
  (∀ (s : State) p, isDevice (128 * p) = true →
    let t := if s.scrubSince + s.scrubPeriod ≤ s.now then { s with scrubSince := s.now, scrubbed := [] } else s
    let u : State := { t with scrubbed := insertNat p t.scrubbed }
    (p ∈ t.scrubbed → exec (.scrubRead p) s = .next t) ∧
    (p ∉ t.scrubbed → p ∉ s.bad → exec (.scrubRead p) s = .next u) ∧
    (p ∉ t.scrubbed → p ∈ s.bad → exec (.scrubRead p) s = .next (u.retireLine p 0) ∧ p ∉ (u.retireLine p 0).bad)) ∧
  (∀ (s : State) c, c ∈ s.liveChannels → tgetD 0 s.recalAt c < s.now / State.ms 50 + 1 → tget? s.recalibrating c = none →
    exec (.phyRecalibration c) s = .next { s with
      recalAt := tput s.recalAt c (s.now / State.ms 50 + 1), recalibrating := tput s.recalibrating c s.now }) ∧
  (∀ (s : State) c, exec (.phyRecalibrationEnd c) s = .next { s with recalibrating := tdel s.recalibrating c }) ∧
  (∀ (s : State) c, tgetD 0 s.corrected c ≠ 0 → (∀ t, tget? s.reported c = some t → t + State.ms 1000 ≤ s.now) →
    let t := s.postError 1 c 0 0 0 (tgetD 0 s.corrected c)
    exec (.correctedErrorReport c) s = .next { t with
      corrected := tset 0 t.corrected c 0, reported := tput t.reported c s.now }) ∧
  (∀ (s : State) k, k < 4 → 2 ^ 20 ≤ (s.catWord 27).toNat → tgetD 0 s.llcRetired k < 92 → ∃ u,
    OnlyMemory { s with llcRetired := tset 0 s.llcRetired k (tgetD 0 s.llcRetired k + 1) } u ∧
    exec (.llcCapacityRetirement k) s = .next (u.commit [(27, s.catWord 27 - 2 ^ 20)])) ∧
  (∀ (s : State) x (mask : BitVec 64) (data : BitVec 512), isHost (64 * x) = true →
    (s.pteBusy (64 * x) 64 = true → exec (.hostCxlCacheWrite x mask data) s = .next s) ∧
    (s.pteBusy (64 * x) 64 = false →
    let t := (s.recallHome (64 * x / 128)).pteWritten (64 * x) 64
    let u := t.memPutLine (64 * x / 128) ((mask.setWidth 128) <<< (64 * x % 128)) ((data.setWidth 1024) <<< (8 * (64 * x % 128)))
    exec (.hostCxlCacheWrite x mask data) s =
      .next { u with sectors := t.sectors.filter (· != x), hostSectors := insertNat x t.hostSectors } ∧
      x ∉ t.sectors.filter (· != x))) ∧
  (∀ (s : State) p poison mask data k n t, isDevice (128 * p) = true → s.setOf (128 * p) = some (k, n) →
    tget? s.sets k = some t → t.visible = true →
    let r := s.recallHome p
    let bias := (tget? r.frames (128 * p / 65536)).any (·.bias)
    let v : State := { r with hostReply := ⟨true, r.bad.contains p, r.memLine p⟩
                              hostLines := if bias then r.hostLines else insertNat p r.hostLines }
    let w := r.pteWritten (128 * p) 128
    exec (.hostCxlMemAccess p false poison mask data) s = .next (if p ∈ r.bad then v.retireLine p 0 else v) ∧
    (s.pteBusy (128 * p) 128 = true → exec (.hostCxlMemAccess p true poison mask data) s = .next s) ∧
    (s.pteBusy (128 * p) 128 = false → exec (.hostCxlMemAccess p true poison mask data) s =
      .next { (if poison then (w.retireLine p 0).storeLine p (BitVec.allOnes 128) 0 else w.memPutLine p mask data) with
        hostReply := ⟨true, false, 0⟩ })) ∧
  (∀ (s : State) p write poison mask data, (isDevice (128 * p) = false ∨ s.setOf (128 * p) = none ∨
      ∃ k n, s.setOf (128 * p) = some (k, n) ∧ ∀ t, tget? s.sets k = some t → t.visible = false) →
    exec (.hostCxlMemAccess p write poison mask data) s = .next { s with hostReply := ⟨false, false, 0⟩ }) ∧
  (∀ (s : State) pa home coh bias rest, s.pageMoves = (pa, home, coh, bias) :: rest → s.pinnedBy (pa / 65536) 0 = false →
    exec (.pageHomeMove 0) s = .next ({ s with pageMoves := rest }.treatFrame (pa / 65536) home coh bias)) ∧
  (∀ (s : State) l x page bias rest f e, l ≠ 0 → s.launch? l = some x → x.stage = .moves → x.status = none →
    x.moves = (page, bias) :: rest → s.frameOfPage x.aspace page = some (f, e) → s.pinnedBy f l = false →
    exec (.pageHomeMove l) s =
      .next ((s.setLaunch l { x with moves := rest }).treatFrame f e.home e.coh bias).enterPlacement)

/-! ## The network -/

/-- Rings and fabric (14 R376 to R390): a header that arrives in sequence and finds space is accepted, and otherwise its
packet is dropped with a NACK, in the order of arrival; a NACK takes an empty slot of the side ring, and for the packet
expected has its flow sent again from there; into a slot that arrives empty a station injects the next flit of the packet in
progress, or the packet that its arbitration chooses; copies expire unless they may still be asked for; a packet of age 128 is
promoted; the fabric takes a packet from a node to its hub, from hub to hub and into a node where the link has a credit, discards
what a fenced node had sent, and answers what a fenced node cannot take; a thread's access that is answered so takes NODE_FENCED;
forwarding entries last 1 ms. That a copy stays past its 32 cycles while its header is not judged or a NACK is on its way is the
model's choice, with the model's free times (log 8), and so is node 15 in the answer for an absent logical chiplet (log 88). The
model's own reading here: logs 14, 79. -/
def Obligations.NetworkEvents : Prop :=
  (∀ (s : State) n f, tget? s.flights n = some f → f.judged = false → f.arrive ≤ s.cyc →
    (∀ e ∈ s.flights, e.2.dst = f.dst → e.2.judged = false → f.arrive ≤ e.2.arrive) →
    let t : State := { s with
      flights := (tput s.flights n { f with judged := true }).filter fun (e : Nat × Flight) => !e.2.gone s.cyc }
    let key := 2 * (4 * f.src + f.pkt.cls) + f.ring / 2
    let e := tgetD 0 (t.station f.dst).expect key
    (∀ k, f.seq = e → t.space f.dst f.pkt.cls f.pkt.promoted = some k → exec (.packetArrival n) s =
      .next ((t.modStation f.dst fun x => { x with expect := tset 0 x.expect key ((e + 1) % 256) }).accept f.dst k
        { f.pkt with ready := s.cyc })) ∧
    (f.seq ≠ e ∨ t.space f.dst f.pkt.cls f.pkt.promoted = none → exec (.packetArrival n) s = .next { t with
      nacks := tput t.nacks t.fresh ⟨f.src, f.dst, f.pkt.cls, f.ring, f.seq, e, s.cyc + 1, none⟩
      fresh := t.fresh + 1 })) ∧
  (∀ (s : State) n k, tget? s.nacks n = some k → k.sent = none → k.ready ≤ s.cyc → s.sideEmpty k.by_ k.ring = true →
    (∀ e ∈ s.nacks, e.1 < n → e.2.by_ = k.by_ → e.2.ring = k.ring → e.2.sent.isSome = true) →
    exec (.nackArrival n) s = .next { s with nacks := tput s.nacks n { k with sent := some s.cyc } }) ∧
  (∀ (s : State) n k c, tget? s.nacks n = some k → k.sent = some c → c + segLength k.target k.by_ ≤ s.cyc →
    k.dropped = k.expected →
    exec (.nackArrival n) s = .next (({ s with nacks := tdel s.nacks n } : State).modStation k.target fun x =>
      let i := x.replay.findIdx fun r => r.dst == k.by_ && r.pkt.cls == k.cls && r.seq == k.expected
      { x with replay := (x.replay.take i) ++ (x.replay.drop i).map fun r =>
          if r.dst = k.by_ ∧ r.pkt.cls = k.cls then { r with resend := true, freeAt := s.cyc + 1 } else r })) ∧
  (∀ (s : State) st ring, s.ringOn st = true → s.slotEmpty st ring = true →
    (∀ n f, s.inProgress st ring = some (n, f) → exec (.ringInjection st ring) s = .next (s.sendFlit n f)) ∧
    (∀ k credit served, s.inProgress st ring = none →
      s.arbitrate (s.station st) (s.candidates st ring) = some (k, credit, served) → exec (.ringInjection st ring) s =
        .next ((s.setStation st { s.station st with credit := credit, served := served }).inject st ring k))) ∧
  (∀ (s : State) st, exec (.replayEntryExpiry st) s = .next (s.modStation st fun x =>
    { x with replay := x.replay.filter fun r => r.resend || decide (s.cyc < r.freeAt) || s.awaited st r })) ∧
  (∀ (s : State) st, bridgeTwin st = none →
    let up (p : Packet) : Packet := { p with promoted := p.promoted || decide (p.ready + 128 ≤ s.cyc) }
    exec (.packetPromotion st) s = .next (s.modStation st fun x => { x with
      queue := x.queue.map fun e => { e with pkt := up e.pkt }
      replay := x.replay.map fun r => { r with pkt := up r.pkt } })) ∧
  (∀ (s : State) n f, tget? s.fabric n = some f → s.behind n f = false → f.at_ < 16 → s.nodeShut f.at_ = false →
    f.pkt.logical = false →
    (s.hasCredit f.at_ (16 + hubOf f.at_) f.pkt.cls = true → exec (.fabricPacketArrival n) s =
      .next { s with fabric := tput s.fabric n ⟨f.pkt, 16 + hubOf f.at_, none, some (f.at_, 16 + hubOf f.at_)⟩ }) ∧
    (s.hasCredit f.at_ (16 + hubOf f.at_) f.pkt.cls = false → exec (.fabricPacketArrival n) s = .next s)) ∧
  (∀ (s : State) n f, tget? s.fabric n = some f → s.behind n f = false → 16 ≤ f.at_ →
    let node := nodeOf f.pkt.dst
    let src := nodeOf f.pkt.src
    let gone := s.nodeShut src = true ∧ f.pkt.fenced = false ∧ hubOf src = f.at_ - 16
    (gone → exec (.fabricPacketArrival n) s = .next { s with fabric := tdel s.fabric n }) ∧
    (¬ gone → hubOf node ≠ f.at_ - 16 → s.hasCredit f.at_ (16 + hubOf node) f.pkt.cls = true →
      exec (.fabricPacketArrival n) s =
        .next { s with fabric := tput s.fabric n ⟨f.pkt, 16 + hubOf node, none, some (f.at_, 16 + hubOf node)⟩ }) ∧
    (¬ gone → hubOf node = f.at_ - 16 → s.nodeShut node = false →
      exec (.fabricPacketArrival n) s = .next (s.arriveNode n f node)) ∧
    (¬ gone → hubOf node = f.at_ - 16 → s.nodeShut node = true → f.pkt.fenced = false →
      let p := { f.pkt with
        cls := 1, src := if f.pkt.logical then 504 + 15 else f.pkt.dst, dst := f.pkt.src, logical := false, flits := 1
        promoted := false, fenced := true, task := none }
      exec (.fabricPacketArrival n) s = .next { s with fabric := tput s.fabric n ⟨p, f.at_, none, f.link⟩ })) ∧
  (∀ (s : State) n f node, s.hasCredit f.at_ node f.pkt.cls = false → s.arriveNode n f node = s) ∧
  (∀ (s : State) n f node, s.hasCredit f.at_ node f.pkt.cls = true →
    (9 ≤ node → s.arriveNode n f node = { s with fabric := tdel s.fabric n }) ∧
    (node < 9 → f.pkt.task = none → nodeOf f.pkt.dst = node →
      let g := stationAt node (stQuad f.pkt.dst) 0
      ∀ k, s.gateSpace g f.pkt.cls f.pkt.promoted = some k →
        s.arriveNode n f node = ({ s with fabric := tdel s.fabric n } : State).enqueue g (some k) f.pkt)) ∧
  (∀ (s : State) n f node, node < 9 → f.pkt.task = none → nodeOf f.pkt.dst = node →
    s.gateSpace (stationAt node (stQuad f.pkt.dst) 0) f.pkt.cls f.pkt.promoted = none → s.arriveNode n f node = s) ∧
  (∀ (s : State) n o p, tget? s.ops n = some o → p.promotion = false →
    s.fencedAccess p n = (s.lateFault o ⟨Cause.nodeFenced, BitVec.ofNat 64 (nodeOf p.src % 16), p.addr⟩).endSilent n) ∧
  (∀ (s : State) k, exec (.forwardingEntryExpiry k) s = .next (s.modChiplet k fun c =>
    { c with forwards := c.forwards.filter fun f => decide (s.now < f.at_ + State.ms 1) }))

/-! ## Power -/

/-- Power, current and heat (15 R391 to R422): the balance controller's ballast and balance codes (R393), the droop detector
with its count of trips (R397), the rail ceiling, which revokes every boost lease (R402), the thermal check, which moves a
cohort off a hot cluster or raises its code (R399, R400), the telemetry port, the droop curve's commit and its use from the next
accepted frame on, the package power, the restores of a flood, the shed window, and the PMBus registers. The model's own reading
here: logs 24, 43. -/
def Obligations.PowerEvents : Prop :=
  (∀ (s : State) slot pair lo hi, (s.chiplet slot).power = .active → pair < 12 →
    (s.cluster (24 * slot + 2 * pair)).evalAt + State.us 1 ≤ s.now →
    let light := if lo ≤ hi then 24 * slot + 2 * pair else 24 * slot + 2 * pair + 1
    let heavy := if lo ≤ hi then 24 * slot + 2 * pair + 1 else 24 * slot + 2 * pair
    let diff := max lo hi - min lo hi
    ∃ u, exec (.balanceEvaluation slot pair lo hi) s = .next u ∧ u = { s with clusters := u.clusters } ∧
      (u.cluster (24 * slot + 2 * pair)).evalAt = s.now ∧
      (6 * max lo hi < 100 * diff → (u.cluster light).ballast = min 100 ((s.cluster light).ballast + 10) ∧
        (u.cluster heavy).ballast = (s.cluster heavy).ballast) ∧
      (100 * diff < 4 * max lo hi → (u.cluster light).ballast = (s.cluster light).ballast - 10 ∧
        (u.cluster heavy).ballast = (s.cluster heavy).ballast - 10) ∧
      (8 * max lo hi < 100 * diff → (u.cluster light).balance = (s.cluster light).balance ∧
        if (u.cluster light).ballast = 100 ∧ (s.cluster heavy).balanceAt + State.us 2 ≤ s.now ∧ (s.cluster heavy).balance < 2 then
          (u.cluster heavy).balance = (s.cluster heavy).balance + 1 ∧ (u.cluster heavy).balanceAt = s.now
        else (u.cluster heavy).balance = (s.cluster heavy).balance ∧ (u.cluster heavy).balanceAt = (s.cluster heavy).balanceAt) ∧
      ∀ k, k = light ∨ k = heavy →
        (4 * max lo hi ≤ 100 * diff → max lo hi ≠ 0 → (u.cluster k).calmSince = none ∧
          (100 * diff ≤ 8 * max lo hi → (u.cluster k).balance = (s.cluster k).balance)) ∧
        (100 * diff < 4 * max lo hi →
          ((s.cluster k).calmSince = none → (u.cluster k).calmSince = some s.now ∧ (u.cluster k).balance = (s.cluster k).balance) ∧
          ∀ t, (s.cluster k).calmSince = some t →
            if t + State.us 10 ≤ s.now then
              (u.cluster k).balance = (s.cluster k).balance - 1 ∧ (u.cluster k).calmSince = some s.now
            else (u.cluster k).balance = (s.cluster k).balance ∧ (u.cluster k).calmSince = some t)) ∧
  (∀ (s : State) k mv, s.drpLvl < mv → (s.chiplet (clusterSlot k)).power = .active →
    ∃ u, exec (.droopTrip k mv) s = .next u ∧ u = { s with clusters := u.clusters } ∧
      ∀ j, u.cluster j = if j = k ∨ j = pairOf k then
        { s.cluster j with trips := ((s.cluster j).trips + 1) % 65536, droop := .stretch s.drpStretch s.drpHold }
        else s.cluster j) ∧
  (∀ (s : State) k h, (s.cluster k).droop = .stretch 0 h → exec (.droopStretchEnd k) s =
    .next (s.setCluster k { s.cluster k with droop := if h = 0 then .idle else .hold h })) ∧
  (∀ (s : State) k, (s.cluster k).droop = .hold 0 → exec (.droopHoldEnd k) s =
    .next (s.setCluster k { s.cluster k with droop := .idle })) ∧
  (∀ (s : State) mA, (∀ t, s.power.railAt = some t → t + State.us 10 ≤ s.now) → 1100000 < mA →
    ∃ u, exec (.railCurrentSample mA) s = .next u ∧ u.power.railOver = true ∧ u.groups = s.groups ∧
      (∀ k, k < 216 → (s.chiplet (clusterSlot k)).power = .active → (u.cluster k).rail = min 2 ((s.cluster k).rail + 1)) ∧
      (∀ b y, u.block? b = some y → y.boostUntil = none) ∧
      ∀ b x t, s.block? b = some x → x.boostUntil = some t → s.now < t → ∃ y, u.block? b = some y ∧ y.boostNote = 8) ∧
  (∀ s : State, (∀ t, s.power.thermalAt = some t → t + State.ms 1 ≤ s.now) → (∀ k, s.isHot k = false) →
    ∃ u, exec .thermalCheck s = .next u ∧ u.power.thermalAt = some s.now ∧ u.groups = s.groups ∧
      ∀ k, k < 216 → (s.chiplet (clusterSlot k)).power = .active → ∀ t, (s.cluster k).coolSince = some t →
        t + State.ms 1 ≤ s.now → (u.cluster k).thermal = (s.cluster k).thermal - 1) ∧
  (∀ (s : State) k, (∀ t, s.power.thermalAt = some t → t + State.ms 1 ≤ s.now) → k < 216 →
    (s.chiplet (clusterSlot k)).power = .active → (∀ j, s.isHot j = true ↔ j = k) → (s.cluster k).coolSince = none →
    (s.trapVec = 0 ∨ s.hotCohorts k = [] ∨ s.coolTargets k = [] → ∃ u, exec .thermalCheck s = .next u ∧
      (u.cluster k).thermal = min 2 ((s.cluster k).thermal + 1)) ∧
    ∀ cid c rest t ts cores, s.trapVec ≠ 0 → s.hotCohorts k = (cid, c) :: rest → s.cohort? cid = some c →
      s.coolTargets k = t :: ts → s.coolCores k t c.blocks = some cores →
      (∀ e ∈ rest, s.groupsOn e.2 k ≤ s.groupsOn c k) ∧ s.hottestOf t + 6 ≤ s.hottestOf k ∧
      (∀ j ∈ ts, s.hottestOf t ≤ s.hottestOf j) ∧ ∃ u, exec .thermalCheck s = .next u ∧
        (u.cluster k).thermal = (s.cluster k).thermal ∧
        u.cohort? cid = some { c with state := .preempting ⟨Cause.preempt, s.now, s.now, some (c.chip, cores)⟩ }) ∧
  (∀ (s : State) nbits x,
    let good := nbits = 128 ∧ frameField x 124 4 = 0xA ∧ frameField x 120 4 = 1 ∧ frameField x 56 5 = 0 ∧
      frameField x 16 16 = 0 ∧ frameField x 0 16 = crc16 x
    (¬ good → ∃ r, exec (.pstpFrame nbits x) s = .next { s with
      power := { s.power with badFrames := (s.power.badFrames + 1) % 256, reply := r } }) ∧
    (good → ∃ u, exec (.pstpFrame nbits x) s = .next u ∧ u.power.seq = frameField x 112 8 ∧ u.power.frameAt = s.now ∧
      u.power.badFrames = s.power.badFrames ∧ (frameField x 61 1 = 1 → u.power.failsafe = true) ∧
      ∀ curve fs hyst, s.power.pending = some (curve, fs, hyst) → u.power.inUse = curve ∧ u.power.useFailsafe = fs ∧
        u.power.useHyst = hyst ∧ u.power.pending = none)) ∧
  (∀ s : State, s.power.frameAt + State.ms 10 ≤ s.now → ∃ u, exec .pstpTimeout s = .next u ∧ u.power.failsafe = true) ∧
  (∀ s : State, fieldOf s.power.ctl 40 1 = 1 →
    let ctl := setField s.power.ctl 40 1 0
    (curveOk s.power.curve (fieldOf ctl 32 3) = true → exec .curveCommit s = .next { s with power := { s.power with
      ctl := setField ctl 41 1 0
      pending := some (s.power.curve, fieldOf ctl 32 3, (fieldOf ctl 16 16, fieldOf ctl 0 16)) } }) ∧
    (curveOk s.power.curve (fieldOf ctl 32 3) = false → exec .curveCommit s =
      .next { s with power := { s.power with ctl := setField ctl 41 1 1 } })) ∧
  (∀ (s : State) w, (∀ t, s.power.wattsAt = some t → t + State.us 100 ≤ s.now) → s.ceilW < w →
    ∃ u, exec (.packagePowerSample w) s = .next u ∧ u.power.watts = w ∧ u.groups = s.groups ∧
      ∀ k, k < 216 → (s.chiplet (clusterSlot k)).power = .active → (u.cluster k).power = min 2 ((s.cluster k).power + 1)) ∧
  (∀ (s : State) f c, s.power.flood = some f → f.next ≤ s.now → rampOk s = true →
    let want := Point.classes (s.power.inUse.getD f.point 0)
    let now := fieldOf (s.catWord 28) 16 8
    c < 8 → want.testBit c = true → now.testBit c = false → (∀ k, c < k → k < 8 → want.testBit k = true → now.testBit k = true) →
    let t := s.commit [(28, State.curveWord (fieldOf (s.catWord 28) 24 8) (now + 2 ^ c) (fieldOf (s.catWord 28) 0 16))]
    exec .floodRestore s =
      .next { t with power := { t.power with flood := some { f with next := s.now + State.ms 2 } } }.classesChanged) ∧
  (∀ (s : State) cid c, s.cohort? cid = some c → c.state = .running → s.trapVec ≠ 0 →
    (∀ b ∈ c.blocks, ∀ e ∈ s.groupsOf b, e.2.cls ≠ 7) →
    (∃ b ∈ c.blocks, ∃ e ∈ s.groupsOf b, s.looseShed e.2 = true ∧ e.2.holdNext = false ∧ ∃ t, e.2.shedAt = some t ∧ t ≤ s.now) →
    exec (.shedWindowExpiry cid) s = .next (s.preempt cid Cause.shed none)) ∧
  (∀ s : State, exec .pmbusReadPstpStat s = .next { s with pmbus := s.pstpStat } ∧
    exec .pmbusReadCatalogue28 s = .next { s with pmbus := s.shownWord 28 } ∧
    exec .pmbusReadPower s = .next { s with pmbus := BitVec.ofNat 64 s.power.watts })

/-! ## Queues and launches -/

/-- Doorbells, QCTL and packets (16 R424 to R431, R443): a doorbell moves WPTR or is an error; STOP, RESUME and KILL; a packet
is parsed once, in order and in its queue's turn, and takes effect by its type; a FENCE is met, times out or holds, and a
BARRIER-AND is tested; and a SIGNAL writes its value after every earlier launch of its queue has completed. The model's own
reading here: logs 45, 46, 47. -/
def Obligations.QueueEvents : Prop :=
  (∀ (s : State) q v, (s.queue q).enable = true → (s.queue q).state ≠ 3 →
    (2 ^ (s.queue q).log2Slots < (v - (s.queue q).rptr).toNat → exec (.doorbell q v) s = .next (s.queueError q 1 v)) ∧
    ((v - (s.queue q).rptr).toNat ≤ 2 ^ (s.queue q).log2Slots → exec (.doorbell q v) s = .next (s.putQueue q
      { s.queue q with wptr := v, state := if (s.queue q).state = 0 then 1 else (s.queue q).state }))) ∧
  (∀ (s : State) q, (s.queue q).enable = true →
    ((s.queue q).state ≤ 1 → exec (.qctlStop q) s = .next (s.putQueue q { s.queue q with state := 2 })) ∧
    ((s.queue q).state = 2 → exec (.qctlResume q) s = .next (s.putQueue q { s.queue q with state := 1 })) ∧
    (s.launches = [] → s.graphs = [] → exec (.qctlKill q) s = .next (s.putQueue q
      { s.queue q with rptr := (s.queue q).wptr, err := 0, state := 0, held := none }).enterPlacement)) ∧
  (∀ (s : State) q t idx w, s.parse q (fun t => t == 0 || 6 ≤ t) = some (t, idx, w) → exec (.nopPacket q) s = .next
    (if fieldOf (w.getD 0 0) 0 8 = 0 ∧ packetVersion w = 1 then t else t.queueError q 2 idx)) ∧
  (∀ (s : State) q type t idx w, Parses s q type t idx w → ∃ v : State, t = v.putQueue q { v.queue q with rptr := (v.queue q).rptr + 1 } ∧
    idx = (s.queue q).rptr ∧ fieldOf (w.getD 0 0) 0 8 = type ∧ (s.queue q).rptr ≠ (s.queue q).wptr ∧ t.lastQueue = q ∧
    ∀ e ∈ s.queues, State.Queue.hasWork e.2 = true → (q + 2047 - s.lastQueue) % 2048 ≤ (e.1 + 2047 - s.lastQueue) % 2048) ∧
  (∀ (s : State) q t idx w, Parses s q 1 t idx w →
    let r := t.addLaunch w q (t.queue q).aspace false none
    exec (.launchPacket q) s = .next (r.1.startStages r.2).enterPlacement) ∧
  (∀ (s : State) q t idx w, Parses s q 2 t idx w →
    let n := fieldOf (w.getD 0 0) 16 4 + 1
    let cs := (List.range n).map fun i => (w.getD (2 + 2 * i) 0, w.getD (3 + 2 * i) 0)
    (packetVersion w ≠ 1 → exec (.fencePacket q) s = .next (t.queueError q 2 idx)) ∧
    (packetVersion w = 1 → 12 < n → exec (.fencePacket q) s = .next (t.queueError q 6 idx)) ∧
    (packetVersion w = 1 → n ≤ 12 → packetClear w [(16, 4), (32, 32)] (fun i => 2 ≤ i && i < 2 + 2 * n) = true →
      (∀ c ∈ cs, t.packetWord q c.1 false = true) → exec (.fencePacket q) s =
        .next ((t.hold q (some (.fence cs t.now (fieldOf (w.getD 0 0) 32 32)))).testFence q))) ∧
  (∀ (s : State) q cs start time, (s.queue q).held = some (.fence cs start time) →
    (time ≠ 0 → start + State.us time ≤ s.now →
      exec (.fenceCounterTest q) s = .next (s.queueError q 5 ((s.queue q).rptr - 1))) ∧
    (¬ (time ≠ 0 ∧ start + State.us time ≤ s.now) → ∀ u left, s.testCounters q cs = (u, some left) →
      exec (.fenceCounterTest q) s = .next (u.hold q (if left = [] then none else some (.fence left start time))))) ∧
  (∀ (s : State) q cs start time, (s.queue q).held = some (.fence cs start time) → time ≠ 0 →
    start + State.us time ≤ s.now → exec (.fenceTimeout q) s = .next (s.queueError q 5 ((s.queue q).rptr - 1))) ∧
  (∀ (s : State) q t idx w, Parses s q 3 t idx w → packetVersion w = 1 →
    packetClear w [(16, 3)] (fun i => i == 1 || i == 2) = true → fieldOf (w.getD 0 0) 16 2 < 2 →
    t.packetWord q (w.getD 1 0) true = true → exec (.signalPacket q) s = .next (t.hold q
      (some (.signal (fieldOf (w.getD 0 0) 16 2) ((w.getD 0 0).getLsbD 18) (w.getD 1 0) (w.getD 2 0) idx.toNat)))) ∧
  (∀ (s : State) q op irq a v idx u old e, (s.queue q).held = some (.signal op irq a v idx) → s.queueDone q = true →
    s.readPacketWord q a = (u, some old) → s.packetLook (s.queue q).aspace a.toNat = some e → e.w = true →
    let new := if op = 0 then v else old + v
    let t := (u.homeWrite (e.phys a.toNat) (bytesOfNat 8 new.toNat)).hold q none
    exec (.signalPerform q) s = .next (if irq then t.postEvent q 1 0 0 (BitVec.ofNat 64 idx) a new else t)) ∧
  (∀ (s : State) q t idx w u, (s.queue q).held = none → Parses s q 4 t idx w → packetVersion w = 1 →
    packetClear w [] (fun i => 1 ≤ i && i ≤ 3) = true → (w.getD 1 0).toNat % 64 = 0 → (w.getD 2 0).toNat % 128 = 0 →
    t.startGraph q w = .done u → exec (.graphPacket q) s = .next u.enterPlacement) ∧
  (∀ (s : State) q t idx w, (s.queue q).held = none → Parses s q 5 t idx w →
    let n := fieldOf (w.getD 0 0) 16 4
    let recs := (List.range n).map fun i => w.getD (2 + i) 0
    packetVersion w = 1 → n ≤ 12 → packetClear w [(16, 4)] (fun i => 2 ≤ i && i < 2 + n) = true →
    (∀ a ∈ recs, t.packetWord q a false = true) →
    exec (.barrierAndPacket q) s = .next ((t.hold q (some (.barrier recs))).testBarrier q recs))

/-- The stages of a launch (09 R243, R244, 16 R433 to R446): its leases become resident, its body is chosen or translated,
its cohorts are placed, in whatever order, where no other goes before them and the generation is the one its record names,
and it completes with its status, its record and the end of its pins, once the copies that its ended blocks left under way are
done (16 R434, 19 R486). A move for load imbalance begins where it lets a waiting cohort of a higher class start (R442). The
model's own reading here: logs 9, 10, 48, 52, 89. -/
def Obligations.LaunchEvents : Prop :=
  (∀ (s : State) n l, s.launch? n = some l → l.stage = .leases → l.status = none →
    let pages := (l.leases.map fun x => x.pages.map fun p => (x, p)).flatten
    let frames := pages.filterMap fun e => s.frameOfPage l.aspace e.2
    let bad := l.leaseBad = true ∨ ∃ x ∈ l.leases, windowBase < x.base + x.len
    (bad → exec (.leaseResidency n) s = .next (s.endLaunch n 2 0).enterPlacement) ∧
    (¬ bad → (∃ e ∈ pages, s.pageResident l.aspace e.1 e.2 = false) →
      exec (.leaseResidency n) s =
        .next ((s.cleanWalks l.aspace (pages.map fun e => 65536 * e.2)).endLaunch n 3 0).enterPlacement) ∧
    (¬ bad → (∀ e ∈ pages, s.pageResident l.aspace e.1 e.2 = true) →
      let v := s.launches.foldl (fun (s : State) e => s.cleanWalks e.2.aspace (e.2.moves.map fun m => 65536 * m.1)) s
      ((∃ f ∈ frames, f.1 ∈ v.movingFrames n) → exec (.leaseResidency n) s = .next v) ∧
      ((∀ f ∈ frames, f.1 ∉ v.movingFrames n) → exec (.leaseResidency n) s =
        .next ((frames.foldl (fun (s : State) (f : Nat × TlbEntry) => s.pinFrame n f.1 f.2) v).chooseBody n)))) ∧
  (∀ (s : State) n l, s.launch? n = some l → l.stage = .body → l.status = none →
    (s.bodies.find? fun b => b.key == s.bodyKey l) = none → s.translated.contains (s.bodyKey l) = true →
    let t := ({ s with translated := s.translated.filter (· != s.bodyKey l) } : State).cleanVirt l.aspace
      (l.codeBase.toNat + l.secOff 3) (l.secSize 3)
    let body := (t.virtRead l.aspace (l.codeBase.toNat + l.secOff 3) (l.secSize 3)).bind fun d =>
      translateBody d t.shelfmark t.features (fieldOf (l.kent.getD 1 0) 32 32) (s.bodyKey l)
    (∀ b, body = some b → exec (.translationReady n) s = .next (t.useBody n l b)) ∧
    (body = none → exec (.translationReady n) s = .next (t.endLaunch n 6 0).enterPlacement)) ∧
  (∀ (s : State) n l number slot cores t, s.launch? n = some l → s.placing n l = true → State.unplaced l number = true →
    s.outranked n l = false → (s.chiplet slot).power = .active → s.startCohort n number slot cores l = some t →
    let first := State.begun l = false ∧ l.genchk = true
    (first → (l.genSeen ≠ s.catWord 0 ∨ s.genMatches l = false) →
      exec (.cohortPlacement (n, number) slot cores) s = .next (s.endLaunch n 4 0).enterPlacement) ∧
    (¬ (first ∧ s.genMatches l = false) → exec (.cohortPlacement (n, number) slot cores) s = .next (t.modLaunch n fun x =>
      let y := State.nowPlaced x number
      { y with stage := if y.again.isEmpty && y.placed == y.cohortCount then .running else .placing }))) ∧
  (∀ (l : Launch) number, l.again = [] → l.ahead = [] → State.unplaced l number = true →
    State.nowPlaced l number = if number = l.placed then { l with placed := l.placed + 1 } else { l with ahead := [number] }) ∧
  (∀ (s : State) n l status cause, s.launch? n = some l → l.outcome = some (status, cause) →
    (∃ k ∈ l.copies, (tget? s.ops k).isSome) → exec (.launchCompletion n) s = .next s) ∧
  (∀ (s : State) n l status cause, s.launch? n = some l → l.outcome = some (status, cause) → l.graph = none →
    (∀ k ∈ l.copies, tget? s.ops k = none) →
    let v := s.cores.foldl (fun (s : State) (e : Nat × Core) => s.cleanSelf e.1) s
    let w := v.writeRecord l.queue l.aspace l.compl l.recId status cause l.counters
    OnlyMemory s v ∧ exec (.launchCompletion n) s =
      .next ((({ w with launches := tdel w.launches n } : State).unpin n).retest.translatorDone n status).enterPlacement) ∧
  (∀ (s : State) cid c slot cores, s.cohort? cid = some c → s.mayMove c = true → slot ≠ c.chip →
    (s.chiplet slot).power = .active → (s.cohortTo slot c.blocks cores).isSome →
    let cls := ((s.launch? c.launch).map Launch.cls).getD 7
    let t := s.without [(cid, c)]
    ((∃ e ∈ s.waitingLaunches, cls < e.2.cls ∧ t.chipRoom c.chip e.1 e.2 = true ∧
        (s.imagePlaces e.2.imageUnits e.2.cohortBlocks s.imageRanges).isSome) ∨
      ∃ e ∈ s.cohorts, ∃ p bs m, e.2.state = .saved p bs ∧ s.launch? e.2.launch = some m ∧ cls < m.cls ∧ p.move = none ∧
        s.restorable bs = true ∧ (∀ k, k < 9 → s.savedRoom k e.2.launch m bs = false) ∧ t.savedRoom c.chip e.2.launch m bs = true) →
    exec (.taskStreamerMove cid slot cores) s = .next (s.preempt cid Cause.preempt (some (slot, cores))))

/-- Pre-emption and restore (17 R450 to R461): the cohorts that give way are asked to leave; a group whose operations have
drained enters its handler with PREEMPT or SHED, a helper lane's place its leader's (04 R117); a cohort that does not
acknowledge in time ends as TRAPPED, once no copy of a circular buffer runs (R456); and a saved cohort starts again, where no
other goes before it, with its groups where its images say. The model's own reading here: logs 9, 49, 54. -/
def Obligations.PreemptionEvents : Prop :=
  (∀ (s : State) cid, (∃ e ∈ s.nextVictims, e.1 = cid) → exec (.preemptionRequest cid) s =
    .next (s.nextVictims.foldl (fun (s : State) (e : Nat × Cohort) => s.preempt e.1 Cause.preempt none) s)) ∧
  (∀ (s : State) cid c reason move, s.cohort? cid = some c → c.state = .running → s.trapVec ≠ 0 →
    let u := s.preempt cid reason move
    u.cohort? cid = some { c with state := .preempting ⟨reason, s.now, s.now, move⟩ } ∧
    (reason = Cause.preempt → ∀ b ∈ c.blocks, ∀ e ∈ s.groupsOf b,
      u.group? e.1 = some { e.2 with preempt := e.2.preempt || e.2.recorded.isNone }) ∧
    (reason = Cause.shed → ∀ b ∈ c.blocks, ∀ e ∈ s.groupsOf b,
      u.group? e.1 = some { e.2 with shed := e.2.shed || e.2.recorded.isNone, shedAt := none })) ∧
  (∀ (s : State) cid c p, s.cohort? cid = some c → c.state = .preempting p → s.trapVec ≠ 0 →
    let u := s.preempt cid Cause.shed none
    u.cohort? cid = some { c with state := .preempting { p with reason := Cause.shed } } ∧
    (∀ b ∈ c.blocks, ∀ e ∈ s.groupsOf b, u.group? e.1 = some { e.2 with shed := e.2.shed || e.2.recorded.isNone, shedAt := none }) ∧
    s.preempt cid Cause.preempt none = s) ∧
  (∀ (s : State) gid o, s.owner? gid = some o → o.g.handler = false → o.g.late = [] → o.g.run = none → o.g.restore = none →
    o.g.preempt = true ∨ o.g.shed = true → s.drained gid = true → s.trapVec ≠ 0 →
    let code := if o.g.shed then 0x11 else 0x10
    ∃ u h, exec (.asyncTrapDelivery gid) s = .next u ∧ u = { s with groups := u.groups } ∧ u.group? gid = some h ∧
      h.handler = true ∧ h.preempt = false ∧ h.shed = false ∧ h.trapCause = BitVec.ofNat 64 code ∧
      h.recorded = some ((List.range 32).map o.g.thread) ∧ h.hset = List.range 32 ∧
      (∀ i, o.g.pick = some i → h.trapPc = (o.g.thread i).pc ∧ h.trapCaddr = (o.g.thread i).resume.getD (o.g.thread i).pc) ∧
      ∀ i, i < 32 → pair (h.reg i 120) (h.reg i 121) = (o.g.thread i).pc ∧
        pair (h.reg i 122) (h.reg i 123) = (o.g.thread i).resume.getD (o.g.thread i).pc) ∧
  (∀ (s : State) cid c p, s.cohort? cid = some c → c.state = .preempting p → max p.at_ p.last + State.ms 2 ≤ s.now →
    s.allAcked c = false → exec (.pmackTimeout cid) s =
      .next (if s.copyRuns c then s else s.endLaunch c.launch 8 0x10)) ∧
  (∀ (s : State) cid c p blocks l slot cores t, s.cohort? cid = some c → c.state = .saved p blocks →
    s.launch? c.launch = some l → s.trapVec ≠ 0 → (∀ x ∈ blocks, ∀ g ∈ x.groups, s.classAllowed g.2.cls = true) →
    (p.move.isSome ∨ s.outranked c.launch l = false) →
    cores.length = c.blocks.length → (∀ k ∈ cores, k < 96) → s.restorePlace c p slot cores = true →
    let clean := blocks.foldl (fun (s : State) x => s.cleanVirt l.aspace x.block.image l.image.size) s
    clean.imageCause l blocks = none → (∀ x ∈ blocks, (clean.imageData l x.block).isSome) →
    clean.restoreBlocks c l slot cores blocks = some t →
    let moved := p.move.isSome && blocks.any fun x => x.block.core != State.coreFor c slot cores x.bid
    let v := t.modCohort cid fun x => { x with state := .running, chip := slot, lastMove := if moved then some clean.now else x.lastMove }
    let w := if p.move.isNone then v
      else blocks.foldl (fun (t : State) (x : Saved) => t.forward cid x.bid x.block.core (State.coreFor c slot cores x.bid)) v
    let u := c.blocks.foldl (fun (t : State) b => match t.block? b with
      | some x => (t.grantClaims x.core c.launch 64).settle b
      | none => t) w
    exec (.cohortRestore cid slot cores) s = .next (if l.killed then (u.endLaunch c.launch 9 0).enterPlacement else u))

/-! ## Management -/

/-- The management controller, the host port and errors (01 R10, R18, 14 R389, 18 R468 to R479): negotiation, queue contexts,
images, the error ring, fencing, what a lost cohort leaves (18 R475, R476), and the spare, BAR0, scale-up ports and peers, fatal
errors and the package reset; and that a commit raises GEN first, writes its words, and raises GEN_TAIL last, as readers of the
catalogue see it. The model's own reading here: logs 13, 18, 26, 50, 56, 63. -/
def Obligations.ManagementEvents : Prop :=
  (∀ s, Commands .negotiateFeatures s 16 fun m t u st =>
    let want : BitVec 128 := BitVec.ofNat 128 ((m.word 4).toNat + 2 ^ 64 * (m.word 5).toNat)
    let put (s : State) (v : BitVec 128) : State := s.homeWrite (m.addr + 48) (bytesOfNat 16 v.toNat)
    t.negotiated = true ∧ st = 2 ∧ u = t ∨
    t.negotiated = false ∧ (0x7F &&& want).getLsbD 0 = false ∧ st = 1 ∧ u = t ∨
    t.negotiated = false ∧ (0x7F &&& want).getLsbD 0 = true ∧ st = 0 ∧
      u = put { t with negotiated := true, features := 0x7F &&& want } (0x7F &&& want)) ∧
  (∀ (s : State) (m : State.Mail) st, m.opcode = 16 → st ≠ 0 →
    s.mailEnd m st = (s.homeWrite (m.addr + 48) (bytesOfNat 16 0)).mailStatus m.addr st) ∧
  (∀ s, Commands .loadQueueContext s 17 fun m t u st =>
    let q := 16 * m.arg + m.set
    let r := t.physWords (t.qtab.toNat + 64 * q) 8
    let w (n : Nat) : W64 := r.2.getD n 0
    t.negotiated = true ∧ q ≤ 2047 ∧ ¬ ((t.queue q).enable = true ∧ (t.queue q).state = 1) ∧
      (contextBad w = true ∧ st = 3 ∧ u = r.1 ∨ contextBad w = false ∧ st = 0 ∧ u = r.1.putQueue q
        { ring := w 0, enable := (w 1).getLsbD 11, maxClass := fieldOf (w 1) 8 3, log2Slots := fieldOf (w 1) 0 5
          aspace := w 2, rptr := 0, wptr := 0, evq := w 5, msi := fieldOf (w 6) 16 16, evqLog2 := fieldOf (w 6) 0 16
          err := 0, state := 0, count := 0, held := none })) ∧
  (∀ s m, nextMail s = some m → m.opcode = 18 → m.rsv = false →
    let v := State.cleanPhys { s.cleanPhys m.addr 64 with mailbox := s.mailbox.tail } m.bytes Config.imageLength
    let bytes := (List.range Config.imageLength).map fun i => v.homeByte (m.bytes + i)
    let x := { Config.imageFields bytes with valid := true }
    let good := Config.signatureOk bytes = true ∧ (v.imageUsed.valid = false ∨ v.imageUsed.seq < x.seq)
    exec .updateConfigurationImage s = .next (State.mailStatus (if good then
        (if v.usesB then { v with imageA := x } else { v with imageB := x }) else v) m.addr (if good then 0 else 7))) ∧
  (∀ s, Commands .fenceChipletForService s 19 fun m t u st => ∃ slot, t.slotOf m.arg = some slot ∧
    (t.chiplet slot).power = .active ∧ st = 0 ∧ u = t.fence slot) ∧
  (∀ s, Commands .setErrorRing s 20 fun m t u st => 4 ≤ m.arg ∧ m.arg ≤ 16 ∧ m.bytes % 32 = 0 ∧ st = 0 ∧
    u = { t with errRing := some ⟨m.bytes, m.arg, 0⟩ }) ∧
  (∀ (s : State) core e, e ∈ s.groups → ((s.block? e.2.block).map Block.core) = some core → ready s e.1 = true →
    State.ms 100 ≤ (s.core core).unissued → exec (.coreWatchdogExpiry core) s = .next (s.fence (coreSlot core))) ∧
  (∀ (s : State) slot, (s.chiplet slot).power = .active → exec (.chipletFence slot) s = .next (s.fence slot)) ∧
  (∀ (s : State) cid c l, s.cohort? cid = some c → s.launch? c.launch = some l → l.killed = false → l.rerun = true →
    let u := s.loseCohort cid
    u.cohort? cid = none ∧ (∀ b ∈ c.blocks, u.block? b = none) ∧ u.mem = s.mem ∧ u.llc = s.llc ∧
    ∃ y, u.launch? c.launch = some y ∧ y.counters = l.counters ∧ y.stage = .placing) ∧
  (∀ (s : State) slot, (s.chiplet slot).power = .fenced → ∃ u, exec (.chipletPowerOff slot) s = .next u ∧
    (u.chiplet slot).power = .off ∧ u.mem = s.mem ∧ u.groups = s.groups ∧ u.cohorts = s.cohorts) ∧
  (∀ (s : State) slot logical p t, (List.range 9).find? (fun p => ((s.chiplet p).lost.map fun x => x.1) == some logical) = some p →
    (s.chiplet p).lost = some (logical, t) → (s.chiplet p).power = .off → p ≠ slot → (s.chiplet slot).power = .spare → logical < 8 →
    ∃ u, exec (.spareMapIn slot logical) s = .next u ∧ (u.chiplet slot).power = .active ∧ (u.chiplet p).lost = none ∧
      (s.catalogue.length = 32 → fieldOf (u.catWord 2) (4 * logical) 4 = slot % 16 ∧ u.catWord 0 = s.catWord 0 + 1)) ∧
  (∀ (s : State) off v,
    exec (.registerWrite 0x2000 v) s = .next (if v.toNat % 64 = 0 then { s with mbAddr := v } else s) ∧
    exec (.registerWrite 0x2008 v) s = .next (if v.getLsbD 0 then { s with mailbox := s.mailbox ++ [s.mbAddr] } else s) ∧
    (off < 2048 → exec (.registerWrite (0x100000 + 8 * off) v) s = .next (s.doorbell off v) ∧
      exec (.registerWrite (0x104000 + 8 * off) v) s = .next (s.qctl off v.toNat))) ∧
  (∀ (s : State) off,
    ((off = 0x2008 ∨ 0x100000 ≤ off ∧ off < 0x108000) → s.barWord off = 0) ∧
    (∀ k, k < 32 → s.barWord (0x1000 + 8 * k) = s.shownWord k) ∧ s.barWord 0x2000 = s.mbAddr) ∧
  (∀ (s : State) port, port < 64 →
    ((s.catWord 29).getLsbD port = true →
      exec (.scaleupPortDown port) s = .next (s.commit [(29, s.catWord 29 &&& ~~~(1#64 <<< port))])) ∧
    ((s.catWord 29).getLsbD port = false →
      exec (.scaleupPortUp port) s = .next (s.commit [(29, s.catWord 29 ||| (1#64 <<< port))]))) ∧
  (∀ (s : State) peer off size data, peer < 1024 → s.catWord 29 ≠ 0 → size ≠ 0 → size ≤ 8 → off % 128 + size ≤ 128 →
    (s.setOf off).isSome → off < 2 ^ 40 →
    exec (.scaleupPeerAccess peer off .write size data) s = .next (s.homeWrite off (bytesOfNat size data.toNat)) ∧
    exec (.scaleupPeerAccess peer off .read size data) s = .next (s.cleanPhys off size) ∧
    exec (.scaleupPeerAccess peer off .atomicAdd size data) s = .next ((s.cleanPhys off size).homeWrite off
      (bytesOfNat size (natOfBytes ((s.cleanPhys off size).homeBytes off size) + data.toNat)))) ∧
  (∀ (s : State) node, 9 ≤ node → node ≤ 15 → exec (.fatalBoundaryError node) s = .next { s with dead := true }) ∧
  (∀ s : State, ∃ u, exec .packageReset s = .next u ∧ u.dead = false ∧ u.imageA = s.imageA ∧ u.imageB = s.imageB ∧
    u.logSlots = s.logSlots ∧ u.logChannels = s.logChannels ∧ u.groups = [] ∧ u.now = 0 ∧
    ∀ p, isDevice p = true → u.memByte p = 0) ∧
  (∀ (s : State) l, s.catalogue.length = 32 → (∀ e ∈ l, e.1 ≠ 0 ∧ e.1 ≠ 31) →
    (s.commit l).catWord 0 = s.catWord 0 + 1 ∧ (s.commit l).catWord 31 = s.catWord 0 + 1 ∧ (s.commit l).shown = s.catalogue ∧
    (s.commit l).publishing = (0, s.catWord 0 + 1) :: l ++ [(31, s.catWord 0 + 1)] ∧
    ((List.range (l.length + 2)).foldl (fun (s : State) _ => s.publishWord) (s.commit l)).shown = (s.commit l).catalogue) ∧
  (∀ (s : State) e rest, s.publishing = e :: rest →
    s.publishWord = { s with shown := s.shown.set e.1 e.2, publishing := rest })

/-! ## Reset and invariants -/

/-- What the spec gives at reset (01 R17, 03 R90, 04 R103, 12 R320, 13 R367, 14 R386, 15 R397, R398, R404, R409, R421, 17
R448): no group runs, no queue is enabled, no feature is accepted; GEN and its tail are 0, bit 7 of CLASSES is set and
word 30 has its sizes; the system registers have the values of their tables; and memory lists nothing. The model's own
reading here: log 25. -/
def Obligations.ResetValues : Prop :=
  let s := State.reset
  s.groups = [] ∧ s.blocks = [] ∧ s.launches = [] ∧ s.ops = [] ∧ s.mem = [] ∧ Memory.wf s.mem ∧ s.negotiated = false ∧
  s.features = 0 ∧ s.trapVec = 0 ∧ s.ctxStore = 0 ∧ s.ctxUnits = 0 ∧ s.fevThresh = 0 ∧ s.qtab = 0 ∧ s.shelfmark = 0 ∧
  s.thot = 100 ∧ s.tcool = 92 ∧ s.drpLvl = 45 ∧ s.drpStretch = 6 ∧ s.drpHold = 64 ∧ s.boostCfg = 0x0AC0 ∧
  s.bgShare = 0x180A ∧ s.netWrr = 0x1442 ∧ s.shedCfg = 0x2006403E8 ∧ s.catWord 0 = 0 ∧ s.catWord 31 = 0 ∧
  s.catWord 30 = 0x082040 ∧ s.shown = s.catalogue ∧ s.publishing = [] ∧ s.classAllowed 7 = true ∧ (∀ q, (s.queue q).enable = false) ∧
  ∀ k, (s.cluster k).pass = 0 ∧ (s.cluster k).droop = .idle

/-- The memory's canonical form is kept by every step (05, 10, 13): from every state whose memory has it, whatever happens
next. The model's own reading here: logs 1, 3. -/
def Obligations.MemoryCanonicalKept : Prop :=
  ∀ s t : State, Memory.wf s.mem → step s = .next t → Memory.wf t.mem
end

