-- ==== Sys2Proof/Laws/Sparse.lean ====
section
/-! SUPPORT. What the sparse tables say: a key set reads back, other keys are left alone, and the canonical form is kept. -/

namespace Sys2Proof.Machine

variable {α : Type}

/-- The keys of a table rise strictly, and the first lies above `b`. -/
def above : Nat → List (Nat × α) → Prop
  | _, [] => True
  | b, (k, _) :: t => b < k ∧ above k t

theorem rising_cons (k : Nat) (v : α) (t : List (Nat × α)) : rising ((k, v) :: t) = true ↔ above k t := by
  induction t generalizing k v with
  | nil => simp [rising, above]
  | cons e t ih => obtain ⟨k', v'⟩ := e; simp [rising, above, ih]

theorem above_mono {b c : Nat} {t : List (Nat × α)} (h : above c t) (hb : b ≤ c) : above b t := by
  cases t with
  | nil => trivial
  | cons e t => exact ⟨Nat.lt_of_le_of_lt hb h.1, h.2⟩

theorem rising_iff_above (t : List (Nat × α)) : rising t = true ↔ ∀ k v r, t = (k, v) :: r → above k r := by
  cases t with
  | nil => simp [rising]
  | cons e t =>
    obtain ⟨k, v⟩ := e
    rw [rising_cons]
    exact ⟨fun h k' v' r e => by cases e; exact h, fun h => h k v t rfl⟩

theorem rising_of_above {b : Nat} {t : List (Nat × α)} (h : above b t) : rising t = true := by
  cases t with
  | nil => rfl
  | cons e t => exact (rising_cons _ _ _).2 h.2

@[simp] theorem tget?_tput_same (t : List (Nat × α)) (n : Nat) (v : α) : tget? (tput t n v) n = some v := by
  induction t with
  | nil => simp [tput, tget?]
  | cons e t ih =>
    obtain ⟨k, w⟩ := e
    simp only [tput]
    split
    · simp [tget?]
    · split
      · simp [tget?]
      · simp_all [tget?]

@[simp] theorem tget?_tput_other (t : List (Nat × α)) (n m : Nat) (v : α) (h : m ≠ n) :
    tget? (tput t n v) m = tget? t m := by
  induction t with
  | nil => simp [tput, tget?, Ne.symm h]
  | cons e t ih =>
    obtain ⟨k, w⟩ := e
    simp only [tput]
    split
    · subst_vars; simp [tget?, Ne.symm h]
    · split
      · simp [tget?, Ne.symm h]
      · simp only [tget?, ih]

@[simp] theorem tget?_tdel_same (t : List (Nat × α)) (n : Nat) : tget? (tdel t n) n = none := by
  induction t with
  | nil => rfl
  | cons e t ih =>
    obtain ⟨k, w⟩ := e
    simp only [tdel]
    split
    · exact ih
    · simp [tget?, *]

@[simp] theorem tget?_tdel_other (t : List (Nat × α)) (n m : Nat) (h : m ≠ n) : tget? (tdel t n) m = tget? t m := by
  induction t with
  | nil => rfl
  | cons e t ih =>
    obtain ⟨k, w⟩ := e
    simp only [tdel]
    split
    · subst_vars; simp [tget?, Ne.symm h, ih]
    · simp only [tget?, ih]

theorem above_tput {b : Nat} {t : List (Nat × α)} {n : Nat} (v : α) (h : above b t) (hn : b < n) : above b (tput t n v) := by
  induction t generalizing b with
  | nil => exact ⟨hn, trivial⟩
  | cons e t ih =>
    obtain ⟨k, w⟩ := e
    simp only [tput]
    split
    · subst_vars; exact ⟨h.1, h.2⟩
    · split
      · exact ⟨hn, by assumption, h.2⟩
      · exact ⟨h.1, ih h.2 (by omega)⟩

theorem above_tdel {b : Nat} {t : List (Nat × α)} (n : Nat) (h : above b t) : above b (tdel t n) := by
  induction t generalizing b with
  | nil => trivial
  | cons e t ih =>
    obtain ⟨k, w⟩ := e
    simp only [tdel]
    split
    · exact above_mono (ih h.2) (Nat.le_of_lt h.1)
    · exact ⟨h.1, ih h.2⟩

theorem rising_tput {t : List (Nat × α)} (n : Nat) (v : α) (h : rising t = true) : rising (tput t n v) = true := by
  cases t with
  | nil => rfl
  | cons e t =>
    obtain ⟨k, w⟩ := e
    rw [rising_cons] at h
    simp only [tput]
    split
    · subst_vars; exact (rising_cons _ _ _).2 h
    · split
      · exact (rising_cons _ _ _).2 ⟨by assumption, h⟩
      · exact (rising_cons _ _ _).2 (above_tput v h (by omega))

theorem rising_tdel {t : List (Nat × α)} (n : Nat) (h : rising t = true) : rising (tdel t n) = true := by
  cases t with
  | nil => rfl
  | cons e t =>
    obtain ⟨k, w⟩ := e
    rw [rising_cons] at h
    simp only [tdel]
    split
    · exact rising_of_above (above_tdel n h)
    · exact (rising_cons _ _ _).2 (above_tdel n h)

theorem rising_tset [DecidableEq α] (d : α) {t : List (Nat × α)} (n : Nat) (v : α) (h : rising t = true) :
    rising (tset d t n v) = true := by
  unfold tset; split
  · exact rising_tdel n h
  · exact rising_tput n v h

/-- A key set reads back. -/
@[simp] theorem tgetD_tset_same [DecidableEq α] (d : α) (t : List (Nat × α)) (n : Nat) (v : α) :
    tgetD d (tset d t n v) n = v := by
  unfold tset tgetD; split
  · subst_vars; simp
  · simp

/-- Setting a key leaves every other key alone. -/
@[simp] theorem tgetD_tset_other [DecidableEq α] (d : α) (t : List (Nat × α)) (n m : Nat) (v : α) (h : m ≠ n) :
    tgetD d (tset d t n v) m = tgetD d t m := by
  unfold tset tgetD; split <;> simp [h]

theorem all_tput (p : Nat × α → Bool) {t : List (Nat × α)} {n : Nat} {v : α} (h : t.all p = true) (hv : p (n, v) = true) :
    (tput t n v).all p = true := by
  induction t with
  | nil => simp [tput, hv]
  | cons e t ih =>
    obtain ⟨k, w⟩ := e
    simp only [List.all_cons, Bool.and_eq_true] at h
    simp only [tput]
    split
    · simp [hv, h.2]
    · split
      · simp [hv, h.1, h.2]
      · simp [h.1, ih h.2]

theorem all_tdel (p : Nat × α → Bool) {t : List (Nat × α)} (n : Nat) (h : t.all p = true) : (tdel t n).all p = true := by
  induction t with
  | nil => rfl
  | cons e t ih =>
    obtain ⟨k, w⟩ := e
    simp only [List.all_cons, Bool.and_eq_true] at h
    simp only [tdel]
    split
    · exact ih h.2
    · simp [h.1, ih h.2]

/-- A canonical table stays canonical when a key is set. -/
theorem canon_tset [DecidableEq α] (d : α) {t : List (Nat × α)} (n : Nat) (v : α) (h : canon d t = true) : canon d (tset d t n v) = true := by
  simp only [canon, Bool.and_eq_true] at h ⊢
  refine ⟨rising_tset d n v h.1, ?_⟩
  unfold tset; split
  · exact all_tdel _ n h.2
  · exact all_tput _ h.2 (by simpa using by assumption)

theorem above_filter {b : Nat} (p : Nat × α → Bool) {t : List (Nat × α)} (h : above b t) : above b (t.filter p) := by
  induction t generalizing b with
  | nil => trivial
  | cons e t ih =>
    obtain ⟨k, w⟩ := e
    rw [List.filter_cons]
    split
    · exact ⟨h.1, ih h.2⟩
    · exact above_mono (ih h.2) (Nat.le_of_lt h.1)

/-- A canonical table stays canonical when entries are dropped. -/
theorem canon_filter [DecidableEq α] (d : α) (p : Nat × α → Bool) {t : List (Nat × α)} (h : canon d t = true) : canon d (t.filter p) = true := by
  simp only [canon, Bool.and_eq_true] at h ⊢
  refine ⟨?_, ?_⟩
  · cases t with
    | nil => rfl
    | cons e t =>
      obtain ⟨k, w⟩ := e
      have ha := (rising_cons _ _ _).1 h.1
      rw [List.filter_cons]
      split
      · exact (rising_cons _ _ _).2 (above_filter p ha)
      · exact rising_of_above (above_filter p ha)
  · have := h.2
    simp only [List.all_eq_true, List.mem_filter] at this ⊢
    exact fun x hx => this x hx.1

/-- A key put twice has its last value. -/
theorem tput_tput (t : List (Nat × α)) (n : Nat) (v w : α) : tput (tput t n v) n w = tput t n w := by
  induction t with
  | nil => simp [tput]
  | cons e t ih =>
    obtain ⟨k, x⟩ := e
    by_cases h1 : k = n
    · subst h1; simp [tput]
    · by_cases h2 : n < k
      · simp [tput, h1, h2]
      · simp [tput, h1, h2, ih]

end Sys2Proof.Machine
end

