-- ==== Sys2Proof/Laws/State.lean ====
section
/-! SUPPORT. What an update of one part of the state leaves alone: one lemma for each field and each update. -/

namespace Sys2Proof.Machine

namespace State

variable (s : State) (n : Nat)

/-! ## setGroup and modGroup -/

@[simp] theorem setGroup_blocks (v : Group) : (s.setGroup n v).blocks = s.blocks := rfl
@[simp] theorem setGroup_cohorts (v : Group) : (s.setGroup n v).cohorts = s.cohorts := rfl
@[simp] theorem setGroup_launches (v : Group) : (s.setGroup n v).launches = s.launches := rfl
@[simp] theorem setGroup_graphs (v : Group) : (s.setGroup n v).graphs = s.graphs := rfl
@[simp] theorem setGroup_queues (v : Group) : (s.setGroup n v).queues = s.queues := rfl
@[simp] theorem setGroup_bodies (v : Group) : (s.setGroup n v).bodies = s.bodies := rfl
@[simp] theorem setGroup_ops (v : Group) : (s.setGroup n v).ops = s.ops := rfl
@[simp] theorem setGroup_walks (v : Group) : (s.setGroup n v).walks = s.walks := rfl
@[simp] theorem setGroup_fresh (v : Group) : (s.setGroup n v).fresh = s.fresh := rfl
@[simp] theorem setGroup_cores (v : Group) : (s.setGroup n v).cores = s.cores := rfl
@[simp] theorem setGroup_clusters (v : Group) : (s.setGroup n v).clusters = s.clusters := rfl
@[simp] theorem setGroup_chiplets (v : Group) : (s.setGroup n v).chiplets = s.chiplets := rfl
@[simp] theorem setGroup_mem (v : Group) : (s.setGroup n v).mem = s.mem := rfl
@[simp] theorem setGroup_llc (v : Group) : (s.setGroup n v).llc = s.llc := rfl
@[simp] theorem setGroup_frames (v : Group) : (s.setGroup n v).frames = s.frames := rfl
@[simp] theorem setGroup_sectors (v : Group) : (s.setGroup n v).sectors = s.sectors := rfl
@[simp] theorem setGroup_scrubSince (v : Group) : (s.setGroup n v).scrubSince = s.scrubSince := rfl
@[simp] theorem setGroup_scrubbed (v : Group) : (s.setGroup n v).scrubbed = s.scrubbed := rfl
@[simp] theorem setGroup_translators (v : Group) : (s.setGroup n v).translators = s.translators := rfl
@[simp] theorem setGroup_translated (v : Group) : (s.setGroup n v).translated = s.translated := rfl
@[simp] theorem setGroup_lastQueue (v : Group) : (s.setGroup n v).lastQueue = s.lastQueue := rfl
@[simp] theorem setGroup_hostSectors (v : Group) : (s.setGroup n v).hostSectors = s.hostSectors := rfl
@[simp] theorem setGroup_hostLines (v : Group) : (s.setGroup n v).hostLines = s.hostLines := rfl
@[simp] theorem setGroup_releasers (v : Group) : (s.setGroup n v).releasers = s.releasers := rfl
@[simp] theorem setGroup_llcRetired (v : Group) : (s.setGroup n v).llcRetired = s.llcRetired := rfl
@[simp] theorem setGroup_shown (v : Group) : (s.setGroup n v).shown = s.shown := rfl
@[simp] theorem setGroup_publishing (v : Group) : (s.setGroup n v).publishing = s.publishing := rfl
@[simp] theorem setGroup_retestDue (v : Group) : (s.setGroup n v).retestDue = s.retestDue := rfl
@[simp] theorem setGroup_selfTest (v : Group) : (s.setGroup n v).selfTest = s.selfTest := rfl
@[simp] theorem setGroup_pastGen (v : Group) : (s.setGroup n v).pastGen = s.pastGen := rfl
@[simp] theorem setGroup_hostReply (v : Group) : (s.setGroup n v).hostReply = s.hostReply := rfl
@[simp] theorem setGroup_barReply (v : Group) : (s.setGroup n v).barReply = s.barReply := rfl
@[simp] theorem setGroup_pageMoves (v : Group) : (s.setGroup n v).pageMoves = s.pageMoves := rfl
@[simp] theorem setGroup_catalogue (v : Group) : (s.setGroup n v).catalogue = s.catalogue := rfl
@[simp] theorem setGroup_now (v : Group) : (s.setGroup n v).now = s.now := rfl
@[simp] theorem setGroup_fevThresh (v : Group) : (s.setGroup n v).fevThresh = s.fevThresh := rfl
@[simp] theorem setGroup_trapVec (v : Group) : (s.setGroup n v).trapVec = s.trapVec := rfl
@[simp] theorem setGroup_ctxStore (v : Group) : (s.setGroup n v).ctxStore = s.ctxStore := rfl
@[simp] theorem setGroup_ctxUnits (v : Group) : (s.setGroup n v).ctxUnits = s.ctxUnits := rfl
@[simp] theorem setGroup_thot (v : Group) : (s.setGroup n v).thot = s.thot := rfl
@[simp] theorem setGroup_tcool (v : Group) : (s.setGroup n v).tcool = s.tcool := rfl
@[simp] theorem setGroup_drpLvl (v : Group) : (s.setGroup n v).drpLvl = s.drpLvl := rfl
@[simp] theorem setGroup_drpStretch (v : Group) : (s.setGroup n v).drpStretch = s.drpStretch := rfl
@[simp] theorem setGroup_drpHold (v : Group) : (s.setGroup n v).drpHold = s.drpHold := rfl
@[simp] theorem setGroup_boostCfg (v : Group) : (s.setGroup n v).boostCfg = s.boostCfg := rfl
@[simp] theorem setGroup_bgShare (v : Group) : (s.setGroup n v).bgShare = s.bgShare := rfl
@[simp] theorem setGroup_netWrr (v : Group) : (s.setGroup n v).netWrr = s.netWrr := rfl
@[simp] theorem setGroup_shedCfg (v : Group) : (s.setGroup n v).shedCfg = s.shedCfg := rfl
@[simp] theorem setGroup_qtab (v : Group) : (s.setGroup n v).qtab = s.qtab := rfl
@[simp] theorem setGroup_power (v : Group) : (s.setGroup n v).power = s.power := rfl
@[simp] theorem setGroup_sets (v : Group) : (s.setGroup n v).sets = s.sets := rfl
@[simp] theorem setGroup_liveChannels (v : Group) : (s.setGroup n v).liveChannels = s.liveChannels := rfl
@[simp] theorem setGroup_spares (v : Group) : (s.setGroup n v).spares = s.spares := rfl
@[simp] theorem setGroup_corrected (v : Group) : (s.setGroup n v).corrected = s.corrected := rfl
@[simp] theorem setGroup_correctedTotal (v : Group) : (s.setGroup n v).correctedTotal = s.correctedTotal := rfl
@[simp] theorem setGroup_reported (v : Group) : (s.setGroup n v).reported = s.reported := rfl
@[simp] theorem setGroup_recalibrating (v : Group) : (s.setGroup n v).recalibrating = s.recalibrating := rfl
@[simp] theorem setGroup_recalAt (v : Group) : (s.setGroup n v).recalAt = s.recalAt := rfl
@[simp] theorem setGroup_retirements (v : Group) : (s.setGroup n v).retirements = s.retirements := rfl
@[simp] theorem setGroup_driftUse (v : Group) : (s.setGroup n v).driftUse = s.driftUse := rfl
@[simp] theorem setGroup_bad (v : Group) : (s.setGroup n v).bad = s.bad := rfl
@[simp] theorem setGroup_stations (v : Group) : (s.setGroup n v).stations = s.stations := rfl
@[simp] theorem setGroup_flights (v : Group) : (s.setGroup n v).flights = s.flights := rfl
@[simp] theorem setGroup_nacks (v : Group) : (s.setGroup n v).nacks = s.nacks := rfl
@[simp] theorem setGroup_fabric (v : Group) : (s.setGroup n v).fabric = s.fabric := rfl
@[simp] theorem setGroup_mbAddr (v : Group) : (s.setGroup n v).mbAddr = s.mbAddr := rfl
@[simp] theorem setGroup_mailbox (v : Group) : (s.setGroup n v).mailbox = s.mailbox := rfl
@[simp] theorem setGroup_creating (v : Group) : (s.setGroup n v).creating = s.creating := rfl
@[simp] theorem setGroup_negotiated (v : Group) : (s.setGroup n v).negotiated = s.negotiated := rfl
@[simp] theorem setGroup_features (v : Group) : (s.setGroup n v).features = s.features := rfl
@[simp] theorem setGroup_errRing (v : Group) : (s.setGroup n v).errRing = s.errRing := rfl
@[simp] theorem setGroup_imageA (v : Group) : (s.setGroup n v).imageA = s.imageA := rfl
@[simp] theorem setGroup_imageB (v : Group) : (s.setGroup n v).imageB = s.imageB := rfl
@[simp] theorem setGroup_usesB (v : Group) : (s.setGroup n v).usesB = s.usesB := rfl
@[simp] theorem setGroup_logSlots (v : Group) : (s.setGroup n v).logSlots = s.logSlots := rfl
@[simp] theorem setGroup_logChannels (v : Group) : (s.setGroup n v).logChannels = s.logChannels := rfl
@[simp] theorem setGroup_peers (v : Group) : (s.setGroup n v).peers = s.peers := rfl
@[simp] theorem setGroup_msix (v : Group) : (s.setGroup n v).msix = s.msix := rfl
@[simp] theorem setGroup_pmbus (v : Group) : (s.setGroup n v).pmbus = s.pmbus := rfl
@[simp] theorem setGroup_dead (v : Group) : (s.setGroup n v).dead = s.dead := rfl
@[simp] theorem setGroup_issuing (v : Group) : (s.setGroup n v).issuing = s.issuing := rfl
@[simp] theorem setGroup_agenda (v : Group) : (s.setGroup n v).agenda = s.agenda := rfl
@[simp] theorem setGroup_choice (v : Group) : (s.setGroup n v).choice = s.choice := rfl
@[simp] theorem modGroup_blocks (f : Group → Group) : (s.modGroup n f).blocks = s.blocks := by unfold modGroup; split <;> rfl
@[simp] theorem modGroup_cohorts (f : Group → Group) : (s.modGroup n f).cohorts = s.cohorts := by unfold modGroup; split <;> rfl
@[simp] theorem modGroup_launches (f : Group → Group) : (s.modGroup n f).launches = s.launches := by unfold modGroup; split <;> rfl
@[simp] theorem modGroup_graphs (f : Group → Group) : (s.modGroup n f).graphs = s.graphs := by unfold modGroup; split <;> rfl
@[simp] theorem modGroup_queues (f : Group → Group) : (s.modGroup n f).queues = s.queues := by unfold modGroup; split <;> rfl
@[simp] theorem modGroup_bodies (f : Group → Group) : (s.modGroup n f).bodies = s.bodies := by unfold modGroup; split <;> rfl
@[simp] theorem modGroup_ops (f : Group → Group) : (s.modGroup n f).ops = s.ops := by unfold modGroup; split <;> rfl
@[simp] theorem modGroup_walks (f : Group → Group) : (s.modGroup n f).walks = s.walks := by unfold modGroup; split <;> rfl
@[simp] theorem modGroup_fresh (f : Group → Group) : (s.modGroup n f).fresh = s.fresh := by unfold modGroup; split <;> rfl
@[simp] theorem modGroup_cores (f : Group → Group) : (s.modGroup n f).cores = s.cores := by unfold modGroup; split <;> rfl
@[simp] theorem modGroup_clusters (f : Group → Group) : (s.modGroup n f).clusters = s.clusters := by unfold modGroup; split <;> rfl
@[simp] theorem modGroup_chiplets (f : Group → Group) : (s.modGroup n f).chiplets = s.chiplets := by unfold modGroup; split <;> rfl
@[simp] theorem modGroup_mem (f : Group → Group) : (s.modGroup n f).mem = s.mem := by unfold modGroup; split <;> rfl
@[simp] theorem modGroup_llc (f : Group → Group) : (s.modGroup n f).llc = s.llc := by unfold modGroup; split <;> rfl
@[simp] theorem modGroup_frames (f : Group → Group) : (s.modGroup n f).frames = s.frames := by unfold modGroup; split <;> rfl
@[simp] theorem modGroup_sectors (f : Group → Group) : (s.modGroup n f).sectors = s.sectors := by unfold modGroup; split <;> rfl
@[simp] theorem modGroup_scrubSince (f : Group → Group) : (s.modGroup n f).scrubSince = s.scrubSince := by unfold modGroup; split <;> rfl
@[simp] theorem modGroup_scrubbed (f : Group → Group) : (s.modGroup n f).scrubbed = s.scrubbed := by unfold modGroup; split <;> rfl
@[simp] theorem modGroup_translators (f : Group → Group) : (s.modGroup n f).translators = s.translators := by unfold modGroup; split <;> rfl
@[simp] theorem modGroup_translated (f : Group → Group) : (s.modGroup n f).translated = s.translated := by unfold modGroup; split <;> rfl
@[simp] theorem modGroup_lastQueue (f : Group → Group) : (s.modGroup n f).lastQueue = s.lastQueue := by unfold modGroup; split <;> rfl
@[simp] theorem modGroup_hostSectors (f : Group → Group) : (s.modGroup n f).hostSectors = s.hostSectors := by unfold modGroup; split <;> rfl
@[simp] theorem modGroup_hostLines (f : Group → Group) : (s.modGroup n f).hostLines = s.hostLines := by unfold modGroup; split <;> rfl
@[simp] theorem modGroup_releasers (f : Group → Group) : (s.modGroup n f).releasers = s.releasers := by unfold modGroup; split <;> rfl
@[simp] theorem modGroup_llcRetired (f : Group → Group) : (s.modGroup n f).llcRetired = s.llcRetired := by unfold modGroup; split <;> rfl
@[simp] theorem modGroup_shown (f : Group → Group) : (s.modGroup n f).shown = s.shown := by unfold modGroup; split <;> rfl
@[simp] theorem modGroup_publishing (f : Group → Group) : (s.modGroup n f).publishing = s.publishing := by unfold modGroup; split <;> rfl
@[simp] theorem modGroup_retestDue (f : Group → Group) : (s.modGroup n f).retestDue = s.retestDue := by unfold modGroup; split <;> rfl
@[simp] theorem modGroup_selfTest (f : Group → Group) : (s.modGroup n f).selfTest = s.selfTest := by unfold modGroup; split <;> rfl
@[simp] theorem modGroup_pastGen (f : Group → Group) : (s.modGroup n f).pastGen = s.pastGen := by unfold modGroup; split <;> rfl
@[simp] theorem modGroup_hostReply (f : Group → Group) : (s.modGroup n f).hostReply = s.hostReply := by unfold modGroup; split <;> rfl
@[simp] theorem modGroup_barReply (f : Group → Group) : (s.modGroup n f).barReply = s.barReply := by unfold modGroup; split <;> rfl
@[simp] theorem modGroup_pageMoves (f : Group → Group) : (s.modGroup n f).pageMoves = s.pageMoves := by unfold modGroup; split <;> rfl
@[simp] theorem modGroup_catalogue (f : Group → Group) : (s.modGroup n f).catalogue = s.catalogue := by unfold modGroup; split <;> rfl
@[simp] theorem modGroup_now (f : Group → Group) : (s.modGroup n f).now = s.now := by unfold modGroup; split <;> rfl
@[simp] theorem modGroup_fevThresh (f : Group → Group) : (s.modGroup n f).fevThresh = s.fevThresh := by unfold modGroup; split <;> rfl
@[simp] theorem modGroup_trapVec (f : Group → Group) : (s.modGroup n f).trapVec = s.trapVec := by unfold modGroup; split <;> rfl
@[simp] theorem modGroup_ctxStore (f : Group → Group) : (s.modGroup n f).ctxStore = s.ctxStore := by unfold modGroup; split <;> rfl
@[simp] theorem modGroup_ctxUnits (f : Group → Group) : (s.modGroup n f).ctxUnits = s.ctxUnits := by unfold modGroup; split <;> rfl
@[simp] theorem modGroup_thot (f : Group → Group) : (s.modGroup n f).thot = s.thot := by unfold modGroup; split <;> rfl
@[simp] theorem modGroup_tcool (f : Group → Group) : (s.modGroup n f).tcool = s.tcool := by unfold modGroup; split <;> rfl
@[simp] theorem modGroup_drpLvl (f : Group → Group) : (s.modGroup n f).drpLvl = s.drpLvl := by unfold modGroup; split <;> rfl
@[simp] theorem modGroup_drpStretch (f : Group → Group) : (s.modGroup n f).drpStretch = s.drpStretch := by unfold modGroup; split <;> rfl
@[simp] theorem modGroup_drpHold (f : Group → Group) : (s.modGroup n f).drpHold = s.drpHold := by unfold modGroup; split <;> rfl
@[simp] theorem modGroup_boostCfg (f : Group → Group) : (s.modGroup n f).boostCfg = s.boostCfg := by unfold modGroup; split <;> rfl
@[simp] theorem modGroup_bgShare (f : Group → Group) : (s.modGroup n f).bgShare = s.bgShare := by unfold modGroup; split <;> rfl
@[simp] theorem modGroup_netWrr (f : Group → Group) : (s.modGroup n f).netWrr = s.netWrr := by unfold modGroup; split <;> rfl
@[simp] theorem modGroup_shedCfg (f : Group → Group) : (s.modGroup n f).shedCfg = s.shedCfg := by unfold modGroup; split <;> rfl
@[simp] theorem modGroup_qtab (f : Group → Group) : (s.modGroup n f).qtab = s.qtab := by unfold modGroup; split <;> rfl
@[simp] theorem modGroup_power (f : Group → Group) : (s.modGroup n f).power = s.power := by unfold modGroup; split <;> rfl
@[simp] theorem modGroup_sets (f : Group → Group) : (s.modGroup n f).sets = s.sets := by unfold modGroup; split <;> rfl
@[simp] theorem modGroup_liveChannels (f : Group → Group) : (s.modGroup n f).liveChannels = s.liveChannels := by unfold modGroup; split <;> rfl
@[simp] theorem modGroup_spares (f : Group → Group) : (s.modGroup n f).spares = s.spares := by unfold modGroup; split <;> rfl
@[simp] theorem modGroup_corrected (f : Group → Group) : (s.modGroup n f).corrected = s.corrected := by unfold modGroup; split <;> rfl
@[simp] theorem modGroup_correctedTotal (f : Group → Group) : (s.modGroup n f).correctedTotal = s.correctedTotal := by unfold modGroup; split <;> rfl
@[simp] theorem modGroup_reported (f : Group → Group) : (s.modGroup n f).reported = s.reported := by unfold modGroup; split <;> rfl
@[simp] theorem modGroup_recalibrating (f : Group → Group) : (s.modGroup n f).recalibrating = s.recalibrating := by unfold modGroup; split <;> rfl
@[simp] theorem modGroup_recalAt (f : Group → Group) : (s.modGroup n f).recalAt = s.recalAt := by unfold modGroup; split <;> rfl
@[simp] theorem modGroup_retirements (f : Group → Group) : (s.modGroup n f).retirements = s.retirements := by unfold modGroup; split <;> rfl
@[simp] theorem modGroup_driftUse (f : Group → Group) : (s.modGroup n f).driftUse = s.driftUse := by unfold modGroup; split <;> rfl
@[simp] theorem modGroup_bad (f : Group → Group) : (s.modGroup n f).bad = s.bad := by unfold modGroup; split <;> rfl
@[simp] theorem modGroup_stations (f : Group → Group) : (s.modGroup n f).stations = s.stations := by unfold modGroup; split <;> rfl
@[simp] theorem modGroup_flights (f : Group → Group) : (s.modGroup n f).flights = s.flights := by unfold modGroup; split <;> rfl
@[simp] theorem modGroup_nacks (f : Group → Group) : (s.modGroup n f).nacks = s.nacks := by unfold modGroup; split <;> rfl
@[simp] theorem modGroup_fabric (f : Group → Group) : (s.modGroup n f).fabric = s.fabric := by unfold modGroup; split <;> rfl
@[simp] theorem modGroup_mbAddr (f : Group → Group) : (s.modGroup n f).mbAddr = s.mbAddr := by unfold modGroup; split <;> rfl
@[simp] theorem modGroup_mailbox (f : Group → Group) : (s.modGroup n f).mailbox = s.mailbox := by unfold modGroup; split <;> rfl
@[simp] theorem modGroup_creating (f : Group → Group) : (s.modGroup n f).creating = s.creating := by unfold modGroup; split <;> rfl
@[simp] theorem modGroup_negotiated (f : Group → Group) : (s.modGroup n f).negotiated = s.negotiated := by unfold modGroup; split <;> rfl
@[simp] theorem modGroup_features (f : Group → Group) : (s.modGroup n f).features = s.features := by unfold modGroup; split <;> rfl
@[simp] theorem modGroup_errRing (f : Group → Group) : (s.modGroup n f).errRing = s.errRing := by unfold modGroup; split <;> rfl
@[simp] theorem modGroup_imageA (f : Group → Group) : (s.modGroup n f).imageA = s.imageA := by unfold modGroup; split <;> rfl
@[simp] theorem modGroup_imageB (f : Group → Group) : (s.modGroup n f).imageB = s.imageB := by unfold modGroup; split <;> rfl
@[simp] theorem modGroup_usesB (f : Group → Group) : (s.modGroup n f).usesB = s.usesB := by unfold modGroup; split <;> rfl
@[simp] theorem modGroup_logSlots (f : Group → Group) : (s.modGroup n f).logSlots = s.logSlots := by unfold modGroup; split <;> rfl
@[simp] theorem modGroup_logChannels (f : Group → Group) : (s.modGroup n f).logChannels = s.logChannels := by unfold modGroup; split <;> rfl
@[simp] theorem modGroup_peers (f : Group → Group) : (s.modGroup n f).peers = s.peers := by unfold modGroup; split <;> rfl
@[simp] theorem modGroup_msix (f : Group → Group) : (s.modGroup n f).msix = s.msix := by unfold modGroup; split <;> rfl
@[simp] theorem modGroup_pmbus (f : Group → Group) : (s.modGroup n f).pmbus = s.pmbus := by unfold modGroup; split <;> rfl
@[simp] theorem modGroup_dead (f : Group → Group) : (s.modGroup n f).dead = s.dead := by unfold modGroup; split <;> rfl
@[simp] theorem modGroup_issuing (f : Group → Group) : (s.modGroup n f).issuing = s.issuing := by unfold modGroup; split <;> rfl
@[simp] theorem modGroup_agenda (f : Group → Group) : (s.modGroup n f).agenda = s.agenda := by unfold modGroup; split <;> rfl
@[simp] theorem modGroup_choice (f : Group → Group) : (s.modGroup n f).choice = s.choice := by unfold modGroup; split <;> rfl

/-! ## setBlock and modBlock -/

@[simp] theorem setBlock_groups (v : Block) : (s.setBlock n v).groups = s.groups := rfl
@[simp] theorem setBlock_cohorts (v : Block) : (s.setBlock n v).cohorts = s.cohorts := rfl
@[simp] theorem setBlock_launches (v : Block) : (s.setBlock n v).launches = s.launches := rfl
@[simp] theorem setBlock_graphs (v : Block) : (s.setBlock n v).graphs = s.graphs := rfl
@[simp] theorem setBlock_queues (v : Block) : (s.setBlock n v).queues = s.queues := rfl
@[simp] theorem setBlock_bodies (v : Block) : (s.setBlock n v).bodies = s.bodies := rfl
@[simp] theorem setBlock_ops (v : Block) : (s.setBlock n v).ops = s.ops := rfl
@[simp] theorem setBlock_walks (v : Block) : (s.setBlock n v).walks = s.walks := rfl
@[simp] theorem setBlock_fresh (v : Block) : (s.setBlock n v).fresh = s.fresh := rfl
@[simp] theorem setBlock_cores (v : Block) : (s.setBlock n v).cores = s.cores := rfl
@[simp] theorem setBlock_clusters (v : Block) : (s.setBlock n v).clusters = s.clusters := rfl
@[simp] theorem setBlock_chiplets (v : Block) : (s.setBlock n v).chiplets = s.chiplets := rfl
@[simp] theorem setBlock_mem (v : Block) : (s.setBlock n v).mem = s.mem := rfl
@[simp] theorem setBlock_llc (v : Block) : (s.setBlock n v).llc = s.llc := rfl
@[simp] theorem setBlock_frames (v : Block) : (s.setBlock n v).frames = s.frames := rfl
@[simp] theorem setBlock_sectors (v : Block) : (s.setBlock n v).sectors = s.sectors := rfl
@[simp] theorem setBlock_scrubSince (v : Block) : (s.setBlock n v).scrubSince = s.scrubSince := rfl
@[simp] theorem setBlock_scrubbed (v : Block) : (s.setBlock n v).scrubbed = s.scrubbed := rfl
@[simp] theorem setBlock_translators (v : Block) : (s.setBlock n v).translators = s.translators := rfl
@[simp] theorem setBlock_translated (v : Block) : (s.setBlock n v).translated = s.translated := rfl
@[simp] theorem setBlock_lastQueue (v : Block) : (s.setBlock n v).lastQueue = s.lastQueue := rfl
@[simp] theorem setBlock_hostSectors (v : Block) : (s.setBlock n v).hostSectors = s.hostSectors := rfl
@[simp] theorem setBlock_hostLines (v : Block) : (s.setBlock n v).hostLines = s.hostLines := rfl
@[simp] theorem setBlock_releasers (v : Block) : (s.setBlock n v).releasers = s.releasers := rfl
@[simp] theorem setBlock_llcRetired (v : Block) : (s.setBlock n v).llcRetired = s.llcRetired := rfl
@[simp] theorem setBlock_shown (v : Block) : (s.setBlock n v).shown = s.shown := rfl
@[simp] theorem setBlock_publishing (v : Block) : (s.setBlock n v).publishing = s.publishing := rfl
@[simp] theorem setBlock_retestDue (v : Block) : (s.setBlock n v).retestDue = s.retestDue := rfl
@[simp] theorem setBlock_selfTest (v : Block) : (s.setBlock n v).selfTest = s.selfTest := rfl
@[simp] theorem setBlock_pastGen (v : Block) : (s.setBlock n v).pastGen = s.pastGen := rfl
@[simp] theorem setBlock_hostReply (v : Block) : (s.setBlock n v).hostReply = s.hostReply := rfl
@[simp] theorem setBlock_barReply (v : Block) : (s.setBlock n v).barReply = s.barReply := rfl
@[simp] theorem setBlock_pageMoves (v : Block) : (s.setBlock n v).pageMoves = s.pageMoves := rfl
@[simp] theorem setBlock_catalogue (v : Block) : (s.setBlock n v).catalogue = s.catalogue := rfl
@[simp] theorem setBlock_now (v : Block) : (s.setBlock n v).now = s.now := rfl
@[simp] theorem setBlock_fevThresh (v : Block) : (s.setBlock n v).fevThresh = s.fevThresh := rfl
@[simp] theorem setBlock_trapVec (v : Block) : (s.setBlock n v).trapVec = s.trapVec := rfl
@[simp] theorem setBlock_ctxStore (v : Block) : (s.setBlock n v).ctxStore = s.ctxStore := rfl
@[simp] theorem setBlock_ctxUnits (v : Block) : (s.setBlock n v).ctxUnits = s.ctxUnits := rfl
@[simp] theorem setBlock_thot (v : Block) : (s.setBlock n v).thot = s.thot := rfl
@[simp] theorem setBlock_tcool (v : Block) : (s.setBlock n v).tcool = s.tcool := rfl
@[simp] theorem setBlock_drpLvl (v : Block) : (s.setBlock n v).drpLvl = s.drpLvl := rfl
@[simp] theorem setBlock_drpStretch (v : Block) : (s.setBlock n v).drpStretch = s.drpStretch := rfl
@[simp] theorem setBlock_drpHold (v : Block) : (s.setBlock n v).drpHold = s.drpHold := rfl
@[simp] theorem setBlock_boostCfg (v : Block) : (s.setBlock n v).boostCfg = s.boostCfg := rfl
@[simp] theorem setBlock_bgShare (v : Block) : (s.setBlock n v).bgShare = s.bgShare := rfl
@[simp] theorem setBlock_netWrr (v : Block) : (s.setBlock n v).netWrr = s.netWrr := rfl
@[simp] theorem setBlock_shedCfg (v : Block) : (s.setBlock n v).shedCfg = s.shedCfg := rfl
@[simp] theorem setBlock_qtab (v : Block) : (s.setBlock n v).qtab = s.qtab := rfl
@[simp] theorem setBlock_power (v : Block) : (s.setBlock n v).power = s.power := rfl
@[simp] theorem setBlock_sets (v : Block) : (s.setBlock n v).sets = s.sets := rfl
@[simp] theorem setBlock_liveChannels (v : Block) : (s.setBlock n v).liveChannels = s.liveChannels := rfl
@[simp] theorem setBlock_spares (v : Block) : (s.setBlock n v).spares = s.spares := rfl
@[simp] theorem setBlock_corrected (v : Block) : (s.setBlock n v).corrected = s.corrected := rfl
@[simp] theorem setBlock_correctedTotal (v : Block) : (s.setBlock n v).correctedTotal = s.correctedTotal := rfl
@[simp] theorem setBlock_reported (v : Block) : (s.setBlock n v).reported = s.reported := rfl
@[simp] theorem setBlock_recalibrating (v : Block) : (s.setBlock n v).recalibrating = s.recalibrating := rfl
@[simp] theorem setBlock_recalAt (v : Block) : (s.setBlock n v).recalAt = s.recalAt := rfl
@[simp] theorem setBlock_retirements (v : Block) : (s.setBlock n v).retirements = s.retirements := rfl
@[simp] theorem setBlock_driftUse (v : Block) : (s.setBlock n v).driftUse = s.driftUse := rfl
@[simp] theorem setBlock_bad (v : Block) : (s.setBlock n v).bad = s.bad := rfl
@[simp] theorem setBlock_stations (v : Block) : (s.setBlock n v).stations = s.stations := rfl
@[simp] theorem setBlock_flights (v : Block) : (s.setBlock n v).flights = s.flights := rfl
@[simp] theorem setBlock_nacks (v : Block) : (s.setBlock n v).nacks = s.nacks := rfl
@[simp] theorem setBlock_fabric (v : Block) : (s.setBlock n v).fabric = s.fabric := rfl
@[simp] theorem setBlock_mbAddr (v : Block) : (s.setBlock n v).mbAddr = s.mbAddr := rfl
@[simp] theorem setBlock_mailbox (v : Block) : (s.setBlock n v).mailbox = s.mailbox := rfl
@[simp] theorem setBlock_creating (v : Block) : (s.setBlock n v).creating = s.creating := rfl
@[simp] theorem setBlock_negotiated (v : Block) : (s.setBlock n v).negotiated = s.negotiated := rfl
@[simp] theorem setBlock_features (v : Block) : (s.setBlock n v).features = s.features := rfl
@[simp] theorem setBlock_errRing (v : Block) : (s.setBlock n v).errRing = s.errRing := rfl
@[simp] theorem setBlock_imageA (v : Block) : (s.setBlock n v).imageA = s.imageA := rfl
@[simp] theorem setBlock_imageB (v : Block) : (s.setBlock n v).imageB = s.imageB := rfl
@[simp] theorem setBlock_usesB (v : Block) : (s.setBlock n v).usesB = s.usesB := rfl
@[simp] theorem setBlock_logSlots (v : Block) : (s.setBlock n v).logSlots = s.logSlots := rfl
@[simp] theorem setBlock_logChannels (v : Block) : (s.setBlock n v).logChannels = s.logChannels := rfl
@[simp] theorem setBlock_peers (v : Block) : (s.setBlock n v).peers = s.peers := rfl
@[simp] theorem setBlock_msix (v : Block) : (s.setBlock n v).msix = s.msix := rfl
@[simp] theorem setBlock_pmbus (v : Block) : (s.setBlock n v).pmbus = s.pmbus := rfl
@[simp] theorem setBlock_dead (v : Block) : (s.setBlock n v).dead = s.dead := rfl
@[simp] theorem setBlock_issuing (v : Block) : (s.setBlock n v).issuing = s.issuing := rfl
@[simp] theorem setBlock_agenda (v : Block) : (s.setBlock n v).agenda = s.agenda := rfl
@[simp] theorem setBlock_choice (v : Block) : (s.setBlock n v).choice = s.choice := rfl
@[simp] theorem modBlock_groups (f : Block → Block) : (s.modBlock n f).groups = s.groups := by unfold modBlock; split <;> rfl
@[simp] theorem modBlock_cohorts (f : Block → Block) : (s.modBlock n f).cohorts = s.cohorts := by unfold modBlock; split <;> rfl
@[simp] theorem modBlock_launches (f : Block → Block) : (s.modBlock n f).launches = s.launches := by unfold modBlock; split <;> rfl
@[simp] theorem modBlock_graphs (f : Block → Block) : (s.modBlock n f).graphs = s.graphs := by unfold modBlock; split <;> rfl
@[simp] theorem modBlock_queues (f : Block → Block) : (s.modBlock n f).queues = s.queues := by unfold modBlock; split <;> rfl
@[simp] theorem modBlock_bodies (f : Block → Block) : (s.modBlock n f).bodies = s.bodies := by unfold modBlock; split <;> rfl
@[simp] theorem modBlock_ops (f : Block → Block) : (s.modBlock n f).ops = s.ops := by unfold modBlock; split <;> rfl
@[simp] theorem modBlock_walks (f : Block → Block) : (s.modBlock n f).walks = s.walks := by unfold modBlock; split <;> rfl
@[simp] theorem modBlock_fresh (f : Block → Block) : (s.modBlock n f).fresh = s.fresh := by unfold modBlock; split <;> rfl
@[simp] theorem modBlock_cores (f : Block → Block) : (s.modBlock n f).cores = s.cores := by unfold modBlock; split <;> rfl
@[simp] theorem modBlock_clusters (f : Block → Block) : (s.modBlock n f).clusters = s.clusters := by unfold modBlock; split <;> rfl
@[simp] theorem modBlock_chiplets (f : Block → Block) : (s.modBlock n f).chiplets = s.chiplets := by unfold modBlock; split <;> rfl
@[simp] theorem modBlock_mem (f : Block → Block) : (s.modBlock n f).mem = s.mem := by unfold modBlock; split <;> rfl
@[simp] theorem modBlock_llc (f : Block → Block) : (s.modBlock n f).llc = s.llc := by unfold modBlock; split <;> rfl
@[simp] theorem modBlock_frames (f : Block → Block) : (s.modBlock n f).frames = s.frames := by unfold modBlock; split <;> rfl
@[simp] theorem modBlock_sectors (f : Block → Block) : (s.modBlock n f).sectors = s.sectors := by unfold modBlock; split <;> rfl
@[simp] theorem modBlock_scrubSince (f : Block → Block) : (s.modBlock n f).scrubSince = s.scrubSince := by unfold modBlock; split <;> rfl
@[simp] theorem modBlock_scrubbed (f : Block → Block) : (s.modBlock n f).scrubbed = s.scrubbed := by unfold modBlock; split <;> rfl
@[simp] theorem modBlock_translators (f : Block → Block) : (s.modBlock n f).translators = s.translators := by unfold modBlock; split <;> rfl
@[simp] theorem modBlock_translated (f : Block → Block) : (s.modBlock n f).translated = s.translated := by unfold modBlock; split <;> rfl
@[simp] theorem modBlock_lastQueue (f : Block → Block) : (s.modBlock n f).lastQueue = s.lastQueue := by unfold modBlock; split <;> rfl
@[simp] theorem modBlock_hostSectors (f : Block → Block) : (s.modBlock n f).hostSectors = s.hostSectors := by unfold modBlock; split <;> rfl
@[simp] theorem modBlock_hostLines (f : Block → Block) : (s.modBlock n f).hostLines = s.hostLines := by unfold modBlock; split <;> rfl
@[simp] theorem modBlock_releasers (f : Block → Block) : (s.modBlock n f).releasers = s.releasers := by unfold modBlock; split <;> rfl
@[simp] theorem modBlock_llcRetired (f : Block → Block) : (s.modBlock n f).llcRetired = s.llcRetired := by unfold modBlock; split <;> rfl
@[simp] theorem modBlock_shown (f : Block → Block) : (s.modBlock n f).shown = s.shown := by unfold modBlock; split <;> rfl
@[simp] theorem modBlock_publishing (f : Block → Block) : (s.modBlock n f).publishing = s.publishing := by unfold modBlock; split <;> rfl
@[simp] theorem modBlock_retestDue (f : Block → Block) : (s.modBlock n f).retestDue = s.retestDue := by unfold modBlock; split <;> rfl
@[simp] theorem modBlock_selfTest (f : Block → Block) : (s.modBlock n f).selfTest = s.selfTest := by unfold modBlock; split <;> rfl
@[simp] theorem modBlock_pastGen (f : Block → Block) : (s.modBlock n f).pastGen = s.pastGen := by unfold modBlock; split <;> rfl
@[simp] theorem modBlock_hostReply (f : Block → Block) : (s.modBlock n f).hostReply = s.hostReply := by unfold modBlock; split <;> rfl
@[simp] theorem modBlock_barReply (f : Block → Block) : (s.modBlock n f).barReply = s.barReply := by unfold modBlock; split <;> rfl
@[simp] theorem modBlock_pageMoves (f : Block → Block) : (s.modBlock n f).pageMoves = s.pageMoves := by unfold modBlock; split <;> rfl
@[simp] theorem modBlock_catalogue (f : Block → Block) : (s.modBlock n f).catalogue = s.catalogue := by unfold modBlock; split <;> rfl
@[simp] theorem modBlock_now (f : Block → Block) : (s.modBlock n f).now = s.now := by unfold modBlock; split <;> rfl
@[simp] theorem modBlock_fevThresh (f : Block → Block) : (s.modBlock n f).fevThresh = s.fevThresh := by unfold modBlock; split <;> rfl
@[simp] theorem modBlock_trapVec (f : Block → Block) : (s.modBlock n f).trapVec = s.trapVec := by unfold modBlock; split <;> rfl
@[simp] theorem modBlock_ctxStore (f : Block → Block) : (s.modBlock n f).ctxStore = s.ctxStore := by unfold modBlock; split <;> rfl
@[simp] theorem modBlock_ctxUnits (f : Block → Block) : (s.modBlock n f).ctxUnits = s.ctxUnits := by unfold modBlock; split <;> rfl
@[simp] theorem modBlock_thot (f : Block → Block) : (s.modBlock n f).thot = s.thot := by unfold modBlock; split <;> rfl
@[simp] theorem modBlock_tcool (f : Block → Block) : (s.modBlock n f).tcool = s.tcool := by unfold modBlock; split <;> rfl
@[simp] theorem modBlock_drpLvl (f : Block → Block) : (s.modBlock n f).drpLvl = s.drpLvl := by unfold modBlock; split <;> rfl
@[simp] theorem modBlock_drpStretch (f : Block → Block) : (s.modBlock n f).drpStretch = s.drpStretch := by unfold modBlock; split <;> rfl
@[simp] theorem modBlock_drpHold (f : Block → Block) : (s.modBlock n f).drpHold = s.drpHold := by unfold modBlock; split <;> rfl
@[simp] theorem modBlock_boostCfg (f : Block → Block) : (s.modBlock n f).boostCfg = s.boostCfg := by unfold modBlock; split <;> rfl
@[simp] theorem modBlock_bgShare (f : Block → Block) : (s.modBlock n f).bgShare = s.bgShare := by unfold modBlock; split <;> rfl
@[simp] theorem modBlock_netWrr (f : Block → Block) : (s.modBlock n f).netWrr = s.netWrr := by unfold modBlock; split <;> rfl
@[simp] theorem modBlock_shedCfg (f : Block → Block) : (s.modBlock n f).shedCfg = s.shedCfg := by unfold modBlock; split <;> rfl
@[simp] theorem modBlock_qtab (f : Block → Block) : (s.modBlock n f).qtab = s.qtab := by unfold modBlock; split <;> rfl
@[simp] theorem modBlock_power (f : Block → Block) : (s.modBlock n f).power = s.power := by unfold modBlock; split <;> rfl
@[simp] theorem modBlock_sets (f : Block → Block) : (s.modBlock n f).sets = s.sets := by unfold modBlock; split <;> rfl
@[simp] theorem modBlock_liveChannels (f : Block → Block) : (s.modBlock n f).liveChannels = s.liveChannels := by unfold modBlock; split <;> rfl
@[simp] theorem modBlock_spares (f : Block → Block) : (s.modBlock n f).spares = s.spares := by unfold modBlock; split <;> rfl
@[simp] theorem modBlock_corrected (f : Block → Block) : (s.modBlock n f).corrected = s.corrected := by unfold modBlock; split <;> rfl
@[simp] theorem modBlock_correctedTotal (f : Block → Block) : (s.modBlock n f).correctedTotal = s.correctedTotal := by unfold modBlock; split <;> rfl
@[simp] theorem modBlock_reported (f : Block → Block) : (s.modBlock n f).reported = s.reported := by unfold modBlock; split <;> rfl
@[simp] theorem modBlock_recalibrating (f : Block → Block) : (s.modBlock n f).recalibrating = s.recalibrating := by unfold modBlock; split <;> rfl
@[simp] theorem modBlock_recalAt (f : Block → Block) : (s.modBlock n f).recalAt = s.recalAt := by unfold modBlock; split <;> rfl
@[simp] theorem modBlock_retirements (f : Block → Block) : (s.modBlock n f).retirements = s.retirements := by unfold modBlock; split <;> rfl
@[simp] theorem modBlock_driftUse (f : Block → Block) : (s.modBlock n f).driftUse = s.driftUse := by unfold modBlock; split <;> rfl
@[simp] theorem modBlock_bad (f : Block → Block) : (s.modBlock n f).bad = s.bad := by unfold modBlock; split <;> rfl
@[simp] theorem modBlock_stations (f : Block → Block) : (s.modBlock n f).stations = s.stations := by unfold modBlock; split <;> rfl
@[simp] theorem modBlock_flights (f : Block → Block) : (s.modBlock n f).flights = s.flights := by unfold modBlock; split <;> rfl
@[simp] theorem modBlock_nacks (f : Block → Block) : (s.modBlock n f).nacks = s.nacks := by unfold modBlock; split <;> rfl
@[simp] theorem modBlock_fabric (f : Block → Block) : (s.modBlock n f).fabric = s.fabric := by unfold modBlock; split <;> rfl
@[simp] theorem modBlock_mbAddr (f : Block → Block) : (s.modBlock n f).mbAddr = s.mbAddr := by unfold modBlock; split <;> rfl
@[simp] theorem modBlock_mailbox (f : Block → Block) : (s.modBlock n f).mailbox = s.mailbox := by unfold modBlock; split <;> rfl
@[simp] theorem modBlock_creating (f : Block → Block) : (s.modBlock n f).creating = s.creating := by unfold modBlock; split <;> rfl
@[simp] theorem modBlock_negotiated (f : Block → Block) : (s.modBlock n f).negotiated = s.negotiated := by unfold modBlock; split <;> rfl
@[simp] theorem modBlock_features (f : Block → Block) : (s.modBlock n f).features = s.features := by unfold modBlock; split <;> rfl
@[simp] theorem modBlock_errRing (f : Block → Block) : (s.modBlock n f).errRing = s.errRing := by unfold modBlock; split <;> rfl
@[simp] theorem modBlock_imageA (f : Block → Block) : (s.modBlock n f).imageA = s.imageA := by unfold modBlock; split <;> rfl
@[simp] theorem modBlock_imageB (f : Block → Block) : (s.modBlock n f).imageB = s.imageB := by unfold modBlock; split <;> rfl
@[simp] theorem modBlock_usesB (f : Block → Block) : (s.modBlock n f).usesB = s.usesB := by unfold modBlock; split <;> rfl
@[simp] theorem modBlock_logSlots (f : Block → Block) : (s.modBlock n f).logSlots = s.logSlots := by unfold modBlock; split <;> rfl
@[simp] theorem modBlock_logChannels (f : Block → Block) : (s.modBlock n f).logChannels = s.logChannels := by unfold modBlock; split <;> rfl
@[simp] theorem modBlock_peers (f : Block → Block) : (s.modBlock n f).peers = s.peers := by unfold modBlock; split <;> rfl
@[simp] theorem modBlock_msix (f : Block → Block) : (s.modBlock n f).msix = s.msix := by unfold modBlock; split <;> rfl
@[simp] theorem modBlock_pmbus (f : Block → Block) : (s.modBlock n f).pmbus = s.pmbus := by unfold modBlock; split <;> rfl
@[simp] theorem modBlock_dead (f : Block → Block) : (s.modBlock n f).dead = s.dead := by unfold modBlock; split <;> rfl
@[simp] theorem modBlock_issuing (f : Block → Block) : (s.modBlock n f).issuing = s.issuing := by unfold modBlock; split <;> rfl
@[simp] theorem modBlock_agenda (f : Block → Block) : (s.modBlock n f).agenda = s.agenda := by unfold modBlock; split <;> rfl
@[simp] theorem modBlock_choice (f : Block → Block) : (s.modBlock n f).choice = s.choice := by unfold modBlock; split <;> rfl

/-! ## setCohort and modCohort -/

@[simp] theorem setCohort_groups (v : Cohort) : (s.setCohort n v).groups = s.groups := rfl
@[simp] theorem setCohort_blocks (v : Cohort) : (s.setCohort n v).blocks = s.blocks := rfl
@[simp] theorem setCohort_launches (v : Cohort) : (s.setCohort n v).launches = s.launches := rfl
@[simp] theorem setCohort_graphs (v : Cohort) : (s.setCohort n v).graphs = s.graphs := rfl
@[simp] theorem setCohort_queues (v : Cohort) : (s.setCohort n v).queues = s.queues := rfl
@[simp] theorem setCohort_bodies (v : Cohort) : (s.setCohort n v).bodies = s.bodies := rfl
@[simp] theorem setCohort_ops (v : Cohort) : (s.setCohort n v).ops = s.ops := rfl
@[simp] theorem setCohort_walks (v : Cohort) : (s.setCohort n v).walks = s.walks := rfl
@[simp] theorem setCohort_fresh (v : Cohort) : (s.setCohort n v).fresh = s.fresh := rfl
@[simp] theorem setCohort_cores (v : Cohort) : (s.setCohort n v).cores = s.cores := rfl
@[simp] theorem setCohort_clusters (v : Cohort) : (s.setCohort n v).clusters = s.clusters := rfl
@[simp] theorem setCohort_chiplets (v : Cohort) : (s.setCohort n v).chiplets = s.chiplets := rfl
@[simp] theorem setCohort_mem (v : Cohort) : (s.setCohort n v).mem = s.mem := rfl
@[simp] theorem setCohort_llc (v : Cohort) : (s.setCohort n v).llc = s.llc := rfl
@[simp] theorem setCohort_frames (v : Cohort) : (s.setCohort n v).frames = s.frames := rfl
@[simp] theorem setCohort_sectors (v : Cohort) : (s.setCohort n v).sectors = s.sectors := rfl
@[simp] theorem setCohort_scrubSince (v : Cohort) : (s.setCohort n v).scrubSince = s.scrubSince := rfl
@[simp] theorem setCohort_scrubbed (v : Cohort) : (s.setCohort n v).scrubbed = s.scrubbed := rfl
@[simp] theorem setCohort_translators (v : Cohort) : (s.setCohort n v).translators = s.translators := rfl
@[simp] theorem setCohort_translated (v : Cohort) : (s.setCohort n v).translated = s.translated := rfl
@[simp] theorem setCohort_lastQueue (v : Cohort) : (s.setCohort n v).lastQueue = s.lastQueue := rfl
@[simp] theorem setCohort_hostSectors (v : Cohort) : (s.setCohort n v).hostSectors = s.hostSectors := rfl
@[simp] theorem setCohort_hostLines (v : Cohort) : (s.setCohort n v).hostLines = s.hostLines := rfl
@[simp] theorem setCohort_releasers (v : Cohort) : (s.setCohort n v).releasers = s.releasers := rfl
@[simp] theorem setCohort_llcRetired (v : Cohort) : (s.setCohort n v).llcRetired = s.llcRetired := rfl
@[simp] theorem setCohort_shown (v : Cohort) : (s.setCohort n v).shown = s.shown := rfl
@[simp] theorem setCohort_publishing (v : Cohort) : (s.setCohort n v).publishing = s.publishing := rfl
@[simp] theorem setCohort_retestDue (v : Cohort) : (s.setCohort n v).retestDue = s.retestDue := rfl
@[simp] theorem setCohort_selfTest (v : Cohort) : (s.setCohort n v).selfTest = s.selfTest := rfl
@[simp] theorem setCohort_pastGen (v : Cohort) : (s.setCohort n v).pastGen = s.pastGen := rfl
@[simp] theorem setCohort_hostReply (v : Cohort) : (s.setCohort n v).hostReply = s.hostReply := rfl
@[simp] theorem setCohort_barReply (v : Cohort) : (s.setCohort n v).barReply = s.barReply := rfl
@[simp] theorem setCohort_pageMoves (v : Cohort) : (s.setCohort n v).pageMoves = s.pageMoves := rfl
@[simp] theorem setCohort_catalogue (v : Cohort) : (s.setCohort n v).catalogue = s.catalogue := rfl
@[simp] theorem setCohort_now (v : Cohort) : (s.setCohort n v).now = s.now := rfl
@[simp] theorem setCohort_fevThresh (v : Cohort) : (s.setCohort n v).fevThresh = s.fevThresh := rfl
@[simp] theorem setCohort_trapVec (v : Cohort) : (s.setCohort n v).trapVec = s.trapVec := rfl
@[simp] theorem setCohort_ctxStore (v : Cohort) : (s.setCohort n v).ctxStore = s.ctxStore := rfl
@[simp] theorem setCohort_ctxUnits (v : Cohort) : (s.setCohort n v).ctxUnits = s.ctxUnits := rfl
@[simp] theorem setCohort_thot (v : Cohort) : (s.setCohort n v).thot = s.thot := rfl
@[simp] theorem setCohort_tcool (v : Cohort) : (s.setCohort n v).tcool = s.tcool := rfl
@[simp] theorem setCohort_drpLvl (v : Cohort) : (s.setCohort n v).drpLvl = s.drpLvl := rfl
@[simp] theorem setCohort_drpStretch (v : Cohort) : (s.setCohort n v).drpStretch = s.drpStretch := rfl
@[simp] theorem setCohort_drpHold (v : Cohort) : (s.setCohort n v).drpHold = s.drpHold := rfl
@[simp] theorem setCohort_boostCfg (v : Cohort) : (s.setCohort n v).boostCfg = s.boostCfg := rfl
@[simp] theorem setCohort_bgShare (v : Cohort) : (s.setCohort n v).bgShare = s.bgShare := rfl
@[simp] theorem setCohort_netWrr (v : Cohort) : (s.setCohort n v).netWrr = s.netWrr := rfl
@[simp] theorem setCohort_shedCfg (v : Cohort) : (s.setCohort n v).shedCfg = s.shedCfg := rfl
@[simp] theorem setCohort_qtab (v : Cohort) : (s.setCohort n v).qtab = s.qtab := rfl
@[simp] theorem setCohort_power (v : Cohort) : (s.setCohort n v).power = s.power := rfl
@[simp] theorem setCohort_sets (v : Cohort) : (s.setCohort n v).sets = s.sets := rfl
@[simp] theorem setCohort_liveChannels (v : Cohort) : (s.setCohort n v).liveChannels = s.liveChannels := rfl
@[simp] theorem setCohort_spares (v : Cohort) : (s.setCohort n v).spares = s.spares := rfl
@[simp] theorem setCohort_corrected (v : Cohort) : (s.setCohort n v).corrected = s.corrected := rfl
@[simp] theorem setCohort_correctedTotal (v : Cohort) : (s.setCohort n v).correctedTotal = s.correctedTotal := rfl
@[simp] theorem setCohort_reported (v : Cohort) : (s.setCohort n v).reported = s.reported := rfl
@[simp] theorem setCohort_recalibrating (v : Cohort) : (s.setCohort n v).recalibrating = s.recalibrating := rfl
@[simp] theorem setCohort_recalAt (v : Cohort) : (s.setCohort n v).recalAt = s.recalAt := rfl
@[simp] theorem setCohort_retirements (v : Cohort) : (s.setCohort n v).retirements = s.retirements := rfl
@[simp] theorem setCohort_driftUse (v : Cohort) : (s.setCohort n v).driftUse = s.driftUse := rfl
@[simp] theorem setCohort_bad (v : Cohort) : (s.setCohort n v).bad = s.bad := rfl
@[simp] theorem setCohort_stations (v : Cohort) : (s.setCohort n v).stations = s.stations := rfl
@[simp] theorem setCohort_flights (v : Cohort) : (s.setCohort n v).flights = s.flights := rfl
@[simp] theorem setCohort_nacks (v : Cohort) : (s.setCohort n v).nacks = s.nacks := rfl
@[simp] theorem setCohort_fabric (v : Cohort) : (s.setCohort n v).fabric = s.fabric := rfl
@[simp] theorem setCohort_mbAddr (v : Cohort) : (s.setCohort n v).mbAddr = s.mbAddr := rfl
@[simp] theorem setCohort_mailbox (v : Cohort) : (s.setCohort n v).mailbox = s.mailbox := rfl
@[simp] theorem setCohort_creating (v : Cohort) : (s.setCohort n v).creating = s.creating := rfl
@[simp] theorem setCohort_negotiated (v : Cohort) : (s.setCohort n v).negotiated = s.negotiated := rfl
@[simp] theorem setCohort_features (v : Cohort) : (s.setCohort n v).features = s.features := rfl
@[simp] theorem setCohort_errRing (v : Cohort) : (s.setCohort n v).errRing = s.errRing := rfl
@[simp] theorem setCohort_imageA (v : Cohort) : (s.setCohort n v).imageA = s.imageA := rfl
@[simp] theorem setCohort_imageB (v : Cohort) : (s.setCohort n v).imageB = s.imageB := rfl
@[simp] theorem setCohort_usesB (v : Cohort) : (s.setCohort n v).usesB = s.usesB := rfl
@[simp] theorem setCohort_logSlots (v : Cohort) : (s.setCohort n v).logSlots = s.logSlots := rfl
@[simp] theorem setCohort_logChannels (v : Cohort) : (s.setCohort n v).logChannels = s.logChannels := rfl
@[simp] theorem setCohort_peers (v : Cohort) : (s.setCohort n v).peers = s.peers := rfl
@[simp] theorem setCohort_msix (v : Cohort) : (s.setCohort n v).msix = s.msix := rfl
@[simp] theorem setCohort_pmbus (v : Cohort) : (s.setCohort n v).pmbus = s.pmbus := rfl
@[simp] theorem setCohort_dead (v : Cohort) : (s.setCohort n v).dead = s.dead := rfl
@[simp] theorem setCohort_issuing (v : Cohort) : (s.setCohort n v).issuing = s.issuing := rfl
@[simp] theorem setCohort_agenda (v : Cohort) : (s.setCohort n v).agenda = s.agenda := rfl
@[simp] theorem setCohort_choice (v : Cohort) : (s.setCohort n v).choice = s.choice := rfl
@[simp] theorem modCohort_groups (f : Cohort → Cohort) : (s.modCohort n f).groups = s.groups := by unfold modCohort; split <;> rfl
@[simp] theorem modCohort_blocks (f : Cohort → Cohort) : (s.modCohort n f).blocks = s.blocks := by unfold modCohort; split <;> rfl
@[simp] theorem modCohort_launches (f : Cohort → Cohort) : (s.modCohort n f).launches = s.launches := by unfold modCohort; split <;> rfl
@[simp] theorem modCohort_graphs (f : Cohort → Cohort) : (s.modCohort n f).graphs = s.graphs := by unfold modCohort; split <;> rfl
@[simp] theorem modCohort_queues (f : Cohort → Cohort) : (s.modCohort n f).queues = s.queues := by unfold modCohort; split <;> rfl
@[simp] theorem modCohort_bodies (f : Cohort → Cohort) : (s.modCohort n f).bodies = s.bodies := by unfold modCohort; split <;> rfl
@[simp] theorem modCohort_ops (f : Cohort → Cohort) : (s.modCohort n f).ops = s.ops := by unfold modCohort; split <;> rfl
@[simp] theorem modCohort_walks (f : Cohort → Cohort) : (s.modCohort n f).walks = s.walks := by unfold modCohort; split <;> rfl
@[simp] theorem modCohort_fresh (f : Cohort → Cohort) : (s.modCohort n f).fresh = s.fresh := by unfold modCohort; split <;> rfl
@[simp] theorem modCohort_cores (f : Cohort → Cohort) : (s.modCohort n f).cores = s.cores := by unfold modCohort; split <;> rfl
@[simp] theorem modCohort_clusters (f : Cohort → Cohort) : (s.modCohort n f).clusters = s.clusters := by unfold modCohort; split <;> rfl
@[simp] theorem modCohort_chiplets (f : Cohort → Cohort) : (s.modCohort n f).chiplets = s.chiplets := by unfold modCohort; split <;> rfl
@[simp] theorem modCohort_mem (f : Cohort → Cohort) : (s.modCohort n f).mem = s.mem := by unfold modCohort; split <;> rfl
@[simp] theorem modCohort_llc (f : Cohort → Cohort) : (s.modCohort n f).llc = s.llc := by unfold modCohort; split <;> rfl
@[simp] theorem modCohort_frames (f : Cohort → Cohort) : (s.modCohort n f).frames = s.frames := by unfold modCohort; split <;> rfl
@[simp] theorem modCohort_sectors (f : Cohort → Cohort) : (s.modCohort n f).sectors = s.sectors := by unfold modCohort; split <;> rfl
@[simp] theorem modCohort_scrubSince (f : Cohort → Cohort) : (s.modCohort n f).scrubSince = s.scrubSince := by unfold modCohort; split <;> rfl
@[simp] theorem modCohort_scrubbed (f : Cohort → Cohort) : (s.modCohort n f).scrubbed = s.scrubbed := by unfold modCohort; split <;> rfl
@[simp] theorem modCohort_translators (f : Cohort → Cohort) : (s.modCohort n f).translators = s.translators := by unfold modCohort; split <;> rfl
@[simp] theorem modCohort_translated (f : Cohort → Cohort) : (s.modCohort n f).translated = s.translated := by unfold modCohort; split <;> rfl
@[simp] theorem modCohort_lastQueue (f : Cohort → Cohort) : (s.modCohort n f).lastQueue = s.lastQueue := by unfold modCohort; split <;> rfl
@[simp] theorem modCohort_hostSectors (f : Cohort → Cohort) : (s.modCohort n f).hostSectors = s.hostSectors := by unfold modCohort; split <;> rfl
@[simp] theorem modCohort_hostLines (f : Cohort → Cohort) : (s.modCohort n f).hostLines = s.hostLines := by unfold modCohort; split <;> rfl
@[simp] theorem modCohort_releasers (f : Cohort → Cohort) : (s.modCohort n f).releasers = s.releasers := by unfold modCohort; split <;> rfl
@[simp] theorem modCohort_llcRetired (f : Cohort → Cohort) : (s.modCohort n f).llcRetired = s.llcRetired := by unfold modCohort; split <;> rfl
@[simp] theorem modCohort_shown (f : Cohort → Cohort) : (s.modCohort n f).shown = s.shown := by unfold modCohort; split <;> rfl
@[simp] theorem modCohort_publishing (f : Cohort → Cohort) : (s.modCohort n f).publishing = s.publishing := by unfold modCohort; split <;> rfl
@[simp] theorem modCohort_retestDue (f : Cohort → Cohort) : (s.modCohort n f).retestDue = s.retestDue := by unfold modCohort; split <;> rfl
@[simp] theorem modCohort_selfTest (f : Cohort → Cohort) : (s.modCohort n f).selfTest = s.selfTest := by unfold modCohort; split <;> rfl
@[simp] theorem modCohort_pastGen (f : Cohort → Cohort) : (s.modCohort n f).pastGen = s.pastGen := by unfold modCohort; split <;> rfl
@[simp] theorem modCohort_hostReply (f : Cohort → Cohort) : (s.modCohort n f).hostReply = s.hostReply := by unfold modCohort; split <;> rfl
@[simp] theorem modCohort_barReply (f : Cohort → Cohort) : (s.modCohort n f).barReply = s.barReply := by unfold modCohort; split <;> rfl
@[simp] theorem modCohort_pageMoves (f : Cohort → Cohort) : (s.modCohort n f).pageMoves = s.pageMoves := by unfold modCohort; split <;> rfl
@[simp] theorem modCohort_catalogue (f : Cohort → Cohort) : (s.modCohort n f).catalogue = s.catalogue := by unfold modCohort; split <;> rfl
@[simp] theorem modCohort_now (f : Cohort → Cohort) : (s.modCohort n f).now = s.now := by unfold modCohort; split <;> rfl
@[simp] theorem modCohort_fevThresh (f : Cohort → Cohort) : (s.modCohort n f).fevThresh = s.fevThresh := by unfold modCohort; split <;> rfl
@[simp] theorem modCohort_trapVec (f : Cohort → Cohort) : (s.modCohort n f).trapVec = s.trapVec := by unfold modCohort; split <;> rfl
@[simp] theorem modCohort_ctxStore (f : Cohort → Cohort) : (s.modCohort n f).ctxStore = s.ctxStore := by unfold modCohort; split <;> rfl
@[simp] theorem modCohort_ctxUnits (f : Cohort → Cohort) : (s.modCohort n f).ctxUnits = s.ctxUnits := by unfold modCohort; split <;> rfl
@[simp] theorem modCohort_thot (f : Cohort → Cohort) : (s.modCohort n f).thot = s.thot := by unfold modCohort; split <;> rfl
@[simp] theorem modCohort_tcool (f : Cohort → Cohort) : (s.modCohort n f).tcool = s.tcool := by unfold modCohort; split <;> rfl
@[simp] theorem modCohort_drpLvl (f : Cohort → Cohort) : (s.modCohort n f).drpLvl = s.drpLvl := by unfold modCohort; split <;> rfl
@[simp] theorem modCohort_drpStretch (f : Cohort → Cohort) : (s.modCohort n f).drpStretch = s.drpStretch := by unfold modCohort; split <;> rfl
@[simp] theorem modCohort_drpHold (f : Cohort → Cohort) : (s.modCohort n f).drpHold = s.drpHold := by unfold modCohort; split <;> rfl
@[simp] theorem modCohort_boostCfg (f : Cohort → Cohort) : (s.modCohort n f).boostCfg = s.boostCfg := by unfold modCohort; split <;> rfl
@[simp] theorem modCohort_bgShare (f : Cohort → Cohort) : (s.modCohort n f).bgShare = s.bgShare := by unfold modCohort; split <;> rfl
@[simp] theorem modCohort_netWrr (f : Cohort → Cohort) : (s.modCohort n f).netWrr = s.netWrr := by unfold modCohort; split <;> rfl
@[simp] theorem modCohort_shedCfg (f : Cohort → Cohort) : (s.modCohort n f).shedCfg = s.shedCfg := by unfold modCohort; split <;> rfl
@[simp] theorem modCohort_qtab (f : Cohort → Cohort) : (s.modCohort n f).qtab = s.qtab := by unfold modCohort; split <;> rfl
@[simp] theorem modCohort_power (f : Cohort → Cohort) : (s.modCohort n f).power = s.power := by unfold modCohort; split <;> rfl
@[simp] theorem modCohort_sets (f : Cohort → Cohort) : (s.modCohort n f).sets = s.sets := by unfold modCohort; split <;> rfl
@[simp] theorem modCohort_liveChannels (f : Cohort → Cohort) : (s.modCohort n f).liveChannels = s.liveChannels := by unfold modCohort; split <;> rfl
@[simp] theorem modCohort_spares (f : Cohort → Cohort) : (s.modCohort n f).spares = s.spares := by unfold modCohort; split <;> rfl
@[simp] theorem modCohort_corrected (f : Cohort → Cohort) : (s.modCohort n f).corrected = s.corrected := by unfold modCohort; split <;> rfl
@[simp] theorem modCohort_correctedTotal (f : Cohort → Cohort) : (s.modCohort n f).correctedTotal = s.correctedTotal := by unfold modCohort; split <;> rfl
@[simp] theorem modCohort_reported (f : Cohort → Cohort) : (s.modCohort n f).reported = s.reported := by unfold modCohort; split <;> rfl
@[simp] theorem modCohort_recalibrating (f : Cohort → Cohort) : (s.modCohort n f).recalibrating = s.recalibrating := by unfold modCohort; split <;> rfl
@[simp] theorem modCohort_recalAt (f : Cohort → Cohort) : (s.modCohort n f).recalAt = s.recalAt := by unfold modCohort; split <;> rfl
@[simp] theorem modCohort_retirements (f : Cohort → Cohort) : (s.modCohort n f).retirements = s.retirements := by unfold modCohort; split <;> rfl
@[simp] theorem modCohort_driftUse (f : Cohort → Cohort) : (s.modCohort n f).driftUse = s.driftUse := by unfold modCohort; split <;> rfl
@[simp] theorem modCohort_bad (f : Cohort → Cohort) : (s.modCohort n f).bad = s.bad := by unfold modCohort; split <;> rfl
@[simp] theorem modCohort_stations (f : Cohort → Cohort) : (s.modCohort n f).stations = s.stations := by unfold modCohort; split <;> rfl
@[simp] theorem modCohort_flights (f : Cohort → Cohort) : (s.modCohort n f).flights = s.flights := by unfold modCohort; split <;> rfl
@[simp] theorem modCohort_nacks (f : Cohort → Cohort) : (s.modCohort n f).nacks = s.nacks := by unfold modCohort; split <;> rfl
@[simp] theorem modCohort_fabric (f : Cohort → Cohort) : (s.modCohort n f).fabric = s.fabric := by unfold modCohort; split <;> rfl
@[simp] theorem modCohort_mbAddr (f : Cohort → Cohort) : (s.modCohort n f).mbAddr = s.mbAddr := by unfold modCohort; split <;> rfl
@[simp] theorem modCohort_mailbox (f : Cohort → Cohort) : (s.modCohort n f).mailbox = s.mailbox := by unfold modCohort; split <;> rfl
@[simp] theorem modCohort_creating (f : Cohort → Cohort) : (s.modCohort n f).creating = s.creating := by unfold modCohort; split <;> rfl
@[simp] theorem modCohort_negotiated (f : Cohort → Cohort) : (s.modCohort n f).negotiated = s.negotiated := by unfold modCohort; split <;> rfl
@[simp] theorem modCohort_features (f : Cohort → Cohort) : (s.modCohort n f).features = s.features := by unfold modCohort; split <;> rfl
@[simp] theorem modCohort_errRing (f : Cohort → Cohort) : (s.modCohort n f).errRing = s.errRing := by unfold modCohort; split <;> rfl
@[simp] theorem modCohort_imageA (f : Cohort → Cohort) : (s.modCohort n f).imageA = s.imageA := by unfold modCohort; split <;> rfl
@[simp] theorem modCohort_imageB (f : Cohort → Cohort) : (s.modCohort n f).imageB = s.imageB := by unfold modCohort; split <;> rfl
@[simp] theorem modCohort_usesB (f : Cohort → Cohort) : (s.modCohort n f).usesB = s.usesB := by unfold modCohort; split <;> rfl
@[simp] theorem modCohort_logSlots (f : Cohort → Cohort) : (s.modCohort n f).logSlots = s.logSlots := by unfold modCohort; split <;> rfl
@[simp] theorem modCohort_logChannels (f : Cohort → Cohort) : (s.modCohort n f).logChannels = s.logChannels := by unfold modCohort; split <;> rfl
@[simp] theorem modCohort_peers (f : Cohort → Cohort) : (s.modCohort n f).peers = s.peers := by unfold modCohort; split <;> rfl
@[simp] theorem modCohort_msix (f : Cohort → Cohort) : (s.modCohort n f).msix = s.msix := by unfold modCohort; split <;> rfl
@[simp] theorem modCohort_pmbus (f : Cohort → Cohort) : (s.modCohort n f).pmbus = s.pmbus := by unfold modCohort; split <;> rfl
@[simp] theorem modCohort_dead (f : Cohort → Cohort) : (s.modCohort n f).dead = s.dead := by unfold modCohort; split <;> rfl
@[simp] theorem modCohort_issuing (f : Cohort → Cohort) : (s.modCohort n f).issuing = s.issuing := by unfold modCohort; split <;> rfl
@[simp] theorem modCohort_agenda (f : Cohort → Cohort) : (s.modCohort n f).agenda = s.agenda := by unfold modCohort; split <;> rfl
@[simp] theorem modCohort_choice (f : Cohort → Cohort) : (s.modCohort n f).choice = s.choice := by unfold modCohort; split <;> rfl

/-! ## setLaunch and modLaunch -/

@[simp] theorem setLaunch_groups (v : Launch) : (s.setLaunch n v).groups = s.groups := rfl
@[simp] theorem setLaunch_blocks (v : Launch) : (s.setLaunch n v).blocks = s.blocks := rfl
@[simp] theorem setLaunch_cohorts (v : Launch) : (s.setLaunch n v).cohorts = s.cohorts := rfl
@[simp] theorem setLaunch_graphs (v : Launch) : (s.setLaunch n v).graphs = s.graphs := rfl
@[simp] theorem setLaunch_queues (v : Launch) : (s.setLaunch n v).queues = s.queues := rfl
@[simp] theorem setLaunch_bodies (v : Launch) : (s.setLaunch n v).bodies = s.bodies := rfl
@[simp] theorem setLaunch_ops (v : Launch) : (s.setLaunch n v).ops = s.ops := rfl
@[simp] theorem setLaunch_walks (v : Launch) : (s.setLaunch n v).walks = s.walks := rfl
@[simp] theorem setLaunch_fresh (v : Launch) : (s.setLaunch n v).fresh = s.fresh := rfl
@[simp] theorem setLaunch_cores (v : Launch) : (s.setLaunch n v).cores = s.cores := rfl
@[simp] theorem setLaunch_clusters (v : Launch) : (s.setLaunch n v).clusters = s.clusters := rfl
@[simp] theorem setLaunch_chiplets (v : Launch) : (s.setLaunch n v).chiplets = s.chiplets := rfl
@[simp] theorem setLaunch_mem (v : Launch) : (s.setLaunch n v).mem = s.mem := rfl
@[simp] theorem setLaunch_llc (v : Launch) : (s.setLaunch n v).llc = s.llc := rfl
@[simp] theorem setLaunch_frames (v : Launch) : (s.setLaunch n v).frames = s.frames := rfl
@[simp] theorem setLaunch_sectors (v : Launch) : (s.setLaunch n v).sectors = s.sectors := rfl
@[simp] theorem setLaunch_scrubSince (v : Launch) : (s.setLaunch n v).scrubSince = s.scrubSince := rfl
@[simp] theorem setLaunch_scrubbed (v : Launch) : (s.setLaunch n v).scrubbed = s.scrubbed := rfl
@[simp] theorem setLaunch_translators (v : Launch) : (s.setLaunch n v).translators = s.translators := rfl
@[simp] theorem setLaunch_translated (v : Launch) : (s.setLaunch n v).translated = s.translated := rfl
@[simp] theorem setLaunch_lastQueue (v : Launch) : (s.setLaunch n v).lastQueue = s.lastQueue := rfl
@[simp] theorem setLaunch_hostSectors (v : Launch) : (s.setLaunch n v).hostSectors = s.hostSectors := rfl
@[simp] theorem setLaunch_hostLines (v : Launch) : (s.setLaunch n v).hostLines = s.hostLines := rfl
@[simp] theorem setLaunch_releasers (v : Launch) : (s.setLaunch n v).releasers = s.releasers := rfl
@[simp] theorem setLaunch_llcRetired (v : Launch) : (s.setLaunch n v).llcRetired = s.llcRetired := rfl
@[simp] theorem setLaunch_shown (v : Launch) : (s.setLaunch n v).shown = s.shown := rfl
@[simp] theorem setLaunch_publishing (v : Launch) : (s.setLaunch n v).publishing = s.publishing := rfl
@[simp] theorem setLaunch_retestDue (v : Launch) : (s.setLaunch n v).retestDue = s.retestDue := rfl
@[simp] theorem setLaunch_selfTest (v : Launch) : (s.setLaunch n v).selfTest = s.selfTest := rfl
@[simp] theorem setLaunch_pastGen (v : Launch) : (s.setLaunch n v).pastGen = s.pastGen := rfl
@[simp] theorem setLaunch_hostReply (v : Launch) : (s.setLaunch n v).hostReply = s.hostReply := rfl
@[simp] theorem setLaunch_barReply (v : Launch) : (s.setLaunch n v).barReply = s.barReply := rfl
@[simp] theorem setLaunch_pageMoves (v : Launch) : (s.setLaunch n v).pageMoves = s.pageMoves := rfl
@[simp] theorem setLaunch_catalogue (v : Launch) : (s.setLaunch n v).catalogue = s.catalogue := rfl
@[simp] theorem setLaunch_now (v : Launch) : (s.setLaunch n v).now = s.now := rfl
@[simp] theorem setLaunch_fevThresh (v : Launch) : (s.setLaunch n v).fevThresh = s.fevThresh := rfl
@[simp] theorem setLaunch_trapVec (v : Launch) : (s.setLaunch n v).trapVec = s.trapVec := rfl
@[simp] theorem setLaunch_ctxStore (v : Launch) : (s.setLaunch n v).ctxStore = s.ctxStore := rfl
@[simp] theorem setLaunch_ctxUnits (v : Launch) : (s.setLaunch n v).ctxUnits = s.ctxUnits := rfl
@[simp] theorem setLaunch_thot (v : Launch) : (s.setLaunch n v).thot = s.thot := rfl
@[simp] theorem setLaunch_tcool (v : Launch) : (s.setLaunch n v).tcool = s.tcool := rfl
@[simp] theorem setLaunch_drpLvl (v : Launch) : (s.setLaunch n v).drpLvl = s.drpLvl := rfl
@[simp] theorem setLaunch_drpStretch (v : Launch) : (s.setLaunch n v).drpStretch = s.drpStretch := rfl
@[simp] theorem setLaunch_drpHold (v : Launch) : (s.setLaunch n v).drpHold = s.drpHold := rfl
@[simp] theorem setLaunch_boostCfg (v : Launch) : (s.setLaunch n v).boostCfg = s.boostCfg := rfl
@[simp] theorem setLaunch_bgShare (v : Launch) : (s.setLaunch n v).bgShare = s.bgShare := rfl
@[simp] theorem setLaunch_netWrr (v : Launch) : (s.setLaunch n v).netWrr = s.netWrr := rfl
@[simp] theorem setLaunch_shedCfg (v : Launch) : (s.setLaunch n v).shedCfg = s.shedCfg := rfl
@[simp] theorem setLaunch_qtab (v : Launch) : (s.setLaunch n v).qtab = s.qtab := rfl
@[simp] theorem setLaunch_power (v : Launch) : (s.setLaunch n v).power = s.power := rfl
@[simp] theorem setLaunch_sets (v : Launch) : (s.setLaunch n v).sets = s.sets := rfl
@[simp] theorem setLaunch_liveChannels (v : Launch) : (s.setLaunch n v).liveChannels = s.liveChannels := rfl
@[simp] theorem setLaunch_spares (v : Launch) : (s.setLaunch n v).spares = s.spares := rfl
@[simp] theorem setLaunch_corrected (v : Launch) : (s.setLaunch n v).corrected = s.corrected := rfl
@[simp] theorem setLaunch_correctedTotal (v : Launch) : (s.setLaunch n v).correctedTotal = s.correctedTotal := rfl
@[simp] theorem setLaunch_reported (v : Launch) : (s.setLaunch n v).reported = s.reported := rfl
@[simp] theorem setLaunch_recalibrating (v : Launch) : (s.setLaunch n v).recalibrating = s.recalibrating := rfl
@[simp] theorem setLaunch_recalAt (v : Launch) : (s.setLaunch n v).recalAt = s.recalAt := rfl
@[simp] theorem setLaunch_retirements (v : Launch) : (s.setLaunch n v).retirements = s.retirements := rfl
@[simp] theorem setLaunch_driftUse (v : Launch) : (s.setLaunch n v).driftUse = s.driftUse := rfl
@[simp] theorem setLaunch_bad (v : Launch) : (s.setLaunch n v).bad = s.bad := rfl
@[simp] theorem setLaunch_stations (v : Launch) : (s.setLaunch n v).stations = s.stations := rfl
@[simp] theorem setLaunch_flights (v : Launch) : (s.setLaunch n v).flights = s.flights := rfl
@[simp] theorem setLaunch_nacks (v : Launch) : (s.setLaunch n v).nacks = s.nacks := rfl
@[simp] theorem setLaunch_fabric (v : Launch) : (s.setLaunch n v).fabric = s.fabric := rfl
@[simp] theorem setLaunch_mbAddr (v : Launch) : (s.setLaunch n v).mbAddr = s.mbAddr := rfl
@[simp] theorem setLaunch_mailbox (v : Launch) : (s.setLaunch n v).mailbox = s.mailbox := rfl
@[simp] theorem setLaunch_creating (v : Launch) : (s.setLaunch n v).creating = s.creating := rfl
@[simp] theorem setLaunch_negotiated (v : Launch) : (s.setLaunch n v).negotiated = s.negotiated := rfl
@[simp] theorem setLaunch_features (v : Launch) : (s.setLaunch n v).features = s.features := rfl
@[simp] theorem setLaunch_errRing (v : Launch) : (s.setLaunch n v).errRing = s.errRing := rfl
@[simp] theorem setLaunch_imageA (v : Launch) : (s.setLaunch n v).imageA = s.imageA := rfl
@[simp] theorem setLaunch_imageB (v : Launch) : (s.setLaunch n v).imageB = s.imageB := rfl
@[simp] theorem setLaunch_usesB (v : Launch) : (s.setLaunch n v).usesB = s.usesB := rfl
@[simp] theorem setLaunch_logSlots (v : Launch) : (s.setLaunch n v).logSlots = s.logSlots := rfl
@[simp] theorem setLaunch_logChannels (v : Launch) : (s.setLaunch n v).logChannels = s.logChannels := rfl
@[simp] theorem setLaunch_peers (v : Launch) : (s.setLaunch n v).peers = s.peers := rfl
@[simp] theorem setLaunch_msix (v : Launch) : (s.setLaunch n v).msix = s.msix := rfl
@[simp] theorem setLaunch_pmbus (v : Launch) : (s.setLaunch n v).pmbus = s.pmbus := rfl
@[simp] theorem setLaunch_dead (v : Launch) : (s.setLaunch n v).dead = s.dead := rfl
@[simp] theorem setLaunch_issuing (v : Launch) : (s.setLaunch n v).issuing = s.issuing := rfl
@[simp] theorem setLaunch_agenda (v : Launch) : (s.setLaunch n v).agenda = s.agenda := rfl
@[simp] theorem setLaunch_choice (v : Launch) : (s.setLaunch n v).choice = s.choice := rfl
@[simp] theorem modLaunch_groups (f : Launch → Launch) : (s.modLaunch n f).groups = s.groups := by unfold modLaunch; split <;> rfl
@[simp] theorem modLaunch_blocks (f : Launch → Launch) : (s.modLaunch n f).blocks = s.blocks := by unfold modLaunch; split <;> rfl
@[simp] theorem modLaunch_cohorts (f : Launch → Launch) : (s.modLaunch n f).cohorts = s.cohorts := by unfold modLaunch; split <;> rfl
@[simp] theorem modLaunch_graphs (f : Launch → Launch) : (s.modLaunch n f).graphs = s.graphs := by unfold modLaunch; split <;> rfl
@[simp] theorem modLaunch_queues (f : Launch → Launch) : (s.modLaunch n f).queues = s.queues := by unfold modLaunch; split <;> rfl
@[simp] theorem modLaunch_bodies (f : Launch → Launch) : (s.modLaunch n f).bodies = s.bodies := by unfold modLaunch; split <;> rfl
@[simp] theorem modLaunch_ops (f : Launch → Launch) : (s.modLaunch n f).ops = s.ops := by unfold modLaunch; split <;> rfl
@[simp] theorem modLaunch_walks (f : Launch → Launch) : (s.modLaunch n f).walks = s.walks := by unfold modLaunch; split <;> rfl
@[simp] theorem modLaunch_fresh (f : Launch → Launch) : (s.modLaunch n f).fresh = s.fresh := by unfold modLaunch; split <;> rfl
@[simp] theorem modLaunch_cores (f : Launch → Launch) : (s.modLaunch n f).cores = s.cores := by unfold modLaunch; split <;> rfl
@[simp] theorem modLaunch_clusters (f : Launch → Launch) : (s.modLaunch n f).clusters = s.clusters := by unfold modLaunch; split <;> rfl
@[simp] theorem modLaunch_chiplets (f : Launch → Launch) : (s.modLaunch n f).chiplets = s.chiplets := by unfold modLaunch; split <;> rfl
@[simp] theorem modLaunch_mem (f : Launch → Launch) : (s.modLaunch n f).mem = s.mem := by unfold modLaunch; split <;> rfl
@[simp] theorem modLaunch_llc (f : Launch → Launch) : (s.modLaunch n f).llc = s.llc := by unfold modLaunch; split <;> rfl
@[simp] theorem modLaunch_frames (f : Launch → Launch) : (s.modLaunch n f).frames = s.frames := by unfold modLaunch; split <;> rfl
@[simp] theorem modLaunch_sectors (f : Launch → Launch) : (s.modLaunch n f).sectors = s.sectors := by unfold modLaunch; split <;> rfl
@[simp] theorem modLaunch_scrubSince (f : Launch → Launch) : (s.modLaunch n f).scrubSince = s.scrubSince := by unfold modLaunch; split <;> rfl
@[simp] theorem modLaunch_scrubbed (f : Launch → Launch) : (s.modLaunch n f).scrubbed = s.scrubbed := by unfold modLaunch; split <;> rfl
@[simp] theorem modLaunch_translators (f : Launch → Launch) : (s.modLaunch n f).translators = s.translators := by unfold modLaunch; split <;> rfl
@[simp] theorem modLaunch_translated (f : Launch → Launch) : (s.modLaunch n f).translated = s.translated := by unfold modLaunch; split <;> rfl
@[simp] theorem modLaunch_lastQueue (f : Launch → Launch) : (s.modLaunch n f).lastQueue = s.lastQueue := by unfold modLaunch; split <;> rfl
@[simp] theorem modLaunch_hostSectors (f : Launch → Launch) : (s.modLaunch n f).hostSectors = s.hostSectors := by unfold modLaunch; split <;> rfl
@[simp] theorem modLaunch_hostLines (f : Launch → Launch) : (s.modLaunch n f).hostLines = s.hostLines := by unfold modLaunch; split <;> rfl
@[simp] theorem modLaunch_releasers (f : Launch → Launch) : (s.modLaunch n f).releasers = s.releasers := by unfold modLaunch; split <;> rfl
@[simp] theorem modLaunch_llcRetired (f : Launch → Launch) : (s.modLaunch n f).llcRetired = s.llcRetired := by unfold modLaunch; split <;> rfl
@[simp] theorem modLaunch_shown (f : Launch → Launch) : (s.modLaunch n f).shown = s.shown := by unfold modLaunch; split <;> rfl
@[simp] theorem modLaunch_publishing (f : Launch → Launch) : (s.modLaunch n f).publishing = s.publishing := by unfold modLaunch; split <;> rfl
@[simp] theorem modLaunch_retestDue (f : Launch → Launch) : (s.modLaunch n f).retestDue = s.retestDue := by unfold modLaunch; split <;> rfl
@[simp] theorem modLaunch_selfTest (f : Launch → Launch) : (s.modLaunch n f).selfTest = s.selfTest := by unfold modLaunch; split <;> rfl
@[simp] theorem modLaunch_pastGen (f : Launch → Launch) : (s.modLaunch n f).pastGen = s.pastGen := by unfold modLaunch; split <;> rfl
@[simp] theorem modLaunch_hostReply (f : Launch → Launch) : (s.modLaunch n f).hostReply = s.hostReply := by unfold modLaunch; split <;> rfl
@[simp] theorem modLaunch_barReply (f : Launch → Launch) : (s.modLaunch n f).barReply = s.barReply := by unfold modLaunch; split <;> rfl
@[simp] theorem modLaunch_pageMoves (f : Launch → Launch) : (s.modLaunch n f).pageMoves = s.pageMoves := by unfold modLaunch; split <;> rfl
@[simp] theorem modLaunch_catalogue (f : Launch → Launch) : (s.modLaunch n f).catalogue = s.catalogue := by unfold modLaunch; split <;> rfl
@[simp] theorem modLaunch_now (f : Launch → Launch) : (s.modLaunch n f).now = s.now := by unfold modLaunch; split <;> rfl
@[simp] theorem modLaunch_fevThresh (f : Launch → Launch) : (s.modLaunch n f).fevThresh = s.fevThresh := by unfold modLaunch; split <;> rfl
@[simp] theorem modLaunch_trapVec (f : Launch → Launch) : (s.modLaunch n f).trapVec = s.trapVec := by unfold modLaunch; split <;> rfl
@[simp] theorem modLaunch_ctxStore (f : Launch → Launch) : (s.modLaunch n f).ctxStore = s.ctxStore := by unfold modLaunch; split <;> rfl
@[simp] theorem modLaunch_ctxUnits (f : Launch → Launch) : (s.modLaunch n f).ctxUnits = s.ctxUnits := by unfold modLaunch; split <;> rfl
@[simp] theorem modLaunch_thot (f : Launch → Launch) : (s.modLaunch n f).thot = s.thot := by unfold modLaunch; split <;> rfl
@[simp] theorem modLaunch_tcool (f : Launch → Launch) : (s.modLaunch n f).tcool = s.tcool := by unfold modLaunch; split <;> rfl
@[simp] theorem modLaunch_drpLvl (f : Launch → Launch) : (s.modLaunch n f).drpLvl = s.drpLvl := by unfold modLaunch; split <;> rfl
@[simp] theorem modLaunch_drpStretch (f : Launch → Launch) : (s.modLaunch n f).drpStretch = s.drpStretch := by unfold modLaunch; split <;> rfl
@[simp] theorem modLaunch_drpHold (f : Launch → Launch) : (s.modLaunch n f).drpHold = s.drpHold := by unfold modLaunch; split <;> rfl
@[simp] theorem modLaunch_boostCfg (f : Launch → Launch) : (s.modLaunch n f).boostCfg = s.boostCfg := by unfold modLaunch; split <;> rfl
@[simp] theorem modLaunch_bgShare (f : Launch → Launch) : (s.modLaunch n f).bgShare = s.bgShare := by unfold modLaunch; split <;> rfl
@[simp] theorem modLaunch_netWrr (f : Launch → Launch) : (s.modLaunch n f).netWrr = s.netWrr := by unfold modLaunch; split <;> rfl
@[simp] theorem modLaunch_shedCfg (f : Launch → Launch) : (s.modLaunch n f).shedCfg = s.shedCfg := by unfold modLaunch; split <;> rfl
@[simp] theorem modLaunch_qtab (f : Launch → Launch) : (s.modLaunch n f).qtab = s.qtab := by unfold modLaunch; split <;> rfl
@[simp] theorem modLaunch_power (f : Launch → Launch) : (s.modLaunch n f).power = s.power := by unfold modLaunch; split <;> rfl
@[simp] theorem modLaunch_sets (f : Launch → Launch) : (s.modLaunch n f).sets = s.sets := by unfold modLaunch; split <;> rfl
@[simp] theorem modLaunch_liveChannels (f : Launch → Launch) : (s.modLaunch n f).liveChannels = s.liveChannels := by unfold modLaunch; split <;> rfl
@[simp] theorem modLaunch_spares (f : Launch → Launch) : (s.modLaunch n f).spares = s.spares := by unfold modLaunch; split <;> rfl
@[simp] theorem modLaunch_corrected (f : Launch → Launch) : (s.modLaunch n f).corrected = s.corrected := by unfold modLaunch; split <;> rfl
@[simp] theorem modLaunch_correctedTotal (f : Launch → Launch) : (s.modLaunch n f).correctedTotal = s.correctedTotal := by unfold modLaunch; split <;> rfl
@[simp] theorem modLaunch_reported (f : Launch → Launch) : (s.modLaunch n f).reported = s.reported := by unfold modLaunch; split <;> rfl
@[simp] theorem modLaunch_recalibrating (f : Launch → Launch) : (s.modLaunch n f).recalibrating = s.recalibrating := by unfold modLaunch; split <;> rfl
@[simp] theorem modLaunch_recalAt (f : Launch → Launch) : (s.modLaunch n f).recalAt = s.recalAt := by unfold modLaunch; split <;> rfl
@[simp] theorem modLaunch_retirements (f : Launch → Launch) : (s.modLaunch n f).retirements = s.retirements := by unfold modLaunch; split <;> rfl
@[simp] theorem modLaunch_driftUse (f : Launch → Launch) : (s.modLaunch n f).driftUse = s.driftUse := by unfold modLaunch; split <;> rfl
@[simp] theorem modLaunch_bad (f : Launch → Launch) : (s.modLaunch n f).bad = s.bad := by unfold modLaunch; split <;> rfl
@[simp] theorem modLaunch_stations (f : Launch → Launch) : (s.modLaunch n f).stations = s.stations := by unfold modLaunch; split <;> rfl
@[simp] theorem modLaunch_flights (f : Launch → Launch) : (s.modLaunch n f).flights = s.flights := by unfold modLaunch; split <;> rfl
@[simp] theorem modLaunch_nacks (f : Launch → Launch) : (s.modLaunch n f).nacks = s.nacks := by unfold modLaunch; split <;> rfl
@[simp] theorem modLaunch_fabric (f : Launch → Launch) : (s.modLaunch n f).fabric = s.fabric := by unfold modLaunch; split <;> rfl
@[simp] theorem modLaunch_mbAddr (f : Launch → Launch) : (s.modLaunch n f).mbAddr = s.mbAddr := by unfold modLaunch; split <;> rfl
@[simp] theorem modLaunch_mailbox (f : Launch → Launch) : (s.modLaunch n f).mailbox = s.mailbox := by unfold modLaunch; split <;> rfl
@[simp] theorem modLaunch_creating (f : Launch → Launch) : (s.modLaunch n f).creating = s.creating := by unfold modLaunch; split <;> rfl
@[simp] theorem modLaunch_negotiated (f : Launch → Launch) : (s.modLaunch n f).negotiated = s.negotiated := by unfold modLaunch; split <;> rfl
@[simp] theorem modLaunch_features (f : Launch → Launch) : (s.modLaunch n f).features = s.features := by unfold modLaunch; split <;> rfl
@[simp] theorem modLaunch_errRing (f : Launch → Launch) : (s.modLaunch n f).errRing = s.errRing := by unfold modLaunch; split <;> rfl
@[simp] theorem modLaunch_imageA (f : Launch → Launch) : (s.modLaunch n f).imageA = s.imageA := by unfold modLaunch; split <;> rfl
@[simp] theorem modLaunch_imageB (f : Launch → Launch) : (s.modLaunch n f).imageB = s.imageB := by unfold modLaunch; split <;> rfl
@[simp] theorem modLaunch_usesB (f : Launch → Launch) : (s.modLaunch n f).usesB = s.usesB := by unfold modLaunch; split <;> rfl
@[simp] theorem modLaunch_logSlots (f : Launch → Launch) : (s.modLaunch n f).logSlots = s.logSlots := by unfold modLaunch; split <;> rfl
@[simp] theorem modLaunch_logChannels (f : Launch → Launch) : (s.modLaunch n f).logChannels = s.logChannels := by unfold modLaunch; split <;> rfl
@[simp] theorem modLaunch_peers (f : Launch → Launch) : (s.modLaunch n f).peers = s.peers := by unfold modLaunch; split <;> rfl
@[simp] theorem modLaunch_msix (f : Launch → Launch) : (s.modLaunch n f).msix = s.msix := by unfold modLaunch; split <;> rfl
@[simp] theorem modLaunch_pmbus (f : Launch → Launch) : (s.modLaunch n f).pmbus = s.pmbus := by unfold modLaunch; split <;> rfl
@[simp] theorem modLaunch_dead (f : Launch → Launch) : (s.modLaunch n f).dead = s.dead := by unfold modLaunch; split <;> rfl
@[simp] theorem modLaunch_issuing (f : Launch → Launch) : (s.modLaunch n f).issuing = s.issuing := by unfold modLaunch; split <;> rfl
@[simp] theorem modLaunch_agenda (f : Launch → Launch) : (s.modLaunch n f).agenda = s.agenda := by unfold modLaunch; split <;> rfl
@[simp] theorem modLaunch_choice (f : Launch → Launch) : (s.modLaunch n f).choice = s.choice := by unfold modLaunch; split <;> rfl

/-! ## setCore and modCore -/

@[simp] theorem setCore_groups (v : Core) : (s.setCore n v).groups = s.groups := rfl
@[simp] theorem setCore_blocks (v : Core) : (s.setCore n v).blocks = s.blocks := rfl
@[simp] theorem setCore_cohorts (v : Core) : (s.setCore n v).cohorts = s.cohorts := rfl
@[simp] theorem setCore_launches (v : Core) : (s.setCore n v).launches = s.launches := rfl
@[simp] theorem setCore_graphs (v : Core) : (s.setCore n v).graphs = s.graphs := rfl
@[simp] theorem setCore_queues (v : Core) : (s.setCore n v).queues = s.queues := rfl
@[simp] theorem setCore_bodies (v : Core) : (s.setCore n v).bodies = s.bodies := rfl
@[simp] theorem setCore_ops (v : Core) : (s.setCore n v).ops = s.ops := rfl
@[simp] theorem setCore_walks (v : Core) : (s.setCore n v).walks = s.walks := rfl
@[simp] theorem setCore_fresh (v : Core) : (s.setCore n v).fresh = s.fresh := rfl
@[simp] theorem setCore_clusters (v : Core) : (s.setCore n v).clusters = s.clusters := rfl
@[simp] theorem setCore_chiplets (v : Core) : (s.setCore n v).chiplets = s.chiplets := rfl
@[simp] theorem setCore_mem (v : Core) : (s.setCore n v).mem = s.mem := rfl
@[simp] theorem setCore_llc (v : Core) : (s.setCore n v).llc = s.llc := rfl
@[simp] theorem setCore_frames (v : Core) : (s.setCore n v).frames = s.frames := rfl
@[simp] theorem setCore_sectors (v : Core) : (s.setCore n v).sectors = s.sectors := rfl
@[simp] theorem setCore_scrubSince (v : Core) : (s.setCore n v).scrubSince = s.scrubSince := rfl
@[simp] theorem setCore_scrubbed (v : Core) : (s.setCore n v).scrubbed = s.scrubbed := rfl
@[simp] theorem setCore_translators (v : Core) : (s.setCore n v).translators = s.translators := rfl
@[simp] theorem setCore_translated (v : Core) : (s.setCore n v).translated = s.translated := rfl
@[simp] theorem setCore_lastQueue (v : Core) : (s.setCore n v).lastQueue = s.lastQueue := rfl
@[simp] theorem setCore_hostSectors (v : Core) : (s.setCore n v).hostSectors = s.hostSectors := rfl
@[simp] theorem setCore_hostLines (v : Core) : (s.setCore n v).hostLines = s.hostLines := rfl
@[simp] theorem setCore_releasers (v : Core) : (s.setCore n v).releasers = s.releasers := rfl
@[simp] theorem setCore_llcRetired (v : Core) : (s.setCore n v).llcRetired = s.llcRetired := rfl
@[simp] theorem setCore_shown (v : Core) : (s.setCore n v).shown = s.shown := rfl
@[simp] theorem setCore_publishing (v : Core) : (s.setCore n v).publishing = s.publishing := rfl
@[simp] theorem setCore_retestDue (v : Core) : (s.setCore n v).retestDue = s.retestDue := rfl
@[simp] theorem setCore_selfTest (v : Core) : (s.setCore n v).selfTest = s.selfTest := rfl
@[simp] theorem setCore_pastGen (v : Core) : (s.setCore n v).pastGen = s.pastGen := rfl
@[simp] theorem setCore_hostReply (v : Core) : (s.setCore n v).hostReply = s.hostReply := rfl
@[simp] theorem setCore_barReply (v : Core) : (s.setCore n v).barReply = s.barReply := rfl
@[simp] theorem setCore_pageMoves (v : Core) : (s.setCore n v).pageMoves = s.pageMoves := rfl
@[simp] theorem setCore_catalogue (v : Core) : (s.setCore n v).catalogue = s.catalogue := rfl
@[simp] theorem setCore_now (v : Core) : (s.setCore n v).now = s.now := rfl
@[simp] theorem setCore_fevThresh (v : Core) : (s.setCore n v).fevThresh = s.fevThresh := rfl
@[simp] theorem setCore_trapVec (v : Core) : (s.setCore n v).trapVec = s.trapVec := rfl
@[simp] theorem setCore_ctxStore (v : Core) : (s.setCore n v).ctxStore = s.ctxStore := rfl
@[simp] theorem setCore_ctxUnits (v : Core) : (s.setCore n v).ctxUnits = s.ctxUnits := rfl
@[simp] theorem setCore_thot (v : Core) : (s.setCore n v).thot = s.thot := rfl
@[simp] theorem setCore_tcool (v : Core) : (s.setCore n v).tcool = s.tcool := rfl
@[simp] theorem setCore_drpLvl (v : Core) : (s.setCore n v).drpLvl = s.drpLvl := rfl
@[simp] theorem setCore_drpStretch (v : Core) : (s.setCore n v).drpStretch = s.drpStretch := rfl
@[simp] theorem setCore_drpHold (v : Core) : (s.setCore n v).drpHold = s.drpHold := rfl
@[simp] theorem setCore_boostCfg (v : Core) : (s.setCore n v).boostCfg = s.boostCfg := rfl
@[simp] theorem setCore_bgShare (v : Core) : (s.setCore n v).bgShare = s.bgShare := rfl
@[simp] theorem setCore_netWrr (v : Core) : (s.setCore n v).netWrr = s.netWrr := rfl
@[simp] theorem setCore_shedCfg (v : Core) : (s.setCore n v).shedCfg = s.shedCfg := rfl
@[simp] theorem setCore_qtab (v : Core) : (s.setCore n v).qtab = s.qtab := rfl
@[simp] theorem setCore_power (v : Core) : (s.setCore n v).power = s.power := rfl
@[simp] theorem setCore_sets (v : Core) : (s.setCore n v).sets = s.sets := rfl
@[simp] theorem setCore_liveChannels (v : Core) : (s.setCore n v).liveChannels = s.liveChannels := rfl
@[simp] theorem setCore_spares (v : Core) : (s.setCore n v).spares = s.spares := rfl
@[simp] theorem setCore_corrected (v : Core) : (s.setCore n v).corrected = s.corrected := rfl
@[simp] theorem setCore_correctedTotal (v : Core) : (s.setCore n v).correctedTotal = s.correctedTotal := rfl
@[simp] theorem setCore_reported (v : Core) : (s.setCore n v).reported = s.reported := rfl
@[simp] theorem setCore_recalibrating (v : Core) : (s.setCore n v).recalibrating = s.recalibrating := rfl
@[simp] theorem setCore_recalAt (v : Core) : (s.setCore n v).recalAt = s.recalAt := rfl
@[simp] theorem setCore_retirements (v : Core) : (s.setCore n v).retirements = s.retirements := rfl
@[simp] theorem setCore_driftUse (v : Core) : (s.setCore n v).driftUse = s.driftUse := rfl
@[simp] theorem setCore_bad (v : Core) : (s.setCore n v).bad = s.bad := rfl
@[simp] theorem setCore_stations (v : Core) : (s.setCore n v).stations = s.stations := rfl
@[simp] theorem setCore_flights (v : Core) : (s.setCore n v).flights = s.flights := rfl
@[simp] theorem setCore_nacks (v : Core) : (s.setCore n v).nacks = s.nacks := rfl
@[simp] theorem setCore_fabric (v : Core) : (s.setCore n v).fabric = s.fabric := rfl
@[simp] theorem setCore_mbAddr (v : Core) : (s.setCore n v).mbAddr = s.mbAddr := rfl
@[simp] theorem setCore_mailbox (v : Core) : (s.setCore n v).mailbox = s.mailbox := rfl
@[simp] theorem setCore_creating (v : Core) : (s.setCore n v).creating = s.creating := rfl
@[simp] theorem setCore_negotiated (v : Core) : (s.setCore n v).negotiated = s.negotiated := rfl
@[simp] theorem setCore_features (v : Core) : (s.setCore n v).features = s.features := rfl
@[simp] theorem setCore_errRing (v : Core) : (s.setCore n v).errRing = s.errRing := rfl
@[simp] theorem setCore_imageA (v : Core) : (s.setCore n v).imageA = s.imageA := rfl
@[simp] theorem setCore_imageB (v : Core) : (s.setCore n v).imageB = s.imageB := rfl
@[simp] theorem setCore_usesB (v : Core) : (s.setCore n v).usesB = s.usesB := rfl
@[simp] theorem setCore_logSlots (v : Core) : (s.setCore n v).logSlots = s.logSlots := rfl
@[simp] theorem setCore_logChannels (v : Core) : (s.setCore n v).logChannels = s.logChannels := rfl
@[simp] theorem setCore_peers (v : Core) : (s.setCore n v).peers = s.peers := rfl
@[simp] theorem setCore_msix (v : Core) : (s.setCore n v).msix = s.msix := rfl
@[simp] theorem setCore_pmbus (v : Core) : (s.setCore n v).pmbus = s.pmbus := rfl
@[simp] theorem setCore_dead (v : Core) : (s.setCore n v).dead = s.dead := rfl
@[simp] theorem setCore_issuing (v : Core) : (s.setCore n v).issuing = s.issuing := rfl
@[simp] theorem setCore_agenda (v : Core) : (s.setCore n v).agenda = s.agenda := rfl
@[simp] theorem setCore_choice (v : Core) : (s.setCore n v).choice = s.choice := rfl
@[simp] theorem modCore_groups (f : Core → Core) : (s.modCore n f).groups = s.groups := rfl
@[simp] theorem modCore_blocks (f : Core → Core) : (s.modCore n f).blocks = s.blocks := rfl
@[simp] theorem modCore_cohorts (f : Core → Core) : (s.modCore n f).cohorts = s.cohorts := rfl
@[simp] theorem modCore_launches (f : Core → Core) : (s.modCore n f).launches = s.launches := rfl
@[simp] theorem modCore_graphs (f : Core → Core) : (s.modCore n f).graphs = s.graphs := rfl
@[simp] theorem modCore_queues (f : Core → Core) : (s.modCore n f).queues = s.queues := rfl
@[simp] theorem modCore_bodies (f : Core → Core) : (s.modCore n f).bodies = s.bodies := rfl
@[simp] theorem modCore_ops (f : Core → Core) : (s.modCore n f).ops = s.ops := rfl
@[simp] theorem modCore_walks (f : Core → Core) : (s.modCore n f).walks = s.walks := rfl
@[simp] theorem modCore_fresh (f : Core → Core) : (s.modCore n f).fresh = s.fresh := rfl
@[simp] theorem modCore_clusters (f : Core → Core) : (s.modCore n f).clusters = s.clusters := rfl
@[simp] theorem modCore_chiplets (f : Core → Core) : (s.modCore n f).chiplets = s.chiplets := rfl
@[simp] theorem modCore_mem (f : Core → Core) : (s.modCore n f).mem = s.mem := rfl
@[simp] theorem modCore_llc (f : Core → Core) : (s.modCore n f).llc = s.llc := rfl
@[simp] theorem modCore_frames (f : Core → Core) : (s.modCore n f).frames = s.frames := rfl
@[simp] theorem modCore_sectors (f : Core → Core) : (s.modCore n f).sectors = s.sectors := rfl
@[simp] theorem modCore_scrubSince (f : Core → Core) : (s.modCore n f).scrubSince = s.scrubSince := rfl
@[simp] theorem modCore_scrubbed (f : Core → Core) : (s.modCore n f).scrubbed = s.scrubbed := rfl
@[simp] theorem modCore_translators (f : Core → Core) : (s.modCore n f).translators = s.translators := rfl
@[simp] theorem modCore_translated (f : Core → Core) : (s.modCore n f).translated = s.translated := rfl
@[simp] theorem modCore_lastQueue (f : Core → Core) : (s.modCore n f).lastQueue = s.lastQueue := rfl
@[simp] theorem modCore_hostSectors (f : Core → Core) : (s.modCore n f).hostSectors = s.hostSectors := rfl
@[simp] theorem modCore_hostLines (f : Core → Core) : (s.modCore n f).hostLines = s.hostLines := rfl
@[simp] theorem modCore_releasers (f : Core → Core) : (s.modCore n f).releasers = s.releasers := rfl
@[simp] theorem modCore_llcRetired (f : Core → Core) : (s.modCore n f).llcRetired = s.llcRetired := rfl
@[simp] theorem modCore_shown (f : Core → Core) : (s.modCore n f).shown = s.shown := rfl
@[simp] theorem modCore_publishing (f : Core → Core) : (s.modCore n f).publishing = s.publishing := rfl
@[simp] theorem modCore_retestDue (f : Core → Core) : (s.modCore n f).retestDue = s.retestDue := rfl
@[simp] theorem modCore_selfTest (f : Core → Core) : (s.modCore n f).selfTest = s.selfTest := rfl
@[simp] theorem modCore_pastGen (f : Core → Core) : (s.modCore n f).pastGen = s.pastGen := rfl
@[simp] theorem modCore_hostReply (f : Core → Core) : (s.modCore n f).hostReply = s.hostReply := rfl
@[simp] theorem modCore_barReply (f : Core → Core) : (s.modCore n f).barReply = s.barReply := rfl
@[simp] theorem modCore_pageMoves (f : Core → Core) : (s.modCore n f).pageMoves = s.pageMoves := rfl
@[simp] theorem modCore_catalogue (f : Core → Core) : (s.modCore n f).catalogue = s.catalogue := rfl
@[simp] theorem modCore_now (f : Core → Core) : (s.modCore n f).now = s.now := rfl
@[simp] theorem modCore_fevThresh (f : Core → Core) : (s.modCore n f).fevThresh = s.fevThresh := rfl
@[simp] theorem modCore_trapVec (f : Core → Core) : (s.modCore n f).trapVec = s.trapVec := rfl
@[simp] theorem modCore_ctxStore (f : Core → Core) : (s.modCore n f).ctxStore = s.ctxStore := rfl
@[simp] theorem modCore_ctxUnits (f : Core → Core) : (s.modCore n f).ctxUnits = s.ctxUnits := rfl
@[simp] theorem modCore_thot (f : Core → Core) : (s.modCore n f).thot = s.thot := rfl
@[simp] theorem modCore_tcool (f : Core → Core) : (s.modCore n f).tcool = s.tcool := rfl
@[simp] theorem modCore_drpLvl (f : Core → Core) : (s.modCore n f).drpLvl = s.drpLvl := rfl
@[simp] theorem modCore_drpStretch (f : Core → Core) : (s.modCore n f).drpStretch = s.drpStretch := rfl
@[simp] theorem modCore_drpHold (f : Core → Core) : (s.modCore n f).drpHold = s.drpHold := rfl
@[simp] theorem modCore_boostCfg (f : Core → Core) : (s.modCore n f).boostCfg = s.boostCfg := rfl
@[simp] theorem modCore_bgShare (f : Core → Core) : (s.modCore n f).bgShare = s.bgShare := rfl
@[simp] theorem modCore_netWrr (f : Core → Core) : (s.modCore n f).netWrr = s.netWrr := rfl
@[simp] theorem modCore_shedCfg (f : Core → Core) : (s.modCore n f).shedCfg = s.shedCfg := rfl
@[simp] theorem modCore_qtab (f : Core → Core) : (s.modCore n f).qtab = s.qtab := rfl
@[simp] theorem modCore_power (f : Core → Core) : (s.modCore n f).power = s.power := rfl
@[simp] theorem modCore_sets (f : Core → Core) : (s.modCore n f).sets = s.sets := rfl
@[simp] theorem modCore_liveChannels (f : Core → Core) : (s.modCore n f).liveChannels = s.liveChannels := rfl
@[simp] theorem modCore_spares (f : Core → Core) : (s.modCore n f).spares = s.spares := rfl
@[simp] theorem modCore_corrected (f : Core → Core) : (s.modCore n f).corrected = s.corrected := rfl
@[simp] theorem modCore_correctedTotal (f : Core → Core) : (s.modCore n f).correctedTotal = s.correctedTotal := rfl
@[simp] theorem modCore_reported (f : Core → Core) : (s.modCore n f).reported = s.reported := rfl
@[simp] theorem modCore_recalibrating (f : Core → Core) : (s.modCore n f).recalibrating = s.recalibrating := rfl
@[simp] theorem modCore_recalAt (f : Core → Core) : (s.modCore n f).recalAt = s.recalAt := rfl
@[simp] theorem modCore_retirements (f : Core → Core) : (s.modCore n f).retirements = s.retirements := rfl
@[simp] theorem modCore_driftUse (f : Core → Core) : (s.modCore n f).driftUse = s.driftUse := rfl
@[simp] theorem modCore_bad (f : Core → Core) : (s.modCore n f).bad = s.bad := rfl
@[simp] theorem modCore_stations (f : Core → Core) : (s.modCore n f).stations = s.stations := rfl
@[simp] theorem modCore_flights (f : Core → Core) : (s.modCore n f).flights = s.flights := rfl
@[simp] theorem modCore_nacks (f : Core → Core) : (s.modCore n f).nacks = s.nacks := rfl
@[simp] theorem modCore_fabric (f : Core → Core) : (s.modCore n f).fabric = s.fabric := rfl
@[simp] theorem modCore_mbAddr (f : Core → Core) : (s.modCore n f).mbAddr = s.mbAddr := rfl
@[simp] theorem modCore_mailbox (f : Core → Core) : (s.modCore n f).mailbox = s.mailbox := rfl
@[simp] theorem modCore_creating (f : Core → Core) : (s.modCore n f).creating = s.creating := rfl
@[simp] theorem modCore_negotiated (f : Core → Core) : (s.modCore n f).negotiated = s.negotiated := rfl
@[simp] theorem modCore_features (f : Core → Core) : (s.modCore n f).features = s.features := rfl
@[simp] theorem modCore_errRing (f : Core → Core) : (s.modCore n f).errRing = s.errRing := rfl
@[simp] theorem modCore_imageA (f : Core → Core) : (s.modCore n f).imageA = s.imageA := rfl
@[simp] theorem modCore_imageB (f : Core → Core) : (s.modCore n f).imageB = s.imageB := rfl
@[simp] theorem modCore_usesB (f : Core → Core) : (s.modCore n f).usesB = s.usesB := rfl
@[simp] theorem modCore_logSlots (f : Core → Core) : (s.modCore n f).logSlots = s.logSlots := rfl
@[simp] theorem modCore_logChannels (f : Core → Core) : (s.modCore n f).logChannels = s.logChannels := rfl
@[simp] theorem modCore_peers (f : Core → Core) : (s.modCore n f).peers = s.peers := rfl
@[simp] theorem modCore_msix (f : Core → Core) : (s.modCore n f).msix = s.msix := rfl
@[simp] theorem modCore_pmbus (f : Core → Core) : (s.modCore n f).pmbus = s.pmbus := rfl
@[simp] theorem modCore_dead (f : Core → Core) : (s.modCore n f).dead = s.dead := rfl
@[simp] theorem modCore_issuing (f : Core → Core) : (s.modCore n f).issuing = s.issuing := rfl
@[simp] theorem modCore_agenda (f : Core → Core) : (s.modCore n f).agenda = s.agenda := rfl
@[simp] theorem modCore_choice (f : Core → Core) : (s.modCore n f).choice = s.choice := rfl

/-! ## setCluster and modCluster -/

@[simp] theorem setCluster_groups (v : Cluster) : (s.setCluster n v).groups = s.groups := rfl
@[simp] theorem setCluster_blocks (v : Cluster) : (s.setCluster n v).blocks = s.blocks := rfl
@[simp] theorem setCluster_cohorts (v : Cluster) : (s.setCluster n v).cohorts = s.cohorts := rfl
@[simp] theorem setCluster_launches (v : Cluster) : (s.setCluster n v).launches = s.launches := rfl
@[simp] theorem setCluster_graphs (v : Cluster) : (s.setCluster n v).graphs = s.graphs := rfl
@[simp] theorem setCluster_queues (v : Cluster) : (s.setCluster n v).queues = s.queues := rfl
@[simp] theorem setCluster_bodies (v : Cluster) : (s.setCluster n v).bodies = s.bodies := rfl
@[simp] theorem setCluster_ops (v : Cluster) : (s.setCluster n v).ops = s.ops := rfl
@[simp] theorem setCluster_walks (v : Cluster) : (s.setCluster n v).walks = s.walks := rfl
@[simp] theorem setCluster_fresh (v : Cluster) : (s.setCluster n v).fresh = s.fresh := rfl
@[simp] theorem setCluster_cores (v : Cluster) : (s.setCluster n v).cores = s.cores := rfl
@[simp] theorem setCluster_chiplets (v : Cluster) : (s.setCluster n v).chiplets = s.chiplets := rfl
@[simp] theorem setCluster_mem (v : Cluster) : (s.setCluster n v).mem = s.mem := rfl
@[simp] theorem setCluster_llc (v : Cluster) : (s.setCluster n v).llc = s.llc := rfl
@[simp] theorem setCluster_frames (v : Cluster) : (s.setCluster n v).frames = s.frames := rfl
@[simp] theorem setCluster_sectors (v : Cluster) : (s.setCluster n v).sectors = s.sectors := rfl
@[simp] theorem setCluster_scrubSince (v : Cluster) : (s.setCluster n v).scrubSince = s.scrubSince := rfl
@[simp] theorem setCluster_scrubbed (v : Cluster) : (s.setCluster n v).scrubbed = s.scrubbed := rfl
@[simp] theorem setCluster_translators (v : Cluster) : (s.setCluster n v).translators = s.translators := rfl
@[simp] theorem setCluster_translated (v : Cluster) : (s.setCluster n v).translated = s.translated := rfl
@[simp] theorem setCluster_lastQueue (v : Cluster) : (s.setCluster n v).lastQueue = s.lastQueue := rfl
@[simp] theorem setCluster_hostSectors (v : Cluster) : (s.setCluster n v).hostSectors = s.hostSectors := rfl
@[simp] theorem setCluster_hostLines (v : Cluster) : (s.setCluster n v).hostLines = s.hostLines := rfl
@[simp] theorem setCluster_releasers (v : Cluster) : (s.setCluster n v).releasers = s.releasers := rfl
@[simp] theorem setCluster_llcRetired (v : Cluster) : (s.setCluster n v).llcRetired = s.llcRetired := rfl
@[simp] theorem setCluster_shown (v : Cluster) : (s.setCluster n v).shown = s.shown := rfl
@[simp] theorem setCluster_publishing (v : Cluster) : (s.setCluster n v).publishing = s.publishing := rfl
@[simp] theorem setCluster_retestDue (v : Cluster) : (s.setCluster n v).retestDue = s.retestDue := rfl
@[simp] theorem setCluster_selfTest (v : Cluster) : (s.setCluster n v).selfTest = s.selfTest := rfl
@[simp] theorem setCluster_pastGen (v : Cluster) : (s.setCluster n v).pastGen = s.pastGen := rfl
@[simp] theorem setCluster_hostReply (v : Cluster) : (s.setCluster n v).hostReply = s.hostReply := rfl
@[simp] theorem setCluster_barReply (v : Cluster) : (s.setCluster n v).barReply = s.barReply := rfl
@[simp] theorem setCluster_pageMoves (v : Cluster) : (s.setCluster n v).pageMoves = s.pageMoves := rfl
@[simp] theorem setCluster_catalogue (v : Cluster) : (s.setCluster n v).catalogue = s.catalogue := rfl
@[simp] theorem setCluster_now (v : Cluster) : (s.setCluster n v).now = s.now := rfl
@[simp] theorem setCluster_fevThresh (v : Cluster) : (s.setCluster n v).fevThresh = s.fevThresh := rfl
@[simp] theorem setCluster_trapVec (v : Cluster) : (s.setCluster n v).trapVec = s.trapVec := rfl
@[simp] theorem setCluster_ctxStore (v : Cluster) : (s.setCluster n v).ctxStore = s.ctxStore := rfl
@[simp] theorem setCluster_ctxUnits (v : Cluster) : (s.setCluster n v).ctxUnits = s.ctxUnits := rfl
@[simp] theorem setCluster_thot (v : Cluster) : (s.setCluster n v).thot = s.thot := rfl
@[simp] theorem setCluster_tcool (v : Cluster) : (s.setCluster n v).tcool = s.tcool := rfl
@[simp] theorem setCluster_drpLvl (v : Cluster) : (s.setCluster n v).drpLvl = s.drpLvl := rfl
@[simp] theorem setCluster_drpStretch (v : Cluster) : (s.setCluster n v).drpStretch = s.drpStretch := rfl
@[simp] theorem setCluster_drpHold (v : Cluster) : (s.setCluster n v).drpHold = s.drpHold := rfl
@[simp] theorem setCluster_boostCfg (v : Cluster) : (s.setCluster n v).boostCfg = s.boostCfg := rfl
@[simp] theorem setCluster_bgShare (v : Cluster) : (s.setCluster n v).bgShare = s.bgShare := rfl
@[simp] theorem setCluster_netWrr (v : Cluster) : (s.setCluster n v).netWrr = s.netWrr := rfl
@[simp] theorem setCluster_shedCfg (v : Cluster) : (s.setCluster n v).shedCfg = s.shedCfg := rfl
@[simp] theorem setCluster_qtab (v : Cluster) : (s.setCluster n v).qtab = s.qtab := rfl
@[simp] theorem setCluster_power (v : Cluster) : (s.setCluster n v).power = s.power := rfl
@[simp] theorem setCluster_sets (v : Cluster) : (s.setCluster n v).sets = s.sets := rfl
@[simp] theorem setCluster_liveChannels (v : Cluster) : (s.setCluster n v).liveChannels = s.liveChannels := rfl
@[simp] theorem setCluster_spares (v : Cluster) : (s.setCluster n v).spares = s.spares := rfl
@[simp] theorem setCluster_corrected (v : Cluster) : (s.setCluster n v).corrected = s.corrected := rfl
@[simp] theorem setCluster_correctedTotal (v : Cluster) : (s.setCluster n v).correctedTotal = s.correctedTotal := rfl
@[simp] theorem setCluster_reported (v : Cluster) : (s.setCluster n v).reported = s.reported := rfl
@[simp] theorem setCluster_recalibrating (v : Cluster) : (s.setCluster n v).recalibrating = s.recalibrating := rfl
@[simp] theorem setCluster_recalAt (v : Cluster) : (s.setCluster n v).recalAt = s.recalAt := rfl
@[simp] theorem setCluster_retirements (v : Cluster) : (s.setCluster n v).retirements = s.retirements := rfl
@[simp] theorem setCluster_driftUse (v : Cluster) : (s.setCluster n v).driftUse = s.driftUse := rfl
@[simp] theorem setCluster_bad (v : Cluster) : (s.setCluster n v).bad = s.bad := rfl
@[simp] theorem setCluster_stations (v : Cluster) : (s.setCluster n v).stations = s.stations := rfl
@[simp] theorem setCluster_flights (v : Cluster) : (s.setCluster n v).flights = s.flights := rfl
@[simp] theorem setCluster_nacks (v : Cluster) : (s.setCluster n v).nacks = s.nacks := rfl
@[simp] theorem setCluster_fabric (v : Cluster) : (s.setCluster n v).fabric = s.fabric := rfl
@[simp] theorem setCluster_mbAddr (v : Cluster) : (s.setCluster n v).mbAddr = s.mbAddr := rfl
@[simp] theorem setCluster_mailbox (v : Cluster) : (s.setCluster n v).mailbox = s.mailbox := rfl
@[simp] theorem setCluster_creating (v : Cluster) : (s.setCluster n v).creating = s.creating := rfl
@[simp] theorem setCluster_negotiated (v : Cluster) : (s.setCluster n v).negotiated = s.negotiated := rfl
@[simp] theorem setCluster_features (v : Cluster) : (s.setCluster n v).features = s.features := rfl
@[simp] theorem setCluster_errRing (v : Cluster) : (s.setCluster n v).errRing = s.errRing := rfl
@[simp] theorem setCluster_imageA (v : Cluster) : (s.setCluster n v).imageA = s.imageA := rfl
@[simp] theorem setCluster_imageB (v : Cluster) : (s.setCluster n v).imageB = s.imageB := rfl
@[simp] theorem setCluster_usesB (v : Cluster) : (s.setCluster n v).usesB = s.usesB := rfl
@[simp] theorem setCluster_logSlots (v : Cluster) : (s.setCluster n v).logSlots = s.logSlots := rfl
@[simp] theorem setCluster_logChannels (v : Cluster) : (s.setCluster n v).logChannels = s.logChannels := rfl
@[simp] theorem setCluster_peers (v : Cluster) : (s.setCluster n v).peers = s.peers := rfl
@[simp] theorem setCluster_msix (v : Cluster) : (s.setCluster n v).msix = s.msix := rfl
@[simp] theorem setCluster_pmbus (v : Cluster) : (s.setCluster n v).pmbus = s.pmbus := rfl
@[simp] theorem setCluster_dead (v : Cluster) : (s.setCluster n v).dead = s.dead := rfl
@[simp] theorem setCluster_issuing (v : Cluster) : (s.setCluster n v).issuing = s.issuing := rfl
@[simp] theorem setCluster_agenda (v : Cluster) : (s.setCluster n v).agenda = s.agenda := rfl
@[simp] theorem setCluster_choice (v : Cluster) : (s.setCluster n v).choice = s.choice := rfl
@[simp] theorem modCluster_groups (f : Cluster → Cluster) : (s.modCluster n f).groups = s.groups := rfl
@[simp] theorem modCluster_blocks (f : Cluster → Cluster) : (s.modCluster n f).blocks = s.blocks := rfl
@[simp] theorem modCluster_cohorts (f : Cluster → Cluster) : (s.modCluster n f).cohorts = s.cohorts := rfl
@[simp] theorem modCluster_launches (f : Cluster → Cluster) : (s.modCluster n f).launches = s.launches := rfl
@[simp] theorem modCluster_graphs (f : Cluster → Cluster) : (s.modCluster n f).graphs = s.graphs := rfl
@[simp] theorem modCluster_queues (f : Cluster → Cluster) : (s.modCluster n f).queues = s.queues := rfl
@[simp] theorem modCluster_bodies (f : Cluster → Cluster) : (s.modCluster n f).bodies = s.bodies := rfl
@[simp] theorem modCluster_ops (f : Cluster → Cluster) : (s.modCluster n f).ops = s.ops := rfl
@[simp] theorem modCluster_walks (f : Cluster → Cluster) : (s.modCluster n f).walks = s.walks := rfl
@[simp] theorem modCluster_fresh (f : Cluster → Cluster) : (s.modCluster n f).fresh = s.fresh := rfl
@[simp] theorem modCluster_cores (f : Cluster → Cluster) : (s.modCluster n f).cores = s.cores := rfl
@[simp] theorem modCluster_chiplets (f : Cluster → Cluster) : (s.modCluster n f).chiplets = s.chiplets := rfl
@[simp] theorem modCluster_mem (f : Cluster → Cluster) : (s.modCluster n f).mem = s.mem := rfl
@[simp] theorem modCluster_llc (f : Cluster → Cluster) : (s.modCluster n f).llc = s.llc := rfl
@[simp] theorem modCluster_frames (f : Cluster → Cluster) : (s.modCluster n f).frames = s.frames := rfl
@[simp] theorem modCluster_sectors (f : Cluster → Cluster) : (s.modCluster n f).sectors = s.sectors := rfl
@[simp] theorem modCluster_scrubSince (f : Cluster → Cluster) : (s.modCluster n f).scrubSince = s.scrubSince := rfl
@[simp] theorem modCluster_scrubbed (f : Cluster → Cluster) : (s.modCluster n f).scrubbed = s.scrubbed := rfl
@[simp] theorem modCluster_translators (f : Cluster → Cluster) : (s.modCluster n f).translators = s.translators := rfl
@[simp] theorem modCluster_translated (f : Cluster → Cluster) : (s.modCluster n f).translated = s.translated := rfl
@[simp] theorem modCluster_lastQueue (f : Cluster → Cluster) : (s.modCluster n f).lastQueue = s.lastQueue := rfl
@[simp] theorem modCluster_hostSectors (f : Cluster → Cluster) : (s.modCluster n f).hostSectors = s.hostSectors := rfl
@[simp] theorem modCluster_hostLines (f : Cluster → Cluster) : (s.modCluster n f).hostLines = s.hostLines := rfl
@[simp] theorem modCluster_releasers (f : Cluster → Cluster) : (s.modCluster n f).releasers = s.releasers := rfl
@[simp] theorem modCluster_llcRetired (f : Cluster → Cluster) : (s.modCluster n f).llcRetired = s.llcRetired := rfl
@[simp] theorem modCluster_shown (f : Cluster → Cluster) : (s.modCluster n f).shown = s.shown := rfl
@[simp] theorem modCluster_publishing (f : Cluster → Cluster) : (s.modCluster n f).publishing = s.publishing := rfl
@[simp] theorem modCluster_retestDue (f : Cluster → Cluster) : (s.modCluster n f).retestDue = s.retestDue := rfl
@[simp] theorem modCluster_selfTest (f : Cluster → Cluster) : (s.modCluster n f).selfTest = s.selfTest := rfl
@[simp] theorem modCluster_pastGen (f : Cluster → Cluster) : (s.modCluster n f).pastGen = s.pastGen := rfl
@[simp] theorem modCluster_hostReply (f : Cluster → Cluster) : (s.modCluster n f).hostReply = s.hostReply := rfl
@[simp] theorem modCluster_barReply (f : Cluster → Cluster) : (s.modCluster n f).barReply = s.barReply := rfl
@[simp] theorem modCluster_pageMoves (f : Cluster → Cluster) : (s.modCluster n f).pageMoves = s.pageMoves := rfl
@[simp] theorem modCluster_catalogue (f : Cluster → Cluster) : (s.modCluster n f).catalogue = s.catalogue := rfl
@[simp] theorem modCluster_now (f : Cluster → Cluster) : (s.modCluster n f).now = s.now := rfl
@[simp] theorem modCluster_fevThresh (f : Cluster → Cluster) : (s.modCluster n f).fevThresh = s.fevThresh := rfl
@[simp] theorem modCluster_trapVec (f : Cluster → Cluster) : (s.modCluster n f).trapVec = s.trapVec := rfl
@[simp] theorem modCluster_ctxStore (f : Cluster → Cluster) : (s.modCluster n f).ctxStore = s.ctxStore := rfl
@[simp] theorem modCluster_ctxUnits (f : Cluster → Cluster) : (s.modCluster n f).ctxUnits = s.ctxUnits := rfl
@[simp] theorem modCluster_thot (f : Cluster → Cluster) : (s.modCluster n f).thot = s.thot := rfl
@[simp] theorem modCluster_tcool (f : Cluster → Cluster) : (s.modCluster n f).tcool = s.tcool := rfl
@[simp] theorem modCluster_drpLvl (f : Cluster → Cluster) : (s.modCluster n f).drpLvl = s.drpLvl := rfl
@[simp] theorem modCluster_drpStretch (f : Cluster → Cluster) : (s.modCluster n f).drpStretch = s.drpStretch := rfl
@[simp] theorem modCluster_drpHold (f : Cluster → Cluster) : (s.modCluster n f).drpHold = s.drpHold := rfl
@[simp] theorem modCluster_boostCfg (f : Cluster → Cluster) : (s.modCluster n f).boostCfg = s.boostCfg := rfl
@[simp] theorem modCluster_bgShare (f : Cluster → Cluster) : (s.modCluster n f).bgShare = s.bgShare := rfl
@[simp] theorem modCluster_netWrr (f : Cluster → Cluster) : (s.modCluster n f).netWrr = s.netWrr := rfl
@[simp] theorem modCluster_shedCfg (f : Cluster → Cluster) : (s.modCluster n f).shedCfg = s.shedCfg := rfl
@[simp] theorem modCluster_qtab (f : Cluster → Cluster) : (s.modCluster n f).qtab = s.qtab := rfl
@[simp] theorem modCluster_power (f : Cluster → Cluster) : (s.modCluster n f).power = s.power := rfl
@[simp] theorem modCluster_sets (f : Cluster → Cluster) : (s.modCluster n f).sets = s.sets := rfl
@[simp] theorem modCluster_liveChannels (f : Cluster → Cluster) : (s.modCluster n f).liveChannels = s.liveChannels := rfl
@[simp] theorem modCluster_spares (f : Cluster → Cluster) : (s.modCluster n f).spares = s.spares := rfl
@[simp] theorem modCluster_corrected (f : Cluster → Cluster) : (s.modCluster n f).corrected = s.corrected := rfl
@[simp] theorem modCluster_correctedTotal (f : Cluster → Cluster) : (s.modCluster n f).correctedTotal = s.correctedTotal := rfl
@[simp] theorem modCluster_reported (f : Cluster → Cluster) : (s.modCluster n f).reported = s.reported := rfl
@[simp] theorem modCluster_recalibrating (f : Cluster → Cluster) : (s.modCluster n f).recalibrating = s.recalibrating := rfl
@[simp] theorem modCluster_recalAt (f : Cluster → Cluster) : (s.modCluster n f).recalAt = s.recalAt := rfl
@[simp] theorem modCluster_retirements (f : Cluster → Cluster) : (s.modCluster n f).retirements = s.retirements := rfl
@[simp] theorem modCluster_driftUse (f : Cluster → Cluster) : (s.modCluster n f).driftUse = s.driftUse := rfl
@[simp] theorem modCluster_bad (f : Cluster → Cluster) : (s.modCluster n f).bad = s.bad := rfl
@[simp] theorem modCluster_stations (f : Cluster → Cluster) : (s.modCluster n f).stations = s.stations := rfl
@[simp] theorem modCluster_flights (f : Cluster → Cluster) : (s.modCluster n f).flights = s.flights := rfl
@[simp] theorem modCluster_nacks (f : Cluster → Cluster) : (s.modCluster n f).nacks = s.nacks := rfl
@[simp] theorem modCluster_fabric (f : Cluster → Cluster) : (s.modCluster n f).fabric = s.fabric := rfl
@[simp] theorem modCluster_mbAddr (f : Cluster → Cluster) : (s.modCluster n f).mbAddr = s.mbAddr := rfl
@[simp] theorem modCluster_mailbox (f : Cluster → Cluster) : (s.modCluster n f).mailbox = s.mailbox := rfl
@[simp] theorem modCluster_creating (f : Cluster → Cluster) : (s.modCluster n f).creating = s.creating := rfl
@[simp] theorem modCluster_negotiated (f : Cluster → Cluster) : (s.modCluster n f).negotiated = s.negotiated := rfl
@[simp] theorem modCluster_features (f : Cluster → Cluster) : (s.modCluster n f).features = s.features := rfl
@[simp] theorem modCluster_errRing (f : Cluster → Cluster) : (s.modCluster n f).errRing = s.errRing := rfl
@[simp] theorem modCluster_imageA (f : Cluster → Cluster) : (s.modCluster n f).imageA = s.imageA := rfl
@[simp] theorem modCluster_imageB (f : Cluster → Cluster) : (s.modCluster n f).imageB = s.imageB := rfl
@[simp] theorem modCluster_usesB (f : Cluster → Cluster) : (s.modCluster n f).usesB = s.usesB := rfl
@[simp] theorem modCluster_logSlots (f : Cluster → Cluster) : (s.modCluster n f).logSlots = s.logSlots := rfl
@[simp] theorem modCluster_logChannels (f : Cluster → Cluster) : (s.modCluster n f).logChannels = s.logChannels := rfl
@[simp] theorem modCluster_peers (f : Cluster → Cluster) : (s.modCluster n f).peers = s.peers := rfl
@[simp] theorem modCluster_msix (f : Cluster → Cluster) : (s.modCluster n f).msix = s.msix := rfl
@[simp] theorem modCluster_pmbus (f : Cluster → Cluster) : (s.modCluster n f).pmbus = s.pmbus := rfl
@[simp] theorem modCluster_dead (f : Cluster → Cluster) : (s.modCluster n f).dead = s.dead := rfl
@[simp] theorem modCluster_issuing (f : Cluster → Cluster) : (s.modCluster n f).issuing = s.issuing := rfl
@[simp] theorem modCluster_agenda (f : Cluster → Cluster) : (s.modCluster n f).agenda = s.agenda := rfl
@[simp] theorem modCluster_choice (f : Cluster → Cluster) : (s.modCluster n f).choice = s.choice := rfl

/-! ## setChiplet and modChiplet -/

@[simp] theorem setChiplet_groups (v : Chiplet) : (s.setChiplet n v).groups = s.groups := rfl
@[simp] theorem setChiplet_blocks (v : Chiplet) : (s.setChiplet n v).blocks = s.blocks := rfl
@[simp] theorem setChiplet_cohorts (v : Chiplet) : (s.setChiplet n v).cohorts = s.cohorts := rfl
@[simp] theorem setChiplet_launches (v : Chiplet) : (s.setChiplet n v).launches = s.launches := rfl
@[simp] theorem setChiplet_graphs (v : Chiplet) : (s.setChiplet n v).graphs = s.graphs := rfl
@[simp] theorem setChiplet_queues (v : Chiplet) : (s.setChiplet n v).queues = s.queues := rfl
@[simp] theorem setChiplet_bodies (v : Chiplet) : (s.setChiplet n v).bodies = s.bodies := rfl
@[simp] theorem setChiplet_ops (v : Chiplet) : (s.setChiplet n v).ops = s.ops := rfl
@[simp] theorem setChiplet_walks (v : Chiplet) : (s.setChiplet n v).walks = s.walks := rfl
@[simp] theorem setChiplet_fresh (v : Chiplet) : (s.setChiplet n v).fresh = s.fresh := rfl
@[simp] theorem setChiplet_cores (v : Chiplet) : (s.setChiplet n v).cores = s.cores := rfl
@[simp] theorem setChiplet_clusters (v : Chiplet) : (s.setChiplet n v).clusters = s.clusters := rfl
@[simp] theorem setChiplet_mem (v : Chiplet) : (s.setChiplet n v).mem = s.mem := rfl
@[simp] theorem setChiplet_llc (v : Chiplet) : (s.setChiplet n v).llc = s.llc := rfl
@[simp] theorem setChiplet_frames (v : Chiplet) : (s.setChiplet n v).frames = s.frames := rfl
@[simp] theorem setChiplet_sectors (v : Chiplet) : (s.setChiplet n v).sectors = s.sectors := rfl
@[simp] theorem setChiplet_scrubSince (v : Chiplet) : (s.setChiplet n v).scrubSince = s.scrubSince := rfl
@[simp] theorem setChiplet_scrubbed (v : Chiplet) : (s.setChiplet n v).scrubbed = s.scrubbed := rfl
@[simp] theorem setChiplet_translators (v : Chiplet) : (s.setChiplet n v).translators = s.translators := rfl
@[simp] theorem setChiplet_translated (v : Chiplet) : (s.setChiplet n v).translated = s.translated := rfl
@[simp] theorem setChiplet_lastQueue (v : Chiplet) : (s.setChiplet n v).lastQueue = s.lastQueue := rfl
@[simp] theorem setChiplet_hostSectors (v : Chiplet) : (s.setChiplet n v).hostSectors = s.hostSectors := rfl
@[simp] theorem setChiplet_hostLines (v : Chiplet) : (s.setChiplet n v).hostLines = s.hostLines := rfl
@[simp] theorem setChiplet_releasers (v : Chiplet) : (s.setChiplet n v).releasers = s.releasers := rfl
@[simp] theorem setChiplet_llcRetired (v : Chiplet) : (s.setChiplet n v).llcRetired = s.llcRetired := rfl
@[simp] theorem setChiplet_shown (v : Chiplet) : (s.setChiplet n v).shown = s.shown := rfl
@[simp] theorem setChiplet_publishing (v : Chiplet) : (s.setChiplet n v).publishing = s.publishing := rfl
@[simp] theorem setChiplet_retestDue (v : Chiplet) : (s.setChiplet n v).retestDue = s.retestDue := rfl
@[simp] theorem setChiplet_selfTest (v : Chiplet) : (s.setChiplet n v).selfTest = s.selfTest := rfl
@[simp] theorem setChiplet_pastGen (v : Chiplet) : (s.setChiplet n v).pastGen = s.pastGen := rfl
@[simp] theorem setChiplet_hostReply (v : Chiplet) : (s.setChiplet n v).hostReply = s.hostReply := rfl
@[simp] theorem setChiplet_barReply (v : Chiplet) : (s.setChiplet n v).barReply = s.barReply := rfl
@[simp] theorem setChiplet_pageMoves (v : Chiplet) : (s.setChiplet n v).pageMoves = s.pageMoves := rfl
@[simp] theorem setChiplet_catalogue (v : Chiplet) : (s.setChiplet n v).catalogue = s.catalogue := rfl
@[simp] theorem setChiplet_now (v : Chiplet) : (s.setChiplet n v).now = s.now := rfl
@[simp] theorem setChiplet_fevThresh (v : Chiplet) : (s.setChiplet n v).fevThresh = s.fevThresh := rfl
@[simp] theorem setChiplet_trapVec (v : Chiplet) : (s.setChiplet n v).trapVec = s.trapVec := rfl
@[simp] theorem setChiplet_ctxStore (v : Chiplet) : (s.setChiplet n v).ctxStore = s.ctxStore := rfl
@[simp] theorem setChiplet_ctxUnits (v : Chiplet) : (s.setChiplet n v).ctxUnits = s.ctxUnits := rfl
@[simp] theorem setChiplet_thot (v : Chiplet) : (s.setChiplet n v).thot = s.thot := rfl
@[simp] theorem setChiplet_tcool (v : Chiplet) : (s.setChiplet n v).tcool = s.tcool := rfl
@[simp] theorem setChiplet_drpLvl (v : Chiplet) : (s.setChiplet n v).drpLvl = s.drpLvl := rfl
@[simp] theorem setChiplet_drpStretch (v : Chiplet) : (s.setChiplet n v).drpStretch = s.drpStretch := rfl
@[simp] theorem setChiplet_drpHold (v : Chiplet) : (s.setChiplet n v).drpHold = s.drpHold := rfl
@[simp] theorem setChiplet_boostCfg (v : Chiplet) : (s.setChiplet n v).boostCfg = s.boostCfg := rfl
@[simp] theorem setChiplet_bgShare (v : Chiplet) : (s.setChiplet n v).bgShare = s.bgShare := rfl
@[simp] theorem setChiplet_netWrr (v : Chiplet) : (s.setChiplet n v).netWrr = s.netWrr := rfl
@[simp] theorem setChiplet_shedCfg (v : Chiplet) : (s.setChiplet n v).shedCfg = s.shedCfg := rfl
@[simp] theorem setChiplet_qtab (v : Chiplet) : (s.setChiplet n v).qtab = s.qtab := rfl
@[simp] theorem setChiplet_power (v : Chiplet) : (s.setChiplet n v).power = s.power := rfl
@[simp] theorem setChiplet_sets (v : Chiplet) : (s.setChiplet n v).sets = s.sets := rfl
@[simp] theorem setChiplet_liveChannels (v : Chiplet) : (s.setChiplet n v).liveChannels = s.liveChannels := rfl
@[simp] theorem setChiplet_spares (v : Chiplet) : (s.setChiplet n v).spares = s.spares := rfl
@[simp] theorem setChiplet_corrected (v : Chiplet) : (s.setChiplet n v).corrected = s.corrected := rfl
@[simp] theorem setChiplet_correctedTotal (v : Chiplet) : (s.setChiplet n v).correctedTotal = s.correctedTotal := rfl
@[simp] theorem setChiplet_reported (v : Chiplet) : (s.setChiplet n v).reported = s.reported := rfl
@[simp] theorem setChiplet_recalibrating (v : Chiplet) : (s.setChiplet n v).recalibrating = s.recalibrating := rfl
@[simp] theorem setChiplet_recalAt (v : Chiplet) : (s.setChiplet n v).recalAt = s.recalAt := rfl
@[simp] theorem setChiplet_retirements (v : Chiplet) : (s.setChiplet n v).retirements = s.retirements := rfl
@[simp] theorem setChiplet_driftUse (v : Chiplet) : (s.setChiplet n v).driftUse = s.driftUse := rfl
@[simp] theorem setChiplet_bad (v : Chiplet) : (s.setChiplet n v).bad = s.bad := rfl
@[simp] theorem setChiplet_stations (v : Chiplet) : (s.setChiplet n v).stations = s.stations := rfl
@[simp] theorem setChiplet_flights (v : Chiplet) : (s.setChiplet n v).flights = s.flights := rfl
@[simp] theorem setChiplet_nacks (v : Chiplet) : (s.setChiplet n v).nacks = s.nacks := rfl
@[simp] theorem setChiplet_fabric (v : Chiplet) : (s.setChiplet n v).fabric = s.fabric := rfl
@[simp] theorem setChiplet_mbAddr (v : Chiplet) : (s.setChiplet n v).mbAddr = s.mbAddr := rfl
@[simp] theorem setChiplet_mailbox (v : Chiplet) : (s.setChiplet n v).mailbox = s.mailbox := rfl
@[simp] theorem setChiplet_creating (v : Chiplet) : (s.setChiplet n v).creating = s.creating := rfl
@[simp] theorem setChiplet_negotiated (v : Chiplet) : (s.setChiplet n v).negotiated = s.negotiated := rfl
@[simp] theorem setChiplet_features (v : Chiplet) : (s.setChiplet n v).features = s.features := rfl
@[simp] theorem setChiplet_errRing (v : Chiplet) : (s.setChiplet n v).errRing = s.errRing := rfl
@[simp] theorem setChiplet_imageA (v : Chiplet) : (s.setChiplet n v).imageA = s.imageA := rfl
@[simp] theorem setChiplet_imageB (v : Chiplet) : (s.setChiplet n v).imageB = s.imageB := rfl
@[simp] theorem setChiplet_usesB (v : Chiplet) : (s.setChiplet n v).usesB = s.usesB := rfl
@[simp] theorem setChiplet_logSlots (v : Chiplet) : (s.setChiplet n v).logSlots = s.logSlots := rfl
@[simp] theorem setChiplet_logChannels (v : Chiplet) : (s.setChiplet n v).logChannels = s.logChannels := rfl
@[simp] theorem setChiplet_peers (v : Chiplet) : (s.setChiplet n v).peers = s.peers := rfl
@[simp] theorem setChiplet_msix (v : Chiplet) : (s.setChiplet n v).msix = s.msix := rfl
@[simp] theorem setChiplet_pmbus (v : Chiplet) : (s.setChiplet n v).pmbus = s.pmbus := rfl
@[simp] theorem setChiplet_dead (v : Chiplet) : (s.setChiplet n v).dead = s.dead := rfl
@[simp] theorem setChiplet_issuing (v : Chiplet) : (s.setChiplet n v).issuing = s.issuing := rfl
@[simp] theorem setChiplet_agenda (v : Chiplet) : (s.setChiplet n v).agenda = s.agenda := rfl
@[simp] theorem setChiplet_choice (v : Chiplet) : (s.setChiplet n v).choice = s.choice := rfl
@[simp] theorem modChiplet_groups (f : Chiplet → Chiplet) : (s.modChiplet n f).groups = s.groups := rfl
@[simp] theorem modChiplet_blocks (f : Chiplet → Chiplet) : (s.modChiplet n f).blocks = s.blocks := rfl
@[simp] theorem modChiplet_cohorts (f : Chiplet → Chiplet) : (s.modChiplet n f).cohorts = s.cohorts := rfl
@[simp] theorem modChiplet_launches (f : Chiplet → Chiplet) : (s.modChiplet n f).launches = s.launches := rfl
@[simp] theorem modChiplet_graphs (f : Chiplet → Chiplet) : (s.modChiplet n f).graphs = s.graphs := rfl
@[simp] theorem modChiplet_queues (f : Chiplet → Chiplet) : (s.modChiplet n f).queues = s.queues := rfl
@[simp] theorem modChiplet_bodies (f : Chiplet → Chiplet) : (s.modChiplet n f).bodies = s.bodies := rfl
@[simp] theorem modChiplet_ops (f : Chiplet → Chiplet) : (s.modChiplet n f).ops = s.ops := rfl
@[simp] theorem modChiplet_walks (f : Chiplet → Chiplet) : (s.modChiplet n f).walks = s.walks := rfl
@[simp] theorem modChiplet_fresh (f : Chiplet → Chiplet) : (s.modChiplet n f).fresh = s.fresh := rfl
@[simp] theorem modChiplet_cores (f : Chiplet → Chiplet) : (s.modChiplet n f).cores = s.cores := rfl
@[simp] theorem modChiplet_clusters (f : Chiplet → Chiplet) : (s.modChiplet n f).clusters = s.clusters := rfl
@[simp] theorem modChiplet_mem (f : Chiplet → Chiplet) : (s.modChiplet n f).mem = s.mem := rfl
@[simp] theorem modChiplet_llc (f : Chiplet → Chiplet) : (s.modChiplet n f).llc = s.llc := rfl
@[simp] theorem modChiplet_frames (f : Chiplet → Chiplet) : (s.modChiplet n f).frames = s.frames := rfl
@[simp] theorem modChiplet_sectors (f : Chiplet → Chiplet) : (s.modChiplet n f).sectors = s.sectors := rfl
@[simp] theorem modChiplet_scrubSince (f : Chiplet → Chiplet) : (s.modChiplet n f).scrubSince = s.scrubSince := rfl
@[simp] theorem modChiplet_scrubbed (f : Chiplet → Chiplet) : (s.modChiplet n f).scrubbed = s.scrubbed := rfl
@[simp] theorem modChiplet_translators (f : Chiplet → Chiplet) : (s.modChiplet n f).translators = s.translators := rfl
@[simp] theorem modChiplet_translated (f : Chiplet → Chiplet) : (s.modChiplet n f).translated = s.translated := rfl
@[simp] theorem modChiplet_lastQueue (f : Chiplet → Chiplet) : (s.modChiplet n f).lastQueue = s.lastQueue := rfl
@[simp] theorem modChiplet_hostSectors (f : Chiplet → Chiplet) : (s.modChiplet n f).hostSectors = s.hostSectors := rfl
@[simp] theorem modChiplet_hostLines (f : Chiplet → Chiplet) : (s.modChiplet n f).hostLines = s.hostLines := rfl
@[simp] theorem modChiplet_releasers (f : Chiplet → Chiplet) : (s.modChiplet n f).releasers = s.releasers := rfl
@[simp] theorem modChiplet_llcRetired (f : Chiplet → Chiplet) : (s.modChiplet n f).llcRetired = s.llcRetired := rfl
@[simp] theorem modChiplet_shown (f : Chiplet → Chiplet) : (s.modChiplet n f).shown = s.shown := rfl
@[simp] theorem modChiplet_publishing (f : Chiplet → Chiplet) : (s.modChiplet n f).publishing = s.publishing := rfl
@[simp] theorem modChiplet_retestDue (f : Chiplet → Chiplet) : (s.modChiplet n f).retestDue = s.retestDue := rfl
@[simp] theorem modChiplet_selfTest (f : Chiplet → Chiplet) : (s.modChiplet n f).selfTest = s.selfTest := rfl
@[simp] theorem modChiplet_pastGen (f : Chiplet → Chiplet) : (s.modChiplet n f).pastGen = s.pastGen := rfl
@[simp] theorem modChiplet_hostReply (f : Chiplet → Chiplet) : (s.modChiplet n f).hostReply = s.hostReply := rfl
@[simp] theorem modChiplet_barReply (f : Chiplet → Chiplet) : (s.modChiplet n f).barReply = s.barReply := rfl
@[simp] theorem modChiplet_pageMoves (f : Chiplet → Chiplet) : (s.modChiplet n f).pageMoves = s.pageMoves := rfl
@[simp] theorem modChiplet_catalogue (f : Chiplet → Chiplet) : (s.modChiplet n f).catalogue = s.catalogue := rfl
@[simp] theorem modChiplet_now (f : Chiplet → Chiplet) : (s.modChiplet n f).now = s.now := rfl
@[simp] theorem modChiplet_fevThresh (f : Chiplet → Chiplet) : (s.modChiplet n f).fevThresh = s.fevThresh := rfl
@[simp] theorem modChiplet_trapVec (f : Chiplet → Chiplet) : (s.modChiplet n f).trapVec = s.trapVec := rfl
@[simp] theorem modChiplet_ctxStore (f : Chiplet → Chiplet) : (s.modChiplet n f).ctxStore = s.ctxStore := rfl
@[simp] theorem modChiplet_ctxUnits (f : Chiplet → Chiplet) : (s.modChiplet n f).ctxUnits = s.ctxUnits := rfl
@[simp] theorem modChiplet_thot (f : Chiplet → Chiplet) : (s.modChiplet n f).thot = s.thot := rfl
@[simp] theorem modChiplet_tcool (f : Chiplet → Chiplet) : (s.modChiplet n f).tcool = s.tcool := rfl
@[simp] theorem modChiplet_drpLvl (f : Chiplet → Chiplet) : (s.modChiplet n f).drpLvl = s.drpLvl := rfl
@[simp] theorem modChiplet_drpStretch (f : Chiplet → Chiplet) : (s.modChiplet n f).drpStretch = s.drpStretch := rfl
@[simp] theorem modChiplet_drpHold (f : Chiplet → Chiplet) : (s.modChiplet n f).drpHold = s.drpHold := rfl
@[simp] theorem modChiplet_boostCfg (f : Chiplet → Chiplet) : (s.modChiplet n f).boostCfg = s.boostCfg := rfl
@[simp] theorem modChiplet_bgShare (f : Chiplet → Chiplet) : (s.modChiplet n f).bgShare = s.bgShare := rfl
@[simp] theorem modChiplet_netWrr (f : Chiplet → Chiplet) : (s.modChiplet n f).netWrr = s.netWrr := rfl
@[simp] theorem modChiplet_shedCfg (f : Chiplet → Chiplet) : (s.modChiplet n f).shedCfg = s.shedCfg := rfl
@[simp] theorem modChiplet_qtab (f : Chiplet → Chiplet) : (s.modChiplet n f).qtab = s.qtab := rfl
@[simp] theorem modChiplet_power (f : Chiplet → Chiplet) : (s.modChiplet n f).power = s.power := rfl
@[simp] theorem modChiplet_sets (f : Chiplet → Chiplet) : (s.modChiplet n f).sets = s.sets := rfl
@[simp] theorem modChiplet_liveChannels (f : Chiplet → Chiplet) : (s.modChiplet n f).liveChannels = s.liveChannels := rfl
@[simp] theorem modChiplet_spares (f : Chiplet → Chiplet) : (s.modChiplet n f).spares = s.spares := rfl
@[simp] theorem modChiplet_corrected (f : Chiplet → Chiplet) : (s.modChiplet n f).corrected = s.corrected := rfl
@[simp] theorem modChiplet_correctedTotal (f : Chiplet → Chiplet) : (s.modChiplet n f).correctedTotal = s.correctedTotal := rfl
@[simp] theorem modChiplet_reported (f : Chiplet → Chiplet) : (s.modChiplet n f).reported = s.reported := rfl
@[simp] theorem modChiplet_recalibrating (f : Chiplet → Chiplet) : (s.modChiplet n f).recalibrating = s.recalibrating := rfl
@[simp] theorem modChiplet_recalAt (f : Chiplet → Chiplet) : (s.modChiplet n f).recalAt = s.recalAt := rfl
@[simp] theorem modChiplet_retirements (f : Chiplet → Chiplet) : (s.modChiplet n f).retirements = s.retirements := rfl
@[simp] theorem modChiplet_driftUse (f : Chiplet → Chiplet) : (s.modChiplet n f).driftUse = s.driftUse := rfl
@[simp] theorem modChiplet_bad (f : Chiplet → Chiplet) : (s.modChiplet n f).bad = s.bad := rfl
@[simp] theorem modChiplet_stations (f : Chiplet → Chiplet) : (s.modChiplet n f).stations = s.stations := rfl
@[simp] theorem modChiplet_flights (f : Chiplet → Chiplet) : (s.modChiplet n f).flights = s.flights := rfl
@[simp] theorem modChiplet_nacks (f : Chiplet → Chiplet) : (s.modChiplet n f).nacks = s.nacks := rfl
@[simp] theorem modChiplet_fabric (f : Chiplet → Chiplet) : (s.modChiplet n f).fabric = s.fabric := rfl
@[simp] theorem modChiplet_mbAddr (f : Chiplet → Chiplet) : (s.modChiplet n f).mbAddr = s.mbAddr := rfl
@[simp] theorem modChiplet_mailbox (f : Chiplet → Chiplet) : (s.modChiplet n f).mailbox = s.mailbox := rfl
@[simp] theorem modChiplet_creating (f : Chiplet → Chiplet) : (s.modChiplet n f).creating = s.creating := rfl
@[simp] theorem modChiplet_negotiated (f : Chiplet → Chiplet) : (s.modChiplet n f).negotiated = s.negotiated := rfl
@[simp] theorem modChiplet_features (f : Chiplet → Chiplet) : (s.modChiplet n f).features = s.features := rfl
@[simp] theorem modChiplet_errRing (f : Chiplet → Chiplet) : (s.modChiplet n f).errRing = s.errRing := rfl
@[simp] theorem modChiplet_imageA (f : Chiplet → Chiplet) : (s.modChiplet n f).imageA = s.imageA := rfl
@[simp] theorem modChiplet_imageB (f : Chiplet → Chiplet) : (s.modChiplet n f).imageB = s.imageB := rfl
@[simp] theorem modChiplet_usesB (f : Chiplet → Chiplet) : (s.modChiplet n f).usesB = s.usesB := rfl
@[simp] theorem modChiplet_logSlots (f : Chiplet → Chiplet) : (s.modChiplet n f).logSlots = s.logSlots := rfl
@[simp] theorem modChiplet_logChannels (f : Chiplet → Chiplet) : (s.modChiplet n f).logChannels = s.logChannels := rfl
@[simp] theorem modChiplet_peers (f : Chiplet → Chiplet) : (s.modChiplet n f).peers = s.peers := rfl
@[simp] theorem modChiplet_msix (f : Chiplet → Chiplet) : (s.modChiplet n f).msix = s.msix := rfl
@[simp] theorem modChiplet_pmbus (f : Chiplet → Chiplet) : (s.modChiplet n f).pmbus = s.pmbus := rfl
@[simp] theorem modChiplet_dead (f : Chiplet → Chiplet) : (s.modChiplet n f).dead = s.dead := rfl
@[simp] theorem modChiplet_issuing (f : Chiplet → Chiplet) : (s.modChiplet n f).issuing = s.issuing := rfl
@[simp] theorem modChiplet_agenda (f : Chiplet → Chiplet) : (s.modChiplet n f).agenda = s.agenda := rfl
@[simp] theorem modChiplet_choice (f : Chiplet → Chiplet) : (s.modChiplet n f).choice = s.choice := rfl

/-! ## setQueue and modQueue -/

@[simp] theorem setQueue_groups (v : Queue) : (s.setQueue n v).groups = s.groups := rfl
@[simp] theorem setQueue_blocks (v : Queue) : (s.setQueue n v).blocks = s.blocks := rfl
@[simp] theorem setQueue_cohorts (v : Queue) : (s.setQueue n v).cohorts = s.cohorts := rfl
@[simp] theorem setQueue_launches (v : Queue) : (s.setQueue n v).launches = s.launches := rfl
@[simp] theorem setQueue_graphs (v : Queue) : (s.setQueue n v).graphs = s.graphs := rfl
@[simp] theorem setQueue_bodies (v : Queue) : (s.setQueue n v).bodies = s.bodies := rfl
@[simp] theorem setQueue_ops (v : Queue) : (s.setQueue n v).ops = s.ops := rfl
@[simp] theorem setQueue_walks (v : Queue) : (s.setQueue n v).walks = s.walks := rfl
@[simp] theorem setQueue_fresh (v : Queue) : (s.setQueue n v).fresh = s.fresh := rfl
@[simp] theorem setQueue_cores (v : Queue) : (s.setQueue n v).cores = s.cores := rfl
@[simp] theorem setQueue_clusters (v : Queue) : (s.setQueue n v).clusters = s.clusters := rfl
@[simp] theorem setQueue_chiplets (v : Queue) : (s.setQueue n v).chiplets = s.chiplets := rfl
@[simp] theorem setQueue_mem (v : Queue) : (s.setQueue n v).mem = s.mem := rfl
@[simp] theorem setQueue_llc (v : Queue) : (s.setQueue n v).llc = s.llc := rfl
@[simp] theorem setQueue_frames (v : Queue) : (s.setQueue n v).frames = s.frames := rfl
@[simp] theorem setQueue_sectors (v : Queue) : (s.setQueue n v).sectors = s.sectors := rfl
@[simp] theorem setQueue_scrubSince (v : Queue) : (s.setQueue n v).scrubSince = s.scrubSince := rfl
@[simp] theorem setQueue_scrubbed (v : Queue) : (s.setQueue n v).scrubbed = s.scrubbed := rfl
@[simp] theorem setQueue_translators (v : Queue) : (s.setQueue n v).translators = s.translators := rfl
@[simp] theorem setQueue_translated (v : Queue) : (s.setQueue n v).translated = s.translated := rfl
@[simp] theorem setQueue_lastQueue (v : Queue) : (s.setQueue n v).lastQueue = s.lastQueue := rfl
@[simp] theorem setQueue_hostSectors (v : Queue) : (s.setQueue n v).hostSectors = s.hostSectors := rfl
@[simp] theorem setQueue_hostLines (v : Queue) : (s.setQueue n v).hostLines = s.hostLines := rfl
@[simp] theorem setQueue_releasers (v : Queue) : (s.setQueue n v).releasers = s.releasers := rfl
@[simp] theorem setQueue_llcRetired (v : Queue) : (s.setQueue n v).llcRetired = s.llcRetired := rfl
@[simp] theorem setQueue_shown (v : Queue) : (s.setQueue n v).shown = s.shown := rfl
@[simp] theorem setQueue_publishing (v : Queue) : (s.setQueue n v).publishing = s.publishing := rfl
@[simp] theorem setQueue_retestDue (v : Queue) : (s.setQueue n v).retestDue = s.retestDue := rfl
@[simp] theorem setQueue_selfTest (v : Queue) : (s.setQueue n v).selfTest = s.selfTest := rfl
@[simp] theorem setQueue_pastGen (v : Queue) : (s.setQueue n v).pastGen = s.pastGen := rfl
@[simp] theorem setQueue_hostReply (v : Queue) : (s.setQueue n v).hostReply = s.hostReply := rfl
@[simp] theorem setQueue_barReply (v : Queue) : (s.setQueue n v).barReply = s.barReply := rfl
@[simp] theorem setQueue_pageMoves (v : Queue) : (s.setQueue n v).pageMoves = s.pageMoves := rfl
@[simp] theorem setQueue_catalogue (v : Queue) : (s.setQueue n v).catalogue = s.catalogue := rfl
@[simp] theorem setQueue_now (v : Queue) : (s.setQueue n v).now = s.now := rfl
@[simp] theorem setQueue_fevThresh (v : Queue) : (s.setQueue n v).fevThresh = s.fevThresh := rfl
@[simp] theorem setQueue_trapVec (v : Queue) : (s.setQueue n v).trapVec = s.trapVec := rfl
@[simp] theorem setQueue_ctxStore (v : Queue) : (s.setQueue n v).ctxStore = s.ctxStore := rfl
@[simp] theorem setQueue_ctxUnits (v : Queue) : (s.setQueue n v).ctxUnits = s.ctxUnits := rfl
@[simp] theorem setQueue_thot (v : Queue) : (s.setQueue n v).thot = s.thot := rfl
@[simp] theorem setQueue_tcool (v : Queue) : (s.setQueue n v).tcool = s.tcool := rfl
@[simp] theorem setQueue_drpLvl (v : Queue) : (s.setQueue n v).drpLvl = s.drpLvl := rfl
@[simp] theorem setQueue_drpStretch (v : Queue) : (s.setQueue n v).drpStretch = s.drpStretch := rfl
@[simp] theorem setQueue_drpHold (v : Queue) : (s.setQueue n v).drpHold = s.drpHold := rfl
@[simp] theorem setQueue_boostCfg (v : Queue) : (s.setQueue n v).boostCfg = s.boostCfg := rfl
@[simp] theorem setQueue_bgShare (v : Queue) : (s.setQueue n v).bgShare = s.bgShare := rfl
@[simp] theorem setQueue_netWrr (v : Queue) : (s.setQueue n v).netWrr = s.netWrr := rfl
@[simp] theorem setQueue_shedCfg (v : Queue) : (s.setQueue n v).shedCfg = s.shedCfg := rfl
@[simp] theorem setQueue_qtab (v : Queue) : (s.setQueue n v).qtab = s.qtab := rfl
@[simp] theorem setQueue_power (v : Queue) : (s.setQueue n v).power = s.power := rfl
@[simp] theorem setQueue_sets (v : Queue) : (s.setQueue n v).sets = s.sets := rfl
@[simp] theorem setQueue_liveChannels (v : Queue) : (s.setQueue n v).liveChannels = s.liveChannels := rfl
@[simp] theorem setQueue_spares (v : Queue) : (s.setQueue n v).spares = s.spares := rfl
@[simp] theorem setQueue_corrected (v : Queue) : (s.setQueue n v).corrected = s.corrected := rfl
@[simp] theorem setQueue_correctedTotal (v : Queue) : (s.setQueue n v).correctedTotal = s.correctedTotal := rfl
@[simp] theorem setQueue_reported (v : Queue) : (s.setQueue n v).reported = s.reported := rfl
@[simp] theorem setQueue_recalibrating (v : Queue) : (s.setQueue n v).recalibrating = s.recalibrating := rfl
@[simp] theorem setQueue_recalAt (v : Queue) : (s.setQueue n v).recalAt = s.recalAt := rfl
@[simp] theorem setQueue_retirements (v : Queue) : (s.setQueue n v).retirements = s.retirements := rfl
@[simp] theorem setQueue_driftUse (v : Queue) : (s.setQueue n v).driftUse = s.driftUse := rfl
@[simp] theorem setQueue_bad (v : Queue) : (s.setQueue n v).bad = s.bad := rfl
@[simp] theorem setQueue_stations (v : Queue) : (s.setQueue n v).stations = s.stations := rfl
@[simp] theorem setQueue_flights (v : Queue) : (s.setQueue n v).flights = s.flights := rfl
@[simp] theorem setQueue_nacks (v : Queue) : (s.setQueue n v).nacks = s.nacks := rfl
@[simp] theorem setQueue_fabric (v : Queue) : (s.setQueue n v).fabric = s.fabric := rfl
@[simp] theorem setQueue_mbAddr (v : Queue) : (s.setQueue n v).mbAddr = s.mbAddr := rfl
@[simp] theorem setQueue_mailbox (v : Queue) : (s.setQueue n v).mailbox = s.mailbox := rfl
@[simp] theorem setQueue_creating (v : Queue) : (s.setQueue n v).creating = s.creating := rfl
@[simp] theorem setQueue_negotiated (v : Queue) : (s.setQueue n v).negotiated = s.negotiated := rfl
@[simp] theorem setQueue_features (v : Queue) : (s.setQueue n v).features = s.features := rfl
@[simp] theorem setQueue_errRing (v : Queue) : (s.setQueue n v).errRing = s.errRing := rfl
@[simp] theorem setQueue_imageA (v : Queue) : (s.setQueue n v).imageA = s.imageA := rfl
@[simp] theorem setQueue_imageB (v : Queue) : (s.setQueue n v).imageB = s.imageB := rfl
@[simp] theorem setQueue_usesB (v : Queue) : (s.setQueue n v).usesB = s.usesB := rfl
@[simp] theorem setQueue_logSlots (v : Queue) : (s.setQueue n v).logSlots = s.logSlots := rfl
@[simp] theorem setQueue_logChannels (v : Queue) : (s.setQueue n v).logChannels = s.logChannels := rfl
@[simp] theorem setQueue_peers (v : Queue) : (s.setQueue n v).peers = s.peers := rfl
@[simp] theorem setQueue_msix (v : Queue) : (s.setQueue n v).msix = s.msix := rfl
@[simp] theorem setQueue_pmbus (v : Queue) : (s.setQueue n v).pmbus = s.pmbus := rfl
@[simp] theorem setQueue_dead (v : Queue) : (s.setQueue n v).dead = s.dead := rfl
@[simp] theorem setQueue_issuing (v : Queue) : (s.setQueue n v).issuing = s.issuing := rfl
@[simp] theorem setQueue_agenda (v : Queue) : (s.setQueue n v).agenda = s.agenda := rfl
@[simp] theorem setQueue_choice (v : Queue) : (s.setQueue n v).choice = s.choice := rfl
@[simp] theorem modQueue_groups (f : Queue → Queue) : (s.modQueue n f).groups = s.groups := rfl
@[simp] theorem modQueue_blocks (f : Queue → Queue) : (s.modQueue n f).blocks = s.blocks := rfl
@[simp] theorem modQueue_cohorts (f : Queue → Queue) : (s.modQueue n f).cohorts = s.cohorts := rfl
@[simp] theorem modQueue_launches (f : Queue → Queue) : (s.modQueue n f).launches = s.launches := rfl
@[simp] theorem modQueue_graphs (f : Queue → Queue) : (s.modQueue n f).graphs = s.graphs := rfl
@[simp] theorem modQueue_bodies (f : Queue → Queue) : (s.modQueue n f).bodies = s.bodies := rfl
@[simp] theorem modQueue_ops (f : Queue → Queue) : (s.modQueue n f).ops = s.ops := rfl
@[simp] theorem modQueue_walks (f : Queue → Queue) : (s.modQueue n f).walks = s.walks := rfl
@[simp] theorem modQueue_fresh (f : Queue → Queue) : (s.modQueue n f).fresh = s.fresh := rfl
@[simp] theorem modQueue_cores (f : Queue → Queue) : (s.modQueue n f).cores = s.cores := rfl
@[simp] theorem modQueue_clusters (f : Queue → Queue) : (s.modQueue n f).clusters = s.clusters := rfl
@[simp] theorem modQueue_chiplets (f : Queue → Queue) : (s.modQueue n f).chiplets = s.chiplets := rfl
@[simp] theorem modQueue_mem (f : Queue → Queue) : (s.modQueue n f).mem = s.mem := rfl
@[simp] theorem modQueue_llc (f : Queue → Queue) : (s.modQueue n f).llc = s.llc := rfl
@[simp] theorem modQueue_frames (f : Queue → Queue) : (s.modQueue n f).frames = s.frames := rfl
@[simp] theorem modQueue_sectors (f : Queue → Queue) : (s.modQueue n f).sectors = s.sectors := rfl
@[simp] theorem modQueue_scrubSince (f : Queue → Queue) : (s.modQueue n f).scrubSince = s.scrubSince := rfl
@[simp] theorem modQueue_scrubbed (f : Queue → Queue) : (s.modQueue n f).scrubbed = s.scrubbed := rfl
@[simp] theorem modQueue_translators (f : Queue → Queue) : (s.modQueue n f).translators = s.translators := rfl
@[simp] theorem modQueue_translated (f : Queue → Queue) : (s.modQueue n f).translated = s.translated := rfl
@[simp] theorem modQueue_lastQueue (f : Queue → Queue) : (s.modQueue n f).lastQueue = s.lastQueue := rfl
@[simp] theorem modQueue_hostSectors (f : Queue → Queue) : (s.modQueue n f).hostSectors = s.hostSectors := rfl
@[simp] theorem modQueue_hostLines (f : Queue → Queue) : (s.modQueue n f).hostLines = s.hostLines := rfl
@[simp] theorem modQueue_releasers (f : Queue → Queue) : (s.modQueue n f).releasers = s.releasers := rfl
@[simp] theorem modQueue_llcRetired (f : Queue → Queue) : (s.modQueue n f).llcRetired = s.llcRetired := rfl
@[simp] theorem modQueue_shown (f : Queue → Queue) : (s.modQueue n f).shown = s.shown := rfl
@[simp] theorem modQueue_publishing (f : Queue → Queue) : (s.modQueue n f).publishing = s.publishing := rfl
@[simp] theorem modQueue_retestDue (f : Queue → Queue) : (s.modQueue n f).retestDue = s.retestDue := rfl
@[simp] theorem modQueue_selfTest (f : Queue → Queue) : (s.modQueue n f).selfTest = s.selfTest := rfl
@[simp] theorem modQueue_pastGen (f : Queue → Queue) : (s.modQueue n f).pastGen = s.pastGen := rfl
@[simp] theorem modQueue_hostReply (f : Queue → Queue) : (s.modQueue n f).hostReply = s.hostReply := rfl
@[simp] theorem modQueue_barReply (f : Queue → Queue) : (s.modQueue n f).barReply = s.barReply := rfl
@[simp] theorem modQueue_pageMoves (f : Queue → Queue) : (s.modQueue n f).pageMoves = s.pageMoves := rfl
@[simp] theorem modQueue_catalogue (f : Queue → Queue) : (s.modQueue n f).catalogue = s.catalogue := rfl
@[simp] theorem modQueue_now (f : Queue → Queue) : (s.modQueue n f).now = s.now := rfl
@[simp] theorem modQueue_fevThresh (f : Queue → Queue) : (s.modQueue n f).fevThresh = s.fevThresh := rfl
@[simp] theorem modQueue_trapVec (f : Queue → Queue) : (s.modQueue n f).trapVec = s.trapVec := rfl
@[simp] theorem modQueue_ctxStore (f : Queue → Queue) : (s.modQueue n f).ctxStore = s.ctxStore := rfl
@[simp] theorem modQueue_ctxUnits (f : Queue → Queue) : (s.modQueue n f).ctxUnits = s.ctxUnits := rfl
@[simp] theorem modQueue_thot (f : Queue → Queue) : (s.modQueue n f).thot = s.thot := rfl
@[simp] theorem modQueue_tcool (f : Queue → Queue) : (s.modQueue n f).tcool = s.tcool := rfl
@[simp] theorem modQueue_drpLvl (f : Queue → Queue) : (s.modQueue n f).drpLvl = s.drpLvl := rfl
@[simp] theorem modQueue_drpStretch (f : Queue → Queue) : (s.modQueue n f).drpStretch = s.drpStretch := rfl
@[simp] theorem modQueue_drpHold (f : Queue → Queue) : (s.modQueue n f).drpHold = s.drpHold := rfl
@[simp] theorem modQueue_boostCfg (f : Queue → Queue) : (s.modQueue n f).boostCfg = s.boostCfg := rfl
@[simp] theorem modQueue_bgShare (f : Queue → Queue) : (s.modQueue n f).bgShare = s.bgShare := rfl
@[simp] theorem modQueue_netWrr (f : Queue → Queue) : (s.modQueue n f).netWrr = s.netWrr := rfl
@[simp] theorem modQueue_shedCfg (f : Queue → Queue) : (s.modQueue n f).shedCfg = s.shedCfg := rfl
@[simp] theorem modQueue_qtab (f : Queue → Queue) : (s.modQueue n f).qtab = s.qtab := rfl
@[simp] theorem modQueue_power (f : Queue → Queue) : (s.modQueue n f).power = s.power := rfl
@[simp] theorem modQueue_sets (f : Queue → Queue) : (s.modQueue n f).sets = s.sets := rfl
@[simp] theorem modQueue_liveChannels (f : Queue → Queue) : (s.modQueue n f).liveChannels = s.liveChannels := rfl
@[simp] theorem modQueue_spares (f : Queue → Queue) : (s.modQueue n f).spares = s.spares := rfl
@[simp] theorem modQueue_corrected (f : Queue → Queue) : (s.modQueue n f).corrected = s.corrected := rfl
@[simp] theorem modQueue_correctedTotal (f : Queue → Queue) : (s.modQueue n f).correctedTotal = s.correctedTotal := rfl
@[simp] theorem modQueue_reported (f : Queue → Queue) : (s.modQueue n f).reported = s.reported := rfl
@[simp] theorem modQueue_recalibrating (f : Queue → Queue) : (s.modQueue n f).recalibrating = s.recalibrating := rfl
@[simp] theorem modQueue_recalAt (f : Queue → Queue) : (s.modQueue n f).recalAt = s.recalAt := rfl
@[simp] theorem modQueue_retirements (f : Queue → Queue) : (s.modQueue n f).retirements = s.retirements := rfl
@[simp] theorem modQueue_driftUse (f : Queue → Queue) : (s.modQueue n f).driftUse = s.driftUse := rfl
@[simp] theorem modQueue_bad (f : Queue → Queue) : (s.modQueue n f).bad = s.bad := rfl
@[simp] theorem modQueue_stations (f : Queue → Queue) : (s.modQueue n f).stations = s.stations := rfl
@[simp] theorem modQueue_flights (f : Queue → Queue) : (s.modQueue n f).flights = s.flights := rfl
@[simp] theorem modQueue_nacks (f : Queue → Queue) : (s.modQueue n f).nacks = s.nacks := rfl
@[simp] theorem modQueue_fabric (f : Queue → Queue) : (s.modQueue n f).fabric = s.fabric := rfl
@[simp] theorem modQueue_mbAddr (f : Queue → Queue) : (s.modQueue n f).mbAddr = s.mbAddr := rfl
@[simp] theorem modQueue_mailbox (f : Queue → Queue) : (s.modQueue n f).mailbox = s.mailbox := rfl
@[simp] theorem modQueue_creating (f : Queue → Queue) : (s.modQueue n f).creating = s.creating := rfl
@[simp] theorem modQueue_negotiated (f : Queue → Queue) : (s.modQueue n f).negotiated = s.negotiated := rfl
@[simp] theorem modQueue_features (f : Queue → Queue) : (s.modQueue n f).features = s.features := rfl
@[simp] theorem modQueue_errRing (f : Queue → Queue) : (s.modQueue n f).errRing = s.errRing := rfl
@[simp] theorem modQueue_imageA (f : Queue → Queue) : (s.modQueue n f).imageA = s.imageA := rfl
@[simp] theorem modQueue_imageB (f : Queue → Queue) : (s.modQueue n f).imageB = s.imageB := rfl
@[simp] theorem modQueue_usesB (f : Queue → Queue) : (s.modQueue n f).usesB = s.usesB := rfl
@[simp] theorem modQueue_logSlots (f : Queue → Queue) : (s.modQueue n f).logSlots = s.logSlots := rfl
@[simp] theorem modQueue_logChannels (f : Queue → Queue) : (s.modQueue n f).logChannels = s.logChannels := rfl
@[simp] theorem modQueue_peers (f : Queue → Queue) : (s.modQueue n f).peers = s.peers := rfl
@[simp] theorem modQueue_msix (f : Queue → Queue) : (s.modQueue n f).msix = s.msix := rfl
@[simp] theorem modQueue_pmbus (f : Queue → Queue) : (s.modQueue n f).pmbus = s.pmbus := rfl
@[simp] theorem modQueue_dead (f : Queue → Queue) : (s.modQueue n f).dead = s.dead := rfl
@[simp] theorem modQueue_issuing (f : Queue → Queue) : (s.modQueue n f).issuing = s.issuing := rfl
@[simp] theorem modQueue_agenda (f : Queue → Queue) : (s.modQueue n f).agenda = s.agenda := rfl
@[simp] theorem modQueue_choice (f : Queue → Queue) : (s.modQueue n f).choice = s.choice := rfl

/-! ## What is read after an update -/

@[simp] theorem group?_setGroup (v : Group) : (s.setGroup n v).group? n = some v := by simp [group?, setGroup]
theorem group?_setGroup_other (v : Group) {m : Nat} (h : m ≠ n) : (s.setGroup n v).group? m = s.group? m := by simp [group?, setGroup, h]
@[simp] theorem group?_modGroup (f : Group → Group) : (s.modGroup n f).group? n = (s.group? n).map f := by
  unfold modGroup; split <;> simp_all
theorem group?_modGroup_other (f : Group → Group) {m : Nat} (h : m ≠ n) : (s.modGroup n f).group? m = s.group? m := by
  unfold modGroup; split
  · exact group?_setGroup_other s n _ h
  · rfl
@[simp] theorem block?_setBlock (v : Block) : (s.setBlock n v).block? n = some v := by simp [block?, setBlock]
theorem block?_setBlock_other (v : Block) {m : Nat} (h : m ≠ n) : (s.setBlock n v).block? m = s.block? m := by simp [block?, setBlock, h]
@[simp] theorem block?_modBlock (f : Block → Block) : (s.modBlock n f).block? n = (s.block? n).map f := by
  unfold modBlock; split <;> simp_all
theorem block?_modBlock_other (f : Block → Block) {m : Nat} (h : m ≠ n) : (s.modBlock n f).block? m = s.block? m := by
  unfold modBlock; split
  · exact block?_setBlock_other s n _ h
  · rfl
@[simp] theorem cohort?_setCohort (v : Cohort) : (s.setCohort n v).cohort? n = some v := by simp [cohort?, setCohort]
theorem cohort?_setCohort_other (v : Cohort) {m : Nat} (h : m ≠ n) : (s.setCohort n v).cohort? m = s.cohort? m := by simp [cohort?, setCohort, h]
@[simp] theorem cohort?_modCohort (f : Cohort → Cohort) : (s.modCohort n f).cohort? n = (s.cohort? n).map f := by
  unfold modCohort; split <;> simp_all
theorem cohort?_modCohort_other (f : Cohort → Cohort) {m : Nat} (h : m ≠ n) : (s.modCohort n f).cohort? m = s.cohort? m := by
  unfold modCohort; split
  · exact cohort?_setCohort_other s n _ h
  · rfl
@[simp] theorem launch?_setLaunch (v : Launch) : (s.setLaunch n v).launch? n = some v := by simp [launch?, setLaunch]
theorem launch?_setLaunch_other (v : Launch) {m : Nat} (h : m ≠ n) : (s.setLaunch n v).launch? m = s.launch? m := by simp [launch?, setLaunch, h]
@[simp] theorem launch?_modLaunch (f : Launch → Launch) : (s.modLaunch n f).launch? n = (s.launch? n).map f := by
  unfold modLaunch; split <;> simp_all
theorem launch?_modLaunch_other (f : Launch → Launch) {m : Nat} (h : m ≠ n) : (s.modLaunch n f).launch? m = s.launch? m := by
  unfold modLaunch; split
  · exact launch?_setLaunch_other s n _ h
  · rfl
@[simp] theorem core_setCore (v : Core) : (s.setCore n v).core n = v := tgetD_tset_same _ _ _ _
theorem core_setCore_other (v : Core) {m : Nat} (hm : m ≠ n) : (s.setCore n v).core m = s.core m :=
  tgetD_tset_other _ _ _ _ _ hm
@[simp] theorem cluster_setCluster (v : Cluster) : (s.setCluster n v).cluster n = v := tgetD_tset_same _ _ _ _
theorem cluster_setCluster_other (v : Cluster) {m : Nat} (hm : m ≠ n) : (s.setCluster n v).cluster m = s.cluster m :=
  tgetD_tset_other _ _ _ _ _ hm
@[simp] theorem chiplet_setChiplet (v : Chiplet) : (s.setChiplet n v).chiplet n = v := tgetD_tset_same _ _ _ _
theorem chiplet_setChiplet_other (v : Chiplet) {m : Nat} (hm : m ≠ n) : (s.setChiplet n v).chiplet m = s.chiplet m :=
  tgetD_tset_other _ _ _ _ _ hm
@[simp] theorem queue_setQueue (v : Queue) : (s.setQueue n v).queue n = v := tgetD_tset_same _ _ _ _
theorem queue_setQueue_other (v : Queue) {m : Nat} (hm : m ≠ n) : (s.setQueue n v).queue m = s.queue m :=
  tgetD_tset_other _ _ _ _ _ hm
@[simp] theorem group?_setBlock (v : Block) (m : Nat) : (s.setBlock n v).group? m = s.group? m := rfl
@[simp] theorem group?_modBlock (f : Block → Block) (m : Nat) : (s.modBlock n f).group? m = s.group? m := by simp [group?]
@[simp] theorem group?_setCohort (v : Cohort) (m : Nat) : (s.setCohort n v).group? m = s.group? m := rfl
@[simp] theorem group?_modCohort (f : Cohort → Cohort) (m : Nat) : (s.modCohort n f).group? m = s.group? m := by simp [group?]
@[simp] theorem group?_setLaunch (v : Launch) (m : Nat) : (s.setLaunch n v).group? m = s.group? m := rfl
@[simp] theorem group?_modLaunch (f : Launch → Launch) (m : Nat) : (s.modLaunch n f).group? m = s.group? m := by simp [group?]
@[simp] theorem group?_setCore (v : Core) (m : Nat) : (s.setCore n v).group? m = s.group? m := rfl
@[simp] theorem group?_modCore (f : Core → Core) (m : Nat) : (s.modCore n f).group? m = s.group? m := by simp [group?]
@[simp] theorem group?_setCluster (v : Cluster) (m : Nat) : (s.setCluster n v).group? m = s.group? m := rfl
@[simp] theorem group?_modCluster (f : Cluster → Cluster) (m : Nat) : (s.modCluster n f).group? m = s.group? m := by simp [group?]
@[simp] theorem group?_setChiplet (v : Chiplet) (m : Nat) : (s.setChiplet n v).group? m = s.group? m := rfl
@[simp] theorem group?_modChiplet (f : Chiplet → Chiplet) (m : Nat) : (s.modChiplet n f).group? m = s.group? m := by simp [group?]
@[simp] theorem group?_setQueue (v : Queue) (m : Nat) : (s.setQueue n v).group? m = s.group? m := rfl
@[simp] theorem group?_modQueue (f : Queue → Queue) (m : Nat) : (s.modQueue n f).group? m = s.group? m := by simp [group?]
@[simp] theorem block?_setGroup (v : Group) (m : Nat) : (s.setGroup n v).block? m = s.block? m := rfl
@[simp] theorem block?_modGroup (f : Group → Group) (m : Nat) : (s.modGroup n f).block? m = s.block? m := by simp [block?]
@[simp] theorem block?_setCohort (v : Cohort) (m : Nat) : (s.setCohort n v).block? m = s.block? m := rfl
@[simp] theorem block?_modCohort (f : Cohort → Cohort) (m : Nat) : (s.modCohort n f).block? m = s.block? m := by simp [block?]
@[simp] theorem block?_setLaunch (v : Launch) (m : Nat) : (s.setLaunch n v).block? m = s.block? m := rfl
@[simp] theorem block?_modLaunch (f : Launch → Launch) (m : Nat) : (s.modLaunch n f).block? m = s.block? m := by simp [block?]
@[simp] theorem block?_setCore (v : Core) (m : Nat) : (s.setCore n v).block? m = s.block? m := rfl
@[simp] theorem block?_modCore (f : Core → Core) (m : Nat) : (s.modCore n f).block? m = s.block? m := by simp [block?]
@[simp] theorem block?_setCluster (v : Cluster) (m : Nat) : (s.setCluster n v).block? m = s.block? m := rfl
@[simp] theorem block?_modCluster (f : Cluster → Cluster) (m : Nat) : (s.modCluster n f).block? m = s.block? m := by simp [block?]
@[simp] theorem block?_setChiplet (v : Chiplet) (m : Nat) : (s.setChiplet n v).block? m = s.block? m := rfl
@[simp] theorem block?_modChiplet (f : Chiplet → Chiplet) (m : Nat) : (s.modChiplet n f).block? m = s.block? m := by simp [block?]
@[simp] theorem block?_setQueue (v : Queue) (m : Nat) : (s.setQueue n v).block? m = s.block? m := rfl
@[simp] theorem block?_modQueue (f : Queue → Queue) (m : Nat) : (s.modQueue n f).block? m = s.block? m := by simp [block?]
@[simp] theorem cohort?_setGroup (v : Group) (m : Nat) : (s.setGroup n v).cohort? m = s.cohort? m := rfl
@[simp] theorem cohort?_modGroup (f : Group → Group) (m : Nat) : (s.modGroup n f).cohort? m = s.cohort? m := by simp [cohort?]
@[simp] theorem cohort?_setBlock (v : Block) (m : Nat) : (s.setBlock n v).cohort? m = s.cohort? m := rfl
@[simp] theorem cohort?_modBlock (f : Block → Block) (m : Nat) : (s.modBlock n f).cohort? m = s.cohort? m := by simp [cohort?]
@[simp] theorem cohort?_setLaunch (v : Launch) (m : Nat) : (s.setLaunch n v).cohort? m = s.cohort? m := rfl
@[simp] theorem cohort?_modLaunch (f : Launch → Launch) (m : Nat) : (s.modLaunch n f).cohort? m = s.cohort? m := by simp [cohort?]
@[simp] theorem cohort?_setCore (v : Core) (m : Nat) : (s.setCore n v).cohort? m = s.cohort? m := rfl
@[simp] theorem cohort?_modCore (f : Core → Core) (m : Nat) : (s.modCore n f).cohort? m = s.cohort? m := by simp [cohort?]
@[simp] theorem cohort?_setCluster (v : Cluster) (m : Nat) : (s.setCluster n v).cohort? m = s.cohort? m := rfl
@[simp] theorem cohort?_modCluster (f : Cluster → Cluster) (m : Nat) : (s.modCluster n f).cohort? m = s.cohort? m := by simp [cohort?]
@[simp] theorem cohort?_setChiplet (v : Chiplet) (m : Nat) : (s.setChiplet n v).cohort? m = s.cohort? m := rfl
@[simp] theorem cohort?_modChiplet (f : Chiplet → Chiplet) (m : Nat) : (s.modChiplet n f).cohort? m = s.cohort? m := by simp [cohort?]
@[simp] theorem cohort?_setQueue (v : Queue) (m : Nat) : (s.setQueue n v).cohort? m = s.cohort? m := rfl
@[simp] theorem cohort?_modQueue (f : Queue → Queue) (m : Nat) : (s.modQueue n f).cohort? m = s.cohort? m := by simp [cohort?]
@[simp] theorem launch?_setGroup (v : Group) (m : Nat) : (s.setGroup n v).launch? m = s.launch? m := rfl
@[simp] theorem launch?_modGroup (f : Group → Group) (m : Nat) : (s.modGroup n f).launch? m = s.launch? m := by simp [launch?]
@[simp] theorem launch?_setBlock (v : Block) (m : Nat) : (s.setBlock n v).launch? m = s.launch? m := rfl
@[simp] theorem launch?_modBlock (f : Block → Block) (m : Nat) : (s.modBlock n f).launch? m = s.launch? m := by simp [launch?]
@[simp] theorem launch?_setCohort (v : Cohort) (m : Nat) : (s.setCohort n v).launch? m = s.launch? m := rfl
@[simp] theorem launch?_modCohort (f : Cohort → Cohort) (m : Nat) : (s.modCohort n f).launch? m = s.launch? m := by simp [launch?]
@[simp] theorem launch?_setCore (v : Core) (m : Nat) : (s.setCore n v).launch? m = s.launch? m := rfl
@[simp] theorem launch?_modCore (f : Core → Core) (m : Nat) : (s.modCore n f).launch? m = s.launch? m := by simp [launch?]
@[simp] theorem launch?_setCluster (v : Cluster) (m : Nat) : (s.setCluster n v).launch? m = s.launch? m := rfl
@[simp] theorem launch?_modCluster (f : Cluster → Cluster) (m : Nat) : (s.modCluster n f).launch? m = s.launch? m := by simp [launch?]
@[simp] theorem launch?_setChiplet (v : Chiplet) (m : Nat) : (s.setChiplet n v).launch? m = s.launch? m := rfl
@[simp] theorem launch?_modChiplet (f : Chiplet → Chiplet) (m : Nat) : (s.modChiplet n f).launch? m = s.launch? m := by simp [launch?]
@[simp] theorem launch?_setQueue (v : Queue) (m : Nat) : (s.setQueue n v).launch? m = s.launch? m := rfl
@[simp] theorem launch?_modQueue (f : Queue → Queue) (m : Nat) : (s.modQueue n f).launch? m = s.launch? m := by simp [launch?]
@[simp] theorem core_setGroup (v : Group) (m : Nat) : (s.setGroup n v).core m = s.core m := rfl
@[simp] theorem core_modGroup (f : Group → Group) (m : Nat) : (s.modGroup n f).core m = s.core m := by simp [core]
@[simp] theorem core_setBlock (v : Block) (m : Nat) : (s.setBlock n v).core m = s.core m := rfl
@[simp] theorem core_modBlock (f : Block → Block) (m : Nat) : (s.modBlock n f).core m = s.core m := by simp [core]
@[simp] theorem core_setCohort (v : Cohort) (m : Nat) : (s.setCohort n v).core m = s.core m := rfl
@[simp] theorem core_modCohort (f : Cohort → Cohort) (m : Nat) : (s.modCohort n f).core m = s.core m := by simp [core]
@[simp] theorem core_setLaunch (v : Launch) (m : Nat) : (s.setLaunch n v).core m = s.core m := rfl
@[simp] theorem core_modLaunch (f : Launch → Launch) (m : Nat) : (s.modLaunch n f).core m = s.core m := by simp [core]
@[simp] theorem core_setCluster (v : Cluster) (m : Nat) : (s.setCluster n v).core m = s.core m := rfl
@[simp] theorem core_modCluster (f : Cluster → Cluster) (m : Nat) : (s.modCluster n f).core m = s.core m := by simp [core]
@[simp] theorem core_setChiplet (v : Chiplet) (m : Nat) : (s.setChiplet n v).core m = s.core m := rfl
@[simp] theorem core_modChiplet (f : Chiplet → Chiplet) (m : Nat) : (s.modChiplet n f).core m = s.core m := by simp [core]
@[simp] theorem core_setQueue (v : Queue) (m : Nat) : (s.setQueue n v).core m = s.core m := rfl
@[simp] theorem core_modQueue (f : Queue → Queue) (m : Nat) : (s.modQueue n f).core m = s.core m := by simp [core]
@[simp] theorem cluster_setGroup (v : Group) (m : Nat) : (s.setGroup n v).cluster m = s.cluster m := rfl
@[simp] theorem cluster_modGroup (f : Group → Group) (m : Nat) : (s.modGroup n f).cluster m = s.cluster m := by simp [cluster]
@[simp] theorem cluster_setBlock (v : Block) (m : Nat) : (s.setBlock n v).cluster m = s.cluster m := rfl
@[simp] theorem cluster_modBlock (f : Block → Block) (m : Nat) : (s.modBlock n f).cluster m = s.cluster m := by simp [cluster]
@[simp] theorem cluster_setCohort (v : Cohort) (m : Nat) : (s.setCohort n v).cluster m = s.cluster m := rfl
@[simp] theorem cluster_modCohort (f : Cohort → Cohort) (m : Nat) : (s.modCohort n f).cluster m = s.cluster m := by simp [cluster]
@[simp] theorem cluster_setLaunch (v : Launch) (m : Nat) : (s.setLaunch n v).cluster m = s.cluster m := rfl
@[simp] theorem cluster_modLaunch (f : Launch → Launch) (m : Nat) : (s.modLaunch n f).cluster m = s.cluster m := by simp [cluster]
@[simp] theorem cluster_setCore (v : Core) (m : Nat) : (s.setCore n v).cluster m = s.cluster m := rfl
@[simp] theorem cluster_modCore (f : Core → Core) (m : Nat) : (s.modCore n f).cluster m = s.cluster m := by simp [cluster]
@[simp] theorem cluster_setChiplet (v : Chiplet) (m : Nat) : (s.setChiplet n v).cluster m = s.cluster m := rfl
@[simp] theorem cluster_modChiplet (f : Chiplet → Chiplet) (m : Nat) : (s.modChiplet n f).cluster m = s.cluster m := by simp [cluster]
@[simp] theorem cluster_setQueue (v : Queue) (m : Nat) : (s.setQueue n v).cluster m = s.cluster m := rfl
@[simp] theorem cluster_modQueue (f : Queue → Queue) (m : Nat) : (s.modQueue n f).cluster m = s.cluster m := by simp [cluster]
@[simp] theorem chiplet_setGroup (v : Group) (m : Nat) : (s.setGroup n v).chiplet m = s.chiplet m := rfl
@[simp] theorem chiplet_modGroup (f : Group → Group) (m : Nat) : (s.modGroup n f).chiplet m = s.chiplet m := by simp [chiplet]
@[simp] theorem chiplet_setBlock (v : Block) (m : Nat) : (s.setBlock n v).chiplet m = s.chiplet m := rfl
@[simp] theorem chiplet_modBlock (f : Block → Block) (m : Nat) : (s.modBlock n f).chiplet m = s.chiplet m := by simp [chiplet]
@[simp] theorem chiplet_setCohort (v : Cohort) (m : Nat) : (s.setCohort n v).chiplet m = s.chiplet m := rfl
@[simp] theorem chiplet_modCohort (f : Cohort → Cohort) (m : Nat) : (s.modCohort n f).chiplet m = s.chiplet m := by simp [chiplet]
@[simp] theorem chiplet_setLaunch (v : Launch) (m : Nat) : (s.setLaunch n v).chiplet m = s.chiplet m := rfl
@[simp] theorem chiplet_modLaunch (f : Launch → Launch) (m : Nat) : (s.modLaunch n f).chiplet m = s.chiplet m := by simp [chiplet]
@[simp] theorem chiplet_setCore (v : Core) (m : Nat) : (s.setCore n v).chiplet m = s.chiplet m := rfl
@[simp] theorem chiplet_modCore (f : Core → Core) (m : Nat) : (s.modCore n f).chiplet m = s.chiplet m := by simp [chiplet]
@[simp] theorem chiplet_setCluster (v : Cluster) (m : Nat) : (s.setCluster n v).chiplet m = s.chiplet m := rfl
@[simp] theorem chiplet_modCluster (f : Cluster → Cluster) (m : Nat) : (s.modCluster n f).chiplet m = s.chiplet m := by simp [chiplet]
@[simp] theorem chiplet_setQueue (v : Queue) (m : Nat) : (s.setQueue n v).chiplet m = s.chiplet m := rfl
@[simp] theorem chiplet_modQueue (f : Queue → Queue) (m : Nat) : (s.modQueue n f).chiplet m = s.chiplet m := by simp [chiplet]
@[simp] theorem queue_setGroup (v : Group) (m : Nat) : (s.setGroup n v).queue m = s.queue m := rfl
@[simp] theorem queue_modGroup (f : Group → Group) (m : Nat) : (s.modGroup n f).queue m = s.queue m := by simp [queue]
@[simp] theorem queue_setBlock (v : Block) (m : Nat) : (s.setBlock n v).queue m = s.queue m := rfl
@[simp] theorem queue_modBlock (f : Block → Block) (m : Nat) : (s.modBlock n f).queue m = s.queue m := by simp [queue]
@[simp] theorem queue_setCohort (v : Cohort) (m : Nat) : (s.setCohort n v).queue m = s.queue m := rfl
@[simp] theorem queue_modCohort (f : Cohort → Cohort) (m : Nat) : (s.modCohort n f).queue m = s.queue m := by simp [queue]
@[simp] theorem queue_setLaunch (v : Launch) (m : Nat) : (s.setLaunch n v).queue m = s.queue m := rfl
@[simp] theorem queue_modLaunch (f : Launch → Launch) (m : Nat) : (s.modLaunch n f).queue m = s.queue m := by simp [queue]
@[simp] theorem queue_setCore (v : Core) (m : Nat) : (s.setCore n v).queue m = s.queue m := rfl
@[simp] theorem queue_modCore (f : Core → Core) (m : Nat) : (s.modCore n f).queue m = s.queue m := by simp [queue]
@[simp] theorem queue_setCluster (v : Cluster) (m : Nat) : (s.setCluster n v).queue m = s.queue m := rfl
@[simp] theorem queue_modCluster (f : Cluster → Cluster) (m : Nat) : (s.modCluster n f).queue m = s.queue m := by simp [queue]
@[simp] theorem queue_setChiplet (v : Chiplet) (m : Nat) : (s.setChiplet n v).queue m = s.queue m := rfl
@[simp] theorem queue_modChiplet (f : Chiplet → Chiplet) (m : Nat) : (s.modChiplet n f).queue m = s.queue m := by simp [queue]

end State

end Sys2Proof.Machine
end

