-- ==== Sys2Proof/Laws/Frames.lean ====
section
/-! SUPPORT. What accesses leave alone: every operation of the caches, the TLBs and memory changes the memory system
only (OnlyMemory). -/

namespace Sys2Proof.Machine

namespace OnlyMemory

theorem refl (s : State) : OnlyMemory s s :=
  ⟨rfl, fun b => ⟨((s.block? b).map Block.scratch).getD [], ((s.block? b).map Block.hwm).getD 0, by
      cases s.block? b <;> rfl⟩, fun k => ⟨_, _, _, rfl⟩, fun k => ⟨_, rfl⟩, fun p => ⟨_, _, rfl⟩⟩

theorem trans {s t u : State} (h : OnlyMemory s t) (k : OnlyMemory t u) : OnlyMemory s u := by
  refine ⟨?_, fun b => ?_, fun c => ?_, fun c => ?_, fun p => ?_⟩
  · have e := k.rest
    rw [h.rest] at e
    exact e
  · obtain ⟨x, y, e⟩ := h.blocks b
    obtain ⟨x', y', e'⟩ := k.blocks b
    exact ⟨x', y', by rw [e', e]; cases s.block? b <;> rfl⟩
  · obtain ⟨x, y, z, e⟩ := h.cores c
    obtain ⟨x', y', z', e'⟩ := k.cores c
    exact ⟨x', y', z', by rw [e', e]⟩
  · obtain ⟨x, e⟩ := h.clusters c
    obtain ⟨x', e'⟩ := k.clusters c
    exact ⟨x', by rw [e', e]⟩
  · obtain ⟨x, y, e⟩ := h.chiplets p
    obtain ⟨x', y', e'⟩ := k.chiplets p
    exact ⟨x', y', by rw [e', e]⟩

/-- A fold of steps that each change the memory system only. -/
theorem foldl {α : Type} {f : State → α → State} (h : ∀ s x, OnlyMemory s (f s x)) (l : List α) :
    ∀ s, OnlyMemory s (l.foldl f s) := by
  induction l with
  | nil => exact refl
  | cons x t ih => intro s; exact (h s x).trans (ih _)

/-- The same with more carried along. -/
theorem foldl₂ {α β : Type} {f : State × β → α → State × β} (h : ∀ a x, OnlyMemory a.1 (f a x).1) (l : List α) :
    ∀ a, OnlyMemory a.1 (l.foldl f a).1 := by
  induction l with
  | nil => exact fun a => refl a.1
  | cons x t ih => intro a; exact (h a x).trans (ih _)

variable (s : State)

/-- Changes of memory, the LLCs, the sectors and lines that change owner, the channels and the records. -/
theorem fields (mem : List Host.Cell) (llc : List LlcLine) (sectors hostSectors hostLines : List Nat)
    (releasers : List (Nat × Nat)) (retirements : List Retirement) (bad : List Nat) (spares : List (Nat × Nat))
    (agenda : List Event) (errRing : Option ErrRing) (msix : List Nat) :
    OnlyMemory s { s with mem := mem, llc := llc, sectors := sectors, hostSectors := hostSectors, hostLines := hostLines
                          releasers := releasers, retirements := retirements, bad := bad
                          spares := spares, agenda := agenda, errRing := errRing, msix := msix } := by
  have h := refl s
  exact ⟨rfl, h.blocks, h.cores, h.clusters, h.chiplets⟩

theorem modCore (n : Nat) (f : Core → Core) (hf : ∀ c, ∃ a g b, f c = { c with l1 := a, filter := g, filterSat := b }) :
    OnlyMemory s (s.modCore n f) := by
  have h := refl s
  refine ⟨rfl, h.blocks, fun k => ?_, h.clusters, h.chiplets⟩
  by_cases hk : k = n
  · subst hk
    obtain ⟨a, g, b, e⟩ := hf (s.core k)
    exact ⟨a, g, b, by rw [← e]; exact tgetD_tset_same ..⟩
  · exact ⟨_, _, _, tgetD_tset_other _ _ _ _ _ hk⟩

theorem modCluster (n : Nat) (f : Cluster → Cluster) (hf : ∀ c, ∃ a, f c = { c with tlb := a }) :
    OnlyMemory s (s.modCluster n f) := by
  have h := refl s
  refine ⟨rfl, h.blocks, h.cores, fun k => ?_, h.chiplets⟩
  by_cases hk : k = n
  · subst hk
    obtain ⟨a, e⟩ := hf (s.cluster k)
    exact ⟨a, by rw [← e]; exact tgetD_tset_same ..⟩
  · exact ⟨_, tgetD_tset_other _ _ _ _ _ hk⟩

theorem modChiplet (n : Nat) (f : Chiplet → Chiplet) (hf : ∀ c, ∃ a b, f c = { c with tlb := a, l2 := b }) :
    OnlyMemory s (s.modChiplet n f) := by
  have h := refl s
  refine ⟨rfl, h.blocks, h.cores, h.clusters, fun k => ?_⟩
  by_cases hk : k = n
  · subst hk
    obtain ⟨a, b, e⟩ := hf (s.chiplet k)
    exact ⟨a, b, by rw [← e]; exact tgetD_tset_same ..⟩
  · exact ⟨_, _, tgetD_tset_other _ _ _ _ _ hk⟩

theorem modBlock (n : Nat) (f : Block → Block) (hf : ∀ c, ∃ a b, f c = { c with scratch := a, hwm := b }) :
    OnlyMemory s (s.modBlock n f) := by
  have h := refl s
  unfold State.modBlock
  split
  · rename_i x hx
    refine ⟨rfl, fun k => ?_, h.cores, h.clusters, h.chiplets⟩
    by_cases hk : k = n
    · subst hk
      obtain ⟨a, b, e⟩ := hf x
      refine ⟨a, b, ?_⟩
      rw [hx, Option.map_some, ← e]
      exact tget?_tput_same ..
    · obtain ⟨a, b, e⟩ := h.blocks k
      exact ⟨a, b, (tget?_tput_other _ _ _ _ hk).trans e⟩
  · exact h

end OnlyMemory

/-! ## Physical memory and the shared caches -/

namespace State

variable (s : State)

theorem only_modL2 (p l : Nat) (f : L2Line → L2Line) : OnlyMemory s (s.modL2 p l f) :=
  .modChiplet _ _ _ fun _ => ⟨_, _, rfl⟩

theorem only_memPut (a : Nat) (l : List Byte) : OnlyMemory s (s.memPut a l) := .fields s _ _ _ _ _ _ _ _ _ _ _ _

theorem only_storeLine (a : Nat) (m : BitVec 128) (d : BitVec 1024) : OnlyMemory s (s.storeLine a m d) := by
  unfold storeLine
  split
  · exact .refl s
  · exact .fields s _ _ _ _ _ _ _ _ _ _ _ _

theorem only_bad (l : List Nat) : OnlyMemory s { s with bad := l } := .fields s _ _ _ _ _ _ _ _ _ _ _ _

theorem only_spareLine (a : Nat) (m : BitVec 128) : OnlyMemory s (s.spareLine a m) := by
  have h := (only_bad s (s.bad.filter (· != a))).trans
    (only_storeLine _ a (~~~ (m ||| ({ s with bad := s.bad.filter (· != a) } : State).heldMask a)) 0)
  exact h.trans (.fields _ _ _ _ _ _ _ _ _ _ _ _ _)

theorem only_rawPutLine (a : Nat) (m : BitVec 128) (d : BitVec 1024) : OnlyMemory s (s.rawPutLine a m d) := by
  have h := only_storeLine s a m d
  unfold rawPutLine
  dsimp only
  split
  · exact h
  · split
    · exact h.trans (only_bad _ _)
    · exact h.trans (only_spareLine ..)

theorem only_mergeLine (p l : Nat) : OnlyMemory s (s.mergeLine p l) := by
  unfold mergeLine
  split
  · exact .refl s
  · split
    · exact .refl s
    · refine OnlyMemory.trans (OnlyMemory.foldl₂ (fun a x => ?_) _ (s, _)) (only_modL2 _ _ _ _)
      split
      · exact .refl _
      · split
        · exact .refl _
        · exact .modCore _ _ _ fun _ => ⟨_, _, _, rfl⟩

theorem only_dropL2 (p l : Nat) : OnlyMemory s (s.modChiplet p fun c => { c with l2 := l2Drop c.l2 l }) :=
  .modChiplet _ _ _ fun _ => ⟨_, _, rfl⟩

theorem only_llc (x : List LlcLine) : OnlyMemory s { s with llc := x } := .fields s _ _ _ _ _ _ _ _ _ _ _ _

theorem only_rawRecall (l : Nat) : OnlyMemory s (s.rawRecall l) := by
  unfold rawRecall
  dsimp only
  split
  · exact .refl s
  · let s1 := (s.l2Holders l).foldl (fun s p => s.mergeLine p l) s
    let d := (s.l2Holders l).filterMap fun p => s1.l2Line? p l
    let s2 := match llcGetLine s.llc l with
      | some x => s1.rawPutLine l x.dirty x.data
      | none => s1
    let s3 := d.foldl (fun s x => s.rawPutLine l x.dirty x.data) s2
    let s4 := (s.l2Holders l).foldl (fun s p => s.modChiplet p fun c => { c with l2 := l2Drop c.l2 l }) s3
    have h1 : OnlyMemory s s1 := .foldl (fun s p => only_mergeLine s p l) _ s
    have h2 : OnlyMemory s1 s2 := by
      show OnlyMemory s1 (match llcGetLine s.llc l with
        | some x => s1.rawPutLine l x.dirty x.data
        | none => s1)
      split
      · exact only_rawPutLine ..
      · exact .refl s1
    have h3 : OnlyMemory s2 s3 := .foldl (fun s x => only_rawPutLine s l x.dirty x.data) d s2
    have h4 : OnlyMemory s3 s4 := .foldl (fun s p => only_dropL2 s p l) _ s3
    exact (((h1.trans h2).trans h3).trans h4).trans (only_llc s4 _)

theorem only_snoopHost (a n : Nat) : OnlyMemory s (s.snoopHost a n) := by
  unfold snoopHost
  split
  · exact .fields s _ _ _ _ _ _ _ _ _ _ _ _
  · exact .refl s

theorem only_backInvalidate (l : Nat) : OnlyMemory s (s.backInvalidate l) := by
  unfold backInvalidate
  split
  · exact .fields s _ _ _ _ _ _ _ _ _ _ _ _
  · exact .refl s

theorem only_takeSectors (a n : Nat) : OnlyMemory s (s.takeSectors a n) := by
  unfold takeSectors
  split
  · refine .foldl (fun s x => ?_) _ s
    split
    · exact .refl s
    · exact (only_snoopHost s (64 * x) 64).trans (.fields _ _ _ _ _ _ _ _ _ _ _ _ _)
  · exact .refl s

theorem only_rawWrite (a : Nat) (l : List Byte) : OnlyMemory s (s.rawWrite a l) :=
  ((only_backInvalidate s _).trans (only_rawRecall ..)).trans (only_rawPutLine ..)

theorem only_postMsix (v : Nat) : OnlyMemory s (s.postMsix v) := .fields s _ _ _ _ _ _ _ _ _ _ _ _

theorem only_errRing (r : Option ErrRing) : OnlyMemory s { s with errRing := r } := .fields s _ _ _ _ _ _ _ _ _ _ _ _

theorem only_putRecord (a b c d e f : Nat) : OnlyMemory s (s.putRecord a b c d e f).1 := by
  unfold putRecord
  split
  · exact .refl s
  · exact ((only_rawWrite s _ _).trans (only_postMsix _ 0)).trans (only_errRing _ _)

theorem only_recordsOf (n : Nat) : ∀ (s : State) (l : Option Nat), OnlyMemory s (s.recordsOf n l) := by
  induction n with
  | zero => intro s l; cases l <;> exact .refl s
  | succ n ih =>
    intro s l
    cases l with
    | none => exact .refl s
    | some l => exact (only_putRecord ..).trans (ih _ _)

theorem only_postError (a b c d e f : Nat) : OnlyMemory s (s.postError a b c d e f) :=
  (only_putRecord ..).trans (only_recordsOf ..)

theorem only_retireLine (l : Nat) (m : BitVec 128) : OnlyMemory s (s.retireLine l m) :=
  (only_spareLine ..).trans (only_postError ..)

theorem only_memPutLine (a : Nat) (m : BitVec 128) (d : BitVec 1024) : OnlyMemory s (s.memPutLine a m d) := by
  have h := only_rawPutLine s a m d
  unfold memPutLine
  dsimp only
  split
  · exact h
  · exact h.trans (only_postError ..)

theorem only_memFetch (l : Nat) (m : BitVec 128) : OnlyMemory s (s.memFetch l m) := by
  unfold memFetch
  split
  · exact only_retireLine ..
  · exact .refl s

theorem only_llcWriteBack (x : LlcLine) : OnlyMemory s (s.llcWriteBack x) := only_memPutLine ..

theorem only_dropSectors (l : Nat) : OnlyMemory s (s.dropSectors l) := .fields s _ _ _ _ _ _ _ _ _ _ _ _

theorem only_snoopL2 (p l : Nat) (inv : Bool) : OnlyMemory s (s.snoopL2 p l inv).1 := by
  unfold snoopL2
  dsimp only
  split
  · exact only_mergeLine s p l
  · refine (only_mergeLine s p l).trans ?_
    dsimp only
    split
    · exact only_dropL2 ..
    · exact only_modL2 ..

theorem only_llcEvict (x : LlcLine) : OnlyMemory s (s.llcEvict x) := by
  let r := (s.l2Holders x.pline).foldl (fun (a : State × LlcLine) p =>
    let q := a.1.snoopL2 p x.pline true
    (q.1, { a.2 with dirty := a.2.dirty ||| q.2.1, data := overlay q.2.1 q.2.2 a.2.data })) (s, x)
  have h1 : OnlyMemory s r.1 := OnlyMemory.foldl₂ (f := fun (a : State × LlcLine) p =>
    let q := a.1.snoopL2 p x.pline true
    (q.1, { a.2 with dirty := a.2.dirty ||| q.2.1, data := overlay q.2.1 q.2.2 a.2.data }))
    (fun a p => only_snoopL2 a.1 p x.pline true) _ (s, x)
  have h2 := only_llc r.1 (r.1.llc.filter fun y => y.pline != x.pline)
  exact ((h1.trans h2).trans (only_llcWriteBack _ r.2)).trans (only_dropSectors ..)

theorem only_llcFetch (l : Nat) : OnlyMemory s (s.llcFetch l) := by
  unfold llcFetch
  split
  · exact only_llc ..
  · have h : OnlyMemory s (match s.llcVictim l with
      | some v => s.llcEvict v
      | none => s) := by
      split
      · exact only_llcEvict ..
      · exact .refl s
    exact (h.trans (only_memFetch _ l 0)).trans (only_llc _ _)

theorem only_llcPut (l : Nat) (m : BitVec 128) (d : BitVec 1024) : OnlyMemory s (s.llcPut l m d) := by
  unfold llcPut
  split
  · exact .refl s
  · exact (only_llcFetch s l).trans (only_llc _ _)

theorem only_snoopOthers (p l : Nat) (inv : Bool) : OnlyMemory s (s.snoopOthers p l inv) := by
  unfold snoopOthers
  refine .foldl (fun s q => ?_) _ s
  split
  · exact .refl s
  · split
    · exact .refl s
    · split
      · exact (only_snoopL2 s q l inv).trans (only_llcPut ..)
      · exact .refl s

theorem only_l2Evict (p l : Nat) : OnlyMemory s (s.l2Evict p l) := (only_snoopL2 s p l true).trans (only_llcPut ..)

theorem only_l2Fetch (p l : Nat) (k : Place) : OnlyMemory s (s.l2Fetch p l k) := by
  unfold l2Fetch
  split
  · exact .modChiplet s _ _ fun _ => ⟨_, _, rfl⟩
  · have h : OnlyMemory s (match s.l2Victim p l with
      | some v => s.l2Evict p v
      | none => s) := by
      split
      · exact only_l2Evict ..
      · exact .refl s
    have h2 := (h.trans (only_snoopOthers _ p l false)).trans (only_llcFetch _ l)
    exact h2.trans (.modChiplet _ p _ fun _ => ⟨_, _, rfl⟩)

theorem only_l2Own (p l : Nat) (k : Place) : OnlyMemory s (s.l2Own p l k) := by
  unfold l2Own
  dsimp only
  split
  · exact only_l2Fetch s p l k
  · split
    · exact only_l2Fetch s p l k
    · exact ((only_l2Fetch s p l k).trans (only_snoopOthers ..)).trans (only_modL2 ..)

theorem only_l2Write (p l : Nat) (m : BitVec 128) (d : BitVec 1024) (k : Place) : OnlyMemory s (s.l2Write p l m d k) := by
  unfold l2Write
  split
  · exact .refl s
  · exact (only_l2Own s p l k).trans (only_modL2 ..)

theorem only_recallHome (l : Nat) : OnlyMemory s (s.recallHome l) := by
  unfold recallHome
  dsimp only
  split
  · exact (only_snoopOthers s 9 l true).trans (only_llcEvict ..)
  · exact only_snoopOthers s 9 l true

theorem only_recallAll (l : Nat) : OnlyMemory s (s.recallAll l) := (only_snoopOthers s 9 l true).trans (only_llcFetch ..)

/-! ## Translation -/

theorem tget?_map {α β : Type} (f : α → β) (t : List (Nat × α)) (n : Nat) :
    tget? (t.map fun e => (e.1, f e.2)) n = (tget? t n).map f := by
  induction t with
  | nil => rfl
  | cons e t ih =>
    obtain ⟨k, v⟩ := e
    simp only [List.map_cons, tget?]
    split
    · rfl
    · exact ih

theorem only_dropTlb (p : TlbEntry → Bool) : OnlyMemory s (s.dropTlb p) := by
  have h := OnlyMemory.refl s
  refine ⟨rfl, h.blocks, h.cores, fun k => ?_, fun q => ?_⟩
  · unfold State.cluster dropTlb
    simp only [tgetD, tget?_map fun c : Cluster => { c with tlb := c.tlb.filter fun x => !p x }]
    cases tget? s.clusters k <;> exact ⟨_, rfl⟩
  · unfold State.chiplet dropTlb
    simp only [tgetD, tget?_map fun c : Chiplet => { c with tlb := c.tlb.filter fun x => !p x }]
    cases tget? s.chiplets q <;> exact ⟨_, _, rfl⟩

theorem only_l1Down (c : Nat) (x : L1Line) : OnlyMemory s (s.l1Down c x) := by
  unfold l1Down
  split
  · have h : OnlyMemory s (x.tags.foldl (fun s t => s.takeSectors t 64) s) := .foldl (fun s t => only_takeSectors s t 64) _ s
    exact (h.trans (only_backInvalidate ..)).trans (only_l2Write ..)
  · exact only_modL2 ..

theorem only_l1Out (c l : Nat) : OnlyMemory s (s.l1Out c l) := by
  unfold l1Out
  split
  · exact .refl s
  · rename_i x _
    have h := (OnlyMemory.modCore s c (fun k => { k with l1 := l1DropPhys k.l1 l }) fun _ => ⟨_, _, _, rfl⟩).trans
      (only_l1Down _ c x)
    dsimp only
    split
    · exact h
    · exact h.trans (only_modL2 ..)

theorem only_removeMatching (n : Nat) : ∀ (s : State) (p : TlbEntry → Bool), OnlyMemory s (s.removeMatching n p) := by
  induction n with
  | zero => exact fun s _ => .refl s
  | succ n ih =>
    intro s p
    unfold removeMatching
    split
    · exact .refl s
    · exact ((OnlyMemory.foldl (fun t (x : Nat × L1Line) => only_l1Out t x.1 x.2.pline) _ s).trans (only_dropTlb _ p)).trans (ih _ _)

theorem only_removeEntries (p : TlbEntry → Bool) : OnlyMemory s (s.removeEntries p) := only_removeMatching ..

theorem only_removeTagged (l : List Nat) : OnlyMemory s (s.removeTagged l) := by
  unfold removeTagged
  split
  · exact .refl s
  · exact only_removeEntries ..

theorem only_l1Evict (c l : Nat) : OnlyMemory s (s.l1Evict c l) := (only_l1Out ..).trans (only_removeTagged ..)

theorem only_l1EvictAll (c : Nat) (p : L1Line → Bool) : OnlyMemory s (s.l1EvictAll c p) :=
  .foldl (fun s (x : L1Line) => only_l1Evict s c x.pline) _ s

theorem only_l1Clean (c l : Nat) (m : BitVec 128) : OnlyMemory s (s.l1Clean c l m) := by
  unfold l1Clean
  split
  · exact .refl s
  · rename_i y _
    dsimp only
    split
    · exact .refl s
    · have h := (only_l1Down s c { y with dirty := y.dirty &&& m }).trans (.modCore _ c (fun k =>
        { k with l1 := k.l1.map fun z => if z.pline == l then { z with dirty := z.dirty &&& ~~~ m } else z })
        fun _ => ⟨_, _, _, rfl⟩)
      split
      · exact h.trans (only_removeTagged ..)
      · exact (h.trans (only_modL2 ..)).trans (only_removeTagged ..)

theorem only_pteWritten (a n : Nat) : OnlyMemory s (s.pteWritten a n) := only_removeEntries ..

theorem only_homeWrite (a : Nat) (l : List Byte) : OnlyMemory s (s.homeWrite a l) :=
  ((((only_pteWritten s a l.length).trans (only_snoopHost ..)).trans (only_backInvalidate ..)).trans
    (only_recallHome ..)).trans (only_memPutLine ..)

theorem only_evictEntry (k : Nat) (e : TlbEntry) : OnlyMemory s (s.evictEntry k e) := by
  have h : OnlyMemory s ((coresOf k).foldl (fun t c => t.l1EvictAll c fun l => e.ok && e.backs l) s) :=
    .foldl (fun t c => only_l1EvictAll t c _) _ s
  exact h.trans (.modCluster _ k (fun c => { c with tlb := c.tlb.filter fun x => x != e }) fun _ => ⟨_, rfl⟩)

theorem only_installCluster (k : Nat) (e : TlbEntry) : OnlyMemory s (s.installCluster k e) := by
  unfold installCluster
  dsimp only
  generalize h : List.foldl (fun s x => s.evictEntry k x) s _ = t
  have h : OnlyMemory s t := h ▸ .foldl (fun s x => only_evictEntry s k x) _ s
  refine h.trans ?_
  split
  · exact .modCluster _ _ _ fun _ => ⟨_, rfl⟩
  · split
    · exact (only_evictEntry ..).trans (.modCluster _ _ _ fun _ => ⟨_, rfl⟩)
    · exact .refl t

theorem only_installChip (p : Nat) (e : TlbEntry) : OnlyMemory s (s.installChip p e) :=
  .modChiplet _ _ _ fun _ => ⟨_, _, rfl⟩

theorem only_translate (core : Nat) (a : W64) (va : Nat) : OnlyMemory s (s.translate core a va).s := by
  unfold translate
  dsimp only
  split
  · exact .refl s
  · split
    · exact .refl s
    · split
      · exact only_installCluster ..
      · split
        · exact (only_installChip ..).trans (only_installCluster ..)
        · exact .refl s

/-! ## Accesses of a core -/

theorem only_noteWrite (c l : Nat) : OnlyMemory s (s.noteWrite c l) := .modCore _ _ _ fun _ => ⟨_, _, _, rfl⟩

theorem only_modL1 (c l : Nat) (f : L1Line → L1Line) : OnlyMemory s (s.modL1 c l f) := .modCore _ _ _ fun _ => ⟨_, _, _, rfl⟩

theorem only_l1Room (c : Nat) (e : TlbEntry) (va : Nat) : OnlyMemory s (s.l1Room c e va) := by
  unfold l1Room
  split
  · exact .refl s
  · split
    · exact only_l1Evict ..
    · exact .refl s

theorem only_l1Take (c : Nat) (e : TlbEntry) (asid va hint : Nat) : OnlyMemory s (s.l1Take c e asid va hint) :=
  .modCore _ _ _ fun _ => ⟨_, _, _, rfl⟩

theorem only_dirTurn (c l : Nat) (w : Bool) (x : BitVec 128) (y : L2Line) : OnlyMemory s (s.dirTurn c l w x y).1 := by
  unfold dirTurn
  split
  · exact .refl s
  · dsimp only
    split
    · exact (only_mergeLine s _ l).trans (.modCore _ _ _ fun _ => ⟨_, _, _, rfl⟩)
    · exact only_mergeLine s _ l

theorem only_dirNarrow (c l : Nat) (w : Bool) (x : BitVec 128) (d : DirState) : OnlyMemory s (s.dirNarrow c l w x d) := by
  unfold dirNarrow
  split
  · refine .foldl (fun s q => ?_) _ s
    split
    · exact .refl s
    · exact only_modL1 ..
  · exact .refl s

theorem only_dirRequest (c l : Nat) (w : Bool) (x : BitVec 128) (k : Place) : OnlyMemory s (s.dirRequest c l w x k) := by
  unfold dirRequest
  have h0 : OnlyMemory s (if w then s.l2Own (coreSlot c) l k else s.l2Fetch (coreSlot c) l k) := by
    split
    · exact only_l2Own ..
    · exact only_l2Fetch ..
  refine h0.trans ?_
  dsimp only
  generalize (if w = true then s.l2Own (coreSlot c) l k else s.l2Fetch (coreSlot c) l k) = t
  split
  · exact .refl t
  · rename_i y hy
    have h := ((only_dirTurn t c l w x y).trans (only_modL2 _ (coreSlot c) l fun z =>
      { z with dir := (t.dirTurn c l w x y).2 })).trans (only_dirNarrow _ c l w x (t.dirTurn c l w x y).2)
    split
    · exact h
    · exact h.trans (only_modL1 ..)

theorem only_beforeWrite (e : TlbEntry) (a n : Nat) : OnlyMemory s (s.beforeWrite e a n) := by
  have h := (only_pteWritten s a n).trans (only_backInvalidate _ (a / 128))
  unfold beforeWrite
  dsimp only
  split
  · exact h.trans (only_snoopHost ..)
  · exact h.trans (only_takeSectors ..)

theorem only_l1Flush (c l : Nat) : OnlyMemory s (s.l1Flush c l) := only_l1Evict ..

theorem only_mergeIfDirty (p l : Nat) (x : BitVec 128) : OnlyMemory s (s.mergeIfDirty p l x) := by
  unfold mergeIfDirty
  split
  · exact .refl s
  · dsimp only
    generalize x &&& _ = y
    by_cases h : y = 0
    · rw [if_pos h]; exact .refl s
    · rw [if_neg h]; exact only_mergeLine ..

theorem only_loadPast (c : Nat) (e : TlbEntry) (va n hint : Nat) : OnlyMemory s (s.loadPast c e va n hint).1 := by
  have h := (only_l1Flush s c (e.phys va / 128)).trans (only_l2Fetch _ (coreSlot c) (e.phys va / 128) (l2PlaceOf e.home hint))
  unfold loadPast
  dsimp only
  split
  · exact h
  · exact h.trans (only_mergeIfDirty ..)

theorem only_l1Fill (c : Nat) (e : TlbEntry) (va n hint : Nat) : OnlyMemory s (s.l1Fill c e va n hint) := by
  unfold l1Fill
  dsimp only
  split
  · have h := only_l2Fetch s (coreSlot c) (e.phys va / 128) (l2PlaceOf e.home hint)
    split
    · exact h.trans (only_modL1 ..)
    · exact h
  · exact only_dirRequest ..

theorem only_loadL1 (c : Nat) (e : TlbEntry) (asid va n hint : Nat) : OnlyMemory s (s.loadL1 c e asid va n hint).1 := by
  have h := only_l1Take s c e asid va hint
  unfold loadL1
  dsimp only
  split
  · exact h
  · exact h.trans (only_l1Fill ..)

theorem only_loadBytes (c : Nat) (e : TlbEntry) (asid va n hint : Nat) : OnlyMemory s (s.loadBytes c e asid va n hint).1 := by
  have h : OnlyMemory s (if e.home != 3 && !(decide (hint = 3) && e.home != 1) && s.l1Has c e va n then s
      else s.snoopHost (e.phys va) n) := by
    split
    · exact .refl s
    · exact only_snoopHost ..
  unfold loadBytes
  dsimp only
  split
  · exact .refl s
  · split
    · exact .refl s
    · generalize (if (e.home != 3 && !(decide (hint = 3) && e.home != 1) && s.l1Has c e va n) = true then s
        else s.snoopHost (e.phys va) n) = t at h ⊢
      split
      · exact h.trans (only_memFetch ..)
      · split
        · exact h.trans (only_loadPast ..)
        · split
          · exact (h.trans (only_l1Room ..)).trans (only_loadL1 ..)
          · exact (h.trans (only_l1Room ..)).trans (only_loadPast ..)

theorem only_dirPast (c l : Nat) (x : BitVec 128) : OnlyMemory s (s.dirPast c l x) := by
  unfold dirPast
  dsimp only
  split
  · exact .refl s
  · split
    · exact only_mergeLine ..
    · exact (only_dirNarrow ..).trans (only_modL2 ..)

theorem only_storePast (c : Nat) (e : TlbEntry) (va : Nat) (l : List Byte) (hint : Nat) :
    OnlyMemory s (s.storePast c e va l hint) := by
  have h := (only_l1Flush s c (e.phys va / 128)).trans (only_l2Own _ (coreSlot c) (e.phys va / 128) (l2PlaceOf e.home hint))
  unfold storePast
  dsimp only
  split
  · exact h.trans (only_l2Write ..)
  · exact (h.trans (only_dirPast ..)).trans (only_l2Write ..)

theorem only_storeL1 (c : Nat) (e : TlbEntry) (asid va : Nat) (l : List Byte) (hint : Nat) :
    OnlyMemory s (s.storeL1 c e asid va l hint) := by
  have h := only_l1Take s c e asid va hint
  unfold storeL1
  dsimp only
  split
  · exact h.trans (only_modL1 ..)
  · exact (h.trans (only_dirRequest ..)).trans (only_modL1 ..)

theorem only_storeBytes (c : Nat) (e : TlbEntry) (asid va : Nat) (l : List Byte) (hint : Nat) :
    OnlyMemory s (s.storeBytes c e asid va l hint) := by
  have h := only_beforeWrite s e (e.phys va) l.length
  unfold storeBytes
  dsimp only
  split
  · exact only_memPut ..
  · split
    · exact .refl s
    · split
      · exact h.trans (only_memPutLine ..)
      · have h2 : OnlyMemory s (if e.coh then (s.beforeWrite e (e.phys va) l.length).noteWrite c (e.phys va / 128)
            else s.beforeWrite e (e.phys va) l.length) := by
          split
          · exact h.trans (only_noteWrite ..)
          · exact h
        generalize (if e.coh = true then (s.beforeWrite e (e.phys va) l.length).noteWrite c (e.phys va / 128)
            else s.beforeWrite e (e.phys va) l.length) = t at h2 ⊢
        split
        · exact h2.trans (only_storePast ..)
        · split
          · exact (h2.trans (only_l1Room ..)).trans (only_storeL1 ..)
          · exact (h2.trans (only_l1Room ..)).trans (only_storePast ..)

theorem only_toHome (c : Nat) (e : TlbEntry) (va n : Nat) : OnlyMemory s (s.toHome c e va n) := by
  unfold toHome
  dsimp only
  split
  · exact .refl s
  · split
    · exact (only_snoopHost ..).trans (only_memFetch ..)
    · exact ((only_l1Evict ..).trans (only_recallAll ..)).trans (only_takeSectors ..)

theorem only_homePut (e : TlbEntry) (va : Nat) (l : List Byte) : OnlyMemory s (s.homePut e va l) := by
  have h := only_beforeWrite s e (e.phys va) l.length
  unfold homePut
  dsimp only
  split
  · exact only_memPut ..
  · split
    · exact .refl s
    · split
      · exact h.trans (only_memPutLine ..)
      · exact h.trans (only_llcPut ..)

theorem only_homeStore (c : Nat) (e : TlbEntry) (va : Nat) (l : List Byte) : OnlyMemory s (s.homeStore c e va l) := by
  unfold homeStore
  dsimp only
  split
  · exact (only_homePut ..).trans (only_noteWrite ..)
  · exact only_homePut ..

theorem only_cleanSelf (c : Nat) : OnlyMemory s (s.cleanSelf c) := .foldl (fun s _ => only_l1Clean s ..) _ s

theorem only_dropSelf (c : Nat) (p : Nat → Bool) : OnlyMemory s (s.dropSelf c p) := only_l1EvictAll ..

theorem only_scratchWrite (b o : Nat) (l : List Byte) : OnlyMemory s (s.scratchWrite b o l) :=
  (OnlyMemory.modBlock s b _ fun _ => ⟨_, _, rfl⟩).trans (.fields _ _ _ _ _ _ _ _ _ _ _ _ _)

/-! ## Checked accesses -/

theorem only_resolve (w : Who) (a n : Nat) (k : AccessKind) (acc : Accepts) : OnlyMemory s (s.resolve w a n k acc).s := by
  unfold resolve
  split
  · dsimp only
    split
    · exact .refl s
    · split
      · exact .refl s
      · split <;> exact .refl s
  · have h := only_translate s w.core w.aspace a
    split
    · rename_i e
      rw [e] at h
      exact .trans h (only_retireLine _ _ _)
    · rename_i e
      rw [e] at h
      exact h
    · rename_i e
      rw [e] at h
      split
      · exact h
      · split
        · exact h
        · split
          · split
            · exact h
            · split <;> exact h
          · exact h

end State

theorem only_resolveAll (w : Who) (k : AccessKind) (acc : Accepts) (l : List Want) :
    ∀ s : State, OnlyMemory s (resolveAll s w k acc l).1 := by
  induction l with
  | nil => exact .refl
  | cons x t ih => intro s; exact (State.only_resolve s w x.a x.n k acc).trans (ih _)

theorem only_checkResolved (s : State) (w : Who) (k : AccessKind) (l : List Want) (r : List (Want × Except Cause Target))
    (hint : Option Nat) : OnlyMemory s (checkResolved s w k l r hint).s := by
  unfold checkResolved
  dsimp only
  split
  · exact .refl s
  · split
    · exact State.only_retireLine ..
    · refine .foldl (fun t x => ?_) r s
      split
      · split
        · exact State.only_retireLine ..
        · exact .refl t
      · exact .refl t

/-- The checks of a word's accesses change the memory system only. -/
theorem only_checkAll (s : State) (w : Who) (k : AccessKind) (acc : Accepts) (l : List Want) (hint : Option Nat) :
    OnlyMemory s (checkAll s w k acc l hint).s := by
  unfold checkAll
  dsimp only
  split
  · exact .refl s
  · exact (only_resolveAll w k acc _ s).trans (only_checkResolved ..)

namespace State

variable (s : State)

theorem only_targetLoad (w : Who) (t : Target) (a n hint : Nat) : OnlyMemory s (s.targetLoad w t a n hint).1 := by
  cases t
  · exact .refl s
  · exact only_loadBytes ..

theorem only_targetStore (w : Who) (t : Target) (a : Nat) (l : List Byte) (hint : Nat) :
    OnlyMemory s (s.targetStore w t a l hint) := by
  cases t
  · exact only_scratchWrite ..
  · exact only_storeBytes ..

theorem only_targetRmw (w : Who) (t : Target) (a n : Nat) (f : List Byte → Option (List Byte)) :
    OnlyMemory s (s.targetRmw w t a n f).1 := by
  unfold targetRmw
  split
  · dsimp only
    split
    · exact only_scratchWrite ..
    · exact .refl s
  · dsimp only
    split
    · exact (only_toHome ..).trans (only_homeStore ..)
    · exact only_toHome ..

end State

/-- The loads of a word change the memory system only. -/
theorem only_loadLanes (u : Who) (n hint : Nat) (value : List Byte → List W32) (l : List (Nat × Nat × Option Target)) :
    ∀ s : State, OnlyMemory s (loadLanes u n hint value l s).1 := by
  induction l with
  | nil => exact .refl
  | cons x t ih =>
    intro s
    obtain ⟨i, a, o⟩ := x
    unfold loadLanes
    cases o with
    | none => exact ih s
    | some t => exact (State.only_targetLoad s u t a n hint).trans (ih _)

/-- The stores of a word change the memory system only. -/
theorem only_storeLanes (u : Who) (hint : Nat) (l : List (Nat × Option Target × List Byte)) (s : State) :
    OnlyMemory s (storeLanes u hint l s) := by
  refine .foldl (fun s e => ?_) l s
  split
  · exact State.only_targetStore ..
  · exact .refl s

end Sys2Proof.Machine
end

