-- ==== Sys2Proof/Laws/Registers.lean ====
section
/-! SUPPORT. Registers of a group: what a write to one register, to a destination and to the Active lanes leaves in
every register, and that it changes nothing else of the group. -/

namespace Sys2Proof.Machine

namespace Group

/-- A write to a register is read back there and nowhere else. -/
theorem reg_setReg (g : Group) {i j : Nat} (hi : i < 32) (hj : j < 32) (r q : Nat) (v : W32) :
    (g.setReg i r v).reg j q = if j = i ∧ q = r ∧ r < 124 then v else g.reg j q := by
  unfold setReg
  by_cases hr : r < 124
  · simp only [hr, if_true, reg, and_true]
    by_cases h : 32 * q + j = 32 * r + i
    · have h1 : q = r := by omega
      have h2 : j = i := by omega
      subst h1 h2
      simp
    · rw [tgetD_tset_other _ _ _ _ _ h, if_neg]
      rintro ⟨rfl, rfl⟩
      exact h rfl
  · simp [hr]

/-- A register write changes the registers only. -/
theorem setReg_eq (g : Group) (i r : Nat) (v : W32) : ∃ t, g.setReg i r v = { g with regs := t } := by
  unfold setReg
  split
  · exact ⟨_, rfl⟩
  · exact ⟨g.regs, rfl⟩

theorem writeAt_eq (g : Group) (i r k : Nat) (v : W32) : ∃ t, g.writeAt i r k v = { g with regs := t } := by
  unfold writeAt
  split
  · exact ⟨g.regs, rfl⟩
  · exact setReg_eq ..

theorem writeList_eq (i r : Nat) (l : List W32) :
    ∀ (g : Group) (k : Nat), ∃ t, g.writeList i r k l = { g with regs := t } := by
  induction l with
  | nil => intro g k; exact ⟨g.regs, rfl⟩
  | cons v t ih =>
    intro g k
    obtain ⟨a, ha⟩ := writeAt_eq g i r k v
    obtain ⟨b, hb⟩ := ih (g.writeAt i r k v) (k + 1)
    exact ⟨b, by rw [writeList, hb, ha]⟩

/-- Where the writes of an operand's registers from its k-th upward are read. -/
theorem reg_writeList {i j : Nat} (hi : i < 32) (hj : j < 32) (d q : Nat) (l : List W32) :
    ∀ (g : Group) (k : Nat), (g.writeList i d k l).reg j q =
      ((if j = i ∧ d ≠ 124 ∧ d + k ≤ q ∧ q < 124 then l[q - (d + k)]? else none).getD (g.reg j q)) := by
  induction l with
  | nil => intro g k; simp [writeList]
  | cons v t ih =>
    intro g k
    rw [writeList, ih, writeAt]
    by_cases hd : d = 124
    · simp [hd]
    · by_cases hji : j = i
      · subst hji
        simp only [hd, if_false, ne_eq, not_false_eq_true, true_and]
        rw [reg_setReg g hj hj]
        by_cases hq : q = d + k
        · subst hq
          have hk : ¬(k + 1 ≤ k) := by omega
          by_cases h : d + k < 124 <;> simp [h, hk]
        · by_cases h : d + k ≤ q ∧ q < 124
          · have h1 : d + (k + 1) ≤ q ∧ q < 124 := ⟨by omega, h.2⟩
            have h2 : q - (d + k) = (q - (d + (k + 1))) + 1 := by omega
            simp [h, h1, hq, h2]
          · have h1 : ¬(d + (k + 1) ≤ q ∧ q < 124) := fun hh => h ⟨by omega, hh.2⟩
            simp [h, h1, hq]
      · simp only [hji, false_and, if_false, Option.getD_none]
        rw [if_neg hd, reg_setReg g hi hj]
        simp [hji]

end Group

/-- What the Active lanes' writes leave, by the registers' own numbers (02 R25, R40, R41). -/
theorem reg_writeLanes {j : Nat} (hj : j < 32) (d : BitVec 7) (q : Nat) (f : Nat → List W32) (l : List Nat) :
    (∀ i ∈ l, i < 32) → l.Nodup → ∀ g : Group,
      (writeLanes g d (l.map fun i => (i, f i))).reg j q
        = ((if j ∈ l then resultReg d (f j) q else none).getD (g.reg j q)) := by
  have hd : (d.toNat ≠ 124) ↔ d ≠ 124 := by
    rw [ne_eq, ne_eq, ← BitVec.toNat_inj]
    simp
  induction l with
  | nil => intros; simp [writeLanes]
  | cons i t ih =>
    intro hl hn g
    obtain ⟨hit, hn⟩ := List.nodup_cons.1 hn
    have hi : i < 32 := hl i (by simp)
    show (writeLanes (g.writeList i d.toNat 0 (f i)) d (t.map fun i => (i, f i))).reg j q = _
    rw [ih (fun a ha => hl a (List.mem_cons_of_mem _ ha)) hn, Group.reg_writeList hi hj]
    by_cases hji : j = i
    · subst hji
      simp only [hit, if_false, Option.getD_none, true_and, List.mem_cons, true_or, if_true, resultReg, hd, Nat.add_zero]
      by_cases h1 : d = 124
      · simp [h1]
      · by_cases h2 : d.toNat ≤ q ∧ q < 124
        · rw [if_pos ⟨h1, h2⟩, if_neg (by rintro (h | h | h) <;> first | exact h1 h | omega)]
        · rw [if_neg fun h => h2 h.2, if_pos (Or.inr (by omega))]
    · have e : (j ∈ i :: t) = (j ∈ t) := by simp [hji]
      simp [hji, e]

/-- The Active lanes' writes change the registers only. -/
theorem writeLanes_eq (d : BitVec 7) (l : List (Nat × List W32)) :
    ∀ g : Group, ∃ t, writeLanes g d l = { g with regs := t } := by
  induction l with
  | nil => intro g; exact ⟨g.regs, rfl⟩
  | cons e t ih =>
    intro g
    obtain ⟨a, ha⟩ := Group.writeList_eq e.1 d.toNat e.2 g 0
    obtain ⟨b, hb⟩ := ih (g.writeList e.1 d.toNat 0 e.2)
    refine ⟨b, ?_⟩
    show writeLanes (g.writeList e.1 d.toNat 0 e.2) d t = _
    rw [hb, ha]

/-- Lanes of Active are lanes, each once. -/
theorem activeLanes_lt (g : Group) (ch : Nat) (sch : Sched) (set : List Nat) : ∀ i ∈ activeLanes g ch sch set, i < 32 := by
  intro i hi
  have := (List.mem_filter.1 hi).1
  simpa [lanes32] using this

theorem activeLanes_nodup (g : Group) (ch : Nat) (sch : Sched) (set : List Nat) : (activeLanes g ch sch set).Nodup :=
  List.nodup_range.filter _

/-- Active lanes are lanes of the issue set (02 R44). -/
theorem activeLanes_sub (g : Group) (ch : Nat) (sch : Sched) (set : List Nat) : ∀ i ∈ activeLanes g ch sch set, i ∈ set := by
  intro i hi
  have h := (List.mem_filter.1 hi).2
  simp only [Bool.and_eq_true, List.contains_iff_mem] at h
  exact h.1.1

end Sys2Proof.Machine
end

