-- ==== Sys2Proof/Laws/Issue.lean ====
section
/-! SUPPORT. The issue of a word: what runWord comes to where the word's checks pass and where they do not, and all
that the end of a word changes. -/

namespace Sys2Proof.Machine

/-! ## What is changed by steps that concern one group -/

/-- From `s` to `u` only tables of groups and cores change, there only one group and the issue slots of one core. -/
structure OneGroup (gid core : Nat) (s u : State) : Prop where
  rest : ∃ gs cs, u = { s with groups := gs, cores := cs }
  others : Others gid core s u

theorem OneGroup.refl (gid core : Nat) (s : State) : OneGroup gid core s s :=
  ⟨⟨s.groups, s.cores, rfl⟩, ⟨fun _ _ => rfl, fun _ _ => rfl, rfl⟩⟩

theorem Others.trans {gid core : Nat} {s t u : State} (h : Others gid core s t) (k : Others gid core t u) :
    Others gid core s u := by
  refine ⟨fun a ha => (k.groups a ha).trans (h.groups a ha), fun a ha => (k.cores a ha).trans (h.cores a ha), ?_⟩
  have e := k.own
  rw [h.own] at e
  exact e

theorem OneGroup.trans {gid core : Nat} {s t u : State} (h : OneGroup gid core s t) (k : OneGroup gid core t u) :
    OneGroup gid core s u := by
  refine ⟨?_, h.others.trans k.others⟩
  obtain ⟨a, b, rfl⟩ := h.rest
  obtain ⟨c, d, rfl⟩ := k.rest
  exact ⟨c, d, rfl⟩

theorem OneGroup.eq {gid core : Nat} {s u : State} (h : OneGroup gid core s u) :
    u = { s with groups := u.groups, cores := u.cores } := by
  obtain ⟨a, b, rfl⟩ := h.rest
  rfl

theorem oneGroup_setGroup (s : State) (gid core : Nat) (g : Group) : OneGroup gid core s (s.setGroup gid g) :=
  ⟨⟨_, _, rfl⟩, ⟨fun _ hh => tget?_tput_other _ _ _ _ hh, fun _ _ => rfl, rfl⟩⟩

theorem oneGroup_modGroup (s : State) (gid core : Nat) (f : Group → Group) : OneGroup gid core s (s.modGroup gid f) := by
  unfold State.modGroup
  split
  · exact oneGroup_setGroup ..
  · exact OneGroup.refl ..

theorem modGroup_eq {s : State} {n : Nat} {g : Group} (f : Group → Group) (h : s.group? n = some g) :
    s.modGroup n f = s.setGroup n (f g) := by
  unfold State.modGroup
  rw [h]

theorem coreOfGroup_setGroup {s : State} {n : Nat} {g : Group} {b : Block} (h : s.block? g.block = some b) :
    (s.setGroup n g).coreOfGroup n = b.core := by
  unfold State.coreOfGroup
  have e : (s.setGroup n g).group? n = some g := tget?_tput_same ..
  have e' : (s.setGroup n g).block? g.block = some b := h
  rw [e, Option.bind_some, e']
  rfl

theorem core_modCore_same (s : State) (n : Nat) (f : Core → Core) : (s.modCore n f).core n = f (s.core n) :=
  tgetD_tset_same ..

theorem core_modCore_other (s : State) (n m : Nat) (f : Core → Core) (h : m ≠ n) : (s.modCore n f).core m = s.core m :=
  tgetD_tset_other _ _ _ _ _ h

/-- A change of a core's issue slots and of its watchdog. -/
theorem oneGroup_modCore (s : State) (gid core : Nat) (f : Core → Core)
    (h : ∀ c, f c = { c with slots := (f c).slots, unissued := (f c).unissued }) : OneGroup gid core s (s.modCore core f) := by
  refine ⟨⟨_, _, rfl⟩, ⟨fun _ _ => rfl, fun k hk => core_modCore_other _ _ _ _ hk, ?_⟩⟩
  rw [core_modCore_same]
  exact h _

theorem oneGroup_freeSlot (s : State) (gid core : Nat) : OneGroup gid core s (s.freeSlot core gid) :=
  oneGroup_modCore s gid core _ fun _ => rfl

@[simp] theorem group?_freeSlot (s : State) (core gid h : Nat) : (s.freeSlot core gid).group? h = s.group? h := rfl

/-! ## Threads keep their PCs through meetings -/

/-- Only threads change, and none changes its PC. -/
def KeepsPc (g h : Group) : Prop := (∃ l, h = { g with lanes := l }) ∧ ∀ i, (h.lane i).pc = (g.lane i).pc

theorem KeepsPc.refl (g : Group) : KeepsPc g g := ⟨⟨g.lanes, rfl⟩, fun _ => rfl⟩

theorem KeepsPc.trans {g h k : Group} (a : KeepsPc g h) (b : KeepsPc h k) : KeepsPc g k := by
  refine ⟨?_, fun i => (b.2 i).trans (a.2 i)⟩
  obtain ⟨x, rfl⟩ := a.1
  obtain ⟨y, rfl⟩ := b.1
  exact ⟨y, rfl⟩

theorem KeepsPc.foldl {α : Type} {f : Group → α → Group} (h : ∀ g x, KeepsPc g (f g x)) (l : List α) :
    ∀ g, KeepsPc g (l.foldl f g) := by
  induction l with
  | nil => intro g; exact .refl g
  | cons x t ih => intro g; exact (h g x).trans (ih _)

/-- The thread of a lane after one thread is replaced. -/
theorem lane_setLane (g : Group) (i j : Nat) (t : Thread) :
    (g.setLane i t).lane j = if j = i ∧ i < g.lanes.length then t else g.lane j := by
  unfold Group.setLane Group.lane
  by_cases h : j = i
  · subst h
    by_cases hl : j < g.lanes.length
    · simp [hl]
    · simp [hl, List.getD]
  · have h' : i ≠ j := fun e => h e.symm
    simp [h, h', List.getD]

theorem keepsPc_setLane (g : Group) (i : Nat) (t : Thread) (h : t.pc = (g.lane i).pc) : KeepsPc g (g.setLane i t) := by
  refine ⟨⟨_, rfl⟩, fun j => ?_⟩
  rw [lane_setLane]
  split
  · rename_i e; rw [e.1, h]
  · rfl

theorem keepsPc_holdMet (g : Group) (l : List Nat) : KeepsPc g (g.holdMet l) := by
  unfold Group.holdMet
  split
  · exact .refl g
  · refine .foldl (fun g i => ?_) l g
    dsimp only
    split
    · exact keepsPc_setLane _ _ _ rfl
    · exact .refl g

theorem keepsPc_releaseMet (g : Group) : KeepsPc g g.releaseMet := by
  unfold Group.releaseMet
  split
  · exact .refl g
  · refine .foldl (fun g v => ?_) _ g
    dsimp only
    split
    · exact .foldl (fun g i => keepsPc_setLane g i { g.lane i with st := .live, meet := 0 } rfl) _ g
    · exact .refl g

theorem keepsPc_dropHelpers (g : Group) : KeepsPc g g.dropHelpers := by
  unfold Group.dropHelpers
  split
  · exact .refl g
  · refine .foldl (fun g i => ?_) _ g
    split
    · exact keepsPc_setLane _ _ _ rfl
    · exact .refl g

theorem live_lt (g : Group) (i : Nat) (h : (g.lane i).st = .live) : i < g.lanes.length := by
  refine Decidable.byContradiction fun hl => ?_
  rw [Group.lane, List.getD, List.getElem?_eq_none (by omega)] at h
  exact absurd h (by decide)

/-- Live lanes of a list get their new PC; the others, and everything else of the group, stay (02 R29). -/
theorem jump_lanes (target : Nat → W64) (i : Nat) (l : List Nat) : ∀ g : Group,
    let h := l.foldl (fun (g : Group) (i : Nat) =>
      let t := g.lane i
      if t.st == .live then g.setLane i { t with pc := target i, resume := none, served := false } else g) g
    (∃ x, h = { g with lanes := x }) ∧ (h.lane i).st = (g.lane i).st ∧
      (h.lane i).pc = if i ∈ l ∧ (g.lane i).st = .live then target i else (g.lane i).pc := by
  induction l with
  | nil => intro g; exact ⟨⟨g.lanes, rfl⟩, rfl, by simp⟩
  | cons a t ih =>
    intro g
    dsimp only
    rw [List.foldl_cons]
    by_cases hl : (g.lane a).st = .live
    · have hb : ((g.lane a).st == .live) = true := by rw [hl]; rfl
      rw [if_pos hb]
      obtain ⟨⟨x, hx⟩, hs, hp⟩ := ih (g.setLane a { g.lane a with pc := target a, resume := none, served := false })
      refine ⟨⟨x, by rw [hx]; rfl⟩, ?_, ?_⟩
      · rw [hs, lane_setLane]
        split
        · rename_i e; rw [e.1]
        · rfl
      · rw [hp, lane_setLane]
        by_cases hia : i = a
        · subst hia
          simp [live_lt g i hl, hl]
        · simp [hia]
    · have hb : ((g.lane a).st == .live) = false := by simpa using hl
      rw [if_neg (by simp [hb])]
      obtain ⟨hx, hs, hp⟩ := ih g
      refine ⟨hx, hs, ?_⟩
      rw [hp]
      by_cases hia : i = a
      · subst hia; simp [hl]
      · simp [hia]

/-! ## The end of a word -/

/-- The fields of a group that the end of a word may change. -/
theorem sameGroup_mk (g : Group) (regs : List (Nat × W32)) (lanes : List Thread) (run : Option Run) (blocked : Option Blocked)
    (saved hsaved : Option (W64 × Blocked)) (yieldTo : List Nat) (shedHold : Bool) :
    SameGroup g { g with regs := regs, lanes := lanes, run := run, blocked := blocked, saved := saved, hsaved := hsaved
                         yieldTo := yieldTo, shedHold := shedHold } := rfl

theorem sameGroup_iff {g h : Group} : SameGroup g h ↔ ∃ regs lanes run blocked saved hsaved yieldTo shedHold,
    h = { g with regs := regs, lanes := lanes, run := run, blocked := blocked, saved := saved, hsaved := hsaved
                 yieldTo := yieldTo, shedHold := shedHold } := by
  constructor
  · intro e; exact ⟨_, _, _, _, _, _, _, _, e⟩
  · rintro ⟨_, _, _, _, _, _, _, _, rfl⟩; rfl

theorem SameGroup.trans {g h k : Group} (a : SameGroup g h) (b : SameGroup h k) : SameGroup g k := by
  rw [sameGroup_iff] at *
  obtain ⟨_, _, _, _, _, _, _, _, rfl⟩ := a
  obtain ⟨_, _, _, _, _, _, _, _, rfl⟩ := b
  exact ⟨_, _, _, _, _, _, _, _, rfl⟩

theorem setKept_eq (g : Group) (x : Option (W64 × Blocked)) : ∃ a b, g.setKept x = { g with saved := a, hsaved := b } := by
  unfold Group.setKept
  split
  · exact ⟨g.saved, x, rfl⟩
  · exact ⟨x, g.hsaved, rfl⟩

/-- All that the end of a clause changes (02 R29, 04 R112, R113). -/
theorem endClause_spec (s : State) (gid : Nat) (jumps : List (Nat × W64)) {g : Group} {r : Run}
    (hg : s.group? gid = some g) (hr : g.run = some r) :
    OneGroup gid (s.coreOfGroup gid) s (s.endClause gid jumps) ∧
    ∃ h, (s.endClause gid jumps).group? gid = some h ∧ SameGroup g h ∧ h.regs = g.regs ∧ h.run = none ∧ h.blocked = none ∧
      ∀ i, (h.lane i).pc = if i ∈ r.set ∧ (g.lane i).st = .live then (tget? jumps i).getD (nextClause r.caddr r.header)
        else (g.lane i).pc := by
  let core := s.coreOfGroup gid
  let next := nextClause r.caddr r.header
  let step (g : Group) (i : Nat) : Group :=
    let t := g.lane i
    if t.st == .live then g.setLane i { t with pc := (tget? jumps i).getD next, resume := none, served := false } else g
  let g1 := ((r.set.foldl step g).holdMet r.set).releaseMet.dropHelpers
  let g2 := ({ g1 with run := none, blocked := none, shedHold := g1.shedHold || (g1.holdNext && !g1.handler) } : Group).setKept
    (g1.unsaved r)
  let s1 := (s.freeSlot core gid).setGroup gid g2
  have hs : s.endClause gid jumps =
      if r.yh || r.yielded then s1.modGroup gid fun x => { x with yieldTo := s1.yieldList gid g1 core r.yielded } else s1 := by
    unfold State.endClause
    rw [hg]
    dsimp only
    rw [hr]
  have t1 : OneGroup gid core s s1 := (oneGroup_freeSlot s gid core).trans (oneGroup_setGroup _ gid core _)
  have k1 := ((keepsPc_holdMet (r.set.foldl step g) r.set).trans (keepsPc_releaseMet _)).trans (keepsPc_dropHelpers _)
  have hl : ∃ l, g1 = { g with lanes := l } := by
    obtain ⟨l, hl⟩ := k1.1
    obtain ⟨m, hm⟩ := (jump_lanes (fun i => (tget? jumps i).getD next) 0 r.set g).1
    exact ⟨l, by rw [show g1 = _ from hl, show r.set.foldl step g = _ from hm]⟩
  have hp : ∀ i, (g1.lane i).pc = if i ∈ r.set ∧ (g.lane i).st = .live then (tget? jumps i).getD next else (g.lane i).pc :=
    fun i => (k1.2 i).trans (jump_lanes (fun i => (tget? jumps i).getD next) i r.set g).2.2
  have g2eq : ∃ l a b sh, g2 = { g with lanes := l, run := none, blocked := none, saved := a, hsaved := b, shedHold := sh }
      ∧ l = g1.lanes := by
    obtain ⟨l, hl⟩ := hl
    obtain ⟨a, b, hab⟩ := setKept_eq ({ g1 with run := none, blocked := none
                                                shedHold := g1.shedHold || (g1.holdNext && !g1.handler) } : Group) (g1.unsaved r)
    refine ⟨l, a, b, g1.shedHold || (g1.holdNext && !g1.handler), ?_, by rw [hl]⟩
    show Group.setKept _ _ = _
    rw [hab, hl]
  obtain ⟨l, a, b, sh, hg2, hll⟩ := g2eq
  have lane2 : ∀ i, g2.lane i = g1.lane i := fun i => by rw [hg2]; simp [Group.lane, hll]
  have get1 : s1.group? gid = some g2 := tget?_tput_same ..
  rw [hs]
  split
  · refine ⟨t1.trans (oneGroup_modGroup ..), ?_⟩
    have : (s1.modGroup gid fun x => { x with yieldTo := s1.yieldList gid g1 core r.yielded }).group? gid
        = some { g2 with yieldTo := s1.yieldList gid g1 core r.yielded } := by
      unfold State.modGroup
      rw [get1]
      exact tget?_tput_same ..
    refine ⟨_, this, ?_, ?_, ?_, ?_, fun i => ?_⟩
    · rw [hg2]; exact rfl
    · rw [hg2]
    · rw [hg2]
    · rw [hg2]
    · rw [← hp i, ← lane2 i]; rfl
  · refine ⟨t1, g2, get1, ?_, ?_, ?_, ?_, fun i => by rw [← hp i, ← lane2 i]⟩
    · rw [hg2]; exact rfl
    · rw [hg2]
    · rw [hg2]
    · rw [hg2]

/-- All that the end of a word changes: its group's place, and the slot where its clause ends or is held. -/
theorem advance_spec (s : State) (gid : Nat) (jumps : List (Nat × W64)) {g : Group} {r : Run}
    (hg : s.group? gid = some g) (hr : g.run = some r) :
    OneGroup gid (s.coreOfGroup gid) s (s.advance gid jumps) ∧
    ∃ h, (s.advance gid jumps).group? gid = some h ∧ SameGroup g h ∧ h.regs = g.regs ∧ WentOn g r jumps h := by
  by_cases hlt : r.idx + 1 < r.words.length
  · unfold State.advance
    rw [hg]
    dsimp only
    rw [hr]
    dsimp only
    rw [if_pos hlt]
    refine ⟨?_, ?_⟩
    · split
      · exact (oneGroup_freeSlot ..).trans (oneGroup_setGroup ..)
      · exact oneGroup_setGroup ..
    · refine ⟨_, tget?_tput_same .., ?_⟩
      obtain ⟨a, b, hab⟩ := setKept_eq { g with
        blocked := if g.shut || ((s.core (s.coreOfGroup gid)).slots.getD g.islot ⟨none, 0, []⟩).cur != some gid
          then some .slot else none
        run := some { r with
          idx := r.idx + 1, asked := [], served := false
          since := max (s.cluster (clusterOf (s.coreOfGroup gid))).cycles
            ((s.core (s.coreOfGroup gid)).slots.getD g.islot ⟨none, 0, []⟩).freeAt
          passes := if ((s.core (s.coreOfGroup gid)).slots.getD g.islot ⟨none, 0, []⟩).freeAt ≤
              (s.cluster (clusterOf (s.coreOfGroup gid))).cycles
            then some (passCount (s.cluster (clusterOf (s.coreOfGroup gid)))) else none } } (g.unsaved r)
      rw [hab]
      refine ⟨rfl, rfl, ?_⟩
      unfold WentOn
      rw [if_pos hlt]
      exact ⟨rfl, _, rfl, rfl, rfl, rfl, rfl, rfl⟩
  · have e : s.advance gid jumps = s.endClause gid jumps := by
      unfold State.advance
      rw [hg]
      dsimp only
      rw [hr]
      dsimp only
      rw [if_neg hlt]
    rw [e]
    obtain ⟨ht, h, h1, h2, h3, h4, h5, h6⟩ := endClause_spec s gid jumps hg hr
    refine ⟨ht, h, h1, h2, h3, ?_⟩
    unfold WentOn
    rw [if_neg hlt]
    exact ⟨h4, h5, h6⟩

/-! ## The issue -/

theorem owner?_group {s : State} {gid : Nat} {o : Owner} (h : s.owner? gid = some o) :
    s.group? gid = some o.g ∧ s.block? o.g.block = some o.b ∧ s.cohort? o.b.cohort = some o.c ∧
      s.launch? o.c.launch = some o.l := by
  unfold State.owner? at h
  simp only [Option.bind_eq_bind, Option.bind_eq_some_iff] at h
  obtain ⟨g, hg, b, hb, c, hc, l, hl, e⟩ := h
  cases e
  exact ⟨hg, hb, hc, hl⟩

theorem atIssue_spec {s : State} {gid : Nat} {o : Owner} {r : Run} (h : atIssue s = some (gid, o, r)) :
    s.issuing = some gid ∧ s.owner? gid = some o ∧ o.g.run = some r := by
  unfold atIssue at h
  simp only [Option.bind_eq_bind, Option.bind_eq_some_iff] at h
  obtain ⟨a, ha, b, hb, c, hc, e⟩ := h
  simp only [Option.some.injEq, Prod.mk.injEq] at e
  obtain ⟨rfl, rfl, rfl⟩ := e
  exact ⟨ha, hb, hc⟩

/-- The words of an issuing group: what the context and the state at the start of the effect are. -/
theorem issueOf_spec {i : Instr} {s t : State} {c : Ctx} (h : issueOf i s = some (c, t)) :
    ∃ r, s.issuing = some c.gid ∧ s.owner? c.gid = some c.o ∧ c.o.g.run = some r ∧
      c = ctxOf i s c.gid c.o r ∧ t = issued i s c.gid c.o r ∧ instrFault i (t.envOf c.o r.header r.idx) = none := by
  unfold issueOf at h
  split at h
  · cases h
  · rename_i gid o r ha
    obtain ⟨h1, h2, h3⟩ := atIssue_spec ha
    split at h
    · cases h
    · rename_i hf
      simp only [Option.some.injEq, Prod.mk.injEq] at h
      obtain ⟨rfl, rfl⟩ := h
      exact ⟨r, h1, h2, h3, rfl, rfl, hf⟩

/-- A word whose checks pass has its effect, and what follows it. -/
theorem runWord_issueOf {i : Instr} {s t : State} {c : Ctx} (h : issueOf i s = some (c, t)) (body : Ctx → State → WordOut) :
    runWord i body s = .next (State.finishWord c.gid c.core (body c t)) := by
  obtain ⟨r, h1, h2, h3, hc, ht, hf⟩ := issueOf_spec h
  unfold runWord
  rw [h1]
  dsimp only
  rw [h2]
  dsimp only
  rw [h3]
  dsimp only
  rw [ht] at hf
  unfold issued schedOf at hf
  rw [hf]
  dsimp only
  have hch : (issued i s c.gid c.o r).choice = s.choice := by
    unfold issued State.occupy
    rw [State.modGroup_choice]
    rfl
  let act := activeLanes c.o.g (issued i s c.gid c.o r).choice (schedOf i) r.set
  have hctx : (⟨c.gid, c.o, { r with yh := r.yh || (schedOf i).yh == 1 }, schedOf i, act,
      act.filter fun j => c.o.g.handler || (c.o.g.lane j).st != .helper, (issued i s c.gid c.o r).choice⟩ : Ctx) = c := by
    show (⟨_, _, _, _, activeLanes c.o.g (issued i s c.gid c.o r).choice (schedOf i) r.set, _, _⟩ : Ctx) = c
    simp only [act]
    rw [hch]
    exact hc.symm
  show Host.Outcome.next (State.finishWord c.gid c.o.b.core (body ⟨c.gid, c.o, { r with yh := r.yh || (schedOf i).yh == 1 },
    schedOf i, act, act.filter fun j => c.o.g.handler || (c.o.g.lane j).st != .helper, (issued i s c.gid c.o r).choice⟩
    (issued i s c.gid c.o r))) = _
  rw [hctx, ← ht]
  rfl

/-- A word that breaks a rule of its checks traps at itself (02 R31, 17 R450). -/
theorem runWord_issueFault {i : Instr} {s : State} {x : Cause} {gid : Nat} {o : Owner} {r : Run}
    (h : issueFault i s = some (x, gid, o, r)) (body : Ctx → State → WordOut) :
    runWord i body s = .next ((issued i s gid o r).trapWord gid x (State.atWord r)) := by
  unfold issueFault at h
  split at h
  · cases h
  · rename_i gid' o' r' ha
    obtain ⟨h1, h2, h3⟩ := atIssue_spec ha
    simp only [Option.map_eq_some_iff, Prod.mk.injEq] at h
    obtain ⟨y, hf, rfl, rfl, rfl, rfl⟩ := h
    unfold runWord
    rw [h1]
    dsimp only
    rw [h2]
    dsimp only
    rw [h3]
    dsimp only
    unfold issued schedOf at hf
    rw [hf]
    rfl

/-- What the start of a word's effect has changed. -/
theorem issued_spec (i : Instr) (s : State) {gid : Nat} {o : Owner} {r : Run} (h : s.owner? gid = some o) :
    OneGroup gid o.b.core { s with issuing := none } (issued i s gid o r) ∧
    (issued i s gid o r).group? gid = some { o.g with run := some { r with yh := r.yh || (schedOf i).yh == 1 } } ∧
    (issued i s gid o r).coreOfGroup gid = o.b.core := by
  obtain ⟨hg, hb, -, -⟩ := owner?_group h
  have e : issued i s gid o r = (({ s with issuing := none } : State).modCore o.b.core fun c =>
      { c with slots := c.slots.modify o.g.islot fun x =>
                 { x with freeAt := (s.cluster (clusterOf o.b.core)).cycles +
                                      State.issueCost (opcodeOf i) (passCount (s.cluster (clusterOf o.b.core))) }
               unissued := 0 }).setGroup gid { o.g with run := some { r with yh := r.yh || (schedOf i).yh == 1 } } := by
    unfold issued State.occupy
    exact modGroup_eq _ hg
  rw [e]
  refine ⟨(oneGroup_modCore _ gid _ _ fun _ => rfl).trans (oneGroup_setGroup ..), tget?_tput_same .., ?_⟩
  exact coreOfGroup_setGroup (s := ({ s with issuing := none } : State).modCore o.b.core _) hb

/-- The group, the core and the frame of a word whose checks pass, at the start of its effect. -/
theorem issueOf_start {i : Instr} {s t : State} {c : Ctx} (h : issueOf i s = some (c, t)) :
    OneGroup c.gid c.core { s with issuing := none } t ∧ t.group? c.gid = some { c.o.g with run := some c.r } ∧
      t.coreOfGroup c.gid = c.core := by
  obtain ⟨r, h1, h2, h3, hc, ht, -⟩ := issueOf_spec h
  have e := issued_spec i s (r := r) h2
  rw [← ht] at e
  have er : c.r = { r with yh := r.yh || (schedOf i).yh == 1 } := congrArg Ctx.r hc
  rw [er]
  exact e

/-- Active lanes are lanes of the issue set, each once. -/
theorem issueOf_act {i : Instr} {s t : State} {c : Ctx} (h : issueOf i s = some (c, t)) :
    (∀ j ∈ c.act, j < 32) ∧ c.act.Nodup ∧ ∀ j ∈ c.act, j ∈ c.r.set := by
  obtain ⟨r, -, -, -, hc, -, -⟩ := issueOf_spec h
  have ea : c.act = activeLanes c.o.g s.choice (schedOf i) r.set := congrArg Ctx.act hc
  have er : c.r.set = r.set := congrArg (fun c => Run.set (Ctx.r c)) hc
  rw [ea, er]
  exact ⟨activeLanes_lt _ _ _ _, activeLanes_nodup _ _ _ _, activeLanes_sub _ _ _ _⟩

/-- A state that agrees with the start of a word's effect on the groups, the blocks and the core's place. -/
structure SamePlace (c : Ctx) (t b : State) : Prop where
  group : b.group? c.gid = t.group? c.gid
  block : b.block? c.o.g.block = t.block? c.o.g.block ∨ (b.block? c.o.g.block).map Block.core = (t.block? c.o.g.block).map Block.core

theorem SamePlace.core {i : Instr} {s t b : State} {c : Ctx} (h : issueOf i s = some (c, t)) (k : SamePlace c t b) :
    b.group? c.gid = some { c.o.g with run := some c.r } ∧ b.coreOfGroup c.gid = c.core := by
  obtain ⟨-, hg, hc⟩ := issueOf_start h
  have e : b.group? c.gid = some { c.o.g with run := some c.r } := k.group.trans hg
  refine ⟨e, ?_⟩
  rw [← hc]
  unfold State.coreOfGroup
  rw [e, hg]
  simp only [Option.bind_some]
  rcases k.block with h | h
  · rw [h]
  · rw [h]

/-- A word that moves on from a state in which its group has other registers only: all that it changes (02 R25, R29). -/
theorem done_spec {b : State} {c : Ctx} {x : List (Nat × W32)} (jumps : List (Nat × W64))
    (hg : b.group? c.gid = some { c.o.g with regs := x, run := some c.r }) (hcore : b.coreOfGroup c.gid = c.core) :
    OneGroup c.gid c.core b (b.advance c.gid jumps) ∧
      ∃ g, (b.advance c.gid jumps).group? c.gid = some g ∧ SameGroup c.o.g g ∧ WentOn c.o.g c.r jumps g ∧ g.regs = x := by
  obtain ⟨ha, g, h1, h2, h3, h4⟩ := advance_spec b c.gid jumps hg rfl
  rw [hcore] at ha
  exact ⟨ha, g, h1, SameGroup.trans (h := { c.o.g with regs := x, run := some c.r }) rfl h2, h4, h3⟩

theorem samePlace_refl (c : Ctx) (t : State) : SamePlace c t t := ⟨rfl, .inl rfl⟩

/-- Register writes in the Active lanes and a move: the whole effect, from the state the word's own effect has come
to. -/
theorem wroteFrom_writeLanes {i : Instr} {s t b : State} {c : Ctx} (h : issueOf i s = some (c, t)) (hb : SamePlace c t b)
    (jumps : List (Nat × W64)) (d : BitVec 7) (f : Nat → List W32) :
    WroteFrom c b ((b.modGroup c.gid fun g => writeLanes g d (c.act.map fun i => (i, f i))).advance c.gid jumps) jumps d f := by
  obtain ⟨ha, hn, -⟩ := issueOf_act h
  obtain ⟨hg, hcore⟩ := hb.core h
  obtain ⟨x, hx⟩ := writeLanes_eq d (c.act.map fun i => (i, f i)) { c.o.g with run := some c.r }
  have e : b.modGroup c.gid (fun g => writeLanes g d (c.act.map fun i => (i, f i)))
      = b.setGroup c.gid { c.o.g with regs := x, run := some c.r } := by
    rw [modGroup_eq _ hg, hx]
  have hcore' : (b.setGroup c.gid { c.o.g with regs := x, run := some c.r }).coreOfGroup c.gid = c.core := by
    rw [← hcore]
    unfold State.coreOfGroup
    rw [hg, State.group?_setGroup]
    rfl
  rw [e]
  obtain ⟨h1, g, h3, h4, h5, h6⟩ := done_spec jumps (State.group?_setGroup ..) hcore'
  have hall := (oneGroup_setGroup b c.gid c.core { c.o.g with regs := x, run := some c.r }).trans h1
  refine ⟨hall.eq, hall.others, g, h3, h4, h5, fun j hj r => ?_⟩
  have e : g.reg j r = (writeLanes { c.o.g with run := some c.r } d (c.act.map fun i => (i, f i))).reg j r := by
    rw [hx]
    exact congrArg (fun x => tgetD 0 x (32 * r + j)) h6
  rw [e, reg_writeLanes hj d r f c.act ha hn]
  rfl

/-- A move alone. -/
theorem wroteFrom_advance {i : Instr} {s t b : State} {c : Ctx} (h : issueOf i s = some (c, t)) (hb : SamePlace c t b)
    (jumps : List (Nat × W64)) (d : BitVec 7) : WroteFrom c b (b.advance c.gid jumps) jumps d fun _ => [] := by
  obtain ⟨hg, hcore⟩ := hb.core h
  obtain ⟨h1, g, h3, h4, h5, h6⟩ := done_spec (x := c.o.g.regs) jumps hg hcore
  refine ⟨h1.eq, h1.others, g, h3, h4, h5, fun j hj r => ?_⟩
  have e : g.reg j r = c.o.g.reg j r := congrArg (fun x => tgetD 0 x (32 * r + j)) h6
  have e2 : resultReg d [] r = none := by unfold resultReg; split <;> rfl
  rw [e, e2]
  simp

/-- The start of a word's effect differs from the state at its issue in the group and its core only. -/
theorem WroteFrom.ofIssued {i : Instr} {s t u : State} {c : Ctx} (h : issueOf i s = some (c, t)) {jumps : List (Nat × W64)}
    {d : BitVec 7} {f : Nat → List W32} (k : WroteFrom c t u jumps d f) :
    WroteFrom c { s with issuing := none } u jumps d f := by
  obtain ⟨h0, -, -⟩ := issueOf_start h
  refine ⟨?_, h0.others.trans k.others, k.group⟩
  have e := k.rest
  rw [h0.eq] at e
  exact e

/-- A word with a short-latency effect completes. -/
theorem runWord_write {i : Instr} {s t : State} {c : Ctx} (h : issueOf i s = some (c, t)) (body : Ctx → State → WordOut)
    (d : BitVec 7) (f : Nat → List W32) (hb : body c t = c.write t d f) :
    ∃ u, runWord i body s = .next u ∧ WroteFrom c { s with issuing := none } u [] d f := by
  refine ⟨_, runWord_issueOf h body, ?_⟩
  rw [hb]
  exact (wroteFrom_writeLanes h (samePlace_refl c t) [] d f).ofIssued h

/-- An operation made outstanding, and the word done. -/
theorem startedFrom_addOp {i : Instr} {s t b : State} {c : Ctx} (h : issueOf i s = some (c, t)) (hb : SamePlace c t b)
    (kind : OpKind) (d : BitVec 7) (l : List (Nat × Option W32)) :
    StartedFrom c b ((b.addOp (c.op kind d) l).advance c.gid []) kind d l := by
  obtain ⟨hg, hcore⟩ := hb.core h
  let g0 : Group := { c.o.g with run := some c.r }
  let g1 : Group := { g0 with
    flags := raised c.flag c.o.g.flags
    pending := c.o.g.pending ++ (l.filter fun e => e.1 / 32 < 124).map fun e => ⟨e.1, b.fresh, e.2⟩ }
  let b1 : State := { b with ops := tput b.ops b.fresh (c.op kind d), fresh := b.fresh + 1 }
  have hg1 : b1.group? c.gid = some g0 := hg
  have e : b.addOp (c.op kind d) l = b1.setGroup c.gid g1 := by
    unfold State.addOp State.raiseFlag
    show (match c.flag with
      | none => b1
      | some f => b1.modGroup c.gid fun g => g.setFlag f (g.flag f + 1)).modGroup c.gid _ = _
    cases hf : c.flag with
    | none =>
      dsimp only
      rw [modGroup_eq _ hg1]
      simp only [g1, raised, hf]
      rfl
    | some f =>
      dsimp only
      rw [modGroup_eq (s := b1) _ hg1,
        modGroup_eq (s := b1.setGroup c.gid (g0.setFlag f (g0.flag f + 1))) _ (State.group?_setGroup ..)]
      unfold State.setGroup
      dsimp only
      rw [tput_tput]
      simp only [g1, raised, hf]
      rfl
  have hcore' : (b1.setGroup c.gid g1).coreOfGroup c.gid = c.core := by
    rw [← hcore]
    unfold State.coreOfGroup
    rw [hg, State.group?_setGroup]
    rfl
  obtain ⟨ha, g, h1, h2, h3, h4⟩ := advance_spec (b1.setGroup c.gid g1) c.gid [] (State.group?_setGroup ..) rfl
  rw [hcore'] at ha
  have hall := (oneGroup_setGroup b1 c.gid c.core g1).trans ha
  rw [e]
  exact ⟨hall.eq, ⟨hall.others.groups, hall.others.cores, hall.others.own⟩, g, h1, h3, h4, SameGroup.trans (h := g1) rfl h2⟩

theorem StartedFrom.ofIssued {i : Instr} {s t u : State} {c : Ctx} (h : issueOf i s = some (c, t)) {kind : OpKind}
    {d : BitVec 7} {l : List (Nat × Option W32)} (k : StartedFrom c t u kind d l) :
    StartedFrom c { s with issuing := none } u kind d l := by
  obtain ⟨h0, -, -⟩ := issueOf_start h
  have eo : t.ops = s.ops := by rw [h0.eq]
  have ef : t.fresh = s.fresh := by rw [h0.eq]
  obtain ⟨k1, k2, k3⟩ := k
  rw [eo, ef, h0.eq] at k1
  rw [ef] at k3
  exact ⟨k1, h0.others.trans k2, k3⟩

/-- A long-latency word that stalls at no flag starts. -/
theorem runWord_longWrite {i : Instr} {s t : State} {c : Ctx} (h : issueOf i s = some (c, t)) (hf : c.full = none)
    (body : Ctx → State → WordOut) (d : BitVec 7) (f : Nat → List W32) (hb : body c t = c.longWrite t d f) :
    ∃ u, runWord i body s = .next u ∧ StartedFrom c { s with issuing := none } u .plain d
      (resultKeys d (c.act.map fun i => (i, (f i).map some))) := by
  refine ⟨_, runWord_issueOf h body, ?_⟩
  rw [hb]
  have e : c.longWrite t d f = .done (t.addOp (c.op .plain d) (resultKeys d (c.act.map fun i => (i, (f i).map some)))) [] := by
    unfold Ctx.longWrite Ctx.long
    rw [hf]
  rw [e]
  exact (startedFrom_addOp h (samePlace_refl c t) .plain d _).ofIssued h

end Sys2Proof.Machine
end

