-- ==== Sys2Proof/Laws/Counting.lean ====
section
/-! SUPPORT. Accesses to memory and counted events leave the groups and the places of blocks as they are, so that the
end of a word is the same after them (03 R86 to R89). -/

namespace Sys2Proof.Machine

/-- The groups and the cores of the blocks are as they were. -/
structure KeepsPlace (s u : State) : Prop where
  groups : u.groups = s.groups
  blocks : ∀ b, (u.block? b).map Block.core = (s.block? b).map Block.core

theorem KeepsPlace.refl (s : State) : KeepsPlace s s := ⟨rfl, fun _ => rfl⟩

theorem KeepsPlace.trans {s t u : State} (h : KeepsPlace s t) (k : KeepsPlace t u) : KeepsPlace s u :=
  ⟨k.groups.trans h.groups, fun b => (k.blocks b).trans (h.blocks b)⟩

theorem OnlyMemory.keepsPlace {s u : State} (h : OnlyMemory s u) : KeepsPlace s u := by
  refine ⟨by rw [h.rest], fun b => ?_⟩
  obtain ⟨x, y, e⟩ := h.blocks b
  rw [e]
  cases s.block? b <;> rfl

theorem KeepsPlace.samePlace {s u : State} (h : KeepsPlace s u) (c : Ctx) : SamePlace c s u :=
  ⟨by unfold State.group?; rw [h.groups], .inr (h.blocks _)⟩

theorem keepsPlace_postEvent (s : State) (q kind fmt ev : Nat) (w1 w2 w3 : W64) :
    KeepsPlace s (s.postEvent q kind fmt ev w1 w2 w3) := by
  unfold State.postEvent
  dsimp only
  split
  · exact .refl s
  · have h := (State.only_homeWrite s ((s.queue q).evq.toNat + 32 * ((s.queue q).count.toNat % 2 ^ (s.queue q).evqLog2))
      (bytesOfNat 8 (kind + 2 ^ 8 * fmt + 2 ^ 16 * ev + 2 ^ 24 * q +
        (if (s.queue q).count.toNat.testBit (s.queue q).evqLog2 then 2 ^ 63 else 0))
        ++ bytesOfNat 8 w1.toNat ++ bytesOfNat 8 w2.toNat ++ bytesOfNat 8 w3.toNat)).keepsPlace
    exact ⟨h.groups, h.blocks⟩

theorem keepsPlace_countEvent (s : State) (lid : Nat) (e : FpEvent) (n : Nat) : KeepsPlace s (s.countEvent lid e n) := by
  unfold State.countEvent
  split
  · exact .refl s
  · rename_i l hl
    have h (l' : Launch) : KeepsPlace s (s.setLaunch lid l') := ⟨rfl, fun _ => rfl⟩
    dsimp only
    split
    · exact (h _).trans (keepsPlace_postEvent ..)
    · exact h _

theorem keepsPlace_countEvents (lid : Nat) (l : List FpEvent) : ∀ s : State, KeepsPlace s (s.countEvents lid l) := by
  induction l with
  | nil => intro s; exact .refl s
  | cons e t ih => intro s; exact (keepsPlace_countEvent s lid e 1).trans (ih _)

theorem keepsPlace_countLanes (c : Ctx) (s : State) (d : BitVec 7) (r : List (Nat × FpLane)) :
    KeepsPlace s (c.countLanes s d r) := by
  unfold Ctx.countLanes
  split
  · exact .refl s
  · exact keepsPlace_countEvents ..

/-- A float word counts its events, writes and is done. -/
theorem runWord_fpWrite {i : Instr} {s t : State} {c : Ctx} (h : issueOf i s = some (c, t)) (body : Ctx → State → WordOut)
    (d : BitVec 7) (f : Nat → FpLane) (hb : body c t = c.fpWrite t d f) :
    ∃ u, runWord i body s = .next u ∧
      WroteFrom c (c.countLanes t d (c.act.map fun i => (i, f i))) u [] d fun i => (f i).1 := by
  refine ⟨_, runWord_issueOf h body, ?_⟩
  rw [hb]
  have e : ((c.act.map fun i => (i, f i)).map fun e => (e.1, e.2.1)) = c.act.map fun i => (i, (f i).1) := by
    rw [List.map_map]; rfl
  show WroteFrom c _ (State.advance (State.modGroup _ c.gid fun g => writeLanes g d
    ((c.act.map fun i => (i, f i)).map fun e => (e.1, e.2.1))) c.gid []) [] d _
  rw [e]
  exact wroteFrom_writeLanes h ((keepsPlace_countLanes c t d _).samePlace c) [] d fun i => (f i).1

/-- A long-latency float word counts its events and is outstanding. -/
theorem runWord_fpLong {i : Instr} {s t : State} {c : Ctx} (h : issueOf i s = some (c, t)) (hf : c.full = none)
    (body : Ctx → State → WordOut) (d : BitVec 7) (f : Nat → FpLane) (hb : body c t = c.fpLong t d f) :
    ∃ u, runWord i body s = .next u ∧
      StartedFrom c (c.countLanes t d (c.act.map fun i => (i, f i))) u .plain d
        (resultKeys d (c.act.map fun i => (i, (f i).1.map some))) := by
  refine ⟨_, runWord_issueOf h body, ?_⟩
  rw [hb]
  have e : c.fpLong t d f = .done ((c.countLanes t d (c.act.map fun i => (i, f i))).addOp (c.op .plain d)
      (resultKeys d (c.act.map fun i => (i, (f i).1.map some)))) [] := by
    unfold Ctx.fpLong Ctx.long
    rw [hf]
    dsimp only
    rw [List.map_map]
    rfl
  rw [e]
  exact startedFrom_addOp h ((keepsPlace_countLanes c t d _).samePlace c) .plain d _

end Sys2Proof.Machine
end

