-- ==== Sys2Proof/Laws/Elements.lean ====
section
/-! SUPPORT. Elements: what is laid into registers element by element is read back element by element. -/

namespace Sys2Proof.Machine

theorem elemOf_ofElems (n : Nat) (l : List Nat) : ∀ k, k < l.length →
    elemOf n k (ofElems n l) = l.getD k 0 % 2 ^ n := by
  have hp : 0 < 2 ^ n := Nat.two_pow_pos n
  induction l with
  | nil => intro k hk; simp at hk
  | cons e t ih =>
    intro k hk
    cases k with
    | zero =>
      show (e % 2 ^ n + 2 ^ n * ofElems n t) / 2 ^ (n * 0) % 2 ^ n = e % 2 ^ n
      simp [Nat.add_mul_mod_self_left]
    | succ k =>
      have hk : k < t.length := by simpa using hk
      have := ih k hk
      show (e % 2 ^ n + 2 ^ n * ofElems n t) / 2 ^ (n * (k + 1)) % 2 ^ n = t.getD k 0 % 2 ^ n
      rw [← this, Nat.mul_succ, Nat.add_comm (n * k), Nat.pow_add, ← Nat.div_div_eq_div_mul,
        Nat.add_mul_div_left _ _ hp, Nat.div_eq_of_lt (Nat.mod_lt _ hp), Nat.zero_add]
      rfl

theorem numOf_regsOfNat (m x : Nat) : numOf (regsOfNat m x) = x % 2 ^ (32 * m) := by
  have h : ∀ (m b x : Nat), numOf ((List.range' b m).map fun k => BitVec.ofNat 32 (x / 2 ^ (32 * k)))
      = x / 2 ^ (32 * b) % 2 ^ (32 * m) := by
    intro m
    induction m with
    | zero => intro b x; simp [numOf, Nat.mod_one]
    | succ m ih =>
      intro b x
      rw [List.range'_succ, List.map_cons]
      show (BitVec.ofNat 32 (x / 2 ^ (32 * b))).toNat + 2 ^ 32 * numOf _ = _
      rw [ih, BitVec.toNat_ofNat, Nat.mul_succ 32 b, Nat.pow_add, ← Nat.div_div_eq_div_mul, Nat.mul_succ 32 m,
        Nat.add_comm (32 * m) 32, Nat.pow_add 2 32, Nat.mod_mul]
  have := h m 0 x
  simpa [regsOfNat, List.range_eq_range'] using this

theorem elemOf_mod (n k m x : Nat) (h : n * (k + 1) ≤ m) : elemOf n k (x % 2 ^ m) = elemOf n k x := by
  unfold elemOf
  obtain ⟨d, rfl⟩ := Nat.exists_eq_add_of_le h
  have e : n * (k + 1) + d = n * k + (n + d) := by rw [Nat.mul_succ]; omega
  rw [e, Nat.pow_add, Nat.mod_mul_right_div_self, Nat.pow_add, Nat.mod_mul_right_mod]

theorem length_regsOfNat (m x : Nat) : (regsOfNat m x).length = m := by simp [regsOfNat]

theorem length_elems (n t x : Nat) : (elems n t x).length = t / n := by simp [elems]

/-- Elements laid into the registers of a type. -/
theorem elementwise_of (t : Nat) (l : List Nat) (hl : l.length = tyElems t) (g : Nat → Nat)
    (hg : ∀ k, k < tyElems t → l.getD k 0 % 2 ^ tyBits t = g k) :
    Elementwise t (regsOfNat (tyRegs t) (ofElems (tyBits t) l)) g := by
  refine ⟨length_regsOfNat _ _, fun k hk => ?_⟩
  rw [numOf_regsOfNat, elemOf_mod, elemOf_ofElems _ _ _ (by omega), hg k hk]
  calc tyBits t * (k + 1) ≤ tyBits t * tyElems t := Nat.mul_le_mul_left _ hk
    _ ≤ 32 * tyRegs t := Nat.mul_div_le _ _

theorem wrapInt_mod (n : Nat) (x : Int) : wrapInt n x % 2 ^ n = wrapInt n x := by
  apply Nat.mod_eq_of_lt
  unfold wrapInt
  have h : (0 : Int) < ((2 ^ n : Nat) : Int) := by exact_mod_cast Nat.two_pow_pos n
  have h1 := Int.emod_nonneg x (Int.ne_of_gt h)
  have h2 := Int.emod_lt_of_pos x h
  omega

theorem get?_elems (t a k : Nat) (hk : k < tyElems t) :
    (elems (tyBits t) (32 * tyRegs t) a)[k]? = some (elemOf (tyBits t) k a) := by
  have h : (List.range (32 * tyRegs t / tyBits t))[k]? = some k := List.getElem?_range hk
  simp only [elems, elemOf, List.getElem?_map, h, Option.map_some]

theorem elementwise_intOp1 (t : Nat) (f : Int → Int) (a : Nat) :
    Elementwise t (intOp1 t f a) fun k => wrapInt (tyBits t) (f (elemInt t (elemOf (tyBits t) k a))) := by
  refine elementwise_of t _ (by simp [length_elems, tyElems]) _ fun k hk => ?_
  simp only [List.getD, List.getElem?_map, get?_elems t _ k hk]
  exact wrapInt_mod _ _

theorem elementwise_intOp2 (t : Nat) (f : Int → Int → Int) (a b : Nat) :
    Elementwise t (intOp2 t f a b) fun k =>
      wrapInt (tyBits t) (f (elemInt t (elemOf (tyBits t) k a)) (elemInt t (elemOf (tyBits t) k b))) := by
  refine elementwise_of t _ (by simp [length_elems, tyElems]) _ fun k hk => ?_
  simp only [List.getD, List.getElem?_zipWith, get?_elems t _ k hk]
  exact wrapInt_mod _ _

theorem elementwise_intOp3 (t : Nat) (f : Int → Int → Int → Int) (a b c : Nat) :
    Elementwise t (intOp3 t f a b c) fun k =>
      wrapInt (tyBits t) (f (elemInt t (elemOf (tyBits t) k a)) (elemInt t (elemOf (tyBits t) k b))
        (elemInt t (elemOf (tyBits t) k c))) := by
  refine elementwise_of t _ (by simp [length_elems, tyElems]) _ fun k hk => ?_
  simp only [List.getD, List.getElem?_zipWith, get?_elems t _ k hk]
  exact wrapInt_mod _ _

theorem elementwise_natOp1 (t : Nat) (f : Nat → Nat) (a : Nat) :
    Elementwise t (natOp1 t f a) fun k => f (elemOf (tyBits t) k a) % 2 ^ tyBits t := by
  refine elementwise_of t _ (by simp [length_elems, tyElems]) _ fun k hk => ?_
  simp only [List.getD, List.getElem?_map, get?_elems t _ k hk]
  rfl

theorem elementwise_natOp2 (t : Nat) (f : Nat → Nat → Nat) (a b : Nat) :
    Elementwise t (natOp2 t f a b) fun k => f (elemOf (tyBits t) k a) (elemOf (tyBits t) k b) % 2 ^ tyBits t := by
  refine elementwise_of t _ (by simp [length_elems, tyElems]) _ fun k hk => ?_
  simp only [List.getD, List.getElem?_zipWith, get?_elems t _ k hk]
  rfl

end Sys2Proof.Machine
end

