-- ==== Sys2Proof/Laws/Traps.lean ====
section
/-! SUPPORT. Taking a trap: all that its delivery changes (17 R450, R451). -/

namespace Sys2Proof.Machine

/-- A frame laid in k0 to k3 of a lane. -/
def Group.setFrame (g : Group) (i : Nat) (f : W64 × W64) : Group :=
  (((g.setReg i 120 (lowHalf f.1)).setReg i 121 (highHalf f.1)).setReg i 122 (lowHalf f.2)).setReg i 123 (highHalf f.2)

/-- The register of a frame, or the one there was. -/
def frameReg (f : W64 × W64) (r : Nat) (old : W32) : W32 :=
  if r = 120 then f.1.extractLsb' 0 32 else if r = 121 then f.1.extractLsb' 32 32
  else if r = 122 then f.2.extractLsb' 0 32 else if r = 123 then f.2.extractLsb' 32 32 else old

theorem Group.setFrame_eq (g : Group) (i : Nat) (f : W64 × W64) : ∃ x, g.setFrame i f = { g with regs := x } := by
  unfold setFrame
  obtain ⟨a, ha⟩ := setReg_eq g i 120 (lowHalf f.1)
  obtain ⟨b, hb⟩ := setReg_eq (g.setReg i 120 (lowHalf f.1)) i 121 (highHalf f.1)
  obtain ⟨c, hc⟩ := setReg_eq ((g.setReg i 120 (lowHalf f.1)).setReg i 121 (highHalf f.1)) i 122 (lowHalf f.2)
  obtain ⟨d, hd⟩ := setReg_eq (((g.setReg i 120 (lowHalf f.1)).setReg i 121 (highHalf f.1)).setReg i 122 (lowHalf f.2))
    i 123 (highHalf f.2)
  exact ⟨d, by rw [hd, hc, hb, ha]⟩

theorem Group.reg_setFrame (g : Group) {i j : Nat} (hi : i < 32) (hj : j < 32) (f : W64 × W64) (r : Nat) :
    (g.setFrame i f).reg j r = if j = i then frameReg f r (g.reg j r) else g.reg j r := by
  unfold setFrame frameReg
  simp only [reg_setReg _ hi hj]
  by_cases hij : j = i
  · by_cases h3 : r = 123
    · subst h3; simp [hij, highHalf]
    · by_cases h2 : r = 122
      · subst h2; simp [hij, lowHalf]
      · by_cases h1 : r = 121
        · subst h1; simp [hij, highHalf]
        · by_cases h0 : r = 120
          · subst h0; simp [hij, lowHalf]
          · simp [h0, h1, h2, h3]
  · simp [hij]

/-- Frames laid in lanes: each lane of the list has its frame, and nothing else changes. -/
theorem Group.setFrames (frame : Nat → W64 × W64) {j : Nat} (hj : j < 32) (r : Nat) (l : List Nat) :
    (∀ i ∈ l, i < 32) → ∀ g : Group,
      let h := l.foldl (fun g i => g.setFrame i (frame i)) g
      (∃ x, h = { g with regs := x }) ∧ h.reg j r = if j ∈ l then frameReg (frame j) r (g.reg j r) else g.reg j r := by
  induction l with
  | nil => intro _ g; exact ⟨⟨g.regs, rfl⟩, by simp⟩
  | cons a t ih =>
    intro hl g
    obtain ⟨⟨x, hx⟩, hr⟩ := ih (fun i hi => hl i (List.mem_cons_of_mem _ hi)) (g.setFrame a (frame a))
    obtain ⟨y, hy⟩ := setFrame_eq g a (frame a)
    refine ⟨⟨x, ?_⟩, ?_⟩
    · show t.foldl _ (g.setFrame a (frame a)) = _
      rw [hx, hy]
    · show (t.foldl _ (g.setFrame a (frame a))).reg j r = _
      rw [hr, reg_setFrame g (hl a (List.mem_cons_self ..)) hj]
      by_cases h : j = a
      · subst h
        have hf : ∀ old, frameReg (frame j) r (frameReg (frame j) r old) = frameReg (frame j) r old := by
          intro old
          unfold frameReg
          split <;> rename_i h0
          · rfl
          · split <;> rename_i h1
            · rfl
            · split <;> rename_i h2
              · rfl
              · split <;> rfl
        simp [hf]
      · simp [h]

/-- Threads of lanes replaced by a function of each: each lane of the list within the group has its new thread. -/
theorem Group.modLanes (f : Thread → Thread) (hf : ∀ t, f (f t) = f t) (j : Nat) (l : List Nat) : ∀ g : Group,
    let h := l.foldl (fun g i => g.modLane i f) g
    (∃ x, h = { g with lanes := x } ∧ x.length = g.lanes.length) ∧
      (j < g.lanes.length → h.lane j = if j ∈ l then f (g.lane j) else g.lane j) := by
  induction l with
  | nil => intro g; exact ⟨⟨g.lanes, rfl, rfl⟩, by simp⟩
  | cons a t ih =>
    intro g
    obtain ⟨⟨x, hx, hxl⟩, hr⟩ := ih (g.modLane a f)
    refine ⟨⟨x, hx, hxl.trans (List.length_set ..)⟩, fun hj => ?_⟩
    have hj' : j < (g.modLane a f).lanes.length := by
      show j < (g.lanes.set a _).length
      rw [List.length_set]; exact hj
    show (t.foldl _ (g.modLane a f)).lane j = _
    rw [hr hj']
    show (if j ∈ t then f ((g.setLane a (f (g.lane a))).lane j) else (g.setLane a (f (g.lane a))).lane j) = _
    rw [lane_setLane]
    by_cases h : j = a
    · subst h
      simp [hj, hf]
    · simp [h]

/-- The fields of a group that the entry of a handler leaves. -/
theorem entered_eq (g h : Group) (x : List (Nat × W32)) (y : List Thread) (he : h = { g with regs := x, lanes := y })
    (hs : List Nat) (en : List Thread) (rc : Option (List Thread)) (a b c d e f : W64) :
    let k : Group := { h with
      handler := true, hset := hs, entry := en, hsaved := none, recorded := rc, trapCause := a, trapPc := b
      trapCaddr := c, trapFaddr := d, trapInfo := e, trapSave := f, run := none, blocked := none }
    k = { g with
      regs := k.regs, lanes := k.lanes, run := none, blocked := none, handler := true, hset := k.hset, entry := k.entry
      saved := k.saved, recorded := k.recorded, trapCause := k.trapCause, trapPc := k.trapPc, trapCaddr := k.trapCaddr
      trapFaddr := k.trapFaddr, trapInfo := k.trapInfo, trapSave := k.trapSave, hsaved := none } := by
  subst he
  rfl

/-- What the entry of a handler changes: everything but where its lanes' frames come from is the trap's (17 R450). -/
theorem enterHandler_spec (s : State) (gid core : Nat) (o : Owner) (t : Trap) (late restore : Bool) (lanes : List Nat)
    (frame : Nat → W64 × W64) (served : Nat → Bool) :
    OneGroup gid core s (s.enterHandler gid o t late restore lanes frame served) ∧
    ∃ g, (s.enterHandler gid o t late restore lanes frame served).group? gid = some g ∧
      g.trapCause = BitVec.ofNat 64 (t.code + (if late then 256 else 0) + (if restore then 512 else 0)) ∧
      g.trapPc = t.pc ∧ g.trapCaddr = t.caddr ∧ g.trapFaddr = t.faddr ∧
      g.trapInfo = t.info ∧ g.trapSave = State.saveArea o ∧ g.handler = true ∧ g.run = none ∧ g.blocked = none ∧
      (∀ i, i ∈ g.hset ↔ i ∈ lanes ∧ i < 32) ∧
      (∀ i, i < 32 → ∀ r, g.reg i r = if i ∈ lanes then frameReg (frame i) r (o.g.reg i r) else o.g.reg i r) ∧
      (∀ i, i < o.g.lanes.length → i < 32 → g.lane i =
        if i ∈ lanes then { o.g.lane i with pc := s.trapVec, resume := none, st := .live, age := 0, served := false }
        else o.g.lane i) ∧
      g = { o.g with
        regs := g.regs, lanes := g.lanes, run := none, blocked := none, handler := true, hset := g.hset, entry := g.entry
        saved := g.saved, recorded := g.recorded, trapCause := g.trapCause, trapPc := g.trapPc, trapCaddr := g.trapCaddr
        trapFaddr := g.trapFaddr, trapInfo := g.trapInfo, trapSave := g.trapSave, hsaved := none } := by
  let l := lanes32.filter lanes.contains
  have hl : ∀ i, i ∈ l ↔ i ∈ lanes ∧ i < 32 := by
    intro i
    simp only [l, List.mem_filter, lanes32, List.mem_range, List.contains_iff_mem]
    exact And.comm
  have hlt : ∀ i ∈ l, i < 32 := fun i hi => ((hl i).1 hi).2
  let step (t : Thread) : Thread := { t with pc := s.trapVec, resume := none, st := .live, age := 0, served := false }
  let g1 := l.foldl (fun g i => g.setFrame i (frame i)) o.g
  let g2 := l.foldl (fun g i => g.modLane i step) g1
  obtain ⟨x, hx⟩ := (Group.setFrames frame (j := 0) (by decide) 0 l hlt o.g).1
  obtain ⟨⟨y, hy, hyl⟩, -⟩ := Group.modLanes step (fun _ => rfl) 0 l g1
  have hg1 : g1 = { o.g with regs := x } := hx
  have hg2 : g2 = { o.g with regs := x, lanes := y } := by
    show l.foldl (fun g i => g.modLane i step) g1 = _
    rw [hy, hg1]
  refine ⟨oneGroup_setGroup .., _, State.group?_setGroup .., rfl, rfl, rfl, rfl, rfl, rfl, rfl, rfl, rfl, hl, ?_, ?_, ?_⟩
  · intro i hi r
    have e := (Group.setFrames frame hi r l hlt o.g).2
    have e2 : g2.reg i r = g1.reg i r := by rw [hg2, hg1]; rfl
    show g2.reg i r = _
    rw [e2]
    show (l.foldl (fun g i => g.setFrame i (frame i)) o.g).reg i r = _
    rw [e]
    simp only [hl, hi, and_true]
  · intro i hi hi'
    have hi1 : i < g1.lanes.length := by rw [hg1]; exact hi
    have e := (Group.modLanes step (fun _ => rfl) i l g1).2 hi1
    show g2.lane i = _
    show (l.foldl (fun g i => g.modLane i step) g1).lane i = _
    rw [e]
    have e1 : g1.lane i = o.g.lane i := by rw [hg1]; rfl
    rw [e1]
    simp only [hl, hi', and_true]
    rfl
  · exact entered_eq o.g g2 x y hg2 _ _ _ _ _ _ _ _ _

theorem left_eq (g : Group) : ∃ a b, g.left = { g with saved := a, hsaved := b } := by
  unfold Group.left
  split
  · exact setKept_eq ..
  · exact ⟨g.saved, g.hsaved, rfl⟩

/-- Delivery of a synchronous trap that is not terminal. -/
theorem deliver_spec {s : State} {gid : Nat} {o : Owner} (t : Trap) (issued : Bool) (h : s.owner? gid = some o)
    (ht : s.terminal o t.code = false) : TrapTaken s (s.deliver gid t issued) gid o t := by
  let o' : Owner := if issued then { o with g := o.g.left } else o
  have e : s.deliver gid t issued = (s.freeSlot o.b.core gid).enterHandler gid o' t false false t.set
      (fun _ => (t.resume, t.resumeClause)) fun _ => issued && t.resume == t.pc := by
    unfold State.deliver
    rw [h]
    dsimp only
    rw [if_neg (by rw [ht]; decide)]
  obtain ⟨h1, g, k0, k1, k2⟩ := enterHandler_spec (s.freeSlot o.b.core gid) gid o.b.core o' t false false t.set
    (fun _ => (t.resume, t.resumeClause)) fun _ => issued && t.resume == t.pc
  rw [← e] at h1 k0
  have hall := (oneGroup_freeSlot s gid o.b.core).trans h1
  obtain ⟨a, b, ho⟩ : ∃ a b, o' = { o with g := { o.g with saved := a, hsaved := b } } := by
    by_cases hi : issued = true
    · obtain ⟨a, b, h⟩ := left_eq o.g
      exact ⟨a, b, by simp only [o', hi, if_true, h]⟩
    · exact ⟨o.g.saved, o.g.hsaved, by simp only [o', hi]; rfl⟩
  rw [ho] at k2
  obtain ⟨p1, p2, p3, p4, p5, p6, p7, p8, p9, p10, p11, p12⟩ := k2
  exact ⟨hall.eq, hall.others, g, k0, k1, p1, p2, p3, p4, p5, p6, p7, p8, p9, p10, p11, p12⟩

end Sys2Proof.Machine
end

