-- ==== Sys2Proof/Laws/Ends.lean ====
section
/-! SUPPORT. What a word's end comes to from the state its own effect has come to, and the trap of a word. -/

namespace Sys2Proof.Machine

/-- What a group belongs to at the start of a word's effect. -/
theorem issueOf_owner {i : Instr} {s t : State} {c : Ctx} (h : issueOf i s = some (c, t)) :
    t.owner? c.gid = some { c.o with g := { c.o.g with run := some c.r } } := by
  obtain ⟨ho, hg, -⟩ := issueOf_start h
  obtain ⟨r, -, h2, -⟩ := issueOf_spec h
  obtain ⟨-, hb, hc, hl⟩ := owner?_group h2
  have e := ho.eq
  have eb : t.block? c.o.g.block = some c.o.b := by rw [e]; exact hb
  have ec : t.cohort? c.o.b.cohort = some c.o.c := by rw [e]; exact hc
  have el : t.launch? c.o.c.launch = some c.o.l := by rw [e]; exact hl
  unfold State.owner?
  rw [hg]
  simp only [Option.bind_eq_bind, Option.bind_some, eb, ec, el]

/-- The core of a group at the start of a word's effect, after changes that leave the group in its block and the block on
its core. -/
theorem coreOfGroup_of {b : State} {gid core : Nat} {g : Group} {x : Block} (hg : b.group? gid = some g)
    (hb : b.block? g.block = some x) (hc : x.core = core) : b.coreOfGroup gid = core := by
  unfold State.coreOfGroup
  rw [hg, Option.bind_some, hb]
  exact hc

/-- A word is done at `b`. -/
theorem movedOn_advance {b : State} {c : Ctx} (jumps : List (Nat × W64)) {g : Group} {r : Run}
    (hg : b.group? c.gid = some g) (hr : g.run = some r) (hcore : b.coreOfGroup c.gid = c.core) :
    MovedOn c b (b.advance c.gid jumps) jumps := by
  obtain ⟨ha, h, h1, h2, h3, h4⟩ := advance_spec b c.gid jumps hg hr
  rw [hcore] at ha
  exact ⟨ha.eq, ha.others, g, r, h, hg, hr, h1, h2, h3, h4⟩

/-- A state that differs from the start of a word's effect in its own group, which has a clause in progress still. -/
theorem movedOn_setGroup {i : Instr} {s t : State} {c : Ctx} (h : issueOf i s = some (c, t)) (jumps : List (Nat × W64))
    {g : Group} {r : Run} (hb : g.block = c.o.g.block) (hr : g.run = some r) :
    MovedOn c (t.setGroup c.gid g) ((t.setGroup c.gid g).advance c.gid jumps) jumps := by
  obtain ⟨-, hg, hc⟩ := issueOf_start h
  refine movedOn_advance jumps (State.group?_setGroup ..) hr ?_
  rw [← hc]
  unfold State.coreOfGroup
  rw [State.group?_setGroup, hg]
  simp only [Option.bind_some, hb]
  rfl

/-- The trap of a word at its issue. -/
theorem runWord_traps {i : Instr} {s t : State} {c : Ctx} (h : issueOf i s = some (c, t)) (body : Ctx → State → WordOut)
    {x : Cause} {resume : W64 × W64} (hb : body c t = .trap x resume t) (he : exec i s = runWord i body s) :
    Traps i s t c x resume := by
  have ho := issueOf_owner h
  have e : exec i s = .next (t.deliver c.gid (wordTrap c x resume)) := by
    rw [he, runWord_issueOf h body, hb]
    show Host.Outcome.next (t.trapWord c.gid x resume) = _
    unfold State.trapWord
    rw [(issueOf_start h).2.1]
    rfl
  refine ⟨fun ht => ?_, fun ht => ⟨_, e, ?_⟩⟩
  · rw [e]
    unfold State.deliver
    rw [ho]
    dsimp only
    have ht' : t.terminal { c.o with g := { c.o.g with run := some c.r } } (wordTrap c x resume).code = true := ht
    rw [if_pos ht']
    rfl
  · have ht' : t.terminal { c.o with g := { c.o.g with run := some c.r } } (wordTrap c x resume).code = false := ht
    have k := deliver_spec (wordTrap c x resume) true ho ht'
    exact ⟨k.rest, k.others, k.group⟩

end Sys2Proof.Machine
end

