-- ==== Sys2Proof/Laws/Memory.lean ====
section
/-! SUPPORT. Memory: bytes written read back, other bytes are left alone, and every operation that changes memory keeps its
canonical form. -/

namespace Sys2Proof.Machine

/-- Memory lists nothing at reset. -/
theorem reset_memory_wf : Memory.wf State.reset.mem := by decide

theorem memPutFrom_wf (m : List Host.Cell) (pa : Nat) (l : List Byte) (h : Memory.wf m) :
    Memory.wf (State.memPutFrom m pa l) := by
  induction l generalizing m pa with
  | nil => exact h
  | cons b t ih => exact ih _ _ (canon_tset 0 pa b h)

/-- A byte outside the bytes written is left alone. -/
theorem memPutFrom_other (m : List Host.Cell) (pa a : Nat) (l : List Byte) (h : a < pa ∨ pa + l.length ≤ a) :
    tgetD (0 : Byte) (State.memPutFrom m pa l) a = tgetD 0 m a := by
  induction l generalizing m pa with
  | nil => rfl
  | cons b t ih =>
    simp only [List.length_cons] at h
    rw [State.memPutFrom, ih _ _ (by omega), tgetD_tset_other _ _ _ _ _ (by omega)]

/-- A byte written reads back. -/
theorem memPutFrom_same (m : List Host.Cell) (pa i : Nat) (l : List Byte) (h : i < l.length) :
    tgetD (0 : Byte) (State.memPutFrom m pa l) (pa + i) = l[i] := by
  induction l generalizing m pa i with
  | nil => simp at h
  | cons b t ih =>
    cases i with
    | zero => rw [State.memPutFrom, Nat.add_zero, memPutFrom_other _ _ _ _ (by omega)]; simp
    | succ i =>
      have := ih (tset 0 m pa b) (pa + 1) i (by simpa using h)
      rw [State.memPutFrom, show pa + (i + 1) = pa + 1 + i by omega]
      simpa using this

namespace State

theorem memPut_wf (s : State) (pa : Nat) (l : List Byte) (h : Memory.wf s.mem) : Memory.wf (s.memPut pa l).mem :=
  memPutFrom_wf _ _ _ h

/-- What `memPut` does to a byte. -/
theorem memByte_memPut (s : State) (pa a : Nat) (l : List Byte) :
    (s.memPut pa l).memByte a = if h : pa ≤ a ∧ a - pa < l.length then l[a - pa]'h.2 else s.memByte a := by
  unfold memByte memPut
  split
  · rename_i h
    have := memPutFrom_same s.mem pa (a - pa) l h.2
    rwa [show pa + (a - pa) = a by omega] at this
  · rename_i h
    exact memPutFrom_other _ _ _ _ (by omega)

theorem foldl_tset_wf (p : Nat → Bool) (k : Nat → Nat) (v : Nat → Byte) (l : List Nat) (m : List Host.Cell)
    (h : Memory.wf m) : Memory.wf (l.foldl (fun a i => if p i then tset 0 a (k i) (v i) else a) m) := by
  induction l generalizing m with
  | nil => exact h
  | cons i t ih =>
    rw [List.foldl_cons]
    apply ih
    split
    · exact canon_tset 0 _ _ h
    · exact h

/-- A fold whose steps keep the form keeps it. -/
theorem foldl_wf {α : Type} (f : State → α → State) (h : ∀ s x, Memory.wf s.mem → Memory.wf (f s x).mem) (l : List α) :
    ∀ s : State, Memory.wf s.mem → Memory.wf (l.foldl f s).mem := by
  induction l with
  | nil => exact fun _ h => h
  | cons a t ih => exact fun s k => ih _ (h s a k)

theorem storeLine_wf (s : State) (pline : Nat) (m : BitVec 128) (d : BitVec 1024) (h : Memory.wf s.mem) :
    Memory.wf (s.storeLine pline m d).mem := by
  unfold storeLine
  split
  · exact h
  · generalize List.range 128 = l
    exact foldl_tset_wf (fun i => m.getLsbD i) (fun i => 128 * pline + i) (fun i => d.extractLsb' (8 * i) 8) l s.mem h

theorem spareLine_wf (s : State) (pline : Nat) (keep : BitVec 128) (h : Memory.wf s.mem) :
    Memory.wf (s.spareLine pline keep).mem :=
  storeLine_wf { s with bad := s.bad.filter (· != pline) } pline _ 0 h

theorem rawPutLine_wf (s : State) (pline : Nat) (m : BitVec 128) (d : BitVec 1024) (h : Memory.wf s.mem) :
    Memory.wf (s.rawPutLine pline m d).mem := by
  have k := storeLine_wf s pline m d h
  unfold rawPutLine
  split
  · exact k
  · split
    · exact k
    · exact spareLine_wf _ _ _ k

/-- A merge takes place in the caches alone. -/
theorem mergeLine_wf (s : State) (p pline : Nat) (h : Memory.wf s.mem) : Memory.wf (s.mergeLine p pline).mem := by
  unfold mergeLine
  split
  · exact h
  · rename_i x _
    split
    · exact h
    · have key : ∀ (l : List Nat) (a : State × L2Line), Memory.wf a.1.mem →
          Memory.wf (l.foldl (fun (a : State × L2Line) (c : Nat) =>
            match l1Phys (a.1.core c).l1 pline with
            | none => a
            | some y =>
              if y.self then a
              else (a.1.modCore c fun k => { k with l1 := l1DropPhys k.l1 pline },
                { a.2 with data := overlay y.dirty y.data a.2.data, dirty := a.2.dirty ||| y.dirty })) a).1.mem := by
        intro l
        induction l with
        | nil => exact fun _ h => h
        | cons c t ih =>
          intro a ha
          refine ih _ ?_
          dsimp only
          split
          · exact ha
          · split <;> exact ha
      exact key x.dir.cores (s, x) h

theorem rawRecall_wf (s : State) (pline : Nat) (h : Memory.wf s.mem) : Memory.wf (s.rawRecall pline).mem := by
  unfold rawRecall
  dsimp only
  split
  · exact h
  · have h1 := foldl_wf (fun s p => s.mergeLine p pline) (fun s p => mergeLine_wf s p pline) (s.l2Holders pline) s h
    refine foldl_wf (fun s p => s.modChiplet p fun c => { c with l2 := l2Drop c.l2 pline }) (fun _ _ h => h) _ _ ?_
    refine foldl_wf (fun (s : State) (x : L2Line) => s.rawPutLine pline x.dirty x.data)
      (fun s x => rawPutLine_wf s pline x.dirty x.data) _ _ ?_
    split
    · exact rawPutLine_wf _ _ _ _ h1
    · exact h1

@[simp] theorem backInvalidate_mem (s : State) (pline : Nat) : (s.backInvalidate pline).mem = s.mem := by
  unfold backInvalidate
  split <;> rfl

theorem rawWrite_wf (s : State) (pa : Nat) (l : List Byte) (h : Memory.wf s.mem) : Memory.wf (s.rawWrite pa l).mem :=
  rawPutLine_wf _ _ _ _ (rawRecall_wf _ _ (by rwa [backInvalidate_mem]))

theorem putRecord_wf (s : State) (a b c d e f : Nat) (h : Memory.wf s.mem) : Memory.wf (s.putRecord a b c d e f).1.mem := by
  unfold putRecord
  split
  · exact h
  · simp only [postMsix]
    exact rawWrite_wf _ _ _ h

theorem recordsOf_wf (n : Nat) : ∀ (s : State) (l : Option Nat), Memory.wf s.mem → Memory.wf (s.recordsOf n l).mem := by
  induction n with
  | zero => intro s l h; cases l <;> exact h
  | succ n ih =>
    intro s l h
    cases l with
    | none => exact h
    | some l => exact ih _ _ (putRecord_wf _ _ _ _ _ _ _ h)

theorem postError_wf (s : State) (a b c d e f : Nat) (h : Memory.wf s.mem) : Memory.wf (s.postError a b c d e f).mem :=
  recordsOf_wf _ _ _ (putRecord_wf _ _ _ _ _ _ _ h)

theorem retireLine_wf (s : State) (pline : Nat) (keep : BitVec 128) (h : Memory.wf s.mem) :
    Memory.wf (s.retireLine pline keep).mem := postError_wf _ _ _ _ _ _ _ (spareLine_wf _ _ _ h)

theorem memPutLine_wf (s : State) (pline : Nat) (m : BitVec 128) (d : BitVec 1024) (h : Memory.wf s.mem) :
    Memory.wf (s.memPutLine pline m d).mem := by
  have k := rawPutLine_wf s pline m d h
  unfold memPutLine
  dsimp only
  split
  · exact k
  · exact postError_wf _ _ _ _ _ _ _ k

theorem forget_wf (s : State) (lo hi : Nat) (h : Memory.wf s.mem) : Memory.wf (s.forget lo hi).mem := canon_filter _ _ h

theorem afterReset_wf (s : State) (h : Memory.wf s.mem) : Memory.wf s.afterReset.mem := canon_filter _ _ h

end State

end Sys2Proof.Machine
end

