-- ==== Sys2Proof/Laws/Words.lean ====
section
/-! SUPPORT. The fields of a word that was put together are the fields it was put together from, and its opcode is the one
given (02 R35, R36). -/

namespace Sys2Proof

/-- A field above the lower part of a word put together from two parts. -/
theorem cut_high {a n : Nat} (lo m : Nat) (x : BitVec a) (y : BitVec n) (hl : n ≤ lo) :
    (x ++ y).extractLsb' lo m = x.extractLsb' (lo - n) m := by
  ext i hi
  simp [BitVec.getLsbD_append, show ¬ lo + i < n by omega, show lo + i - n = lo - n + i by omega]

/-- A field within the lower part. -/
theorem cut_low {a n : Nat} (lo m : Nat) (x : BitVec a) (y : BitVec n) (hl : lo + m ≤ n) :
    (x ++ y).extractLsb' lo m = y.extractLsb' lo m := by
  ext i hi
  simp [BitVec.getLsbD_append, show lo + i < n by omega]

theorem cut_all {n : Nat} (x : BitVec n) : x.extractLsb' 0 n = x := by
  ext i hi; simp

/-- A field of a field. -/
theorem cut_cut {n : Nat} (x : BitVec n) (lo m k j : Nat) (h : k + j ≤ m) :
    (x.extractLsb' lo m).extractLsb' k j = x.extractLsb' (lo + k) j := by
  ext i hi
  simp [show k + i < m by omega, show lo + (k + i) = lo + k + i by omega]

/-- The schedule of a word is read back from the 12 bits it was put together from. -/
theorem sched_of_top (f : Sched) (x : W64) (h : x.extractLsb' 52 12 = f.toBits) : Sched.ofWord x = f := by
  have e (k m : Nat) (hk : k + m ≤ 12) : bits x (52 + k) m = f.toBits.extractLsb' k m := by
    rw [← h]; exact (cut_cut x 52 12 k m hk).symm
  cases f with
  | mk dl yh fs hh g1 g0 =>
  simp only [Sched.ofWord, Sched.mk.injEq]
  refine ⟨(e 10 2 (by omega)).trans ?_, (e 9 1 (by omega)).trans ?_, (e 8 1 (by omega)).trans ?_,
    (e 6 2 (by omega)).trans ?_, (e 3 3 (by omega)).trans ?_, (e 0 3 (by omega)).trans ?_⟩
  all_goals
    show @BitVec.extractLsb' (2 + 1 + 1 + 2 + 3 + 3) _ _ (dl ++ yh ++ fs ++ hh ++ g1 ++ g0) = _
    simp (disch := omega) only [cut_high, cut_low, cut_all, Nat.reduceSub]

theorem vword_ofWord (w : VWord) (op : BitVec 8) : VWord.ofWord (w.toWord op) = w := by
  have e (lo m : Nat) : bits (w.toWord op) lo m = @BitVec.extractLsb' (12 + 7 + 3 + 7 + 3 + 7 + 3 + 7 + 7 + 8) lo m
    (w.sched.toBits ++ w.e ++ w.c.xb ++ w.c.reg ++ w.b.xb ++ w.b.reg ++ w.a.xb ++ w.a.reg ++ w.d ++ op) := rfl
  have h : Sched.ofWord (w.toWord op) = w.sched := sched_of_top _ _ (by
    refine (e 52 12).trans ?_
    simp (disch := omega) only [cut_high, cut_all, Nat.reduceSub])
  simp (disch := omega) only [VWord.ofWord, h, e, cut_high, cut_low, cut_all, Nat.reduceSub]

theorem iword_ofWord (w : IWord) (op : BitVec 8) : IWord.ofWord (w.toWord op) = w := by
  have e (lo m : Nat) : bits (w.toWord op) lo m = @BitVec.extractLsb' (12 + 27 + 3 + 7 + 7 + 8) lo m
    (w.sched.toBits ++ w.imm ++ w.a.xb ++ w.a.reg ++ w.d ++ op) := rfl
  have h : Sched.ofWord (w.toWord op) = w.sched := sched_of_top _ _ (by
    refine (e 52 12).trans ?_
    simp (disch := omega) only [cut_high, cut_all, Nat.reduceSub])
  simp (disch := omega) only [IWord.ofWord, h, e, cut_high, cut_low, cut_all, Nat.reduceSub]

theorem mword_ofWord (w : MWord) (op : BitVec 8) : MWord.ofWord (w.toWord op) = w := by
  have e (lo m : Nat) : bits (w.toWord op) lo m = @BitVec.extractLsb' (12 + 17 + 3 + 7 + 3 + 7 + 7 + 8) lo m
    (w.sched.toBits ++ w.off ++ w.size ++ w.b ++ w.a.xb ++ w.a.reg ++ w.d ++ op) := rfl
  have h : Sched.ofWord (w.toWord op) = w.sched := sched_of_top _ _ (by
    refine (e 52 12).trans ?_
    simp (disch := omega) only [cut_high, cut_all, Nat.reduceSub])
  simp (disch := omega) only [MWord.ofWord, h, e, cut_high, cut_low, cut_all, Nat.reduceSub]

theorem kword_ofWord (w : KWord) (op : BitVec 8) : KWord.ofWord (w.toWord op) = w := by
  have e (lo m : Nat) : bits (w.toWord op) lo m = @BitVec.extractLsb' (12 + 27 + 3 + 7 + 7 + 8) lo m
    (w.sched.toBits ++ w.off ++ w.a.xb ++ w.a.reg ++ w.d ++ op) := rfl
  have h : Sched.ofWord (w.toWord op) = w.sched := sched_of_top _ _ (by
    refine (e 52 12).trans ?_
    simp (disch := omega) only [cut_high, cut_all, Nat.reduceSub])
  simp (disch := omega) only [KWord.ofWord, h, e, cut_high, cut_low, cut_all, Nat.reduceSub]

/-- The opcode of a word whose low byte is known. -/
theorem opcode_of_low (x : W64) (op : BitVec 8) (h : bits x 0 8 = op) : opcode x = op.toNat := by
  have := congrArg BitVec.toNat h
  simpa [opcode, BitVec.extractLsb'] using this

theorem vword_opcode (w : VWord) (op : BitVec 8) : opcode (w.toWord op) = op.toNat :=
  opcode_of_low _ _ ((cut_low 0 8 (w.sched.toBits ++ w.e ++ w.c.xb ++ w.c.reg ++ w.b.xb ++ w.b.reg ++ w.a.xb ++ w.a.reg ++ w.d)
    op (by omega)).trans (cut_all op))

theorem iword_opcode (w : IWord) (op : BitVec 8) : opcode (w.toWord op) = op.toNat :=
  opcode_of_low _ _ ((cut_low 0 8 (w.sched.toBits ++ w.imm ++ w.a.xb ++ w.a.reg ++ w.d) op (by omega)).trans (cut_all op))

theorem mword_opcode (w : MWord) (op : BitVec 8) : opcode (w.toWord op) = op.toNat :=
  opcode_of_low _ _ ((cut_low 0 8 (w.sched.toBits ++ w.off ++ w.size ++ w.b ++ w.a.xb ++ w.a.reg ++ w.d) op
    (by omega)).trans (cut_all op))

theorem kword_opcode (w : KWord) (op : BitVec 8) : opcode (w.toWord op) = op.toNat :=
  opcode_of_low _ _ ((cut_low 0 8 (w.sched.toBits ++ w.off ++ w.a.xb ++ w.a.reg ++ w.d) op (by omega)).trans (cut_all op))

end Sys2Proof
end

