-- ==== Sys2Proof/Laws/PerInstr.lean ====
section
/-! SUPPORT. For every instruction: the decoder reads a well-formed word back from its encoding, and an event has no
encoding and no row in the encoding tables. -/

namespace Sys2Proof.Laws

namespace Fields

/-- A word decodes from its own encoding with every field as it was; an event has none. -/
def Statement (i : Instr) : Prop :=
  match encode? i with
  | some x => i.wellFormed = true → decodeWord x = .ok i
  | none => shape i = none

theorem enc_of_wf {i : Instr} {p : Shape} (hs : shape i = some p) (h : i.wellFormed = true) : p.encOk = true := by
  simp [Instr.wellFormed, hs, Shape.ok] at h
  exact h.1.1.1.1

theorem fields_at (x : W64) (n : Nat) (h : opcode x = n) : fields x = fieldsAt n x := by
  rw [fields, h]

/-- A word whose fields are read back, and whose tables accept it, decodes. -/
theorem decode_of_fields {x : W64} {i : Instr} (h : fields x = some i) (hw : i.wellFormed = true) :
    decodeWord x = .ok i := by
  unfold decodeWord
  rw [h]
  cases hs : shape i with
  | none => simp [hs]
  | some p => simp [Instr.wellFormed, hs] at hw; simp [hs, hw]

theorem clauseStart (core islot : Nat) :
    Statement (.clauseStart core islot) := rfl

theorem issueDelayExpiry (g : Nat) :
    Statement (.issueDelayExpiry g) := rfl

theorem flagStallResume (g : Nat) :
    Statement (.flagStallResume g) := rfl

theorem blockedWordResume (g : Nat) :
    Statement (.blockedWordResume g) := rfl

theorem longLatencyCompletion (op : Nat) :
    Statement (.longLatencyCompletion op) := rfl

theorem lateFaultDelivery (g : Nat) :
    Statement (.lateFaultDelivery g) := rfl

theorem ill (high : Bool) (rest : BitVec 56) : Statement (.ill high rest) := by
  intro h
  have o : ∀ op : BitVec 8, opcode (rest ++ op : W64) = op.toNat := fun op =>
    opcode_of_low _ _ ((cut_low 0 8 rest op (by omega)).trans (cut_all op))
  have r : ∀ op : BitVec 8, bits (rest ++ op : W64) 8 56 = rest := fun op =>
    (cut_high 8 56 rest op (by omega)).trans (cut_all rest)
  refine decode_of_fields ?_ h
  cases high
  · exact (fields_at _ _ (o 0x00)).trans (congrArg (fun v => some (Instr.ill false v)) (r 0x00))
  · exact (fields_at _ _ (o 0xFF)).trans (congrArg (fun v => some (Instr.ill true v)) (r 0xFF))

theorem nop (w : VWord) : Statement (.nop w) := by
  intro h
  refine decode_of_fields ?_ h
  exact (fields_at _ _ (vword_opcode w 0x01)).trans (congrArg (fun v => some (Instr.nop v)) (vword_ofWord w _))

theorem bra (w : KWord) : Statement (.bra w) := by
  intro h
  refine decode_of_fields ?_ h
  exact (fields_at _ _ (kword_opcode w 0x02)).trans (congrArg (fun v => some (Instr.bra v)) (kword_ofWord w _))

theorem brx (w : VWord) : Statement (.brx w) := by
  intro h
  refine decode_of_fields ?_ h
  exact (fields_at _ _ (vword_opcode w 0x03)).trans (congrArg (fun v => some (Instr.brx v)) (vword_ofWord w _))

theorem call (w : KWord) : Statement (.call w) := by
  intro h
  refine decode_of_fields ?_ h
  exact (fields_at _ _ (kword_opcode w 0x04)).trans (congrArg (fun v => some (Instr.call v)) (kword_ofWord w _))

theorem callx (w : VWord) : Statement (.callx w) := by
  intro h
  refine decode_of_fields ?_ h
  exact (fields_at _ _ (vword_opcode w 0x05)).trans (congrArg (fun v => some (Instr.callx v)) (vword_ofWord w _))

theorem ret (w : VWord) : Statement (.ret w) := by
  intro h
  refine decode_of_fields ?_ h
  exact (fields_at _ _ (vword_opcode w 0x06)).trans (congrArg (fun v => some (Instr.ret v)) (vword_ofWord w _))

theorem exit (w : VWord) : Statement (.exit w) := by
  intro h
  refine decode_of_fields ?_ h
  exact (fields_at _ _ (vword_opcode w 0x07)).trans (congrArg (fun v => some (Instr.exit v)) (vword_ofWord w _))

theorem meet (w : KWord) : Statement (.meet w) := by
  intro h
  refine decode_of_fields ?_ h
  exact (fields_at _ _ (kword_opcode w 0x08)).trans (congrArg (fun v => some (Instr.meet v)) (kword_ofWord w _))

theorem meetx (w : VWord) : Statement (.meetx w) := by
  intro h
  refine decode_of_fields ?_ h
  exact (fields_at _ _ (vword_opcode w 0x09)).trans (congrArg (fun v => some (Instr.meetx v)) (vword_ofWord w _))

theorem meetclr (w : VWord) : Statement (.meetclr w) := by
  intro h
  refine decode_of_fields ?_ h
  exact (fields_at _ _ (vword_opcode w 0x0A)).trans (congrArg (fun v => some (Instr.meetclr v)) (vword_ofWord w _))

theorem yield (w : VWord) : Statement (.yield w) := by
  intro h
  refine decode_of_fields ?_ h
  exact (fields_at _ _ (vword_opcode w 0x0B)).trans (congrArg (fun v => some (Instr.yield v)) (vword_ofWord w _))

theorem qhelp (w : VWord) : Statement (.qhelp w) := by
  intro h
  refine decode_of_fields ?_ h
  exact (fields_at _ _ (vword_opcode w 0x0C)).trans (congrArg (fun v => some (Instr.qhelp v)) (vword_ofWord w _))

theorem succ (w : KWord) : Statement (.succ w) := by
  intro h
  refine decode_of_fields ?_ h
  exact (fields_at _ _ (kword_opcode w 0x0D)).trans (congrArg (fun v => some (Instr.succ v)) (kword_ofWord w _))

theorem succx (w : VWord) : Statement (.succx w) := by
  intro h
  refine decode_of_fields ?_ h
  exact (fields_at _ _ (vword_opcode w 0x0E)).trans (congrArg (fun v => some (Instr.succx v)) (vword_ofWord w _))

theorem refill (w : VWord) : Statement (.refill w) := by
  intro h
  refine decode_of_fields ?_ h
  exact (fields_at _ _ (vword_opcode w 0x0F)).trans (congrArg (fun v => some (Instr.refill v)) (vword_ofWord w _))

theorem bars (w : VWord) : Statement (.bars w) := by
  intro h
  refine decode_of_fields ?_ h
  exact (fields_at _ _ (vword_opcode w 0x10)).trans (congrArg (fun v => some (Instr.bars v)) (vword_ofWord w _))

theorem bara (w : VWord) : Statement (.bara w) := by
  intro h
  refine decode_of_fields ?_ h
  exact (fields_at _ _ (vword_opcode w 0x11)).trans (congrArg (fun v => some (Instr.bara v)) (vword_ofWord w _))

theorem barw (w : VWord) : Statement (.barw w) := by
  intro h
  refine decode_of_fields ?_ h
  exact (fields_at _ _ (vword_opcode w 0x12)).trans (congrArg (fun v => some (Instr.barw v)) (vword_ofWord w _))

theorem trap (w : IWord) : Statement (.trap w) := by
  intro h
  refine decode_of_fields ?_ h
  exact (fields_at _ _ (iword_opcode w 0x13)).trans (congrArg (fun v => some (Instr.trap v)) (iword_ofWord w _))

theorem bkpt (w : IWord) : Statement (.bkpt w) := by
  intro h
  refine decode_of_fields ?_ h
  exact (fields_at _ _ (iword_opcode w 0x14)).trans (congrArg (fun v => some (Instr.bkpt v)) (iword_ofWord w _))

theorem iadd (w : VWord) : Statement (.iadd w) := by
  intro h
  refine decode_of_fields ?_ h
  exact (fields_at _ _ (vword_opcode w 0x20)).trans (congrArg (fun v => some (Instr.iadd v)) (vword_ofWord w _))

theorem isub (w : VWord) : Statement (.isub w) := by
  intro h
  refine decode_of_fields ?_ h
  exact (fields_at _ _ (vword_opcode w 0x21)).trans (congrArg (fun v => some (Instr.isub v)) (vword_ofWord w _))

theorem iaddi (w : IWord) : Statement (.iaddi w) := by
  intro h
  refine decode_of_fields ?_ h
  exact (fields_at _ _ (iword_opcode w 0x22)).trans (congrArg (fun v => some (Instr.iaddi v)) (iword_ofWord w _))

theorem imul (w : VWord) : Statement (.imul w) := by
  intro h
  refine decode_of_fields ?_ h
  exact (fields_at _ _ (vword_opcode w 0x23)).trans (congrArg (fun v => some (Instr.imul v)) (vword_ofWord w _))

theorem imulh (w : VWord) : Statement (.imulh w) := by
  intro h
  refine decode_of_fields ?_ h
  exact (fields_at _ _ (vword_opcode w 0x24)).trans (congrArg (fun v => some (Instr.imulh v)) (vword_ofWord w _))

theorem imad (w : VWord) : Statement (.imad w) := by
  intro h
  refine decode_of_fields ?_ h
  exact (fields_at _ _ (vword_opcode w 0x25)).trans (congrArg (fun v => some (Instr.imad v)) (vword_ofWord w _))

theorem idiv (w : VWord) : Statement (.idiv w) := by
  intro h
  refine decode_of_fields ?_ h
  exact (fields_at _ _ (vword_opcode w 0x26)).trans (congrArg (fun v => some (Instr.idiv v)) (vword_ofWord w _))

theorem irem (w : VWord) : Statement (.irem w) := by
  intro h
  refine decode_of_fields ?_ h
  exact (fields_at _ _ (vword_opcode w 0x27)).trans (congrArg (fun v => some (Instr.irem v)) (vword_ofWord w _))

theorem imin (w : VWord) : Statement (.imin w) := by
  intro h
  refine decode_of_fields ?_ h
  exact (fields_at _ _ (vword_opcode w 0x28)).trans (congrArg (fun v => some (Instr.imin v)) (vword_ofWord w _))

theorem imax (w : VWord) : Statement (.imax w) := by
  intro h
  refine decode_of_fields ?_ h
  exact (fields_at _ _ (vword_opcode w 0x29)).trans (congrArg (fun v => some (Instr.imax v)) (vword_ofWord w _))

theorem iabs (w : VWord) : Statement (.iabs w) := by
  intro h
  refine decode_of_fields ?_ h
  exact (fields_at _ _ (vword_opcode w 0x2A)).trans (congrArg (fun v => some (Instr.iabs v)) (vword_ofWord w _))

theorem ineg (w : VWord) : Statement (.ineg w) := by
  intro h
  refine decode_of_fields ?_ h
  exact (fields_at _ _ (vword_opcode w 0x2B)).trans (congrArg (fun v => some (Instr.ineg v)) (vword_ofWord w _))

theorem iadds (w : VWord) : Statement (.iadds w) := by
  intro h
  refine decode_of_fields ?_ h
  exact (fields_at _ _ (vword_opcode w 0x2C)).trans (congrArg (fun v => some (Instr.iadds v)) (vword_ofWord w _))

theorem isubs (w : VWord) : Statement (.isubs w) := by
  intro h
  refine decode_of_fields ?_ h
  exact (fields_at _ _ (vword_opcode w 0x2D)).trans (congrArg (fun v => some (Instr.isubs v)) (vword_ofWord w _))

theorem iavg (w : VWord) : Statement (.iavg w) := by
  intro h
  refine decode_of_fields ?_ h
  exact (fields_at _ _ (vword_opcode w 0x2E)).trans (congrArg (fun v => some (Instr.iavg v)) (vword_ofWord w _))

theorem icmp (w : VWord) : Statement (.icmp w) := by
  intro h
  refine decode_of_fields ?_ h
  exact (fields_at _ _ (vword_opcode w 0x2F)).trans (congrArg (fun v => some (Instr.icmp v)) (vword_ofWord w _))

theorem and (w : VWord) : Statement (.and w) := by
  intro h
  refine decode_of_fields ?_ h
  exact (fields_at _ _ (vword_opcode w 0x30)).trans (congrArg (fun v => some (Instr.and v)) (vword_ofWord w _))

theorem or (w : VWord) : Statement (.or w) := by
  intro h
  refine decode_of_fields ?_ h
  exact (fields_at _ _ (vword_opcode w 0x31)).trans (congrArg (fun v => some (Instr.or v)) (vword_ofWord w _))

theorem xor (w : VWord) : Statement (.xor w) := by
  intro h
  refine decode_of_fields ?_ h
  exact (fields_at _ _ (vword_opcode w 0x32)).trans (congrArg (fun v => some (Instr.xor v)) (vword_ofWord w _))

theorem not (w : VWord) : Statement (.not w) := by
  intro h
  refine decode_of_fields ?_ h
  exact (fields_at _ _ (vword_opcode w 0x33)).trans (congrArg (fun v => some (Instr.not v)) (vword_ofWord w _))

theorem andn (w : VWord) : Statement (.andn w) := by
  intro h
  refine decode_of_fields ?_ h
  exact (fields_at _ _ (vword_opcode w 0x34)).trans (congrArg (fun v => some (Instr.andn v)) (vword_ofWord w _))

theorem orn (w : VWord) : Statement (.orn w) := by
  intro h
  refine decode_of_fields ?_ h
  exact (fields_at _ _ (vword_opcode w 0x35)).trans (congrArg (fun v => some (Instr.orn v)) (vword_ofWord w _))

theorem shl (w : VWord) : Statement (.shl w) := by
  intro h
  refine decode_of_fields ?_ h
  exact (fields_at _ _ (vword_opcode w 0x36)).trans (congrArg (fun v => some (Instr.shl v)) (vword_ofWord w _))

theorem shr (w : VWord) : Statement (.shr w) := by
  intro h
  refine decode_of_fields ?_ h
  exact (fields_at _ _ (vword_opcode w 0x37)).trans (congrArg (fun v => some (Instr.shr v)) (vword_ofWord w _))

theorem sar (w : VWord) : Statement (.sar w) := by
  intro h
  refine decode_of_fields ?_ h
  exact (fields_at _ _ (vword_opcode w 0x38)).trans (congrArg (fun v => some (Instr.sar v)) (vword_ofWord w _))

theorem rot (w : VWord) : Statement (.rot w) := by
  intro h
  refine decode_of_fields ?_ h
  exact (fields_at _ _ (vword_opcode w 0x39)).trans (congrArg (fun v => some (Instr.rot v)) (vword_ofWord w _))

theorem fshf (w : VWord) : Statement (.fshf w) := by
  intro h
  refine decode_of_fields ?_ h
  exact (fields_at _ _ (vword_opcode w 0x3A)).trans (congrArg (fun v => some (Instr.fshf v)) (vword_ofWord w _))

theorem clz (w : VWord) : Statement (.clz w) := by
  intro h
  refine decode_of_fields ?_ h
  exact (fields_at _ _ (vword_opcode w 0x3B)).trans (congrArg (fun v => some (Instr.clz v)) (vword_ofWord w _))

theorem ffs (w : VWord) : Statement (.ffs w) := by
  intro h
  refine decode_of_fields ?_ h
  exact (fields_at _ _ (vword_opcode w 0x3C)).trans (congrArg (fun v => some (Instr.ffs v)) (vword_ofWord w _))

theorem popc (w : VWord) : Statement (.popc w) := by
  intro h
  refine decode_of_fields ?_ h
  exact (fields_at _ _ (vword_opcode w 0x3D)).trans (congrArg (fun v => some (Instr.popc v)) (vword_ofWord w _))

theorem brev (w : VWord) : Statement (.brev w) := by
  intro h
  refine decode_of_fields ?_ h
  exact (fields_at _ _ (vword_opcode w 0x3E)).trans (congrArg (fun v => some (Instr.brev v)) (vword_ofWord w _))

theorem bfx (w : VWord) : Statement (.bfx w) := by
  intro h
  refine decode_of_fields ?_ h
  exact (fields_at _ _ (vword_opcode w 0x3F)).trans (congrArg (fun v => some (Instr.bfx v)) (vword_ofWord w _))

theorem bfi (w : VWord) : Statement (.bfi w) := by
  intro h
  refine decode_of_fields ?_ h
  exact (fields_at _ _ (vword_opcode w 0x40)).trans (congrArg (fun v => some (Instr.bfi v)) (vword_ofWord w _))

theorem sel (w : VWord) : Statement (.sel w) := by
  intro h
  refine decode_of_fields ?_ h
  exact (fields_at _ _ (vword_opcode w 0x41)).trans (congrArg (fun v => some (Instr.sel v)) (vword_ofWord w _))

theorem mov (w : VWord) : Statement (.mov w) := by
  intro h
  refine decode_of_fields ?_ h
  exact (fields_at _ _ (vword_opcode w 0x42)).trans (congrArg (fun v => some (Instr.mov v)) (vword_ofWord w _))

theorem movi (w : IWord) : Statement (.movi w) := by
  intro h
  refine decode_of_fields ?_ h
  exact (fields_at _ _ (iword_opcode w 0x43)).trans (congrArg (fun v => some (Instr.movi v)) (iword_ofWord w _))

theorem movhi (w : IWord) : Statement (.movhi w) := by
  intro h
  refine decode_of_fields ?_ h
  exact (fields_at _ _ (iword_opcode w 0x44)).trans (congrArg (fun v => some (Instr.movhi v)) (iword_ofWord w _))

theorem lea (w : VWord) : Statement (.lea w) := by
  intro h
  refine decode_of_fields ?_ h
  exact (fields_at _ _ (vword_opcode w 0x45)).trans (congrArg (fun v => some (Instr.lea v)) (vword_ofWord w _))

theorem iext (w : VWord) : Statement (.iext w) := by
  intro h
  have p : fieldsAt 0x46 (w.toWord 0x46) = some ((fun v : VWord => if (v.ty == 0 || v.ty == 8) then Instr.iextWide v else .iext v) (VWord.ofWord (w.toWord 0x46))) := rfl
  have e := enc_of_wf rfl h
  refine decode_of_fields ((fields_at _ 0x46 (vword_opcode w 0x46)).trans (p.trans ?_)) h
  rw [vword_ofWord]
  simp [vecU] at e
  rcases e.1 with ((q | q) | q) | q <;> simp [q]

theorem iextWide (w : VWord) : Statement (.iextWide w) := by
  intro h
  have p : fieldsAt 0x46 (w.toWord 0x46) = some ((fun v : VWord => if (v.ty == 0 || v.ty == 8) then Instr.iextWide v else .iext v) (VWord.ofWord (w.toWord 0x46))) := rfl
  have e := enc_of_wf rfl h
  refine decode_of_fields ((fields_at _ 0x46 (vword_opcode w 0x46)).trans (p.trans ?_)) h
  rw [vword_ofWord]
  simp [vecU] at e
  rcases e.1 with q | q <;> simp [q]

theorem pack (w : VWord) : Statement (.pack w) := by
  intro h
  refine decode_of_fields ?_ h
  exact (fields_at _ _ (vword_opcode w 0x47)).trans (congrArg (fun v => some (Instr.pack v)) (vword_ofWord w _))

theorem unpk (w : VWord) : Statement (.unpk w) := by
  intro h
  refine decode_of_fields ?_ h
  exact (fields_at _ _ (vword_opcode w 0x48)).trans (congrArg (fun v => some (Instr.unpk v)) (vword_ofWord w _))

theorem bytep (w : VWord) : Statement (.bytep w) := by
  intro h
  refine decode_of_fields ?_ h
  exact (fields_at _ _ (vword_opcode w 0x49)).trans (congrArg (fun v => some (Instr.bytep v)) (vword_ofWord w _))

theorem idot4 (w : VWord) : Statement (.idot4 w) := by
  intro h
  refine decode_of_fields ?_ h
  exact (fields_at _ _ (vword_opcode w 0x4A)).trans (congrArg (fun v => some (Instr.idot4 v)) (vword_ofWord w _))

theorem idot2 (w : VWord) : Statement (.idot2 w) := by
  intro h
  refine decode_of_fields ?_ h
  exact (fields_at _ _ (vword_opcode w 0x4B)).trans (congrArg (fun v => some (Instr.idot2 v)) (vword_ofWord w _))

theorem shli (w : IWord) : Statement (.shli w) := by
  intro h
  refine decode_of_fields ?_ h
  exact (fields_at _ _ (iword_opcode w 0x4C)).trans (congrArg (fun v => some (Instr.shli v)) (iword_ofWord w _))

theorem shri (w : IWord) : Statement (.shri w) := by
  intro h
  refine decode_of_fields ?_ h
  exact (fields_at _ _ (iword_opcode w 0x4D)).trans (congrArg (fun v => some (Instr.shri v)) (iword_ofWord w _))

theorem sari (w : IWord) : Statement (.sari w) := by
  intro h
  refine decode_of_fields ?_ h
  exact (fields_at _ _ (iword_opcode w 0x4E)).trans (congrArg (fun v => some (Instr.sari v)) (iword_ofWord w _))

theorem fadd (w : VWord) : Statement (.fadd w) := by
  intro h
  refine decode_of_fields ?_ h
  exact (fields_at _ _ (vword_opcode w 0x50)).trans (congrArg (fun v => some (Instr.fadd v)) (vword_ofWord w _))

theorem fsub (w : VWord) : Statement (.fsub w) := by
  intro h
  refine decode_of_fields ?_ h
  exact (fields_at _ _ (vword_opcode w 0x51)).trans (congrArg (fun v => some (Instr.fsub v)) (vword_ofWord w _))

theorem fmul (w : VWord) : Statement (.fmul w) := by
  intro h
  refine decode_of_fields ?_ h
  exact (fields_at _ _ (vword_opcode w 0x52)).trans (congrArg (fun v => some (Instr.fmul v)) (vword_ofWord w _))

theorem fma (w : VWord) : Statement (.fma w) := by
  intro h
  refine decode_of_fields ?_ h
  exact (fields_at _ _ (vword_opcode w 0x53)).trans (congrArg (fun v => some (Instr.fma v)) (vword_ofWord w _))

theorem fmin (w : VWord) : Statement (.fmin w) := by
  intro h
  refine decode_of_fields ?_ h
  exact (fields_at _ _ (vword_opcode w 0x54)).trans (congrArg (fun v => some (Instr.fmin v)) (vword_ofWord w _))

theorem fmax (w : VWord) : Statement (.fmax w) := by
  intro h
  refine decode_of_fields ?_ h
  exact (fields_at _ _ (vword_opcode w 0x55)).trans (congrArg (fun v => some (Instr.fmax v)) (vword_ofWord w _))

theorem fabs (w : VWord) : Statement (.fabs w) := by
  intro h
  refine decode_of_fields ?_ h
  exact (fields_at _ _ (vword_opcode w 0x56)).trans (congrArg (fun v => some (Instr.fabs v)) (vword_ofWord w _))

theorem fneg (w : VWord) : Statement (.fneg w) := by
  intro h
  refine decode_of_fields ?_ h
  exact (fields_at _ _ (vword_opcode w 0x57)).trans (congrArg (fun v => some (Instr.fneg v)) (vword_ofWord w _))

theorem fcmp (w : VWord) : Statement (.fcmp w) := by
  intro h
  refine decode_of_fields ?_ h
  exact (fields_at _ _ (vword_opcode w 0x58)).trans (congrArg (fun v => some (Instr.fcmp v)) (vword_ofWord w _))

theorem frcp (w : VWord) : Statement (.frcp w) := by
  intro h
  refine decode_of_fields ?_ h
  exact (fields_at _ _ (vword_opcode w 0x59)).trans (congrArg (fun v => some (Instr.frcp v)) (vword_ofWord w _))

theorem frsq (w : VWord) : Statement (.frsq w) := by
  intro h
  refine decode_of_fields ?_ h
  exact (fields_at _ _ (vword_opcode w 0x5A)).trans (congrArg (fun v => some (Instr.frsq v)) (vword_ofWord w _))

theorem fsqrt (w : VWord) : Statement (.fsqrt w) := by
  intro h
  refine decode_of_fields ?_ h
  exact (fields_at _ _ (vword_opcode w 0x5B)).trans (congrArg (fun v => some (Instr.fsqrt v)) (vword_ofWord w _))

theorem fdiv (w : VWord) : Statement (.fdiv w) := by
  intro h
  refine decode_of_fields ?_ h
  exact (fields_at _ _ (vword_opcode w 0x5C)).trans (congrArg (fun v => some (Instr.fdiv v)) (vword_ofWord w _))

theorem fexp2 (w : VWord) : Statement (.fexp2 w) := by
  intro h
  refine decode_of_fields ?_ h
  exact (fields_at _ _ (vword_opcode w 0x5D)).trans (congrArg (fun v => some (Instr.fexp2 v)) (vword_ofWord w _))

theorem flog2 (w : VWord) : Statement (.flog2 w) := by
  intro h
  refine decode_of_fields ?_ h
  exact (fields_at _ _ (vword_opcode w 0x5E)).trans (congrArg (fun v => some (Instr.flog2 v)) (vword_ofWord w _))

theorem fsin (w : VWord) : Statement (.fsin w) := by
  intro h
  refine decode_of_fields ?_ h
  exact (fields_at _ _ (vword_opcode w 0x5F)).trans (congrArg (fun v => some (Instr.fsin v)) (vword_ofWord w _))

theorem fcos (w : VWord) : Statement (.fcos w) := by
  intro h
  refine decode_of_fields ?_ h
  exact (fields_at _ _ (vword_opcode w 0x60)).trans (congrArg (fun v => some (Instr.fcos v)) (vword_ofWord w _))

theorem ftanh (w : VWord) : Statement (.ftanh w) := by
  intro h
  refine decode_of_fields ?_ h
  exact (fields_at _ _ (vword_opcode w 0x61)).trans (congrArg (fun v => some (Instr.ftanh v)) (vword_ofWord w _))

theorem fclass (w : VWord) : Statement (.fclass w) := by
  intro h
  refine decode_of_fields ?_ h
  exact (fields_at _ _ (vword_opcode w 0x62)).trans (congrArg (fun v => some (Instr.fclass v)) (vword_ofWord w _))

theorem frnd (w : VWord) : Statement (.frnd w) := by
  intro h
  refine decode_of_fields ?_ h
  exact (fields_at _ _ (vword_opcode w 0x63)).trans (congrArg (fun v => some (Instr.frnd v)) (vword_ofWord w _))

theorem cvtf (w : VWord) : Statement (.cvtf w) := by
  intro h
  have p : fieldsAt 0x64 (w.toWord 0x64) = some ((fun v : VWord => if v.ebit 6 then Instr.cvtfWide v else .cvtf v) (VWord.ofWord (w.toWord 0x64))) := rfl
  have e := enc_of_wf rfl h
  refine decode_of_fields ((fields_at _ 0x64 (vword_opcode w 0x64)).trans (p.trans ?_)) h
  rw [vword_ofWord]
  simp [vecU] at e
  simp [e]

theorem cvtfWide (w : VWord) : Statement (.cvtfWide w) := by
  intro h
  have p : fieldsAt 0x64 (w.toWord 0x64) = some ((fun v : VWord => if v.ebit 6 then Instr.cvtfWide v else .cvtf v) (VWord.ofWord (w.toWord 0x64))) := rfl
  have e := enc_of_wf rfl h
  refine decode_of_fields ((fields_at _ 0x64 (vword_opcode w 0x64)).trans (p.trans ?_)) h
  rw [vword_ofWord]
  simp [vecU] at e
  simp [e]

theorem cvti (w : VWord) : Statement (.cvti w) := by
  intro h
  refine decode_of_fields ?_ h
  exact (fields_at _ _ (vword_opcode w 0x65)).trans (congrArg (fun v => some (Instr.cvti v)) (vword_ofWord w _))

theorem icvtf (w : VWord) : Statement (.icvtf w) := by
  intro h
  refine decode_of_fields ?_ h
  exact (fields_at _ _ (vword_opcode w 0x66)).trans (congrArg (fun v => some (Instr.icvtf v)) (vword_ofWord w _))

theorem scacc (w : VWord) : Statement (.scacc w) := by
  intro h
  refine decode_of_fields ?_ h
  exact (fields_at _ _ (vword_opcode w 0x67)).trans (congrArg (fun v => some (Instr.scacc v)) (vword_ofWord w _))

theorem scalex (w : VWord) : Statement (.scalex w) := by
  intro h
  refine decode_of_fields ?_ h
  exact (fields_at _ _ (vword_opcode w 0x68)).trans (congrArg (fun v => some (Instr.scalex v)) (vword_ofWord w _))

theorem bfppackScale (w : VWord) : Statement (.bfppackScale w) := by
  intro h
  have p : fieldsAt 0x69 (w.toWord 0x69) = some ((fun v : VWord => if v.ebit 6 then Instr.bfppackScale v else .bfppack v) (VWord.ofWord (w.toWord 0x69))) := rfl
  have e := enc_of_wf rfl h
  refine decode_of_fields ((fields_at _ 0x69 (vword_opcode w 0x69)).trans (p.trans ?_)) h
  rw [vword_ofWord]
  simp [vecU] at e
  simp [e]

theorem bfppack (w : VWord) : Statement (.bfppack w) := by
  intro h
  have p : fieldsAt 0x69 (w.toWord 0x69) = some ((fun v : VWord => if v.ebit 6 then Instr.bfppackScale v else .bfppack v) (VWord.ofWord (w.toWord 0x69))) := rfl
  have e := enc_of_wf rfl h
  refine decode_of_fields ((fields_at _ 0x69 (vword_opcode w 0x69)).trans (p.trans ?_)) h
  rw [vword_ofWord]
  simp [vecU] at e
  simp [e]

theorem bfpunpk (w : VWord) : Statement (.bfpunpk w) := by
  intro h
  refine decode_of_fields ?_ h
  exact (fields_at _ _ (vword_opcode w 0x6A)).trans (congrArg (fun v => some (Instr.bfpunpk v)) (vword_ofWord w _))

theorem fdot2 (w : VWord) : Statement (.fdot2 w) := by
  intro h
  refine decode_of_fields ?_ h
  exact (fields_at _ _ (vword_opcode w 0x6B)).trans (congrArg (fun v => some (Instr.fdot2 v)) (vword_ofWord w _))

theorem fdot4 (w : VWord) : Statement (.fdot4 w) := by
  intro h
  refine decode_of_fields ?_ h
  exact (fields_at _ _ (vword_opcode w 0x6C)).trans (congrArg (fun v => some (Instr.fdot4 v)) (vword_ofWord w _))

theorem lanesel (w : VWord) : Statement (.lanesel w) := by
  intro h
  refine decode_of_fields ?_ h
  exact (fields_at _ _ (vword_opcode w 0x80)).trans (congrArg (fun v => some (Instr.lanesel v)) (vword_ofWord w _))

theorem qswap (w : VWord) : Statement (.qswap w) := by
  intro h
  refine decode_of_fields ?_ h
  exact (fields_at _ _ (vword_opcode w 0x81)).trans (congrArg (fun v => some (Instr.qswap v)) (vword_ofWord w _))

theorem qbcast (w : VWord) : Statement (.qbcast w) := by
  intro h
  refine decode_of_fields ?_ h
  exact (fields_at _ _ (vword_opcode w 0x82)).trans (congrArg (fun v => some (Instr.qbcast v)) (vword_ofWord w _))

theorem vote (w : VWord) : Statement (.vote w) := by
  intro h
  refine decode_of_fields ?_ h
  exact (fields_at _ _ (vword_opcode w 0x83)).trans (congrArg (fun v => some (Instr.vote v)) (vword_ofWord w _))

theorem red (w : VWord) : Statement (.red w) := by
  intro h
  refine decode_of_fields ?_ h
  exact (fields_at _ _ (vword_opcode w 0x84)).trans (congrArg (fun v => some (Instr.red v)) (vword_ofWord w _))

theorem scanx (w : VWord) : Statement (.scanx w) := by
  intro h
  refine decode_of_fields ?_ h
  exact (fields_at _ _ (vword_opcode w 0x85)).trans (congrArg (fun v => some (Instr.scanx v)) (vword_ofWord w _))

theorem matchLanes (w : VWord) : Statement (.matchLanes w) := by
  intro h
  refine decode_of_fields ?_ h
  exact (fields_at _ _ (vword_opcode w 0x86)).trans (congrArg (fun v => some (Instr.matchLanes v)) (vword_ofWord w _))

theorem elect (w : VWord) : Statement (.elect w) := by
  intro h
  refine decode_of_fields ?_ h
  exact (fields_at _ _ (vword_opcode w 0x87)).trans (congrArg (fun v => some (Instr.elect v)) (vword_ofWord w _))

theorem rclaim (w : IWord) : Statement (.rclaim w) := by
  intro h
  refine decode_of_fields ?_ h
  exact (fields_at _ _ (iword_opcode w 0x88)).trans (congrArg (fun v => some (Instr.rclaim v)) (iword_ofWord w _))

theorem rgive (w : IWord) : Statement (.rgive w) := by
  intro h
  refine decode_of_fields ?_ h
  exact (fields_at _ _ (iword_opcode w 0x89)).trans (congrArg (fun v => some (Instr.rgive v)) (iword_ofWord w _))

theorem rtry (w : IWord) : Statement (.rtry w) := by
  intro h
  refine decode_of_fields ?_ h
  exact (fields_at _ _ (iword_opcode w 0x8A)).trans (congrArg (fun v => some (Instr.rtry v)) (iword_ofWord w _))

theorem rcount (w : VWord) : Statement (.rcount w) := by
  intro h
  refine decode_of_fields ?_ h
  exact (fields_at _ _ (vword_opcode w 0x8B)).trans (congrArg (fun v => some (Instr.rcount v)) (vword_ofWord w _))

theorem ld (w : MWord) : Statement (.ld w) := by
  intro h
  refine decode_of_fields ?_ h
  exact (fields_at _ _ (mword_opcode w 0x90)).trans (congrArg (fun v => some (Instr.ld v)) (mword_ofWord w _))

theorem st (w : MWord) : Statement (.st w) := by
  intro h
  refine decode_of_fields ?_ h
  exact (fields_at _ _ (mword_opcode w 0x91)).trans (congrArg (fun v => some (Instr.st v)) (mword_ofWord w _))

theorem ldt (w : VWord) : Statement (.ldt w) := by
  intro h
  refine decode_of_fields ?_ h
  exact (fields_at _ _ (vword_opcode w 0x92)).trans (congrArg (fun v => some (Instr.ldt v)) (vword_ofWord w _))

theorem ldtCompletion (op : Nat) :
    Statement (.ldtCompletion op) := rfl

theorem ldtHoldExpiry (cluster page : Nat) :
    Statement (.ldtHoldExpiry cluster page) := rfl

theorem atom (w : VWord) : Statement (.atom w) := by
  intro h
  refine decode_of_fields ?_ h
  exact (fields_at _ _ (vword_opcode w 0x93)).trans (congrArg (fun v => some (Instr.atom v)) (vword_ofWord w _))

theorem atomcas (w : VWord) : Statement (.atomcas w) := by
  intro h
  refine decode_of_fields ?_ h
  exact (fields_at _ _ (vword_opcode w 0x94)).trans (congrArg (fun v => some (Instr.atomcas v)) (vword_ofWord w _))

theorem redm (w : VWord) : Statement (.redm w) := by
  intro h
  refine decode_of_fields ?_ h
  exact (fields_at _ _ (vword_opcode w 0x95)).trans (congrArg (fun v => some (Instr.redm v)) (vword_ofWord w _))

theorem stmc (w : VWord) : Statement (.stmc w) := by
  intro h
  refine decode_of_fields ?_ h
  exact (fields_at _ _ (vword_opcode w 0x96)).trans (congrArg (fun v => some (Instr.stmc v)) (vword_ofWord w _))

theorem strd (w : VWord) : Statement (.strd w) := by
  intro h
  refine decode_of_fields ?_ h
  exact (fields_at _ _ (vword_opcode w 0x97)).trans (congrArg (fun v => some (Instr.strd v)) (vword_ofWord w _))

theorem pref (w : MWord) : Statement (.pref w) := by
  intro h
  refine decode_of_fields ?_ h
  exact (fields_at _ _ (mword_opcode w 0x98)).trans (congrArg (fun v => some (Instr.pref v)) (mword_ofWord w _))

theorem ldacq (w : MWord) : Statement (.ldacq w) := by
  intro h
  refine decode_of_fields ?_ h
  exact (fields_at _ _ (mword_opcode w 0x99)).trans (congrArg (fun v => some (Instr.ldacq v)) (mword_ofWord w _))

theorem strel (w : MWord) : Statement (.strel w) := by
  intro h
  refine decode_of_fields ?_ h
  exact (fields_at _ _ (mword_opcode w 0x9A)).trans (congrArg (fun v => some (Instr.strel v)) (mword_ofWord w _))

theorem remotePromotionRequest (acquirer cell scope : Nat) :
    Statement (.remotePromotionRequest acquirer cell scope) := rfl

theorem fence (w : VWord) : Statement (.fence w) := by
  intro h
  refine decode_of_fields ?_ h
  exact (fields_at _ _ (vword_opcode w 0x9B)).trans (congrArg (fun v => some (Instr.fence v)) (vword_ofWord w _))

theorem sigclr (w : VWord) : Statement (.sigclr w) := by
  intro h
  refine decode_of_fields ?_ h
  exact (fields_at _ _ (vword_opcode w 0x9C)).trans (congrArg (fun v => some (Instr.sigclr v)) (vword_ofWord w _))

theorem walk (w : VWord) : Statement (.walk w) := by
  intro h
  refine decode_of_fields ?_ h
  exact (fields_at _ _ (vword_opcode w 0x9D)).trans (congrArg (fun v => some (Instr.walk v)) (vword_ofWord w _))

theorem shelfReaderLine (op : Nat) :
    Statement (.shelfReaderLine op) := rfl

theorem walkCompletion (op : Nat) :
    Statement (.walkCompletion op) := rfl

theorem cinv (w : VWord) : Statement (.cinv w) := by
  intro h
  refine decode_of_fields ?_ h
  exact (fields_at _ _ (vword_opcode w 0x9E)).trans (congrArg (fun v => some (Instr.cinv v)) (vword_ofWord w _))

theorem wait (w : VWord) : Statement (.wait w) := by
  intro h
  refine decode_of_fields ?_ h
  exact (fields_at _ _ (vword_opcode w 0xA0)).trans (congrArg (fun v => some (Instr.wait v)) (vword_ofWord w _))

theorem waitConditionMet (g : Nat) :
    Statement (.waitConditionMet g) := rfl

theorem waitTimeout (g : Nat) :
    Statement (.waitTimeout g) := rfl

theorem flagrd (w : VWord) : Statement (.flagrd w) := by
  intro h
  have p : fieldsAt 0xA1 (w.toWord 0xA1) = some ((fun v : VWord => if v.ebit 6 then Instr.flagrdCnt v else .flagrd v) (VWord.ofWord (w.toWord 0xA1))) := rfl
  have e := enc_of_wf rfl h
  refine decode_of_fields ((fields_at _ 0xA1 (vword_opcode w 0xA1)).trans (p.trans ?_)) h
  rw [vword_ofWord]
  have e : w.e = 0 := by simpa [scrE, scr] using e
  simp [VWord.ebit, VWord.md, e]

theorem flagrdCnt (w : VWord) : Statement (.flagrdCnt w) := by
  intro h
  have p : fieldsAt 0xA1 (w.toWord 0xA1) = some ((fun v : VWord => if v.ebit 6 then Instr.flagrdCnt v else .flagrd v) (VWord.ofWord (w.toWord 0xA1))) := rfl
  have e := enc_of_wf rfl h
  refine decode_of_fields ((fields_at _ 0xA1 (vword_opcode w 0xA1)).trans (p.trans ?_)) h
  rw [vword_ofWord]
  simp at e
  simp [e]

theorem boinit (w : VWord) : Statement (.boinit w) := by
  intro h
  refine decode_of_fields ?_ h
  exact (fields_at _ _ (vword_opcode w 0xA2)).trans (congrArg (fun v => some (Instr.boinit v)) (vword_ofWord w _))

theorem boarr (w : VWord) : Statement (.boarr w) := by
  intro h
  refine decode_of_fields ?_ h
  exact (fields_at _ _ (vword_opcode w 0xA3)).trans (congrArg (fun v => some (Instr.boarr v)) (vword_ofWord w _))

theorem boread (w : VWord) : Statement (.boread w) := by
  intro h
  refine decode_of_fields ?_ h
  exact (fields_at _ _ (vword_opcode w 0xA4)).trans (congrArg (fun v => some (Instr.boread v)) (vword_ofWord w _))

theorem time (w : VWord) : Statement (.time w) := by
  intro h
  refine decode_of_fields ?_ h
  exact (fields_at _ _ (vword_opcode w 0xA5)).trans (congrArg (fun v => some (Instr.time v)) (vword_ofWord w _))

theorem cycle (w : VWord) : Statement (.cycle w) := by
  intro h
  refine decode_of_fields ?_ h
  exact (fields_at _ _ (vword_opcode w 0xA6)).trans (congrArg (fun v => some (Instr.cycle v)) (vword_ofWord w _))

theorem cpy (w : VWord) : Statement (.cpy w) := by
  intro h
  refine decode_of_fields ?_ h
  exact (fields_at _ _ (vword_opcode w 0xB0)).trans (congrArg (fun v => some (Instr.cpy v)) (vword_ofWord w _))

theorem cpymc (w : VWord) : Statement (.cpymc w) := by
  intro h
  refine decode_of_fields ?_ h
  exact (fields_at _ _ (vword_opcode w 0xB1)).trans (congrArg (fun v => some (Instr.cpymc v)) (vword_ofWord w _))

theorem copyUnitWrite (op unit : Nat) :
    Statement (.copyUnitWrite op unit) := rfl

theorem copyCompletion (op : Nat) :
    Statement (.copyCompletion op) := rfl

theorem copyDrainExpiry (op : Nat) :
    Statement (.copyDrainExpiry op) := rfl

theorem rltStallResume (g : Nat) :
    Statement (.rltStallResume g) := rfl

theorem rangeLockConflictStart (op : Nat) :
    Statement (.rangeLockConflictStart op) := rfl

theorem cbres (w : VWord) : Statement (.cbres w) := by
  intro h
  refine decode_of_fields ?_ h
  exact (fields_at _ _ (vword_opcode w 0xB2)).trans (congrArg (fun v => some (Instr.cbres v)) (vword_ofWord w _))

theorem cbcommit (w : VWord) : Statement (.cbcommit w) := by
  intro h
  refine decode_of_fields ?_ h
  exact (fields_at _ _ (vword_opcode w 0xB3)).trans (congrArg (fun v => some (Instr.cbcommit v)) (vword_ofWord w _))

theorem cbacq (w : VWord) : Statement (.cbacq w) := by
  intro h
  refine decode_of_fields ?_ h
  exact (fields_at _ _ (vword_opcode w 0xB4)).trans (congrArg (fun v => some (Instr.cbacq v)) (vword_ofWord w _))

theorem cbrel (w : VWord) : Statement (.cbrel w) := by
  intro h
  refine decode_of_fields ?_ h
  exact (fields_at _ _ (vword_opcode w 0xB5)).trans (congrArg (fun v => some (Instr.cbrel v)) (vword_ofWord w _))

theorem cbinit (w : VWord) : Statement (.cbinit w) := by
  intro h
  refine decode_of_fields ?_ h
  exact (fields_at _ _ (vword_opcode w 0xB6)).trans (congrArg (fun v => some (Instr.cbinit v)) (vword_ofWord w _))

theorem lkqPush (w : VWord) : Statement (.lkqPush w) := by
  intro h
  have p : fieldsAt 0xB7 (w.toWord 0xB7) = some ((fun v : VWord => if v.ebit 5 then Instr.lkqLen v else .lkqPush v) (VWord.ofWord (w.toWord 0xB7))) := rfl
  have e := enc_of_wf rfl h
  refine decode_of_fields ((fields_at _ 0xB7 (vword_opcode w 0xB7)).trans (p.trans ?_)) h
  rw [vword_ofWord]
  have e : w.e = 0 := by simpa [scrE, scr] using e
  simp [VWord.ebit, VWord.md, e]

theorem lkqLen (w : VWord) : Statement (.lkqLen w) := by
  intro h
  have p : fieldsAt 0xB7 (w.toWord 0xB7) = some ((fun v : VWord => if v.ebit 5 then Instr.lkqLen v else .lkqPush v) (VWord.ofWord (w.toWord 0xB7))) := rfl
  have e := enc_of_wf rfl h
  refine decode_of_fields ((fields_at _ 0xB7 (vword_opcode w 0xB7)).trans (p.trans ?_)) h
  rw [vword_ofWord]
  have e : w.e = 0x20 := by simpa [scrE, scr] using e
  simp [VWord.ebit, VWord.md, e]

theorem cpyq (w : VWord) : Statement (.cpyq w) := by
  intro h
  refine decode_of_fields ?_ h
  exact (fields_at _ _ (vword_opcode w 0xB8)).trans (congrArg (fun v => some (Instr.cpyq v)) (vword_ofWord w _))

theorem cpyqCompletion (op : Nat) :
    Statement (.cpyqCompletion op) := rfl

theorem tcfgw (w : VWord) : Statement (.tcfgw w) := by
  intro h
  refine decode_of_fields ?_ h
  exact (fields_at _ _ (vword_opcode w 0xC0)).trans (congrArg (fun v => some (Instr.tcfgw v)) (vword_ofWord w _))

theorem tcfgr (w : VWord) : Statement (.tcfgr w) := by
  intro h
  refine decode_of_fields ?_ h
  exact (fields_at _ _ (vword_opcode w 0xC1)).trans (congrArg (fun v => some (Instr.tcfgr v)) (vword_ofWord w _))

theorem tload (w : VWord) : Statement (.tload w) := by
  intro h
  refine decode_of_fields ?_ h
  exact (fields_at _ _ (vword_opcode w 0xC2)).trans (congrArg (fun v => some (Instr.tload v)) (vword_ofWord w _))

theorem tstore (w : VWord) : Statement (.tstore w) := by
  intro h
  refine decode_of_fields ?_ h
  exact (fields_at _ _ (vword_opcode w 0xC3)).trans (congrArg (fun v => some (Instr.tstore v)) (vword_ofWord w _))

theorem tzero (w : VWord) : Statement (.tzero w) := by
  intro h
  have p : fieldsAt 0xC4 (w.toWord 0xC4) = some ((fun v : VWord => if v.ebit 4 then Instr.tzeroM v else .tzero v) (VWord.ofWord (w.toWord 0xC4))) := rfl
  have e := enc_of_wf rfl h
  refine decode_of_fields ((fields_at _ 0xC4 (vword_opcode w 0xC4)).trans (p.trans ?_)) h
  rw [vword_ofWord]
  simp [eng, engineE] at e
  simp [e]

theorem tzeroM (w : VWord) : Statement (.tzeroM w) := by
  intro h
  have p : fieldsAt 0xC4 (w.toWord 0xC4) = some ((fun v : VWord => if v.ebit 4 then Instr.tzeroM v else .tzero v) (VWord.ofWord (w.toWord 0xC4))) := rfl
  have e := enc_of_wf rfl h
  refine decode_of_fields ((fields_at _ 0xC4 (vword_opcode w 0xC4)).trans (p.trans ?_)) h
  rw [vword_ofWord]
  simp [eng, engineE] at e
  simp [e]

theorem mma (w : VWord) : Statement (.mma w) := by
  intro h
  refine decode_of_fields ?_ h
  exact (fields_at _ _ (vword_opcode w 0xC5)).trans (congrArg (fun v => some (Instr.mma v)) (vword_ofWord w _))

theorem mmas (w : VWord) : Statement (.mmas w) := by
  intro h
  refine decode_of_fields ?_ h
  exact (fields_at _ _ (vword_opcode w 0xC6)).trans (congrArg (fun v => some (Instr.mmas v)) (vword_ofWord w _))

theorem mmbfp (w : VWord) : Statement (.mmbfp w) := by
  intro h
  refine decode_of_fields ?_ h
  exact (fields_at _ _ (vword_opcode w 0xC7)).trans (congrArg (fun v => some (Instr.mmbfp v)) (vword_ofWord w _))

theorem engineRoundDeferredIssue (block cv : Nat) :
    Statement (.engineRoundDeferredIssue block cv) := rfl

theorem engineOpCompletion (core : Nat) :
    Statement (.engineOpCompletion core) := rfl

theorem accrd (w : VWord) : Statement (.accrd w) := by
  intro h
  refine decode_of_fields ?_ h
  exact (fields_at _ _ (vword_opcode w 0xC8)).trans (congrArg (fun v => some (Instr.accrd v)) (vword_ofWord w _))

theorem accwr (w : VWord) : Statement (.accwr w) := by
  intro h
  refine decode_of_fields ?_ h
  exact (fields_at _ _ (vword_opcode w 0xC9)).trans (congrArg (fun v => some (Instr.accwr v)) (vword_ofWord w _))

theorem tokgive (w : VWord) : Statement (.tokgive w) := by
  intro h
  refine decode_of_fields ?_ h
  exact (fields_at _ _ (vword_opcode w 0xCA)).trans (congrArg (fun v => some (Instr.tokgive v)) (vword_ofWord w _))

theorem toktake (w : VWord) : Statement (.toktake w) := by
  intro h
  refine decode_of_fields ?_ h
  exact (fields_at _ _ (vword_opcode w 0xCB)).trans (congrArg (fun v => some (Instr.toktake v)) (vword_ofWord w _))

theorem toktakeCompletion (op : Nat) :
    Statement (.toktakeCompletion op) := rfl

theorem cvdecl (w : VWord) : Statement (.cvdecl w) := by
  intro h
  refine decode_of_fields ?_ h
  exact (fields_at _ _ (vword_opcode w 0xCC)).trans (congrArg (fun v => some (Instr.cvdecl v)) (vword_ofWord w _))

theorem cvq (w : VWord) : Statement (.cvq w) := by
  intro h
  refine decode_of_fields ?_ h
  exact (fields_at _ _ (vword_opcode w 0xCD)).trans (congrArg (fun v => some (Instr.cvq v)) (vword_ofWord w _))

theorem twinComparatorReading (core t0 t1 : Nat) :
    Statement (.twinComparatorReading core t0 t1) := rfl

theorem twinSwapComplete (core : Nat) :
    Statement (.twinSwapComplete core) := rfl

theorem capq (w : IWord) : Statement (.capq w) := by
  intro h
  refine decode_of_fields ?_ h
  exact (fields_at _ _ (iword_opcode w 0xE0)).trans (congrArg (fun v => some (Instr.capq v)) (iword_ofWord w _))

theorem sread (w : IWord) : Statement (.sread w) := by
  intro h
  refine decode_of_fields ?_ h
  exact (fields_at _ _ (iword_opcode w 0xE1)).trans (congrArg (fun v => some (Instr.sread v)) (iword_ofWord w _))

theorem swrite (w : IWord) : Statement (.swrite w) := by
  intro h
  refine decode_of_fields ?_ h
  exact (fields_at _ _ (iword_opcode w 0xE2)).trans (congrArg (fun v => some (Instr.swrite v)) (iword_ofWord w _))

theorem eret (w : VWord) : Statement (.eret w) := by
  intro h
  refine decode_of_fields ?_ h
  exact (fields_at _ _ (vword_opcode w 0xE3)).trans (congrArg (fun v => some (Instr.eret v)) (vword_ofWord w _))

theorem pmack (w : VWord) : Statement (.pmack w) := by
  intro h
  refine decode_of_fields ?_ h
  exact (fields_at _ _ (vword_opcode w 0xE4)).trans (congrArg (fun v => some (Instr.pmack v)) (vword_ofWord w _))

theorem leaseq (w : VWord) : Statement (.leaseq w) := by
  intro h
  refine decode_of_fields ?_ h
  exact (fields_at _ _ (vword_opcode w 0xE5)).trans (congrArg (fun v => some (Instr.leaseq v)) (vword_ofWord w _))

theorem boost (w : VWord) : Statement (.boost w) := by
  intro h
  have p : fieldsAt 0xE6 (w.toWord 0xE6) = some ((fun v : VWord => if v.md = 1 then Instr.boostQuery v else if v.md = 2 then Instr.boostRelease v else .boost v) (VWord.ofWord (w.toWord 0xE6))) := rfl
  have e := enc_of_wf rfl h
  refine decode_of_fields ((fields_at _ 0xE6 (vword_opcode w 0xE6)).trans (p.trans ?_)) h
  rw [vword_ofWord]
  have e : w.e = 0 := by simpa [scrE, scr] using e
  simp [VWord.ebit, VWord.md, e]

theorem boostQuery (w : VWord) : Statement (.boostQuery w) := by
  intro h
  have p : fieldsAt 0xE6 (w.toWord 0xE6) = some ((fun v : VWord => if v.md = 1 then Instr.boostQuery v else if v.md = 2 then Instr.boostRelease v else .boost v) (VWord.ofWord (w.toWord 0xE6))) := rfl
  have e := enc_of_wf rfl h
  refine decode_of_fields ((fields_at _ 0xE6 (vword_opcode w 0xE6)).trans (p.trans ?_)) h
  rw [vword_ofWord]
  have e : w.e = 0x20 := by simpa [scrE, scr] using e
  simp [VWord.ebit, VWord.md, e]

theorem boostRelease (w : VWord) : Statement (.boostRelease w) := by
  intro h
  have p : fieldsAt 0xE6 (w.toWord 0xE6) = some ((fun v : VWord => if v.md = 1 then Instr.boostQuery v else if v.md = 2 then Instr.boostRelease v else .boost v) (VWord.ofWord (w.toWord 0xE6))) := rfl
  have e := enc_of_wf rfl h
  refine decode_of_fields ((fields_at _ 0xE6 (vword_opcode w 0xE6)).trans (p.trans ?_)) h
  rw [vword_ofWord]
  have e : w.e = 0x40 := by simpa [scrE, scr] using e
  simp [VWord.ebit, VWord.md, e]

theorem pricls (w : IWord) : Statement (.pricls w) := by
  intro h
  refine decode_of_fields ?_ h
  exact (fields_at _ _ (iword_opcode w 0xE7)).trans (congrArg (fun v => some (Instr.pricls v)) (iword_ofWord w _))

theorem fevq (w : VWord) : Statement (.fevq w) := by
  intro h
  refine decode_of_fields ?_ h
  exact (fields_at _ _ (vword_opcode w 0xE8)).trans (congrArg (fun v => some (Instr.fevq v)) (vword_ofWord w _))

theorem tlbinv (w : VWord) : Statement (.tlbinv w) := by
  intro h
  have p : fieldsAt 0xE9 (w.toWord 0xE9) = some ((fun v : VWord => if v.ebit 6 then Instr.tlbinvAsid v else .tlbinv v) (VWord.ofWord (w.toWord 0xE9))) := rfl
  have e := enc_of_wf rfl h
  refine decode_of_fields ((fields_at _ 0xE9 (vword_opcode w 0xE9)).trans (p.trans ?_)) h
  rw [vword_ofWord]
  have e : w.e &&& 0x5F = 0 := by simpa using e
  have q : w.ebit 6 = false := by
    have := congrArg (fun x : BitVec 7 => x.getLsbD 6) e
    simpa [VWord.ebit] using this
  simp [q]

theorem tlbinvAsid (w : VWord) : Statement (.tlbinvAsid w) := by
  intro h
  have p : fieldsAt 0xE9 (w.toWord 0xE9) = some ((fun v : VWord => if v.ebit 6 then Instr.tlbinvAsid v else .tlbinv v) (VWord.ofWord (w.toWord 0xE9))) := rfl
  have e := enc_of_wf rfl h
  refine decode_of_fields ((fields_at _ 0xE9 (vword_opcode w 0xE9)).trans (p.trans ?_)) h
  rw [vword_ofWord]
  have e : w.e &&& 0x5F = 64 := by simpa using e
  have q : w.ebit 6 = true := by
    have := congrArg (fun x : BitVec 7 => x.getLsbD 6) e
    simpa [VWord.ebit] using this
  simp [q]

theorem tlbinvCompletion (op : Nat) :
    Statement (.tlbinvCompletion op) := rfl

theorem hcall (w : IWord) : Statement (.hcall w) := by
  intro h
  refine decode_of_fields ?_ h
  exact (fields_at _ _ (iword_opcode w 0xEA)).trans (congrArg (fun v => some (Instr.hcall v)) (iword_ofWord w _))

theorem pageWalkCompletion (walk : Nat) :
    Statement (.pageWalkCompletion walk) := rfl

theorem directoryRequest (core pline : Nat) (write : Bool) (bytes : BitVec 128) :
    Statement (.directoryRequest core pline write bytes) := rfl

theorem hostCxlCacheWrite (sector : Nat) (mask : BitVec 64) (data : BitVec 512) :
    Statement (.hostCxlCacheWrite sector mask data) := rfl

theorem hostCxlMemAccess (pline : Nat) (write poison : Bool) (mask : BitVec 128) (data : BitVec 1024) :
    Statement (.hostCxlMemAccess pline write poison mask data) := rfl

theorem llcCapacityRetirement (cacheChip : Nat) :
    Statement (.llcCapacityRetirement cacheChip) := rfl

theorem pageHomeMove (launch : Nat) :
    Statement (.pageHomeMove launch) := rfl

theorem createSet :
    Statement (.createSet) := rfl

theorem setCreateComplete :
    Statement (.setCreateComplete) := rfl

theorem deleteSet :
    Statement (.deleteSet) := rfl

theorem retireChannel (own : Option Nat) :
    Statement (.retireChannel own) := rfl

theorem retireStack :
    Statement (.retireStack) := rfl

theorem setHold :
    Statement (.setHold) := rfl

theorem retirementResume :
    Statement (.retirementResume) := rfl

theorem driftLineTake (engine : Nat) :
    Statement (.driftLineTake engine) := rfl

theorem driftLineDataArrival (engine line : Nat) :
    Statement (.driftLineDataArrival engine line) := rfl

theorem driftLineLand (engine line : Nat) :
    Statement (.driftLineLand engine line) := rfl

theorem scrubRead (pline : Nat) :
    Statement (.scrubRead pline) := rfl

theorem phyRecalibration (channel : Nat) :
    Statement (.phyRecalibration channel) := rfl

theorem phyRecalibrationEnd (channel : Nat) :
    Statement (.phyRecalibrationEnd channel) := rfl

theorem packetArrival (flight : Nat) :
    Statement (.packetArrival flight) := rfl

theorem nackArrival (nack : Nat) :
    Statement (.nackArrival nack) := rfl

theorem ringInjection (station ring : Nat) :
    Statement (.ringInjection station ring) := rfl

theorem replayEntryExpiry (station : Nat) :
    Statement (.replayEntryExpiry station) := rfl

theorem packetPromotion (station : Nat) :
    Statement (.packetPromotion station) := rfl

theorem fabricPacketArrival (flight : Nat) :
    Statement (.fabricPacketArrival flight) := rfl

theorem forwardingEntryExpiry (slot : Nat) :
    Statement (.forwardingEntryExpiry slot) := rfl

theorem balanceEvaluation (slot pair iLo iHi : Nat) :
    Statement (.balanceEvaluation slot pair iLo iHi) := rfl

theorem droopTrip (cluster mv : Nat) :
    Statement (.droopTrip cluster mv) := rfl

theorem droopStretchEnd (cluster : Nat) :
    Statement (.droopStretchEnd cluster) := rfl

theorem droopHoldEnd (cluster : Nat) :
    Statement (.droopHoldEnd cluster) := rfl

theorem thermalCheck :
    Statement (.thermalCheck) := rfl

theorem railCurrentSample (mA : Nat) :
    Statement (.railCurrentSample mA) := rfl

theorem boostLeaseExpiry (block : Nat) :
    Statement (.boostLeaseExpiry block) := rfl

theorem pstpFrame (nbits : Nat) (frame : BitVec 128) :
    Statement (.pstpFrame nbits frame) := rfl

theorem pstpTimeout :
    Statement (.pstpTimeout) := rfl

theorem packagePowerSample (watts : Nat) :
    Statement (.packagePowerSample watts) := rfl

theorem floodRestore :
    Statement (.floodRestore) := rfl

theorem shedWindowExpiry (cohort : Nat) :
    Statement (.shedWindowExpiry cohort) := rfl

theorem curveCommit :
    Statement (.curveCommit) := rfl

theorem pmbusReadPstpStat :
    Statement (.pmbusReadPstpStat) := rfl

theorem pmbusReadCatalogue28 :
    Statement (.pmbusReadCatalogue28) := rfl

theorem pmbusReadPower :
    Statement (.pmbusReadPower) := rfl

theorem doorbell (q : Nat) (v : W64) :
    Statement (.doorbell q v) := rfl

theorem qctlStop (q : Nat) :
    Statement (.qctlStop q) := rfl

theorem qctlResume (q : Nat) :
    Statement (.qctlResume q) := rfl

theorem qctlKill (q : Nat) :
    Statement (.qctlKill q) := rfl

theorem nopPacket (q : Nat) :
    Statement (.nopPacket q) := rfl

theorem launchPacket (q : Nat) :
    Statement (.launchPacket q) := rfl

theorem fencePacket (q : Nat) :
    Statement (.fencePacket q) := rfl

theorem fenceCounterTest (q : Nat) :
    Statement (.fenceCounterTest q) := rfl

theorem fenceTimeout (q : Nat) :
    Statement (.fenceTimeout q) := rfl

theorem signalPacket (q : Nat) :
    Statement (.signalPacket q) := rfl

theorem signalPerform (q : Nat) :
    Statement (.signalPerform q) := rfl

theorem graphPacket (q : Nat) :
    Statement (.graphPacket q) := rfl

theorem barrierAndPacket (q : Nat) :
    Statement (.barrierAndPacket q) := rfl

theorem leaseResidency (launch : Nat) :
    Statement (.leaseResidency launch) := rfl

theorem translationReady (launch : Nat) :
    Statement (.translationReady launch) := rfl

theorem cohortPlacement (cohort : Nat × Nat) (slot : Nat) (cores : List Nat) :
    Statement (.cohortPlacement cohort slot cores) := rfl

theorem launchCompletion (launch : Nat) :
    Statement (.launchCompletion launch) := rfl

theorem taskStreamerMove (cohort slot : Nat) (cores : List Nat) :
    Statement (.taskStreamerMove cohort slot cores) := rfl

theorem preemptionRequest (cohort : Nat) :
    Statement (.preemptionRequest cohort) := rfl

theorem asyncTrapDelivery (g : Nat) :
    Statement (.asyncTrapDelivery g) := rfl

theorem pmackTimeout (cohort : Nat) :
    Statement (.pmackTimeout cohort) := rfl

theorem cohortRestore (cohort slot : Nat) (cores : List Nat) :
    Statement (.cohortRestore cohort slot cores) := rfl

theorem negotiateFeatures :
    Statement (.negotiateFeatures) := rfl

theorem loadQueueContext :
    Statement (.loadQueueContext) := rfl

theorem updateConfigurationImage :
    Statement (.updateConfigurationImage) := rfl

theorem fenceChipletForService :
    Statement (.fenceChipletForService) := rfl

theorem setErrorRing :
    Statement (.setErrorRing) := rfl

theorem registerWrite (offset : Nat) (v : W64) :
    Statement (.registerWrite offset v) := rfl

theorem coreWatchdogExpiry (core : Nat) :
    Statement (.coreWatchdogExpiry core) := rfl

theorem chipletFence (slot : Nat) :
    Statement (.chipletFence slot) := rfl

theorem chipletPowerOff (slot : Nat) :
    Statement (.chipletPowerOff slot) := rfl

theorem spareMapIn (slot logical : Nat) :
    Statement (.spareMapIn slot logical) := rfl

theorem correctedErrorReport (channel : Nat) :
    Statement (.correctedErrorReport channel) := rfl

theorem scaleupPortDown (port : Nat) :
    Statement (.scaleupPortDown port) := rfl

theorem scaleupPortUp (port : Nat) :
    Statement (.scaleupPortUp port) := rfl

theorem packageReset :
    Statement (.packageReset) := rfl

theorem scaleupPeerAccess (peer offset : Nat) (kind : PeerAccess) (size : Nat) (data : W64) :
    Statement (.scaleupPeerAccess peer offset kind size data) := rfl

theorem fatalBoundaryError (node : Nat) :
    Statement (.fatalBoundaryError node) := rfl

theorem mailboxInvalidCommand :
    Statement (.mailboxInvalidCommand) := rfl

end Fields

end Sys2Proof.Laws
end

