-- ==== Sys2Proof/Tests/Slice0.lean ====
section
/-! SUPPORT. Tests of the model, and for every statement with hypotheses a concrete state and operands that meet them. -/

namespace Sys2Proof.Tests

-- One theorem after the other: the kernel checks of this file would else all wait at once.
set_option Elab.async false

open Sys2Proof Sys2Proof.Machine

/-! ## Small states -/

/-- Register `r` of every lane holds `v`. -/
def reg (r : Nat) (v : W32) (g : Group) : Group :=
  { g with regs := lanes32.foldl (fun l i => tset 0 l (32 * r + i) v) g.regs }

/-- Registers from `r` upward of every lane hold `l`. -/
def regs (r : Nat) (l : List W32) (g : Group) : Group :=
  (l.zip (List.range l.length)).foldl (fun g e => reg (r + e.2) e.1 g) g

/-- Word `x` as the word that issues next, with the group changed by `f`. -/
def ready (x : W64) (f : Group → Group) : State := (State.reset.withFetchWord 64 x.toNat).modGroup 32 f

/-- Word `x` at its issue, with the group changed by `f` and the rest by `h`. -/
def atWord (x : W64) (f : Group → Group) (h : State → State) : State := h { ready x f with issuing := some 32 }

/-- Words issue with all their lanes and with room in their flags. -/
def allIssue (l : List W64) : Bool := l.all fun x =>
  match decodeWord x with
  | .ok i => match issueOf i (atWord x id id) with
    | some (c, _) => c.full.isNone && c.real.length == 32
    | none => false
  | .error _ => false

/-- The registers from `r` upward of a lane after the step that issues word `x`. -/
def after (x : W64) (f : Group → Group) (lane r n : Nat) : List W32 :=
  match step (ready x f) with
  | .next u => ((u.group? 32).map fun g => (List.range n).map fun k => g.reg lane (r + k)).getD []
  | _ => []

/-- Slot 0 of core 0 is free. -/
def slotFree (s : State) : State :=
  s.modCore 0 fun c => { c with slots := c.slots.modify 0 fun x => { x with cur := none } }

/-- The cause of the trap that the step takes. -/
def trapOf (x : W64) (f : Group → Group) (h : State → State) : Nat :=
  match step (h (ready x f)) with
  | .next u => ((u.group? 32).map fun g => g.trapCause.toNat).getD 0
  | _ => 0

/-- A V word without crossbars and guards, an I word, a K word and an M word. -/
def v (d a b c e : Nat) : VWord :=
  ⟨⟨0, 0, 0, 0, 0, 0⟩, BitVec.ofNat 7 e, ⟨0, BitVec.ofNat 7 c⟩, ⟨0, BitVec.ofNat 7 b⟩, ⟨0, BitVec.ofNat 7 a⟩, BitVec.ofNat 7 d⟩
def im (d a x : Nat) : IWord := ⟨⟨0, 0, 0, 0, 0, 0⟩, BitVec.ofNat 27 x, ⟨0, BitVec.ofNat 7 a⟩, BitVec.ofNat 7 d⟩
def kw (d x : Nat) : KWord := ⟨⟨0, 0, 0, 0, 0, 0⟩, BitVec.ofNat 27 x, ⟨0, 127⟩, BitVec.ofNat 7 d⟩
def mw (d a b size x : Nat) : MWord :=
  ⟨⟨0, 0, 0, 0, 0, 0⟩, BitVec.ofNat 17 x, BitVec.ofNat 3 size, BitVec.ofNat 7 b, ⟨0, BitVec.ofNat 7 a⟩, BitVec.ofNat 7 d⟩

/-- A V word with guard code 1, whose register x113 is 0: no lane takes part. -/
def guarded (w : VWord) : VWord := { w with sched := { w.sched with g0 := 1 } }

/-- Instruction `i` issues there, and `p` holds. -/
def meets (i : Instr) (f : Group → Group) (h : State → State) (p : Ctx → State → Bool) : Bool :=
  match issueOf i (atWord ((encode? i).getD 0) f h) with
  | some (c, t) => p c t
  | none => false

/-- Bytes of the scratchpad of block 1: words at offsets. -/
def scratch (l : List (Nat × Nat)) (s : State) : State := l.foldl (fun s e => s.scratchPut 1 e.1 4 e.2) s

/-- With a trap handler. -/
def handled (s : State) : State := { s with trapVec := 0x4000 }

/-! ## Words issue

One word of every form of the opcode map, at a state that meets the hypotheses of the statements about it that have no
others. -/

/-- nop, bra, brx, call, callx, ret, exit, meet, meetx, meetclr, yield, qhelp, succ, succx, refill, bars. -/
theorem witness_words_control_1 : allIssue [
    0xFE3F8FE3FFF01, 0xA3FFF02, 0xFE3F8FE087F03, 0xA3F8804, 0xFE3F8FE080805, 0xFE3F8FE087F06,
    0xFE3F8FE3FFF07, 0xA3FFF08, 0xFE3F8FE080809, 0xFE3F8FE3FFF0A, 0xFE3F8FE3FFF0B, 0xFE3F8FE3FFF0C,
    0xA3FFF0D, 0xFE3F8FE087F0E, 0xFE3F8FE08080F, 0x3F8FE087F10] = true := by decide +kernel

/-- bara, barw, trap, bkpt. -/
theorem witness_words_control_2 : allIssue [
    0x3F8FE080811, 0x3F8FE087F12, 0xA3FFF13, 0xA3FFF14] = true := by decide +kernel

/-- iadd, isub, iaddi, imul, imulh, imad, idiv, irem, imin, imax, iabs, ineg, iadds, isubs, iavg, icmp. -/
theorem witness_words_integer_1 : allIssue [
    0x3F830080820, 0x3F830080821, 0xA080822, 0x3F830080823, 0x3F830080824, 0x10030080825,
    0x3F830080826, 0x3F830080827, 0x3F830080828, 0x3F830080829, 0x3F8FE08082A, 0x3F8FE08082B,
    0x3F83008082C, 0x3F83008082D, 0x3F83008082E, 0x3F83008082F] = true := by decide +kernel

/-- and, or, xor, not, andn, orn, shl, shr, sar, rot, fshf, clz, ffs, popc, brev, bfx. -/
theorem witness_words_integer_2 : allIssue [
    0x3F830080830, 0x3F830080831, 0x3F830080832, 0x3F8FE080833, 0x3F830080834, 0x3F830080835,
    0x3F830080836, 0x3F830080837, 0x3F830080838, 0x3F830080839, 0x1003008083A, 0x3F8FE08083B,
    0x3F8FE08083C, 0x3F8FE08083D, 0x3F8FE08083E, 0x3F83008083F] = true := by decide +kernel

/-- bfi, sel, mov, movi, movhi, lea, iext, iextWide, pack, unpk, bytep, idot4, idot2, shli, shri, sari. -/
theorem witness_words_integer_3 : allIssue [
    0x10030080840, 0x10030080841, 0x3F8FE080842, 0xA3F8843, 0xA080844, 0x3F830080845,
    0x23F8FE080846, 0x3F8FE080846, 0x23F830080847, 0x23F8FE080848, 0x10030080849, 0x41003008084A,
    0x21003008084B, 0xA08084C, 0xA08084D, 0xA08084E] = true := by decide +kernel

/-- fadd, fsub, fmul, fma, fmin, fmax, fabs, fneg, fcmp, frcp, frsq, fsqrt, fdiv, fexp2, flog2, fsin. -/
theorem witness_words_float_1 : allIssue [
    0x2010030080850, 0x2010030080851, 0x2010030080852, 0x2010030080853, 0x203F830080854, 0x203F830080855,
    0x203F8FE080856, 0x203F8FE080857, 0x203F830080858, 0x20100FE080859, 0x20100FE08085A, 0x20100FE08085B,
    0x201003008085C, 0x20100FE08085D, 0x20100FE08085E, 0x20100FE08085F] = true := by decide +kernel

/-- fcos, ftanh, fclass, frnd, cvtf, cvtfWide, cvti, icvtf, scacc, scalex, bfppackScale, bfppack, bfpunpk, fdot2, fdot4. -/
theorem witness_words_float_2 : allIssue [
    0x20100FE080860, 0x20100FE080861, 0x203F8FE080862, 0x20100FE080863, 0x2210030080864, 0xA23F8FE080864,
    0x100FE080865, 0x100FE080866, 0x2010030080867, 0x2010030080868, 0xB23F8FE080869, 0x3210030080869,
    0x323F83008086A, 0x221003008086B, 0x2C1003008086C] = true := by decide +kernel

/-- lanesel, qswap, qbcast, vote, red, scanx, matchLanes, elect, rclaim, rgive, rtry, rcount. -/
theorem witness_words_cross_lane : allIssue [
    0x3F830080880, 0x403F8FE080881, 0x3F8FE080882, 0x3F8FE080883, 0x3F8FE080884, 0x3F8FE080885,
    0x3F8FE080886, 0xFE3F8FE080887, 0x83FFF88, 0x83FFF89, 0x83F888A, 0x3F8FE3F888B] = true := by decide +kernel

/-- ld, st, ldt, atom, atomcas, redm, stmc, strd, pref, ldacq, strel, fence, sigclr, walk, cinv. -/
theorem witness_words_memory : allIssue [
    0x8430080890, 0x8430080891, 0x3F830080892, 0x3F830080893, 0x1010030080894, 0x3F830087F95,
    0x10030080896, 0x10030080897, 0x8430087F98, 0x8430080899, 0x843008089A, 0x3F8FE3FFF9B,
    0xFE3F8FE087F9C, 0x21003008089D, 0x3F8FE087F9E] = true := by decide +kernel

/-- wait, flagrd, flagrdCnt, boinit, boarr, boread, time, cycle. -/
theorem witness_words_wait : allIssue [
    0x3F8300808A0, 0x3F8FE3F88A1, 0x803F8FE3F88A1, 0x3F830087FA2, 0xFE3F8300808A3, 0xFE3F8FE0808A4,
    0xFE3F8FE3F88A5, 0xFE3F8FE3F88A6] = true := by decide +kernel

/-- cpy, cpymc, cbres, cbcommit, cbacq, cbrel, cbinit, lkqPush, lkqLen, cpyq. -/
theorem witness_words_copy : allIssue [
    0x3F8FE0808B0, 0xFE3F8300808B1, 0x3F8FE0808B2, 0xFE3F830087FB3, 0x3F8FE0808B4, 0xFE3F830087FB5,
    0xFE3F830087FB6, 0x3F8300808B7, 0x403F8FE0808B7, 0xFE100300808B8] = true := by decide +kernel

/-- tcfgw, tcfgr, tload, tstore, tzero, tzeroM, mma, mmas, mmbfp, accrd, accwr, tokgive, toktake, cvdecl, cvq. -/
theorem witness_words_matrix : allIssue [
    0xFE3F8FE0808C0, 0xFE3F8FE0108C1, 0x3F8300808C2, 0x10030017FC3, 0x3F8FE3F88C4, 0x203F8FE3F88C4,
    0x3F8020108C5, 0x3F8300108C6, 0x3F8020108C7, 0x3F8300108C8, 0x3F8300808C9, 0xFE3F8FE3F88CA,
    0xFE3F8FE3F88CB, 0x103F8FE087FCC, 0x103F8FE3F88CD] = true := by decide +kernel

/-- capq, sread, swrite, leaseq, boost, boostQuery, boostRelease, pricls, fevq, tlbinv, tlbinvAsid, hcall. -/
theorem witness_words_system : allIssue [
    0xA3F88E0, 0xA3F88E1, 0xA0808E2, 0xFE3F8FE0808E5, 0x3F8FE0808E6, 0x403F8FE3F88E6,
    0x803F8FE3F88E6, 0xA3FFFE7, 0xFE3F8FE0808E8, 0x10030087FE9, 0x80100FE3FFFE9, 0xA0808EA] = true := by decide +kernel

/-! ## Witnesses: control, traps, registers -/

/-- BRX, CALLX and RET whose target is aligned, and whose target is not. -/
theorem witness_branch_targets :
    (meets (.brx (v 127 16 127 127 127)) (regs 16 [0xFFFFFFF8, 0xFFFFFFFF]) id fun c _ =>
        decide (∀ l ∈ c.real, (c.rdw ⟨0, 16⟩ l).toNat % 8 = 0)) ∧
    (meets (.callx (v 8 16 127 127 127)) (regs 16 [4, 0]) id fun c _ =>
        decide (0 ∈ c.real ∧ (c.rdw ⟨0, 16⟩ 0).toNat % 8 ≠ 0)) ∧
    (meets (.ret (v 127 16 127 127 127)) (regs 16 [7, 0]) id fun c _ =>
        decide (0 ∈ c.real ∧ (c.rdw ⟨0, 16⟩ 0).toNat % 8 ≠ 0)) := by decide +kernel

/-- A step that issues a word, once what held groups bring about is settled; no group is shut. -/
theorem witness_step :
    let s := (ready 0x3F90E040620 id).caughtUp
    s.agenda = [.issue 32] ∧ s.dead = false ∧
      (match s.owner? 32 with
        | some o => match o.g.run with
          | some r => r.words[r.idx]? == some 0x3F90E040620 && s.mayIssue o r 0x3F90E040620 32
          | none => false
        | none => false) = true ∧
      (ready 0x3F90E040620 id).groups.all (fun e => !e.2.shut) = true := by decide +kernel

/-- MEETX without A, with an aligned value, and with one that is not. -/
theorem witness_meetx :
    (meets (.meetx (v 8 127 127 127 127)) id id fun _ _ => true) ∧
    (meets (.meetx (v 127 16 127 127 127)) (regs 16 [8, 0]) id fun c _ =>
        decide (∀ l ∈ c.real, (c.rdw ⟨0, 16⟩ l).toNat % 8 = 0)) ∧
    (meets (.meetx (v 8 16 127 127 127)) (regs 16 [1, 0]) id fun c _ =>
        decide (0 ∈ c.real ∧ (c.rdw ⟨0, 16⟩ 0).toNat % 8 ≠ 0)) := by decide +kernel

/-- SUCC that waits for a flag, with another allocation, after an arrival, with room in the pool and without; a successor
of SUCCX that is zero and one that is not. -/
theorem witness_successors :
    (meets (.succ (kw 127 2)) (fun g => { g with flags := g.flags.set 11 1 }) id fun c _ => !c.o.g.flagsClear) ∧
    (meets (.succ (kw 127 2)) (fun g => { g with alloc := 116 }) id fun c _ =>
        c.o.g.flagsClear && decide (c.o.g.alloc ≠ c.o.l.regs)) ∧
    (meets (.succ (kw 127 2)) id (fun s => s.modBlock 1 fun b => { b with barriers := b.barriers.set 15 ⟨false, .all, [0]⟩ })
        fun c _ => c.o.g.flagsClear && c.o.g.alloc == c.o.l.regs && c.arrivedAt == some 15) ∧
    (meets (.succ (kw 127 2)) id id fun c t =>
        c.o.g.flagsClear && c.o.g.alloc == c.o.l.regs && c.arrivedAt == none &&
          (t.moveLanes c.gid (c.real.map fun l => (l, some 0x10010))).2.isEmpty) ∧
    (meets (.succ (kw 127 2)) id (fun s => s.modBlock 1 fun b => { b with
          pool := (List.range 8).map fun k => ⟨BitVec.ofNat 64 (8 * k + 8), [⟨[]⟩]⟩ }) fun c t =>
        c.o.g.flagsClear && c.o.g.alloc == c.o.l.regs && c.arrivedAt == none &&
          !(t.moveLanes c.gid (c.real.map fun l => (l, some 0x10010))).2.isEmpty) ∧
    (meets (.succx (v 127 16 127 127 127)) id id fun c t =>
        c.o.g.flagsClear && c.o.g.alloc == c.o.l.regs && c.arrivedAt == none && c.rdw ⟨0, 16⟩ 0 == 0 &&
          (t.moveLanes c.gid (c.real.map fun l => (l, none))).2.isEmpty) ∧
    (meets (.succx (v 127 16 127 127 127)) (regs 16 [8, 0]) id fun c _ =>
        c.o.g.flagsClear && c.o.g.alloc == c.o.l.regs && c.arrivedAt == none && (c.rdw ⟨0, 16⟩ 0).toNat % 8 == 0) := by
  decide +kernel

/-- A pool with room and without. -/
theorem witness_pool :
    (State.loadBlock.pool.length < 8) ∧
    let b := { State.loadBlock with pool := (List.range 8).map fun k => ⟨BitVec.ofNat 64 (8 * k + 8), [⟨[]⟩]⟩ }
    8 ≤ b.pool.length ∧ ∀ e ∈ b.pool, e.succ ≠ 0 := by decide +kernel

/-- REFILL of two lanes from a queue of three slots whose head is about to wrap. -/
theorem witness_refill :
    meets (.refill (v 8 16 127 127 127))
      (fun g => reg 16 64 { g with lanes := (g.lanes.set 3 Thread.empty).set 31 Thread.empty })
      (scratch [(64, 128), (68, 3), (72, 0xFFFFFFFF), (76, 1), (152, 5)]) fun c t =>
        let q := t.laneQueue 1 64
        c.o.g.flagsClear && q.valid && q.avail == 2 && (emptyLanes c.o.g).length == 2 &&
          (t.objUse c.core c.bid 64 16 16 true).isNone &&
          (t.itemCheck c.core c.bid false ((List.range 2).map fun k => q.base + 8 * ((q.head + k) % q.slots))).isNone
    := by decide +kernel

/-- A group that arrives alone, one of two that are to arrive, and BARW at the phase and after it. -/
theorem witness_barriers :
    (meets (.bars (v 127 127 127 127 15)) id id fun c t =>
        let b := c.hold (t.modBlock c.bid fun x => { x with barriers := x.barriers.set 15 { c.barrier 15 with
          mode := .all, arrived := insertNat c.o.g.slot (c.barrier 15).arrived } })
        c.barMode ⟨0, 127⟩ == some .all && c.whole && c.savedHere.isNone && c.o.g.blocked.isNone && !(c.barrier 15).arrived.contains c.o.g.slot &&
          (c.barrier 15).mode == .unset &&
          match b.block? c.bid with
          | some x => b.barrierDone c.bid x (x.barriers.getD 15 ⟨false, .unset, []⟩)
          | none => false) ∧
    (meets (.bars (v 127 16 127 127 0)) (reg 16 32) id fun c t =>
        let b := c.hold (t.modBlock c.bid fun x => { x with barriers := x.barriers.set 0 { c.barrier 0 with
          mode := .count 32, arrived := insertNat c.o.g.slot (c.barrier 0).arrived } })
        c.barMode ⟨0, 16⟩ == some (.count 32) && c.whole && c.savedHere.isNone &&
          match b.block? c.bid with
          | some x => !b.barrierDone c.bid x (x.barriers.getD 0 ⟨false, .unset, []⟩)
          | none => false) ∧
    (meets (.bara (v 8 16 127 127 0)) (reg 16 1) id fun c _ => c.barMode ⟨0, 16⟩ == some (.count 1) && c.whole &&
        !(c.barrier 0).arrived.contains c.o.g.slot) ∧
    (meets (.barw (v 127 16 127 127 0)) (reg 16 1) id fun c _ => c.whole && c.savedHere.isNone &&
        (c.barrier 0).phase != (c.rd ⟨0, 16⟩ c.lmin).getLsbD 0) ∧
    (meets (.barw (v 127 16 127 127 0)) (reg 16 2) id fun c _ => c.whole && c.savedHere.isNone &&
        (c.barrier 0).phase == (c.rd ⟨0, 16⟩ c.lmin).getLsbD 0) ∧
    (meets (.barw (v 127 16 127 127 0))
        (fun g => { g with run := g.run.map fun r => { r with set := [0] } }) id fun c _ => !c.whole) := by decide +kernel

/-- The group's word was interrupted while it waited as `b`. -/
def kept (b : Blocked) (g : Group) : Group := { g with saved := some (0x10008, b) }

/-- BARS and BARW that go on with what a delivery broke off; a group that waits for a phase. -/
theorem witness_barriers_resumed :
    ([Blocked.barrier 15 false, .passed].all fun b =>
      meets (.bars (v 127 127 127 127 15)) (kept b) id (fun c _ => c.savedHere == some b) &&
      meets (.barw (v 127 16 127 127 0)) (kept b) id (fun c _ => c.savedHere == some b && c.whole)) = true ∧
    (let s := ready 0 fun g => { g with blocked := some (.barrier 15 false) }
     match s.block? 1, s.group? 32 with
      | some b, some g => (b.barriers.getD 15 ⟨true, .unset, []⟩).phase == false && g.block == 1 && g.run.isSome
      | _, _ => false) = true := by decide +kernel

/-- TRAP and BKPT with an Active thread and without one, the last word of a clause; ILL with a handler and without. -/
theorem witness_traps :
    (meets (.trap (im 127 127 5)) id handled fun c t => !c.real.isEmpty && !t.terminal c.o 0x0E) ∧
    (meets (.trap (im 127 127 5)) id id fun c t => !c.real.isEmpty && t.terminal c.o 0x0E) ∧
    (meets (.trap { im 127 127 5 with sched := ⟨0, 0, 0, 0, 0, 1⟩ }) id handled fun c _ => c.real.isEmpty) ∧
    (meets (.bkpt (im 127 127 0x7FFFFFF)) id handled fun c t => !c.real.isEmpty && !t.terminal c.o 0x0F) ∧
    (meets (.bkpt { im 127 127 5 with sched := ⟨0, 0, 0, 0, 7, 0⟩ }) id handled fun c _ => c.real.isEmpty) ∧
    (atIssue (atWord 0xFF id handled)).isSome ∧ (atIssue (atWord 0 id id)).isSome := by decide +kernel

/-- A word turned away: a register of its own above the allocation, the lowest one outside. -/
theorem witness_broken_check :
    ((issueFault (.iadd (v 6 127 7 8 127)) (atWord 0 id handled)).isSome &&
      (issueFault (.iadd (v 6 8 8 127 0)) (atWord 0x3F810040620 (fun g => { g with alloc := 8 }) handled)).isSome &&
      (encode? (.iadd (v 6 8 8 127 0))).isSome) = true := by decide +kernel

/-- Groups, with traps that are terminal and one that is not. -/
theorem witness_delivery :
    let s := handled (ready 0xFF id)
    (match s.owner? 32 with
      | some o => s.terminal o 0x06 && s.terminal o 0x0C && !s.terminal o 0x05 && !s.terminal o 0x07
      | none => false) = true := by decide +kernel

/-- A group in its handler for `code`. -/
def inHandler (code : W64) (g : Group) : Group :=
  { g with handler := true, hset := lanes32, entry := g.lanes, recorded := some g.lanes, trapCause := code }

/-- ERET after PREEMPT, after SHED, and after another cause with aligned frames and with misaligned ones. -/
theorem witness_return :
    (meets (.eret (v 127 127 127 127 127)) (inHandler 0x110) handled fun c _ => c.o.g.trapCause.toNat % 256 == 0x10 &&
        c.o.g.recorded.isSome) ∧
    (meets (.eret (v 127 127 127 127 127)) (inHandler 0x11) handled fun c _ => c.o.g.trapCause.toNat % 256 == 0x11 &&
        c.o.g.recorded.isSome) ∧
    (meets (.eret (v 127 127 127 127 127)) (fun g => regs 120 [0x10008, 0, 0x10000, 0] (inHandler 0x0E g)) handled fun c _ =>
        decide ((∀ i ∈ c.o.g.hset, i < c.o.g.lanes.length) ∧
          (∀ i ∈ c.o.g.hset, (frameOf c.o.g i).1.toNat % 8 = 0 ∧ (frameOf c.o.g i).2.toNat % 8 = 0))) ∧
    (meets (.eret (v 127 127 127 127 127)) (fun g => reg 122 4 (inHandler 0x0E g)) handled fun c _ =>
        c.o.g.handler && c.o.g.hset.contains 31 && decide ((frameOf c.o.g 31).2.toNat % 8 ≠ 0)) := by decide +kernel

/-- RCLAIM that is granted at the last unit, that waits, that asks for too many registers and for more than the quota;
RTRY with each of its answers; RGIVE. -/
theorem witness_units :
    (meets (.rclaim (im 127 127 4)) (fun g => { g with alloc := 116 }) id fun c t =>
        decide (c.o.g.alloc + 4 ≤ 120 ∧ 4 / 4 + (c.o.g.alloc / 4 + 1) ≤ c.quota t ∧ 4 / 4 ≤ c.free t) && c.noClaims t) ∧
    (meets (.rclaim (im 127 127 4)) (fun g => { g with alloc := 116 })
        (fun s => s.modQuota 0 1 fun q => { q with claims := [.group 33 1] }) fun c t =>
        decide (c.o.g.alloc + 4 ≤ 120 ∧ 4 / 4 + (c.o.g.alloc / 4 + 1) ≤ c.quota t) && !c.noClaims t) ∧
    (meets (.rclaim (im 127 127 8)) (fun g => { g with alloc := 116 }) id fun c _ => decide (120 < c.o.g.alloc + 8)) ∧
    (meets (.rclaim (im 127 127 4)) (fun g => { g with alloc := 116 })
        (fun s => s.modQuota 0 1 fun q => { q with units := 30 }) fun c t =>
        decide (c.o.g.alloc + 4 ≤ 120 ∧ c.quota t < 4 / 4 + (c.o.g.alloc / 4 + 1))) ∧
    (meets (.rgive (im 127 127 120)) id id fun c t => c.o.g.flagsClear && decide (120 ≤ c.o.g.alloc) && c.noClaims t) ∧
    (meets (.rtry (im 8 127 4)) id id fun c _ => decide (120 < c.o.g.alloc + 4)) ∧
    (meets (.rtry (im 8 127 4)) (fun g => { g with alloc := 116 })
        (fun s => s.modQuota 0 1 fun q => { q with units := 31, claims := [.group 33 1] }) fun c t =>
        decide (4 / 4 + (c.o.g.alloc / 4 + 1) ≤ c.quota t) && !c.noClaims t) ∧
    (meets (.rtry (im 8 127 4)) (fun g => { g with alloc := 116 })
        (fun s => s.modQuota 0 1 fun q => { q with units := 31 }) fun c t =>
        decide (4 / 4 + (c.o.g.alloc / 4 + 1) ≤ c.quota t ∧ 4 / 4 ≤ c.free t) && c.noClaims t) := by decide +kernel

/-! ## Witnesses: memory -/

/-- The address of offset `o` in the scratchpad window of the first block, as two registers. -/
def win (o : Nat) : List W32 := [BitVec.ofNat 32 (windowBase + o), BitVec.ofNat 32 ((windowBase + o) / 2 ^ 32)]

/-- A translation of page 2 to frame 2. -/
def page2 (home : Nat) (coh : Bool) : TlbEntry :=
  { asid := 0, vpage := 2, lvl := 1, ok := true, frame := 2, home := home, coh := coh, g := false, x := true, w := true
    r := true, tags := [], hold := [] }

/-- Page 2 is leased, translated with its home and treatment, and on memory of set 0, where 32 channels are live. -/
def mapped (home : Nat) (coh : Bool) (s : State) : State :=
  let s := s.modLaunch 1 fun l => { l with leases := [⟨0x20000, 0x10000, true, true, false⟩] }
  let s := s.modCluster 0 fun k => { k with tlb := [page2 home coh] }
  { s with sets := [(0, ⟨2 ^ 29, false, List.range 32, List.range 32, 0, true, false⟩)], liveChannels := List.range 32 }

/-- The lease without a translation. -/
def leased (s : State) : State := s.modLaunch 1 fun l => { l with leases := [⟨0x20000, 0x10000, true, true, false⟩] }

/-- One live lane. -/
def single (g : Group) : Group := { g with run := g.run.map fun r => { r with set := [0] } }

/-- One live lane with registers. -/
def one (r : Nat) (l : List W32) (g : Group) : Group := regs r l (single g)

def isOk {α β : Type} : Except α β → Bool
  | .ok _ => true
  | .error _ => false

/-- No translation of the addresses `vas` waits for a walk. -/
def noWalk (c : Ctx) (t : State) (vas : List Nat) : Bool := (t.waitWalks c.core c.o.l.aspace vas).isNone

/-- The same of a memory side of a word. -/
def sideFree (c : Ctx) (t : State) (rows : List Nat) (n : Nat) (k : AccessKind) : Bool :=
  noWalk c t (State.sideAddrs (c.who t) rows n k)

/-- LD outside its leases, of the last dword of a page, and of the scratchpad; with its flag full. -/
theorem witness_ld :
    (meets (.ld (mw 8 16 127 5 0)) single id fun c t => c.full.isNone &&
        !isOk (checkAll t (c.who t) .read ⟨true, true⟩ (c.wants (mAddr c (mw 8 16 127 5 0) 8) 8)).out) ∧
    (meets (.ld (mw 8 16 127 5 0)) (one 16 [0x2FFF8, 0]) (mapped 0 true) fun c t => c.full.isNone &&
        noWalk c t (walkAddrs (c.who t) .read (c.wants (mAddr c (mw 8 16 127 5 0) 8) 8)) &&
        isOk (checkAll t (c.who t) .read ⟨true, true⟩ (c.wants (mAddr c (mw 8 16 127 5 0) 8) 8)).out) ∧
    (meets (.ld (mw 8 16 127 5 0)) (fun g => one 16 [0x2FFF8, 0] { g with flags := g.flags.set 0 63 }) (mapped 0 true)
        fun c t => c.full == some 0 && noWalk c t (walkAddrs (c.who t) .read (c.wants (mAddr c (mw 8 16 127 5 0) 8) 8))) ∧
    (meets (.ld (mw 8 16 127 5 0)) (one 16 (win 0x3FFF8)) id fun c t => c.full.isNone &&
        match checkAll t (c.who t) .read ⟨true, true⟩ (c.wants (mAddr c (mw 8 16 127 5 0) 8) 8) with
        | ⟨_, .ok ts⟩ => ts.all fun x => match x with
          | some (.scr _ _) => true
          | _ => false
        | _ => false) := by decide +kernel

/-- A copy of the group in progress, with page 2 as its translation. -/
def copying (e : TlbEntry) (s : State) : State :=
  let c : Copy := ⟨true, false, 0x20000, 0, 0, 0, 1, 1, none, [1], [1], none, [(2, e)], 0, 0, [], [], none, false⟩
  { mapped 0 true s with ops := [(1, ⟨32, 1, 0, none, 0, 0, [], [], 0, .copy c, false⟩)] }

/-- The translation built from the line that the page holds itself. -/
def selfTagged : TlbEntry := { page2 0 true with tags := [0x20000] }

/-- Page 2 on peer 1. -/
def atPeer1 : TlbEntry := { page2 3 true with frame := (0xC000000000000 + 2 ^ 40) / 65536 + 2 }

/-- Accesses that an earlier copy holds back: LD and LDACQ at its peer; ST, ATOM and STREL to the table of its translation. -/
theorem witness_held_accesses :
    (let s (s : State) : State := { (copying atPeer1 s).modCluster 0 fun k => { k with tlb := [atPeer1] } with
       peers := [(1, ⟨[(0, 2 ^ 40)]⟩)], catalogue := s.catalogue.set 29 1 }
     meets (.ld (mw 8 16 127 5 0)) (one 16 [0x20000, 0]) s fun c t => c.full.isNone &&
       noWalk c t (walkAddrs (c.who t) .read (c.wants (mAddr c (mw 8 16 127 5 0) 8) 8)) && peerWaits c c.act
       (checkAll t (c.who t) .read ⟨true, true⟩ (c.wants (mAddr c (mw 8 16 127 5 0) 8) 8) (some 0)) (mAddr c (mw 8 16 127 5 0) 8)) = true ∧
    (let w := mw 8 16 127 5 0
     meets (.st w) (one 16 [0x20000, 0]) (copying selfTagged) fun c t => c.full.isNone &&
       noWalk c t (walkAddrs (c.who t) .write (c.realWants (mAddr c w 8) 8)) &&
       writesBusy c (c.who t) t .write ⟨true, true⟩ (mAddr c w 8) 8) = true ∧
    (let w := mw 8 16 127 5 0
     meets (.strel w) (one 16 [0x20000, 0]) (copying selfTagged) fun c t => c.full.isNone &&
       noWalk c t (walkAddrs (c.who t) .write (c.realWants (mAddr c w 8) 8)) &&
       writesBusy c (c.who t) t .write ⟨false, true⟩ (mAddr c w 8) 8) = true ∧
    (let w : VWord := { v 8 16 24 127 0x0B with a := ⟨5, 16⟩ }
     meets (.atom w) (one 16 [0x20000, 0]) (copying selfTagged) fun c t => c.full.isNone &&
       noWalk c t (walkAddrs (c.who t) .rmw (c.realWants (atomAddr c w) 8)) &&
       writesBusy c (c.who t) t .rmw ⟨true, true⟩ (atomAddr c w) 8) = true := by decide +kernel

/-- LDT with every translation, and with none, in one lane; PREF. -/
theorem witness_ldt :
    (meets (.ldt { v 8 16 24 127 32 with b := ⟨5, 24⟩ }) (one 16 [0x20000, 0]) (mapped 0 true) fun c t =>
        let a := ldtAddr c { v 8 16 24 127 32 with b := ⟨5, 24⟩ } 8
        c.full.isNone && decide (∀ i ∈ c.real, State.checkLease (c.who t) (a i) 8 .read = none) &&
          decide (∀ i ∈ c.real, State.checkAlign (a i) 8 = none) &&
          decide (∀ i ∈ c.act, inWindow (a i) = true ∨ t.hasEntry c.core c.o.l.aspace (a i) = true) &&
          isOk (checkAll t (c.who t) .read ⟨false, false⟩ (c.wants a 8)).out) ∧
    (meets (.ldt { v 8 16 24 127 32 with b := ⟨5, 24⟩ }) (fun g => regs 16 [0x20000, 0] (single g)) leased fun c t =>
        let a := ldtAddr c { v 8 16 24 127 32 with b := ⟨5, 24⟩ } 8 0
        c.full.isNone && c.act == [0] && c.real == [0] &&
          decide (State.checkLease (c.who t) a 8 .read = none) && decide (State.checkAlign a 8 = none) && !inWindow a &&
          !t.hasEntry c.core c.o.l.aspace a && (t.walkOf (coreSlot c.core) c.o.l.aspace (t.pageOf c.o.l.aspace a)).isNone) ∧
    (meets (.pref (mw 127 16 127 5 0)) (one 16 [0x20000, 0]) (mapped 0 true) fun _ _ => true) := by decide +kernel

/-- ST to the scratchpad, its lanes all to one place, the last of it; ST, STMC and STRD to memory. -/
theorem witness_stores :
    (meets (.st (mw 8 16 127 5 0)) (one 16 (win 0x3FFF8)) id fun c t => c.full.isNone &&
        match writeTargets c (c.who t) t .write ⟨true, true⟩ (mAddr c (mw 8 16 127 5 0) 8) 8 with
        | ⟨_, .ok ts⟩ => ts.all fun x => match x with
          | some (.scr k _) => (t.block? k).isSome
          | _ => false
        | _ => false) ∧
    (meets (.st (mw 8 16 127 5 0)) (one 16 [0x2FFF8, 0]) (mapped 0 true) fun c t => c.full.isNone &&
        noWalk c t (walkAddrs (c.who t) .write (c.realWants (mAddr c (mw 8 16 127 5 0) 8) 8)) &&
        !writesBusy c (c.who t) t .write ⟨true, true⟩ (mAddr c (mw 8 16 127 5 0) 8) 8 &&
        isOk (writeTargets c (c.who t) t .write ⟨true, true⟩ (mAddr c (mw 8 16 127 5 0) 8) 8).out) ∧
    (meets (.stmc (v 8 16 24 32 5)) (fun g => regs 24 [0x8001, 0] (one 16 (win 8) g)) id fun c t => c.full.isNone &&
        noWalk c t (destAddrs c (v 8 16 24 32 5) (c.who t) .write 8) && !destsBusy c (v 8 16 24 32 5) (c.who t) t .write 8) ∧
    (meets (.strd (v 8 16 24 32 8)) (fun g => regs 24 [1, 0] (one 16 (win 8) g)) id fun c t => c.full.isNone &&
        noWalk c t (destAddrs c (v 8 16 24 32 8) (c.who t) .rmw 4) && !destsBusy c (v 8 16 24 32 8) (c.who t) t .rmw 4) := by decide +kernel

/-- Atomics and SIGCLR on a page and outside the leases. -/
theorem witness_atomics :
    (meets (.atom { v 8 16 24 127 0x0B with a := ⟨5, 16⟩ }) (one 16 [0x20000, 0]) (mapped 0 true) fun c t => c.full.isNone &&
        noWalk c t (walkAddrs (c.who t) .rmw (c.realWants (atomAddr c { v 8 16 24 127 0x0B with a := ⟨5, 16⟩ }) 8)) &&
        !writesBusy c (c.who t) t .rmw ⟨true, true⟩ (atomAddr c { v 8 16 24 127 0x0B with a := ⟨5, 16⟩ }) 8) ∧
    (meets (.atomcas (v 8 16 24 32 0x08)) (one 16 [0x2FFFC, 0]) (mapped 1 false) fun c t => c.full.isNone &&
        noWalk c t (walkAddrs (c.who t) .rmw (c.realWants (atomAddr c (v 8 16 24 32 0x08)) 4)) &&
        !writesBusy c (c.who t) t .rmw ⟨true, true⟩ (atomAddr c (v 8 16 24 32 0x08)) 4) ∧
    (meets (.redm (v 127 16 24 127 0x10)) single id fun c t => c.full.isNone &&
        noWalk c t (walkAddrs (c.who t) .rmw (c.realWants (atomAddr c (v 127 16 24 127 0x10)) 4)) &&
        !writesBusy c (c.who t) t .rmw ⟨true, true⟩ (atomAddr c (v 127 16 24 127 0x10)) 4) ∧
    (meets (.sigclr (v 127 16 127 127 127)) (one 16 [0x2FF80, 0]) (mapped 0 true) fun c t => c.full.isNone &&
        noWalk c t (walkAddrs (c.who t) .write (c.realWants (fun i => (c.rdw ⟨0, 16⟩ i).toNat) 128)) &&
        !writesBusy c (c.who t) t .write ⟨false, false⟩ (fun i => (c.rdw ⟨0, 16⟩ i).toNat) 128) := by decide +kernel

/-- LDACQ, STREL; FENCE at the widest scope, at the narrowest that acts, at one that does not, and without lanes. -/
theorem witness_order :
    (meets (.ldacq (mw 8 16 127 5 0)) (one 16 [0x20000, 0]) (mapped 0 true) fun c t => c.full.isNone &&
        noWalk c t (walkAddrs (c.who t) .read (c.realWants (mAddr c (mw 8 16 127 5 0) 8) 8))) ∧
    (meets (.strel (mw 8 16 127 5 0)) (one 16 [0x20000, 0]) (mapped 0 true) fun c t => c.full.isNone &&
        noWalk c t (walkAddrs (c.who t) .write (c.realWants (mAddr c (mw 8 16 127 5 0) 8) 8)) &&
        !writesBusy c (c.who t) t .write ⟨false, true⟩ (mAddr c (mw 8 16 127 5 0) 8) 8) ∧
    (meets (.fence (v 127 127 127 127 0x0D)) id (mapped 0 true) fun c _ => !c.real.isEmpty) ∧
    (meets (.fence (v 127 127 127 127 3)) id (mapped 0 true) fun c _ => !c.real.isEmpty) ∧
    (meets (.fence (v 127 127 127 127 2)) id id fun c _ => !c.real.isEmpty) ∧
    (meets (.fence (guarded (v 127 127 127 127 0x15))) id id fun c _ => c.real.isEmpty) := by decide +kernel

/-- A cell that core 1 holds is acquired by core 0, and no other group is at an LDACQ. -/
theorem witness_promotion :
    let i : MWord := { mw 8 16 127 5 0 with sched := ⟨0, 0, 0, 1, 0, 0⟩ }
    let s := (mapped 0 true (ready ((encode? (.ldacq i)).getD 0) (regs 16 [0x20000, 0]))).homeWrite 0x20008 [1, 0, 0, 0, 0, 0, 0, 0]
    (match s.acquiring 32 with
      | some (c, w) => c.core == 0 && (wantsPromotion c w s).any fun x => x.1.phys x.2.1 / 128 == 0x20000 / 128
      | none => false) = true ∧ s.groups.map (·.1) = [32] := by decide +kernel

/-- LDACQ.rm that asks for a promotion, and one that has none to ask for. -/
theorem witness_asking :
    (let i : MWord := { mw 8 16 127 5 0 with sched := ⟨0, 0, 0, 1, 0, 0⟩ }
     let f (x : Byte) (s : State) := (mapped 0 true s).homeWrite 0x20008 [x, 0, 0, 0, 0, 0, 0, 0]
     meets (.ldacq i) (regs 16 [0x20000, 0]) (f 1) (fun c t => c.full.isNone && wantsPromotion c i t != [] &&
       noWalk c t (walkAddrs (c.who t) .read (c.realWants (mAddr c i 8) 8)) &&
       isOk (writeTargets c (c.who t) t .read ⟨false, true⟩ (mAddr c i 8) 8).out) &&
     meets (.ldacq i) (regs 16 [0x20000, 0]) (f 0) fun c t => wantsPromotion c i t == []) = true := by decide +kernel

/-- A store of 32 bytes at the end of a line of a self-invalidating page. -/
theorem witness_load_after_store :
    let s := mapped 0 true (ready 0 id)
    let e := page2 0 true
    let u := s.storeBytes 0 e 0 0x2FFE0 (List.replicate 32 7) 0
    e.coh = true ∧ e.home ≠ 3 ∧ isPeer (e.phys 0x2FFE0) = false ∧ s.usable (e.phys 0x2FFE0) = true ∧
      e.phys 0x2FFE0 % 128 + 32 ≤ 128 ∧ u.usable (e.phys 0x2FFE0) = true := by decide +kernel

/-- WALK of too much, of nothing, of two lines, with no slot free, with no entry free; CINV of a page; TLBINV. -/
theorem witness_walks :
    (meets (.walk (v 8 16 24 32 1)) (regs 24 [1, 0x100]) (mapped 0 true) fun c _ => c.l0 == some 0 && c.full.isNone &&
        decide (2 ^ 40 < (c.rdw ⟨0, 24⟩ 0).toNat)) ∧
    (meets (.walk (v 8 16 24 32 2)) (one 16 [0x20000, 0]) (mapped 0 true) fun c t => c.full.isNone &&
        (c.rdw ⟨0, 24⟩ 0) == 0 && (t.checkRange (c.who t) .write 0x20000 0).isNone && (t.objCheck c.bid 0 16 16).isNone) ∧
    (meets (.walk (v 8 16 24 127 2)) (one 16 [0x20000, 0]) (mapped 0 true) fun c t => c.full.isNone &&
        (c.rdw ⟨0, 24⟩ 0) == 0 && (t.checkRange (c.who t) .write 0x20000 0).isNone) ∧
    (meets (.walk (v 8 16 24 32 2)) (fun g => regs 24 [129, 0] (regs 16 [0x2FF7F, 0] g)) (mapped 0 true) fun c t =>
        c.full.isNone && (t.checkRange (c.who t) .write 0x2FF00 256).isNone && (t.objCheck c.bid 0 16 16).isNone &&
          decide (shelfWalks t 0 < 8) &&
          match t.takeLocks t.fresh [⟨0, .mem (0x2FF00 / 128) (0x2FF00 / 128 + 1), true⟩] with
          | some b => !b.lockWaits t.fresh
          | none => false) ∧
    (meets (.walk (v 8 16 24 32 2)) (fun g => regs 24 [128, 0] (regs 16 [0x20000, 0] g))
        (fun s => { mapped 0 true s with ops := (List.range 8).map fun k =>
          (k, ⟨0, 0, 0, none, 0, 0, [], [], 0, .shelf 1 0 none 0 1 0, false⟩) }) fun c t =>
        c.full.isNone && (t.checkRange (c.who t) .write 0x20000 128).isNone && (t.objCheck c.bid 0 16 16).isNone &&
          decide (8 ≤ shelfWalks t 0)) ∧
    (meets (.walk (v 8 16 24 32 2)) (fun g => regs 24 [128, 0] (regs 16 [0x20000, 0] g))
        (fun s => (mapped 0 true s).modCluster 0 fun k => { k with locks := (List.range 64).map fun n =>
          (n, ⟨.mem 0 0, false, 0⟩) }) fun c t =>
        c.full.isNone && (t.checkRange (c.who t) .write 0x20000 128).isNone && (t.objCheck c.bid 0 16 16).isNone &&
          decide (shelfWalks t 0 < 8) && (t.takeLocks t.fresh [⟨0, .mem (0x20000 / 128) (0x20000 / 128), true⟩]).isNone) ∧
    (meets (.cinv (v 127 16 127 127 0x20)) (one 16 [0x20000, 0]) (mapped 0 true) fun c t =>
        decide (∀ i ∈ c.real, State.checkLease (c.who t) (c.rdw ⟨0, 16⟩ i).toNat 1 .read = none) &&
        match checkProbe (c.who t) (c.real.map fun i => (c.rdw ⟨0, 16⟩ i).toNat) t with
        | (b, .ok l) => l.length == 1 && l.all fun x => (b.lockCause 0 (.mem x.1) 1 false).isNone
        | _ => false) ∧
    (meets (.tlbinv (v 127 16 24 32 0)) (fun g => regs 24 [0x10000, 0] (regs 16 [0x20000, 0] g)) (mapped 0 true) fun c _ =>
        c.l0.isSome && c.full.isNone && c.rdw ⟨0, 24⟩ 0 != 0) ∧
    (meets (.tlbinvAsid (v 127 127 127 32 0x60)) id (mapped 0 true) fun c _ => c.l0.isSome && c.full.isNone) := by
  decide +kernel

/-- TLBINV of nothing, with its flag full and not. -/
theorem witness_tlbinv_of_nothing :
    (meets (.tlbinv (v 127 16 24 32 0)) id id fun c _ => c.l0.isSome && c.full.isNone && c.rdw ⟨0, 24⟩ 0 == 0) ∧
    (meets (.tlbinv (v 127 16 24 32 0)) (fun g => { g with flags := g.flags.set 0 63 }) id fun c _ =>
      c.l0.isSome && c.full == some 0 && c.rdw ⟨0, 24⟩ 0 == 0) := by decide +kernel

/-- An operation of the first group with a kind of work. -/
def anOp (k : OpKind) : Op := ⟨32, 1, 0, some 0, 0x10000, 0x10000, lanes32, lanes32, 8, k, false⟩

/-- The first group with operation 9 outstanding. -/
def withOp (k : OpKind) (s : State) : State :=
  ({ s with ops := [(9, anOp k)] } : State).modGroup 32 fun g => { g with flags := g.flags.set 0 1 }

/-- The first 4 TiB are mapped to themselves by an entry of the root table at address 0. -/
def tabled (s : State) : State := (mapped 0 true s).homeWrite 0 [0x5F, 0, 0, 0, 0, 0, 0, 0]

/-- A walk of the Shelf Reader at its last line; a page walk that finds its page; a line of a directory-tracked page. -/
theorem witness_walk_steps :
    (match (State.translate (withOp (.shelf 1 3 none (0x2FF80 / 128) (0x2FF80 / 128 + 1) 0) (mapped 0 true (ready 0 id)))
        0 0 0x2FF80).entry with
      | some e => !isPeer (e.phys 0x2FF80) && e.home != 3
      | none => false) = true ∧
    (match (State.walk (tabled (ready 0 id)) 0 0x30000).leaf with
      | some e => e.ok && (State.walk (tabled (ready 0 id)) 0 0x30000).bad.isNone
      | none => false) = true ∧
    ((l1Phys (((mapped 0 false (ready 0 id)).modCore 0 fun c => { c with
        l1 := [⟨0x20000 / 128, 0, false, true, true, 0x20000 / 128, false, .default, .default, 0, 0, 0⟩] }).core 0).l1 (0x20000 / 128)).map
      fun y => !y.self && y.w) = some true := by decide +kernel

/-! ## Witnesses: the ends of operations, waits and barrier objects -/

/-- The first cohort is asked to leave at time 0, and it is 20 µs later. -/
def leaving (s : State) : State :=
  { s.modCohort 1 fun c => { c with state := .preempting ⟨0x10, 0, 0, none⟩ } with now := State.us 20 }

/-- A copy of one unit from the scratchpad, of which `done` is done. -/
def aCopy (out : Bool) (done : List Nat) : Copy :=
  { out := out, cb := false, maddr := 0x20000, mstride := 0, soff := 0x3FFF0, sstride := 0, rows := 1, units := 1, bo := none
    recv := [1], peers := [1], slot := none, xlat := [(2, page2 0 true)], aspace := 0, hint := 0, done := done, counted := [], snap := none
    refused := false }

/-- Operations of every kind at their end. -/
theorem witness_ends :
    (tget? (withOp .plain (ready 0 id)).ops 9).isSome ∧ (tget? (withOp .acquire (ready 0 id)).ops 9).isSome ∧
    ((withOp (.ldt [7]) (ready 0 id)).walks = []) ∧
    (let s := withOp (.tlbinv [] [7, 8] 0 false 0 0) (ready 0 id)
     s.walks = [] ∧ tget? s.ops 7 = none ∧ tget? s.ops 8 = none) ∧
    (let s := withOp (.tlbinv [7] [8] 3 false 0 0) (ready 0 id)
     s.walks = [] ∧ tget? s.ops 8 = none ∧ s.invOps ⟨3, false, 0, 0⟩ = []) ∧
    ((withOp (.token 15) (ready 0 id)).accPending 1 15 = false) ∧
    ((aCopy false [0]).total ≤ (aCopy false [0]).done.length) ∧
    ((leaving (withOp (.copy (aCopy false [])) (ready 0 id))).preemptedAt (anOp (.copy (aCopy false []))) = some 0) ∧
    ((leaving (withOp (.shelf 1 0 none 3 4 0) (ready 0 id))).preemptedAt (anOp (.shelf 1 0 none 3 4 0)) = some 0) ∧
    (let s := scratch [(64, 128), (68, 1), (72, 7), (76, 8), (128, 5)] (ready 0 id)
     let y := s.laneQueue 1 64
     y.valid = true ∧ y.slots - y.avail = 0) ∧
    (let s := scratch [(64, 128), (68, 4), (72, 7), (76, 7), (256, 5)] (ready 0 id)
     let o := anOp (.cpyq 64 1 (BitVec.ofNat 64 (windowBase + 256)) [] 0)
     let y := s.laneQueue 1 64
     y.valid = true ∧ o.held = false ∧ (s.block? o.block).isSome ∧
       isOk (s.cpyqItems o [] 0 (windowBase + 256) 1).2 = true ∧ s.scratchCheck 1 (y.base + 8 * (y.tail % y.slots)) 8 = none) := by
  decide +kernel

/-- A loop for flag 11, started at 0, with its result. -/
def aLoop (timeout : Nat) (res : Option W32) : WaitLoop := ⟨0, timeout, false, [0], [⟨1, 0, 11⟩], [], [], res⟩

/-- WAIT on a flag that is clear, on one that is not, with no time and with time, and on an unknown kind; a WAIT that goes on
with its loop, its deadline passed, and after it. -/
theorem witness_wait :
    (let w := v 8 16 24 127 0
     let busy (g : Group) : Group := { g with flags := g.flags.set 11 1 }
     (meets (.wait w) (one 16 [1, 0, 11, 0]) id fun c t => c.l0 == some 0 && c.savedHere.isNone &&
        (c.checkDescs 0 [c.waitDesc w 0 0] t).2.isNone && t.descHolds c.o c.gid (c.waitDesc w 0 0)) ∧
     (meets (.wait w) (fun g => one 16 [1, 0, 11, 0] (busy g)) id fun c t =>
        c.savedHere.isNone && (c.checkDescs 0 [c.waitDesc w 0 0] t).2.isNone && c.rdd 24 0 == 0 &&
          !t.descHolds c.o c.gid (c.waitDesc w 0 0)) ∧
     (meets (.wait w) (fun g => reg 24 0xFFFFFFFF (one 16 [1, 0, 11, 0] (busy g))) id fun c t =>
        c.savedHere.isNone && (c.checkDescs 0 [c.waitDesc w 0 0] t).2.isNone && c.rdd 24 0 != 0 &&
          !t.descHolds c.o c.gid (c.waitDesc w 0 0)) ∧
     (meets (.wait w) (one 16 [7, 0, 0, 0]) id fun c t =>
        c.savedHere.isNone && (c.checkDescs 0 [c.waitDesc w 0 0] t).2.isSome) ∧
     (meets (.wait w) (fun g => { one 16 [1, 0, 11, 0] (busy g) with saved := some (0x10008, .wait (aLoop 5 none)) })
        (fun s => { s with now := State.us 20 }) fun c t => c.savedHere == some (.wait (aLoop 5 none)) &&
          (c.checkDescs 0 [c.waitDesc w 0 0] t).2.isNone && (aLoop 5 none).timedOut t.rt 0) ∧
     (meets (.wait w) (fun g => { one 16 [1, 0, 11, 0] g with saved := some (0x10008, .wait (aLoop 5 (some 1))) }) id
        fun c _ => c.savedHere == some (.wait (aLoop 5 (some 1))))) := by decide +kernel

/-- A group in the loop of a WAIT for two flags, of which one is clear, before its time and at it. -/
theorem witness_wait_loop :
    let s := ready ((encode? (.wait (v 8 16 24 127 0x21))).getD 0) fun g =>
      { single g with flags := g.flags.set 11 1, blocked := some (.wait { aLoop 5 none with descs := [⟨1, 0, 11⟩, ⟨1, 0, 10⟩] }) }
    (match s.waiting 32 with
      | some (o, x) => x.res.isNone && x.met == [] && !s.descHolds o 32 ⟨1, 0, 11⟩ && s.descHolds o 32 ⟨1, 0, 10⟩ &&
          !x.timedOut s.rt 0 && x.timedOut ({ s with now := 765 * 5 } : State).rt 0
      | none => false) = true ∧
    (let s := slotFree (ready 0 fun g => { g with blocked := some (.wait (aLoop 5 (some 1))) })
     match s.owner? 32 with
      | some o => o.g.run.isSome && undisturbed o.g && (s.slotOfGroup o).cur.isNone
      | none => false) = true ∧
    (0 ∈ ((aLoop 5 none).pass [0] 76500 0).met) ∧ ((aLoop 5 none).pass [] 1 7).res.isSome = true := by decide +kernel

/-- BOINIT with a count and with none, at the last object and outside; BOARR at an object that takes it and at one that does
not. -/
theorem witness_objects :
    (meets (.boinit (v 127 16 24 127 0x20)) (fun g => one 16 [0x3FFF0] (reg 24 1 g)) id fun c t =>
        (t.objUse c.core c.bid 0x3FFF0 16 16 true).isNone && c.rd ⟨0, 24⟩ 0 != 0) ∧
    (meets (.boinit (v 127 16 24 127 0)) (one 16 [0x3FFF0]) id fun c t =>
        (t.objUse c.core c.bid 0x3FFF0 16 16 true).isNone && c.rd ⟨0, 24⟩ 0 == 0) ∧
    (meets (.boinit (v 127 16 24 127 0)) (one 16 [0x40000]) id fun c t => (t.objUse c.core c.bid 0x40000 16 16 true).isSome) ∧
    (meets (.boarr (v 8 16 127 127 127)) (one 16 [64]) (scratch [(64, 1)]) fun c t =>
        (t.objUse c.core c.bid 64 16 16 true).isNone && (t.arriveAt c.bid 64 1).2) ∧
    (meets (.boarr (v 8 16 24 127 127)) (one 16 [64]) id fun c t =>
        (t.objUse c.core c.bid 64 16 16 true).isNone && !(t.arriveAt c.bid 64 0).2) := by decide +kernel

/-- BOREAD of an object that a copy of another group writes. -/
theorem witness_boread :
    (meets (.boread (v 8 16 127 127 127)) (one 16 [0x3FFF0]) id fun c t =>
        c.real.all fun i => (t.objUse c.core c.bid (c.rd ⟨0, 16⟩ i).toNat 16 16 false).isNone) ∧
    (meets (.boread (v 8 16 127 127 127)) (one 16 [64]) (fun s => s.modCluster 0 fun k =>
        { k with locks := [(1, ⟨.scr 1 4 4, true, 1⟩)] }) fun c t =>
        c.real == [0] && (t.objUse c.core c.bid (c.rd ⟨0, 16⟩ 0).toNat 16 16 false).isSome) := by decide +kernel

/-- An object not initialised, one with an arrival to come, and one whose phase ends with too many. -/
theorem witness_arrivals :
    ((⟨0, 0, 0, 0⟩ : BarObj).expected = 0) ∧ ((⟨2, 0, 0, 0⟩ : BarObj).rsv = false) ∧
    ((⟨2, 1, 0xFFFFFFFF, 0x100⟩ : BarObj).rsv = false) := by decide +kernel

/-! ## Witnesses: copies and buffers -/

/-- The registers of a tile: one row of one unit, between an address and an offset of the scratchpad, with no object. -/
def tile (a : List W32) (off : W32) : List W32 := a ++ [0, off, 0, 0, 0xFFFFFFFF, 0]

/-- CPY in, out, to the window; misaligned; outside its leases; `.cb` into a buffer. -/
theorem witness_cpy :
    (meets (.cpy (v 8 16 127 127 0)) (one 16 (tile [0x2FFF0, 0] 0x3FFF0)) (mapped 0 true) fun c t =>
        let y := Tile.read c ⟨0, 16⟩ 0
        c.l0 == some 0 && c.full.isNone && (t.tileAlign 1 y).isNone && (t.tileScratch 1 y false).isNone &&
        sideFree c t y.mrows y.len .read &&
        match t.memorySide (c.who t) y.mrows y.len .read true with
        | (b, .ok _) => (b.takeLocks b.fresh (b.memoryLocks (c.who t) y.mrows y.len false ++ [b.tileLock 1 y true])).isSome
        | _ => false) ∧
    (meets (.cpy (v 8 16 127 127 0x20)) (one 16 (tile [0x2FFF0, 0] 0x3FFF0))
        (fun s => (mapped 0 true s).modCluster 0 fun k => { k with locks := (List.range 63).map fun n => (n, ⟨.mem 0 0, false, 0⟩) })
        fun c t =>
        let y := Tile.read c ⟨0, 16⟩ 0
        c.full.isNone && (t.tileAlign 1 y).isNone && (t.tileScratch 1 y false).isNone && sideFree c t y.mrows y.len .write &&
        match t.memorySide (c.who t) y.mrows y.len .write true with
        | (b, .ok _) => (b.takeLocks b.fresh (b.memoryLocks (c.who t) y.mrows y.len true ++ [b.tileLock 1 y false])).isNone
        | _ => false) ∧
    (meets (.cpy (v 8 16 127 127 0)) (one 16 (tile [0x2FFF8, 0] 0)) (mapped 0 true) fun c t =>
        c.full.isNone && (t.tileAlign 1 (Tile.read c ⟨0, 16⟩ 0)).isSome) ∧
    (meets (.cpy (v 8 16 127 127 0)) (one 16 (tile [0x30000, 0] 0)) (mapped 0 true) fun c t =>
        let y := Tile.read c ⟨0, 16⟩ 0
        c.full.isNone && (t.tileAlign 1 y).isNone && (t.tileScratch 1 y false).isNone && sideFree c t y.mrows y.len .read &&
          !isOk (t.memorySide (c.who t) y.mrows y.len .read true).2) ∧
    (meets (.cpy (v 8 16 127 127 0x40)) (one 16 (tile [0x20000, 0] 64))
        (fun s => scratch [(64, 1024), (68, 16), (80, 0x10001)] (mapped 0 true s)) fun c t =>
        let y := Tile.read c ⟨0, 16⟩ 0
        c.full.isNone && (t.tileAlign 1 y).isNone && (t.tileScratch 1 y true).isNone && sideFree c t y.mrows y.len .read &&
          isOk (t.memorySide (c.who t) y.mrows y.len .read true).2) := by decide +kernel

/-- The lease without a translation, a walk of its page in flight. -/
def walking (s : State) : State := { leased s with walks := [(1, ⟨0, 0, 2, State.tlbBankOf 2, true, [0], [], []⟩)], fresh := 2 }

/-- An access at its issue with a miss that joins the walk in flight, and with none that waits. -/
def waitsOrNot (i : Instr) (f : Group → Group) (vas : Ctx → State → List Nat) : Bool :=
  meets i f walking (fun c t => (t.waitWalks c.core c.o.l.aspace (vas c t)).isSome) &&
    meets i f (mapped 0 true) fun c t => (t.waitWalks c.core c.o.l.aspace (vas c t)).isNone

/-- Words whose miss joins a walk in flight, and does not wait. -/
theorem witness_waiting_for_walks :
    (let w := mw 8 16 127 5 0
     let m := one 16 [0x20000, 0]
     let x : VWord := { v 8 16 24 127 0x0B with a := ⟨5, 16⟩ }
     let d := fun g => regs 24 [1, 0] (one 16 [0x20000, 0] g)
     waitsOrNot (.ld w) m (fun c t => walkAddrs (c.who t) .read (c.wants (mAddr c w 8) 8)) &&
     waitsOrNot (.st w) m (fun c t => walkAddrs (c.who t) .write (c.realWants (mAddr c w 8) 8)) &&
     waitsOrNot (.ldacq w) m (fun c t => walkAddrs (c.who t) .read (c.realWants (mAddr c w 8) 8)) &&
     waitsOrNot (.strel w) m (fun c t => walkAddrs (c.who t) .write (c.realWants (mAddr c w 8) 8)) &&
     waitsOrNot (.atom x) m (fun c t => walkAddrs (c.who t) .rmw (c.realWants (atomAddr c x) 8)) &&
     waitsOrNot (.redm { x with d := 127 }) m (fun c t => walkAddrs (c.who t) .rmw (c.realWants (atomAddr c { x with d := 127 }) 8)) &&
     waitsOrNot (.atomcas { x with c := ⟨0, 32⟩, a := ⟨0, 16⟩ }) m
       (fun c t => walkAddrs (c.who t) .rmw (c.realWants (atomAddr c { x with c := ⟨0, 32⟩, a := ⟨0, 16⟩ }) 8)) &&
     waitsOrNot (.sigclr (v 127 16 127 127 127)) m (fun c t => walkAddrs (c.who t) .write (c.realWants (fun i => (c.rdw ⟨0, 16⟩ i).toNat) 128)) &&
     waitsOrNot (.stmc (v 8 16 24 32 5)) d (fun c t => destAddrs c (v 8 16 24 32 5) (c.who t) .write 8) &&
     waitsOrNot (.strd (v 8 16 24 32 8)) d (fun c t => destAddrs c (v 8 16 24 32 8) (c.who t) .rmw 4)) = true := by decide +kernel

/-- The same of words with a memory side, and of a WAIT for a cell. -/
theorem witness_sides_waiting_for_walks :
    (let y := one 16 (tile [0x20000, 0] 0)
     waitsOrNot (.cpy (v 8 16 127 127 0)) y (fun c t =>
       State.sideAddrs (c.who t) (Tile.read c ⟨0, 16⟩ 0).mrows (Tile.read c ⟨0, 16⟩ 0).len .read) &&
     waitsOrNot (.cpymc (v 8 16 24 127 127)) y (fun c t =>
       State.sideAddrs (c.who t) (Tile.read c ⟨0, 16⟩ 0).mrows (Tile.read c ⟨0, 16⟩ 0).len .read) &&
     waitsOrNot (.cpyq (v 8 16 24 32 127)) (fun g => reg 16 64 (one 24 [0x20000, 0] (reg 32 4 g)))
       (fun c t => State.sideAddrs (c.who t) [0x20000] 32 .read) &&
     waitsOrNot (.wait (v 8 16 24 127 0)) (one 16 [0x20005, 0, 7, 0]) (fun c t =>
       Ctx.cellAddrs (c.who t) [c.waitDesc (v 8 16 24 127 0) 0 0])) = true := by decide +kernel

/-- CPYMC to the block of rank 0 and to none; CPYQ of nothing, of the most items, and misaligned. -/
theorem witness_cpymc_cpyq :
    (meets (.cpymc (v 8 16 24 127 127)) (fun g => reg 24 1 (one 16 (tile [0x20000, 0] 0) g)) (mapped 0 true) fun c t =>
        let y := Tile.read c ⟨0, 16⟩ 0
        c.full.isNone && (t.tileAlign 1 y).isNone && bitsOf 16 (c.rd ⟨0, 24⟩ 0).toNat == [0] &&
          c.o.c.blocks[0]? == some 1 && State.extentOk y 0 (t.scratchSize 1) && y.obj.isNone &&
          sideFree c t y.mrows y.len .read &&
          isOk (t.memorySide (c.who t) y.mrows y.len .read false).2) ∧
    (meets (.cpymc (v 8 16 24 127 127)) (one 16 (tile [0x20000, 0] 0)) (mapped 0 true) fun c t =>
        let y := Tile.read c ⟨0, 16⟩ 0
        c.full.isNone && (t.tileAlign 1 y).isNone && bitsOf 16 (c.rd ⟨0, 24⟩ 0).toNat == [] &&
          sideFree c t y.mrows y.len .read && isOk (t.memorySide (c.who t) y.mrows y.len .read false).2) ∧
    (meets (.cpyq (v 8 16 24 32 127)) (fun g => reg 16 64 (one 24 [0x2FF00, 0] (reg 32 32 g)))
        (fun s => scratch [(64, 128), (68, 4)] (mapped 0 true s)) fun c t =>
        c.full.isNone && sideFree c t [0x2FF00] 256 .read && isOk (t.memorySide (c.who t) [0x2FF00] 256 .read false).2 && (t.queueCheck c.core c.bid 64 true).isNone)
    ∧
    (meets (.cpyq (v 8 16 24 32 127)) (fun g => reg 16 64 (single g)) (scratch [(64, 128), (68, 4)]) fun c t =>
        c.full.isNone && c.rd ⟨0, 32⟩ 0 == 0 && (t.queueCheck c.core c.bid 64 true).isNone) ∧
    (meets (.cpyq (v 8 16 24 32 127)) (fun g => regs 24 [4, 0] (single g)) id fun c _ =>
        c.full.isNone && (c.rdw ⟨0, 24⟩ 0).toNat % 8 != 0) := by decide +kernel

/-- A unit that may be copied, an operation that waited and need not, and a word that found no entry. -/
theorem witness_copy_steps :
    (let s := withOp (.copy (aCopy false [])) (mapped 0 true (ready 0 id))
     let c := aCopy false []
     0 < c.total ∧ s.copyBusy 9 c 0 = false ∧ s.copyAfter 9 (anOp (.copy c)) c 0 = false ∧ c.selfOverlap = false ∧
       isOk (s.copyRead (anOp (.copy c)) c 0).2 = true ∧ s.lockWaits 9 = false) ∧
    (let s := slotFree (ready 0 fun g => { g with blocked := some (.rlt [0]) })
     s.roomForLocks [0] = true ∧
      (match s.owner? 32 with
        | some o => o.g.blocked == some (.rlt [0]) && o.g.run.isSome && undisturbed o.g && (s.slotOfGroup o).cur.isNone &&
            decide ((s.slotOfGroup o).freeAt ≤ (s.cluster (clusterOf o.b.core)).cycles)
        | none => false) = true) := by decide +kernel

/-- The buffer words where they go on and where they cannot. -/
theorem witness_buffers :
    (meets (.cbinit (v 127 16 24 127 127)) (fun g => regs 24 [1024, 16, 2, 0] (one 16 [64] g)) id fun c t =>
        (t.objUse c.core c.bid 64 32 32 true).isNone && c.o.b.bufq == [] && t.ops == [] &&
          (⟨1024, 16, 0, 0, 0, 2, 0, 2, 0, 0, 0, 0, 0⟩ : CbDesc).valid (t.scratchSize c.bid)) ∧
    (meets (.cbres (v 8 16 127 127 0)) (one 16 [64]) (fun s => s.putCbDesc 1 64 ⟨1024, 16, 0, 0, 0, 2, 0, 1, 0, 1, 1, 0, 0⟩)
        fun c t => (t.cbCheck c.core c.bid 64).isNone && decide (0 < (t.cbDesc c.bid 64).free) && c.o.b.bufq == []) ∧
    (meets (.cbacq (v 8 16 127 127 0)) (one 16 [64]) (fun s => s.putCbDesc 1 64 ⟨1024, 16, 0, 0, 0, 2, 2, 0, 1, 1, 0, 0, 0⟩)
        fun c t => (t.cbCheck c.core c.bid 64).isNone && decide (0 < (t.cbDesc c.bid 64).filled) && c.o.b.bufq == []) ∧
    (meets (.cbacq (v 8 16 127 127 0x20)) (one 16 [64]) (fun s => s.putCbDesc 1 64 ⟨1024, 16, 0, 0, 0, 2, 0, 2, 0, 0, 0, 0, 0⟩)
        fun c t => (t.cbCheck c.core c.bid 64).isNone && (t.cbDesc c.bid 64).filled == 0) ∧
    (meets (.cbres (v 8 16 127 127 0)) (one 16 [64]) (fun s => s.putCbDesc 1 64 ⟨1024, 16, 0, 0, 0, 2, 2, 0, 0, 0, 0, 0, 0⟩)
        fun c t => (t.cbCheck c.core c.bid 64).isNone && (t.cbDesc c.bid 64).free == 0) ∧
    (meets (.cbres (v 8 16 127 127 0)) (one 16 [64]) id fun c t => (t.cbCheck c.core c.bid 64).isSome) ∧
    (meets (.cbcommit (v 127 16 24 127 127)) (fun g => reg 24 1024 (one 16 [64] g))
        (fun s => s.putCbDesc 1 64 ⟨1024, 16, 0, 0, 0, 2, 0, 1, 0, 1, 1, 0, 0⟩) fun c t =>
        (t.cbCheck c.core c.bid 64).isNone && c.o.b.bufq == [] &&
        match (t.cbDesc c.bid 64).giveBack true 1024 with
        | some (y, n) => ((t.putCbDesc c.bid 64 y).arriveMany c.bid ((t.cbDesc c.bid 64).bo true) n).isSome
        | none => false) ∧
    (meets (.cbrel (v 127 16 24 127 127)) (fun g => reg 24 1040 (one 16 [64] g))
        (fun s => s.putCbDesc 1 64 ⟨1024, 16, 0, 0, 0, 2, 0, 0, 0, 0, 0, 0, 0⟩) fun c t =>
        (t.cbCheck c.core c.bid 64).isNone &&
        match (t.cbDesc c.bid 64).giveBack false 1040 with
        | some (y, n) => ((t.putCbDesc c.bid 64 y).arriveMany c.bid ((t.cbDesc c.bid 64).bo false) n).isSome
        | none => false) ∧
    (meets (.cbcommit (v 127 16 24 127 127)) (fun g => reg 24 1024 (one 16 [64] g))
        (fun s => (s.putCbDesc 1 64 ⟨1024, 16, 0, 0, 8, 2, 0, 1, 0, 1, 1, 0, 0⟩).modCluster 0 fun k =>
          { k with locks := [(1, ⟨.scr 1 8 8, true, 1⟩)] }) fun c t =>
        (t.cbCheck c.core c.bid 64).isNone &&
        match (t.cbDesc c.bid 64).giveBack true 1024, (t.cbDesc c.bid 64).bo true with
        | some (_, n), some o => n != 0 && (t.objLock c.core c.bid o 16 true).isSome
        | _, _ => false) ∧
    (meets (.cbcommit (v 127 16 24 127 127)) (fun g => reg 24 1041 (one 16 [64] g))
        (fun s => s.putCbDesc 1 64 ⟨1024, 16, 0, 0, 0, 2, 0, 1, 0, 1, 1, 0, 0⟩) fun c t =>
        (t.cbCheck c.core c.bid 64).isNone && ((t.cbDesc c.bid 64).giveBack true 1041).isNone) ∧
    (meets (.lkqPush (v 8 16 24 127 0)) (one 16 [64]) (scratch [(64, 128), (68, 1), (72, 5), (76, 5)]) fun c t =>
        (t.queueCheck c.core c.bid 64 true).isNone && (t.itemCheck c.core c.bid true [128]).isNone &&
          decide (1 ≤ (t.laneQueue c.bid 64).slots - (t.laneQueue c.bid 64).avail)) ∧
    (meets (.lkqLen (v 8 16 127 127 0x20)) (one 16 [64]) (scratch [(64, 128), (68, 1), (72, 5), (76, 5)]) fun c t =>
        (t.queueCheck c.core c.bid 64 false).isNone) := by decide +kernel

/-! ## Witnesses: the matrix engine -/

/-- A tile configuration of 64 rows of 16 f16 elements. -/
def cfg16 : W32 := 0x80113F0F

/-- Every tile is configured, and the vector side holds accumulator 15. -/
def matrix (s : State) : State :=
  s.modBlock 1 fun b => { b with tcfg := List.replicate 16 cfg16, vectorTokens := [15] }

/-- An engine word that fails its checks, that enters the queue, with its flag full; that signs where it is not declared,
has signed, is one of two signers and is the last. -/
theorem witness_engine_words :
    (meets (.tload (v 0 16 24 127 0)) (one 16 [8]) matrix fun c t => c.l0 == some 0 && c.full.isNone &&
        !isOk (t.engineCheck ⟨.tload (v 0 16 24 127 0), 1, [8, 0], [], 0, [t.fresh], false⟩)) ∧
    (meets (.tload (v 0 16 24 127 0)) (one 16 [64]) matrix fun c t => c.full.isNone &&
        match t.engineCheck ⟨.tload (v 0 16 24 127 0), 1, [64, 0], [], 0, [t.fresh], false⟩ with
        | .ok need => ((t.addOp (c.op .engine 0) []).pushEngine ⟨.tload (v 0 16 24 127 0), 1, [64, 0], [], 0, [t.fresh], false⟩ need).isSome
        | .error _ => false) ∧
    (meets (.tload (v 0 16 24 127 0)) (one 16 [64]) (fun s => (matrix s).modCluster 0 fun k => { k with locks := (List.range 64).map fun n =>
          (n, ⟨.mem 0 0, false, 0⟩) }) fun c t => c.full.isNone &&
        match t.engineCheck ⟨.tload (v 0 16 24 127 0), 1, [64, 0], [], 0, [t.fresh], false⟩ with
        | .ok need => ((t.addOp (c.op .engine 0) []).pushEngine ⟨.tload (v 0 16 24 127 0), 1, [64, 0], [], 0, [t.fresh], false⟩ need).isNone
        | .error _ => false) ∧
    (meets (.mma (v 14 0 1 127 0)) (fun g => { single g with flags := g.flags.set 0 63 }) matrix fun c _ => c.full == some 0) ∧
    (meets (.mma (v 14 0 1 127 8)) single matrix fun c _ => (c.o.b.conv[0]?).any fun x => !x.decl.contains c.o.g.slot) ∧
    (meets (.mma (v 14 0 1 127 15)) single (fun s => (matrix s).modBlock 1 fun b => { b with
        conv := b.conv.set 7 ⟨[0, 1], [0], none⟩ }) fun c _ =>
        (c.o.b.conv[7]?).any fun x => x.decl.contains 0 && x.signed.contains 0) ∧
    (meets (.mma (v 14 0 1 127 15)) single (fun s => (matrix s).modBlock 1 fun b => { b with
        conv := b.conv.set 7 ⟨[0, 1], [], none⟩ }) fun c t => c.full.isNone &&
        (c.o.b.conv[7]?).any fun x => x.decl.contains 0 && !x.signed.contains 0 &&
          (x.sign 0 t.fresh ⟨.mma (v 14 0 1 127 15), 1, [], [], 0, [t.fresh], false⟩).signed != x.decl) ∧
    (meets (.mma (v 14 0 1 127 15)) single (fun s => (matrix s).modBlock 1 fun b => { b with
        conv := b.conv.set 7 ⟨[0], [], none⟩ }) fun c t => c.full.isNone &&
        (c.o.b.conv[7]?).any fun x =>
          let y := x.sign 0 t.fresh ⟨.mma (v 14 0 1 127 15), 1, [], [], 0, [t.fresh], false⟩
          y.signed == y.decl && (((t.addOp (c.op .engine 14) []).modBlock 1 fun b => { b with conv := b.conv.set 7 y }).finishRound 1 7).isSome) ∧
    (meets (.tload (v 0 16 24 127 15)) (one 16 [64]) (fun s => ((matrix s).modBlock 1 fun b => { b with
        conv := b.conv.set 7 ⟨[0], [], none⟩ }).modCluster 0 fun k => { k with locks := (List.range 64).map fun n =>
          (n, ⟨.mem 0 0, false, 0⟩) }) fun c t => c.full.isNone &&
        (c.o.b.conv[7]?).any fun x =>
          let y := x.sign 0 t.fresh ⟨.tload (v 0 16 24 127 15), 1, [64, 0], [], 0, [t.fresh], false⟩
          y.signed == y.decl && (((t.addOp (c.op .engine 0) []).modBlock 1 fun b => { b with conv := b.conv.set 7 y }).finishRound 1 7).isNone) := by
  decide +kernel

/-- Tile configurations that are legal and not; accumulators with their token on the vector side and not. -/
theorem witness_matrix_words :
    (meets (.tcfgw (v 0 16 127 127 127)) (one 16 [0x113F0F]) id fun c _ => cfgOk (c.rd ⟨0, 16⟩ 0)) ∧
    (meets (.tcfgw (v 15 16 127 127 127)) (one 16 [0x313F0F]) id fun c _ => !cfgOk (c.rd ⟨0, 16⟩ 0)) ∧
    (meets (.accrd (v 8 15 24 127 0x20)) (one 24 [60]) matrix fun c _ => !c.act.isEmpty && c.o.b.vectorTokens.contains 15 &&
        (c.rd ⟨0, 24⟩ 0).toNat % 64 % 4 == 0) ∧
    (meets (.accrd (v 8 14 24 127 0)) single matrix fun c _ => !c.act.isEmpty && !c.o.b.vectorTokens.contains 14) ∧
    (meets (.accwr (v 15 16 24 127 0)) id matrix fun c _ => !c.real.isEmpty && c.o.b.vectorTokens.contains 15) ∧
    (meets (.accwr (v 14 16 24 127 0)) single matrix fun c _ => !c.real.isEmpty && !c.o.b.vectorTokens.contains 14) ∧
    (meets (.toktake (v 15 127 127 127 127)) single matrix fun c _ => c.full.isNone && c.o.b.vectorTokens.contains 15) ∧
    (meets (.toktake (v 15 127 127 127 127)) (fun g => { single g with flags := g.flags.set 0 63 }) matrix fun c _ =>
        c.full == some 0) ∧
    (meets (.cvdecl (v 127 16 127 127 8)) (one 16 [1]) id fun c _ => c.o.b.gslots.length == 1 &&
        (c.o.b.conv[0]?).any fun x => x.signed == []) ∧
    (meets (.cvdecl (v 127 16 127 127 8)) (one 16 [2]) id fun c _ => decide (2 ^ c.o.b.gslots.length ≤ (c.rd ⟨0, 16⟩ 0).toNat)) ∧
    (meets (.cvdecl (v 127 16 127 127 15)) (one 16 [1]) (fun s => s.modBlock 1 fun b => { b with
        conv := b.conv.set 7 ⟨[0, 1], [1], none⟩ }) fun c _ => (c.o.b.conv[7]?).any fun x => x.signed != []) ∧
    (meets (.cvq (v 8 127 127 127 0x2F)) single id fun c _ => (c.o.b.conv[7]?).isSome) := by decide +kernel

/-- Engine operations on a block, with a configuration whose rows fit a tile. -/
theorem witness_engine_effects :
    (cfgRowBytes cfg16 ≤ 128) ∧ ((matrix (ready 0 id)).block? 1).isSome ∧ cfgRows cfg16 = 64 := by decide +kernel

/-- An operation at the head of an idle engine; a round whose members have all signed; a comparator that finds a hot twin
and a cool one; a drained engine. -/
theorem witness_matrix_events :
    (let e : EngineOp := ⟨.tzero (v 3 127 127 127 0), 1, [], [], 5, [], false⟩
     let s := (ready 0 id).modCore 0 fun c => { c with engine := [e] }
     (s.core 0).drain = false ∧ s.lockWaits 5 = false) ∧
    (let e : EngineOp := ⟨.tzero (v 3 127 127 127 15), 1, [], [], 5, [], false⟩
     let s := (ready 0 id).modBlock 1 fun b => { b with conv := b.conv.set 7 ⟨[0], [0], some e⟩ }
     (s.finishRound 1 7).isSome) ∧
    (let s := { ready 0 id with now := State.us 50 }
     (s.chiplet 0).power = .active ∧ s.thot ≤ 255 ∧ 0 < s.tcool ∧ (s.core 0).lastSwap + State.us 50 ≤ s.now) ∧
    (let s := (ready 0 id).modCore 0 fun c => { c with drain := true }
     (s.core 0).drain = true ∧ (s.core 0).drainHead = false) := by decide +kernel

/-! ## Witnesses: system words -/

/-- SREAD of the last index; SWRITE that is accepted and refused; PMACK with an operation that is to be performed and
without; HCALL with an event ring and without; PRICLS of a class that is allowed and of one that is not. -/
theorem witness_system_words :
    (meets (.sread (im 8 127 0x1F0)) single id fun c _ => c.l0.isSome) ∧
    (meets (.swrite (im 8 16 0x140)) (one 16 [0xFFFFFFF8, 0x7FFFFF]) id fun c t =>
        (c.sysWrite t 0x140 (c.rdw ⟨0, 16⟩ 0)).isSome && decide ((c.rdw ⟨0, 16⟩ 0).toNat < 2 ^ 55)) ∧
    (meets (.swrite (im 8 16 0x140)) (one 16 [0, 0x800000]) id fun c t => (c.sysWrite t 0x140 (c.rdw ⟨0, 16⟩ 0)).isNone &&
        decide (2 ^ 55 ≤ (c.rdw ⟨0, 16⟩ 0).toNat)) ∧
    (meets (.pmack (v 127 127 127 127 127)) (fun g => single (inHandler 0x10 g)) (withOp .plain) fun c t =>
        t.ops.any fun e => e.2.gid == c.gid && t.unperformed e.1 e.2) ∧
    (meets (.pmack (v 127 127 127 127 127)) (fun g => single (inHandler 0x10 g)) (withOp .engine) fun c t =>
        t.ops.all fun e => e.2.gid != c.gid || !t.unperformed e.1 e.2) ∧
    (meets (.hcall (im 8 16 0x7FFFFFF)) single id fun c t => (t.queue c.o.l.queue).evq == 0) ∧
    (meets (.hcall (im 8 16 0)) single (fun s => s.setQueue 0 { Queue.off with evq := 0x30000 }) fun c t =>
        (t.queue c.o.l.queue).evq != 0) ∧
    (meets (.pricls (im 127 127 7)) single id fun _ t => t.classAllowed 7) ∧
    (meets (.pricls (im 127 127 0)) single id fun _ t => !t.classAllowed 0) := by decide +kernel

/-- Class 0 is allowed, and the permitted power is 2,200 W. -/
def powered (s : State) : State := { s with catalogue := s.catalogue.set 28 0xFF0898 }

/-- The block's lease runs until time `t`. -/
def leasing (t : Nat) (s : State) : State := s.modBlock 1 fun b => { b with boostUntil := some t }

/-- BOOST of 0 µs, under a lease, refused and granted; the query and the release with a lease and without; and its expiry. -/
theorem witness_boosts :
    (meets (.boost (v 8 16 127 127 0)) single id fun c t => (t.expireBoosts.block? c.bid).isSome && c.rd ⟨0, 16⟩ 0 == 0) ∧
    (meets (.boost (v 8 16 127 127 0)) (one 16 [10001]) (leasing (State.us 16384)) fun c t =>
        match t.expireBoosts.block? c.bid with
        | some b => t.expireBoosts.boostLeft b == some 16384
        | none => false) ∧
    (meets (.boost (v 8 16 127 127 0)) (one 16 [10001]) id fun c t =>
        match t.expireBoosts.block? c.bid with
        | some b => (t.expireBoosts.boostLeft b).isNone && t.expireBoosts.boostRefusal b (t.classAllowed 0) == some 1
        | none => false) ∧
    (meets (.boost (v 8 16 127 127 0)) (one 16 [10001]) powered fun c t =>
        match t.expireBoosts.block? c.bid with
        | some b => (t.expireBoosts.boostLeft b).isNone && (t.expireBoosts.boostRefusal b (t.classAllowed 0)).isNone
        | none => false) ∧
    (meets (.boostQuery (v 8 127 127 127 0x20)) single (leasing 1) fun c t =>
        match t.expireBoosts.block? c.bid with
        | some b => t.expireBoosts.boostLeft b == some 0
        | none => false) ∧
    (meets (.boostQuery (v 8 127 127 127 0x20)) single (leasing 0) fun c t =>
        match t.expireBoosts.block? c.bid with
        | some b => (t.expireBoosts.boostLeft b).isNone
        | none => false) ∧
    (meets (.boostRelease (v 8 127 127 127 0x40)) single (leasing 1) fun c t =>
        match t.expireBoosts.block? c.bid with
        | some b => t.expireBoosts.boostLeft b == some 0
        | none => false) ∧
    (meets (.boostRelease (v 8 127 127 127 0x40)) single id fun c t =>
        match t.expireBoosts.block? c.bid with
        | some b => (t.expireBoosts.boostLeft b).isNone
        | none => false) ∧
    (((leasing 0 (ready 0 id)).block? 1).map fun b => b.boostUntil) = some (some 0) := by decide +kernel

/-! ## Witnesses: clauses -/

/-- A clause of one EXIT at 0x20000, mapped to itself by the page table, and the group about to start there. -/
def starting (s : State) : State :=
  let s := (tabled s).homeWrite 0x20000 (bytesOfNat 8 0xC0000000 ++ bytesOfNat 8 0x000FE3F8FE3FFF07)
  slotFree (s.modGroup 32 fun g => { g with run := none, lanes := List.replicate 32 (Thread.start 0x20000) })

/-- What CLAUSE_START chooses in slot 0 of core 0, and what its fetch gives. -/
def fetches (s : State) : Option Fetched :=
  (choose s 0 0).bind fun e => (s.owner? e.2).bind fun o => o.g.pick.map fun i =>
    fetchClause s o ((o.g.lane i).resume.getD (o.g.lane i).pc)

/-- The threads stand at a word of the clause, to resume there, its delay served. -/
def resuming (s : State) : State :=
  (starting s).modGroup 32 fun g => { g with
    lanes := List.replicate 32 { Thread.start 0x20008 with resume := some 0x20000, served := true } }

/-- A clause that starts, one that resumes at its word, and one whose fetch faults. -/
theorem witness_clause_start :
    (match fetches (starting (ready 0 id)) with
      | some (.ok h l) => h == 0xC0000000 && l == [0x000FE3F8FE3FFF07]
      | _ => false) = true ∧
    (match fetches (resuming (ready 0 id)) with
      | some (.ok _ l) => l.length == 1 && wordIndex 0x20000 0x20008 1 == some 0
      | _ => false) = true ∧
    (match fetches ((starting (ready 0 id)).modGroup 32 fun g => { g with
          lanes := List.replicate 32 (Thread.start 0x40000000000) }) with
      | some (.fault _ _ _ none) => true
      | _ => false) = true := by decide +kernel

/-- A word whose delay is over; a full flag that has fallen and other waits that are over; a wait for a buffer; a late
fault. -/
theorem witness_resumption :
    (let w : VWord := { v 127 127 127 127 127 with sched := ⟨3, 0, 0, 0, 0, 0⟩ }
     let s := (ready ((encode? (.nop w)).getD 0) fun g => { g with run := g.run.map fun r =>
       { r with served := false, passes := some 1 } }).modCluster 0 fun k => { k with cycles := 3 }
     match s.nextWord 32 with
      | some (o, r, x, _) => (Sched.ofWord x).dl == 3 && !r.served && o.g.blocked.isNone && r.passes == some 1 &&
          decide (r.since + 3 * 1 ≤ (s.cluster 0).cycles)
      | none => false) = true ∧
    (((ready 0 fun g => { g with blocked := some (.buffer true 64) }).group? 32).map fun g => g.blocked) =
      some (some (.buffer true 64)) ∧
    ([Blocked.flagFull 11, Blocked.walkers, Blocked.flags, Blocked.slot].all fun b =>
      match (slotFree (ready 0x3F90E040620 fun g => { g with blocked := some b })).owner? 32 with
      | some o => o.g.blocked == some b && o.g.run.isSome && undisturbed o.g &&
          (match b with
            | .flagFull f => decide (o.g.flag f < 63)
            | _ => blockOver (ready 0 id) o b)
      | none => false) = true ∧
    (match (handled ((ready 0 fun g => { g with run := none, late := [⟨0x07, 0x10008, 0x10000, 0x20000, 0, 0, 0, [0]⟩] }))).owner? 32 with
      | some o => o.g.late != [] && o.g.run.isNone && !(handled (ready 0 id)).terminal o 7 && (handled (ready 0 id)).terminal o 0x0C
      | none => false) = true := by decide +kernel

/-! ## Witnesses: device memory in service -/

/-- A mailbox record at 0x40000 of page 4 with word 0, a size and a channel mask, and nothing else. -/
def mail (w0 : Nat) (bytes mask : Nat) (s : State) : State :=
  { (mapped 0 true s).homeWrite 0x40000
      (bytesOfNat 8 w0 ++ bytesOfNat 16 0 ++ bytesOfNat 8 bytes ++ bytesOfNat 32 mask) with mailbox := [0x40000] }

/-- The next record has opcode `op` and breaks no reserved bit. -/
def mails (op : Nat) (s : State) : Bool :=
  match nextMail s with
  | some m => m.opcode == op && !m.rsv
  | none => false

/-- A record of every command, and one of no command. -/
theorem witness_commands :
    ([1, 2, 3, 4, 5, 16, 17, 18, 19, 20].all fun op => mails op (mail op 0x20000000 1 (ready 0 id))) = true ∧
    State.mailDefined 6 = false ∧ (nextMail (mail 6 0 0 (ready 0 id))).isSome := by decide +kernel

/-- A set that can be created, one whose number is taken, and one being created. -/
theorem witness_create :
    (match nextMail (mail 0xF00001 0x20000000 1 (ready 0 id)) with
      | some m => m.set == 15 && m.bytes == 2 ^ 29 && m.chmask == [0]
      | none => false) = true ∧
    (tget? (mapped 0 true (ready 0 id)).sets 15 = none) ∧
    ((mapped 0 true (ready 0 id)).fits 15 (2 ^ 29 / 128) [] [0] = true) ∧
    (tget? (mapped 0 true (ready 0 id)).sets 0).isSome ∧
    (let x : ISet := ⟨2 ^ 29, false, [0], [0], 0, true, true⟩
     let s : State := { mapped 0 true (ready 0 id) with creating := some (15, 0x40000) }
     let f := ({ s with sets := tput s.sets 15 x } : State).forget (2 ^ 40 * 15) (2 ^ 40 * 16)
     f.liveOf x ≠ [] ∧ f.fits 15 (x.size / 128) [] (f.liveOf x) = true ∧
       ({ f with liveChannels := [] } : State).liveOf x = []) := by decide +kernel

/-- A retirement of one channel, paused, whose sets keep no size; one that migrates, with a line to take. -/
def drift (paused : Bool) : Retirement :=
  ⟨[31], none, 0, paused, [], [], some ⟨0, List.range 32, List.range 31, 0, 2 ^ 22, [(0, ⟨false, 0⟩), (2, ⟨true, 0⟩)], [1]⟩⟩

/-- The Drift Engine's next line, its data, its landing; a paused retirement; an uncorrectable line; a channel due. -/
theorem witness_memory_events :
    (match ({ mapped 0 true (ready 0 id) with retirements := [drift false] } : State).drifting 0 with
      | some (_, m) => State.nextLine m == 3 && decide (State.nextLine m < m.lines) && decide (State.nextLine m < m.tide + 64) &&
          (tget? m.transit 0 == some ⟨false, 0⟩) && (tget? m.transit 2 == some ⟨true, 0⟩) &&
          (let s := { mapped 0 true (ready 0 id) with retirements := [drift false] }
           s.shareLeft 0 (s.driftChannel m m.old 3) && s.shareLeft 0 (s.driftChannel m m.new 2))
      | none => false) = true ∧
    (let s : State := { mapped 0 true (ready 0 id) with retirements := [drift true], retestDue := true }
     s.retestDue = true ∧ (({ s with retestDue := false } : State).newSizes (drift true).affected).isSome) ∧
    (isDevice (128 * (2 ^ 44 - 1)) = true) ∧ (isHost (64 * (2 ^ 45)) = true) ∧
    (31 ∈ (mapped 0 true (ready 0 id)).liveChannels) ∧
    (tgetD 0 (mapped 0 true (ready 0 id)).recalAt 31 < 0 / State.ms 50 + 1) ∧
    ((mapped 0 true (ready 0 id)).setOf (2 ^ 29 - 128)).isSome ∧
    ((State.catWord { ready 0 id with catalogue := List.replicate 32 0x100000 } 27).toNat = 2 ^ 20) ∧
    (tgetD 0 (ready 0 id).llcRetired 3 < 92) ∧
    ((copying selfTagged (ready 0 id)).pteBusy 0x20000 128 = true) ∧ ((mapped 0 true (ready 0 id)).pteBusy 0x20000 128 = false) ∧
    ((copying { selfTagged with tags := [2 ^ 51] } (ready 0 id)).pteBusy (2 ^ 51) 64 = true) ∧
    ((tget? (mapped 0 true (ready 0 id)).sets 0).map fun x => x.visible) = some true ∧
    ((mapped 0 true (ready 0 id)).setOf (2 ^ 29) = none) ∧
    ((mapped 0 true (ready 0 id)).pinnedBy 2 0 = false) ∧
    ((State.frameOfPage (tabled (ready 0 id)) 0 2).isSome) := by decide +kernel

/-- At 10 percent an engine has 1,171 lines of a channel in 10 µs (13 R367). -/
theorem test_drift_share :
    ({ State.reset with driftUse := List.replicate 1170 (0, 5, 0) } : State).shareLeft 0 5 = true ∧
    ({ State.reset with driftUse := List.replicate 1171 (0, 5, 0) } : State).shareLeft 0 5 = false ∧
    ({ State.reset with driftUse := List.replicate 1171 (0, 5, 0), now := 765000 } : State).shareLeft 0 5 = true := by
  decide +kernel

/-! ## Witnesses: the network -/

/-- A packet of one flit of class 0 from the first stop of quadrant 0 to the seventh. -/
def aPacket : Packet := ⟨0, 1, 7, false, none, none, 0, false, 1, false, 0, false, 5⟩

/-- The same with two flits, its header injected in cycle 0. -/
def aFlight (judged : Bool) : Flight := ⟨{ aPacket with flits := 2 }, 1, 7, 0, 0, [0], judged⟩

/-- The queue of a station with it. -/
def waits (s : State) : State := s.modStation 1 fun x => { x with queue := [⟨0, 7, none, aPacket⟩] }

/-- Headers in flight in sequence and out of it; a NACK that finds its slot and one for the packet expected; a station with a
flit of a packet in progress and one with a packet to inject. -/
theorem witness_rings :
    (let s := { ready 0 id with flights := [(3, aFlight false)], now := 34 * 6 }
     (aFlight false).arrive ≤ s.cyc ∧ tgetD 0 (s.station 7).expect 8 = 0 ∧ s.space 7 0 false = some 1) ∧
    (let s := (ready 0 id).modStation 7 fun x => { x with expect := [(8, 255)] }
     tgetD 0 (s.station 7).expect 8 ≠ 0) ∧
    (let k : Nack := ⟨1, 7, 0, 0, 4, 4, 1, none⟩
     let s := { ready 0 id with nacks := [(3, k)], now := 34 }
     k.ready ≤ s.cyc ∧ s.sideEmpty k.by_ k.ring = true) ∧
    (let k : Nack := ⟨1, 7, 0, 0, 4, 4, 1, some 1⟩
     1 + segLength k.target k.by_ ≤ ({ ready 0 id with now := 34 * 7 } : State).cyc ∧ k.dropped = k.expected) ∧
    (let s := { ready 0 id with flights := [(3, aFlight true)], now := 34 }
     s.ringOn 1 = true ∧ s.slotEmpty 1 0 = true ∧ (s.inProgress 1 0).isSome = true) ∧
    (let s := waits (ready 0 id)
     s.ringOn 1 = true ∧ s.slotEmpty 1 0 = true ∧ s.inProgress 1 0 = none ∧
       (s.arbitrate (s.station 1) (s.candidates 1 0)).isSome = true) ∧
    (bridgeTwin 1 = none) := by decide +kernel

/-- A packet at node 0 whose link has a credit, and one whose link has none. -/
theorem witness_credits :
    let f : FabricPacket := ⟨aPacket, 0, none, none⟩
    let s : State := { ready 0 id with fabric := [(3, f)] }
    let t : State := { ready 0 id with fabric := (3, f) :: (List.range (Config.fabricCredits 0 16 0 + 1)).map fun k =>
      (k + 100, ⟨aPacket, 16, none, some (0, 16)⟩) }
    s.hasCredit 0 16 0 = true ∧ t.behind 3 f = false ∧ t.hasCredit 0 16 0 = false :=
  ⟨by simp [State.hasCredit, State.creditsTaken], by simp [State.behind],
    by simp [State.hasCredit, State.creditsTaken, List.countP_map, Function.comp_def, aPacket]⟩

/-- Packets in the fabric at a node; at the hub of their source and of their destination; from a node that is shut, for one
that is shut, and for another hub. -/
theorem witness_fabric :
    (let f : FabricPacket := ⟨aPacket, 0, none, none⟩
     let s := { ready 0 id with fabric := [(3, f)] }
     s.behind 3 f = false ∧ s.nodeShut 0 = false ∧ s.nodeShut 8 = true) ∧
    (let f : FabricPacket := ⟨aPacket, 16, none, none⟩
     ({ ready 0 id with fabric := [(3, f)] } : State).behind 3 f = false ∧ hubOf (nodeOf 7) = 0) ∧
    (let f : FabricPacket := ⟨{ aPacket with src := stationAt 1 0 0 }, 16, none, none⟩
     let s := { ready 0 id with fabric := [(3, f)] }
     s.behind 3 f = false ∧ s.nodeShut (nodeOf f.pkt.src) = true ∧ hubOf (nodeOf f.pkt.src) = 0) ∧
    (let f : FabricPacket := ⟨{ aPacket with dst := stationAt 1 0 7 }, 16, none, none⟩
     let s := { ready 0 id with fabric := [(3, f)] }
     s.behind 3 f = false ∧ s.nodeShut (nodeOf f.pkt.dst) = true ∧ hubOf (nodeOf f.pkt.dst) = 0 ∧ s.nodeShut (nodeOf f.pkt.src) = false) ∧
    (let f : FabricPacket := ⟨{ aPacket with dst := stationAt 6 0 7 }, 16, none, none⟩
     ({ ready 0 id with fabric := [(3, f)] } : State).behind 3 f = false ∧ hubOf (nodeOf f.pkt.dst) ≠ 0) := by decide +kernel

/-! ## Witnesses: power -/

/-- A frame with a good CRC. -/
def frame (x : BitVec 128) : BitVec 128 := x + BitVec.ofNat 128 (crc16 x)

/-- What the power controller's events ask for. -/
theorem witness_power :
    ((ready 0 id).chiplet 0).power = .active ∧
    ((ready 0 id).cluster 0).evalAt + State.us 1 ≤ ({ ready 0 id with now := State.us 1 } : State).now ∧
    (6 * 100 < 100 * (100 - 93)) ∧ (100 * 3 < 4 * 100) ∧ ((ready 0 id).drpLvl < 46) ∧
    (((ready 0 id).modCluster 0 fun k => { k with droop := .stretch 0 0 }).cluster 0).droop = .stretch 0 0 ∧
    (((ready 0 id).modCluster 0 fun k => { k with droop := .hold 0 }).cluster 0).droop = .hold 0 ∧
    (1100000 < 1100001) ∧ (ready 0 id).power.railAt = none ∧
    (let x := frame 0xA1000000000000000000000000000000
     frameField x 124 4 = 0xA ∧ frameField x 120 4 = 1 ∧ frameField x 0 16 = crc16 x) ∧
    ((ready 0 id).power.frameAt + State.ms 10 ≤ ({ ready 0 id with now := State.ms 10 } : State).now) ∧
    fieldOf (0x10000000000 : W64) 40 1 = 1 ∧ ({ (ready 0 id).power with pending := some ([], 7, (1, 2)) } : Power).pending = some ([], 7, (1, 2)) ∧ curveOk Image.first.curve 0 = true ∧ curveOk [] 0 = false ∧
    ((ready 0 id).ceilW < 1) := by decide +kernel

/-- A flood with a class to restore; a cohort with a shed group whose window is over. -/
theorem witness_flood_shed :
    (let s := { ready 0 id with power := { (ready 0 id).power with flood := some ⟨0, 0⟩ } }
     rampOk s = true ∧ (Point.classes (s.power.inUse.getD 0 0)).testBit 6 = true ∧
       (fieldOf (s.catWord 28) 16 8).testBit 6 = false ∧ (fieldOf (s.catWord 28) 16 8).testBit 7 = true) ∧
    (let s := handled (ready 0 fun g => { g with shedAt := some 0 })
     s.trapVec ≠ 0 ∧ (s.groupsOf 1).all (fun e => e.2.cls != 7 && s.looseShed e.2 && !e.2.holdNext && e.2.shedAt == some 0) = true) := by
  decide +kernel

/-! ## Witnesses: queues -/

/-- Queue 0 runs with a ring of 16 slots at 0x40000, whose first packet starts with `l`; addresses below 4 TiB are mapped. -/
def packet (l : List Nat) (s : State) : State :=
  ((tabled s).homeWrite 0x40000 (l.map fun x => bytesOfNat 8 x).flatten).setQueue 0
    { Queue.off with ring := 0x40000, enable := true, log2Slots := 4, state := 1, wptr := 1 }

/-- The packet of a type that queue 0 parses. -/
def parses (type : Nat) (s : State) (p : State → List W64 → Bool) : Bool :=
  match s.parse 0 (fun x => x == type) with
  | some (t, _, w) => p t w
  | none => false

/-- Doorbells at the ring's size and past it; a queue stopped and running; packets of every type. -/
theorem witness_queues :
    (let s := packet [] (ready 0 id)
     (s.queue 0).enable = true ∧ (s.queue 0).state = 1 ∧ ((16 : W64) - (s.queue 0).rptr).toNat ≤ 2 ^ (s.queue 0).log2Slots ∧
       2 ^ (s.queue 0).log2Slots < ((17 : W64) - (s.queue 0).rptr).toNat) ∧
    ((packet [0x100] (ready 0 id)).parse 0 fun t => t == 0 || 6 ≤ t).isSome ∧
    (parses 1 (packet [0x101] (ready 0 id)) fun _ _ => true) ∧
    (parses 2 (packet [0x102, 0, 0x50000, 7] (ready 0 id)) fun t w => packetVersion w == 1 && fieldOf (w.getD 0 0) 16 4 == 0 &&
        packetClear w [(16, 4), (32, 32)] (fun i => 2 ≤ i && i < 4) && t.packetWord 0 0x50000 false) ∧
    (parses 2 (packet [0xF0102] (ready 0 id)) fun _ w => packetVersion w == 1 && decide (12 < fieldOf (w.getD 0 0) 16 4 + 1)) ∧
    (parses 2 (packet [0x2] (ready 0 id)) fun _ w => packetVersion w != 1) ∧
    (parses 3 (packet [0x50103, 0x50000, 7] (ready 0 id)) fun t w => packetVersion w == 1 && fieldOf (w.getD 0 0) 16 2 == 1 &&
        packetClear w [(16, 3)] (fun i => i == 1 || i == 2) && t.packetWord 0 0x50000 true) ∧
    (parses 4 (packet [0x104, 0x50000, 0x60000, 9] (ready 0 id)) fun t w => packetVersion w == 1 &&
        packetClear w [] (fun i => 1 ≤ i && i ≤ 3) && match t.startGraph 0 w with
          | .done _ => true
          | _ => false) ∧
    (parses 5 (packet [0x10105, 0, 0x50000] (ready 0 id)) fun t w => packetVersion w == 1 &&
        packetClear w [(16, 4)] (fun i => i == 2) && t.packetWord 0 0x50000 false) ∧
    (let s := (packet [] (ready 0 id)).hold 0 (some (.fence [(0x50000, 0), (0x50008, 1)] 0 1))
     (s.testCounters 0 [(0x50000, 0), (0x50008, 1)]).2 = some [(0x50008, 1)] ∧ s.now < State.us 1 ∧ State.us 1 ≤ ({ s with now := State.us 1 } : State).now) ∧
    (let s := { (packet [] (ready 0 id)).hold 0 (some (.signal 1 true 0x50000 7 0)) with launches := [] }
     s.queueDone 0 = true ∧ (s.readPacketWord 0 0x50000).2.isSome ∧
       (s.packetLook (s.queue 0).aspace 0x50000).any (fun e => e.w) = true) := by decide +kernel


/-! ## Witnesses: launches -/

/-- Launch 1 waits for its lease of the page at 0x20000, which the page table maps if `m`. -/
def leaseStage (bad m : Bool) (s : State) : State :=
  let s := if m then tabled s else mapped 0 true s
  s.modLaunch 1 fun l => { l with stage := .leases, leaseBad := bad }

/-- The pages of the leases of launch 1 are resident. -/
def resident (s : State) : Bool :=
  ((s.launch? 1).map fun l => ((l.leases.map fun x => x.pages.map fun p => (x, p)).flatten.all
    fun e => s.pageResident l.aspace e.1 e.2)).getD false

/-- A lease with a bad entry, one whose page is not mapped, and one whose page is resident and moves nowhere. -/
theorem witness_lease_residency :
    (((leaseStage true true (ready 0 id)).launch? 1).map fun l => l.leaseBad && l.stage == .leases && l.status.isNone) = some true ∧
    resident (leaseStage false false (ready 0 id)) = false ∧
    resident (leaseStage false true (ready 0 id)) = true ∧
    ((leaseStage false true (ready 0 id)).movingFrames 1) = [] ∧
    (((leaseStage false true (ready 0 id)).launch? 1).map fun l => l.leases.all fun x => x.base + x.len ≤ windowBase) = some true ∧
    ((((leaseStage false true (ready 0 id)).modLaunch 1 fun l => { l with leases := [⟨windowBase, 1, true, false, true⟩] }).launch? 1).map
      fun l => l.leases.any fun x => windowBase < x.base + x.len) = some true := by decide +kernel

/-- The translator's kernels have run for launch 1. -/
def hasRun (s : State) : State := { s with translated := ((s.launch? 1).map s.bodyKey).toList }

theorem hasRun_translated (s : State) (h : (s.launch? 1).isSome) :
    ((hasRun s).launch? 1).map (fun l => (hasRun s).translated.contains ((hasRun s).bodyKey l)) = some true := by
  obtain ⟨l, hl⟩ := Option.isSome_iff_exists.mp h
  show (s.launch? 1).map (fun l => ((s.launch? 1).map s.bodyKey).toList.contains (s.bodyKey l)) = some true
  simp [hl]

/-- Launch 1 is to be translated from an IR section of `n` EXIT words at 0x20040. -/
def irStage (n : Nat) (s : State) : State :=
  let s := powered ((tabled s).homeWrite 0x20040 (bytesOfNat 8 n ++ bytesOfNat 8 0 ++ bytesOfNat 8 0x000FE3F8FE3FFF07))
  s.modLaunch 1 fun l => { l with record := l.record.set 1 0x20000, stage := .body, kent := [5, 0, 0, 0],
                                  object := [0, 0, 0, 0, 0, 0x1800000040] }

/-- The same, done by the translator's kernels. -/
def bodyStage (n : Nat) (s : State) : State := hasRun (irStage n s)

/-- What the translator makes of it. -/
def translated (s : State) : Option Body :=
  (s.launch? 1).bind fun l => if !s.bodies.isEmpty then none else
    (s.virtRead l.aspace (l.codeBase.toNat + l.secOff 3) (l.secSize 3)).bind fun d =>
      translateBody d s.shelfmark s.features (fieldOf (l.kent.getD 1 0) 32 32) (s.bodyKey l)

/-- A body that the translator makes, and one that it rejects. -/
theorem witness_bodies :
    (((bodyStage 1 (ready 0 id)).launch? 1).map fun l => (bodyStage 1 (ready 0 id)).translated.contains
      ((bodyStage 1 (ready 0 id)).bodyKey l)) = some true ∧
    (((bodyStage 2 (ready 0 id)).launch? 1).map fun l => (bodyStage 2 (ready 0 id)).translated.contains
      ((bodyStage 2 (ready 0 id)).bodyKey l)) = some true ∧
    (translated (bodyStage 1 (ready 0 id))).isSome = true ∧
    (bodyStage 2 (ready 0 id)).bodies = [] ∧ (translated (bodyStage 2 (ready 0 id))).isSome = false :=
  ⟨hasRun_translated (irStage 1 (ready 0 id)) (by decide +kernel), hasRun_translated (irStage 2 (ready 0 id)) (by decide +kernel),
    by decide +kernel⟩

/-- Launch 5 waits for its one cohort of one block with one accumulator and no tile, with its GEN check and its GEN as given. -/
def placingStage (check : Bool) (gen : W64) (s : State) : State :=
  let s := { powered s with ctxStore := 0x100000, ctxUnits := 100 }
  s.setLaunch 5 { State.loadLaunch with stage := .placing, placed := 0,
                                        record := ((State.loadLaunch.record.set 0 (if check then 0x100000 else 0)).set 12 gen).set 5 0x78 }

/-- Launch 5 may be placed, and its cohort starts on core 1. -/
def places (s : State) (p : State → Launch → Bool) : Bool :=
  match s.launch? 5 with
  | some l => s.placing 5 l && State.unplaced l 0 && !s.outranked 5 l && (s.startCohort 5 0 0 [1] l).isSome && !State.begun l && p s l
  | none => false

/-- A placement whose GEN check fails, one whose check holds, and one without a check; the first of two cohorts and the second
before it; a launch that is to complete. -/
theorem witness_placements :
    places (placingStage true 1 (ready 0 id)) (fun s l => l.genchk && l.genSeen != s.catWord 0) = true ∧
    places { placingStage true 1 (ready 0 id) with pastGen := 0, catalogue := (powered (ready 0 id)).catalogue.set 0 1 }
      (fun s l => l.genchk && s.genMatches l) = true ∧
    places (placingStage false 1 (ready 0 id)) (fun _ l => !l.genchk) = true ∧
    (let l : Launch := { State.loadLaunch with placed := 0, record := State.loadLaunch.record.set 3 2 }
     l.cohortCount = 2 ∧ State.unplaced l 0 = true ∧ State.unplaced l 1 = true ∧ l.again = [] ∧ l.ahead = []) ∧
    ((((ready 0 id).modLaunch 1 fun l => { l with status := some (9, 0) }).launch? 1).bind Launch.outcome).isSome = true ∧
    (((ready 0 id).launch? 1).map fun l => l.graph.isNone) = some true := by decide +kernel

/-- Every core of chiplet `p` is full: core `k` with launch 1, the others with another. -/
def filled (p k : Nat) (s : State) : State :=
  { s with cores := s.cores.filter (fun e => decide (e.1 / 96 ≠ p)) ++ (List.range 96).map fun i =>
      (96 * p + i, { s.core (96 * p + i) with quotas := [⟨if i = k then 1 else 99, 1024, 48, 262144, []⟩] }) }

/-- Launch 1 of class 0 runs on core 0, every other core of its chiplet is full, and launch 7 of class 2 waits. -/
def crowded (s : State) : State :=
  let s := { powered s with trapVec := 0x4000, ctxStore := 0x100000, ctxUnits := 100 }
  let s := filled 0 0 (s.modLaunch 1 fun l => { l with record := l.record.set 0 0 })
  s.setLaunch 7 { State.loadLaunch with stage := .placing, placed := 0, record := State.loadLaunch.record.set 0 0x20000 }

/-- The cohort of launch 1 gives way; it may move to core 3 of chiplet 1 while launch 7 waits for chiplet 0. -/
theorem witness_giving_way :
    ((crowded (ready 0 id)).nextVictims.any fun e => e.1 == 1) = true ∧
    (let s := (filled 1 3 (crowded (ready 0 id))).modChiplet 1 fun k => { k with power := .active }
     match s.cohort? 1 with
     | some c => s.mayMove c && c.chip != 1 && (s.cohortTo 1 c.blocks [3]).isSome && (s.waitingLaunches.any fun e =>
         decide (((s.launch? c.launch).map Launch.cls).getD 7 < e.2.cls) && (s.without [(1, c)]).chipRoom c.chip e.1 e.2 &&
           (s.imagePlaces e.2.imageUnits e.2.cohortBlocks s.imageRanges).isSome)
     | none => false) = true := by decide +kernel

/-! ## Witnesses: pre-emption -/

/-- Cohort 1 has been asked to leave at time 0. -/
def leaving1 (s : State) : State :=
  handled (s.modCohort 1 fun c => { c with state := .preempting ⟨0x10, 0, 0, none⟩ })

/-- The group is asked to enter its handler, as a pre-emption and as a shed. -/
def asked (shed : Bool) (g : Group) : Group := { g with run := none, preempt := true, shed }

/-- A cohort that runs; groups that are asked and drained; a cohort that has not acknowledged after 2 ms. -/
theorem witness_preemption :
    (((ready 0 id).cohort? 1).map fun c => c.state == .running) = some true ∧
    ([true, false].all fun x => let s := handled (ready 0 (asked x))
      s.drained 32 && ((s.owner? 32).map fun o => o.g.pick.isSome && !o.g.handler && o.g.late.isEmpty && o.g.restore.isNone && o.g.preempt &&
        o.g.shed == x).getD false) = true ∧
    (let s := { leaving1 (ready 0 id) with now := State.ms 2 }
     ((s.cohort? 1).map fun c => !s.allAcked c) = some true) ∧
    (let s := leaving1 (ready 0 fun g => { g with preempt := true })
     (s.groupsOf 1).all (fun e => e.2.preempt) = true ∧ s.trapVec ≠ 0) := by decide +kernel

/-- Cohort 1 saved with one group, its image at 0x100000. -/
def saved (s : State) : State :=
  let s := { powered (handled (tabled s)) with ctxStore := 0x100000, ctxUnits := 100 }
  let s := (s.modLaunch 1 fun l => { l with record := l.record.set 5 0x78 }).homeWrite 0x100000 (bytesOfNat 8 0x0001000143545831)
  match s.block? 1, s.cohort? 1 with
  | some b, some c => (s.dropBlock 1).setCohort 1
      { c with state := .saved ⟨0x10, 0, 0, none⟩ [⟨1, { b with image := 0x100000, hwm := 0 }, s.groupsOf 1, 0, false⟩] }
  | _, _ => s

/-- The saved cohort can start again on core 5 of chiplet 0. -/
theorem witness_restore :
    (let s := saved (ready 0 id)
     match s.cohort? 1 with
     | some c => match c.state, s.launch? c.launch with
       | .saved p blocks, some l => p.move.isNone && s.trapVec != 0 && !l.killed && decide (c.blocks.length = 1) &&
           (blocks.all fun x => x.groups.all fun g => s.classAllowed g.2.cls) && !s.outranked c.launch l &&
           s.restorePlace c p 0 [5] &&
           let clean := blocks.foldl (fun (s : State) x => s.cleanVirt l.aspace x.block.image l.image.size) s
           decide (clean.imageCause l blocks = none) && (blocks.all fun x => (clean.imageData l x.block).isSome) &&
             (clean.restoreBlocks c l 0 [5] blocks).isSome
       | _, _ => false
     | none => false) = true := by decide +kernel

/-! ## Witnesses: management -/

/-- The next record has opcode `op`, breaks no reserved bit, and `p` holds of it and of the state without it. -/
def mailOf (op : Nat) (s : State) (p : State.Mail → State → Bool) : Bool :=
  match nextMail s with
  | some m => m.opcode == op && !m.rsv && p m { s with mailbox := s.mailbox.tail }
  | none => false

/-- The features wanted of the NEGOTIATE record. -/
def wanted (m : State.Mail) : BitVec 128 := 0x7F &&& BitVec.ofNat 128 ((m.word 4).toNat + 2 ^ 64 * (m.word 5).toNat)

/-- Negotiations: done already, without bit 0 and with it; queue contexts that are good and bad; an image; a service fence;
an error ring. -/
theorem witness_mailbox :
    mailOf 16 { mail 16 0 0 (ready 0 id) with negotiated := true } (fun _ t => t.negotiated) = true ∧
    mailOf 16 { mail 16 0 0 (ready 0 id) with negotiated := false } (fun m t => !t.negotiated && !(wanted m).getLsbD 0) = true ∧
    mailOf 16 { (mail 16 0 0 (ready 0 id)).homeWrite 0x40020 [0xFF] with negotiated := false } (fun m t => !t.negotiated && (wanted m).getLsbD 0) = true ∧
    mailOf 17 { (mail (17 + 5 * 2 ^ 20) 0 0 (ready 0 id)).homeWrite 0x50140 (bytesOfNat 8 0x60000 ++ bytesOfNat 8 0x804)
        with negotiated := true, qtab := 0x50000 } (fun m t =>
        t.negotiated && 16 * m.arg + m.set == 5 && !(t.queue 5).enable && !contextBad fun n => (t.physWords (0x50140) 8).2.getD n 0) = true ∧
    mailOf 17 { (mail 17 0 0 (ready 0 id)).homeWrite 0x50000 (bytesOfNat 8 0x60000 ++ bytesOfNat 8 0x81F)
        with negotiated := true, qtab := 0x50000, queues := [] } (fun m t =>
        t.negotiated && 16 * m.arg + m.set == 0 && !(t.queue 0).enable && contextBad fun n => (t.physWords (0x50000) 8).2.getD n 0) = true ∧
    mailOf 18 (mail 18 0x50000 0 (ready 0 id)) (fun _ _ => true) = true ∧
    mailOf 19 (mail 19 0 0 { ready 0 id with catalogue := (ready 0 id).catalogue.set 2 0xFFFFFFF0 }) (fun m t =>
        t.slotOf m.arg == some 0 && (t.chiplet 0).power == .active) = true ∧
    mailOf 20 (mail (20 + 4 * 2 ^ 32) 0x50000 0 (ready 0 id)) (fun m _ => m.arg == 4 && m.bytes % 32 == 0) = true := by
  decide +kernel

/-- A group that could start on a core which has issued nothing for 100 ms; a fenced chiplet; a spare for a lost chiplet; a
catalogue of 32 words; ports that are up and down; a set and a port for a peer. -/
theorem witness_management :
    (let s := slotFree (ready 0 fun g => { g with run := none, lanes := List.replicate 32 (Thread.start 0x20000) })
     let s := s.modCore 0 fun k => { k with unissued := State.ms 100 }
     Sys2Proof.Machine.ready s 32 = true ∧ State.ms 100 ≤ (s.core 0).unissued ∧ ((s.block? 1).map Block.core) = some 0) ∧
    (((ready 0 id).modChiplet 3 fun k => { k with power := .fenced }).chiplet 3).power = .fenced ∧
    (let s := ((ready 0 id).modChiplet 8 fun k => { k with power := .spare }).modChiplet 2 fun k => { k with power := .off, lost := some (7, 5) }
     ((List.range 9).find? fun p => ((s.chiplet p).lost.map fun x => x.1) == some 7) = some 2 ∧ (s.chiplet 8).power = .spare ∧ (s.chiplet 2).power = .off) ∧
    (ready 0 id).catalogue.length = 32 ∧ ((ready 0 id).commit [(28, 5)]).publishing.length = 3 ∧
    (let s := { mapped 0 true (ready 0 id) with catalogue := (ready 0 id).catalogue.set 29 (1#64 <<< 63) }
     (s.catWord 29).getLsbD 63 = true ∧ (s.catWord 29).getLsbD 0 = false ∧ s.catWord 29 ≠ 0 ∧ (s.setOf 0x2007F).isSome = true ∧
       0x2007F % 128 + 1 ≤ 128) ∧
    Memory.wf (ready 0 id).mem := by decide +kernel

/-! ## Witnesses: what follows in a block -/

/-- Every lane has exited, and no clause is in progress. -/
def exited (g : Group) : Group := { g with run := none, lanes := List.replicate 32 Thread.empty }

/-- The group's word waits as `b`, with its clause in progress. -/
def waitsAs (b : Blocked) (s : State) : State := s.modGroup 32 fun g => { g with blocked := some b }

/-- Block 1 with a pool, and its formed groups. -/
def pooled (l : List PoolEntry) (f : List Formed) (s : State) : State := s.modBlock 1 fun b => { b with pool := l, forming := f }

/-- A thread in the pool. -/
def aThread : PoolThread := ⟨[(5, 7)]⟩

/-- A group has ended; its block has nothing left, and ends with its cohort; a block with a group goes on. -/
theorem witness_block_ends :
    (let s := ready 0 exited
     (s.launchOfBlock 1).isSome ∧ ((s.block? 1).map fun b => b.forming.all fun f => f.slot.isSome) = some true ∧
       ((s.groupsOf 1).find? fun e => e.2.ended).map (·.1) = some 32) ∧
    (let t := State.settleLoop (ready 0 exited) 1 256
     ((t.cohort? 1).map fun c => c.state == .running) = some true ∧
       ((t.block? 1).map fun b => b.pool.isEmpty && b.forming.isEmpty && (t.groupsOf 1).isEmpty) = some true) ∧
    (let t := State.settleLoop (ready 0 id) 1 256
     (t.cohort? 1).isSome ∧ (t.block? 1).isSome ∧ (t.groupsOf 1) ≠ []) ∧
    (let t := State.dropBlock (ready 0 id) 1
     (((t.cohort? 1).bind fun c => (t.launch? c.launch).map fun _ =>
       c.state == .running && c.blocks.all fun b => (t.block? b).isNone)) = some true) ∧
    (((ready 0 id).cohort? 1).map fun c => c.blocks.any fun b => ((ready 0 id).block? b).isSome) = some true := by
  decide +kernel

/-- Pool entries of 30 and 31 threads before another; a thread that moves and one that finds no entry; a formed group that may
take a slot, and one that starts there. -/
theorem witness_pool_moves :
    ([30, 31].all fun n =>
      let b := { State.loadBlock with pool := [⟨8, List.replicate n aThread⟩, ⟨16, [aThread]⟩] }
      b.pool.length == 2 && [(⟨16, [aThread]⟩ : PoolEntry)].all fun x => x.succ != 8 && x.threads != []) = true ∧
    (let s := ready 0 id
     match s.group? 32, s.block? 1 with
      | some g, some b => (b.pool? 8 ⟨g.laneRegs 3⟩).isSome && g.block == 1
      | _, _ => false) = true ∧
    (let s := pooled ((List.range 8).map fun k => ⟨BitVec.ofNat 64 (8 * k + 8), [aThread]⟩) [] (ready 0 id)
     match s.group? 32, s.block? 1 with
      | some g, some b => (b.pool? 0x10000 ⟨g.laneRegs 3⟩).isNone && b.pool.all fun e => e.threads != [] && decide (e.threads.length ≤ 32)
      | _, _ => false) = true ∧
    (let s := pooled [] [⟨8, [aThread], none⟩] { ready 0 id with groups := [] }
     match s.block? 1 with
      | some b => b.forming.any (fun f => f.slot.isNone) && s.emptySlot 1 b == some 0 && ((s.launchOfBlock 1).bind s.launch?).isSome
      | none => false) = true ∧
    ((pooled [⟨8, [aThread]⟩] [] (waitsAs (.barrier 0 false) (ready 0 id))).block? 1).any (fun b =>
      State.flushDue (pooled [⟨8, [aThread]⟩] [] (waitsAs (.barrier 0 false) (ready 0 id))) 1 b) = true ∧
    ([aThread].all fun th => (th.regs.map (·.1)).length == 1) = true := by decide +kernel

/-- Core 0 with a queue of claims of launch 1 and `used` units in use. -/
def claiming (l : List Claim) (used : Nat) (s : State) : State := s.modQuota 0 1 fun q => { q with claims := l, units := used }

/-- The head of a queue of claims that the free units cover, and that they do not, of a group and of a formed group; no claim. -/
theorem witness_grants :
    ((ready 0 id).quota? 0 1).map (fun q => q.claims == []) = some true ∧
    ([Claim.group 32 1, Claim.formed 1 1].all fun x => let s := claiming [x] 1 (ready 0 fun g => { g with alloc := 0 })
      ((s.quota? 0 1).map fun q => q.claims == [x]) == some true) = true ∧
    (State.freeUnits (claiming [.group 32 1] 1000 (ready 0 fun g => { g with alloc := 0 })) 0 1 ≥ 1) ∧
    (State.freeUnits (claiming [.group 32 100000] 1000 (ready 0 id)) 0 1 < 100000) ∧
    (let s := pooled [] [⟨8, [aThread], some 1⟩] (ready 0 id)
     (s.block? 1).map fun b => b.forming.map (·.slot)) = some [some 1] := by decide +kernel

/-- A group in RCLAIM, and one that runs, in a block where nothing else is due. -/
theorem witness_deadlock :
    (let s := handled (claiming [.group 32 100000] 1000 (waitsAs (.claim 100000) (ready 0 id)))
     s.trapVec ≠ 0 ∧ (s.groupsOf 1).all (fun e => !e.2.handler) = true ∧
       ((s.block? 1).map fun b => s.deadlocked 1 b) = some true ∧
       ((s.group? 32).map fun g => g.blocked == some (.claim 100000) && g.run.isSome) = some true ∧ (s.owner? 32).isSome) ∧
    (((ready 0 id).block? 1).map fun b => (ready 0 id).deadlocked 1 b) = some false := by decide +kernel

theorem quiet_of (s : State) (bid : Nat) (h : ((s.block? bid).any fun b =>
      b.forming.all (fun f => f.slot.isSome) && (s.groupsOf bid).all (fun e => !e.2.ended) &&
      (s.groupsOf bid).all (fun e => match e.2.blocked with | some (.pool _) => false | _ => true) &&
      !s.flushDue bid b && (List.range 16).all fun i => !s.barrierDone bid b (b.barriers.getD i ⟨false, .unset, []⟩)) = true) :
    ∃ b, s.block? bid = some b ∧ s.Quiet bid b := by
  cases hb : s.block? bid with
  | none => simp [hb] at h
  | some b =>
  rw [hb, Option.any_some] at h
  simp only [Bool.and_eq_true, List.all_eq_true, Bool.not_eq_true', List.mem_range] at h
  obtain ⟨⟨⟨⟨slots, ends⟩, pool⟩, flush⟩, barriers⟩ := h
  refine ⟨b, rfl, .inl fun f hf h => ?_, ends, fun e he l hl => ?_, flush, barriers⟩
  · simpa [h] using slots f hf
  · simpa [hl] using pool e he

/-- Both blocks of the deadlock test are quiet. -/
theorem witness_quiet :
    (∃ b, State.block? (handled (claiming [.group 32 100000] 1000 (waitsAs (.claim 100000) (ready 0 id)))) 1 = some b ∧
      State.Quiet (handled (claiming [.group 32 100000] 1000 (waitsAs (.claim 100000) (ready 0 id)))) 1 b) ∧
    ∃ b, State.block? (ready 0 id) 1 = some b ∧ State.Quiet (ready 0 id) 1 b :=
  ⟨quiet_of _ _ (by decide +kernel), quiet_of _ _ (by decide +kernel)⟩

/-- The rows of the directory's table: what each asks of the participants and the bytes. -/
theorem witness_directory :
    (State.othersMask [(0, 1), (1, 4)] 0 &&& 1 = 0) ∧ (State.othersMask [(0, 1), (1, 4)] 0 &&& 4 ≠ 0) ∧
    (tget? [(0, (1 : BitVec 128)), (1, 4)] 0 = some 1) ∧ (tget? [(0, (1 : BitVec 128)), (1, 4)] 2 = none) ∧
    (State.othersMask [(0, 1), (1, 4)] 2 &&& 8 = 0) ∧ ((1 : BitVec 128) &&& 1 ≠ 0) ∧ ((1 : BitVec 128) &&& 2 = 0) ∧
    (State.dirNext (.o 1 1) 0 true 1 = none) ∧ (State.dirNext (.o 1 1) 0 true 2).isSome := by decide +kernel

/-! ## Witnesses: further cases -/

/-- The ends that have an object, of a line that is none, and of a token whose block is saved and is not. -/
theorem witness_ends_more :
    ((tget? (withOp (.shelf 1 0 (some 64) 4 4 0) (ready 0 id)).ops 9).map fun o => o.kind == .shelf 1 0 (some 64) 4 4 0) = some true ∧
    ((ready 0 id).isSaved 1 = false) ∧
    (let s := { saved (ready 0 id) with ops := [(9, anOp (.token 15))] }
     s.isSaved 1 = true ∧ (tget? s.ops 9).isSome) ∧
    ((leaving (withOp (.cpyq 64 1 0x20000 [] 0) (ready 0 id))).preemptedAt (anOp (.cpyq 64 1 0x20000 [] 0)) = some 0) ∧
    ((aCopy false []).cb = false ∧ (aCopy false []).slot.isSome = false ∧ (aCopy false []).bo = none) := by decide +kernel

/-- A unit at a peer that no live port reaches, and one that is no peer's. -/
theorem witness_unit_fenced :
    (let c : Copy := { aCopy false [] with xlat := [(2, atPeer1)] }
     let s : State := { withOp (.copy c) (mapped 0 true (ready 0 id)) with peers := [(1, ⟨[(0, 2 ^ 40)]⟩)] }
     s.copyBusy 9 c 0 = false ∧ s.copyAfter 9 (anOp (.copy c)) c 0 = false ∧
       ((s.unitFenced c 0).map fun x => x.code) = some Cause.nodeFenced ∧ c.cb = false ∧ 0 < c.total) ∧
    (let c := aCopy false []
     let s := withOp (.copy c) (mapped 0 true (ready 0 id))
     s.unitFenced c 0 = none ∧ c.snap = none) := by decide +kernel

/-- An MMAS of one element, whose rows give one entry, and the same with a row pointer that is no count. -/
theorem witness_mmas :
    ([1, 2].all fun n =>
      let e : EngineOp := ⟨.mmas (v 0 0 16 127 0), 1, [64, 128, 192, 0x11000], [0x80010000], 5, [], false⟩
      let s := matrix (scratch [(68, n)] (ready 0 id))
      let rptr (k : Nat) : Nat := (s.scratchWord 1 (e.val 0 + 4 * k)).toNat
      let col (j : Nat) : Nat := natOfBytes (s.scratchRead 1 (e.val 1 + 2 * j) 2)
      (s.block? 1).isSome && cfgK (e.cfg.getD 0 0) == 1 && e.nnz == 1 && e.nB == 1 && rptr 0 == 0 && decide (rptr 0 ≤ rptr 1) &&
        decide (col 0 < e.nB) && (rptr (cfgK (e.cfg.getD 0 0)) == e.nnz) == (n == 1)) = true ∧
    (((ready 0 id).core 0).readAt = none) := by decide +kernel

/-- A line that the present pass has scrubbed, one that it has not and is uncorrectable; a channel that recalibrates; errors to
report; moves of a page of a launch and of software's. -/
theorem witness_memory_events_more :
    (let s := mapped 0 true (ready 0 id)
     ¬ (s.scrubSince + s.scrubPeriod ≤ s.now) ∧ 1024 ∉ s.scrubbed ∧ 1024 ∉ s.bad ∧
       1024 ∈ ({ s with scrubbed := [1024] } : State).scrubbed ∧ 1024 ∈ ({ s with bad := [1024] } : State).bad) ∧
    (tget? (mapped 0 true (ready 0 id)).recalibrating 31 = none) ∧
    (let s : State := { ready 0 id with corrected := [(7, 3)] }
     tgetD 0 s.corrected 7 ≠ 0 ∧ tget? s.reported 7 = none) ∧
    (let s := (tabled (ready 0 id)).modLaunch 1 fun l => { l with stage := .moves, moves := [(2, true)] }
     ((s.launch? 1).map fun x => x.stage == .moves && x.status.isNone && x.moves == [(2, true)] &&
       (s.frameOfPage x.aspace 2).any fun f => s.pinnedBy f.1 1 == false) = some true) ∧
    (let s : State := { mapped 0 true (ready 0 id) with pageMoves := [(0x20000, 1, true, true)] }
     s.pageMoves ≠ [] ∧ s.pinnedBy (0x20000 / 65536) 0 = false) ∧
    (31 ∈ (mapped 0 true (ready 0 id)).liveChannels ∧ 4096 ≤ tgetD 0 ({ ready 0 id with spares := [(31, 4096)] } : State).spares 31) ∧
    (let s : State := { mapped 0 true (ready 0 id) with retirements := [drift false] }
     State.setLine 0 0 ∉ s.bad) := by decide +kernel

/-- A packet that arrives at a node whose gateway has room and has none, at the management controller; an access that is
answered. -/
theorem witness_arrivals_at_nodes :
    (let f : FabricPacket := ⟨aPacket, 16, none, none⟩
     let s : State := { ready 0 id with fabric := [(3, f)] }
     f.pkt.task = none ∧ nodeOf f.pkt.dst = 0 ∧ f.pkt.logical = false ∧ f.pkt.fenced = false ∧
       (s.gateSpace (stationAt 0 (stQuad f.pkt.dst) 0) f.pkt.cls f.pkt.promoted).isSome ∧
       (s.modStation (stationAt 0 (stQuad f.pkt.dst) 0) fun x => { x with
         queue := (List.range 16).map fun k => ⟨0, 7, some k, aPacket⟩ }).gateSpace (stationAt 0 (stQuad f.pkt.dst) 0) f.pkt.cls
           f.pkt.promoted = none) ∧
    ((tget? (withOp .plain (ready 0 id)).ops 9).isSome ∧ aPacket.promotion = false) := by decide +kernel

theorem credit_of {s : State} {src dst cls : Nat} (h : s.creditsTaken src dst cls = 0) : s.hasCredit src dst cls = true := by
  simp [State.hasCredit, h]

/-- A fabric packet at a hub, whose link to a node has a credit and has none. -/
theorem witness_credits_to_nodes :
    let s : State := { ready 0 id with fabric := [(3, ⟨aPacket, 16, none, some (0, 16)⟩)] }
    let t : State := { ready 0 id with fabric := (3, ⟨aPacket, 16, none, some (0, 16)⟩) ::
      (List.range (Config.fabricCredits 16 0 0 + 1)).map fun k => (k + 100, ⟨aPacket, 0, none, some (16, 0)⟩) }
    s.hasCredit 16 9 0 = true ∧ s.hasCredit 16 0 0 = true ∧ t.hasCredit 16 0 0 = false := by
  refine ⟨credit_of (by decide +kernel), credit_of (by decide +kernel), ?_⟩
  simp only [State.hasCredit, State.creditsTaken, List.countP_cons, List.countP_map, decide_eq_false_iff_not, Nat.not_lt]
  simp [Function.comp_def, aPacket, Nat.add_assoc]

/-- At 1 ms both twins of core 0 have read 110 °C since the start, and cluster 0 is hot. -/
def hot (s : State) : State :=
  { (s.modCore 0 fun k => { k with temp0 := 110, temp1 := 110 }).modCluster 0 fun k => { k with hotSince := [(0, 0)], coolSince := none } with
    now := State.ms 1 }

theorem tget?_of_other {α : Type} {l : List (Nat × α)} {k : Nat} (h : l.all (fun e => e.1 == k) = true) {j : Nat} (hj : j ≠ k) :
    tget? l j = none := by
  induction l with
  | nil => rfl
  | cons e t ih =>
    simp only [List.all_cons, Bool.and_eq_true, beq_iff_eq] at h
    simp [tget?, h.1, Ne.symm hj, ih h.2]

theorem hot_only {s : State} {k : Nat} (h : s.clusters.all (fun e => e.1 == k) = true) {j : Nat} (hj : j ≠ k) :
    s.isHot j = false := by
  simp [State.isHot, State.cluster, tgetD, tget?_of_other h hj, Cluster.idle]

theorem isHot_iff {s : State} {k : Nat} (h : s.clusters.all (fun e => e.1 == k) = true) (hk : s.isHot k = true) (j : Nat) :
    s.isHot j = true ↔ j = k :=
  ⟨fun hj => Decidable.byContradiction fun e => by simp [hot_only h e] at hj, fun e => e ▸ hk⟩

/-- A hot cluster that has no handler to ask, and one whose cohort moves to the coolest cluster of its chiplet. -/
theorem witness_hot_cluster :
    (∀ j, (hot (ready 0 id)).isHot j = true ↔ j = 0) ∧ (∀ j, (handled (hot (ready 0 id))).isHot j = true ↔ j = 0) ∧
    (hot (ready 0 id)).trapVec = 0 ∧
    (let s := handled (hot (ready 0 fun g => { g with cls := 2 }))
     s.power.thermalAt = none ∧ (s.cluster 0).coolSince = none ∧ s.trapVec ≠ 0 ∧
      (match s.hotCohorts 0, s.coolTargets 0 with
        | (cid, c) :: _, t :: _ => cid == 1 && (s.cohort? cid == some c) && (s.coolCores 0 t c.blocks).isSome
        | _, _ => false) = true) :=
  ⟨isHot_iff (by decide +kernel) (by decide +kernel), isHot_iff (by decide +kernel) (by decide +kernel), by decide +kernel,
    by decide +kernel⟩

/-- A pair whose imbalance raises the heavy cluster's code, one that may not yet, and one that has been calm for 10 µs; a rail
that is over its ceiling under a lease; a curve that waits for a frame. -/
theorem witness_power_more :
    (8 * 100 < 100 * (100 - 91) ∧ min 100 (({ Cluster.idle with ballast := 90 } : Cluster).ballast + 10) = 100) ∧
    (let s : State := { (ready 0 id).modCluster 0 fun k => { k with ballast := 90 } with now := State.us 2 }
     (s.cluster 0).evalAt + State.us 1 ≤ s.now ∧ (s.cluster 1).balanceAt + State.us 2 ≤ s.now ∧ (s.cluster 1).balance < 2) ∧
    (let s : State := { (ready 0 id).modCluster 0 fun k => { k with calmSince := some 0 } with now := State.us 10 }
     (s.cluster 0).calmSince = some 0 ∧ 0 + State.us 10 ≤ s.now ∧ ((ready 0 id).cluster 1).calmSince = none ∧ 100 * (100 - 97) < 4 * 100) ∧
    (let s := leasing (State.us 5) (ready 0 id)
     s.power.railAt = none ∧ ((s.block? 1).map fun b => b.boostUntil) = some (some (State.us 5)) ∧ s.now < State.us 5) ∧
    ((ready 0 id).power.wattsAt = none ∧ (ready 0 id).power.thermalAt = none) ∧
    ([(28, 5)].all fun e => e.1 != 0 && e.1 != 31) = true := by decide +kernel

/-- A launch that is to complete with a copy of its ended block still under way, and done; pages of a launch that software
moves. -/
theorem witness_launch_ends :
    (let s := { (ready 0 id).modLaunch 1 fun l => { l with status := some (9, 0), copies := [9] } with ops := [(9, anOp (.copy (aCopy false [])))] }
     ((s.launch? 1).map fun l => l.outcome.isSome && l.copies.any fun k => (tget? s.ops k).isSome) = some true) ∧
    (let s := (ready 0 id).modLaunch 1 fun l => { l with status := some (9, 0), copies := [9] }
     ((s.launch? 1).map fun l => l.outcome.isSome && l.graph.isNone && l.copies.all fun k => (tget? s.ops k).isNone) = some true) ∧
    (let s : State := { leaseStage false true (ready 0 id) with pageMoves := [(0x20000, 1, true, true)] }
     s.movingFrames 1 = [2] ∧ resident s = true ∧ (s.frameOfPage 0 2).any (fun f => f.1 == 2) = true) := by decide +kernel

/-- Cohort 1, whose kernel's launch may run again. -/
theorem witness_lost_cohort :
    (let s := (ready 0 id).modLaunch 1 fun l => { l with record := l.record.set 0 0x80000 }
     ((s.cohort? 1).bind fun c => (s.launch? c.launch).map fun l => !l.killed && l.rerun) = some true) := by decide +kernel

/-- A copy of a circular buffer runs on in a cohort that is asked to leave, and none does; a cohort that runs, or is asked
already. -/
theorem witness_pmack_timeout :
    (let c : Copy := { aCopy false [] with cb := true, slot := some 1024 }
     let s := { leaving1 (withOp (.copy c) (ready 0 id)) with now := State.ms 2 }
     ((s.cohort? 1).map fun c => s.copyRuns c && !s.allAcked c) = some true) ∧
    (let s := { leaving1 (ready 0 id) with now := State.ms 2 }
     ((s.cohort? 1).map fun c => !s.copyRuns c && !s.allAcked c) = some true) ∧
    ((handled (ready 0 id)).trapVec ≠ 0) ∧
    (((leaving1 (ready 0 id)).cohort? 1).map fun c => c.state == .preempting ⟨0x10, 0, 0, none⟩) = some true := by decide +kernel

/-! ## Decoding: the words that the spec writes out -/

/-- A word with a guard. -/
def guard0 (n : BitVec 3) (w : VWord) : VWord := { w with sched := { w.sched with g0 := n } }

/-- NOP, MEET, BRA under x115, TRAP #5, ERET (04 R107, its worked program, 17 R454). -/
theorem test_decode_control :
    decodeWord 0x000FE3F8FE3FFF01 = .ok (.nop (v 127 127 127 127 127)) ∧
    decodeWord 0x00000000123FFF08 = .ok (.meet (kw 127 9)) ∧
    decodeWord 0x003000000E3FFF02 = .ok (.bra ⟨⟨0, 0, 0, 0, 0, 3⟩, 7, ⟨0, 127⟩, 127⟩) ∧
    decodeWord 0x000000000A3FFF13 = .ok (.trap (im 127 127 5)) ∧
    decodeWord 0x000FE3F8FE3FFFE3 = .ok (.eret (v 127 127 127 127 127)) := ⟨rfl, rfl, rfl, rfl, rfl⟩

/-- IADD of the lane index, FMA, CVTF.e2m1, SCACC, RED.f32.add, RCLAIM #28 (04, 05, 06). -/
theorem test_decode_vector :
    decodeWord 0x000003F8F83EF320 = .ok (.iadd (v 115 125 124 127 0)) ∧
    decodeWord 0x000200300A020A53 = .ok (.fma (v 10 4 5 6 0x10)) ∧
    decodeWord 0x000303F848102864 = .ok (.cvtf (v 40 32 36 127 0x18)) ∧
    decodeWord 0x0002005012041467 = .ok (.scacc (v 20 8 9 10 0x10)) ∧
    decodeWord 0x000203F8FE040A84 = .ok (.red (v 10 8 127 127 0x10)) ∧
    decodeWord 0x00000000383FFF88 = .ok (.rclaim (im 127 127 28)) := ⟨rfl, rfl, rfl, rfl, rfl, rfl⟩

/-- LD.b32, LDACQ.coh, STREL.coh and ATOM under x115, LDT under x113, WALK.fl.dev, CINV.wb, FENCE.sc.dev (02, 09 to 11). -/
theorem test_decode_memory :
    decodeWord 0x000FFF8408010890 = .ok (.ld (mw 8 2 4 4 0x1FFF0)) ∧
    decodeWord 0x00000003FE021099 = .ok (.ldacq (mw 16 4 127 3 0)) ∧
    decodeWord 0x00300003FE020A9A = .ok (.strel { mw 10 4 127 3 0 with sched := ⟨0, 0, 0, 0, 0, 3⟩ }) ∧
    decodeWord 0x003103F80D040793 = .ok (.atom (guard0 3 { v 7 8 6 127 8 with a := ⟨4, 8⟩ })) ∧
    decodeWord 0x001E23FC28010892 = .ok (.ldt (guard0 1 { v 8 2 20 127 113 with b := ⟨4, 20⟩ })) ∧
    decodeWord 0x0001206014041E9D = .ok (.walk (v 30 8 10 12 9)) ∧
    decodeWord 0x000403F8FE047F9E = .ok (.cinv (v 127 8 127 127 0x20)) ∧
    decodeWord 0x000383F8FE3FFF9B = .ok (.fence (v 127 127 127 127 0x1C)) := ⟨rfl, rfl, rfl, rfl, rfl, rfl, rfl, rfl⟩

/-- WAIT.any.n2, TIME, BOARR, CBACQ.try, CPY.in.cb (07 R196, 08 R210). -/
theorem test_decode_waits_copies :
    decodeWord 0x000023F810080CA0 = .ok (.wait (v 12 16 8 127 1)) ∧
    decodeWord 0x000FE3F8FE3F8AA5 = .ok (.time (v 10 127 127 127 127)) ∧
    decodeWord 0x000FE3F8FE0208A3 = .ok (.boarr (v 8 4 127 127 127)) ∧
    decodeWord 0x000403F8FE020CB4 = .ok (.cbacq (v 12 4 127 127 0x20)) ∧
    decodeWord 0x000803F8FE141EB0 = .ok (.cpy (v 30 40 127 127 0x40)) := ⟨rfl, rfl, rfl, rfl, rfl⟩

/-- TLOAD.cv0, MMBFP.cv0, TOKTAKE, ACCRD (12 R330); CAPQ, SREAD, LEASEQ, BOOST, PRICLS, TLBINV (09, 15, 17). -/
theorem test_decode_matrix_system :
    decodeWord 0x000103F8661900C2 = .ok (.tload (v 0 50 51 127 8)) ∧
    decodeWord 0x000103F8020000C7 = .ok (.mmbfp (v 0 0 1 127 8)) ∧
    decodeWord 0x000FE3F8FE3F80CB = .ok (.toktake (v 0 127 127 127 127)) ∧
    decodeWord 0x000003F8700039C8 = .ok (.accrd (v 57 0 56 127 0)) ∧
    decodeWord 0x00000000003F8AE0 = .ok (.capq (im 10 127 0)) ∧
    decodeWord 0x00000002023F8AE1 = .ok (.sread (im 10 127 0x101)) ∧
    decodeWord 0x000FE3F8FE0406E5 = .ok (.leaseq (v 6 8 127 127 127)) ∧
    decodeWord 0x000003F8FE0208E6 = .ok (.boost (v 8 4 127 127 0)) ∧
    decodeWord 0x00000000043FFFE7 = .ok (.pricls (im 127 127 2)) ∧
    decodeWord 0x0000006014047FE9 = .ok (.tlbinv (v 127 8 10 12 0)) := ⟨rfl, rfl, rfl, rfl, rfl, rfl, rfl, rfl, rfl, rfl⟩

/-- Rejected: a reserved opcode, the reserved type code 7, register 126, and an unused field that does not hold 127 (02 R40 to
R42, R49, R53). -/
theorem test_decode_rejects :
    decodeWord 0x15 = .error .illegalOpcode ∧
    (match decodeWord 0x0000E3F8F83EF320 with
      | .error _ => true
      | .ok _ => false) = true ∧
    (match decodeWord 0x00000000F83EF320 with
      | .error _ => true
      | .ok _ => false) = true := by
  refine ⟨rfl, ?_, ?_⟩ <;> decide +kernel

/-! ## Well-formedness: an ill-formed term for each check -/

/-- A type code that a word does not take; an unused field and an unused crossbar that are not 127 and 0; a used field that is
127; a tile index above 15; FS of a short word; H of a word without a hint; a guard of a word without guards; an immediate
past its limit. -/
theorem test_ill_formed_words :
    ([.iadd (v 8 8 8 127 7), .iadd (v 8 8 8 8 0), .iadd { v 8 8 8 127 0 with c := ⟨1, 127⟩ }, .iadd (v 8 127 8 127 0),
      .tload (v 16 8 8 127 0), .iadd { v 8 8 8 127 0 with sched := ⟨0, 0, 1, 0, 0, 0⟩ },
      .iadd { v 8 8 8 127 0 with sched := ⟨0, 0, 0, 1, 0, 0⟩ }, .eret (guard0 1 (v 127 127 127 127 127)),
      .capq (im 10 127 32), .pricls (im 127 127 8), .ldacq (mw 16 4 127 6 0)] : List Instr).all (fun i => !i.wellFormed) = true ∧
    (Instr.iadd (v 8 8 8 127 0)).wellFormed = true := by decide +kernel

/-- An event whose party the package has not; one of each kind, and the last party that it has. -/
theorem test_ill_formed_events :
    ([.clauseStart 864 0, .clauseStart 0 4, .ldtHoldExpiry 216 0, .engineRoundDeferredIssue 0 8, .engineOpCompletion 864,
      .twinComparatorReading 0 256 0, .twinSwapComplete 864, .directoryRequest 864 0 false 0, .llcCapacityRetirement 4,
      .retireChannel (some 256), .driftLineTake 4, .scrubRead (2 ^ 45), .phyRecalibration 256, .replayEntryExpiry 504,
      .ringInjection 0 4, .forwardingEntryExpiry 9, .balanceEvaluation 0 12 0 0, .droopTrip 216 0, .doorbell 2048 0,
      .cohortPlacement (0, 0) 9 [], .cohortPlacement (0, 0) 0 [96], .coreWatchdogExpiry 864, .spareMapIn 0 8, .scaleupPortDown 64,
      .fatalBoundaryError 8, .fatalBoundaryError 16] : List Instr).all (fun i => !i.wellFormed) = true ∧
    (Instr.clauseStart 863 3).wellFormed = true := by decide +kernel

/-! ## Values that the spec works out -/

/-- The table of ties and boundaries of 03 R76. -/
theorem test_rounding_table :
    (let r (f : Fmt) (m : RMode) (rnd : Nat) (sat neg : Bool) (n : Nat) (e : Int) := f.checked [] (f.round m rnd sat neg n e false)
     r .e2m1 .rne 0 false false 5 (-1) = (0x4, []) ∧ r .e2m1 .rne 0 false false 5 0 = (0x6, []) ∧
     r .e2m1 .rne 0 false false 1 (-2) = (0, [.underflow]) ∧ r .e2m1 .rne 0 false true 1 (-2) = (8, [.underflow]) ∧
     r .e2m1 .rne 0 false false 3 (-2) = (2, [.underflow]) ∧ r .e2m1 .rne 0 false false 13 (-1) = (7, []) ∧
     r .e2m1 .rne 0 false false 7 0 = (7, [.overflow]) ∧ r .e2m1 .rtz 0 false false 7 0 = (7, []) ∧
     r .e2m1 .rst 0x3FFF false false 9 (-2) = (5, []) ∧ r .e2m1 .rst 0x4000 false false 9 (-2) = (4, []) ∧
     r .e4m3 .rne 0 false false 464 0 = (0x7E, []) ∧ r .e4m3 .rne 0 false false 470 0 = (0x7E, [.overflow]) ∧
     r .e5m2 .rne 0 false false 61440 0 = (0x7C, [.overflow, .infinity]) ∧
     r .e5m2 .rne 0 true false 61440 0 = (0x7B, [.overflow]) ∧ r .e5m2 .rup 0 false true 61440 0 = (0xFB, []) ∧
     r .e5m2 .rup 0 false true 70000 0 = (0xFB, [.overflow]) ∧ r .bf16 .rne 0 false false 257 (-8) = (0x3F80, []) ∧
     r .bf16 .rne 0 false false 259 (-8) = (0x3F82, []) ∧ r .f16 .rne 0 false false 1 (-24) = (1, []) ∧
     r .f16 .rne 0 false false 1 (-25) = (0, [.underflow])) := by decide +kernel

/-- Register `r` of lane `i` holds element `i` of a list, and 0 past its end. -/
def lanesOf (r : Nat) (l : List W32) (g : Group) : Group :=
  { g with regs := lanes32.foldl (fun t i => tset 0 t (32 * r + i) (l.getD i 0)) g.regs }

/-- The packing of eight values into E2M1 in lane 0 (06, the example of R180). -/
theorem test_cvtf_e2m1 :
    after 0x000303F848102864 (fun g => { g with regs := [(1024, 0x40200000), (1056, 0x40A00000), (1088, 0x3E800000),
      (1120, 0x3F400000), (1152, 0xC0E00000), (1184, 0x3FC00000), (1216, 0x7FC00000), (1248, 0x42C80000)] }) 0 40 1 = [0x703F2064] := by decide +kernel

/-- RED.f32.add of 2^24 and 31 ones (05, the example of R152). -/
theorem test_red_order :
    after 0x000203F8FE040A84 (lanesOf 8 (0x4B800000 :: List.replicate 31 0x3F800000)) 31 10 1 = [0x4B80000F] := by decide +kernel

/-- The five lanes of SCACC (06, the example of R194). -/
theorem test_scacc :
    (let f := fun g => lanesOf 10 [0x7F, 0x7F, 0x7F, 0x7F, 0xFE] (lanesOf 9 [0x7F, 0x7E, 0xFF, 0x7F, 0xFE]
       (lanesOf 8 [0x01000001, 0xFFFFFFFD, 5, 0, 0x7FFFFFFF] (lanesOf 20 [0x3F000000, 0x3F800000, 0x3F800000, 0x80000000, 0x7F7FFFFF] g)))
     (List.range 5).map (fun i => after 0x0002005012041467 f i 20 1) =
       [[0x4B800001], [0xBF000000], [0x7FC00000], [0], [0x7F800000]]) := by decide +kernel

/-- IADD.z8 wraps in every byte (06 R163): 0x01, 0x02, 0x80 and 0xFF added to 0x01, 0xFF, 0x80 and 0x01. -/
theorem test_iadd_wraps : after 0x000143F812040620 (regs 8 [0x010280FF, 0x01FF8001]) 3 6 1 = [0x02010000] := by decide +kernel

/-- TRAP #5 enters the handler with cause SOFTWARE and its frame at the next clause; an ERET outside a handler is PRIVILEGED
(17 R447, R454). -/
theorem test_trap :
    (match step (handled (ready 0x000000000A3FFF13 id)) with
      | .next u => (u.group? 32).map fun g => (g.trapCause, g.trapInfo, g.reg 31 120, g.reg 31 121, g.handler)
      | _ => none) = some (0x0E, 5, 0x10010, 0, true) ∧
    trapOf 0x000FE3F8FE3FFFE3 id handled = 0x04 := by decide +kernel

end Sys2Proof.Tests
end

section
/-! SUPPORT. The management controller: mailbox records, commits of the catalogue, what a lost cohort leaves, the spare, and the
package reset (01 R18, 18 R470 to R476). -/

namespace Sys2Proof.Machine

/-! ## Mailbox records (18 R470) -/

/-- The images in use are none of the memory system. -/
theorem OnlyMemory.imageUsed {s u : State} (h : OnlyMemory s u) : u.imageUsed = s.imageUsed :=
  (congrArg State.imageUsed h.rest).trans rfl

/-- The catalogue is none of the memory system. -/
theorem OnlyMemory.catalogue {s u : State} (h : OnlyMemory s u) : u.catalogue = s.catalogue :=
  (congrArg State.catalogue h.rest).trans rfl

namespace State

theorem only_cleanPhys (s : State) (pa n : Nat) : OnlyMemory s (s.cleanPhys pa n) := by
  unfold cleanPhys
  split
  · exact .refl s
  · refine .foldl (fun t i => ?_) _ s
    split
    · exact only_retireLine ..
    · exact .refl t

/-- The status of every command but a negotiation is all that its record receives. -/
theorem mailEnd_of_ne {m : Mail} (h : m.opcode ≠ 16) (s : State) (st : Nat) : s.mailEnd m st = s.mailStatus m.addr st := by
  simp [mailEnd, h]

/-- A record whose command is defined, and that breaks no reserved bit, is taken, performed and ended with its status. -/
theorem takeMail_of_nextMail {s u : State} {m : Mail} {ops : Nat → Bool} {body : Mail → State → State × Option Nat} {st : Nat}
    (hm : nextMail s = some m) (hop : ops m.opcode = true) (hd : mailDefined m.opcode = true) (hr : m.rsv = false)
    (hb : body m { s.cleanPhys m.addr 64 with mailbox := s.mailbox.tail } = (u, some st)) :
    s.takeMail ops body = u.mailEnd m st := by
  unfold nextMail at hm
  split at hm
  next a rest hbox hfree =>
    split at hm
    · rename_i hv
      cases hm
      have hv' : ({ s.cleanPhys a.toNat 64 with mailbox := rest } : State).imageUsed.valid = true := by
        rw [← hv]
        exact congrArg Image.valid (only_cleanPhys s a.toNat 64).imageUsed
      simp only [hbox, List.tail_cons] at hb
      simp only [takeMail, hbox, hfree, hop, hv', hd, hr, hb, Bool.not_true, Bool.false_and, Bool.or_false, Bool.false_eq_true,
        if_false]
    · cases hm
  next => cases hm

end State

/-- An event that takes the records of one defined command performs that command. -/
theorem commands_of_body {i : Instr} {s : State} {op : Nat} {body : State.Mail → State → State × Option Nat}
    {spec : State.Mail → State → State → Nat → Prop} (hi : exec i s = .next (s.takeMail (· == op) body))
    (hd : State.mailDefined op = true) (hb : ∀ m t u st, spec m t u st → body m t = (u, some st)) : Commands i s op spec := by
  intro m hm hop hr u st hs
  rw [hi, State.takeMail_of_nextMail hm (by simp [hop]) (by rw [hop]; exact hd) hr (hb _ _ _ _ hs)]

/-- The result of a negotiation that fails reads 0. -/
theorem State.mailEnd_failed_negotiation (s : State) {m : State.Mail} {st : Nat} (h : m.opcode = 16) (hst : st ≠ 0) :
    s.mailEnd m st = (s.homeWrite (m.addr + 48) (bytesOfNat 16 0)).mailStatus m.addr st := by
  simp [State.mailEnd, State.mailResult, h, hst]

theorem negotiateFeatures_commands (s : State) : Commands .negotiateFeatures s 16 fun m t u st =>
    let want : BitVec 128 := BitVec.ofNat 128 ((m.word 4).toNat + 2 ^ 64 * (m.word 5).toNat)
    let put (s : State) (v : BitVec 128) : State := s.homeWrite (m.addr + 48) (bytesOfNat 16 v.toNat)
    t.negotiated = true ∧ st = 2 ∧ u = t ∨
    t.negotiated = false ∧ (0x7F &&& want).getLsbD 0 = false ∧ st = 1 ∧ u = t ∨
    t.negotiated = false ∧ (0x7F &&& want).getLsbD 0 = true ∧ st = 0 ∧
      u = put { t with negotiated := true, features := 0x7F &&& want } (0x7F &&& want) := by
  refine commands_of_body rfl (by decide) fun m t u st h => ?_
  obtain ⟨hn, rfl, rfl⟩ | ⟨hn, hw, rfl, rfl⟩ | ⟨hn, hw, rfl, rfl⟩ := h
  · simp [hn]
  · rw [hn]; simp only [featOffer, hw]; rfl
  · rw [hn]; simp only [featOffer, hw]; rfl

theorem loadQueueContext_commands (s : State) : Commands .loadQueueContext s 17 fun m t u st =>
    let q := 16 * m.arg + m.set
    let r := t.physWords (t.qtab.toNat + 64 * q) 8
    let w (n : Nat) : W64 := r.2.getD n 0
    t.negotiated = true ∧ q ≤ 2047 ∧ ¬ ((t.queue q).enable = true ∧ (t.queue q).state = 1) ∧
      (contextBad w = true ∧ st = 3 ∧ u = r.1 ∨ contextBad w = false ∧ st = 0 ∧ u = r.1.putQueue q
        { ring := w 0, enable := (w 1).getLsbD 11, maxClass := fieldOf (w 1) 8 3, log2Slots := fieldOf (w 1) 0 5
          aspace := w 2, rptr := 0, wptr := 0, evq := w 5, msi := fieldOf (w 6) 16 16, evqLog2 := fieldOf (w 6) 0 16
          err := 0, state := 0, count := 0, held := none }) := by
  refine commands_of_body rfl (by decide) fun m t u st h => ?_
  obtain ⟨hn, hq, hx, ⟨hc, rfl, rfl⟩ | ⟨hc, rfl, rfl⟩⟩ := h
  · simp only [hn, Nat.not_lt.2 hq, hc, Bool.not_true, Bool.false_eq_true, Bool.and_eq_true, decide_eq_true_eq, if_neg hx, if_false,
      if_true]
  · simp only [hn, Nat.not_lt.2 hq, hc, Bool.not_true, Bool.false_eq_true, Bool.and_eq_true, decide_eq_true_eq, if_neg hx, if_false]

/-- A signed image newer than a valid one in use takes the place of the copy that is not in use (18 R473). -/
theorem updateConfigurationImage_of_nextMail {s : State} {m : State.Mail} (hm : nextMail s = some m) (hop : m.opcode = 18)
    (hr : m.rsv = false) :
    let v := State.cleanPhys { s.cleanPhys m.addr 64 with mailbox := s.mailbox.tail } m.bytes Config.imageLength
    let bytes := (List.range Config.imageLength).map fun i => v.homeByte (m.bytes + i)
    let x := { Config.imageFields bytes with valid := true }
    let good := Config.signatureOk bytes = true ∧ (v.imageUsed.valid = false ∨ v.imageUsed.seq < x.seq)
    exec .updateConfigurationImage s = .next (State.mailStatus (if good then
        (if v.usesB then { v with imageA := x } else { v with imageB := x }) else v) m.addr (if good then 0 else 7)) := by
  intro v bytes x good
  rw [← State.mailEnd_of_ne (by omega)]
  refine congrArg Host.Outcome.next (State.takeMail_of_nextMail hm (by simp [hop]) (by rw [hop]; rfl) hr ?_)
  have hbad : (!Config.signatureOk bytes || (v.imageUsed.valid && decide (x.seq ≤ v.imageUsed.seq))) = !decide good := by
    simp only [good, Bool.decide_and, Bool.decide_or, Bool.not_and, Bool.not_or, Bool.decide_eq_true, Bool.decide_eq_false,
      Bool.not_not, ← decide_not, Nat.not_lt]
  change (if (!Config.signatureOk bytes || (v.imageUsed.valid && decide (x.seq ≤ v.imageUsed.seq))) = true then (v, some 7)
    else (if v.usesB then { v with imageA := x } else { v with imageB := x }, some 0)) = _
  rw [hbad]
  by_cases hg : good <;> simp [hg]

theorem fenceChipletForService_commands (s : State) : Commands .fenceChipletForService s 19 fun m t u st =>
    ∃ slot, t.slotOf m.arg = some slot ∧ (t.chiplet slot).power = .active ∧ st = 0 ∧ u = t.fence slot := by
  refine commands_of_body rfl (by decide) fun m t u st h => ?_
  obtain ⟨slot, hslot, hp, rfl, rfl⟩ := h
  simp [hslot, hp, Option.filter]

theorem setErrorRing_commands (s : State) : Commands .setErrorRing s 20 fun m t u st =>
    4 ≤ m.arg ∧ m.arg ≤ 16 ∧ m.bytes % 32 = 0 ∧ st = 0 ∧ u = { t with errRing := some ⟨m.bytes, m.arg, 0⟩ } := by
  refine commands_of_body rfl (by decide) fun m t u st h => ?_
  obtain ⟨hlo, hhi, hbase, rfl, rfl⟩ := h
  simp [Nat.not_lt.2 hlo, Nat.not_lt.2 hhi, hbase]

/-! ## A lost cohort (18 R475, R476) -/

/-- From `s` to `u` only groups, blocks, operations, cores and clusters change, and no block appears. -/
structure OnlyBlocks (s u : State) : Prop where
  rest : u = { s with groups := u.groups, blocks := u.blocks, ops := u.ops, cores := u.cores, clusters := u.clusters }
  absent : ∀ b, s.block? b = none → u.block? b = none

namespace OnlyBlocks

theorem refl (s : State) : OnlyBlocks s s := ⟨rfl, fun _ h => h⟩

theorem trans {s t u : State} (h : OnlyBlocks s t) (k : OnlyBlocks t u) : OnlyBlocks s u := by
  refine ⟨?_, fun b e => k.absent b (h.absent b e)⟩
  have e := k.rest
  rw [h.rest] at e
  exact e

theorem foldl {α : Type} {f : State → α → State} (h : ∀ s x, OnlyBlocks s (f s x)) (l : List α) :
    ∀ s, OnlyBlocks s (l.foldl f s) := by
  induction l with
  | nil => exact refl
  | cons x t ih => intro s; exact (h s x).trans (ih _)

/-- What each step of a fold takes away stays away. -/
theorem foldl_absent {f : State → Nat → State} (h : ∀ s b, OnlyBlocks s (f s b)) (hf : ∀ s b, (f s b).block? b = none)
    (l : List Nat) : ∀ s, ∀ b ∈ l, (l.foldl f s).block? b = none := by
  induction l with
  | nil => simp
  | cons x t ih =>
    intro s b hb
    obtain rfl | hb := List.mem_cons.1 hb
    · exact (foldl h t _).absent b (hf s b)
    · exact ih _ b hb

/-- Changes of groups, operations, cores and clusters. -/
theorem fields (s : State) (groups : List (Nat × Group)) (ops : List (Nat × Op)) (cores : List (Nat × Core))
    (clusters : List (Nat × Cluster)) :
    OnlyBlocks s { s with groups := groups, ops := ops, cores := cores, clusters := clusters } := ⟨rfl, fun _ h => h⟩

/-- A block that exists changes. -/
theorem setBlock {s : State} {n : Nat} (v : Block) (h : (s.block? n).isSome) : OnlyBlocks s (s.setBlock n v) := by
  refine ⟨rfl, fun b hb => ?_⟩
  have hne : b ≠ n := by rintro rfl; simp [hb] at h
  rw [State.block?_setBlock_other s n v hne, hb]

theorem modBlock (s : State) (n : Nat) (f : Block → Block) : OnlyBlocks s (s.modBlock n f) := by
  unfold State.modBlock
  split
  · rename_i v h
    exact setBlock _ (by simp [h])
  · exact .refl s

theorem modGroup (s : State) (n : Nat) (f : Group → Group) : OnlyBlocks s (s.modGroup n f) := by
  unfold State.modGroup
  split
  · exact .fields s _ _ _ _
  · exact .refl s

end OnlyBlocks

namespace State

theorem blocks_setGroup (s : State) (n : Nat) (g : Group) : OnlyBlocks s (s.setGroup n g) := .fields s _ _ _ _

theorem blocks_modCore (s : State) (n : Nat) (f : Core → Core) : OnlyBlocks s (s.modCore n f) := .fields s _ _ _ _

theorem blocks_freeSlot (s : State) (core gid : Nat) : OnlyBlocks s (s.freeSlot core gid) := blocks_modCore ..

theorem blocks_modQuota (s : State) (core lid : Nat) (f : Quota → Quota) : OnlyBlocks s (s.modQuota core lid f) :=
  blocks_modCore ..

theorem blocks_freeLocks (s : State) (op : Nat) : OnlyBlocks s (s.freeLocks op) := .fields s _ _ _ _

theorem blocks_dropOp (s : State) (op : Nat) : OnlyBlocks s (s.dropOp op) := .fields s _ _ _ _

theorem blocks_endClause (s : State) (gid : Nat) (jumps : List (Nat × W64)) : OnlyBlocks s (s.endClause gid jumps) := by
  unfold endClause
  split
  · exact .refl s
  split
  · exact .refl s
  · dsimp only
    split
    · exact (blocks_freeSlot s _ gid).trans ((blocks_setGroup _ gid _).trans (.modGroup _ gid _))
    · exact (blocks_freeSlot s _ gid).trans (blocks_setGroup _ gid _)

theorem blocks_advance (s : State) (gid : Nat) (jumps : List (Nat × W64)) : OnlyBlocks s (s.advance gid jumps) := by
  unfold advance
  split
  · exact .refl s
  split
  · exact .refl s
  split
  · dsimp only
    refine OnlyBlocks.trans ?_ (blocks_setGroup _ gid _)
    split
    · exact blocks_freeSlot ..
    · exact .refl s
  · exact blocks_endClause ..

theorem blocks_grantGroup (s : State) (gid units : Nat) : OnlyBlocks s (s.grantGroup gid units) :=
  (OnlyBlocks.modGroup s gid _).trans (blocks_advance ..)

theorem blocks_startFormed (s : State) (bid slot : Nat) (f : Formed) : OnlyBlocks s (s.startFormed bid slot f) := by
  unfold startFormed
  split
  · exact blocks_setGroup ..
  · exact .refl s

theorem blocks_grantFormed (s : State) (bid : Nat) : OnlyBlocks s (s.grantFormed bid) := by
  unfold grantFormed
  split
  · exact .refl s
  split
  · exact .refl s
  · exact (OnlyBlocks.modBlock s bid _).trans (blocks_startFormed ..)

theorem blocks_grantClaims (core lid fuel : Nat) : ∀ s : State, OnlyBlocks s (s.grantClaims core lid fuel) := by
  induction fuel with
  | zero => exact .refl
  | succ fuel ih =>
    intro s
    unfold grantClaims
    split
    · exact .refl s
    split
    · exact .refl s
    dsimp only
    split
    · split
      · exact (blocks_modQuota ..).trans ((blocks_grantGroup ..).trans (ih _))
      · exact .refl s
    · split
      · exact (blocks_modQuota ..).trans ((blocks_grantFormed ..).trans (ih _))
      · exact .refl s

theorem blocks_withdraw (s : State) (core lid : Nat) (p : Claim → Bool) : OnlyBlocks s (s.withdraw core lid p) :=
  (blocks_modQuota ..).trans (blocks_grantClaims ..)

theorem blocks_endBoost (s : State) (bid note : Nat) : OnlyBlocks s (s.endBoost bid note) := by
  unfold endBoost
  split
  · exact .refl s
  split
  · exact .refl s
  · rename_i b h _
    exact (OnlyBlocks.setBlock _ (by simp [h])).trans (.fields _ _ _ _ _)

/-- A block leaves the table of blocks. -/
theorem blocks_tdel (s : State) (bid : Nat) (groups : List (Nat × Group)) :
    OnlyBlocks s { s with groups := groups, blocks := tdel s.blocks bid } := by
  refine ⟨rfl, fun b h => ?_⟩
  by_cases hb : b = bid
  · rw [hb]; exact tget?_tdel_same ..
  · exact (tget?_tdel_other _ _ _ hb).trans h

/-- Dropping a block passes through a state without it, and no later part of it brings a block back. -/
theorem dropBlock_through (s : State) (bid : Nat) :
    ∃ t : State, OnlyBlocks s t ∧ t.block? bid = none ∧ OnlyBlocks t (s.dropBlock bid) := by
  cases h : s.block? bid with
  | none => exact ⟨s, .refl s, h, by unfold dropBlock; rw [h]; exact .refl s⟩
  | some b =>
    let t := ((List.range b.gslots.length).map (gidOf bid)).foldl (fun t g => t.freeSlot b.core g) (s.endBoost bid 0)
    have ht : OnlyBlocks s t := (blocks_endBoost s bid 0).trans (.foldl (fun t g => blocks_freeSlot t b.core g) _ _)
    refine ⟨{ t with groups := t.groups.filter fun e => e.2.block != bid, blocks := tdel t.blocks bid },
      ht.trans (blocks_tdel t bid _), tget?_tdel_same _ _, ?_⟩
    unfold dropBlock
    rw [h]
    dsimp only
    split
    · exact .refl _
    split
    · exact blocks_withdraw ..
    · exact blocks_modCore ..

theorem blocks_dropBlock (s : State) (bid : Nat) : OnlyBlocks s (s.dropBlock bid) := by
  obtain ⟨t, hst, _, htu⟩ := s.dropBlock_through bid
  exact hst.trans htu

theorem block?_dropBlock (s : State) (bid : Nat) : (s.dropBlock bid).block? bid = none := by
  obtain ⟨t, _, ht, htu⟩ := s.dropBlock_through bid
  exact htu.absent bid ht

theorem blocks_cancelOps (s : State) (bid : Nat) (kept : List Nat) : OnlyBlocks s (s.cancelOps bid kept) := by
  unfold cancelOps
  have drops := OnlyBlocks.foldl (fun t (e : Nat × Op) => blocks_dropOp t e.1)
    (s.ops.filter fun e => e.2.block == bid && !kept.contains e.1) s
  dsimp only
  split
  · exact drops
  · exact drops.trans ((OnlyBlocks.foldl (fun t (e : EngineOp) => blocks_freeLocks t e.num) _ _).trans (blocks_modCore ..))

/-- A cohort leaves with all its blocks, and nothing but groups, blocks, operations, cores and clusters changes with it. -/
theorem removeCohort_through {s : State} {cid : Nat} {c : Cohort} (h : s.cohort? cid = some c) (kept : List Nat) :
    ∃ t : State, OnlyBlocks s t ∧ (∀ b ∈ c.blocks, t.block? b = none) ∧
      s.removeCohort cid kept = { t with cohorts := tdel t.cohorts cid } := by
  have hstep (t : State) (b : Nat) : OnlyBlocks t ((t.cancelOps b kept).dropBlock b) :=
    (blocks_cancelOps t b kept).trans (blocks_dropBlock _ b)
  refine ⟨_, .foldl hstep c.blocks s, OnlyBlocks.foldl_absent hstep (fun t b => block?_dropBlock _ b) c.blocks s, ?_⟩
  unfold removeCohort
  rw [h]

/-- What a lost cohort leaves when its launch runs it again (18 R475, R476). -/
theorem loseCohort_rerun {s : State} {cid : Nat} {c : Cohort} {l : Launch} (hc : s.cohort? cid = some c)
    (hl : s.launch? c.launch = some l) (hk : l.killed = false) (hr : l.rerun = true) :
    let u := s.loseCohort cid
    u.cohort? cid = none ∧ (∀ b ∈ c.blocks, u.block? b = none) ∧ u.mem = s.mem ∧ u.llc = s.llc ∧
    ∃ y, u.launch? c.launch = some y ∧ y.counters = l.counters ∧ y.stage = .placing := by
  obtain ⟨t, hst, hgone, ht⟩ := removeCohort_through hc []
  have hlaunch : ({ t with cohorts := tdel t.cohorts cid } : State).launch? c.launch = some l :=
    ((congrArg (fun x : State => x.launch? c.launch) hst.rest).trans rfl).trans hl
  simp only [loseCohort, hc, hl, ht, hk, hr, Bool.false_eq_true, if_false, if_true]
  refine ⟨?_, fun b hb => ?_, ?_, ?_, ?_⟩
  · rw [cohort?_modLaunch]; exact tget?_tdel_same ..
  · rw [block?_modLaunch]; exact hgone b hb
  · rw [modLaunch_mem]; exact (congrArg State.mem hst.rest).trans rfl
  · rw [modLaunch_llc]; exact (congrArg State.llc hst.rest).trans rfl
  · rw [launch?_modLaunch, hlaunch]; exact ⟨_, rfl, rfl, rfl⟩

end State

/-! ## Commits of the catalogue (01 R17, R18) -/

section
variable {α β : Type}

/-- What no step of a fold changes is unchanged after it. -/
theorem foldl_keeps {γ : Type} {f : α → β → α} (g : α → γ) (h : ∀ a b, g (f a b) = g a) (l : List β) :
    ∀ a, g (l.foldl f a) = g a := by
  induction l with
  | nil => exact fun _ => rfl
  | cons b t ih => exact fun a => (ih _).trans (h a b)

/-- Writes to other places of a list leave a place as it was. -/
theorem getD_foldl_set {i : Nat} (d : β) (l : List (Nat × β)) (h : ∀ e ∈ l, e.1 ≠ i) :
    ∀ c : List β, (l.foldl (fun c e => c.set e.1 e.2) c).getD i d = c.getD i d := by
  induction l with
  | nil => exact fun _ => rfl
  | cons e t ih =>
    intro c
    rw [List.foldl_cons, ih fun x hx => h x (List.mem_cons_of_mem _ hx)]
    simp [List.getD_eq_getElem?_getD, List.getElem?_set_ne (h e List.mem_cons_self)]

end

/-- A field that is written reads back. -/
theorem fieldOf_setField (v : W64) {lo n : Nat} (h : lo + n ≤ 64) (x : Nat) : fieldOf (setField v lo n x) lo n = x % 2 ^ n := by
  have hcut (a : Nat) : a % 2 ^ 64 / 2 ^ lo % 2 ^ n = a / 2 ^ lo % 2 ^ n := by
    refine Nat.eq_of_testBit_eq fun i => ?_
    simp only [Nat.testBit_mod_two_pow, Nat.testBit_div_two_pow]
    by_cases hi : i < n
    · simp only [hi, show i + lo < 64 by omega, decide_true, Bool.true_and]
    · simp only [hi, decide_false, Bool.false_and]
  have hv : v.toNat - v.toNat / 2 ^ lo % 2 ^ n * 2 ^ lo =
      v.toNat % 2 ^ lo + 2 ^ lo * (2 ^ n * (v.toNat / 2 ^ lo / 2 ^ n)) := by
    have h1 := Nat.mod_add_div v.toNat (2 ^ lo)
    have h2 := Nat.mod_add_div (v.toNat / 2 ^ lo) (2 ^ n)
    generalize v.toNat / 2 ^ lo % 2 ^ n = f at *
    generalize 2 ^ n * (v.toNat / 2 ^ lo / 2 ^ n) = q at *
    rw [← h2, Nat.mul_add] at h1
    rw [Nat.mul_comm f]
    omega
  unfold setField
  simp only [fieldOf, BitVec.toNat_ofNat, Nat.shiftRight_eq_div_pow, hv]
  rw [Nat.add_assoc, Nat.mul_comm (x % 2 ^ n), ← Nat.mul_add, hcut, Nat.add_mul_div_left _ _ (Nat.two_pow_pos lo),
    Nat.div_eq_of_lt (Nat.mod_lt _ (Nat.two_pow_pos lo)), Nat.zero_add, Nat.mul_add_mod, Nat.mod_mod]

namespace State

@[simp] theorem chiplet_modChiplet (s : State) (p : Nat) (f : Chiplet → Chiplet) : (s.modChiplet p f).chiplet p = f (s.chiplet p) :=
  chiplet_setChiplet ..

@[simp] theorem chiplet_commit (s : State) (l : List (Nat × W64)) (p : Nat) : (s.commit l).chiplet p = s.chiplet p := rfl

/-- GEN and GEN_TAIL after a commit of other words. -/
theorem catWord_commit_gen (s : State) {l : List (Nat × W64)} (hlen : s.catalogue.length = 32) (h : ∀ e ∈ l, e.1 ≠ 0 ∧ e.1 ≠ 31) :
    (s.commit l).catWord 0 = s.catWord 0 + 1 ∧ (s.commit l).catWord 31 = s.catWord 0 + 1 := by
  have hwords : (l.foldl (fun (c : List W64) e => c.set e.1 e.2) (s.catalogue.set 0 (s.catWord 0 + 1))).length = 32 := by
    rw [foldl_keeps List.length fun c e => List.length_set ..]
    simp [hlen]
  constructor
  · have hgen := getD_foldl_set (0 : W64) l (fun e he => (h e he).1) (s.catalogue.set 0 (s.catWord 0 + 1))
    simp only [commit, catWord, List.getD_eq_getElem?_getD, List.getElem?_set_ne (show 31 ≠ 0 by decide)] at hgen ⊢
    rw [hgen]
    simp [hlen]
  · simp [commit, catWord, List.getD_eq_getElem?_getD] at hwords ⊢
    simp [hwords]

/-- The next word of a commit in progress is written. -/
theorem publishWord_cons {s : State} {e : Nat × W64} {rest : List (Nat × W64)} (h : s.publishing = e :: rest) :
    s.publishWord = { s with shown := s.shown.set e.1 e.2, publishing := rest } := by
  unfold publishWord
  rw [h]

/-- Readers find the words of a commit in progress one after the other. -/
theorem shown_publishWords (n : Nat) : ∀ s : State, s.publishing.length = n →
    ((List.range n).foldl (fun (s : State) _ => s.publishWord) s).shown =
      s.publishing.foldl (fun (c : List W64) e => c.set e.1 e.2) s.shown := by
  induction n with
  | zero => intro s h; simp [List.length_eq_zero_iff.1 h]
  | succ n ih =>
    intro s h
    cases hp : s.publishing with
    | nil => simp [hp] at h
    | cons e t =>
      have hstep := publishWord_cons hp
      rw [List.range_succ_eq_map, List.foldl_cons, List.foldl_map, ih s.publishWord (by rw [hstep]; simpa [hp] using h), hstep]
      rfl

/-- Readers who have found every word of a commit find the catalogue that it made. -/
theorem shown_after_commit (s : State) (l : List (Nat × W64)) :
    ((List.range (l.length + 2)).foldl (fun (s : State) _ => s.publishWord) (s.commit l)).shown = (s.commit l).catalogue := by
  rw [shown_publishWords _ _ (by simp [commit])]
  simp [commit]

end State

/-! ## The chiplets (14 R389, 18 R474) -/

/-- One ready group of the core is enough for the watchdog (18 R474). -/
theorem coreWatchdogExpiry_fences {s : State} {core : Nat} {e : Nat × Group} (he : e ∈ s.groups)
    (hcore : ((s.block? e.2.block).map Block.core) = some core) (hready : ready s e.1 = true)
    (hms : State.ms 100 ≤ (s.core core).unissued) : exec (.coreWatchdogExpiry core) s = .next (s.fence (coreSlot core)) := by
  have hany : s.coreReady core = true := List.any_eq_true.2 ⟨e, he, by simp [hcore, hready]⟩
  exact if_pos (by simp [hany, hms])

/-- What a fenced chiplet holds of the network goes; memory and the groups are not the network's (14 R389). -/
theorem chipletPowerOff_fenced {s : State} {slot : Nat} (h : (s.chiplet slot).power = .fenced) :
    ∃ u, exec (.chipletPowerOff slot) s = .next u ∧ (u.chiplet slot).power = .off ∧ u.mem = s.mem ∧ u.groups = s.groups ∧
      u.cohorts = s.cohorts := by
  refine ⟨_, if_neg (by simp [h]), ?_, rfl, rfl, rfl⟩
  rw [State.chiplet_modChiplet]

/-- The state in which a spare has the place of lost chiplet `p`, before the commit. -/
def State.spareUp (s : State) (slot p : Nat) : State :=
  let s := s.modChiplet p fun c => { c with lost := none }
  let s := s.setChiplet slot { power := .active, lost := none, tlb := [], l2 := [], forwards := [] }
  let s := (List.range 96).foldl (fun (s : State) i => s.setCore (96 * slot + i) { Core.idle with lastSwap := s.now }) s
  (clustersOf slot).foldl (fun (s : State) k => s.setCluster k { Cluster.idle with balanceAt := s.now, evalAt := s.now }) s

/-- Cores and clusters start anew on a spare; no chiplet and no word of the catalogue changes with them. -/
theorem State.chiplet_spareUp (s : State) (slot p q : Nat) : (s.spareUp slot p).chiplet q =
    ((s.modChiplet p fun c => { c with lost := none }).setChiplet slot
      { power := .active, lost := none, tlb := [], l2 := [], forwards := [] }).chiplet q := by
  unfold State.spareUp
  rw [foldl_keeps (fun t : State => t.chiplet q) (fun t k => chiplet_setCluster ..),
    foldl_keeps (fun t : State => t.chiplet q) (fun t k => chiplet_setCore ..)]

theorem State.catalogue_spareUp (s : State) (slot p : Nat) : (s.spareUp slot p).catalogue = s.catalogue := by
  unfold State.spareUp
  rw [foldl_keeps State.catalogue fun t k => setCluster_catalogue .., foldl_keeps State.catalogue fun t k => setCore_catalogue ..]
  rfl

/-- The error record that follows the commit is a write to memory, and changes neither a slot's power nor the catalogue. -/
theorem spareMapIn_maps {s : State} {slot logical p : Nat}
    (hp : (List.range 9).find? (fun p => ((s.chiplet p).lost.map fun x => x.1) == some logical) = some p)
    (hoff : (s.chiplet p).power = .off) (hne : p ≠ slot) (hspare : (s.chiplet slot).power = .spare) (hlog : logical < 8) :
    ∃ u, exec (.spareMapIn slot logical) s = .next u ∧ (u.chiplet slot).power = .active ∧ (u.chiplet p).lost = none ∧
      (s.catalogue.length = 32 → fieldOf (u.catWord 2) (4 * logical) 4 = slot % 16 ∧ u.catWord 0 = s.catWord 0 + 1) := by
  let a := s.spareUp slot p
  let w : List (Nat × W64) := [(1, a.slotWord), (2, a.chipmapWith logical slot)]
  have hrec := State.only_postError (a.commit w) 4 0 slot logical 0 0
  have hexec : exec (.spareMapIn slot logical) s = .next ((a.commit w).postError 4 0 slot logical 0 0) := by
    change execSpareMapIn slot logical s = _
    unfold execSpareMapIn
    rw [hp]
    exact if_neg (by simp [hspare, hoff, hlog])
  refine ⟨_, hexec, ?_, ?_, fun hlen => ?_⟩
  · obtain ⟨x, l, h⟩ := hrec.chiplets slot
    rw [h, State.chiplet_commit, State.chiplet_spareUp, State.chiplet_setChiplet]
  · obtain ⟨x, l, h⟩ := hrec.chiplets p
    rw [h, State.chiplet_commit, State.chiplet_spareUp, State.chiplet_setChiplet_other _ _ _ hne, State.chiplet_modChiplet]
  · have hcat (n : Nat) : ((a.commit w).postError 4 0 slot logical 0 0).catWord n = (a.commit w).catWord n :=
      congrArg (fun l : List W64 => l.getD n 0) hrec.catalogue
    have ha : a.catalogue = s.catalogue := s.catalogue_spareUp slot p
    have hgen := (State.catWord_commit_gen a (l := w) (by rw [ha, hlen]) (by simp [w])).1
    have hmap : (a.commit w).catWord 2 = a.chipmapWith logical slot := by
      simp only [State.commit, State.catWord, w, ha, List.foldl_cons, List.foldl_nil, List.getD_eq_getElem?_getD]
      simp [hlen]
    rw [hcat, hcat, hmap, hgen]
    exact ⟨fieldOf_setField _ (by omega) _, by simp only [State.catWord, ha]⟩

/-! ## The host port and the peers (01 R20, 18 R469, R479) -/

/-- The doorbells and QCTL each take 8 bytes of BAR0 for a queue. -/
theorem registerWrite_effects (s : State) (off : Nat) (v : W64) :
    exec (.registerWrite 0x2000 v) s = .next (if v.toNat % 64 = 0 then { s with mbAddr := v } else s) ∧
    exec (.registerWrite 0x2008 v) s = .next (if v.getLsbD 0 then { s with mailbox := s.mailbox ++ [s.mbAddr] } else s) ∧
    (off < 2048 → exec (.registerWrite (0x100000 + 8 * off) v) s = .next (s.doorbell off v) ∧
      exec (.registerWrite (0x104000 + 8 * off) v) s = .next (s.qctl off v.toNat)) := by
  refine ⟨rfl, rfl, fun hoff => ⟨?_, ?_⟩⟩
  · change execRegisterWrite (0x100000 + 8 * off) v s = _
    have hdiv : (0x100000 + 8 * off - 0x100000) / 8 = off := by omega
    unfold execRegisterWrite
    rw [if_neg (by omega), if_neg (by omega), if_pos (by simp; omega), hdiv]
  · change execRegisterWrite (0x104000 + 8 * off) v s = _
    have hdiv : (0x104000 + 8 * off - 0x104000) / 8 = off := by omega
    unfold execRegisterWrite
    rw [if_neg (by omega), if_neg (by omega), if_neg (by simp), if_pos (by simp; omega), hdiv]

theorem barWord_values (s : State) (off : Nat) :
    ((off = 0x2008 ∨ 0x100000 ≤ off ∧ off < 0x108000) → s.barWord off = 0) ∧
    (∀ k, k < 32 → s.barWord (0x1000 + 8 * k) = s.shownWord k) ∧ s.barWord 0x2000 = s.mbAddr := by
  refine ⟨fun h => ?_, fun k hk => ?_, rfl⟩
  · unfold State.barWord
    split
    · rfl
    · rw [if_neg (by omega), if_neg (by omega), if_neg (by omega), if_neg (by simp; omega), if_neg (by omega)]
  · have hdiv : (0x1000 + 8 * k - 0x1000) / 8 = k := by omega
    unfold State.barWord
    rw [if_neg (by simp), if_neg (by omega), if_neg (by omega), if_neg (by omega), if_pos (by simp; omega), hdiv]

/-- A port that changes is one commit of word 29. -/
theorem scaleupPorts_commit (s : State) {port : Nat} (h : port < 64) :
    ((s.catWord 29).getLsbD port = true →
      exec (.scaleupPortDown port) s = .next (s.commit [(29, s.catWord 29 &&& ~~~(1#64 <<< port))])) ∧
    ((s.catWord 29).getLsbD port = false →
      exec (.scaleupPortUp port) s = .next (s.commit [(29, s.catWord 29 ||| (1#64 <<< port))])) :=
  ⟨fun hb => congrArg _ (if_pos (by simp only [h, hb, decide_true, Bool.and_self])),
   fun hb => congrArg _ (if_pos (by simp only [h, hb, decide_true, Bool.not_false, Bool.and_self]))⟩

/-- An access that passes the checks of 18 R479; a write alone reads nothing of the line first. -/
theorem scaleupPeerAccess_performed {s : State} {peer off size : Nat} (data : W64) (hpeer : peer < 1024)
    (hport : s.catWord 29 ≠ 0) (hsize : size ≠ 0) (hmax : size ≤ 8) (hline : off % 128 + size ≤ 128)
    (hset : (s.setOf off).isSome) (hoff : off < 2 ^ 40) :
    exec (.scaleupPeerAccess peer off .write size data) s = .next (s.homeWrite off (bytesOfNat size data.toNat)) ∧
    exec (.scaleupPeerAccess peer off .read size data) s = .next (s.cleanPhys off size) ∧
    exec (.scaleupPeerAccess peer off .atomicAdd size data) s = .next ((s.cleanPhys off size).homeWrite off
      (bytesOfNat size (natOfBytes ((s.cleanPhys off size).homeBytes off size) + data.toNat))) := by
  have hnone : (s.setOf off).isNone = false := by simpa using hset
  have hok : ¬ (1024 ≤ peer || s.catWord 29 = 0 || size = 0 || 8 < size || 128 < off % 128 + size || (s.setOf off).isNone
      || 2 ^ 40 ≤ off) = true := by
    simpa [hnone, hsize, hpeer, hmax, hline] using And.intro hport hoff
  exact ⟨if_neg hok, if_neg hok, if_neg hok⟩

/-! ## The package reset (01 R17, 18 R472, R473) -/

/-- From `s` to `u` only what firmware sets up changes: chiplets, channels, sets, the curve and the catalogue. -/
def OnlySetUp (s u : State) : Prop :=
  u = { s with chiplets := u.chiplets, liveChannels := u.liveChannels, sets := u.sets, power := u.power
               catalogue := u.catalogue, shown := u.shown, publishing := u.publishing }

namespace OnlySetUp

theorem refl (s : State) : OnlySetUp s s := rfl

theorem trans {s t u : State} (h : OnlySetUp s t) (k : OnlySetUp t u) : OnlySetUp s u := by
  unfold OnlySetUp at *
  rw [h] at k
  exact k

theorem foldl {α : Type} {f : State → α → State} (h : ∀ s x, OnlySetUp s (f s x)) (l : List α) :
    ∀ s, OnlySetUp s (l.foldl f s) := by
  induction l with
  | nil => exact refl
  | cons x t ih => intro s; exact (h s x).trans (ih _)

end OnlySetUp

namespace State

theorem setUp_modChiplet (s : State) (p : Nat) (f : Chiplet → Chiplet) : OnlySetUp s (s.modChiplet p f) := rfl

theorem setUp_bootSet (s : State) (k : Nat) (size : Option Nat) (linear visible : Bool) (mask : List Nat) :
    OnlySetUp s (s.bootSet k size linear visible mask) := by
  unfold bootSet
  dsimp only
  split <;> rfl

theorem setUp_power (s : State) (p : Power) : OnlySetUp s { s with power := p } := rfl

theorem setUp_publication (s : State) (l : List (Nat × W64)) : OnlySetUp s (s.commit l).finishCommit := rfl

/-- Each part of firmware's work, up to its publication, keeps to what firmware sets up. -/
theorem setUp_firmware (s : State) : OnlySetUp s s.firmware := by
  unfold firmware
  extract_lets x up act s1 s2 s3 s4 more s5 fs curve p5 s6 p6 s7 map k p stk
  have h2 : OnlySetUp s s2 :=
    (OnlySetUp.foldl (fun t p => setUp_modChiplet t p _) act s).trans (.foldl (fun t p => setUp_modChiplet t p _) _ s1)
  have h3 : OnlySetUp s2 s3 := rfl
  have h5 : OnlySetUp s3 s5 := (setUp_bootSet s3 ..).trans (.foldl (fun t e => setUp_bootSet t ..) more s4)
  have h7 : OnlySetUp s6 s7 := by
    unfold s7
    split
    · exact setUp_power s6 _
    · exact .refl s6
  exact (((h2.trans h3).trans h5).trans (setUp_power s5 _)).trans (h7.trans (setUp_publication s7 _))

/-- Firmware's work after a reset, if an image is valid. -/
theorem setUp_ifFirmware (s : State) : OnlySetUp s (if s.imageUsed.valid then s.firmware else s) := by
  split
  · exact setUp_firmware s
  · exact .refl s

end State

/-- A key that a filter refuses is not listed after it. -/
theorem tget?_filter_none {α : Type} {p : Nat × α → Bool} {n : Nat} (h : ∀ v, p (n, v) = false) (l : List (Nat × α)) :
    tget? (l.filter p) n = none := by
  induction l with
  | nil => rfl
  | cons e t ih =>
    obtain ⟨k, v⟩ := e
    rw [List.filter_cons]
    split
    · rename_i hk
      have hne : k ≠ n := by rintro rfl; simp [h v] at hk
      simp [tget?, hne, ih]
    · exact ih

/-- Firmware's work after the reset touches nothing of what the reset restores. -/
theorem packageReset_restores (s : State) : ∃ u, exec .packageReset s = .next u ∧ u.dead = false ∧ u.imageA = s.imageA ∧
    u.imageB = s.imageB ∧ u.logSlots = s.logSlots ∧ u.logChannels = s.logChannels ∧ u.groups = [] ∧ u.now = 0 ∧
    ∀ p, isDevice p = true → u.memByte p = 0 := by
  refine ⟨_, rfl, ?_⟩
  have h := s.afterReset.setUp_ifFirmware
  generalize (if s.afterReset.imageUsed.valid then s.afterReset.firmware else s.afterReset) = u at h ⊢
  unfold OnlySetUp at h
  rw [h]
  refine ⟨rfl, rfl, rfl, rfl, rfl, rfl, rfl, fun p hp => ?_⟩
  exact congrArg (Option.getD · 0) (tget?_filter_none (by simp [hp]) s.mem)

/-! ## What the statements say of the package -/

/-- Settles O58, clause by clause from the lemmas above. -/
theorem managementEvents : Obligations.ManagementEvents :=
  ⟨negotiateFeatures_commands,
   fun s _ _ h hst => s.mailEnd_failed_negotiation h hst,
   loadQueueContext_commands,
   fun _ _ hm hop hr => updateConfigurationImage_of_nextMail hm hop hr,
   fenceChipletForService_commands,
   setErrorRing_commands,
   fun _ _ _ he hcore hready hms => coreWatchdogExpiry_fences he hcore hready hms,
   fun _ _ _ => rfl,
   fun _ _ _ _ hc hl hk hr => State.loseCohort_rerun hc hl hk hr,
   fun _ _ h => chipletPowerOff_fenced h,
   fun _ _ _ _ _ hp _ hoff hne hspare hlog => spareMapIn_maps hp hoff hne hspare hlog,
   registerWrite_effects,
   barWord_values,
   fun s _ h => scaleupPorts_commit s h,
   fun _ _ _ _ data hpeer hport hsize hmax hline hset hoff =>
     scaleupPeerAccess_performed data hpeer hport hsize hmax hline hset hoff,
   fun _ _ hlo hhi => congrArg Host.Outcome.next (if_pos (by simp [hlo, hhi])),
   packageReset_restores,
   fun s l hlen hl => ⟨(s.catWord_commit_gen hlen hl).1, (s.catWord_commit_gen hlen hl).2, rfl, rfl, s.shown_after_commit l⟩,
   fun _ _ _ h => State.publishWord_cons h⟩

/-- At reset every queue is disabled, and every cluster has pass count code 0 and no droop (04 R103, 15 R397). -/
theorem reset_queues_and_clusters :
    (∀ q, (State.reset.queue q).enable = false) ∧
    ∀ k, (State.reset.cluster k).pass = 0 ∧ (State.reset.cluster k).droop = .idle :=
  ⟨fun _ => rfl, fun _ => ⟨rfl, rfl⟩⟩

/-- Settles O59: each value is read off the state at reset. -/
theorem resetValues : Obligations.ResetValues := by
  obtain ⟨hqueues, hclusters⟩ := reset_queues_and_clusters
  refine ⟨rfl, rfl, rfl, rfl, rfl, reset_memory_wf, rfl, rfl, rfl, rfl, rfl, rfl, rfl, rfl, rfl, rfl, rfl, rfl, rfl, rfl, rfl,
    rfl, rfl, rfl, rfl, rfl, rfl, rfl, ?_, hqueues, hclusters⟩
  decide

end Sys2Proof.Machine
end

section
/-! SUPPORT. Encoding: a word is its fields put together again, an opcode names an instruction exactly where it is not reserved,
and every row of the opcode table is read back (02 R35, R36, R51, R53). -/

namespace Sys2Proof

/-! ## Words from their fields (02 R35, R36) -/

/-- Two fields that lie side by side in a word are one field. -/
theorem join_cut {n : Nat} (x : BitVec n) {lo m k hi : Nat} (h : hi = lo + k) :
    x.extractLsb' hi m ++ x.extractLsb' lo k = x.extractLsb' lo (m + k) := by
  subst h
  ext i hi
  by_cases hik : i < k
  · simp [BitVec.getElem_append, hik]
  · simp [BitVec.getElem_append, hik, show lo + k + (i - k) = lo + i by omega]

theorem sched_toBits_ofWord (x : W64) : (Sched.ofWord x).toBits = x.extractLsb' 52 12 := by
  simp (disch := rfl) only [Sched.toBits, Sched.ofWord, bits, join_cut]

theorem vword_toWord_ofWord (x : W64) : (VWord.ofWord x).toWord (bits x 0 8) = x := by
  have h : (VWord.ofWord x).toWord (bits x 0 8) = x.extractLsb' 0 64 := by
    simp (disch := rfl) only [VWord.toWord, VWord.ofWord, sched_toBits_ofWord, bits, join_cut]
  exact h.trans (cut_all x)

theorem iword_toWord_ofWord (x : W64) : (IWord.ofWord x).toWord (bits x 0 8) = x := by
  have h : (IWord.ofWord x).toWord (bits x 0 8) = x.extractLsb' 0 64 := by
    simp (disch := rfl) only [IWord.toWord, IWord.ofWord, sched_toBits_ofWord, bits, join_cut]
  exact h.trans (cut_all x)

theorem mword_toWord_ofWord (x : W64) : (MWord.ofWord x).toWord (bits x 0 8) = x := by
  have h : (MWord.ofWord x).toWord (bits x 0 8) = x.extractLsb' 0 64 := by
    simp (disch := rfl) only [MWord.toWord, MWord.ofWord, sched_toBits_ofWord, bits, join_cut]
  exact h.trans (cut_all x)

theorem kword_toWord_ofWord (x : W64) : (KWord.ofWord x).toWord (bits x 0 8) = x := by
  have h : (KWord.ofWord x).toWord (bits x 0 8) = x.extractLsb' 0 64 := by
    simp (disch := rfl) only [KWord.toWord, KWord.ofWord, sched_toBits_ofWord, bits, join_cut]
  exact h.trans (cut_all x)

theorem low_byte_of_opcode (x : W64) : bits x 0 8 = BitVec.ofNat 8 (opcode x) := by
  apply BitVec.eq_of_toNat_eq
  simp [opcode, BitVec.extractLsb']

/-! ## Opcodes (02 R51, R53) -/

/-- The formats of words (02 R36), and the two words of ILL, whose other bits are one field (02 R54). -/
inductive WordFormat where
  | v
  | i
  | m
  | k
  | ill

/-- The format of the words of an opcode (02 R51). -/
def formatOf (n : Nat) : WordFormat :=
  if n ∈ [0x02, 0x04, 0x08, 0x0D] then .k
  else if n ∈ [0x90, 0x91, 0x98, 0x99, 0x9A] then .m
  else if n ∈ [0x13, 0x14, 0x22, 0x43, 0x44, 0x4C, 0x4D, 0x4E, 0x88, 0x89, 0x8A, 0xE0, 0xE1, 0xE2, 0xE7, 0xEA] then .i
  else if n ∈ [0x00, 0xFF] then .ill
  else .v

/-- The fields of a word in a format, put together under an opcode. -/
def WordFormat.word (x : W64) (op : BitVec 8) : WordFormat → W64
  | .v => (VWord.ofWord x).toWord op
  | .i => (IWord.ofWord x).toWord op
  | .m => (MWord.ofWord x).toWord op
  | .k => (KWord.ofWord x).toWord op
  | .ill => bits x 8 56 ++ op

/-- Whatever the format, the fields of a word put together under its own opcode are the word. -/
theorem WordFormat.word_self (x : W64) (f : WordFormat) : f.word x (bits x 0 8) = x := by
  cases f with
  | v => exact vword_toWord_ofWord x
  | i => exact iword_toWord_ofWord x
  | m => exact mword_toWord_ofWord x
  | k => exact kword_toWord_ofWord x
  | ill => exact (join_cut x rfl).trans (cut_all x)

/-- A statement about every byte is one about each pair of its two hexadecimal digits. -/
theorem forall_byte_of_digits {p : Nat → Prop} (h : ∀ a, a < 16 → ∀ b, b < 16 → p (16 * a + b)) : ∀ n, n < 256 → p n := by
  intro n hn
  have hdigits := h (n / 16) (by omega) (n % 16) (by omega)
  rwa [Nat.div_add_mod] at hdigits

/-- A statement about every hexadecimal digit is sixteen statements. -/
theorem forall_digit {p : Nat → Prop} (h0 : p 0) (h1 : p 1) (h2 : p 2) (h3 : p 3) (h4 : p 4) (h5 : p 5) (h6 : p 6)
    (h7 : p 7) (h8 : p 8) (h9 : p 9) (hA : p 10) (hB : p 11) (hC : p 12) (hD : p 13) (hE : p 14) (hF : p 15) :
    ∀ d, d < 16 → p d
  | 0, _ => h0 | 1, _ => h1 | 2, _ => h2 | 3, _ => h3 | 4, _ => h4 | 5, _ => h5 | 6, _ => h6 | 7, _ => h7
  | 8, _ => h8 | 9, _ => h9 | 10, _ => hA | 11, _ => hB | 12, _ => hC | 13, _ => hD | 14, _ => hE | 15, _ => hF
  | _ + 16, h => absurd h (by omega)

/-- What an opcode and a word name together is encoded by the word's fields in the opcode's format: a reserved opcode names
nothing, and opcodes shared by two or three rows name one of them. -/
theorem encode?_of_fieldsAt (x : W64) (i : Instr) : ∀ n, n < 256 → fieldsAt n x = some i →
    encode? i = some ((formatOf n).word x (BitVec.ofNat 8 n)) := by
  refine forall_byte_of_digits (forall_digit ?_ ?_ ?_ ?_ ?_ ?_ ?_ ?_ ?_ ?_ ?_ ?_ ?_ ?_ ?_ ?_)
  all_goals refine forall_digit ?_ ?_ ?_ ?_ ?_ ?_ ?_ ?_ ?_ ?_ ?_ ?_ ?_ ?_ ?_ ?_
  all_goals intro h
  all_goals cases h
  all_goals repeat' split
  all_goals rfl

/-- The opcodes without a row are the reserved ones, whatever the other bits. -/
theorem fieldsAt_eq_none_iff (x : W64) : ∀ n, n < 256 → (fieldsAt n x = none ↔
    (0x15 ≤ n ∧ n ≤ 0x1F) ∨ n = 0x4F ∨ (0x6D ≤ n ∧ n ≤ 0x7F) ∨ (0x8C ≤ n ∧ n ≤ 0x8F) ∨ n = 0x9F ∨
    (0xA7 ≤ n ∧ n ≤ 0xAF) ∨ (0xB9 ≤ n ∧ n ≤ 0xBF) ∨ (0xCE ≤ n ∧ n ≤ 0xDF) ∨ (0xEB ≤ n ∧ n ≤ 0xFE)) := by
  simp only [← Option.isNone_iff_eq_none]
  refine forall_byte_of_digits (forall_digit ?_ ?_ ?_ ?_ ?_ ?_ ?_ ?_ ?_ ?_ ?_ ?_ ?_ ?_ ?_ ?_)
  all_goals refine forall_digit ?_ ?_ ?_ ?_ ?_ ?_ ?_ ?_ ?_ ?_ ?_ ?_ ?_ ?_ ?_ ?_
  all_goals exact of_decide_eq_true rfl

theorem decodeWord_eq_illegalOpcode_iff (x : W64) : decodeWord x = .error .illegalOpcode ↔ fields x = none := by
  unfold decodeWord
  cases fields x with
  | none => simp
  | some i =>
    cases hs : shape i with
    | none => simp [hs]
    | some p => cases hp : p.ok <;> simp [hs, hp]

theorem fields_of_decodeWord {x : W64} {i : Instr} (h : decodeWord x = .ok i) : fields x = some i := by
  unfold decodeWord at h
  split at h
  · cases h
  · rename_i j hf
    split at h
    · cases h; exact hf
    · split at h
      · cases h; exact hf
      · cases h

end Sys2Proof

namespace Sys2Proof.Laws

/-- Every row of the tables is read back: an event has no word, and each word form by the law of its own. -/
theorem Fields.statement (i : Instr) : Fields.Statement i := by
  cases i with
  | ill high rest => exact Fields.ill high rest | nop w => exact Fields.nop w | bra w => exact Fields.bra w
  | brx w => exact Fields.brx w | call w => exact Fields.call w | callx w => exact Fields.callx w
  | ret w => exact Fields.ret w | exit w => exact Fields.exit w | meet w => exact Fields.meet w
  | meetx w => exact Fields.meetx w | meetclr w => exact Fields.meetclr w | yield w => exact Fields.yield w
  | qhelp w => exact Fields.qhelp w | succ w => exact Fields.succ w | succx w => exact Fields.succx w
  | refill w => exact Fields.refill w | bars w => exact Fields.bars w | bara w => exact Fields.bara w
  | barw w => exact Fields.barw w | trap w => exact Fields.trap w | bkpt w => exact Fields.bkpt w
  | iadd w => exact Fields.iadd w | isub w => exact Fields.isub w | iaddi w => exact Fields.iaddi w
  | imul w => exact Fields.imul w | imulh w => exact Fields.imulh w | imad w => exact Fields.imad w
  | idiv w => exact Fields.idiv w | irem w => exact Fields.irem w | imin w => exact Fields.imin w
  | imax w => exact Fields.imax w | iabs w => exact Fields.iabs w | ineg w => exact Fields.ineg w
  | iadds w => exact Fields.iadds w | isubs w => exact Fields.isubs w | iavg w => exact Fields.iavg w
  | icmp w => exact Fields.icmp w | and w => exact Fields.and w | or w => exact Fields.or w | xor w => exact Fields.xor w
  | not w => exact Fields.not w | andn w => exact Fields.andn w | orn w => exact Fields.orn w | shl w => exact Fields.shl w
  | shr w => exact Fields.shr w | sar w => exact Fields.sar w | rot w => exact Fields.rot w | fshf w => exact Fields.fshf w
  | clz w => exact Fields.clz w | ffs w => exact Fields.ffs w | popc w => exact Fields.popc w | brev w => exact Fields.brev w
  | bfx w => exact Fields.bfx w | bfi w => exact Fields.bfi w | sel w => exact Fields.sel w | mov w => exact Fields.mov w
  | movi w => exact Fields.movi w | movhi w => exact Fields.movhi w | lea w => exact Fields.lea w
  | iext w => exact Fields.iext w | iextWide w => exact Fields.iextWide w | pack w => exact Fields.pack w
  | unpk w => exact Fields.unpk w | bytep w => exact Fields.bytep w | idot4 w => exact Fields.idot4 w
  | idot2 w => exact Fields.idot2 w | shli w => exact Fields.shli w | shri w => exact Fields.shri w
  | sari w => exact Fields.sari w | fadd w => exact Fields.fadd w | fsub w => exact Fields.fsub w
  | fmul w => exact Fields.fmul w | fma w => exact Fields.fma w | fmin w => exact Fields.fmin w
  | fmax w => exact Fields.fmax w | fabs w => exact Fields.fabs w | fneg w => exact Fields.fneg w
  | fcmp w => exact Fields.fcmp w | frcp w => exact Fields.frcp w | frsq w => exact Fields.frsq w
  | fsqrt w => exact Fields.fsqrt w | fdiv w => exact Fields.fdiv w | fexp2 w => exact Fields.fexp2 w
  | flog2 w => exact Fields.flog2 w | fsin w => exact Fields.fsin w | fcos w => exact Fields.fcos w
  | ftanh w => exact Fields.ftanh w | fclass w => exact Fields.fclass w | frnd w => exact Fields.frnd w
  | cvtf w => exact Fields.cvtf w | cvtfWide w => exact Fields.cvtfWide w | cvti w => exact Fields.cvti w
  | icvtf w => exact Fields.icvtf w | scacc w => exact Fields.scacc w | scalex w => exact Fields.scalex w
  | bfppack w => exact Fields.bfppack w | bfppackScale w => exact Fields.bfppackScale w | bfpunpk w => exact Fields.bfpunpk w
  | fdot2 w => exact Fields.fdot2 w | fdot4 w => exact Fields.fdot4 w | lanesel w => exact Fields.lanesel w
  | qswap w => exact Fields.qswap w | qbcast w => exact Fields.qbcast w | vote w => exact Fields.vote w
  | red w => exact Fields.red w | scanx w => exact Fields.scanx w | matchLanes w => exact Fields.matchLanes w
  | elect w => exact Fields.elect w | rclaim w => exact Fields.rclaim w | rgive w => exact Fields.rgive w
  | rtry w => exact Fields.rtry w | rcount w => exact Fields.rcount w | ld w => exact Fields.ld w | st w => exact Fields.st w
  | ldt w => exact Fields.ldt w | atom w => exact Fields.atom w | atomcas w => exact Fields.atomcas w
  | redm w => exact Fields.redm w | stmc w => exact Fields.stmc w | strd w => exact Fields.strd w
  | pref w => exact Fields.pref w | ldacq w => exact Fields.ldacq w | strel w => exact Fields.strel w
  | fence w => exact Fields.fence w | sigclr w => exact Fields.sigclr w | walk w => exact Fields.walk w
  | cinv w => exact Fields.cinv w | wait w => exact Fields.wait w | flagrd w => exact Fields.flagrd w
  | flagrdCnt w => exact Fields.flagrdCnt w | boinit w => exact Fields.boinit w | boarr w => exact Fields.boarr w
  | boread w => exact Fields.boread w | time w => exact Fields.time w | cycle w => exact Fields.cycle w
  | cpy w => exact Fields.cpy w | cpymc w => exact Fields.cpymc w | cbres w => exact Fields.cbres w
  | cbcommit w => exact Fields.cbcommit w | cbacq w => exact Fields.cbacq w | cbrel w => exact Fields.cbrel w
  | cbinit w => exact Fields.cbinit w | lkqPush w => exact Fields.lkqPush w | lkqLen w => exact Fields.lkqLen w
  | cpyq w => exact Fields.cpyq w | tcfgw w => exact Fields.tcfgw w | tcfgr w => exact Fields.tcfgr w
  | tload w => exact Fields.tload w | tstore w => exact Fields.tstore w | tzero w => exact Fields.tzero w
  | tzeroM w => exact Fields.tzeroM w | mma w => exact Fields.mma w | mmas w => exact Fields.mmas w
  | mmbfp w => exact Fields.mmbfp w | accrd w => exact Fields.accrd w | accwr w => exact Fields.accwr w
  | tokgive w => exact Fields.tokgive w | toktake w => exact Fields.toktake w | cvdecl w => exact Fields.cvdecl w
  | cvq w => exact Fields.cvq w | capq w => exact Fields.capq w | sread w => exact Fields.sread w
  | swrite w => exact Fields.swrite w | eret w => exact Fields.eret w | pmack w => exact Fields.pmack w
  | leaseq w => exact Fields.leaseq w | boost w => exact Fields.boost w | boostQuery w => exact Fields.boostQuery w
  | boostRelease w => exact Fields.boostRelease w | pricls w => exact Fields.pricls w | fevq w => exact Fields.fevq w
  | tlbinv w => exact Fields.tlbinv w | tlbinvAsid w => exact Fields.tlbinvAsid w | hcall w => exact Fields.hcall w
  | _ => exact rfl

end Sys2Proof.Laws

namespace Sys2Proof

/-! ## What the statements say of encoding -/

/-- Settles O2: each row of the opcode table by its own law. -/
theorem encodedWordsDecodeBack : Obligations.EncodedWordsDecodeBack := by
  intro i x hx hw
  have h := Laws.Fields.statement i
  simp only [Laws.Fields.Statement, hx] at h
  exact h hw

/-- Settles O3: a word is its fields put together again. -/
theorem decodedWordsEncodeBack : Obligations.DecodedWordsEncodeBack := by
  intro x i h
  have hop : opcode x < 256 := Nat.mod_lt _ (by decide)
  have hword := encode?_of_fieldsAt x i (opcode x) hop (fields_of_decodeWord h)
  rwa [← low_byte_of_opcode, WordFormat.word_self] at hword

/-- Settles O4: an opcode names no instruction exactly where it is reserved. -/
theorem reservedOpcodesRejected : Obligations.ReservedOpcodesRejected := fun x =>
  ((decodeWord_eq_illegalOpcode_iff x).trans (fieldsAt_eq_none_iff x (opcode x) (Nat.mod_lt _ (by decide)))).symm

/-- Settles O1: each word decodes by evaluation. -/
theorem writtenWordsDecode : Obligations.WrittenWordsDecode :=
  ⟨rfl, rfl, rfl, rfl, rfl, rfl, rfl, rfl, rfl⟩

end Sys2Proof
end

section
/-! SUPPORT. The step at an issue, and the trap of a word that its checks turn away (02 R31, R55, 04 R102, 15 R419). -/

namespace Sys2Proof.Machine

/-! ## Words that are turned away (02 R31, R55) -/

/-- The meaning of every instruction that has a word is an issue. -/
theorem exec_eq_runWord {i : Instr} {x : W64} (h : encode? i = some x) : ∃ body, ∀ s, exec i s = runWord i body s := by
  delta exec
  cases i
  all_goals cases h
  all_goals exact ⟨_, fun _ => rfl⟩

/-- What a group belongs to at the start of a word's effect. -/
theorem owner?_issued (i : Instr) {s : State} {gid : Nat} {o : Owner} (r : Run) (h : s.owner? gid = some o) :
    (issued i s gid o r).owner? gid =
      some { o with g := { o.g with run := some { r with yh := r.yh || (schedOf i).yh == 1 } } } := by
  obtain ⟨ht, hg, -⟩ := issued_spec i s (r := r) h
  obtain ⟨-, hb, hc, hl⟩ := owner?_group h
  have e := ht.eq
  have eb : (issued i s gid o r).block? o.g.block = some o.b := by rw [e]; exact hb
  have ec : (issued i s gid o r).cohort? o.b.cohort = some o.c := by rw [e]; exact hc
  have el : (issued i s gid o r).launch? o.c.launch = some o.l := by rw [e]; exact hl
  unfold State.owner?
  rw [hg]
  simp only [Option.bind_eq_bind, Option.bind_some, eb, ec, el]

/-- A terminal trap of a group whose clause is in progress ends its launch as TRAPPED. -/
theorem deliver_running_ends {t : State} {gid : Nat} {o : Owner} {q : Run} {tr : Trap}
    (h : t.owner? gid = some { o with g := { o.g with run := some q } }) (ht : t.terminal o tr.code = true) :
    t.deliver gid tr = t.endLaunch o.c.launch 8 tr.code := by
  unfold State.deliver
  rw [h]
  exact if_pos (show t.terminal { o with g := { o.g with run := some q } } tr.code = true from ht)

/-- Any other enters its handler, the clause in progress left. -/
theorem deliver_running_enters {t : State} {gid : Nat} {o : Owner} {q : Run} {tr : Trap}
    (h : t.owner? gid = some { o with g := { o.g with run := some q } }) (ht : t.terminal o tr.code = false) :
    TrapTaken t (t.deliver gid tr) gid o tr := by
  obtain ⟨hrest, hothers, hgroup⟩ := deliver_spec tr true h ht
  exact ⟨hrest, hothers, hgroup⟩

theorem issueFault_owner {i : Instr} {s : State} {x : Cause} {gid : Nat} {o : Owner} {r : Run}
    (h : issueFault i s = some (x, gid, o, r)) : s.owner? gid = some o := by
  unfold issueFault at h
  split at h
  · cases h
  · rename_i ha
    obtain ⟨_, -, e⟩ := Option.map_eq_some_iff.1 h
    cases e
    exact (atIssue_spec ha).2.1

/-- Settles O25: the word is an issue, and its issue is the trap at itself. -/
theorem brokenChecksTrap : Obligations.BrokenChecksTrap := by
  intro i s x gid o r h ⟨y, hy⟩
  obtain ⟨body, hexec⟩ := exec_eq_runWord hy
  have ho := issueFault_owner h
  have htrap : exec i s = .next ((issued i s gid o r).deliver gid
      ⟨x.code, wordAddr r.caddr r.idx, r.caddr, x.faddr, x.info, wordAddr r.caddr r.idx, r.caddr, r.set⟩) := by
    rw [hexec, runWord_issueFault h]
    unfold State.trapWord
    rw [(issued_spec i s (r := r) ho).2.1]
    rfl
  have hrun := owner?_issued i r ho
  exact ⟨fun ht => htrap.trans (congrArg _ (deliver_running_ends hrun ht)),
    fun ht => ⟨_, htrap, deliver_running_enters hrun ht⟩⟩

/-! ## The step at an issue (02 R24, 04 R102) -/

/-- What a table lists for a key is an entry of it. -/
theorem mem_of_tget? {α : Type} {t : List (Nat × α)} {n : Nat} {v : α} (h : tget? t n = some v) : (n, v) ∈ t := by
  induction t with
  | nil => cases h
  | cons e t ih =>
    obtain ⟨k, w⟩ := e
    unfold tget? at h
    split at h
    · rename_i hk
      cases h
      exact hk ▸ List.mem_cons_self ..
    · exact List.mem_cons_of_mem _ (ih h)

theorem groupsOf_shut {s : State} (h : ∀ e ∈ s.groups, e.2.shut = false) (bid : Nat) :
    ((s.groupsOf bid).any fun g => g.2.shut) = false := by
  rw [List.any_eq_false]
  intro e he
  unfold State.groupsOf at he
  split at he
  · cases he
  · obtain ⟨i, -, hi⟩ := List.mem_filterMap.1 he
    obtain ⟨g, hg, rfl⟩ := Option.map_eq_some_iff.1 hi
    simpa using h _ (mem_of_tget? hg)

/-- With no held group, nothing is brought about in a block. -/
theorem settleHeld_of_none_shut {s : State} (h : ∀ e ∈ s.groups, e.2.shut = false) : s.settleHeld = s := by
  unfold State.settleHeld
  generalize s.blocks = l
  induction l with
  | nil => rfl
  | cons e t ih =>
    rw [List.foldl_cons, groupsOf_shut h e.1]
    exact ih

theorem nextWord_of_run {t : State} {gid : Nat} {o : Owner} {r : Run} {x : W64} {i : Instr} (ho : t.owner? gid = some o)
    (hr : o.g.run = some r) (hx : r.words[r.idx]? = some x) (hi : fields x = some i) :
    t.nextWord gid = some (o, r, x, i) := by
  unfold State.nextWord
  simp only [ho, hr, hx, hi, Option.bind_eq_bind, Option.bind_some]

/-- The issue of a group that may issue begins with the word that comes next. -/
theorem prepareIssue_of_mayIssue {t : State} {gid : Nat} {o : Owner} {r : Run} {x : W64} {i : Instr}
    (hn : t.nextWord gid = some (o, r, x, i)) (hm : t.mayIssue o r x gid = true) :
    t.prepareIssue gid = some ({ t with issuing := some gid }, i) := by
  unfold State.prepareIssue
  rw [hn]
  exact if_pos hm

/-- The turn of an issue at the head of the agenda, where it begins. -/
theorem turn_of_issue {s t : State} {gid : Nat} {rest : List Event} {i : Instr} (ha : s.caughtUp.agenda = .issue gid :: rest)
    (hd : s.caughtUp.dead = false)
    (hp : State.prepareIssue { s.caughtUp with agenda := rest, choice := s.caughtUp.choice + 1 } gid = some (t, i)) :
    s.turn = .run i t := by
  have hn : s.caughtUp.nextEvent = (.issue gid, { s.caughtUp with agenda := rest, choice := s.caughtUp.choice + 1 }) := by
    unfold State.nextEvent
    rw [ha]
  have hs (e : Event) : s.caughtUp.stops e = false := by simp [State.stops, hd]
  unfold State.turn
  simp only [hn, hs, hp, Bool.false_eq_true, if_false]

/-- Settles O5: the turn of the step is the issue, whose word is performed. -/
theorem stepRunsTheIssuedWord : Obligations.StepRunsTheIssuedWord := by
  refine ⟨fun s gid rest o r x i ha hdead ho hr hx hi hmay => ?_, fun s h => settleHeld_of_none_shut h⟩
  let t : State := { s.caughtUp with agenda := rest, choice := s.caughtUp.choice + 1 }
  have hn : t.nextWord gid = some (o, r, x, i) := nextWord_of_run ho hr hx (fields_of_decodeWord hi)
  have hturn := turn_of_issue ha hdead (prepareIssue_of_mayIssue hn hmay)
  unfold step
  rw [hturn]

end Sys2Proof.Machine
end

section
/-! SUPPORT. The start of a clause, the words that are issued again, and the delivery of late faults (02 R24 to R33, R48, 04 R97
to R102). -/

namespace Sys2Proof.Machine

/-! ## The start of a clause (02 R31, 04 R99, R102) -/

theorem tget?_map {α β : Type} (f : α → β) (t : List (Nat × α)) (n : Nat) :
    tget? (t.map fun e => (e.1, f e.2)) n = (tget? t n).map f := by
  induction t with
  | nil => rfl
  | cons e t ih =>
    obtain ⟨k, v⟩ := e
    by_cases h : k = n <;> simp [tget?, h, ih]

/-- A group whose clause starts with an issue set, for the place of a thread: its ages, what it keeps of a blocked word and its
wait count (02 R24, 04 R99, R102). -/
def Group.chosen (g : Group) (set : List Nat) (t : Thread) : Group :=
  { (g.aged set).setKept (g.kept.filter fun x => t.resume.isSome && x.1 == t.pc) with waitCount := 0, yieldTo := [] }

/-- A group that lets another go first no longer (02 R47, 04 R115). -/
def Group.unyielded (gid : Nat) (g : Group) : Group := { g with yieldTo := g.yieldTo.filter (· != gid) }

/-- The state once a slot has chosen a group for the place of lane `i`, before the fetch of its clause (04 R102). -/
def chosenState (s : State) (gid islot gs : Nat) (o : Owner) (i : Nat) : State :=
  let s := s.modGroup gid fun g => g.chosen (o.g.issueSet i) (o.g.lane i)
  let s : State := { s with groups := s.groups.map fun (e : Nat × Group) => (e.1, e.2.unyielded gid) }
  s.modCore o.b.core fun x => { x with slots := x.slots.modify islot fun y => { y with last := tput y.last o.g.cls gs } }

theorem chosenState_rest (s : State) (gid islot gs : Nat) (o : Owner) (i : Nat) :
    let v := chosenState s gid islot gs o i
    v = { s with groups := v.groups, cores := v.cores } := by
  unfold chosenState State.modGroup
  split <;> rfl

theorem group?_chosenState {s : State} {gid : Nat} {o : Owner} (islot gs i : Nat) (h : s.group? gid = some o.g) :
    (chosenState s gid islot gs o i).group? gid = some (o.g.chosen (o.g.issueSet i) (o.g.lane i)) := by
  unfold chosenState
  rw [modGroup_eq _ h]
  exact (tget?_map (Group.unyielded gid) _ gid).trans (congrArg (Option.map (Group.unyielded gid)) (tget?_tput_same ..))

/-- The fault of the fetch of a chosen group's clause is delivered to its issue set (02 R31). -/
theorem startClause_of_fault {s : State} {gid islot gs i : Nat} {o : Owner} {x : Cause} {pc : W64} {whole : Bool}
    (h : fetchClause (chosenState s gid islot gs o i) o ((o.g.lane i).resume.getD (o.g.lane i).pc) = .fault x pc whole none) :
    startClause s gid islot gs o i = (chosenState s gid islot gs o i).deliver gid
      ⟨x.code, pc, (o.g.lane i).resume.getD (o.g.lane i).pc, x.faddr, x.info,
        if whole then (o.g.lane i).resume.getD (o.g.lane i).pc else pc, (o.g.lane i).resume.getD (o.g.lane i).pc,
        o.g.issueSet i⟩ false := by
  unfold startClause
  dsimp only
  split
  · rename_i e
    cases e.symm.trans h
    rfl
  · rename_i e
    cases e.symm.trans h

/-- From `s` to `u` nothing changes but cores. -/
def OnlyCores (s u : State) : Prop := ∃ cs, u = { s with cores := cs }

theorem OnlyCores.trans {s t u : State} (h : OnlyCores s t) (k : OnlyCores t u) : OnlyCores s u := by
  obtain ⟨_, rfl⟩ := h
  obtain ⟨_, rfl⟩ := k
  exact ⟨_, rfl⟩

theorem onlyCores_modCore (s : State) (n : Nat) (f : Core → Core) : OnlyCores s (s.modCore n f) := ⟨_, rfl⟩

/-- A fetch takes lines into the instruction cache (01 R12). -/
theorem onlyCores_fetched (s : State) (o : Owner) (a : Nat) : OnlyCores s (s.fetched o a) := by
  unfold State.fetched
  split
  · exact ⟨s.cores, rfl⟩
  · split
    · exact onlyCores_modCore ..
    · exact ⟨s.cores, rfl⟩

/-- The clause in progress of a chosen group, from word `j` on. -/
def startedRun (s : State) (o : Owner) (i : Nat) (h : W64) (ws : List W64) (j : Nat) : Run :=
  ⟨(o.g.lane i).resume.getD (o.g.lane i).pc, h, ws, j, o.g.issueSet i, (o.g.lane i).resume.isSome && (o.g.lane i).served,
    (s.cluster (clusterOf o.b.core)).cycles, some (passCount (s.cluster (clusterOf o.b.core))),
    ws.any fun x => (Sched.ofWord x).yh == 1, ws.any fun x => opcode x == 0x0B, []⟩

/-- A clause that has been fetched starts at its first word, or at the word at which its threads resume (02 R31, 17 R454). -/
theorem startClause_of_ok {s : State} {gid islot gs i : Nat} {o : Owner} {h : W64} {ws : List W64} {j : Nat}
    (hf : fetchClause (chosenState s gid islot gs o i) o ((o.g.lane i).resume.getD (o.g.lane i).pc) = .ok h ws)
    (hj : (o.g.lane i).resume = none ∧ j = 0 ∨ (o.g.lane i).resume.isSome = true ∧
      wordIndex ((o.g.lane i).resume.getD (o.g.lane i).pc) (o.g.lane i).pc ws.length = some j)
    (hg : s.group? gid = some o.g) :
    let v := chosenState s gid islot gs o i
    let u := startClause s gid islot gs o i
    u = { v with groups := u.groups, cores := u.cores } ∧
    u.group? gid = some { o.g.chosen (o.g.issueSet i) (o.g.lane i) with run := some (startedRun s o i h ws j) } := by
  intro v u
  let a := (o.g.lane i).resume.getD (o.g.lane i).pc
  have hat : (if (o.g.lane i).resume.isSome then wordIndex a (o.g.lane i).pc ws.length else some 0) = some j := by
    rcases hj with ⟨hn, rfl⟩ | ⟨hs, hj⟩
    · simp [hn]
    · rw [if_pos hs]; exact hj
  let w : State := ((v.fetched o a.toNat).fetched o (a.toNat + 8 * ws.length)).modCore o.b.core fun x =>
    { x with slots := x.slots.modify islot fun y => { y with cur := some gid } }
  have hu : u = w.modGroup gid fun g => { g with run := some (startedRun s o i h ws j) } := by
    show startClause s gid islot gs o i = _
    unfold startClause
    dsimp only
    split
    · rename_i e
      cases e.symm.trans hf
    · rename_i e
      cases e.symm.trans hf
      split
      · rename_i e
        cases e.symm.trans hat
      · rename_i e
        cases e.symm.trans hat
        rfl
  obtain ⟨cs, hw⟩ : OnlyCores v w :=
    ((onlyCores_fetched v o a.toNat).trans (onlyCores_fetched _ o _)).trans (onlyCores_modCore ..)
  have hwg : w.group? gid = some (o.g.chosen (o.g.issueSet i) (o.g.lane i)) := by
    rw [hw]
    exact group?_chosenState islot gs i hg
  rw [hu, modGroup_eq _ hwg]
  refine ⟨?_, State.group?_setGroup ..⟩
  rw [hw]
  rfl

theorem execClauseStart_of_choice {s : State} {core islot gs gid i : Nat} {o : Owner}
    (hcur : ((s.core core).slots.getD islot ⟨none, 0, []⟩).cur = none)
    (hfree : ((s.core core).slots.getD islot ⟨none, 0, []⟩).freeAt ≤ (s.cluster (clusterOf core)).cycles)
    (hc : choose s core islot = some (gs, gid)) (ho : s.owner? gid = some o) (hp : o.g.pick = some i) :
    exec (.clauseStart core islot) s = .next (startClause s gid islot gs o i) := by
  show execClauseStart core islot s = _
  unfold execClauseStart
  simp only [hcur, hc, ho, hp, Option.isSome_none, Bool.false_or, decide_eq_true_eq, if_neg (Nat.not_lt.2 hfree)]

/-! ## Words that are issued again (02 R24, R27, R48) -/

/-- A blocked group whose wait is over takes its free slot, and its word is issued again. -/
theorem reissued_resumeWord {s : State} {gid : Nat} {o : Owner} {b : Blocked} {r : Run} {holds : Owner → Blocked → Bool}
    (ho : s.owner? gid = some o) (hb : o.g.blocked = some b) (hr : o.g.run = some r) (hh : holds o b = true)
    (hu : undisturbed o.g = true) (hcur : (s.slotOfGroup o).cur = none)
    (hfree : (s.slotOfGroup o).freeAt ≤ (s.cluster (clusterOf o.b.core)).cycles) :
    Reissued s (resumeWord s gid holds) gid o b r := by
  let keep := match b with
    | .barrier _ _ | .wait _ => some (wordAddr r.caddr r.idx, b)
    | _ => o.g.kept
  let f (x : Core) : Core := { x with slots := x.slots.modify o.g.islot fun y => { y with cur := some gid } }
  let t := s.modCore o.b.core f
  let g : Group := { o.g with blocked := none, run := some { r with served := b != Blocked.slot } }
  have e : resumeWord s gid holds = { t.setGroup gid (g.setKept keep) with agenda := .issue gid :: s.agenda } := by
    unfold resumeWord
    simp only [ho, hb, hr, hh, hu, hcur, Bool.not_true, Option.isSome_none, Bool.false_or, decide_eq_true_eq,
      if_neg (Nat.not_lt.2 hfree)]
    rfl
  rw [e]
  obtain ⟨x, y, hk⟩ := setKept_eq g keep
  refine ⟨rfl, fun h hne => tget?_tput_other _ _ _ _ hne, ⟨g.setKept keep, State.group?_setGroup .., ?_⟩,
    fun k hk => core_modCore_other s _ k f hk, core_modCore_same s _ f⟩
  rw [hk]

/-- The DL delay of the next word of a group's clause is over (02 R48). -/
theorem issueDelayExpiry_issues {s : State} {g : Nat} {o : Owner} {r : Run} {x : W64} {i : Instr} {p : Nat}
    (hn : s.nextWord g = some (o, r, x, i)) (hdl : (Sched.ofWord x).dl ≠ 0) (hs : r.served = false) (hb : o.g.blocked = none)
    (hp : r.passes = some p)
    (hdue : r.since + (Sched.ofWord x).dl.toNat * p ≤ (s.cluster (clusterOf o.b.core)).cycles) :
    exec (.issueDelayExpiry g) s =
      .next { s.setGroup g { o.g with run := some { r with served := true } } with agenda := .issue g :: s.agenda } := by
  have hdl' : (Sched.ofWord x).dl.toNat ≠ 0 := fun h => hdl (BitVec.eq_of_toNat_eq h)
  show execIssueDelayExpiry g s = _
  unfold execIssueDelayExpiry
  simp [hn, hdl', hs, hb, hp, hdue]

theorem flagStallResume_reissues (s : State) (g : Nat) :
    Reissues (.flagStallResume g) s g fun o b => ∃ f, b = .flagFull f ∧ o.g.flag f < 63 := by
  rintro o b r ho hb hr ⟨f, rfl, hf⟩ hu hcur hfree
  exact ⟨_, rfl, reissued_resumeWord ho hb hr (decide_eq_true hf) hu hcur hfree⟩

theorem blockedWordResume_reissues (s : State) (g : Nat) :
    Reissues (.blockedWordResume g) s g fun o b => (∀ r d, b ≠ .buffer r d) ∧ blockOver s o b = true := by
  rintro o b r ho hb hr ⟨hbuf, hover⟩ hu hcur hfree
  refine ⟨_, ?_, reissued_resumeWord ho hb hr hover hu hcur hfree⟩
  have hg : (s.group? g).bind Group.blocked = some b := by rw [(owner?_group ho).1]; exact hb
  show execBlockedWordResume g s = _
  unfold execBlockedWordResume
  rw [hg]
  split
  · rename_i e
    exact absurd (Option.some.inj e) (hbuf _ _)
  · rfl

theorem blockedWordResume_of_buffer {s : State} {g : Nat} {x : Group} {r : Bool} {d : Nat} (hg : s.group? g = some x)
    (hb : x.blocked = some (.buffer r d)) : exec (.blockedWordResume g) s = .next (s.grantBuffers (g / 32) 64) := by
  show execBlockedWordResume g s = _
  unfold execBlockedWordResume
  rw [hg, Option.bind_some, hb]

/-! ## Late faults (02 R33, 17 R450) -/

/-- The owner of a group that is replaced by one of the same block. -/
theorem owner?_setGroup {s : State} {gid : Nat} {o : Owner} {g : Group} (h : s.owner? gid = some o) (hb : g.block = o.g.block) :
    (s.setGroup gid g).owner? gid = some { o with g := g } := by
  obtain ⟨-, eb, ec, el⟩ := owner?_group h
  have eb : (s.setGroup gid g).block? g.block = some o.b := by rw [hb]; exact eb
  have ec : (s.setGroup gid g).cohort? o.b.cohort = some o.c := ec
  have el : (s.setGroup gid g).launch? o.c.launch = some o.l := el
  unfold State.owner?
  simp only [State.group?_setGroup, Option.bind_eq_bind, Option.bind_some, eb, ec, el]

theorem pair_halves (v : W64) : pair (v.extractLsb' 0 32) (v.extractLsb' 32 32) = v :=
  (join_cut v rfl).trans (cut_all v)

/-- Outside a clause a late fault is delivered where its group stands, without a word to leave (02 R33). -/
theorem deliverLate_of_idle {s : State} {gid : Nat} {o : Owner} (t : Trap) (h : s.owner? gid = some o) (hr : o.g.run = none) :
    s.deliverLate gid t = if s.terminal o t.code then s.endLaunch o.c.launch 8 t.code
      else s.enterHandler gid o t true false t.set (State.standing o.g) fun i => (o.g.thread i).served := by
  have hu : s.unwind gid = s := by
    unfold State.unwind
    simp only [h, hr]
  unfold State.deliverLate
  rw [hu]
  simp only [h]

/-- A group whose oldest late fault is taken. -/
def Owner.lateTaken (o : Owner) (rest : List Trap) : Owner := { o with g := { o.g with late := rest } }

theorem execLateFaultDelivery_of_idle {s : State} {g : Nat} {o : Owner} {t : Trap} {rest : List Trap} (ho : s.owner? g = some o)
    (hl : o.g.late = t :: rest) (hr : o.g.run = none) :
    let v := s.setGroup g (o.lateTaken rest).g
    exec (.lateFaultDelivery g) s = .next (if s.terminal o t.code then v.endLaunch o.c.launch 8 t.code
      else v.enterHandler g (o.lateTaken rest) t true false t.set (State.standing o.g) fun i => (o.g.thread i).served) := by
  intro v
  have hd : deliverable o.g = true := by
    unfold deliverable
    rw [hr]
  have hlate : exec (.lateFaultDelivery g) s = .next (v.deliverLate g t) := by
    show execLateFaultDelivery g s = _
    unfold execLateFaultDelivery
    simp only [(owner?_group ho).1, hl, hd, Bool.not_true, Bool.false_eq_true, if_false]
    rfl
  exact hlate.trans (congrArg _ (deliverLate_of_idle t (owner?_setGroup (g := (o.lateTaken rest).g) ho rfl) hr))

/-- A late fault that is not terminal enters the handler, with the frames of where the threads stand (17 R450, R451). -/
theorem lateFaultDelivery_enters {s : State} {g : Nat} {o : Owner} {t : Trap} {rest : List Trap} (ho : s.owner? g = some o)
    (hl : o.g.late = t :: rest) (hr : o.g.run = none) (ht : s.terminal o t.code = false) :
    ∃ u h, exec (.lateFaultDelivery g) s = .next u ∧
      u = { s with groups := u.groups, cores := u.cores } ∧ u.group? g = some h ∧ h.handler = true ∧
      h.trapCause = BitVec.ofNat 64 (t.code + 256) ∧ h.trapPc = t.pc ∧ h.trapFaddr = t.faddr ∧ h.trapInfo = t.info ∧
      h.late = rest ∧ ∀ i ∈ t.set, i < 32 →
        pair (h.reg i 120) (h.reg i 121) = (o.g.thread i).pc ∧
        pair (h.reg i 122) (h.reg i 123) = (o.g.thread i).resume.getD (o.g.thread i).pc := by
  let o' := o.lateTaken rest
  let v := s.setGroup g o'.g
  have he : exec (.lateFaultDelivery g) s =
      .next (v.enterHandler g o' t true false t.set (State.standing o.g) fun i => (o.g.thread i).served) :=
    (execLateFaultDelivery_of_idle ho hl hr).trans (congrArg _ (if_neg (ne_true_of_eq_false ht)))
  obtain ⟨hone, h, hg, hcause, hpc, -, hfaddr, hinfo, -, hhandler, -, -, -, hregs, -, hrest⟩ :=
    enterHandler_spec v g o.b.core o' t true false t.set (State.standing o.g) fun i => (o.g.thread i).served
  refine ⟨_, h, he, ((oneGroup_setGroup s g o.b.core _).trans hone).eq, hg, hhandler, hcause, hpc, hfaddr, hinfo,
    congrArg Group.late hrest, fun i hi hlt => ?_⟩
  have hframe (r : Nat) : h.reg i r = frameReg (State.standing o.g i) r (o'.g.reg i r) :=
    (hregs i hlt r).trans (if_pos hi)
  rw [hframe, hframe, hframe, hframe]
  exact ⟨pair_halves _, pair_halves _⟩

/-! ## What the statement says of clauses -/

/-- Settles O50: the chosen group's clause starts or faults, each wait ends by an issue, and a late fault is delivered where its
group stands. -/
theorem clauseStartAndResume : Obligations.ClauseStartAndResume := by
  refine ⟨fun s core islot gs gid o i hcur hfree hc ho hp => ?_,
    fun _ _ _ _ _ _ _ hn hdl hs hb hp hdue => issueDelayExpiry_issues hn hdl hs hb hp hdue,
    flagStallResume_reissues, blockedWordResume_reissues, fun _ _ _ _ _ hg hb => blockedWordResume_of_buffer hg hb,
    fun _ _ _ _ _ ho hl hr =>
      ⟨fun ht => (execLateFaultDelivery_of_idle ho hl hr).trans (congrArg _ (if_pos ht)), lateFaultDelivery_enters ho hl hr⟩⟩
  have hg := (owner?_group ho).1
  have hexec := execClauseStart_of_choice hcur hfree hc ho hp
  refine ⟨chosenState s gid islot gs o i, chosenState_rest s gid islot gs o i, group?_chosenState islot gs i hg,
    fun h ws j hf hj => ?_, fun x pc whole hf => hexec.trans (congrArg _ (startClause_of_fault hf))⟩
  obtain ⟨hrest, hgroup⟩ := startClause_of_ok hf hj hg
  exact ⟨_, startedRun s o i h ws j, hexec, hrest, hgroup, rfl, rfl, rfl, rfl, rfl, Bool.and_eq_true_iff⟩

end Sys2Proof.Machine
end

section
/-! SUPPORT. The end of an operation whose group has ended before it: what its completion settles is the block of the operation
(12 R336, R350, 17 R457). -/

namespace Sys2Proof.Machine

/-- Nothing follows in a block that does not exist and that no cohort names. -/
theorem settle_of_no_block {s : State} {bid : Nat} (hb : s.block? bid = none)
    (hc : s.cohorts.find? (fun e => e.2.blocks.contains bid) = none) : s.settle bid = s := by
  have hloop : s.settleLoop bid 256 = s := by
    have honce : s.settleOnce bid = (s, false) := by
      unfold State.settleOnce
      rw [hb]
    unfold State.settleLoop
    rw [honce]
    rfl
  unfold State.settle
  rw [hloop]
  dsimp only
  rw [hb]
  dsimp only
  rw [hc]

/-- An operation of block 1 whose group has ended: it belongs to no group any longer (12 R336). -/
def orphanOp : Op :=
  { gid := 0, block := 1, core := 0, flag := none, pc := 0x10008, caddr := 0x10000, set := [], act := [], dest := 124
    kind := .plain, held := false }

/-- A cohort that is being pre-empted. Of the two groups of its block one has acknowledged and the other has ended, but for an
operation of its own, number 9, which alone the image of the block waits for (12 R350, 17 R457). -/
def awaitsOrphan : State :=
  let s := State.reset.loadWord 0
  let s := s.modBlock 1 fun b => { b with gslots := [0, 1] }
  let s := s.modGroup 32 fun g => { g with run := none, pmacked := true }
  let s := s.modCohort 1 fun c => { c with state := .preempting ⟨Cause.preempt, 0, 0, none⟩ }
  { s with ops := [(9, orphanOp)] }

/-- The next state has the first launch ended before its cohorts. -/
def endsFirstLaunch : Out → Bool
  | .next u => ((u.launch? 1).bind Launch.status).isSome
  | _ => false

/-- At the completion the image of the block is due, and as it has no place in the context store the launch ends (17 R457). -/
theorem awaitsOrphan_ends : endsFirstLaunch (exec (.longLatencyCompletion 9) awaitsOrphan) = true := by decide +kernel

/-- Refutes O39 in its first clause: the statement lets the end of operation 9 settle block `gid / 32`, which is no block for an
operation that has outlived its group, where the model settles the operation's own block and saves its cohort. -/
theorem not_operationsEnd : ¬ Obligations.OperationsEnd := by
  rintro ⟨hplain, -⟩
  obtain ⟨b, hexec, hfin⟩ := hplain awaitsOrphan 9 orphanOp rfl (.inl rfl)
  have hrest : b = { awaitsOrphan with groups := b.groups, ops := tdel awaitsOrphan.ops 9, clusters := b.clusters } := hfin.rest
  have hblocks : b.blocks = awaitsOrphan.blocks := by rw [hrest]
  have hcohorts : b.cohorts = awaitsOrphan.cohorts := by rw [hrest]
  have hlaunches : b.launches = awaitsOrphan.launches := by rw [hrest]
  have hsettle : b.settleGroup orphanOp.gid = b := by
    refine settle_of_no_block ?_ ?_
    · unfold State.block?
      rw [hblocks]
      rfl
    · rw [hcohorts]
      rfl
  have hends : ((tget? b.launches 1).bind Launch.status).isSome = true := by
    have h := awaitsOrphan_ends
    rwa [hexec, hsettle] at h
  rw [hlaunches] at hends
  exact absurd hends (by decide +kernel)

end Sys2Proof.Machine
end

section
/-! SUPPORT. Cross-lane words: what a word comes to by the outcome of its body, and the words that read lanes by number, that
compare the participants, and that reduce over them (05 R147 to R156). -/

namespace Sys2Proof.Machine

/-! ## The ends of a word, by the outcome of its body -/

theorem trap_eq (c : Ctx) (x : Cause) (s : State) : c.trap x s = .trap x c.here s := rfl

section
variable {i : Instr} {s t : State} {c : Ctx} {body : Ctx → State → WordOut} (h : issueOf i s = some (c, t))
  (he : exec i s = runWord i body s)
include h he

theorem exec_of_outcome {x : WordOut} (hb : body c t = x) : exec i s = .next (State.finishWord c.gid c.core x) := by
  rw [he, runWord_issueOf h body, hb]

theorem blocks_of_outcome {b : State} {k : Blocked} (hb : body c t = .block k b) : Blocks i s b c k :=
  exec_of_outcome h he hb

theorem completes_of_outcome {d : BitVec 7} {f : Nat → List W32} (hb : body c t = c.write t d f) : Completes i s c [] d f := by
  obtain ⟨u, hu, hw⟩ := runWord_write h body d f hb
  exact ⟨u, he.trans hu, hw⟩

theorem moves_of_outcome {g : Group} {r : Run} (hb : body c t = .done (t.setGroup c.gid g) []) (hg : g.block = c.o.g.block)
    (hr : g.run = some r) : ∃ u, exec i s = .next u ∧ MovedOn c (t.setGroup c.gid g) u [] :=
  ⟨_, exec_of_outcome h he hb, movedOn_setGroup h [] hg hr⟩

theorem settles_of_outcome {g : Group} {r : Run} (hb : body c t = .settle (t.setGroup c.gid g) []) (hg : g.block = c.o.g.block)
    (hr : g.run = some r) : ∃ u, exec i s = .next (u.settleGroup c.gid) ∧ MovedOn c (t.setGroup c.gid g) u [] :=
  ⟨_, exec_of_outcome h he hb, movedOn_setGroup h [] hg hr⟩

end

/-! ## Words that read other lanes (05 R149, R150, R155, R156) -/

theorem exec_lanesel (w : VWord) (s : State) : exec (.lanesel w) s = execLanesel w s := rfl
theorem exec_matchLanes (w : VWord) (s : State) : exec (.matchLanes w) s = execMatchLanes w s := rfl
theorem exec_elect (w : VWord) (s : State) : exec (.elect w) s = execElect w s := rfl
theorem exec_red (w : VWord) (s : State) : exec (.red w) s = execRed w s := rfl
theorem exec_scanx (w : VWord) (s : State) : exec (.scanx w) s = execScanx w s := rfl

/-- A form whose body only writes `f` from D completes with `f` as its whole effect. -/
theorem wordV_of_write {mk : VWord → Instr} {body : VWord → Ctx → State → WordOut} {f : VWord → Ctx → Nat → List W32}
    (he : ∀ w s, exec (mk w) s = runWord (mk w) (body w) s) (hb : ∀ w c s, body w c s = c.write s w.d (f w c)) :
    WordV mk f :=
  fun w s c t h => completes_of_outcome h (he w s) (hb w c t)

/-- The element that LANESEL takes is the one of that number, or 0 past the last (05 R149). -/
theorem selected_elem (t k a : Nat) :
    (if k < tyElems t then elemInt t ((elems (tyBits t) (32 * tyRegs t) a).getD k 0) else 0) =
      if k < tyElems t then elemInt t (elemOf (tyBits t) k a) else 0 := by
  split
  · rename_i hk
    rw [List.getD, get?_elems t a k hk, Option.getD_some]
  · rfl

theorem lanesel_writes : WordV .lanesel fun w c i =>
    let idx := (c.rd w.b i).toNat
    let a := numOf (c.laneOpnd w.ty w.a (idx / 8 % 32))
    regsOfNat (tyRegs w.ty) (wrapInt (32 * tyRegs w.ty)
      (if idx % 8 < tyElems w.ty then elemInt w.ty (elemOf (tyBits w.ty) (idx % 8) a) else 0)) := by
  refine wordV_of_write exec_lanesel fun w c s => ?_
  simp only [selected_elem]
  rfl

theorem matchLanes_writes : WordV .matchLanes fun w c i =>
    [if i ∈ c.real then laneMask (c.real.filter fun j => c.opnd w.ty w.a j == c.opnd w.ty w.a i) else 0] := by
  refine wordV_of_write exec_matchLanes fun w c s => ?_
  simp only [List.contains_iff_mem]

theorem elect_writes : WordV .elect fun w c i =>
    [if (if w.a.reg = 127 then c.real else c.real.filter fun j => (c.rd w.a j).getLsbD 0).head? = some i then 1 else 0] := by
  refine wordV_of_write exec_elect fun w c s => ?_
  simp only [beq_iff_eq]

/-- Settles O16: the lanes named by the word, or the participants, give what every Active lane writes. -/
theorem crossLaneWords : Obligations.CrossLaneWords :=
  ⟨lanesel_writes, wordV_of_write (fun _ _ => rfl) fun _ _ _ => rfl, wordV_of_write (fun _ _ => rfl) fun _ _ _ => rfl,
    wordV_of_write (fun _ _ => rfl) fun _ _ _ => rfl, matchLanes_writes, elect_writes⟩

/-! ## Reductions and scans (05 R152 to R154) -/

/-- Counting the events of a reduction leaves the groups and the places of blocks as they are (05 R152). -/
theorem keepsPlace_countKinds (c : Ctx) (s : State) (w : VWord) (l : List EventKind) : KeepsPlace s (c.countKinds s w l) := by
  unfold Ctx.countKinds
  split
  · exact .refl s
  · exact keepsPlace_countEvents ..

/-- A word that counts the events of a reduction and then writes `f` from D (05 R153, R154). -/
theorem wroteFrom_countKinds {i : Instr} {s t : State} {c : Ctx} {w : VWord} {body : Ctx → State → WordOut}
    {l : List EventKind} {f : Nat → List W32} (h : issueOf i s = some (c, t)) (he : exec i s = runWord i body s)
    (hb : body c t = c.write (c.countKinds t w l) w.d f) :
    ∃ u, exec i s = .next u ∧ WroteFrom c (c.countKinds t w l) u [] w.d f :=
  ⟨_, exec_of_outcome h he hb, wroteFrom_writeLanes h ((keepsPlace_countKinds c t w l).samePlace c) [] w.d f⟩

/-- Settles O17: after the events are counted, the tree, or what each lane has of those below it, is all that the word writes. -/
theorem reductionsAndScans : Obligations.ReductionsAndScans :=
  ⟨fun w s _ _ h => wroteFrom_countKinds h (exec_red w s) rfl, fun w s _ _ h => wroteFrom_countKinds h (exec_scanx w s) rfl⟩

end Sys2Proof.Machine
end

section
/-! SUPPORT. Register units: what RCLAIM, RGIVE, RTRY and RCOUNT come to, and the grants from the head of a claim queue (05 R138 to
R144). -/

namespace Sys2Proof.Machine

theorem exec_rclaim (w : IWord) (s : State) : exec (.rclaim w) s = execRclaim w s := rfl
theorem exec_rgive (w : IWord) (s : State) : exec (.rgive w) s = execRgive w s := rfl
theorem exec_rtry (w : IWord) (s : State) : exec (.rtry w) s = execRtry w s := rfl
theorem exec_rcount (w : VWord) (s : State) : exec (.rcount w) s = execRcount w s := rfl

/-! ## Allocations that grow and shrink (05 R133, R141, R143) -/

theorem tget?_filter_key {α : Type} (p : Nat → Bool) (t : List (Nat × α)) (n : Nat) :
    tget? (t.filter fun e => p e.1) n = if p n then tget? t n else none := by
  induction t with
  | nil => simp [tget?]
  | cons e t ih =>
    obtain ⟨k, v⟩ := e
    by_cases hk : k = n
    · subst hk
      cases hp : p k <;> simp [tget?, hp, ih]
    · cases hp : p k <;> simp [tget?, hp, hk, ih]

/-- The register table of a group whose registers from `lo` up to `hi` read 0. -/
def Group.zeroed (g : Group) (lo hi : Nat) : List (Nat × W32) :=
  g.regs.filter fun e => !(lo ≤ e.1 / 32 && e.1 / 32 < hi)

theorem Group.tgetD_zeroed (g : Group) (lo hi : Nat) {i : Nat} (h : i < 32) (r : Nat) :
    tgetD 0 (g.zeroed lo hi) (32 * r + i) = if lo ≤ r ∧ r < hi then 0 else g.reg i r := by
  have hr : (32 * r + i) / 32 = r := by omega
  unfold tgetD zeroed
  rw [tget?_filter_key (fun k => !(lo ≤ k / 32 && k / 32 < hi)), hr]
  by_cases hin : lo ≤ r ∧ r < hi
  · simp [hin]
  · rw [if_pos (by simp; omega), if_neg hin]
    rfl

/-- A group whose allocation has grown by `n` registers. -/
def Group.grown (g : Group) (n : Nat) : Group := { g with alloc := g.alloc + n, regs := g.zeroed g.alloc (g.alloc + n) }

/-- A group whose allocation has shrunk by `n` registers. -/
def Group.shrunk (g : Group) (n : Nat) : Group := { g with alloc := g.alloc - n, regs := g.zeroed (g.alloc - n) g.alloc }

/-- The group of a word at the start of its effect. -/
abbrev Ctx.started (c : Ctx) : Group := { c.o.g with run := some c.r }

theorem grown_issued (c : Ctx) (n : Nat) : Grown c n (c.started.grown n) :=
  ⟨rfl, fun _ hi r => Group.tgetD_zeroed c.o.g _ _ hi r⟩

theorem grow_issued {i : Instr} {s t : State} {c : Ctx} (h : issueOf i s = some (c, t)) (n : Nat) :
    c.grow t n = t.setGroup c.gid (c.started.grown n) :=
  modGroup_eq _ (issueOf_start h).2.1

/-! ## RCLAIM (05 R141) -/

section
variable {w : IWord} {s t : State} {c : Ctx} (h : issueOf (.rclaim w) s = some (c, t)) (hr : c.real ≠ [])
include h hr

theorem rclaim_granted (hn : c.o.g.alloc + w.imm.toNat ≤ 120)
    (hq : w.imm.toNat / 4 + (c.o.g.alloc / 4 + 1) ≤ c.quota t) (hroom : c.noClaims t = true ∧ w.imm.toNat / 4 ≤ c.free t) :
    ∃ g u, exec (.rclaim w) s = .next (u.settleGroup c.gid) ∧ Grown c w.imm.toNat g ∧
      MovedOn c (t.setGroup c.gid g) u [] := by
  obtain ⟨u, hu, hm⟩ := settles_of_outcome h (exec_rclaim w s)
    (g := c.started.grown w.imm.toNat) (by simp [hr, Nat.not_lt.2 hn, Nat.not_lt.2 hq, hroom, grow_issued h])
    rfl rfl
  exact ⟨_, u, hu, grown_issued c _, hm⟩

theorem rclaim_waits (hn : c.o.g.alloc + w.imm.toNat ≤ 120)
    (hq : w.imm.toNat / 4 + (c.o.g.alloc / 4 + 1) ≤ c.quota t) (hroom : ¬ (c.noClaims t = true ∧ w.imm.toNat / 4 ≤ c.free t)) :
    Blocks (.rclaim w) s (t.modQuota c.core c.lid fun q =>
      { q with claims := q.claims ++ [.group c.gid (w.imm.toNat / 4)] }) c (.claim (w.imm.toNat / 4)) :=
  blocks_of_outcome h (exec_rclaim w s) (by simp [hr, Nat.not_lt.2 hn, Nat.not_lt.2 hq, hroom])

theorem rclaim_traps_operand (hn : 120 < c.o.g.alloc + w.imm.toNat) :
    Traps (.rclaim w) s t c (Cause.operand w.imm.toNat) c.here :=
  runWord_traps h _ (by simp [hr, hn, trap_eq]) (exec_rclaim w s)

theorem rclaim_traps_quota (hn : c.o.g.alloc + w.imm.toNat ≤ 120)
    (hq : c.quota t < w.imm.toNat / 4 + (c.o.g.alloc / 4 + 1)) :
    Traps (.rclaim w) s t c ⟨Cause.registerDeadlock, BitVec.ofNat 64 (w.imm.toNat / 4), 0⟩ c.here :=
  runWord_traps h _ (by simp [hr, Nat.not_lt.2 hn, hq, trap_eq]) (exec_rclaim w s)

end

/-! ## The claims of a kernel on a core (05 R138) -/

theorem grantClaims_of_nil {s : State} {core lid : Nat} {q : Quota} (hq : s.quota? core lid = some q) (hc : q.claims = [])
    (n : Nat) : s.grantClaims core lid n = s := by
  cases n <;> simp [State.grantClaims, hq, hc]

theorem grantClaims_of_noClaims {s : State} {c : Ctx} (h : c.noClaims s = true) (n : Nat) :
    s.grantClaims c.core c.lid n = s := by
  unfold Ctx.noClaims at h
  cases hq : s.quota? c.core c.lid with
  | none => cases n <;> simp [State.grantClaims, hq]
  | some q => exact grantClaims_of_nil hq (by simpa [hq] using h) n

theorem grantClaims_of_group {s : State} {core lid gid units : Nat} {q : Quota} {rest : List Claim}
    (hq : s.quota? core lid = some q) (hc : q.claims = .group gid units :: rest) (n : Nat) :
    (s.freeUnits core lid < units → s.grantClaims core lid n = s) ∧
    (units ≤ s.freeUnits core lid → s.grantClaims core lid (n + 1) =
      ((s.modQuota core lid fun q => { q with claims := rest }).grantGroup gid units).grantClaims core lid n) := by
  refine ⟨fun h => ?_, fun h => by simp [State.grantClaims, hq, hc, h]⟩
  cases n <;> simp [State.grantClaims, hq, hc, Nat.not_le.2 h]

theorem grantClaims_of_formed {s : State} {core lid bid units : Nat} {q : Quota} {rest : List Claim}
    (hq : s.quota? core lid = some q) (hc : q.claims = .formed bid units :: rest) (n : Nat) :
    (s.freeUnits core lid < units → s.grantClaims core lid n = s) ∧
    (units ≤ s.freeUnits core lid → s.grantClaims core lid (n + 1) =
      ((s.modQuota core lid fun q => { q with claims := rest }).grantFormed bid).grantClaims core lid n) := by
  refine ⟨fun h => ?_, fun h => by simp [State.grantClaims, hq, hc, h]⟩
  cases n <;> simp [State.grantClaims, hq, hc, Nat.not_le.2 h]

theorem grantGroup_grows {s : State} {gid : Nat} {g : Group} (hg : s.group? gid = some g) (units : Nat) :
    s.grantGroup gid units = (s.setGroup gid (g.grown (4 * units))).advance gid [] :=
  congrArg (State.advance · gid []) (modGroup_eq _ hg)

/-- The formed group that holds a slot is the first that is granted. -/
theorem grantFormed_starts {s : State} {bid k : Nat} {b : Block} {pre post : List Formed} {f : Formed}
    (hb : s.block? bid = some b) (hf : b.forming = pre ++ f :: post) (hpre : ∀ x ∈ pre, x.slot = none) (hk : f.slot = some k) :
    s.grantFormed bid = (s.setBlock bid { b with forming := pre ++ post }).startFormed bid k f := by
  have hfind : b.forming.find? (fun x => x.slot.isSome) = some f := by
    have hnone : pre.find? (fun x => x.slot.isSome) = none := List.find?_eq_none.2 fun x hx => by simp [hpre x hx]
    rw [hf, List.find?_append, hnone]
    simp [hk]
  have herase : b.forming.erase f = pre ++ post := by
    have hmem : f ∉ pre := fun hx => by simp [hpre f hx] at hk
    rw [hf, List.erase_append_right _ hmem, List.erase_cons_head]
  unfold State.grantFormed State.modBlock
  simp [hb, hfind, herase, hk]

/-! ## RGIVE, RTRY and RCOUNT (05 R142 to R144) -/

theorem rgive_gives {w : IWord} {s t : State} {c : Ctx} (h : issueOf (.rgive w) s = some (c, t)) (hr : c.real ≠ [])
    (hf : c.o.g.flagsClear = true) (hn : w.imm.toNat ≤ c.o.g.alloc) (hc : c.noClaims t = true) :
    ∃ u, exec (.rgive w) s = .next (u.settleGroup c.gid) ∧
      MovedOn c (t.setGroup c.gid (c.started.shrunk w.imm.toNat)) u [] := by
  have hmod := modGroup_eq (fun g => { g with
    alloc := c.o.g.alloc - w.imm.toNat
    regs := g.zeroed (c.o.g.alloc - w.imm.toNat) c.o.g.alloc }) (issueOf_start h).2.1
  have hgrant := grantClaims_of_noClaims (s := t.setGroup c.gid (c.started.shrunk w.imm.toNat)) (c := c) hc 64
  refine settles_of_outcome h (exec_rgive w s) ?_ rfl rfl
  simp only [List.isEmpty_iff, hr, hf, Nat.not_lt.2 hn, Bool.not_true, Bool.false_eq_true, if_false]
  refine congrArg (WordOut.settle · []) (Eq.trans ?_ hgrant)
  exact congrArg (State.grantClaims · c.core c.lid 64) hmod

section
variable {w : IWord} {s t : State} {c : Ctx} (h : issueOf (.rtry w) s = some (c, t)) (hr : c.real ≠ [])
include h hr

theorem rtry_never (hfits : ¬ (c.o.g.alloc + w.imm.toNat ≤ 120 ∧ w.imm.toNat / 4 + (c.o.g.alloc / 4 + 1) ≤ c.quota t)) :
    Completes (.rtry w) s c [] w.d fun _ => [2] := by
  have hbig : 120 < c.o.g.alloc + w.imm.toNat ∨ c.quota t < w.imm.toNat / 4 + (c.o.g.alloc / 4 + 1) := by omega
  exact completes_of_outcome h (exec_rtry w s) (by simp [hr, hbig])

variable (hn : c.o.g.alloc + w.imm.toNat ≤ 120) (hq : w.imm.toNat / 4 + (c.o.g.alloc / 4 + 1) ≤ c.quota t)
include hn hq

theorem rtry_not_now (hroom : ¬ (c.noClaims t = true ∧ w.imm.toNat / 4 ≤ c.free t)) :
    Completes (.rtry w) s c [] w.d fun _ => [1] :=
  completes_of_outcome h (exec_rtry w s) (by simp [hr, Nat.not_lt.2 hn, Nat.not_lt.2 hq, hroom])

theorem rtry_granted (hroom : c.noClaims t = true ∧ w.imm.toNat / 4 ≤ c.free t) :
    ∃ g u, exec (.rtry w) s = .next u ∧ Grown c w.imm.toNat g ∧
      MovedOn c (t.setGroup c.gid (writeLanes g w.d (c.act.map fun i => (i, [0])))) u [] := by
  let g := c.started.grown w.imm.toNat
  obtain ⟨x, hx⟩ := writeLanes_eq w.d (c.act.map fun i => (i, [0])) g
  have hwrite : c.write (c.grow t w.imm.toNat) w.d (fun _ => [0]) =
      .done (t.setGroup c.gid (writeLanes g w.d (c.act.map fun i => (i, [0])))) [] := by
    unfold Ctx.write
    rw [grow_issued h, modGroup_eq _ (State.group?_setGroup ..)]
    unfold State.setGroup
    rw [tput_tput]
  obtain ⟨u, hu, hm⟩ := moves_of_outcome h (exec_rtry w s) (g := writeLanes g w.d (c.act.map fun i => (i, [0])))
    (.trans (by simp [hr, Nat.not_lt.2 hn, Nat.not_lt.2 hq, hroom]) hwrite) (by rw [hx]; rfl) (by rw [hx]; rfl)
  exact ⟨g, u, hu, grown_issued c _, hm⟩

end

theorem rcount_reads {w : VWord} {s t : State} {c : Ctx} (h : issueOf (.rcount w) s = some (c, t)) :
    Completes (.rcount w) s c [] w.d fun _ =>
      [BitVec.ofNat 32 (if w.md = 0 then c.o.g.alloc else if w.md = 1 then c.free t else t.usedUnits c.core c.lid)] := by
  refine completes_of_outcome h (exec_rcount w s) ?_
  dsimp only
  split
  · rename_i hmd
    simp [hmd]
  · rename_i hmd
    simp [hmd]
  · rename_i h0 h1
    rw [if_neg h0, if_neg h1]

end Sys2Proof.Machine
end

section
/-! SUPPORT. The deadlock of register units: the round of a block's changes that is the deadlock test, and the traps that end a
deadlock (05 R145, R146). -/

namespace Sys2Proof.Machine

/-! ## What settles a block in which nothing else is due (05 R146) -/

theorem mem_groupsOf {s : State} {bid gid : Nat} {g : Group} (h : (gid, g) ∈ s.groupsOf bid) : s.group? gid = some g := by
  unfold State.groupsOf at h
  split at h
  · cases h
  · obtain ⟨i, -, hi⟩ := List.mem_filterMap.1 h
    obtain ⟨x, hx, e⟩ := Option.map_eq_some_iff.1 hi
    cases e
    exact hx

theorem deadlocked_iff (s : State) (bid : Nat) (b : Block) : s.deadlocked bid b = true ↔
    ((∃ e ∈ s.groupsOf bid, e.2.hasLive = true ∧ State.atClaim e.2 = true) ∨ ∃ f ∈ b.forming, f.slot ≠ none) ∧
    ∀ e ∈ s.groupsOf bid, e.2.hasLive = true → e.2.shut = true ∨ State.atClaim e.2 = true ∨ State.atBarrier b e.2 = true := by
  simp only [State.deadlocked, Bool.and_eq_true, Bool.or_eq_true, List.any_eq_true, List.all_eq_true, List.mem_filter, and_assoc,
    and_imp, or_assoc, Option.isSome_iff_ne_none]

/-- The pool admits a thread that waits in the group, or its word has nothing left to wait for (04 R124). -/
def Block.admits (b : Block) (g : Group) : Bool :=
  match g.blocked with
  | some (.pool ((_, some v) :: _)) => b.pool.length < 8 || b.pool.any fun x => x.succ == v
  | some (.pool _) => true
  | _ => false

theorem admits_eq_false_iff (b : Block) (g : Group) : b.admits g = false ↔ ∀ l, g.blocked = some (.pool l) →
    ∃ i v t, l = (i, some v) :: t ∧ 8 ≤ b.pool.length ∧ ∀ x ∈ b.pool, x.succ ≠ v := by
  unfold Block.admits
  split
  next i v t h =>
    have hno : (decide (b.pool.length < 8) || b.pool.any fun x => x.succ == v) = false ↔
        8 ≤ b.pool.length ∧ ∀ x ∈ b.pool, x.succ ≠ v := by
      simp only [Bool.or_eq_false_iff, decide_eq_false_iff_not, Nat.not_lt, List.any_eq_false, beq_iff_eq, ne_eq]
    refine hno.trans ⟨fun hp l hl => ?_, fun hall => ?_⟩
    · cases h.symm.trans hl
      exact ⟨i, v, t, rfl, hp⟩
    · obtain ⟨_, _, _, e, hp⟩ := hall _ h
      cases e
      exact hp
  next l hl h =>
    simp only [Bool.true_eq_false, false_iff]
    intro hall
    obtain ⟨i, v, t, rfl, -⟩ := hall l h
    exact hl i v t rfl
  next hl => exact ⟨fun _ l h => absurd h (hl l), fun _ => rfl⟩

theorem slots_of_no_match {s : State} {bid : Nat} {b : Block} (h : ∀ f slot, b.forming.find? (fun f => f.slot.isNone) = some f →
    s.emptySlot bid b = some slot → False) : (∀ f ∈ b.forming, f.slot ≠ none) ∨ s.emptySlot bid b = none := by
  cases hslot : s.emptySlot bid b with
  | none => exact .inr rfl
  | some slot =>
    refine .inl fun f hf hfree => ?_
    cases hfind : b.forming.find? (fun f => f.slot.isNone) with
    | none => exact absurd (List.find?_eq_none.1 hfind f hf) (by simp [hfree])
    | some x => exact h x slot hfind hslot

/-- A round of a block's changes changes something where one is due, and otherwise it is the deadlock test. -/
theorem settleOnce_cases {s : State} {bid lid : Nat} {b : Block} {l : Launch} (hb : s.block? bid = some b)
    (hlid : s.launchOfBlock bid = some lid) (hl : s.launch? lid = some l) :
    (¬ s.Quiet bid b ∧ (s.settleOnce bid).2 = true) ∨
    (s.Quiet bid b ∧ s.settleOnce bid = if s.deadlocked bid b = true then
      (s.trapDeadlock bid b.core lid, (s.groupsOf bid).any fun e => e.2.hasLive && State.atClaim e.2) else (s, false)) := by
  unfold State.settleOnce
  simp only [hb, hlid, hl, Option.map_some]
  split
  next f slot u hf hslot _ =>
    refine .inl ⟨fun hq => ?_, rfl⟩
    rcases hq.slots with h | h
    · exact h f (List.mem_of_find?_eq_some hf) (by simpa using List.find?_some hf)
    · rw [h] at hslot; cases hslot
  next hnone =>
  have slots := slots_of_no_match fun f slot hf hslot => hnone f slot _ hf hslot rfl
  split
  next e he =>
    refine .inl ⟨fun hq => ?_, rfl⟩
    have hend := List.find?_some he
    rw [hq.ends e (List.mem_of_find?_eq_some he)] at hend
    cases hend
  next hends =>
  have ends : ∀ e ∈ s.groupsOf bid, e.2.ended = false := by simpa using hends
  split
  next e he =>
    refine .inl ⟨fun hq => ?_, by split <;> split <;> rfl⟩
    have hyes : b.admits e.2 = true := List.find?_some (p := fun e : Nat × Group => b.admits e.2) he
    rw [(admits_eq_false_iff b e.2).2 (hq.pool e (List.mem_of_find?_eq_some he))] at hyes
    cases hyes
  next hwait =>
  have pool (e : Nat × Group) (he : e ∈ s.groupsOf bid) : b.admits e.2 = false :=
    Bool.eq_false_iff.2 (List.find?_eq_none.1 hwait e he)
  split
  next hflush => exact .inl ⟨fun hq => absurd hflush (ne_true_of_eq_false hq.flush), rfl⟩
  next hflush =>
  split
  next i hi =>
    refine .inl ⟨fun hq => ?_, rfl⟩
    have hdone := List.find?_some hi
    rw [hq.barriers i (List.mem_range.1 (List.mem_of_find?_eq_some hi))] at hdone
    cases hdone
  next hbar =>
  exact .inr ⟨⟨slots, ends, fun e he => (admits_eq_false_iff b e.2).1 (pool e he), by simpa using hflush,
    by simpa using hbar⟩, rfl⟩

/-! ## The traps that end a deadlock (05 R145, R146) -/

/-- From `s` to `u` only the groups of a list change, and of the cores nothing but what belongs to issue. -/
structure OnlyGroups (l : List Nat) (s u : State) : Prop where
  rest : u = { s with groups := u.groups, cores := u.cores }
  groups : ∀ h, h ∉ l → u.group? h = s.group? h
  quotas : ∀ k, (u.core k).quotas = (s.core k).quotas

namespace OnlyGroups

variable {l m : List Nat} {s t u : State}

theorem refl (l : List Nat) (s : State) : OnlyGroups l s s := ⟨rfl, fun _ _ => rfl, fun _ => rfl⟩

theorem trans (h : OnlyGroups l s t) (k : OnlyGroups m t u) : OnlyGroups (l ++ m) s u := by
  refine ⟨?_, fun a ha => ?_, fun a => (k.quotas a).trans (h.quotas a)⟩
  · have e := k.rest
    rw [h.rest] at e
    exact e
  · rw [List.mem_append, not_or] at ha
    exact (k.groups a ha.2).trans (h.groups a ha.1)

/-- What a group that is not of the list belongs to. -/
theorem owner? (h : OnlyGroups l s u) {gid : Nat} (hg : gid ∉ l) : u.owner? gid = s.owner? gid := by
  have eb (b : Nat) : u.block? b = s.block? b := by rw [h.rest]; rfl
  have ec (k : Nat) : u.cohort? k = s.cohort? k := by rw [h.rest]; rfl
  have el (k : Nat) : u.launch? k = s.launch? k := by rw [h.rest]; rfl
  simp only [State.owner?, h.groups gid hg, eb, ec, el]

theorem trapVec (h : OnlyGroups l s u) : u.trapVec = s.trapVec := by rw [h.rest]

theorem quota? (h : OnlyGroups l s u) (core lid : Nat) : u.quota? core lid = s.quota? core lid := by
  unfold State.quota?
  rw [h.quotas]

end OnlyGroups

theorem TrapTaken.onlyGroups {s u : State} {gid : Nat} {o : Owner} {t : Trap} (h : TrapTaken s u gid o t) :
    OnlyGroups [gid] s u := by
  refine ⟨h.rest, fun a ha => h.others.groups a (by simpa using ha), fun k => ?_⟩
  by_cases hk : k = o.b.core
  · rw [hk, h.others.own]
  · rw [h.others.cores k hk]

/-- TRAP_INFO of a claim of `units` with `free` units free (05 R146). -/
def claimInfo (units free : Nat) : W64 := BitVec.ofNat 64 (units % 2 ^ 11 + 2 ^ 16 * (free % 2 ^ 11))

/-- The trap of a claim of `units` at the word in progress, with `free` units free (05 R146). -/
def claimTrap (r : Run) (units free : Nat) : Trap :=
  ⟨Cause.registerDeadlock, wordAddr r.caddr r.idx, r.caddr, 0, claimInfo units free, wordAddr r.caddr r.idx, r.caddr, r.set⟩

/-- One group in RCLAIM, with the units that it claims, traps where its clause is in progress. -/
def trapClaim (free : Nat) (s : State) (e : Nat × Nat) : State :=
  match (s.group? e.1).bind Group.run with
  | none => s
  | some r => s.trapWord e.1 ⟨Cause.registerDeadlock, claimInfo e.2 free, 0⟩ (State.atWord r)

/-- The groups of a block that are in RCLAIM, with the units that they claim. -/
def claimants (s : State) (bid : Nat) : List (Nat × Nat) :=
  (s.groupsOf bid).filterMap fun e => match e.2.blocked with
    | some (.claim u) => some (e.1, u)
    | _ => none

/-- A claim of a group of a list. -/
def Claim.isOf (l : List (Nat × Nat)) : Claim → Bool
  | .group g _ => l.any fun e => e.1 == g
  | .formed _ _ => false

theorem trapDeadlock_eq (s : State) (bid core lid : Nat) : s.trapDeadlock bid core lid =
    ((claimants s bid).foldl (trapClaim (s.freeUnits core lid))
      (s.dropClaim core lid (Claim.isOf (claimants s bid)))).grantClaims core lid 64 := rfl

/-- A group with REGISTER_DEADLOCK delivered to it at the word of `r`. -/
def Deadlocked (r : Run) (units free : Nat) (h : Group) : Prop :=
  h.handler = true ∧ h.run = none ∧ h.blocked = none ∧
    h.trapCause = BitVec.ofNat 64 Cause.registerDeadlock ∧ h.trapPc = wordAddr r.caddr r.idx ∧ h.trapCaddr = r.caddr ∧
    h.trapInfo = claimInfo units free

theorem trapClaim_of_run {s : State} {g : Group} {r : Run} (e : Nat × Nat) (hg : s.group? e.1 = some g) (hr : g.run = some r)
    (free : Nat) : trapClaim free s e = s.deliver e.1 (claimTrap r e.2 free) := by
  simp only [trapClaim, State.trapWord, hg, hr, Option.bind_some]
  rfl

theorem terminal_registerDeadlock {s : State} {o : Owner} (hv : s.trapVec ≠ 0) (hh : o.g.handler = false) :
    s.terminal o Cause.registerDeadlock = false := by
  simpa [State.terminal, hh, Cause.registerDeadlock, Cause.outsideLease, Cause.dataError] using hv

/-- A group out of its handler that traps enters it. -/
theorem trapClaim_enters {s : State} {o : Owner} {r : Run} {e : Nat × Nat} (ho : s.owner? e.1 = some o) (hr : o.g.run = some r)
    (hv : s.trapVec ≠ 0) (hh : o.g.handler = false) (free : Nat) :
    TrapTaken s (trapClaim free s e) e.1 o (claimTrap r e.2 free) := by
  rw [trapClaim_of_run e (owner?_group ho).1 hr]
  exact deliver_spec _ true ho (terminal_registerDeadlock hv hh)

theorem TrapTaken.deadlocked {s u : State} {gid units free : Nat} {o : Owner} {r : Run}
    (h : TrapTaken s u gid o (claimTrap r units free)) : ∃ x, u.group? gid = some x ∧ Deadlocked r units free x := by
  obtain ⟨x, hx, hcause, hpc, hcaddr, -, hinfo, -, hhandler, hrun, hblocked, -⟩ := h.group
  exact ⟨x, hx, hhandler, hrun, hblocked, hcause, hpc, hcaddr, hinfo⟩

/-- No group of the list is in its handler. -/
def OutOfHandler (s : State) (l : List Nat) : Prop := ∀ gid ∈ l, ∀ g, s.group? gid = some g → g.handler = false

theorem trapClaim_only {s : State} {e : Nat × Nat} (hv : s.trapVec ≠ 0)
    (hh : ∀ g, s.group? e.1 = some g → g.handler = false) (free : Nat) : OnlyGroups [e.1] s (trapClaim free s e) := by
  cases hr : (s.group? e.1).bind Group.run with
  | none =>
    have h : trapClaim free s e = s := by simp only [trapClaim, hr]
    rw [h]
    exact .refl _ s
  | some r =>
    obtain ⟨g, hg, hr⟩ := Option.bind_eq_some_iff.1 hr
    cases ho : s.owner? e.1 with
    | none =>
      have h : trapClaim free s e = s := by
        rw [trapClaim_of_run e hg hr]
        unfold State.deliver
        rw [ho]
      rw [h]
      exact .refl _ s
    | some o =>
      obtain ⟨hog, -⟩ := owner?_group ho
      cases hg.symm.trans hog
      exact (trapClaim_enters ho hr hv (hh _ hg) free).onlyGroups

/-- Groups in RCLAIM that trap one after another: each is in its handler, and no other group changes. -/
theorem trapClaims_spec (free : Nat) (l : List (Nat × Nat)) : ∀ s : State, (l.map (·.1)).Nodup → s.trapVec ≠ 0 →
    OutOfHandler s (l.map (·.1)) →
    OnlyGroups (l.map (·.1)) s (l.foldl (trapClaim free) s) ∧
    ∀ e ∈ l, ∀ o r, s.owner? e.1 = some o → o.g.run = some r →
      ∃ x, (l.foldl (trapClaim free) s).group? e.1 = some x ∧ Deadlocked r e.2 free x := by
  induction l with
  | nil => exact fun s _ _ _ => ⟨.refl _ s, by simp⟩
  | cons a t ih =>
    intro s hn hv hh
    rw [List.map_cons, List.nodup_cons] at hn
    obtain ⟨hat, hn⟩ := hn
    have ha := hh a.1 (by simp)
    have h1 := trapClaim_only hv ha free
    have hne (gid : Nat) (hg : gid ∈ t.map (·.1)) : gid ∉ [a.1] := by
      rintro h
      rw [List.mem_singleton.1 h] at hg
      exact hat hg
    obtain ⟨h2, h3⟩ := ih (trapClaim free s a) hn (by rw [h1.trapVec]; exact hv) fun gid hg x hx =>
      hh gid (List.mem_cons_of_mem _ hg) x ((h1.groups gid (hne gid hg)).symm.trans hx)
    refine ⟨h1.trans h2, fun e he o r ho hr => ?_⟩
    obtain rfl | he := List.mem_cons.1 he
    · obtain ⟨x, hx, hd⟩ := (trapClaim_enters ho hr hv (ha _ (owner?_group ho).1) free).deadlocked
      exact ⟨x, (h2.groups _ hat).trans hx, hd⟩
    · exact h3 e he o r ((h1.owner? (hne _ (List.mem_map_of_mem he))).trans ho) hr

theorem mem_claimants {s : State} {bid gid units : Nat} :
    (gid, units) ∈ claimants s bid ↔ ∃ g, (gid, g) ∈ s.groupsOf bid ∧ g.blocked = some (.claim units) := by
  unfold claimants
  rw [List.mem_filterMap]
  constructor
  · rintro ⟨⟨k, g⟩, he, hu⟩
    split at hu
    next hb => cases hu; exact ⟨g, he, hb⟩
    next => cases hu
  · rintro ⟨g, he, hb⟩
    exact ⟨(gid, g), he, by simp only [hb]⟩

theorem nodup_groupsOf (s : State) (bid : Nat) : ((s.groupsOf bid).map (·.1)).Nodup := by
  unfold State.groupsOf
  split
  · exact List.nodup_nil
  · rename_i b _
    rw [List.map_filterMap]
    refine List.Pairwise.filterMap _ (fun i j hij m hi n hj => ?_) List.nodup_range
    simp only [Option.map_map, Option.map_eq_some_iff, Function.comp_apply, gidOf] at hi hj
    obtain ⟨_, -, rfl⟩ := hi
    obtain ⟨_, -, rfl⟩ := hj
    omega

theorem nodup_claimants (s : State) (bid : Nat) : ((claimants s bid).map (·.1)).Nodup := by
  refine (nodup_groupsOf s bid).sublist ?_
  unfold claimants
  induction s.groupsOf bid with
  | nil => exact .slnil
  | cons e t ih =>
    rw [List.filterMap_cons]
    split
    · exact ih.cons _
    · rename_i hx
      split at hx
      next => cases hx; exact ih.cons_cons _
      next => cases hx

/-- The account of a kernel, once it has changed on its core. -/
theorem quota?_modQuota {s : State} {core lid : Nat} {f : Quota → Quota} (hf : ∀ q, (f q).launch = q.launch) :
    (s.modQuota core lid f).quota? core lid = (s.quota? core lid).map f := by
  have hfind (l : List Quota) : (l.map fun q => if q.launch == lid then f q else q).find? (fun q => q.launch == lid) =
      (l.find? fun q => q.launch == lid).map f := by
    induction l with
    | nil => rfl
    | cons q t ih =>
      cases hq : q.launch == lid
      · simpa only [List.map_cons, hq, List.find?_cons, Bool.false_eq_true, if_false] using ih
      · simp only [List.map_cons, hq, List.find?_cons, hf, if_true, Option.map_some]
  unfold State.quota? State.modQuota
  rw [core_modCore_same]
  exact hfind _

/-- A claim that is dropped is in the queue no longer. -/
theorem not_mem_dropClaim {s : State} {core lid : Nat} {p : Claim → Bool} {x : Claim} {q : Quota}
    (hq : (s.dropClaim core lid p).quota? core lid = some q) (hp : p x = true) : x ∉ q.claims := by
  unfold State.dropClaim at hq
  rw [quota?_modQuota] at hq
  · obtain ⟨y, -, rfl⟩ := Option.map_eq_some_iff.1 hq
    simp [hp]
  · exact fun _ => rfl

/-- Every group of a block in RCLAIM is in its handler with REGISTER_DEADLOCK, its claim withdrawn, before the grants are tested
again. -/
theorem trapDeadlock_traps {s : State} {bid : Nat} (core lid : Nat) (hv : s.trapVec ≠ 0)
    (hh : ∀ e ∈ s.groupsOf bid, e.2.handler = false) : ∃ v : State,
    s.trapDeadlock bid core lid = v.grantClaims core lid 64 ∧
    (∀ h, (∀ e ∈ s.groupsOf bid, e.1 = h → State.atClaim e.2 = false) → v.group? h = s.group? h) ∧
    ∀ gid g u r o, (gid, g) ∈ s.groupsOf bid → g.blocked = some (.claim u) → g.run = some r → s.owner? gid = some o →
      (∀ q n, v.quota? core lid = some q → .group gid n ∉ q.claims) ∧
      ∃ h, v.group? gid = some h ∧ Deadlocked r u (s.freeUnits core lid) h := by
  have hout : OutOfHandler (s.dropClaim core lid (Claim.isOf (claimants s bid))) ((claimants s bid).map (·.1)) := by
    intro gid hg g hgr
    obtain ⟨⟨k, u⟩, he, rfl⟩ := List.mem_map.1 hg
    obtain ⟨x, hx, -⟩ := mem_claimants.1 he
    cases (mem_groupsOf hx).symm.trans hgr
    exact hh _ hx
  obtain ⟨honly, hdead⟩ := trapClaims_spec (s.freeUnits core lid) (claimants s bid)
    (s.dropClaim core lid (Claim.isOf (claimants s bid))) (nodup_claimants s bid) hv hout
  refine ⟨_, trapDeadlock_eq s bid core lid, fun h hno => honly.groups h fun hmem => ?_, fun gid g u r o hg hb hr ho => ⟨?_, ?_⟩⟩
  · obtain ⟨⟨k, u⟩, he, rfl⟩ := List.mem_map.1 hmem
    obtain ⟨x, hx, hb⟩ := mem_claimants.1 he
    have := hno _ hx rfl
    simp [State.atClaim, hb] at this
  · intro q n hq
    rw [honly.quota?] at hq
    refine not_mem_dropClaim hq ?_
    simp only [Claim.isOf, List.any_eq_true, beq_iff_eq]
    exact ⟨(gid, u), mem_claimants.2 ⟨g, hg, hb⟩, rfl⟩
  · have hog : o.g = g := Option.some.inj ((owner?_group ho).1.symm.trans (mem_groupsOf hg))
    exact hdead (gid, u) (mem_claimants.2 ⟨g, hg, hb⟩) o r ho (hog ▸ hr)

/-! ## What the statement says of register units -/

/-- Settles O28: each word by the answer of its account, the grants from the head of the queue, and the deadlock test as the last
of a block's changes. -/
theorem registerUnits : Obligations.RegisterUnits := by
  refine ⟨fun w s c t h hr hn hq => ⟨rclaim_granted h hr hn hq, rclaim_waits h hr hn hq⟩,
    fun w s c t h hr hn => rclaim_traps_operand h hr hn, fun w s c t h hr hn hq => rclaim_traps_quota h hr hn hq,
    fun w s c t h hr hf hn hc => ?_, fun w s c t h hr => ?_, fun w s c t h => rcount_reads h,
    fun s core lid q n hq hc => grantClaims_of_nil hq hc n,
    fun s core lid q gid units rest n hq hc => grantClaims_of_group hq hc n,
    fun s core lid q bid units rest n hq hc => grantClaims_of_formed hq hc n,
    fun s gid g units hg => ⟨_, grantGroup_grows hg units, rfl, fun i hi r => Group.tgetD_zeroed g _ _ hi r⟩,
    fun s bid b pre f post hb hf hpre k hk => grantFormed_starts hb hf hpre hk, deadlocked_iff,
    fun s bid b lid l hb hlid hl => ?_, fun s bid core lid hv hh => trapDeadlock_traps core lid hv hh⟩
  · obtain ⟨u, hu, hm⟩ := rgive_gives h hr hf hn hc
    exact ⟨c.started.shrunk w.imm.toNat, u, hu, rfl, fun i hi r => Group.tgetD_zeroed c.o.g _ _ hi r, hm⟩
  · exact ⟨rtry_never h hr, fun ⟨⟨hn, hq⟩, hroom⟩ => rtry_not_now h hr hn hq hroom,
      fun ⟨⟨hn, hq⟩, hroom⟩ => rtry_granted h hr hn hq hroom⟩
  · rcases settleOnce_cases hb hlid hl with ⟨hnot, hdue⟩ | ⟨hquiet, hround⟩
    · exact ⟨fun h => absurd (hdue.symm.trans h) (by simp), fun h => absurd h hnot, fun h => absurd h hnot⟩
    · exact ⟨fun _ => hquiet, fun _ hd => by rw [hround, hd]; rfl, fun _ hd => by rw [hround, if_pos hd]⟩

end Sys2Proof.Machine
end

section
/-! SUPPORT. Elements of integer types as numbers and as integers: reduction, saturation, division, comparison, shifts and bit
counts (03 R62 to R64, 06 R163 to R169). -/

namespace Sys2Proof.Machine

/-! ## Elements as integers (03 R62 to R64) -/

theorem elemOf_lt (n k x : Nat) : elemOf n k x < 2 ^ n := Nat.mod_lt _ (Nat.two_pow_pos n)

theorem Ctx.el_lt (c : Ctx) (t : Nat) (f : Src) (i k : Nat) : c.el t f i k < 2 ^ tyBits t := elemOf_lt ..

theorem tyBits_pos (t : Nat) : 0 < tyBits t := by
  unfold tyBits
  split <;> decide

theorem wrapInt_lt (n : Nat) (x : Int) : wrapInt n x < 2 ^ n := by
  rw [← wrapInt_mod]
  exact Nat.mod_lt _ (Nat.two_pow_pos n)

theorem sextInt_of_lt {n x : Nat} (hx : x < 2 ^ n) :
    sextInt n x = if 2 ^ (n - 1) ≤ x then (x : Int) - 2 ^ n else x := by
  simp only [sextInt, Nat.mod_eq_of_lt hx]

theorem wrapInt_natCast (n x : Nat) : wrapInt n x = x % 2 ^ n := by
  simp only [wrapInt, ← Int.natCast_emod, Int.toNat_natCast]

theorem wrapInt_sub_two_pow (n : Nat) (x : Int) : wrapInt n (x - 2 ^ n) = wrapInt n x := by
  have h := Int.sub_emod_right x ((2 ^ n : Nat) : Int)
  simp only [wrapInt, ← h]
  norm_cast

theorem wrapInt_neg_one (n : Nat) : wrapInt n (-1) = 2 ^ n - 1 := by
  have hp := Nat.two_pow_pos n
  have h : (-1 : Int) = ((2 ^ n - 1 : Nat) : Int) - 2 ^ n := by
    rw [Int.natCast_sub hp]
    push_cast
    omega
  rw [h, wrapInt_sub_two_pow, wrapInt_natCast, Nat.mod_eq_of_lt (by omega)]

/-- An element that is 0 as an integer of its type is 0 as a number. -/
theorem elemInt_eq_zero_iff {t x : Nat} (hx : x < 2 ^ tyBits t) : elemInt t x = 0 ↔ x = 0 := by
  have hlt : (x : Int) < 2 ^ tyBits t := by exact_mod_cast hx
  have hp := Nat.two_pow_pos (tyBits t - 1)
  rw [elemInt, sextInt_of_lt hx]
  split
  · split <;> omega
  · omega

/-- An element reduced to its own width is itself. -/
theorem wrapInt_elemInt {t x : Nat} (hx : x < 2 ^ tyBits t) : wrapInt (tyBits t) (elemInt t x) = x := by
  have h : wrapInt (tyBits t) (x : Int) = x := by rw [wrapInt_natCast, Nat.mod_eq_of_lt hx]
  rw [elemInt, sextInt_of_lt hx]
  split
  · split
    · rw [wrapInt_sub_two_pow, h]
    · exact h
  · exact h

theorem intMin_nonpos (t : Nat) : intMin t ≤ 0 := by
  have h : (0 : Int) < 2 ^ (tyBits t - 1) := Int.pow_pos (by decide)
  unfold intMin
  split <;> omega

theorem intMax_nonneg (t : Nat) : 0 ≤ intMax t := by
  have h (m : Nat) : (0 : Int) ≤ 2 ^ m - 1 := Int.sub_nonneg_of_le (Int.pow_pos (by decide))
  unfold intMax
  split
  · exact h _
  · exact h _

/-- Saturation of a magnitude meets the upper limit only (03 R63). -/
theorem satInt_of_nonneg (t : Nat) {x : Int} (hx : 0 ≤ x) : satInt t x = min (intMax t) x :=
  Int.max_eq_right (Int.le_trans (intMin_nonpos t) (Int.le_min.2 ⟨intMax_nonneg t, hx⟩))

theorem idivElem_el {t a b : Nat} (hb : b < 2 ^ tyBits t) : wrapInt (tyBits t) (idivElem (elemInt t a) (elemInt t b)) =
    if b = 0 then 2 ^ tyBits t - 1 else wrapInt (tyBits t) (Int.tdiv (elemInt t a) (elemInt t b)) := by
  simp only [idivElem, elemInt_eq_zero_iff hb]
  split
  · exact wrapInt_neg_one _
  · rfl

theorem iremElem_el {t a b : Nat} (ha : a < 2 ^ tyBits t) (hb : b < 2 ^ tyBits t) :
    wrapInt (tyBits t) (iremElem (elemInt t a) (elemInt t b)) =
      if b = 0 then a else wrapInt (tyBits t) (Int.tmod (elemInt t a) (elemInt t b)) := by
  simp only [iremElem, elemInt_eq_zero_iff hb]
  split
  · exact wrapInt_elemInt ha
  · rfl

/-- The modifier field has two bits (02 R50). -/
theorem md_cases (w : VWord) : w.md = 0 ∨ w.md = 1 ∨ w.md = 2 ∨ w.md = 3 := by
  have h : w.md < 4 := (w.e.extractLsb' 5 2).isLt
  omega

/-- The condition of ICMP by its code (06 R165). -/
theorem icmpCond_iff {m : Nat} (hm : m = 0 ∨ m = 1 ∨ m = 2 ∨ m = 3) (x y : Int) :
    icmpCond m x y = true ↔ m = 0 ∧ x = y ∨ m = 1 ∧ x ≠ y ∨ m = 2 ∧ x < y ∨ m = 3 ∧ x ≤ y := by
  obtain rfl | rfl | rfl | rfl := hm 
  all_goals simp [icmpCond]

theorem wrapInt_maskIf (n : Nat) (b : Bool) : wrapInt n (maskIf b) = if b then 2 ^ n - 1 else 0 := by
  cases b
  · exact (wrapInt_natCast n 0).trans (Nat.zero_mod _)
  · exact wrapInt_neg_one n

/-! ## Shifts and bit counts of an element (06 R168, R169) -/

theorem shlElem_eq (n a s : Nat) : shlElem n a s = a * 2 ^ s % 2 ^ n := by
  unfold shlElem
  split
  · rename_i h
    exact (Nat.mod_eq_zero_of_dvd (Nat.dvd_mul_left_of_dvd (Nat.pow_dvd_pow 2 h) a)).symm
  · rfl

theorem shrElem_eq {n a : Nat} (ha : a < 2 ^ n) (s : Nat) : shrElem n a s = a / 2 ^ s := by
  unfold shrElem
  split
  · rename_i h
    exact (Nat.div_eq_of_lt (Nat.lt_of_lt_of_le ha (Nat.pow_le_pow_right (by decide) h))).symm
  · rfl

/-- The floor of a quotient whose dividend is smaller in magnitude than its divisor keeps the sign alone. -/
theorem ediv_of_small {v p : Int} (hlo : -p ≤ v) (hhi : v < p) : v / p = if v < 0 then -1 else 0 := by
  split
  · rename_i h
    exact Int.ediv_eq_neg_one_of_neg_of_le h (by omega)
  · exact Int.ediv_eq_zero_of_lt (by omega) hhi

theorem sextInt_bounds (n x : Nat) : -(2 : Int) ^ n ≤ sextInt n x ∧ sextInt n x < 2 ^ n := by
  have hlt : ((x % 2 ^ n : Nat) : Int) < 2 ^ n := by exact_mod_cast Nat.mod_lt x (Nat.two_pow_pos n)
  dsimp only [sextInt]
  split <;> omega

/-- An arithmetic shift by more than the width is one by the width: copies of the sign. -/
theorem sextInt_ediv_min (n a s : Nat) : sextInt n a / (2 : Int) ^ min s n = sextInt n a / 2 ^ s := by
  rcases Nat.le_total s n with h | h
  · rw [Nat.min_eq_left h]
  · obtain ⟨hlo, hhi⟩ := sextInt_bounds n a
    have hle : (2 : Int) ^ n ≤ 2 ^ s := by exact_mod_cast Nat.pow_le_pow_right (by decide : 0 < 2) h
    rw [Nat.min_eq_right h, ediv_of_small hlo hhi, ediv_of_small (by omega) (by omega)]

theorem rolElem_lt {n a : Nat} (hn : 0 < n) (ha : a < 2 ^ n) (s : Nat) : rolElem n a s < 2 ^ n := by
  obtain ⟨m, hm⟩ := Nat.exists_eq_add_of_le (Nat.le_of_lt (Nat.mod_lt s hn))
  have hk : n - s % n = m := by omega
  have hp : 2 ^ n = 2 ^ (s % n) * 2 ^ m := by rw [← Nat.pow_add, ← hm]
  have hdiv : a / 2 ^ m < 2 ^ (s % n) := Nat.div_lt_of_lt_mul (by rwa [Nat.mul_comm, ← hp])
  calc rolElem n a s = 2 ^ (s % n) * (a % 2 ^ m) + a / 2 ^ m := by
        rw [rolElem, hk, hp, Nat.mul_comm a, Nat.mul_mod_mul_left]
    _ < 2 ^ (s % n) * (a % 2 ^ m + 1) := by rw [Nat.mul_add_one]; omega
    _ ≤ 2 ^ (s % n) * 2 ^ m := Nat.mul_le_mul_left _ (Nat.mod_lt _ (Nat.two_pow_pos m))
    _ = 2 ^ n := hp.symm

theorem rotElem_eq (n : Nat) (right : Bool) (a s : Nat) : rotElem n right a s =
    let k := if right then (n - s % n) % n else s % n
    a * 2 ^ k % 2 ^ n + a / 2 ^ (n - k) := by
  cases right <;> rfl

theorem rotElem_lt {n a : Nat} (hn : 0 < n) (ha : a < 2 ^ n) (right : Bool) (s : Nat) : rotElem n right a s < 2 ^ n := by
  cases right
  · exact rolElem_lt hn ha s
  · exact rolElem_lt hn ha _

theorem clzElem_le (n a : Nat) : clzElem n a ≤ n := by
  unfold clzElem
  split <;> omega

theorem ffsElem_le (n a : Nat) : ffsElem n a ≤ n := by
  unfold ffsElem
  cases h : (List.range n).find? fun k => a.testBit k with
  | none => exact Nat.le_refl n
  | some k => exact Nat.le_of_lt (List.mem_range.1 (List.mem_of_find?_eq_some h))

theorem popcElem_le (n a : Nat) : popcElem n a ≤ n :=
  Nat.le_trans List.countP_le_length (Nat.le_of_eq List.length_range)

theorem lt_two_pow_of_le {n x : Nat} (h : x ≤ n) : x < 2 ^ n := Nat.lt_of_le_of_lt h Nat.lt_two_pow_self

/-- The bits of a reversal down to bit `n - m` leave room for those below it. -/
theorem brev_high_bits_le (n a : Nat) : ∀ m, m ≤ n →
    (List.range m).foldl (fun r k => if a.testBit k then r + 2 ^ (n - 1 - k) else r) 0 + 2 ^ (n - m) ≤ 2 ^ n := by
  intro m
  induction m with
  | zero => exact fun _ => Nat.le_of_eq (Nat.zero_add _)
  | succ m ih =>
    intro hm
    have hp : 2 ^ (n - m) = 2 * 2 ^ (n - (m + 1)) := by
      rw [← Nat.pow_succ', show n - m = n - (m + 1) + 1 by omega]
    have := ih (by omega)
    rw [List.range_succ, List.foldl_append, List.foldl_cons, List.foldl_nil]
    have hstep : n - 1 - m = n - (m + 1) := by omega
    split
    · rw [hstep]; omega
    · omega

theorem brevElem_lt (n a : Nat) : brevElem n a < 2 ^ n := by
  have h := brev_high_bits_le n a n (Nat.le_refl n)
  rw [Nat.sub_self, Nat.pow_zero] at h
  exact h

end Sys2Proof.Machine
end

section
/-! SUPPORT. Words of the vector datapath: a form by the registers that its body writes, or leaves pending, in each lane, and the
integer words (06 R157 to R176). -/

namespace Sys2Proof.Machine

/-! ## A form by its body (02 R25, R26) -/

/-- Registers whose elements are given have the elements of any function with the same values. -/
theorem Elementwise.congr {t : Nat} {l : List W32} {g h : Nat → Nat} (hl : Elementwise t l g) (hgh : ∀ k, g k = h k) :
    Elementwise t l h :=
  ⟨hl.1, fun k hk => (hl.2 k hk).trans (hgh k)⟩

theorem wordV_of_exec {mk : VWord → Instr} {f : VWord → Ctx → Nat → List W32}
    (he : ∀ w s, exec (mk w) s = runWord (mk w) (fun c t => c.write t w.d (f w c)) s) : WordV mk f :=
  wordV_of_write he fun _ _ _ => rfl

theorem wordI_of_exec {mk : IWord → Instr} {f : IWord → Ctx → Nat → List W32}
    (he : ∀ w s, exec (mk w) s = runWord (mk w) (fun c t => c.write t w.d (f w c)) s) : WordI mk f :=
  fun w s _ _ h => completes_of_outcome h (he w s) rfl

/-- An immediate word that gives `g` of its register of A (06 R166). -/
theorem wordI_of_imm {mk : IWord → Instr} {f g : IWord → W32 → W32}
    (he : ∀ w s, exec (mk w) s = runWord (mk w) (fun c t => c.imm t w (f w)) s) (hg : ∀ w a, f w a = g w a) :
    WordI mk fun w c i => [g w (c.rd w.a i)] := by
  obtain rfl : f = g := funext fun w => funext (hg w)
  exact wordI_of_exec he

section
variable {mk : VWord → Instr}

theorem elemWord_of_write {f : VWord → Ctx → Nat → List W32} {g : VWord → Ctx → Nat → Nat → Nat}
    (he : ∀ w s, exec (mk w) s = runWord (mk w) (fun c t => c.write t w.d (f w c)) s)
    (hf : ∀ w c i, Elementwise w.ty (f w c i) (g w c i)) : ElemWord mk g :=
  fun w s c _ h => ⟨f w c, completes_of_outcome h (he w s) rfl, fun i _ => hf w c i⟩

theorem elemLong_of_longWrite {f : VWord → Ctx → Nat → List W32} {g : VWord → Ctx → Nat → Nat → Nat}
    (he : ∀ w s, exec (mk w) s = runWord (mk w) (fun c t => c.longWrite t w.d (f w c)) s)
    (hf : ∀ w c i, Elementwise w.ty (f w c i) (g w c i)) : ElemLong mk g := by
  intro w s c t h hfull
  obtain ⟨u, hu, hs⟩ := runWord_longWrite h hfull (fun c t => c.longWrite t w.d (f w c)) w.d (f w c) rfl
  exact ⟨f w c, ⟨u, (he w s).trans hu, hs⟩, fun i _ => hf w c i⟩

/-- A form that gives the integer `F` of its elements, reduced to their width (06 R163). -/
theorem elemWord_intOp1 (F : VWord → Int → Int) {g : VWord → Ctx → Nat → Nat → Nat}
    (he : ∀ w s, exec (mk w) s =
      runWord (mk w) (fun c t => c.write t w.d fun i => intOp1 w.ty (F w) (c.opnd w.ty w.a i)) s)
    (hg : ∀ w c i k, wrapInt (tyBits w.ty) (F w (c.elInt w.ty w.a i k)) = g w c i k) : ElemWord mk g :=
  elemWord_of_write he fun w c i => (elementwise_intOp1 w.ty (F w) (c.opnd w.ty w.a i)).congr (hg w c i)

theorem elemWord_intOp2 (F : VWord → Int → Int → Int) {g : VWord → Ctx → Nat → Nat → Nat}
    (he : ∀ w s, exec (mk w) s =
      runWord (mk w) (fun c t => c.write t w.d fun i => intOp2 w.ty (F w) (c.opnd w.ty w.a i) (c.opnd w.ty w.b i)) s)
    (hg : ∀ w c i k, wrapInt (tyBits w.ty) (F w (c.elInt w.ty w.a i k) (c.elInt w.ty w.b i k)) = g w c i k) :
    ElemWord mk g :=
  elemWord_of_write he fun w c i =>
    (elementwise_intOp2 w.ty (F w) (c.opnd w.ty w.a i) (c.opnd w.ty w.b i)).congr (hg w c i)

theorem elemWord_intOp3 (F : VWord → Int → Int → Int → Int) {g : VWord → Ctx → Nat → Nat → Nat}
    (he : ∀ w s, exec (mk w) s = runWord (mk w) (fun c t => c.write t w.d fun i =>
      intOp3 w.ty (F w) (c.opnd w.ty w.a i) (c.opnd w.ty w.b i) (c.opnd w.ty w.c i)) s)
    (hg : ∀ w c i k,
      wrapInt (tyBits w.ty) (F w (c.elInt w.ty w.a i k) (c.elInt w.ty w.b i k) (c.elInt w.ty w.c i k)) = g w c i k) :
    ElemWord mk g :=
  elemWord_of_write he fun w c i =>
    (elementwise_intOp3 w.ty (F w) (c.opnd w.ty w.a i) (c.opnd w.ty w.b i) (c.opnd w.ty w.c i)).congr (hg w c i)

/-- A long-latency form of the same kind (06 R164). -/
theorem elemLong_intOp2 (F : VWord → Int → Int → Int) {g : VWord → Ctx → Nat → Nat → Nat}
    (he : ∀ w s, exec (mk w) s =
      runWord (mk w) (fun c t => c.longWrite t w.d fun i => intOp2 w.ty (F w) (c.opnd w.ty w.a i) (c.opnd w.ty w.b i)) s)
    (hg : ∀ w c i k, wrapInt (tyBits w.ty) (F w (c.elInt w.ty w.a i k) (c.elInt w.ty w.b i k)) = g w c i k) :
    ElemLong mk g :=
  elemLong_of_longWrite he fun w c i =>
    (elementwise_intOp2 w.ty (F w) (c.opnd w.ty w.a i) (c.opnd w.ty w.b i)).congr (hg w c i)

/-- A form that gives `F` of its elements as numbers, which stays within their width (06 R168, R169). -/
theorem elemWord_natOp1 (F : Nat → Nat → Nat)
    (he : ∀ w s, exec (mk w) s =
      runWord (mk w) (fun c t => c.write t w.d fun i => natOp1 w.ty (F (tyBits w.ty)) (c.opnd w.ty w.a i)) s)
    (hlt : ∀ n x, F n x < 2 ^ n) : ElemWord mk fun w c i k => F (tyBits w.ty) (c.el w.ty w.a i k) :=
  elemWord_of_write he fun w c i =>
    (elementwise_natOp1 w.ty (F (tyBits w.ty)) (c.opnd w.ty w.a i)).congr fun _ => Nat.mod_eq_of_lt (hlt ..)

theorem elemWord_natOp2 (F : VWord → Nat → Nat → Nat) {g : VWord → Ctx → Nat → Nat → Nat}
    (he : ∀ w s, exec (mk w) s =
      runWord (mk w) (fun c t => c.write t w.d fun i => natOp2 w.ty (F w) (c.opnd w.ty w.a i) (c.opnd w.ty w.b i)) s)
    (hg : ∀ w c i k, F w (c.el w.ty w.a i k) (c.el w.ty w.b i k) = g w c i k)
    (hlt : ∀ w x s, x < 2 ^ tyBits w.ty → F w x s < 2 ^ tyBits w.ty) : ElemWord mk g :=
  elemWord_of_write he fun w c i =>
    (elementwise_natOp2 w.ty (F w) (c.opnd w.ty w.a i) (c.opnd w.ty w.b i)).congr fun k =>
      (Nat.mod_eq_of_lt (hlt w _ _ (c.el_lt w.ty w.a i k))).trans (hg w c i k)

end

/-! ## Integer arithmetic (06 R163 to R165) -/

theorem iabs_writes : ElemWord .iabs fun w c i k => wrapInt (tyBits w.ty)
    (if w.ebit 5 then min (intMax w.ty) (c.elInt w.ty w.a i k).natAbs else (c.elInt w.ty w.a i k).natAbs) :=
  elemWord_intOp1 (fun w a => if w.ebit 5 then satInt w.ty a.natAbs else a.natAbs) (fun _ _ => rfl) fun w c i k => by
    rw [satInt_of_nonneg w.ty (Int.natCast_nonneg _)]

theorem icmp_writes : ElemWord .icmp fun w c i k =>
    let x := c.elInt w.ty w.a i k
    let y := c.elInt w.ty w.b i k
    if w.md = 0 ∧ x = y ∨ w.md = 1 ∧ x ≠ y ∨ w.md = 2 ∧ x < y ∨ w.md = 3 ∧ x ≤ y then 2 ^ tyBits w.ty - 1 else 0 :=
  elemWord_intOp2 (fun w a b => maskIf (icmpCond w.md a b)) (fun _ _ => rfl) fun w c i k => by
    simp only [wrapInt_maskIf, icmpCond_iff (md_cases w)]

/-- Settles O6: each word writes an operation of integers, reduced to the element. -/
theorem integerArithmeticByElement : Obligations.IntegerArithmeticByElement :=
  ⟨elemWord_intOp2 (fun _ => (· + ·)) (fun _ _ => rfl) fun _ _ _ _ => rfl,
    elemWord_intOp2 (fun _ => (· - ·)) (fun _ _ => rfl) fun _ _ _ _ => rfl,
    elemWord_intOp2 (fun _ => (· * ·)) (fun _ _ => rfl) fun _ _ _ _ => rfl,
    elemWord_intOp2 (fun w a b => a * b / (2 : Int) ^ tyBits w.ty) (fun _ _ => rfl) fun _ _ _ _ => rfl,
    elemWord_intOp3 (fun _ a b x => a * b + x) (fun _ _ => rfl) fun _ _ _ _ => rfl,
    elemWord_intOp2 (fun _ => min) (fun _ _ => rfl) fun _ _ _ _ => rfl,
    elemWord_intOp2 (fun _ => max) (fun _ _ => rfl) fun _ _ _ _ => rfl,
    iabs_writes,
    elemWord_intOp1 (fun w a => if w.ebit 5 then satInt w.ty (-a) else -a) (fun _ _ => rfl) fun _ _ _ _ => rfl,
    elemWord_intOp2 (fun w a b => satInt w.ty (a + b)) (fun _ _ => rfl) fun _ _ _ _ => rfl,
    elemWord_intOp2 (fun w a b => satInt w.ty (a - b)) (fun _ _ => rfl) fun _ _ _ _ => rfl,
    elemWord_intOp2 (fun w a b => (a + b + (if w.ebit 5 then 0 else 1)) / 2) (fun _ _ => rfl) fun _ _ _ _ => rfl,
    icmp_writes⟩

/-- Settles O7: a divisor that is 0 as an integer is 0 as an element, and the other quotients and remainders are those of R64. -/
theorem divisionByElement : Obligations.DivisionByElement :=
  ⟨elemLong_intOp2 (fun _ => idivElem) (fun _ _ => rfl) fun w c i k => idivElem_el (c.el_lt w.ty w.b i k),
    elemLong_intOp2 (fun _ => iremElem) (fun _ _ => rfl) fun w c i k =>
      iremElem_el (c.el_lt w.ty w.a i k) (c.el_lt w.ty w.b i k)⟩

/-! ## Immediate words (06 R166) -/

/-- The low 16 bits of an immediate over those of a register (06 R166). -/
theorem append_low_halves (x : BitVec 27) (a : W32) : x.extractLsb' 0 16 ++ a.extractLsb' 0 16 =
    BitVec.ofNat 32 (x.toNat % 2 ^ 16 * 2 ^ 16 + a.toNat % 2 ^ 16) := by
  have ha := Nat.mod_lt a.toNat (Nat.two_pow_pos 16)
  have hlt : x.toNat % 2 ^ 16 * 2 ^ 16 + a.toNat % 2 ^ 16 < 2 ^ 32 := by omega
  refine BitVec.eq_of_toNat_eq ?_
  rw [BitVec.toNat_append, BitVec.extractLsb'_toNat, BitVec.extractLsb'_toNat, BitVec.toNat_ofNat, Nat.shiftRight_zero,
    Nat.shiftRight_zero, ← Nat.shiftLeft_add_eq_or_of_lt ha, Nat.shiftLeft_eq, Nat.mod_eq_of_lt hlt]

theorem shiftLeft_eq_ofNat (a : W32) (n : Nat) : a <<< n = BitVec.ofNat 32 (a.toNat * 2 ^ n) := by
  refine BitVec.eq_of_toNat_eq ?_
  rw [BitVec.toNat_shiftLeft, BitVec.toNat_ofNat, Nat.shiftLeft_eq]

theorem ushiftRight_eq_ofNat (a : W32) (n : Nat) : a >>> n = BitVec.ofNat 32 (a.toNat / 2 ^ n) := by
  rw [← Nat.shiftRight_eq_div_pow, ← BitVec.toNat_ushiftRight, BitVec.ofNat_toNat, BitVec.setWidth_eq]

theorem sshiftRight_eq_ofInt (a : W32) (n : Nat) : a.sshiftRight n = BitVec.ofInt 32 (a.toInt / (2 : Int) ^ n) := by
  rw [BitVec.sshiftRight, Int.shiftRight_eq_div_pow]
  norm_cast

theorem exec_movhi (w : IWord) (s : State) : exec (.movhi w) s = execMovhi w s := rfl
theorem exec_shli (w : IWord) (s : State) : exec (.shli w) s = execShli w s := rfl
theorem exec_shri (w : IWord) (s : State) : exec (.shri w) s = execShri w s := rfl
theorem exec_sari (w : IWord) (s : State) : exec (.sari w) s = execSari w s := rfl

/-- Settles O8: each word writes one register of A and its immediate; the shifts are products and quotients by a power of 2. -/
theorem immediateWords : Obligations.ImmediateWords :=
  ⟨wordI_of_exec fun _ _ => rfl, wordI_of_exec fun _ _ => rfl, wordI_of_imm exec_movhi fun w => append_low_halves w.imm,
    wordI_of_imm exec_shli fun w a => shiftLeft_eq_ofNat a w.imm.toNat,
    wordI_of_imm exec_shri fun w a => ushiftRight_eq_ofNat a w.imm.toNat,
    wordI_of_imm exec_sari fun w a => sshiftRight_eq_ofInt a w.imm.toNat⟩

/-! ## Whole registers (06 R167, R172) -/

theorem getLsbD_zero_iff (x : W32) : x.getLsbD 0 = true ↔ x.toNat % 2 = 1 := by
  rw [BitVec.getLsbD, Nat.testBit_zero, decide_eq_true_iff]

theorem exec_sel (w : VWord) (s : State) : exec (.sel w) s = execSel w s := rfl

theorem sel_writes : WordV .sel fun w c i => (List.range (tyRegs w.ty)).map fun k =>
    if (c.rd w.c i).toNat % 2 = 1 then c.rd w.a i k else c.rd w.b i k := by
  refine wordV_of_write exec_sel fun w c s => ?_
  simp only [← getLsbD_zero_iff]

/-- Settles O9: each word writes its operation of whole registers; SEL chooses by bit 0 of C. -/
theorem logicAndMoves : Obligations.LogicAndMoves :=
  ⟨wordV_of_exec fun _ _ => rfl, wordV_of_exec fun _ _ => rfl, wordV_of_exec fun _ _ => rfl, wordV_of_exec fun _ _ => rfl,
    wordV_of_exec fun _ _ => rfl, wordV_of_exec fun _ _ => rfl, sel_writes, wordV_of_exec fun _ _ => rfl⟩

/-! ## Shifts, bit counts and bit fields (06 R168 to R171) -/

theorem shl_writes : ElemWord .shl fun w c i k => c.el w.ty w.a i k * 2 ^ c.el w.ty w.b i k % 2 ^ tyBits w.ty :=
  elemWord_natOp2 (fun w => shlElem (tyBits w.ty)) (fun _ _ => rfl) (fun _ _ _ _ => shlElem_eq ..) fun w x s _ => by
    rw [shlElem_eq]
    exact Nat.mod_lt _ (Nat.two_pow_pos _)

theorem shr_writes : ElemWord .shr fun w c i k => c.el w.ty w.a i k / 2 ^ c.el w.ty w.b i k :=
  elemWord_natOp2 (fun w => shrElem (tyBits w.ty)) (fun _ _ => rfl) (fun w c i k => shrElem_eq (c.el_lt w.ty w.a i k) _)
    fun w x s hx => by
      rw [shrElem_eq hx]
      exact Nat.lt_of_le_of_lt (Nat.div_le_self ..) hx

theorem sar_writes : ElemWord .sar fun w c i k => wrapInt (tyBits w.ty)
    (sextInt (tyBits w.ty) (c.el w.ty w.a i k) / (2 : Int) ^ c.el w.ty w.b i k) :=
  elemWord_natOp2 (fun w => sarElem (tyBits w.ty)) (fun _ _ => rfl)
    (fun _ _ _ _ => congrArg (wrapInt _) (sextInt_ediv_min ..)) fun _ _ _ _ => wrapInt_lt ..

theorem rot_writes : ElemWord .rot fun w c i k =>
    let n := tyBits w.ty
    let s := if w.ebit 5 then (n - c.el w.ty w.b i k % n) % n else c.el w.ty w.b i k % n
    (c.el w.ty w.a i k * 2 ^ s) % 2 ^ n + c.el w.ty w.a i k / 2 ^ (n - s) :=
  elemWord_natOp2 (fun w => rotElem (tyBits w.ty) (w.ebit 5)) (fun _ _ => rfl) (fun _ _ _ _ => rotElem_eq ..)
    fun w _ s hx => rotElem_lt (tyBits_pos w.ty) hx (w.ebit 5) s

/-- Settles O10: a shift past the width is one by the width, a rotation stays within the element, and a count is at most the
width. -/
theorem shiftsAndBitCounts : Obligations.ShiftsAndBitCounts :=
  ⟨shl_writes, shr_writes, sar_writes, rot_writes,
    elemWord_natOp1 clzElem (fun _ _ => rfl) fun n x => lt_two_pow_of_le (clzElem_le n x),
    elemWord_natOp1 ffsElem (fun _ _ => rfl) fun n x => lt_two_pow_of_le (ffsElem_le n x),
    elemWord_natOp1 popcElem (fun _ _ => rfl) fun n x => lt_two_pow_of_le (popcElem_le n x),
    elemWord_natOp1 brevElem (fun _ _ => rfl) brevElem_lt⟩

theorem bitField_eq (n x : Nat) : bitField n x =
    if n ≤ x % 256 ∨ x / 256 % 256 = 0 then none else some (x % 256, min (x / 256 % 256) (n - x % 256)) := by
  simp only [bitField, Bool.or_eq_true, decide_eq_true_eq]

theorem bfxElem_eq (t n a x : Nat) : bfxElem t n a x =
    let pos := x % 256
    let len := x / 256 % 256
    let l := min len (n - pos)
    let f := a / 2 ^ pos % 2 ^ l
    if n ≤ pos ∨ len = 0 then 0 else if isSint t then wrapInt n (sextInt l f) else f := by
  rw [bfxElem, bitField_eq]
  by_cases h : n ≤ x % 256 ∨ x / 256 % 256 = 0
  · simp only [if_pos h]
  · simp only [if_neg h]

theorem bfiElem_eq (n a b x : Nat) : bfiElem n a b x =
    let pos := x % 256
    let len := x / 256 % 256
    let l := min len (n - pos)
    if n ≤ pos ∨ len = 0 then a else a % 2 ^ pos + b % 2 ^ l * 2 ^ pos + a / 2 ^ (pos + l) * 2 ^ (pos + l) := by
  rw [bfiElem, bitField_eq]
  by_cases h : n ≤ x % 256 ∨ x / 256 % 256 = 0
  · simp only [if_pos h]
  · simp only [if_neg h]

theorem exec_bfx (w : VWord) (s : State) : exec (.bfx w) s = execBfx w s := rfl
theorem exec_bfi (w : VWord) (s : State) : exec (.bfi w) s = execBfi w s := rfl

/-- Settles O11: the funnel shift is its own formula, and a control word names no field or the one of its position and length. -/
theorem funnelShiftsAndBitFields : Obligations.FunnelShiftsAndBitFields := by
  refine ⟨wordV_of_exec fun _ _ => rfl, wordV_of_write exec_bfx fun w c s => ?_, wordV_of_write exec_bfi fun w c s => ?_⟩
  · simp only [bfxElem_eq]
  · simp only [bfiElem_eq]

/-! ## Addresses, changes of width and dot products (06 R173 to R176) -/

theorem exec_lea (w : VWord) (s : State) : exec (.lea w) s = execLea w s := rfl

/-- Settles O12: LEA adds its index by the scale of its code; the others write the elements that the model's own helpers give. -/
theorem repackingAndDotProducts : Obligations.RepackingAndDotProducts := by
  refine ⟨wordV_of_write exec_lea fun w c s => ?_, wordV_of_exec fun _ _ => rfl, wordV_of_exec fun _ _ => rfl,
    wordV_of_exec fun _ _ => rfl, wordV_of_exec fun _ _ => rfl, wordV_of_exec fun _ _ => rfl, wordV_of_exec fun _ _ => rfl,
    wordV_of_exec fun _ _ => rfl⟩
  dsimp only
  rcases md_cases w with h | h | h | h <;> rw [h] <;> rfl

end Sys2Proof.Machine
end

section
/-! SUPPORT. Floating-point words of the vector datapath: a form counts the events of its lanes and writes their registers, or
leaves them pending (06 R177 to R194). -/

namespace Sys2Proof.Machine

section
variable {mk : VWord → Instr} {f : VWord → Ctx → Nat → FpLane}

theorem floatWord_of_fpWrite (he : ∀ w s, exec (mk w) s = runWord (mk w) (fun c t => c.fpWrite t w.d (f w c)) s) :
    FloatWord mk f := by
  intro w s c t h
  obtain ⟨u, hu, hw⟩ := runWord_fpWrite h (fun c t => c.fpWrite t w.d (f w c)) w.d (f w c) rfl
  exact ⟨u, (he w s).trans hu, hw⟩

theorem floatLong_of_fpLong (he : ∀ w s, exec (mk w) s = runWord (mk w) (fun c t => c.fpLong t w.d (f w c)) s) :
    FloatLong mk f := by
  intro w s c t h hfull
  obtain ⟨u, hu, hs⟩ := runWord_fpLong h hfull (fun c t => c.fpLong t w.d (f w c)) w.d (f w c) rfl
  exact ⟨u, (he w s).trans hu, hs⟩

end

/-- Settles O13: each form counts and writes what its function gives for a lane. -/
theorem floatArithmeticWords : Obligations.FloatArithmeticWords := by
  refine ⟨?_, ?_, ?_, ?_, ?_, ?_, ?_, ?_, ?_, ?_⟩ <;> exact floatWord_of_fpWrite fun _ _ => rfl

/-- Settles O14: each form counts its events at issue and leaves its results pending. -/
theorem longFloatWords : Obligations.LongFloatWords := by
  refine ⟨?_, ?_, ?_, ?_, ?_, ?_, ?_, ?_, ?_⟩ <;> exact floatLong_of_fpLong fun _ _ => rfl

/-- Settles O15: each form counts and writes what its conversion, dot product or block scale gives for a lane. -/
theorem conversionsAndBlockScales : Obligations.ConversionsAndBlockScales := by
  refine ⟨?_, ?_, ?_, ?_, ?_, ?_, ?_, ?_, ?_, ?_, ?_, ?_⟩ <;> exact floatWord_of_fpWrite fun _ _ => rfl

end Sys2Proof.Machine
end

section
/-! SUPPORT. Flags, time and barrier objects: what FLAGRD, TIME and CYCLE read, and what BOREAD, BOINIT and BOARR come to by the
checks of their object (07 R202 to R206, 08 R214, R218 to R221). -/

namespace Sys2Proof.Machine

/-! ## Flags and time (07 R202, R204 to R206) -/

theorem exec_flagrd (w : VWord) (s : State) : exec (.flagrd w) s = execFlagrd w s := rfl
theorem exec_flagrdCnt (w : VWord) (s : State) : exec (.flagrdCnt w) s = execFlagrdCnt w s := rfl
theorem exec_time (w : VWord) (s : State) : exec (.time w) s = execTime w s := rfl
theorem exec_cycle (w : VWord) (s : State) : exec (.cycle w) s = execCycle w s := rfl

/-- The clock stands still while a word issues. -/
theorem rt_of_issueOf {i : Instr} {s t : State} {c : Ctx} (h : issueOf i s = some (c, t)) : t.rt = s.rt := by
  rw [(issueOf_start h).1.eq]
  rfl

theorem cluster_of_issueOf {i : Instr} {s t : State} {c : Ctx} (h : issueOf i s = some (c, t)) (k : Nat) :
    t.cluster k = s.cluster k := by
  rw [(issueOf_start h).1.eq]
  rfl

theorem time_reads {w : VWord} {s t : State} {c : Ctx} (h : issueOf (.time w) s = some (c, t)) :
    Completes (.time w) s c [] w.d fun _ => [s.rt.extractLsb' 0 32, s.rt.extractLsb' 32 32] := by
  refine completes_of_outcome h (exec_time w s) ?_
  rw [← rt_of_issueOf h]
  rfl

theorem cycle_reads {w : VWord} {s t : State} {c : Ctx} (h : issueOf (.cycle w) s = some (c, t)) :
    Completes (.cycle w) s c [] w.d fun _ =>
      let v := BitVec.ofNat 64 (s.cluster (clusterOf c.core)).cycles
      [v.extractLsb' 0 32, v.extractLsb' 32 32] := by
  refine completes_of_outcome h (exec_cycle w s) ?_
  rw [← cluster_of_issueOf h]
  rfl

/-! ## The ends of a word that uses an object -/

section
variable {i : Instr} {s t : State} {c : Ctx} {body : Ctx → State → WordOut} (h : issueOf i s = some (c, t))
  (he : exec i s = runWord i body s)
include h he

theorem traps_of_outcome {x : Cause} (hb : body c t = c.trap x t) : Traps i s t c x c.here :=
  runWord_traps h body (hb.trans (trap_eq c x t)) he

theorem wrote_of_outcome {b : State} {d : BitVec 7} {f : Nat → List W32} (hb : body c t = c.write b d f)
    (k : OnlyMemory t b) : ∃ u, exec i s = .next u ∧ WroteFrom c b u [] d f :=
  ⟨_, exec_of_outcome h he hb, wroteFrom_writeLanes h (k.keepsPlace.samePlace c) [] d f⟩

theorem movedOn_of_outcome {b : State} (hb : body c t = .done b []) (k : OnlyMemory t b) :
    ∃ u, exec i s = .next u ∧ MovedOn c b u [] := by
  obtain ⟨hg, hcore⟩ := (k.keepsPlace.samePlace c).core h
  exact ⟨_, exec_of_outcome h he hb, movedOn_advance [] hg rfl hcore⟩

end

/-! ## The checks of an object (08 R210, R214) -/

namespace State

/-- The checks of an object are its alignment, then its place in the scratchpad, then the range locks. -/
theorem objUse_eq_checks (s : State) (core bid o n align : Nat) (write : Bool) :
    s.objUse core bid o n align write = ((if o % align = 0 then none else s.objCheck bid o n align).orElse fun _ =>
      s.scratchCheck bid o n).orElse fun _ => s.objLock core bid o n write := by
  unfold objUse
  by_cases h : o % align = 0
  · simp [objCheck, h]
  · simp [objCheck, h]

theorem objUse_eq_none_iff (s : State) (core bid o n align : Nat) (write : Bool) : s.objUse core bid o n align write = none ↔
    (if o % align = 0 then none else s.objCheck bid o n align) = none ∧ s.scratchCheck bid o n = none ∧
      s.objLock core bid o n write = none := by
  rw [objUse_eq_checks, Option.orElse_eq_or, Option.or_eq_none_iff, Option.orElse_eq_or, Option.or_eq_none_iff, and_assoc]

theorem only_putBarObj (s : State) (bid o : Nat) (x : BarObj) : OnlyMemory s (s.putBarObj bid o x) := only_scratchWrite ..

theorem only_arriveAt (s : State) (bid o n : Nat) : OnlyMemory s (s.arriveAt bid o n).1 := by
  unfold arriveAt
  split
  · exact only_putBarObj ..
  · exact .refl s

end State

/-! ## BOREAD (07 R203) -/

theorem exec_boread (w : VWord) (s : State) : exec (.boread w) s = execBoread w s := rfl

section
variable {w : VWord} {s t : State} {c : Ctx} (h : issueOf (.boread w) s = some (c, t))
include h

theorem boread_reads (hok : ∀ i ∈ c.real, t.objUse c.core c.bid (c.rd w.a i).toNat 16 16 false = none) :
    Completes (.boread w) s c [] w.d fun i =>
      if (t.objUse c.core c.bid (c.rd w.a i).toNat 16 16 false).isSome then [0, 0, 0, 0]
      else (List.range 4).map fun k => t.scratchWord c.bid ((c.rd w.a i).toNat + 4 * k) := by
  simp only [State.objUse_eq_none_iff, imp_and, forall_and] at hok
  obtain ⟨halign, hplace, hlock⟩ := hok
  refine completes_of_outcome h (exec_boread w s) ?_
  dsimp only
  rw [List.findSome?_eq_none_iff.2 halign, List.findSome?_eq_none_iff.2 hplace, List.findSome?_eq_none_iff.2 hlock]
  rfl

theorem boread_traps {i : Nat} {x : Cause} (hr : c.real = [i])
    (hx : t.objUse c.core c.bid (c.rd w.a i).toNat 16 16 false = some x) : Traps (.boread w) s t c x c.here := by
  refine traps_of_outcome h (exec_boread w s) ?_
  rw [State.objUse_eq_checks] at hx
  simp only [hr, List.findSome?_singleton, hx]

end

/-! ## BOINIT (08 R220) -/

theorem exec_boinit (w : VWord) (s : State) : exec (.boinit w) s = execBoinit w s := rfl

section
variable {w : VWord} {s t : State} {c : Ctx} {l : Nat} (h : issueOf (.boinit w) s = some (c, t)) (hl : c.l0 = some l)
include h hl

theorem boinit_traps_check {x : Cause} (hx : t.objUse c.core c.bid (c.rd w.a l).toNat 16 16 true = some x) :
    Traps (.boinit w) s t c x c.here :=
  traps_of_outcome h (exec_boinit w s) (by simp only [hl, hx])

variable (hok : t.objUse c.core c.bid (c.rd w.a l).toNat 16 16 true = none)
include hok

theorem boinit_traps_zero (he : (c.rd w.b l).toNat = 0) :
    Traps (.boinit w) s t c (Cause.misuse (c.rd w.a l).toNat) c.here :=
  traps_of_outcome h (exec_boinit w s) (by simp only [hl, hok, he, if_true])

theorem boinit_initialises (he : (c.rd w.b l).toNat ≠ 0) :
    let o := (c.rd w.a l).toNat
    let b := t.putBarObj c.bid o ⟨(c.rd w.b l).toNat, 0, (t.barObj c.bid o).phase, if w.ebit 5 then 1 else 0⟩
    OnlyMemory t b ∧ ∃ u, exec (.boinit w) s = .next u ∧ MovedOn c b u [] :=
  ⟨State.only_putBarObj .., movedOn_of_outcome h (exec_boinit w s) (by simp only [hl, hok, he, if_false])
    (State.only_putBarObj ..)⟩

end

/-! ## BOARR (08 R221) -/

/-- What BOARR adds to the arrived count (08 R221). -/
def Ctx.arrivals (c : Ctx) (w : VWord) (l : Nat) : Nat := if w.b.reg = noReg then 1 else (c.rd w.b l).toNat

theorem exec_boarr (w : VWord) (s : State) : exec (.boarr w) s = execBoarr w s := rfl

section
variable {w : VWord} {s t : State} {c : Ctx} {l : Nat} (h : issueOf (.boarr w) s = some (c, t)) (hl : c.l0 = some l)
  (hok : t.objUse c.core c.bid (c.rd w.a l).toNat 16 16 true = none)
include h hl hok

theorem boarr_traps_refused (hn : (t.arriveAt c.bid (c.rd w.a l).toNat (c.arrivals w l)).2 = false) :
    Traps (.boarr w) s t c (Cause.misuse (c.rd w.a l).toNat) c.here := by
  refine traps_of_outcome h (exec_boarr w s) ?_
  rcases hb : t.arriveAt c.bid (c.rd w.a l).toNat (c.arrivals w l) with ⟨b, taken⟩
  rw [hb] at hn
  cases hn
  unfold Ctx.arrivals at hb
  simp only [hl, hok, hb]

theorem boarr_writes_phase (hn : (t.arriveAt c.bid (c.rd w.a l).toNat (c.arrivals w l)).2 = true) :
    ∃ u, exec (.boarr w) s = .next u ∧ WroteFrom c (t.arriveAt c.bid (c.rd w.a l).toNat (c.arrivals w l)).1 u [] w.d
      fun _ => [BitVec.ofNat 32 (t.barObj c.bid (c.rd w.a l).toNat).phase] := by
  refine wrote_of_outcome h (exec_boarr w s) ?_ (State.only_arriveAt ..)
  rcases hb : t.arriveAt c.bid (c.rd w.a l).toNat (c.arrivals w l) with ⟨b, taken⟩
  rw [hb] at hn
  cases hn
  unfold Ctx.arrivals at hb
  simp only [hl, hok, hb]

end

/-- Settles O41: the reads take what stands at the issue, and each word of a barrier object goes by the checks of the object. -/
theorem flagsTimeAndObjects : Obligations.FlagsTimeAndObjects :=
  ⟨wordV_of_write exec_flagrd fun _ _ _ => rfl, wordV_of_write exec_flagrdCnt fun _ _ _ => rfl, fun _ _ _ _ => time_reads,
    fun _ _ _ _ => cycle_reads, fun _ _ _ _ h => ⟨boread_reads h, fun _ _ => boread_traps h⟩,
    fun _ _ _ _ _ h hl => ⟨fun _ => boinit_traps_check h hl, boinit_traps_zero h hl, boinit_initialises h hl⟩,
    fun _ _ _ _ _ h hl hok => ⟨boarr_traps_refused h hl hok, boarr_writes_phase h hl hok⟩⟩

end Sys2Proof.Machine
end

section
/-! SUPPORT. WAIT that goes on with the loop of an earlier issue: a kept loop that names a lane past the last, so that the word's
result falls on a register of another lane (07 R198, R201). -/

namespace Sys2Proof.Machine

/-- `WAIT.any x8, x16, x24`. -/
def waitWord : VWord := ⟨⟨0, 0, 0, 0, 0, 0⟩, 0, ⟨0, 127⟩, ⟨0, 24⟩, ⟨0, 16⟩, 8⟩

/-- A loop that has been left with descriptor 0 met, and whose only Active lane is 32. No WAIT enters such a loop, since Active has
lanes below 32 (04 R97), but a `State` can hold it. -/
def strayLoop : WaitLoop :=
  { start := 0, timeout := 5, all := false, act := [32], descs := [⟨1, 0, 11⟩], met := [0], held := [], res := some 1 }

/-- The word at its issue, in a group that has kept that loop of an earlier issue of it. -/
def resumesStray : State :=
  let s := State.reset.loadWord ((encode? (.wait waitWord)).getD 0)
  { s.modGroup 32 fun g => { g with saved := some (0x10008, .wait strayLoop) } with issuing := some 32 }

/-- Register 9 of lane 0 in the next state. -/
def nextX9 : Out → Option W32
  | .next u => (u.group? 32).map fun g => g.reg 0 9
  | _ => none

/-- The word issues with the loop kept, and register 9 of lane 0 holds 0. -/
theorem issueOf_resumesStray : ((issueOf (.wait waitWord) resumesStray).map fun p =>
    (p.1.gid, p.1.savedHere, p.1.o.g.reg 0 9)) = some (32, some (.wait strayLoop), 0) := by decide +kernel

/-- The word writes its result 1 there: register 8 of lane 32 has the place of register 9 of lane 0. -/
theorem exec_resumesStray : nextX9 (exec (.wait waitWord) resumesStray) = some 1 := by decide +kernel

/-- Refutes O40 in its second clause: the result of a loop that had ended goes to the lanes that the loop names, for which the
statement does not ask that they are lanes. A loop of lane 32 changes register 9 of lane 0, which the clause keeps as it was. -/
theorem not_waitWords : ¬ Obligations.WaitWords := by
  rintro ⟨-, hresult, -⟩
  obtain ⟨⟨c, t⟩, hissue, hc⟩ := Option.map_eq_some_iff.1 issueOf_resumesStray
  simp only [Prod.mk.injEq] at hc
  obtain ⟨hgid, hsaved, hold⟩ := hc
  obtain ⟨u, hexec, hwrote⟩ := hresult waitWord resumesStray c t strayLoop 1 hissue hsaved rfl
  obtain ⟨g, hg, -, -, hregs⟩ := hwrote.group
  have hnew : g.reg 0 9 = 1 := by
    have h := exec_resumesStray
    rw [hexec] at h
    simpa [nextX9, ← hgid, hg] using h
  have hsame : g.reg 0 9 = c.o.g.reg 0 9 := hregs 0 (by decide) 9
  rw [hnew, hold] at hsame
  exact absurd hsame (by decide)

end Sys2Proof.Machine
end

section
/-! SUPPORT. The directory of an L2 slice: its answer to a request from each of its states, and that a write is granted no byte
that another core owns (10 R275). -/

namespace Sys2Proof.Machine

namespace State

/-! ## The bytes of the other participants (10 R274) -/

theorem and_or_eq_zero {n : Nat} {x a b : BitVec n} : x &&& (a ||| b) = 0 ↔ x &&& a = 0 ∧ x &&& b = 0 := by
  rw [BitVec.and_or_distrib_left]
  exact BitVec.or_eq_zero_iff

theorem and_othersMask_eq_zero {x : BitVec 128} {l : List (Nat × BitVec 128)} {c : Nat} :
    x &&& othersMask l c = 0 ↔ ∀ e ∈ l, e.1 ≠ c → x &&& e.2 = 0 := by
  suffices h : ∀ a : BitVec 128, x &&& l.foldl (fun m e => if e.1 = c then m else m ||| e.2) a = 0 ↔
      x &&& a = 0 ∧ ∀ e ∈ l, e.1 ≠ c → x &&& e.2 = 0 from
    (h 0).trans (and_iff_right BitVec.and_zero)
  induction l with
  | nil => simp
  | cons e l ih =>
    intro a
    rw [List.foldl_cons, ih, List.forall_mem_cons]
    split
    · simp [*]
    · rw [and_or_eq_zero, and_assoc, imp_iff_right ‹_›]

/-! ## The answers from each state (10 R275) -/

section
variable {l : List Nat} {m x : BitVec 128} {k c : Nat} {w : Bool}

theorem dirNext_shared_sole_writer (h : ∀ k ∈ l, k = c) : dirNext (.s l) c true x = some (.o c x) := by
  have hall : l.all (· == c) = true := by simpa using h
  simp [dirNext, hall]

theorem dirNext_shared_writer (h : ∃ k ∈ l, k ≠ c) : dirNext (.s l) c true x =
    if (insertNat c l).length ≤ 8 then some (.p ((insertNat c l).map fun k => (k, if k = c then x else 0))) else none := by
  have hall : l.all (· == c) = false := by simpa using h
  simp [dirNext, hall]

theorem dirNext_owned_same : dirNext (.o c m) c w x = some (.o c (if w then m ||| x else m)) := by simp [dirNext]

theorem dirNext_owned_overlap (hk : k ≠ c) (h : x &&& m ≠ 0) : dirNext (.o k m) c w x = none := by
  rw [dirNext, if_neg hk, if_neg h]

theorem dirNext_owned_apart (hk : k ≠ c) (h : x &&& m = 0) :
    dirNext (.o k m) c w x = some (.p (tput [(k, m)] c (if w then x else 0))) := by simp [dirNext, hk, h]

end

section
variable {l : List (Nat × BitVec 128)} {m x : BitVec 128} {c : Nat} {w : Bool}

theorem dirNext_parts_overlap (h : x &&& othersMask l c ≠ 0) : dirNext (.p l) c w x = none :=
  if_pos (bne_iff_ne.2 h)

theorem dirNext_parts_known (h : x &&& othersMask l c = 0) (hm : tget? l c = some m) :
    dirNext (.p l) c w x = some (.p (tput l c (if w then m ||| x else m))) := by simp [dirNext, h, hm]

theorem dirNext_parts_new (h : x &&& othersMask l c = 0) (hn : tget? l c = none) :
    dirNext (.p l) c w x = if l.length < 8 then some (.p (tput l c (if w then x else 0))) else none := by
  simp [dirNext, h, hn]

end

/-- A merge comes first where the directory has no answer, and the request is then served from I. -/
theorem dirTurn_snd_of_none (s : State) {c pline : Nat} {w : Bool} {x : BitVec 128} {y : L2Line}
    (h : dirNext y.dir c w x = none) : (s.dirTurn c pline w x y).2 = if w then .o c x else .s [c] := by
  simp only [dirTurn, h]
  rfl

/-! ## No byte has two owners (10 R275) -/

theorem length_tput_of_new {α : Type} {k c : Nat} (hk : k ≠ c) (v w : α) : (tput [(k, v)] c w).length = 2 := by
  simp only [tput, hk, if_false]
  split <;> rfl

/-- The participants of a write to a shared line own nothing but what the writer writes. -/
theorem tgetD_map_sole (l : List Nat) (c : Nat) (x : BitVec 128) {k : Nat} (hk : k ≠ c) :
    tgetD 0 (l.map fun q => (q, if q = c then x else 0)) k = 0 := by
  induction l with
  | nil => rfl
  | cons q l ih =>
    simp only [tgetD, List.map_cons, tget?] at ih ⊢
    split
    · subst q
      simp [hk]
    · exact ih

theorem tgetD_tput_other {α : Type} (d : α) (t : List (Nat × α)) {n k : Nat} (v : α) (hk : k ≠ n) :
    tgetD d (tput t n v) k = tgetD d t k := by simp [tgetD, hk]

/-- After a granted write another core owns what it owned before it. -/
theorem maskOf_of_dirNext {d y : DirState} {c k : Nat} {x : BitVec 128} (h : dirNext d c true x = some y) (hk : k ≠ c) :
    y.maskOf k = d.maskOf k := by
  cases d with
  | i =>
    cases h
    exact if_neg hk
  | s l =>
    by_cases hl : ∃ q ∈ l, q ≠ c
    · rw [dirNext_shared_writer hl] at h
      split at h
      · cases h
        exact tgetD_map_sole _ c x hk
      · cases h
    · rw [dirNext_shared_sole_writer (by simpa using hl)] at h
      cases h
      exact if_neg hk
  | o q m =>
    by_cases hq : q = c
    · subst q
      rw [dirNext_owned_same] at h
      cases h
      exact (if_neg hk).trans (if_neg hk).symm
    · by_cases hx : x &&& m = 0
      · rw [dirNext_owned_apart hq hx] at h
        cases h
        refine (tgetD_tput_other 0 _ _ hk).trans ?_
        simp only [DirState.maskOf, tgetD, tget?, eq_comm (a := q)]
        split <;> rfl
      · rw [dirNext_owned_overlap hq hx] at h
        cases h
  | p l =>
    by_cases hx : x &&& othersMask l c = 0
    · cases hm : tget? l c with
      | some m =>
        rw [dirNext_parts_known hx hm] at h
        cases h
        exact tgetD_tput_other 0 l _ hk
      | none =>
        rw [dirNext_parts_new hx hm] at h
        split at h
        · cases h
          exact tgetD_tput_other 0 l _ hk
        · cases h
    · rw [dirNext_parts_overlap hx] at h
      cases h

/-- The directory asks for a merge before it grants a write of bytes that another core owns. -/
theorem and_maskOf_of_dirNext {d y : DirState} {c k : Nat} {x : BitVec 128} (h : dirNext d c true x = some y) (hk : k ≠ c) :
    x &&& d.maskOf k = 0 := by
  cases d with
  | i => exact BitVec.and_zero
  | s l => exact BitVec.and_zero
  | o q m =>
    by_cases hq : k = q
    · have hx : x &&& m = 0 := Decidable.byContradiction fun hx => by
        rw [dirNext_owned_overlap (hq ▸ hk) hx] at h
        cases h
      rwa [DirState.maskOf, if_pos hq]
    · rw [DirState.maskOf, if_neg hq]
      exact BitVec.and_zero
  | p l =>
    have hx : x &&& othersMask l c = 0 := Decidable.byContradiction fun hx => by
      rw [dirNext_parts_overlap hx] at h
      cases h
    cases hm : tget? l k with
    | some m =>
      rw [DirState.maskOf, tgetD, hm]
      exact and_othersMask_eq_zero.1 hx _ (mem_of_tget? hm) hk
    | none =>
      rw [DirState.maskOf, tgetD, hm]
      exact BitVec.and_zero

end State

/-- Settles O38: each answer is the one of the directory's state, and a write that is granted leaves every other core the bytes it
had, none of which it asks for. -/
theorem directoryAnswers : Obligations.DirectoryAnswers := by
  refine ⟨fun _ _ => ⟨rfl, rfl⟩, fun _ _ _ => rfl, fun _ _ _ => ⟨State.dirNext_owned_same, State.dirNext_owned_same⟩,
    fun _ _ _ _ _ => State.dirNext_owned_overlap, fun _ _ _ _ => State.dirNext_parts_overlap,
    fun _ _ _ => State.dirNext_shared_sole_writer, fun _ _ _ => State.dirNext_shared_writer, ?_,
    fun _ _ _ _ _ => State.dirNext_parts_known, fun _ _ _ _ => State.dirNext_parts_new,
    fun s _ _ _ _ _ => State.dirTurn_snd_of_none s, ?_⟩
  · intro k m c x w hk hx
    refine ⟨_, State.dirNext_owned_apart hk hx, State.length_tput_of_new hk .., ?_, tget?_tput_same ..⟩
    rw [tget?_tput_other _ _ _ _ hk, tget?, if_pos rfl]
  · intro d c x y h k hk
    rw [State.maskOf_of_dirNext h hk]
    exact State.and_maskOf_of_dirNext h hk

end Sys2Proof.Machine
end

section
/-! SUPPORT. A store and a load that the L1 does not take: an L1 set that holds nine lines, one more than its ways, so that the load
too writes a line back before it reads, and an error record in between falls on the bytes stored (10 R268, R272, R279, 13 R372). -/

namespace Sys2Proof.Machine

/-- A self-invalidating page of address 0x20000, mapped to itself. -/
def selfPage : TlbEntry :=
  { asid := 0, vpage := 2, lvl := 1, ok := true, frame := 2, home := 0, coh := true, g := false, x := true, w := true
    r := true, tags := [], hold := [] }

/-- Self-invalidating L1 lines of one set, each with a dirty byte. -/
def dirtyLine (k : Nat) : L1Line := ⟨128 * k, 0, false, true, true, 2048 + k, true, .default, .default, 1, 1, 0⟩

/-- Nine such lines in core 0, the eighth of them uncorrectable in memory, the error ring on the bytes of the page, and no
translation in the cluster TLB, so that accesses to the page are served at the L2. -/
def crowdedSet : State :=
  ({ State.reset with
    sets := [(0, ⟨2 ^ 29, false, List.range 32, List.range 32, 0, true, false⟩)]
    bad := [2055]
    errRing := some ⟨0x20000, 12, 0⟩ } : State).setCore 0 { Core.idle with l1 := (List.range 9).map dirtyLine }

theorem usable_crowdedSet : crowdedSet.usable (selfPage.phys 0x20000) = true ∧
    (crowdedSet.storeBytes 0 selfPage 0 0x20000 [1] 0).usable (selfPage.phys 0x20000) = true := by decide +kernel

/-- The store writes back the ninth line and the load the eighth, whose retirement posts a record of kind 2 over the byte stored. -/
theorem loadBytes_crowdedSet :
    ((crowdedSet.storeBytes 0 selfPage 0 0x20000 [1] 0).loadBytes 0 selfPage 0 0x20000 1 0).2 = [2] := by decide +kernel

/-- Refutes O34: the statement asks neither that the L1 takes the line nor that an L1 set holds at most its eight ways. Core 0 of
`crowdedSet` stores 1 and loads 2, the kind of the error record that the load itself gives rise to. -/
theorem not_loadAfterStore : ¬ Obligations.LoadAfterStore := by
  intro h
  obtain ⟨hbefore, hafter⟩ := usable_crowdedSet
  have hload := (h crowdedSet 0 selfPage 0 0x20000 [1] 0 0 rfl (by decide) (by decide) hbefore (.inl (by decide)) (.inl (by decide))
    (by decide) (by decide) hafter).1
  exact absurd (hload.symm.trans loadBytes_crowdedSet) (by decide)

end Sys2Proof.Machine
end

section
/-! SUPPORT. The events of memory: what the retirement of a line and of LLC capacity leaves, and what each event comes to by its
conditions (10 R271, R280, R287, R288, 13 R363 to R374, 18 R478). -/

namespace Sys2Proof.Machine

namespace State

/-! ## Uncorrectable lines are met once (13 R372) -/

/-- A fold of steps that find no line uncorrectable finds none. -/
theorem foldl_bad_subset {α : Type} {f : State → α → State} (h : ∀ s x, (f s x).bad ⊆ s.bad) (l : List α) (s : State) :
    (l.foldl f s).bad ⊆ s.bad :=
  List.foldlRecOn l f (motive := fun t => t.bad ⊆ s.bad) (List.Subset.refl _) fun t ht x _ => List.Subset.trans (h t x) ht

variable (s : State)

@[simp] theorem storeLine_bad (a : Nat) (m : BitVec 128) (d : BitVec 1024) : (s.storeLine a m d).bad = s.bad := by
  unfold storeLine
  split <;> rfl

@[simp] theorem spareLine_bad (a : Nat) (m : BitVec 128) : (s.spareLine a m).bad = s.bad.filter (· != a) :=
  storeLine_bad _ a _ 0

theorem rawPutLine_bad_subset (a : Nat) (m : BitVec 128) (d : BitVec 1024) : (s.rawPutLine a m d).bad ⊆ s.bad := by
  unfold rawPutLine
  dsimp only
  split
  · rw [storeLine_bad]
    exact List.Subset.refl _
  · split
    · rw [storeLine_bad]
      exact List.filter_sublist.subset
    · rw [spareLine_bad, storeLine_bad]
      exact List.filter_sublist.subset

@[simp] theorem mergeLine_bad (p l : Nat) : (s.mergeLine p l).bad = s.bad := by
  unfold mergeLine
  split
  · rfl
  · split
    · rfl
    · refine List.foldlRecOn _ _ (motive := fun r : State × L2Line => r.1.bad = s.bad) rfl fun r hr c _ => ?_
      dsimp only
      split
      · exact hr
      · split <;> exact hr

theorem rawRecall_bad_subset (l : Nat) : (s.rawRecall l).bad ⊆ s.bad := by
  unfold rawRecall
  dsimp only
  split
  · exact List.Subset.refl _
  · dsimp only
    refine List.Subset.trans (foldl_bad_subset (f := fun s p => s.modChiplet p fun c => { c with l2 := l2Drop c.l2 l })
      (fun s _ => List.Subset.refl s.bad) _ _) ?_
    refine List.Subset.trans (foldl_bad_subset (fun s (x : L2Line) => rawPutLine_bad_subset s l x.dirty x.data) _ _) ?_
    have hmerge : ((s.l2Holders l).foldl (fun s p => s.mergeLine p l) s).bad ⊆ s.bad :=
      foldl_bad_subset (fun s p => by simp) _ s
    split
    · exact List.Subset.trans (rawPutLine_bad_subset ..) hmerge
    · exact hmerge

@[simp] theorem backInvalidate_bad (l : Nat) : (s.backInvalidate l).bad = s.bad := by
  unfold backInvalidate
  split <;> rfl

theorem rawWrite_bad_subset (a : Nat) (l : List Byte) : (s.rawWrite a l).bad ⊆ s.bad := by
  have h := rawRecall_bad_subset (s.backInvalidate (a / 128)) (a / 128)
  rw [backInvalidate_bad] at h
  exact List.Subset.trans (rawPutLine_bad_subset ..) h

theorem putRecord_bad_subset (a b c d e f : Nat) : (s.putRecord a b c d e f).1.bad ⊆ s.bad := by
  unfold putRecord
  split
  · exact List.Subset.refl _
  · dsimp only [postMsix]
    exact rawWrite_bad_subset s _ _

theorem recordsOf_bad_subset (n : Nat) : ∀ (s : State) (l : Option Nat), (s.recordsOf n l).bad ⊆ s.bad := by
  induction n with
  | zero => intro s l; cases l <;> exact List.Subset.refl _
  | succ n ih =>
    intro s l
    cases l with
    | none => exact List.Subset.refl _
    | some l => exact List.Subset.trans (ih _ _) (putRecord_bad_subset ..)

theorem postError_bad_subset (a b c d e f : Nat) : (s.postError a b c d e f).bad ⊆ s.bad :=
  List.Subset.trans (recordsOf_bad_subset ..) (putRecord_bad_subset ..)

theorem not_mem_retireLine_bad (l : Nat) (m : BitVec 128) : l ∉ (s.retireLine l m).bad := fun h => by
  simpa using postError_bad_subset _ _ _ _ _ _ _ h

/-! ## Retired LLC capacity (10 R271) -/

theorem only_trimLlc (k : Nat) : OnlyMemory s (s.trimLlc k) := by
  refine .foldl (fun s x => ?_) _ s
  split
  · split
    · exact only_llcEvict ..
    · exact .refl s
  · exact .refl s

end State

/-- Time goes on by events of its own. -/
theorem OnlyMemory.now {s u : State} (h : OnlyMemory s u) : u.now = s.now := (congrArg State.now h.rest).trans rfl

/-! ## The Drift Engine (13 R363 to R366) -/

/-- The tideline advances in its own set. -/
theorem State.advanceTide_set (n : Nat) : ∀ m : Migration, (State.advanceTide m n).set = m.set := by
  induction n with
  | zero => exact fun _ => rfl
  | succ n ih =>
    intro m
    unfold advanceTide
    split
    · exact ih _
    · rfl

section
variable {s : State} {e line : Nat} {r : Retirement} {m : Migration} {t : Transit} (hm : s.drifting e = some (r, m))
include hm

theorem driftLineTake_takes (hin : State.nextLine m < m.lines) (hnear : State.nextLine m < m.tide + 64)
    (hroom : m.transit.length < 64) (hshare : s.shareLeft e (s.driftChannel m m.old (State.nextLine m)) = true) :
    exec (.driftLineTake e) s = .next (((s.recallHome (State.setLine m.set (State.nextLine m))).useShare e
      (s.driftChannel m m.old (State.nextLine m))).setMigration e m.set
        { m with transit := tput m.transit (State.nextLine m) ⟨false, 0⟩ }) := by
  have hwait : (decide (m.lines ≤ State.nextLine m) || decide (m.tide + 64 ≤ State.nextLine m) ||
      decide (64 ≤ m.transit.length)) = false := by
    simp only [Bool.or_eq_false_iff, decide_eq_false_iff_not]
    omega
  change execDriftLineTake e s = _
  simp only [execDriftLineTake, hm, hwait, hshare, Bool.not_true, Bool.or_false, Bool.false_eq_true, if_false]

theorem driftLineDataArrival_arrives (ht : tget? m.transit line = some t) (hout : t.arrived = false)
    (hgood : State.setLine m.set line ∉ s.bad) : exec (.driftLineDataArrival e line) s =
      .next (s.setMigration e m.set { m with transit := tput m.transit line ⟨true, 0⟩ }) := by
  change execDriftLineDataArrival e line s = _
  simp [execDriftLineDataArrival, hm, ht, hout, hgood]

theorem driftLineLand_lands (ht : tget? m.transit line = some t) (hin : t.arrived = true)
    (hshare : s.shareLeft e (s.driftChannel m m.new line) = true) :
    exec (.driftLineLand e line) s = .next (((s.recallHome (State.setLine m.set line)).useShare e
      (s.driftChannel m m.new line)).setMigration e m.set
      (State.advanceTide { m with transit := tdel m.transit line, landed := insertNat line m.landed } 65)).settleRetirements := by
  change execDriftLineLand e line s = _
  simp [execDriftLineLand, hm, ht, hin, hshare, State.advanceTide_set]

end

/-! ## Scrubbing, recalibration and reports (13 R370, R373, R374, 10 R271) -/

/-- The state in which a scrub read finds its pass: a new one where the time of the one before is over. -/
def State.scrubPass (s : State) : State :=
  if s.scrubSince + s.scrubPeriod ≤ s.now then { s with scrubSince := s.now, scrubbed := [] } else s

@[simp] theorem State.scrubPass_bad (s : State) : s.scrubPass.bad = s.bad := by
  unfold scrubPass
  split <;> rfl

theorem exec_scrubRead (p : Nat) (s : State) : exec (.scrubRead p) s =
    if !isDevice (128 * p) || s.scrubPass.scrubbed.contains p then .next s.scrubPass
    else .next (State.memFetch { s.scrubPass with scrubbed := insertNat p s.scrubPass.scrubbed } p) := rfl

theorem scrubRead_again {s : State} {p : Nat} (h : p ∈ s.scrubPass.scrubbed) : exec (.scrubRead p) s = .next s.scrubPass := by
  simp [exec_scrubRead, h]

theorem scrubRead_fetches {s : State} {p : Nat} (hp : isDevice (128 * p) = true) (h : p ∉ s.scrubPass.scrubbed) :
    exec (.scrubRead p) s = .next (State.memFetch { s.scrubPass with scrubbed := insertNat p s.scrubPass.scrubbed } p) := by
  simp [exec_scrubRead, hp, h]

theorem State.memFetch_of_good {s : State} {p : Nat} (h : p ∉ s.bad) : s.memFetch p = s := if_neg (by simpa using h)

theorem State.memFetch_of_bad {s : State} {p : Nat} (h : p ∈ s.bad) : s.memFetch p = s.retireLine p 0 := if_pos (by simpa using h)

theorem phyRecalibration_starts {s : State} {c : Nat} (hlive : c ∈ s.liveChannels)
    (hdue : tgetD 0 s.recalAt c < s.now / State.ms 50 + 1) (hfree : tget? s.recalibrating c = none) :
    exec (.phyRecalibration c) s = .next { s with
      recalAt := tput s.recalAt c (s.now / State.ms 50 + 1), recalibrating := tput s.recalibrating c s.now } := by
  have hwait : (!s.liveChannels.contains c || decide (s.now / State.ms 50 + 1 ≤ tgetD 0 s.recalAt c) ||
      (tget? s.recalibrating c).isSome) = false := by simp [hlive, hfree, Nat.not_le.2 hdue]
  change execPhyRecalibration c s = _
  simp only [execPhyRecalibration, hwait, Bool.false_eq_true, if_false]

theorem correctedErrorReport_posts {s : State} {c : Nat} (hn : tgetD 0 s.corrected c ≠ 0)
    (hdue : ∀ t, tget? s.reported c = some t → t + State.ms 1000 ≤ s.now) :
    let t := s.postError 1 c 0 0 0 (tgetD 0 s.corrected c)
    exec (.correctedErrorReport c) s = .next { t with
      corrected := tset 0 t.corrected c 0, reported := tput t.reported c s.now } := by
  intro t
  have hnow : t.now = s.now := (State.only_postError ..).now
  change execCorrectedErrorReport c s = _
  rw [← hnow]
  cases h : tget? s.reported c with
  | none => simp [execCorrectedErrorReport, hn, h, t]
  | some x => simp [execCorrectedErrorReport, hn, h, hdue x h, t]

theorem llcCapacityRetirement_retires {s : State} {k : Nat} (hk : k < 4) (hleft : 2 ^ 20 ≤ (s.catWord 27).toNat)
    (hways : tgetD 0 s.llcRetired k < 92) : ∃ u,
      OnlyMemory { s with llcRetired := tset 0 s.llcRetired k (tgetD 0 s.llcRetired k + 1) } u ∧
        exec (.llcCapacityRetirement k) s = .next (u.commit [(27, s.catWord 27 - 2 ^ 20)]) := by
  refine ⟨_, State.only_trimLlc _ k, ?_⟩
  have hword : BitVec.ofNat 64 ((s.catWord 27).toNat - 2 ^ 20) = s.catWord 27 - 2 ^ 20 := by
    rw [show (2 ^ 20 : W64) = 1048576#64 from rfl]
    bv_omega
  have hrefused : (decide (4 ≤ k) || decide ((s.catWord 27).toNat < 2 ^ 20) || decide (92 ≤ tgetD 0 s.llcRetired k))
      = false := by
    simp only [Bool.or_eq_false_iff, decide_eq_false_iff_not]
    omega
  change execLlcCapacityRetirement k s = _
  simp only [execLlcCapacityRetirement, hrefused, hword, Bool.false_eq_true, if_false]

/-! ## Host accesses (10 R280, R288, 13 R355, R373, 18 R468) -/

theorem hostCxlCacheWrite_waits {s : State} {x : Nat} (mask : BitVec 64) (data : BitVec 512)
    (h : s.pteBusy (64 * x) 64 = true) : exec (.hostCxlCacheWrite x mask data) s = .next s := by
  change execHostCxlCacheWrite x mask data s = _
  simp [execHostCxlCacheWrite, h]

theorem hostCxlCacheWrite_writes {s : State} {x : Nat} (mask : BitVec 64) (data : BitVec 512) (hx : isHost (64 * x) = true)
    (h : s.pteBusy (64 * x) 64 = false) :
    let t := (s.recallHome (64 * x / 128)).pteWritten (64 * x) 64
    let u := t.memPutLine (64 * x / 128) ((mask.setWidth 128) <<< (64 * x % 128)) ((data.setWidth 1024) <<< (8 * (64 * x % 128)))
    exec (.hostCxlCacheWrite x mask data) s =
      .next { u with sectors := t.sectors.filter (· != x), hostSectors := insertNat x t.hostSectors } := by
  change execHostCxlCacheWrite x mask data s = _
  simp [execHostCxlCacheWrite, hx, h]

theorem State.offered_iff {s : State} {p : Nat} : s.offered p = true ↔ isDevice (128 * p) = true ∧
    ∃ k n t, s.setOf (128 * p) = some (k, n) ∧ tget? s.sets k = some t ∧ t.visible = true := by
  simp [offered, Option.any_eq_true]

theorem hostCxlMemAccess_fails {s : State} {p : Nat} (write poison : Bool) (mask : BitVec 128) (data : BitVec 1024)
    (h : s.offered p = false) :
    exec (.hostCxlMemAccess p write poison mask data) s = .next { s with hostReply := ⟨false, false, 0⟩ } := by
  change execHostCxlMemAccess p write poison mask data s = _
  simp [execHostCxlMemAccess, h]

section
variable {s : State} {p : Nat} (poison : Bool) (mask : BitVec 128) (data : BitVec 1024) (h : s.offered p = true)
include h

theorem hostCxlMemAccess_reads :
    let r := s.recallHome p
    let bias := (tget? r.frames (128 * p / 65536)).any (·.bias)
    let v : State := { r with hostReply := ⟨true, r.bad.contains p, r.memLine p⟩
                              hostLines := if bias then r.hostLines else insertNat p r.hostLines }
    exec (.hostCxlMemAccess p false poison mask data) s = .next (if p ∈ r.bad then v.retireLine p 0 else v) := by
  change execHostCxlMemAccess p false poison mask data s = _
  simp [execHostCxlMemAccess, h]

theorem hostCxlMemAccess_waits (hbusy : s.pteBusy (128 * p) 128 = true) :
    exec (.hostCxlMemAccess p true poison mask data) s = .next s := by
  change execHostCxlMemAccess p true poison mask data s = _
  simp [execHostCxlMemAccess, h, hbusy]

theorem hostCxlMemAccess_writes (hfree : s.pteBusy (128 * p) 128 = false) :
    let w := (s.recallHome p).pteWritten (128 * p) 128
    exec (.hostCxlMemAccess p true poison mask data) s =
      .next { (if poison then (w.retireLine p 0).storeLine p (BitVec.allOnes 128) 0 else w.memPutLine p mask data) with
        hostReply := ⟨true, false, 0⟩ } := by
  change execHostCxlMemAccess p true poison mask data s = _
  simp only [execHostCxlMemAccess, h, hfree, Bool.not_true, Bool.false_eq_true, if_false, if_true]

end

/-! ## Page moves (10 R287) -/

theorem pageHomeMove_requested {s : State} {pa home : Nat} {coh bias : Bool} {rest : List (Nat × Nat × Bool × Bool)}
    (hmoves : s.pageMoves = (pa, home, coh, bias) :: rest) (hfree : s.pinnedBy (pa / 65536) 0 = false) :
    exec (.pageHomeMove 0) s = .next ({ s with pageMoves := rest }.treatFrame (pa / 65536) home coh bias) := by
  change execPageHomeMove 0 s = _
  simp [execPageHomeMove, hmoves, hfree]

theorem pageHomeMove_of_launch {s : State} {l page f : Nat} {x : Launch} {bias : Bool} {rest : List (Nat × Bool)} {e : TlbEntry}
    (hl : l ≠ 0) (hx : s.launch? l = some x) (hstage : x.stage = .moves) (hstatus : x.status = none)
    (hmoves : x.moves = (page, bias) :: rest) (hf : s.frameOfPage x.aspace page = some (f, e)) (hfree : s.pinnedBy f l = false) :
    exec (.pageHomeMove l) s =
      .next ((s.setLaunch l { x with moves := rest }).treatFrame f e.home e.coh bias).enterPlacement := by
  change execPageHomeMove l s = _
  simp [execPageHomeMove, hl, hx, hstage, hstatus, hmoves, hf, hfree]

/-- Settles O52: under its conditions each event comes to the state named, a retired line is met once, and capacity that leaves an
LLC changes the memory system only. -/
theorem memoryEvents : Obligations.MemoryEvents := by
  refine ⟨fun _ _ _ _ => driftLineTake_takes, fun _ _ _ _ _ _ => driftLineDataArrival_arrives,
    fun _ _ _ _ _ _ => driftLineLand_lands, ?_, fun _ _ => phyRecalibration_starts, fun _ _ => rfl,
    fun _ _ => correctedErrorReport_posts, fun _ _ => llcCapacityRetirement_retires, ?_, ?_, ?_,
    fun _ _ _ _ _ _ => pageHomeMove_requested, fun _ _ _ _ _ _ _ _ => pageHomeMove_of_launch⟩
  · intro s p hp
    refine ⟨scrubRead_again, fun hnew hgood => ?_, fun hnew hbad => ⟨?_, State.not_mem_retireLine_bad _ p 0⟩⟩
    · rw [scrubRead_fetches hp hnew, State.memFetch_of_good (by simpa using hgood)]
      rfl
    · rw [scrubRead_fetches hp hnew, State.memFetch_of_bad (by simpa using hbad)]
      rfl
  · intro s x mask data hx
    exact ⟨hostCxlCacheWrite_waits mask data, fun h => ⟨hostCxlCacheWrite_writes mask data hx h, by simp⟩⟩
  · intro s p poison mask data k n t hp hset ht hvisible
    have h := State.offered_iff.2 ⟨hp, k, n, t, hset, ht, hvisible⟩
    exact ⟨hostCxlMemAccess_reads poison mask data h, hostCxlMemAccess_waits poison mask data h,
      hostCxlMemAccess_writes poison mask data h⟩
  · intro s p write poison mask data hout
    refine hostCxlMemAccess_fails write poison mask data (Bool.eq_false_iff.2 fun h => ?_)
    obtain ⟨hp, k, n, t, hset, ht, hvisible⟩ := State.offered_iff.1 h
    rcases hout with hhost | hnone | ⟨k', n', hset', hhidden⟩
    · simp [hp] at hhost
    · simp [hset] at hnone
    · obtain ⟨rfl, rfl⟩ : k = k' ∧ n = n' := by simpa [hset] using hset'
      simp [hhidden t ht] at hvisible

end Sys2Proof.Machine
end

section
/-! SUPPORT. Words that access memory for their group: what such a word comes to by its walks, by what an earlier copy holds back,
by its flag and by the checks of its accesses (02 R26, R27, 08 R223, 09 R247, R254, 18 R480). -/

namespace Sys2Proof.Machine

/-! ## Misses that join walks (09 R247) -/

namespace State

theorem joinWalk_eq (s : State) (core : Nat) (aspace : W64) (va : Nat) (join : WalkRec → WalkRec) :
    ∃ l n, (s.joinWalk core aspace va join).1 = { s with walks := l, fresh := n } := by
  unfold joinWalk
  dsimp only
  split
  · exact ⟨_, s.fresh, rfl⟩
  · exact ⟨_, _, rfl⟩

/-- Misses that wait change the walks in flight only. -/
theorem waitWalks_eq {s v : State} {core : Nat} {aspace : W64} {vas : List Nat} (h : s.waitWalks core aspace vas = some v) :
    v = { s with walks := v.walks, fresh := v.fresh } := by
  unfold waitWalks at h
  split at h
  · cases h
  · cases h
    refine List.foldlRecOn _ _ (motive := fun v : State => v = { s with walks := v.walks, fresh := v.fresh }) rfl
      fun v hv va _ => ?_
    obtain ⟨l, n, hj⟩ := v.joinWalk_eq core aspace va id
    rw [hj]
    generalize v.walks = x at hv
    generalize v.fresh = y at hv
    rw [hv]

end State

/-! ## The group of a word (09 R254, 17 R450) -/

/-- A group belongs to the same block, cohort and launch after accesses, whose effect on its block is on the scratchpad. -/
theorem OnlyMemory.owner? {s u : State} (k : OnlyMemory s u) {gid : Nat} {o : Owner} (h : s.owner? gid = some o) :
    ∃ x m, u.owner? gid = some { o with b := { o.b with scratch := x, hwm := m } } := by
  obtain ⟨hg, hb, hc, hl⟩ := owner?_group h
  obtain ⟨x, m, hblock⟩ := k.blocks o.g.block
  have eg : u.group? gid = some o.g := by rw [k.rest]; exact hg
  have eb : u.block? o.g.block = some { o.b with scratch := x, hwm := m } := by rw [hblock, hb]; rfl
  have ec : u.cohort? o.b.cohort = some o.c := by rw [k.rest]; exact hc
  have el : u.launch? o.c.launch = some o.l := by rw [k.rest]; exact hl
  refine ⟨x, m, ?_⟩
  unfold State.owner?
  simp only [Option.bind_eq_bind, Option.bind_some, eg, eb, ec, el]

@[simp] theorem Ctx.who_core (c : Ctx) (t : State) : (c.who t).core = c.core := rfl
@[simp] theorem Ctx.who_aspace (c : Ctx) (t : State) : (c.who t).aspace = c.o.l.aspace := rfl

theorem who?_of_issueOf {i : Instr} {s t : State} {c : Ctx} (h : issueOf i s = some (c, t)) : t.who? c.gid = some (c.who t) := by
  unfold State.who?
  rw [issueOf_owner h]
  rfl

/-! ## The ends of an access -/

/-- What the checks of a word's accesses come to: their cause, or what `f` makes of the targets. -/
def Checked.outcome (k : Checked) (f : State → List (Option Target) → State × List (Nat × Option W32)) :
    Except (Cause × State) (State × List (Nat × Option W32)) :=
  match k with
  | ⟨s, .error x⟩ => .error (x, s)
  | ⟨s, .ok ts⟩ => .ok (f s ts)

section
variable {i : Instr} {s t : State} {c : Ctx} {body : Ctx → State → WordOut} (h : issueOf i s = some (c, t))
  (he : exec i s = runWord i body s)
include h he

/-- A word whose checks have changed the memory system traps with no more done than that. -/
theorem traps_of_outcome_at {b : State} {x : Cause} (hb : body c t = c.trap x b) (k : OnlyMemory t b) : Traps i s b c x c.here := by
  obtain ⟨y, m, ho⟩ := k.owner? (issueOf_owner h)
  have hdeliver : exec i s = .next (b.deliver c.gid (wordTrap c x c.here)) := by
    rw [exec_of_outcome h he (hb.trans (trap_eq c x b))]
    show Host.Outcome.next (b.trapWord c.gid x c.here) = _
    unfold State.trapWord
    rw [(owner?_group ho).1]
    rfl
  refine ⟨fun hterm => ?_, fun hgoes => ⟨_, hdeliver, ?_⟩⟩
  · rw [hdeliver]
    unfold State.deliver
    rw [ho]
    exact congrArg Host.Outcome.next (if_pos hterm)
  · obtain ⟨hrest, hothers, hgroup⟩ := deliver_spec (wordTrap c x c.here) true ho hgoes
    exact ⟨hrest, hothers, hgroup⟩

/-- A word that is left to a later issue, the walks alone changed. -/
theorem waits_of_outcome {v : State} {vas : List Nat} (hw : t.waitWalks c.core c.o.l.aspace vas = some v)
    (hb : body c t = .left v) : WaitsForWalks i s t v :=
  ⟨exec_of_outcome h he hb, State.waitWalks_eq hw⟩

variable {R : State → State → Prop} {d : BitVec 7} {kind : OpKind} {k : Checked}
  {f : State → List (Option Target) → State × List (Nat × Option W32)}

theorem longWord_of_checked {out : State → Except (Cause × State) (State × List (Nat × Option W32))}
    (hb : body c t = c.long t kind d out) (hout : out t = k.outcome f) (hk : OnlyMemory t k.s)
    (hf : ∀ b ts, OnlyMemory t b → R t (f b ts).1) (hR : ∀ b, R t b → KeepsPlace t b) :
    LongWord R i s t c d (k.outcome f) kind := by
  unfold Ctx.long at hb
  rw [hout] at hb
  refine ⟨fun n hn => blocks_of_outcome h he (by rw [hb, hn]), fun hfull => ?_⟩
  rw [hfull] at hb
  obtain ⟨b, x | ts⟩ := k
  · exact ⟨hk, traps_of_outcome_at h he hb hk⟩
  · have hkeeps := hf b ts hk
    exact ⟨hkeeps, _, exec_of_outcome h he hb, startedFrom_addOp h ((hR _ hkeeps).samePlace c) kind d _⟩

/-- A word that accesses memory once its checks pass: it waits for walks, or is held back, or has the outcome of its checks. -/
theorem accessWord_of_checked {vas : Who → List Nat} {busy : Who → State → Bool}
    {out : Who → State → Except (Cause × State) (State × List (Nat × Option W32))}
    (hb : body c t = c.longWriteAccess t d vas busy out kind) (hk : OnlyMemory t k.s) (hout : out (c.who t) t = k.outcome f)
    (hf : ∀ b ts, OnlyMemory t b → R t (f b ts).1) (hR : ∀ b, R t b → KeepsPlace t b) :
    AccessWord R (vas (c.who t)) (busy (c.who t) t) i s t c d (k.outcome f) kind := by
  unfold Ctx.longWriteAccess at hb
  rw [who?_of_issueOf h] at hb
  refine ⟨fun v hw => ?_, fun hready => ⟨fun hbusy => ?_, fun hfree => ?_⟩⟩
  · exact waits_of_outcome h he hw (by simp only [hb, Ctx.who_core, Ctx.who_aspace, hw])
  · exact exec_of_outcome h he (x := .left t) (by simp only [hb, Ctx.who_core, Ctx.who_aspace, hready, hbusy, if_true])
  · exact longWord_of_checked h he (by simp only [hb, Ctx.who_core, Ctx.who_aspace, hready, hfree]; rfl) hout hk hf hR

end

end Sys2Proof.Machine
end

section
/-! SUPPORT. Synchronisation: cells, publishing and acquiring change the memory system only, and so do the lanes of a word that
synchronises but for the events that it counts (03 R86, R89, 11 R301 to R314). -/

namespace Sys2Proof.Machine

/-! ## Memory and counts (03 R86, R89) -/

theorem OnlyMemory.memoryAndCounts {s u : State} (k : OnlyMemory s u) : MemoryAndCounts s u := by
  refine ⟨?_, fun l => ?_, fun q => ?_, k.blocks, k.cores, k.clusters, k.chiplets⟩
  · rw [k.rest]
  · have hl : u.launch? l = s.launch? l := by rw [k.rest]; rfl
    rw [hl]
    cases s.launch? l with
    | none => exact ⟨[], [], rfl⟩
    | some y => exact ⟨y.counters, y.posted, rfl⟩
  · exact ⟨_, by rw [k.rest]; rfl⟩

namespace MemoryAndCounts

theorem refl (s : State) : MemoryAndCounts s s := (OnlyMemory.refl s).memoryAndCounts

theorem trans {s t u : State} (h : MemoryAndCounts s t) (k : MemoryAndCounts t u) : MemoryAndCounts s u := by
  refine ⟨?_, fun l => ?_, fun q => ?_, fun b => ?_, fun c => ?_, fun c => ?_, fun p => ?_⟩
  · have e := k.rest
    rw [h.rest] at e
    exact e
  · obtain ⟨a, b, e⟩ := h.launches l
    obtain ⟨a', b', e'⟩ := k.launches l
    exact ⟨a', b', by rw [e', e, Option.map_map]; rfl⟩
  · obtain ⟨n, e⟩ := h.queues q
    obtain ⟨n', e'⟩ := k.queues q
    exact ⟨n', by rw [e', e]⟩
  · obtain ⟨x, y, e⟩ := h.blocks b
    obtain ⟨x', y', e'⟩ := k.blocks b
    exact ⟨x', y', by rw [e', e, Option.map_map]; rfl⟩
  · obtain ⟨x, y, z, e⟩ := h.cores c
    obtain ⟨x', y', z', e'⟩ := k.cores c
    exact ⟨x', y', z', by rw [e', e]⟩
  · obtain ⟨x, e⟩ := h.clusters c
    obtain ⟨x', e'⟩ := k.clusters c
    exact ⟨x', by rw [e', e]⟩
  · obtain ⟨x, y, e⟩ := h.chiplets p
    obtain ⟨x', y', e'⟩ := k.chiplets p
    exact ⟨x', y', by rw [e', e]⟩

theorem keepsPlace {s u : State} (h : MemoryAndCounts s u) : KeepsPlace s u := by
  refine ⟨by rw [h.rest], fun b => ?_⟩
  obtain ⟨x, y, e⟩ := h.blocks b
  rw [e, Option.map_map]
  rfl

end MemoryAndCounts

namespace State

variable (s : State)

theorem counts_setLaunch {lid : Nat} {y : Launch} (h : s.launch? lid = some y) (k p : List Nat) :
    MemoryAndCounts s (s.setLaunch lid { y with counters := k, posted := p }) := by
  obtain ⟨-, hlaunches, hqueues, hblocks, hcores, hclusters, hchiplets⟩ := MemoryAndCounts.refl s
  refine ⟨rfl, fun l => ?_, hqueues, hblocks, hcores, hclusters, hchiplets⟩
  by_cases hl : l = lid
  · subst hl
    exact ⟨k, p, by rw [h, launch?_setLaunch]; rfl⟩
  · obtain ⟨a, b, e⟩ := hlaunches l
    exact ⟨a, b, (tget?_tput_other _ _ _ _ hl).trans e⟩

theorem counts_setQueue (q : Nat) (n : W64) : MemoryAndCounts s (s.setQueue q { s.queue q with count := n }) := by
  obtain ⟨-, hlaunches, hqueues, hblocks, hcores, hclusters, hchiplets⟩ := MemoryAndCounts.refl s
  refine ⟨rfl, hlaunches, fun r => ?_, hblocks, hcores, hclusters, hchiplets⟩
  by_cases hr : r = q
  · subst hr
    exact ⟨n, tgetD_tset_same ..⟩
  · exact ⟨_, tgetD_tset_other _ _ _ _ _ hr⟩

theorem counts_postEvent (q kind fmt ev : Nat) (w1 w2 w3 : W64) : MemoryAndCounts s (s.postEvent q kind fmt ev w1 w2 w3) := by
  unfold postEvent
  dsimp only
  split
  · exact .refl s
  · generalize hw : s.homeWrite _ _ = t
    have k : OnlyMemory s t := hw ▸ only_homeWrite ..
    have hq : s.queue q = t.queue q := by rw [k.rest]; rfl
    rw [hq]
    exact (k.memoryAndCounts.trans (counts_setQueue t q _)).trans (only_postMsix ..).memoryAndCounts

theorem counts_countEvent (lid : Nat) (e : FpEvent) (n : Nat) : MemoryAndCounts s (s.countEvent lid e n) := by
  unfold countEvent
  split
  · exact .refl s
  · rename_i y hy
    dsimp only
    split
    · exact (counts_setLaunch s hy _ _).trans (counts_postEvent ..)
    · exact counts_setLaunch s hy _ _

theorem counts_countEvents (lid : Nat) (l : List FpEvent) : MemoryAndCounts s (s.countEvents lid l) :=
  List.foldlRecOn l _ (motive := MemoryAndCounts s) (.refl s) fun t h e _ => h.trans (counts_countEvent t lid e 1)

/-! ## Cells (11 R301 to R303) -/

theorem only_clearFilter (core : Nat) : OnlyMemory s (s.clearFilter core) := .modCore _ _ _ fun _ => ⟨_, _, _, rfl⟩

theorem only_publishInto (core : Nat) (e : TlbEntry) (a : Nat) : OnlyMemory s (s.publishInto core e a) := only_homePut ..

theorem only_releasers (l : List (Nat × Nat)) : OnlyMemory s { s with releasers := l } := .fields s _ _ _ _ _ _ _ _ _ _ _ _

theorem only_cellRelease (core cid : Nat) (e : TlbEntry) (a scope : Nat) : OnlyMemory s (s.cellRelease core cid e a scope) := by
  unfold cellRelease
  dsimp only
  split
  · exact ((only_homePut ..).trans (only_releasers ..)).trans (only_publishInto ..)
  · exact (only_homePut ..).trans (only_releasers ..)

theorem only_acquire (core scope : Nat) (all : Bool) (cells : List (List Byte)) :
    OnlyMemory s (s.acquire core scope all cells) := by
  unfold acquire
  dsimp only
  split
  · exact only_dropSelf ..
  · exact (only_dropSelf ..).trans (.modCore _ _ _ fun _ => ⟨_, _, _, rfl⟩)

end State

/-! ## The lanes of a word that synchronises (11 R301 to R314) -/

section
variable {P : State → Prop} {c : Ctx} {u : Who} {n scope : Nat} {acq rel : Bool}
  {f : Option (Nat → List Byte → Option (List Byte) × List FpEvent)} (hm : ∀ {s t}, OnlyMemory s t → P s → P t)
  (he : ∀ g, f = some g → ∀ s i old, P s → P (s.countEvents c.lid (g i old).2))
include hm he

/-- What accesses and the counting of the word's events keep, a lane keeps. -/
theorem syncLane_keeps {acc : SyncAcc} (h : P acc.s) (x : Nat × Nat × Target) :
    P (syncLane c u n scope acq rel f acc x).s := by
  obtain ⟨i, a, _ | e⟩ := x
  · cases f with
    | none => exact h
    | some g => exact he g rfl _ _ _ (hm (State.only_targetRmw ..) h)
  · have hhome : P (acc.s.toHome u.core e a (if isCell (.mem e) a n && (acq || rel) then 128 else n)) :=
      hm (State.only_toHome ..) h
    cases f with
    | none => exact hhome
    | some g =>
      unfold syncLane
      dsimp only
      split
      · exact hm (State.only_cellRelease ..) (he g rfl _ i _ (hm (State.only_targetRmw ..) hhome))
      · exact he g rfl _ i _ (hm (State.only_targetRmw ..) hhome)

theorem syncWord_keeps {s : State} (h : P s) (l : List (Nat × Nat × Target)) : P (syncWord c u n scope acq rel f l s).s := by
  have hlanes (l : List (Nat × Nat × Target)) (acc : SyncAcc) (h : P acc.s) :
      P (l.foldl (syncLane c u n scope acq rel f) acc).s :=
    List.foldlRecOn l _ (motive := fun acc : SyncAcc => P acc.s) h fun _ h x _ => syncLane_keeps hm he h x
  have hpublish : P (if rel && decide (3 ≤ scope) && !l.isEmpty then s.cleanSelf u.core else s) := by
    split
    · exact hm (State.only_cleanSelf ..) h
    · exact h
  have hcleared (b : Bool) (r : SyncAcc) (h : P r.s) : P (if b then { r with s := r.s.clearFilter u.core } else r).s := by
    split
    · exact hm (State.only_clearFilter ..) h
    · exact h
  unfold syncWord
  dsimp only
  split
  · exact hm (State.only_acquire ..) (hlanes _ _ (hcleared _ _ (hlanes _ _ hpublish)))
  · exact hlanes _ _ (hcleared _ _ (hlanes _ _ hpublish))

end

theorem counts_syncWord (c : Ctx) (u : Who) (n scope : Nat) (acq rel : Bool)
    (f : Option (Nat → List Byte → Option (List Byte) × List FpEvent)) (l : List (Nat × Nat × Target)) {s b : State}
    (h : OnlyMemory s b) : MemoryAndCounts s (syncWord c u n scope acq rel f l b).s :=
  syncWord_keeps (P := MemoryAndCounts s) (fun k h => h.trans k.memoryAndCounts)
    (fun _ _ _ _ _ h => h.trans (State.counts_countEvents ..)) h.memoryAndCounts l

/-- A word that only reads changes the memory system only. -/
theorem only_syncWord_read (c : Ctx) (u : Who) (n scope : Nat) (acq rel : Bool) (l : List (Nat × Nat × Target)) {s b : State}
    (h : OnlyMemory s b) : OnlyMemory s (syncWord c u n scope acq rel none l b).s :=
  syncWord_keeps (P := OnlyMemory s) (fun k h => h.trans k) (fun _ hg => by cases hg) h l

/-- A word whose lanes store and count no event changes the memory system only. -/
theorem only_syncWord_store (c : Ctx) (u : Who) (n scope : Nat) (acq rel : Bool) (g : Nat → List Byte → Option (List Byte))
    (l : List (Nat × Nat × Target)) {s b : State} (h : OnlyMemory s b) :
    OnlyMemory s (syncWord c u n scope acq rel (some fun i old => (g i old, [])) l b).s :=
  syncWord_keeps (P := OnlyMemory s) (fun k h => h.trans k) (fun _ hg _ _ _ h => by cases hg; exact h) h l

end Sys2Proof.Machine
end

section
/-! SUPPORT. ATOM, ATOMCAS, REDM and SIGCLR: each is a word that accesses memory, whose outcome is that of the checks of its lanes
(11 R310 to R316). -/

namespace Sys2Proof.Machine

/-! ## ATOM, ATOMCAS and REDM (11 R310 to R314) -/

theorem exec_atom (w : VWord) (s : State) : exec (.atom w) s = execAtom w s := rfl
theorem exec_atomcas (w : VWord) (s : State) : exec (.atomcas w) s = execAtomcas w s := rfl
theorem exec_redm (w : VWord) (s : State) : exec (.redm w) s = execRedm w s := rfl

theorem only_writeTargets (c : Ctx) (u : Who) (s : State) (k : AccessKind) (acc : Accepts) (a : Nat → Nat) (n : Nat) :
    OnlyMemory s (writeTargets c u s k acc a n).s := only_checkAll ..

/-- A word whose body is an atomic: its lanes change the memory system and the counts of the events of their operation. -/
theorem atomicWord_of_atomic {i : Instr} {s t : State} {c : Ctx} {w : VWord} {ret : Bool}
    {f : Nat → Nat → Option Nat × List FpEvent} {body : Ctx → State → WordOut} (h : issueOf i s = some (c, t))
    (he : exec i s = runWord i body s) (hb : body c t = atomic c w ret f t) : AtomicWord i s t c w ret f :=
  accessWord_of_checked h he (hb.trans (atomic.eq_1 ..))
    (only_writeTargets c (c.who t) t .rmw ⟨true, true⟩ (atomAddr c w) (4 * tyRegs w.ty)) rfl
    (fun _ _ => counts_syncWord _ _ _ _ _ _ _ _) fun _ => MemoryAndCounts.keepsPlace

/-! ## SIGCLR (11 R316) -/

theorem exec_sigclr (w : VWord) (s : State) : exec (.sigclr w) s = execSigclr w s := rfl

/-- A lane of SIGCLR: the colophon of its cell and SAT are cleared at the home (11 R316). -/
def clearCell (core : Nat) (s : State) (x : Nat × Nat × Target) : State :=
  match x.2.2 with
  | .scr _ _ => s
  | .mem e =>
    let s := s.toHome core e x.2.1 128
    let l := s.homeRead e x.2.1 16
    s.homePut e x.2.1 (l.take 8 ++ bytesOfNat 8 (setField (cellControl l) 47 1 0).toNat ++ List.replicate 112 0)

theorem only_clearCell (core : Nat) (s : State) (x : Nat × Nat × Target) : OnlyMemory s (clearCell core s x) := by
  unfold clearCell
  split
  · exact .refl s
  · exact (State.only_toHome ..).trans (State.only_homePut ..)

theorem sigclr_clears {w : VWord} {s t : State} {c : Ctx} (h : issueOf (.sigclr w) s = some (c, t)) :
    let a (i : Nat) : Nat := (c.rdw w.a i).toNat
    AccessWord OnlyMemory (walkAddrs (c.who t) .write (c.realWants a 128))
      (writesBusy c (c.who t) t .write ⟨false, false⟩ a 128) (.sigclr w) s t c 127
      ((writeTargets c (c.who t) t .write ⟨false, false⟩ a 128).outcome fun b ts =>
        ((laneTargets c a ts).foldl (clearCell c.core) b, [])) :=
  accessWord_of_checked h (exec_sigclr w s) rfl (only_writeTargets ..) rfl
    (fun b _ k => k.trans (.foldl (only_clearCell c.core) _ b)) fun _ => OnlyMemory.keepsPlace

/-- Settles O32: after their checks the lanes go one by one, and what each may change is the memory system and, of an atomic, counts. -/
theorem atomicWords : Obligations.AtomicWords :=
  ⟨fun w s _ _ h => atomicWord_of_atomic h (exec_atom w s) rfl, fun w s _ _ h => atomicWord_of_atomic h (exec_atomcas w s) rfl,
    fun w s _ _ h => atomicWord_of_atomic h (exec_redm w s) rfl, fun _ _ _ _ h => sigclr_clears h⟩

end Sys2Proof.Machine
end

section
/-! SUPPORT. LDACQ, STREL, FENCE and promotions: the release, the acquire and what LDACQ.rm asks for before it (11 R301 to R315). -/

namespace Sys2Proof.Machine

/-! ## STREL (11 R302, R312) -/

theorem exec_strel (w : MWord) (s : State) : exec (.strel w) s = execStrel w s := rfl

theorem strel_releases {w : MWord} {s t : State} {c : Ctx} (h : issueOf (.strel w) s = some (c, t)) :
    AccessWord OnlyMemory (walkAddrs (c.who t) .write (c.realWants (mAddr c w 8) 8))
      (writesBusy c (c.who t) t .write ⟨false, true⟩ (mAddr c w 8) 8) (.strel w) s t c 127
      ((writeTargets c (c.who t) t .write ⟨false, true⟩ (mAddr c w 8) 8).outcome fun b ts =>
        ((syncWord c (c.who t) 8 w.size.toNat false true (some fun i _ => (some (c.dataBytes w.d 8 i), []))
          (laneTargets c (mAddr c w 8) ts) b).s, [])) :=
  accessWord_of_checked h (exec_strel w s) rfl (only_writeTargets ..) rfl
    (fun _ _ => only_syncWord_store c _ 8 _ false true (fun i _ => some (c.dataBytes w.d 8 i)) _) fun _ => OnlyMemory.keepsPlace

/-! ## LDACQ (11 R306, R313) -/

theorem exec_ldacq (w : MWord) (s : State) : exec (.ldacq w) s = execLdacq w s := rfl

/-- A hint other than `.rm` asks for no promotion. -/
theorem wantsPromotion_of_hint (c : Ctx) (s : State) {w : MWord} (hw : w.sched.h ≠ 1) : wantsPromotion c w s = [] := by
  have hnone : promotions c w s = [] := if_pos (by rw [bne_iff_ne.2 hw, Bool.true_or])
  rw [wantsPromotion, hnone]
  rfl

theorem oneGroup_again (c : Ctx) (s : State) : OneGroup c.gid c.core s (c.again s) := by
  unfold Ctx.again
  exact oneGroup_modCore _ _ _ _ fun _ => rfl

/-- The group of an LDACQ.rm that has asked for the promotions of cells, its word at its issue still. -/
def Ctx.asked (c : Ctx) (cells : List Nat) : Group := { c.o.g with run := some { c.r with asked := unionNat cells c.r.asked } }

/-- What an LDACQ.rm leaves that asks for the promotions of cells: they come first, and then its issue again. -/
def Ctx.asking (c : Ctx) (w : MWord) (t : State) (cells : List Nat) : State :=
  { (c.again t).setGroup c.gid (c.asked cells) with
    agenda := (cells.map fun x => Event.op (.remotePromotionRequest c.core x w.size.toNat)) ++ .issue c.gid :: t.agenda }

section
variable {w : MWord} {s t : State} {c : Ctx} (h : issueOf (.ldacq w) s = some (c, t))
include h

/-- With no promotion to ask for, the cells are read and acquired. -/
theorem ldacq_acquires (hno : wantsPromotion c w t = []) :
    let k := writeTargets c (c.who t) t .read ⟨false, true⟩ (mAddr c w 8) 8
    AccessWord OnlyMemory (walkAddrs (c.who t) .read (c.realWants (mAddr c w 8) 8)) (peerWaits c c.real k (mAddr c w 8))
      (.ldacq w) s t c w.d
      (k.outcome fun b ts =>
        let r := syncWord c (c.who t) 8 w.size.toNat true false none (laneTargets c (mAddr c w 8) ts) b
        (r.s, resultKeys w.d (r.old.map fun e => (e.1, (bytesRegs e.2).map some)))) .acquire := by
  refine accessWord_of_checked h (exec_ldacq w s) (if_neg ?_) (only_writeTargets ..) rfl
    (fun _ _ => only_syncWord_read _ _ _ _ _ _ _) fun _ => OnlyMemory.keepsPlace
  rw [hno]
  split
  · split <;> simp
  · simp

/-- Where its checks pass, an LDACQ.rm first asks for its promotions, each once. -/
theorem ldacq_asks {b : State} {ts : List (Option Target)} (hfull : c.full = none) (hwant : wantsPromotion c w t ≠ [])
    (htargets : writeTargets c (c.who t) t .read ⟨false, true⟩ (mAddr c w 8) 8 = ⟨b, .ok ts⟩)
    (hready : t.waitWalks c.core c.o.l.aspace (walkAddrs (c.who t) .read (c.realWants (mAddr c w 8) 8)) = none) :
    let cells := (wantsPromotion c w t).map fun x => x.1.phys x.2.1 / 128
    ∃ u g, exec (.ldacq w) s = .next u ∧ u = { t with groups := u.groups, cores := u.cores, agenda := u.agenda } ∧
      u.agenda = (cells.map fun x => Event.op (.remotePromotionRequest c.core x w.size.toNat)) ++ .issue c.gid :: t.agenda ∧
      Others c.gid c.core t u ∧ u.group? c.gid = some g ∧
      g = { c.o.g with run := some { c.r with asked := unionNat cells c.r.asked } } := by
  intro cells
  have hagain : (c.again t).group? c.gid = some { c.o.g with run := some c.r } := (issueOf_start h).2.1
  obtain ⟨hgroups, hcores, hown⟩ := ((oneGroup_again c t).trans (oneGroup_setGroup _ c.gid c.core (c.asked cells))).others
  refine ⟨c.asking w t cells, c.asked cells, exec_of_outcome h (exec_ldacq w s) (x := .left (c.asking w t cells)) ?_, rfl, rfl,
    ⟨hgroups, hcores, hown⟩, State.group?_setGroup .., rfl⟩
  simp only [who?_of_issueOf h, Ctx.who_core, Ctx.who_aspace, hready, htargets, hfull, modGroup_eq _ hagain, Ctx.asking, cells,
    List.map_map]
  exact if_pos (by simpa using hwant)

end

/-! ## FENCE (11 R315) -/

theorem exec_fence (w : VWord) (s : State) : exec (.fence w) s = execFence w s := rfl

/-- A word that does nothing completes. -/
theorem completes_of_done {i : Instr} {s t : State} {c : Ctx} {body : Ctx → State → WordOut} (h : issueOf i s = some (c, t))
    (he : exec i s = runWord i body s) (hb : body c t = .done t []) (d : BitVec 7) : Completes i s c [] d fun _ => [] :=
  ⟨_, exec_of_outcome h he hb, (wroteFrom_advance h (samePlace_refl c t) [] d).ofIssued h⟩

section
variable {w : VWord} {s t : State} {c : Ctx} (h : issueOf (.fence w) s = some (c, t))
include h

theorem fence_passes (hnone : c.real = [] ∨ w.e.toNat % 8 < 3) : Completes (.fence w) s c [] 124 fun _ => [] :=
  completes_of_done h (exec_fence w s) (if_pos (by simpa using hnone)) 124

theorem fence_acts (hsome : c.real ≠ [] ∧ 3 ≤ w.e.toNat % 8) :
    let scope := w.e.toNat % 8
    let kind := w.e.toNat / 8 % 4
    let b := if kind = 0 then t else t.cleanSelf c.core
    ∃ u, exec (.fence w) s = .next u ∧ OnlyMemory t (if kind = 1 then b else b.acquire c.core scope false []) ∧
      MovedOn c (if kind = 1 then b else b.acquire c.core scope false []) u [] := by
  intro scope kind b
  have hclean : OnlyMemory t b := by
    unfold b
    split
    · exact .refl t
    · exact State.only_cleanSelf ..
  have hall : OnlyMemory t (if kind = 1 then b else b.acquire c.core scope false []) := by
    split
    · exact hclean
    · exact hclean.trans (State.only_acquire ..)
  obtain ⟨u, hu, hm⟩ := movedOn_of_outcome h (exec_fence w s) (if_neg (by simpa using hsome)) hall
  exact ⟨u, hu, hall, hm⟩

end

/-! ## Promotion (11 R306, R307) -/

theorem exec_remotePromotionRequest (acquirer cell scope : Nat) (s : State) :
    exec (.remotePromotionRequest acquirer cell scope) s = execRemotePromotionRequest acquirer cell scope s := rfl

/-- A list whose elements with one key give `y`, and whose others give nothing, gives `y`. -/
theorem findSome?_of_key {α β : Type} {l : List (Nat × α)} {f : Nat × α → Option β} {n : Nat} {v : α} {y : β}
    (hmem : (n, v) ∈ l) (hkey : ∀ e : Nat × α, e.1 = n → f e = some y)
    (hother : ∀ e : Nat × α, e.1 ≠ n → f e = none) : l.findSome? f = some y := by
  cases hl : l.findSome? f with
  | none =>
    have hnone := List.findSome?_eq_none_iff.1 hl _ hmem
    rw [hkey _ rfl] at hnone
    cases hnone
  | some z =>
    obtain ⟨e, -, he⟩ := List.exists_of_findSome?_eq_some hl
    by_cases hn : e.1 = n
    · exact he.symm.trans (hkey e hn)
    · rw [hother e hn] at he
      cases he

/-- A group at an LDACQ is in the table of groups. -/
theorem mem_groups_of_acquiring {s : State} {gid : Nat} {x : Ctx × MWord} (h : s.acquiring gid = some x) :
    ∃ g, (gid, g) ∈ s.groups := by
  unfold State.acquiring State.nextWord at h
  cases ho : s.owner? gid with
  | none => rw [ho] at h; cases h
  | some o => exact ⟨o.g, mem_of_tget? (owner?_group ho).1⟩

/-- The one group at an LDACQ is the acquirer whose cell is promoted. -/
theorem remotePromotionRequest_promotes {s : State} {c : Ctx} {w : MWord} {e : TlbEntry} {a k gid : Nat}
    (hacq : s.acquiring gid = some (c, w)) (honly : ∀ h, h ≠ gid → s.acquiring h = none)
    (hfind : (promotions c w s).find? (fun x => x.1.phys x.2.1 / 128 == e.phys a / 128) = some (e, a, k)) :
    let s0 := (s.cleanSelf k).toHome c.core e a 128
    let s1 := (s0.publishInto k e a).clearFilter k
    let l := s1.homeRead e a 16
    let u := s1.homePut e a (l.take 8 ++ bytesOfNat 8 (setField (cellControl l) 43 1 1).toNat)
    exec (.remotePromotionRequest c.core (e.phys a / 128) w.size.toNat) s = .next u ∧ OnlyMemory s u := by
  intro s0 s1 l u
  obtain ⟨g, hg⟩ := mem_groups_of_acquiring hacq
  refine ⟨?_, ((((State.only_cleanSelf ..).trans (State.only_toHome ..)).trans (State.only_publishInto ..)).trans
    (State.only_clearFilter ..)).trans (State.only_homePut ..)⟩
  rw [exec_remotePromotionRequest]
  unfold execRemotePromotionRequest
  rw [findSome?_of_key (y := (e, a, k)) hg (fun x hx => ?_) fun x hx => ?_]
  · simp [hx, hacq, hfind]
  · simp [honly _ hx]

/-- Settles O33: each word by the outcome of its checks, a fence by its scope and kind, and a promotion by the one group at an LDACQ. -/
theorem acquireAndRelease : Obligations.AcquireAndRelease :=
  ⟨fun _ _ c t h hno => ldacq_acquires h (hno.elim (wantsPromotion_of_hint c t) id), fun _ _ _ _ _ _ h => ldacq_asks h,
    fun _ _ _ _ => strel_releases, fun _ _ _ _ h => ⟨fence_passes h, fence_acts h⟩,
    fun _ _ _ _ _ _ _ => remotePromotionRequest_promotes⟩

end Sys2Proof.Machine
end

section
/-! SUPPORT. Publishing by an L1 that holds a physical line twice: the line is cleaned where it is found first (09 R249, 11 R301). -/

namespace Sys2Proof.Machine

/-- Core 0 with two L1 lines of physical line 2048, the first of them clean. No L1 comes to hold a physical line twice (09 R249), but
a `State` can hold such an L1. -/
def doubledLine : State :=
  State.reset.setCore 0 { Core.idle with l1 := [{ dirtyLine 0 with dirty := 0 }, dirtyLine 0] }

/-- Publishing finds the clean line and leaves the dirty one. -/
theorem mem_cleanSelf_doubledLine : dirtyLine 0 ∈ ((doubledLine.cleanSelf 0).core 0).l1 := by decide +kernel

/-- Refutes O35 in its first clause: the statement does not ask that an L1 holds a physical line once. Core 0 of `doubledLine` keeps
a dirty byte of a self-invalidating line. -/
theorem not_publishAndAcquire : ¬ Obligations.PublishAndAcquire := by
  rintro ⟨hclean, -, -⟩
  exact absurd (hclean doubledLine 0 (dirtyLine 0) mem_cleanSelf_doubledLine rfl) (by decide)

end Sys2Proof.Machine
end

section
/-! SUPPORT. Matrix words: what an operation made outstanding and an operation put into an engine's queue leave as it was, the ends of
an engine word with SIGN and without it, and the words of configurations, accumulators, tokens and convergence registers (12 R331
to R342). -/

namespace Sys2Proof.Machine

/-! ## Words that are done -/

/-- A change of the word's own block that leaves it at its core. -/
theorem samePlace_modBlock (c : Ctx) (t : State) {f : Block → Block} (hf : ∀ b, (f b).core = b.core) :
    SamePlace c t (t.modBlock c.bid f) := by
  refine ⟨State.group?_modBlock .., .inr ?_⟩
  show ((t.modBlock c.bid f).block? c.bid).map Block.core = (t.block? c.bid).map Block.core
  rw [State.block?_modBlock, Option.map_map]
  exact congrArg (Option.map · (t.block? c.bid)) (funext hf)

section
variable {i : Instr} {s t : State} {c : Ctx} {body : Ctx → State → WordOut} (h : issueOf i s = some (c, t))
include h

theorem started_of_outcome (he : exec i s = runWord i body s) {b : State} {kind : OpKind} {d : BitVec 7}
    {l : List (Nat × Option W32)} (hb : body c t = .done (b.addOp (c.op kind d) l) []) (k : SamePlace c t b) :
    ∃ u, exec i s = .next u ∧ StartedFrom c b u kind d l :=
  ⟨_, exec_of_outcome h he hb, startedFrom_addOp h k kind d l⟩

/-- The block of a word stands at its issue as its context has it. -/
theorem block?_of_issueOf : t.block? c.bid = some c.o.b := (owner?_group (issueOf_owner h)).2.1

theorem movedOn_of_samePlace (he : exec i s = runWord i body s) {b : State} (hb : body c t = .done b []) (k : SamePlace c t b) :
    ∃ u, exec i s = .next u ∧ MovedOn c b u [] := by
  obtain ⟨hg, hcore⟩ := k.core h
  exact ⟨_, exec_of_outcome h he hb, movedOn_advance [] hg rfl hcore⟩

end

/-! ## Operations made outstanding (02 R26) -/

/-- What a group has once an operation of its own is outstanding as number `n` with results `l`. -/
def Group.opened (g : Group) (n : Nat) (flag : Option Nat) (l : List (Nat × Option W32)) : Group :=
  { g with flags := raised flag g.flags
           pending := g.pending ++ (l.filter fun e => e.1 / 32 < 124).map fun e => ⟨e.1, n, e.2⟩ }

/-- An operation made outstanding changes its group, the table of operations and the next number. -/
theorem addOp_eq_setGroup {s : State} {o : Op} {g : Group} (l : List (Nat × Option W32)) (h : s.group? o.gid = some g) :
    s.addOp o l = ({ s with ops := tput s.ops s.fresh o, fresh := s.fresh + 1 } : State).setGroup o.gid
      (g.opened s.fresh o.flag l) := by
  have hg : ({ s with ops := tput s.ops s.fresh o, fresh := s.fresh + 1 } : State).group? o.gid = some g := h
  unfold State.addOp State.raiseFlag Group.opened
  cases o.flag with
  | none => exact modGroup_eq _ hg
  | some f =>
    dsimp only
    rw [modGroup_eq _ hg, modGroup_eq _ (State.group?_setGroup ..)]
    unfold State.setGroup
    dsimp only
    rw [tput_tput]
    rfl

section
variable {i : Instr} {s t : State} {c : Ctx} (h : issueOf i s = some (c, t)) (kind : OpKind) (d : BitVec 7)
  (l : List (Nat × Option W32))
include h

/-- The operation of a word at its issue. -/
theorem addOp_of_issueOf : t.addOp (c.op kind d) l =
    ({ t with ops := tput t.ops t.fresh (c.op kind d), fresh := t.fresh + 1 } : State).setGroup c.gid
      (c.started.opened t.fresh c.flag l) :=
  addOp_eq_setGroup l (issueOf_start h).2.1

theorem fresh_addOp_of_issueOf : (t.addOp (c.op kind d) l).fresh = t.fresh + 1 := by
  rw [addOp_of_issueOf h]
  rfl

theorem core_addOp_of_issueOf (k : Nat) : (t.addOp (c.op kind d) l).core k = t.core k := by
  rw [addOp_of_issueOf h]
  rfl

theorem block?_addOp_of_issueOf : (t.addOp (c.op kind d) l).block? c.bid = some c.o.b := by
  have hblock : t.block? c.bid = some c.o.b := block?_of_issueOf h
  rw [addOp_of_issueOf h]
  exact hblock

/-- The agenda and an operation made outstanding leave each other as they are. -/
theorem addOp_agenda_of_issueOf (x : List Event) :
    ({ t with agenda := x } : State).addOp (c.op kind d) l = { t.addOp (c.op kind d) l with agenda := x } := by
  rw [addOp_of_issueOf h]
  exact addOp_eq_setGroup (s := { t with agenda := x }) l (issueOf_start h).2.1

variable {kind d l}

/-- A word that has made its operation outstanding and has then changed no group, and no block's core, is done. -/
theorem movedOn_of_addOp {b : State} {body : Ctx → State → WordOut} (he : exec i s = runWord i body s)
    (hb : body c t = .done b []) (hgroups : b.groups = (t.addOp (c.op kind d) l).groups)
    (hblock : (b.block? c.bid).map Block.core = some c.core) : ∃ u, exec i s = .next u ∧ MovedOn c b u [] := by
  have hgroup : b.group? c.gid = some (c.started.opened t.fresh c.flag l) := by
    unfold State.group?
    rw [hgroups, addOp_of_issueOf h]
    exact State.group?_setGroup ..
  obtain ⟨x, hx, hcore⟩ := Option.map_eq_some_iff.1 hblock
  exact ⟨_, exec_of_outcome h he hb, movedOn_advance [] hgroup rfl (coreOfGroup_of hgroup hx hcore)⟩

end

/-! ## Operations that enter an engine's queue (12 R327, R337) -/

namespace State

/-- Range-lock entries stand in the clusters' tables (08 R213). -/
theorem takeLocks_rest {n : Nat} {l : List LockWant} {s t : State} (h : s.takeLocks n l = some t) :
    t = { s with clusters := t.clusters } := by
  induction l generalizing s with
  | nil => cases h; rfl
  | cons w l ih =>
    unfold takeLocks at h
    split at h
    · cases h
    · rw [ih h]
      rfl

/-- An operation enters the queue of its block's core, and no group and no block changes. -/
theorem pushEngine_enters {s b : State} {e : EngineOp} {need : EngineNeed} {x : Block} (h : s.pushEngine e need = some b)
    (hx : s.block? e.block = some x) : b.groups = s.groups ∧ b.blocks = s.blocks ∧
      (b.core x.core).engine = (s.core x.core).engine ++ [{ e with cfg := need.cfg, num := s.fresh }] := by
  unfold pushEngine at h
  obtain ⟨t, ht, rfl⟩ := Option.map_eq_some_iff.1 h
  rw [hx, takeLocks_rest ht]
  exact ⟨rfl, rfl, congrArg Core.engine (core_modCore_same _ _ _)⟩

end State

/-! ## Engine words (12 R331 to R337) -/

/-- The operation of an engine word with operands `vals`. -/
def Ctx.engineOp (c : Ctx) (t : State) (i : Instr) (vals : List W32) : EngineOp := ⟨i, c.bid, vals, [], 0, [t.fresh], false⟩

/-- The convergence register that a word with SIGN names. -/
def Ctx.convReg (c : Ctx) (w : VWord) : ConvReg := c.o.b.conv.getD (w.e.toNat % 8) ⟨[], [], none⟩

/-- That register with the word's signature. -/
def Ctx.signature (c : Ctx) (t : State) (i : Instr) (w : VWord) (vals : List W32) : ConvReg :=
  (c.convReg w).sign c.o.g.slot t.fresh (c.engineOp t i vals)

/-- The state with the word's operation outstanding and its signature in place. -/
def Ctx.withSignature (c : Ctx) (t : State) (i : Instr) (w : VWord) (vals : List W32) : State :=
  (t.addOp (c.op .engine w.d) []).modBlock c.bid fun y => { y with conv := y.conv.set (w.e.toNat % 8) (c.signature t i w vals) }

section
variable {c : Ctx} {t : State} {i : Instr} {w : VWord} {l : Nat} (vals : Nat → List W32) (hl : c.l0 = some l)
include hl

theorem engine_of_undeclared (hsign : w.ebit 3 = true) (hdecl : c.o.g.slot ∉ (c.convReg w).decl) :
    c.engine t i w vals = c.trap ⟨Cause.matrixMismatch, BitVec.ofNat 64 (w.e.toNat % 8 + 8), 0⟩ t := by
  unfold Ctx.convReg at hdecl
  simp only [Ctx.engine, hl, hsign, if_true, List.contains_eq_mem, hdecl, decide_false, Bool.not_false]

theorem engine_of_signed (hsign : w.ebit 3 = true) (hdecl : c.o.g.slot ∈ (c.convReg w).decl)
    (hsigned : c.o.g.slot ∈ (c.convReg w).signed) : c.engine t i w vals = .block (.sign (w.e.toNat % 8)) t := by
  unfold Ctx.convReg at hdecl hsigned
  simp only [Ctx.engine, hl, hsign, if_true, List.contains_eq_mem, hdecl, hsigned, decide_true, Bool.not_true, Bool.false_eq_true,
    if_false]

variable (hf : c.full = none) (hsign : w.ebit 3 = true) (hdecl : c.o.g.slot ∈ (c.convReg w).decl)
  (hsigned : c.o.g.slot ∉ (c.convReg w).signed)
include hf hsign hdecl hsigned

theorem engine_of_early_signature (hearly : (c.signature t i w (vals l)).signed ≠ (c.signature t i w (vals l)).decl) :
    c.engine t i w vals = .done (c.withSignature t i w (vals l)) [] := by
  unfold Ctx.signature Ctx.engineOp at hearly
  unfold Ctx.convReg at hdecl hsigned hearly
  simp only [Ctx.engine, hl, hf, hsign, if_true, List.contains_eq_mem, hdecl, hsigned, hearly, decide_true, decide_false,
    Bool.not_true, Bool.false_eq_true, if_false, beq_iff_eq]
  rfl

/-- The last signature ends the round, unless the round's entries cannot be taken (12 R334, log 93). -/
theorem engine_of_last_signature (hlast : (c.signature t i w (vals l)).signed = (c.signature t i w (vals l)).decl)
    {r : Option State} (hr : (c.withSignature t i w (vals l)).finishRound c.bid (w.e.toNat % 8) = r) :
    c.engine t i w vals = (r.map fun v => WordOut.settle v []).getD (.block (.rlt (t.engineTables (c.engineOp t i (vals l)))) t) := by
  unfold Ctx.withSignature at hr
  unfold Ctx.signature Ctx.engineOp at hr hlast
  unfold Ctx.convReg at hdecl hsigned hlast hr
  simp only [Ctx.engine, hl, hf, hsign, if_true, List.contains_eq_mem, hdecl, hsigned, hlast, decide_true, decide_false,
    Bool.not_true, Bool.false_eq_true, if_false, beq_iff_eq, hr]
  cases r <;> rfl

end

/-- A word whose body is that of an engine word behaves as one, with SIGN and without it. -/
theorem engineWord_of_exec {i : Instr} {w : VWord} {vals : Ctx → Nat → List W32}
    (he : ∀ s, exec i s = runWord i (fun c s => c.engine s i w (vals c)) s) : EngineWord i w vals := by
  intro s c t l h hl k e cv added
  have hadded : added.block? c.bid = some c.o.b := block?_addOp_of_issueOf h ..
  refine ⟨fun f hf hsign => ?_, fun x hf hsign hx => ?_, fun need hf hsign hneed hpush => ?_, fun need b hf hsign hneed hpush => ?_,
    fun hsign hdecl => ?_, fun hsign hdecl hsigned => ?_, fun hf hsign hdecl hsigned => ?_⟩
  · exact blocks_of_outcome h (he s) (by simp [Ctx.engine, hl, hf, hsign])
  · exact traps_of_outcome h (he s) (by simp [Ctx.engine, hl, hf, hsign, e, hx])
  · exact blocks_of_outcome h (he s) (by simp [Ctx.engine, hl, hf, hsign, e, hneed, hpush, added, State.engineTables])
  · obtain ⟨hgroups, hblocks, hqueue⟩ := State.pushEngine_enters hpush hadded
    rw [core_addOp_of_issueOf h, fresh_addOp_of_issueOf h] at hqueue
    refine ⟨movedOn_of_addOp h (he s) (by simp [Ctx.engine, hl, hf, hsign, e, hneed, hpush, added]) hgroups ?_, hqueue⟩
    unfold State.block?
    rw [hblocks]
    exact congrArg (Option.map Block.core) hadded
  · exact traps_of_outcome h (he s) (engine_of_undeclared _ hl hsign hdecl)
  · exact blocks_of_outcome h (he s) (engine_of_signed _ hl hsign hdecl hsigned)
  · refine ⟨fun hmore => movedOn_of_addOp h (he s) (engine_of_early_signature _ hl hf hsign hdecl hsigned hmore)
      (State.modBlock_groups ..) ?_, fun v hlast hv => ?_, fun hlast hv => ?_⟩
    · show (State.block? (State.modBlock ..) _).map _ = _
      rw [State.block?_modBlock, hadded]
      rfl
    · exact exec_of_outcome h (he s) (engine_of_last_signature _ hl hf hsign hdecl hsigned hlast hv)
    · exact blocks_of_outcome h (he s) (engine_of_last_signature _ hl hf hsign hdecl hsigned hlast hv)

/-! ## Tile configurations (12 R342) -/

theorem exec_tcfgw (w : VWord) (s : State) : exec (.tcfgw w) s = execTcfgw w s := rfl
theorem exec_tcfgr (w : VWord) (s : State) : exec (.tcfgr w) s = execTcfgr w s := rfl

theorem tcfgw_traps {w : VWord} {s t : State} {c : Ctx} {l : Nat} (h : issueOf (.tcfgw w) s = some (c, t)) (hl : c.l0 = some l)
    (hv : cfgOk (c.rd w.a l) = false) : Traps (.tcfgw w) s t c (Cause.operand 2) c.here :=
  traps_of_outcome h (exec_tcfgw w s) (by simp [hl, hv])

theorem tcfgw_writes {w : VWord} {s t : State} {c : Ctx} {l : Nat} (h : issueOf (.tcfgw w) s = some (c, t)) (hl : c.l0 = some l)
    (hv : cfgOk (c.rd w.a l) = true) : ∃ u, exec (.tcfgw w) s = .next u ∧ MovedOn c (t.modBlock c.bid fun b =>
      { b with tcfg := b.tcfg.set w.d.toNat (c.rd w.a l ||| 0x80000000) }) u [] :=
  movedOn_of_samePlace h (exec_tcfgw w s) (by simp [hl, hv]) (samePlace_modBlock c t fun _ => rfl)

theorem tcfgr_reads {w : VWord} {s t : State} {c : Ctx} (h : issueOf (.tcfgr w) s = some (c, t)) (hr : c.real ≠ []) :
    Completes (.tcfgr w) s c [] w.d fun _ => [c.o.b.tcfg.getD w.a.reg.toNat 0] :=
  completes_of_outcome h (exec_tcfgr w s) ((if_neg (by simpa using hr)).trans rfl)

/-! ## Accumulators (12 R339, R341) -/

theorem exec_accrd (w : VWord) (s : State) : exec (.accrd w) s = execAccrd w s := rfl
theorem exec_accwr (w : VWord) (s : State) : exec (.accwr w) s = execAccwr w s := rfl

/-- The elements that a lane reads or writes. -/
def accCount (w : VWord) : Nat := if w.ebit 5 then 4 else 1

theorem accMisaligned_eq_none {c : Ctx} {w : VWord} (h : w.ebit 5 = true → ∀ i ∈ c.real, (accIndex c w i).1 % 4 = 0) :
    accMisaligned c w = none := by
  unfold accMisaligned
  split
  · rename_i hx
    exact List.find?_eq_none.2 fun i hi => by simp [h hx i hi]
  · rfl

theorem accrd_traps {w : VWord} {s t : State} {c : Ctx} (h : issueOf (.accrd w) s = some (c, t)) (hact : c.act ≠ [])
    (ha : w.a.reg.toNat ∉ c.o.b.vectorTokens) :
    Traps (.accrd w) s t c ⟨Cause.token, BitVec.ofNat 64 w.a.reg.toNat, 0⟩ c.here :=
  traps_of_outcome h (exec_accrd w s) (by simp [hact, ha, tokenCause])

theorem accrd_reads {w : VWord} {s t : State} {c : Ctx} (h : issueOf (.accrd w) s = some (c, t)) (hact : c.act ≠ [])
    (ha : w.a.reg.toNat ∈ c.o.b.vectorTokens) (halign : w.ebit 5 = true → ∀ i ∈ c.real, (accIndex c w i).1 % 4 = 0) :
    Completes (.accrd w) s c [] w.d fun i =>
      if w.ebit 5 then
        if (accIndex c w i).1 % 4 = 0 then
          (List.range 4).map fun j => c.o.b.acc w.a.reg.toNat (accIndex c w i).2 ((accIndex c w i).1 + j)
        else [0, 0, 0, 0]
      else [c.o.b.acc w.a.reg.toNat (accIndex c w i).2 (accIndex c w i).1] := by
  refine completes_of_outcome h (exec_accrd w s) ?_
  simp only [List.isEmpty_iff, hact, List.contains_eq_mem, ha, decide_true, Bool.not_true, Bool.false_eq_true, if_false,
    accMisaligned_eq_none halign]
  refine congrArg (c.write t w.d) (funext fun i => ?_)
  by_cases hx : w.ebit 5 = true
  · by_cases hi : (accIndex c w i).1 % 4 = 0 <;> simp [hx, hi]
  · simp [hx]

/-- The place of element `j` of those that a lane writes. -/
def Ctx.accPlace (c : Ctx) (w : VWord) (i j : Nat) : Nat :=
  4096 * w.d.toNat + 64 * (accIndex c w i).2 + ((accIndex c w i).1 + j)

/-- An accumulator table after the writes of a lane. -/
def Ctx.accPut (c : Ctx) (w : VWord) (accs : List (Nat × W32)) (i : Nat) : List (Nat × W32) :=
  (List.range (accCount w)).foldl (fun x j => tset 0 x (c.accPlace w i j) (c.rd w.a i j)) accs

theorem foldl_setAcc (a : Nat) (row col : Nat → Nat) (v : Nat → W32) (l : List Nat) (b : Block) :
    l.foldl (fun b j => b.setAcc a (row j) (col j) (v j)) b =
      { b with accs := l.foldl (fun x j => tset 0 x (4096 * a + 64 * row j + col j) (v j)) b.accs } := by
  induction l generalizing b with
  | nil => rfl
  | cons j l ih => exact ih _

theorem foldl_lanes_setAcc (c : Ctx) (w : VWord) (l : List Nat) (b : Block) :
    l.foldl (fun b i => (List.range (accCount w)).foldl (fun b j =>
      b.setAcc w.d.toNat (accIndex c w i).2 ((accIndex c w i).1 + j) (c.rd w.a i j)) b) b =
      { b with accs := l.foldl (c.accPut w) b.accs } := by
  induction l generalizing b with
  | nil => rfl
  | cons i l ih =>
    rw [List.foldl_cons, foldl_setAcc w.d.toNat (fun _ => (accIndex c w i).2) (fun j => (accIndex c w i).1 + j)
      (fun j => c.rd w.a i j), ih]
    rfl

/-- Keys set one after the other leave every other key alone. -/
theorem tgetD_foldl_tset_other {α β : Type} [DecidableEq α] (d : α) (key : β → Nat) (v : β → α) (l : List β) {k : Nat}
    (h : ∀ x ∈ l, k ≠ key x) (t : List (Nat × α)) :
    tgetD d (l.foldl (fun t x => tset d t (key x) (v x)) t) k = tgetD d t k := by
  induction l generalizing t with
  | nil => rfl
  | cons x l ih =>
    rw [List.foldl_cons, ih (fun y hy => h y (.tail _ hy)), tgetD_tset_other _ _ _ _ _ (h x (.head _))]

theorem tgetD_accPut_other {c : Ctx} {w : VWord} {i k : Nat} (h : ∀ j, j < accCount w → k ≠ c.accPlace w i j)
    (x : List (Nat × W32)) : tgetD 0 (c.accPut w x i) k = tgetD 0 x k :=
  tgetD_foldl_tset_other 0 (c.accPlace w i) (fun j => c.rd w.a i j) _ (fun j hj => h j (List.mem_range.1 hj)) x

theorem tgetD_lanes_accPut_other {c : Ctx} {w : VWord} {l : List Nat} {k : Nat}
    (h : ∀ i ∈ l, ∀ j, j < accCount w → k ≠ c.accPlace w i j) (x : List (Nat × W32)) :
    tgetD 0 (l.foldl (c.accPut w) x) k = tgetD 0 x k := by
  induction l generalizing x with
  | nil => rfl
  | cons i l ih => rw [List.foldl_cons, ih (fun m hm => h m (.tail _ hm)), tgetD_accPut_other (h i (.head _))]

/-- A lane's elements read back: the places after one of them are others. -/
theorem tgetD_accPut_same (c : Ctx) (w : VWord) (i : Nat) {j : Nat} (hj : j < accCount w) (x : List (Nat × W32)) :
    tgetD 0 (c.accPut w x i) (c.accPlace w i j) = c.rd w.a i j := by
  obtain ⟨m, hm⟩ := Nat.exists_eq_add_of_lt hj
  have hsplit : List.range (accCount w) = List.range j ++ j :: (List.range m).map fun k => j + 1 + k := by
    rw [hm, show j + m + 1 = j + 1 + m by omega, List.range_add, List.range_succ, List.append_assoc]
    rfl
  unfold Ctx.accPut
  rw [hsplit, List.foldl_append, List.foldl_cons]
  refine (tgetD_foldl_tset_other 0 (c.accPlace w i) (fun j => c.rd w.a i j) _ (fun k hk => ?_) _).trans (tgetD_tset_same ..)
  obtain ⟨k, -, rfl⟩ := List.mem_map.1 hk
  unfold Ctx.accPlace
  omega

/-- The last lane that writes an element gives it its value (02 R41, 12 R341). -/
theorem tgetD_lanes_accPut_last {c : Ctx} {w : VWord} {i j : Nat} {rest : List Nat} (hj : j < accCount w)
    (h : ∀ k ∈ rest, ∀ m, m < accCount w → c.accPlace w i j ≠ c.accPlace w k m) (pre : List Nat) (x : List (Nat × W32)) :
    tgetD 0 ((pre ++ i :: rest).foldl (c.accPut w) x) (c.accPlace w i j) = c.rd w.a i j := by
  rw [List.foldl_append, List.foldl_cons, tgetD_lanes_accPut_other h, tgetD_accPut_same c w i hj]

theorem accwr_traps {w : VWord} {s t : State} {c : Ctx} (h : issueOf (.accwr w) s = some (c, t)) (hr : c.real ≠ [])
    (ha : w.d.toNat ∉ c.o.b.vectorTokens) : Traps (.accwr w) s t c ⟨Cause.token, BitVec.ofNat 64 w.d.toNat, 0⟩ c.here :=
  traps_of_outcome h (exec_accwr w s) (by simp [hr, ha, tokenCause])

theorem accwr_writes {w : VWord} {s t : State} {c : Ctx} (h : issueOf (.accwr w) s = some (c, t)) (hr : c.real ≠ [])
    (ha : w.d.toNat ∈ c.o.b.vectorTokens) (halign : w.ebit 5 = true → ∀ i ∈ c.real, (accIndex c w i).1 % 4 = 0) :
    ∃ u, exec (.accwr w) s = .next u ∧
      MovedOn c (t.setBlock c.bid { c.o.b with accs := c.real.foldl (c.accPut w) c.o.b.accs }) u [] := by
  have hblock := block?_of_issueOf h
  have hmod : t.modBlock c.bid (fun b => { b with accs := c.real.foldl (c.accPut w) b.accs }) =
      t.setBlock c.bid { c.o.b with accs := c.real.foldl (c.accPut w) c.o.b.accs } := by
    unfold State.modBlock
    rw [hblock]
  rw [← hmod]
  refine movedOn_of_samePlace h (exec_accwr w s) ?_ (samePlace_modBlock c t fun _ => rfl)
  simp only [List.isEmpty_iff, hr, List.contains_eq_mem, ha, decide_true, Bool.not_true, Bool.false_eq_true, if_false,
    accMisaligned_eq_none halign]
  exact congrArg (fun f => WordOut.done (t.modBlock c.bid f) []) (funext (foldl_lanes_setAcc c w c.real))

/-! ## Tokens (12 R339, R340) -/

theorem exec_tokgive (w : VWord) (s : State) : exec (.tokgive w) s = execTokgive w s := rfl
theorem exec_toktake (w : VWord) (s : State) : exec (.toktake w) s = execToktake w s := rfl

theorem tokgive_gives {w : VWord} {s t : State} {c : Ctx} (h : issueOf (.tokgive w) s = some (c, t)) (hr : c.real ≠ []) :
    ∃ u, exec (.tokgive w) s = .next u ∧ MovedOn c (t.modBlock c.bid fun b =>
      { b with vectorTokens := b.vectorTokens.filter (· != w.d.toNat) }) u [] :=
  movedOn_of_samePlace h (exec_tokgive w s) (by simp [hr]) (samePlace_modBlock c t fun _ => rfl)

section
variable {w : VWord} {s t : State} {c : Ctx} (h : issueOf (.toktake w) s = some (c, t)) (hr : c.real ≠ [])
include h hr

theorem toktake_blocks {f : Nat} (hf : c.full = some f) : Blocks (.toktake w) s t c (.flagFull f) :=
  blocks_of_outcome h (exec_toktake w s) (by simp [hr, hf])

/-- A TOKTAKE is outstanding, and where nothing is pending on the accumulator its completion is taken up next. -/
theorem toktake_starts (hf : c.full = none) : ∃ u, exec (.toktake w) s = .next u ∧
    StartedFrom c (if w.d.toNat ∈ c.o.b.vectorTokens ∨ t.accPending c.bid w.d.toNat = false
      then { t with agenda := .op (.toktakeCompletion t.fresh) :: t.agenda } else t) u (.token w.d.toNat) w.d [] := by
  have hagenda : (t.addOp (c.op (.token w.d.toNat) w.d) []).agenda = t.agenda := by
    rw [addOp_of_issueOf h]
    rfl
  by_cases hnow : w.d.toNat ∈ c.o.b.vectorTokens ∨ t.accPending c.bid w.d.toNat = false
  · rw [if_pos hnow]
    refine started_of_outcome h (exec_toktake w s) ?_ ⟨rfl, .inl rfl⟩
    rw [addOp_agenda_of_issueOf h]
    simp [hr, hf, hnow, hagenda]
  · rw [if_neg hnow]
    exact started_of_outcome h (exec_toktake w s) (by simp [hr, hf, hnow]) (samePlace_refl c t)

end

/-! ## Convergence registers (12 R332, R333) -/

theorem exec_cvdecl (w : VWord) (s : State) : exec (.cvdecl w) s = execCvdecl w s := rfl
theorem exec_cvq (w : VWord) (s : State) : exec (.cvq w) s = execCvq w s := rfl

section
variable {w : VWord} {s t : State} {c : Ctx} {l : Nat} (h : issueOf (.cvdecl w) s = some (c, t)) (hl : c.l0 = some l)
include h hl

theorem cvdecl_traps_slots (hv : (c.rd w.a l).toNat = 0 ∨ 2 ^ c.o.b.gslots.length ≤ (c.rd w.a l).toNat) :
    Traps (.cvdecl w) s t c (Cause.operand 6) c.here :=
  traps_of_outcome h (exec_cvdecl w s) (by simp [hl, hv])

variable (hpos : 0 < (c.rd w.a l).toNat) (hlt : (c.rd w.a l).toNat < 2 ^ c.o.b.gslots.length) {x : ConvReg}
  (hx : c.o.b.conv[w.e.toNat % 8]? = some x)
include hpos hlt hx

theorem cvdecl_traps_signed (hsigned : x.signed ≠ []) : Traps (.cvdecl w) s t c (Cause.operand 7) c.here :=
  traps_of_outcome h (exec_cvdecl w s) (by simp [hl, hx, Nat.ne_of_gt hpos, Nat.not_le.2 hlt, hsigned])

theorem cvdecl_declares (hsigned : x.signed = []) : ∃ u, exec (.cvdecl w) s = .next u ∧ MovedOn c (t.modBlock c.bid fun b =>
    { b with conv := b.conv.modify (w.e.toNat % 8) fun x => { x with decl := bitsOf 32 (c.rd w.a l).toNat } }) u [] :=
  movedOn_of_samePlace h (exec_cvdecl w s) (by simp [hl, hx, Nat.ne_of_gt hpos, Nat.not_le.2 hlt, hsigned])
    (samePlace_modBlock c t fun _ => rfl)

end

theorem cvq_reads {w : VWord} {s t : State} {c : Ctx} {x : ConvReg} (h : issueOf (.cvq w) s = some (c, t)) (hr : c.real ≠ [])
    (hx : c.o.b.conv[w.e.toNat % 8]? = some x) :
    Completes (.cvq w) s c [] w.d fun _ => [laneMask (if w.ebit 5 then x.signed else x.decl)] :=
  completes_of_outcome h (exec_cvq w s) (by simp [hr, hx])

/-! ## What the statement says of matrix words -/

/-- Settles O45: the engine words by their one body, and each other word by the outcome of its checks. -/
theorem matrixWords : Obligations.MatrixWords := by
  refine ⟨fun _ => engineWord_of_exec fun _ => rfl, fun _ => engineWord_of_exec fun _ => rfl,
    fun _ => engineWord_of_exec fun _ => rfl, fun _ => engineWord_of_exec fun _ => rfl, fun _ => engineWord_of_exec fun _ => rfl,
    fun _ => engineWord_of_exec fun _ => rfl, fun _ => engineWord_of_exec fun _ => rfl,
    fun _ _ _ _ _ h hl => ⟨tcfgw_traps h hl, tcfgw_writes h hl⟩, fun _ _ _ _ => tcfgr_reads,
    fun _ _ _ _ h hact => ⟨accrd_traps h hact, accrd_reads h hact⟩, fun w s c t h hr => ⟨accwr_traps h hr, fun ha halign => ?_⟩,
    fun _ _ _ _ => tokgive_gives, fun _ _ _ _ h hr => ⟨fun _ => toktake_blocks h hr, toktake_starts h hr⟩,
    fun _ _ _ _ _ h hl => ⟨cvdecl_traps_slots h hl, fun _ hpos hlt hx => ⟨cvdecl_traps_signed h hl hpos hlt hx,
      cvdecl_declares h hl hpos hlt hx⟩⟩, fun _ _ _ _ _ => cvq_reads⟩
  obtain ⟨u, hexec, hmoved⟩ := accwr_writes h hr ha halign
  refine ⟨_, u, hexec, hmoved, fun k hk => tgetD_lanes_accPut_other hk _, fun pre i rest hreal j hj hrest => ?_⟩
  rw [hreal]
  refine tgetD_lanes_accPut_last hj (fun k hk m hm => ?_) pre _
  have hother : 64 * (accIndex c w k).2 + ((accIndex c w k).1 + m) ≠ 64 * (accIndex c w i).2 + ((accIndex c w i).1 + j) :=
    hrest k hk m hm
  unfold Ctx.accPlace
  omega

end Sys2Proof.Machine
end

section
/-! SUPPORT. A TSTORE over the descriptor of a buffer at which a request waits: beside the bytes it stores, it has what they let be
granted granted next (08 R232, 12 R343, log 67). -/

namespace Sys2Proof.Machine

/-- `TSTORE` of tile 0. -/
def storeWord : VWord := ⟨⟨0, 0, 0, 0, 0, 0⟩, 0, ⟨0, 17⟩, ⟨0, 16⟩, ⟨0, 0⟩, 127⟩

/-- That word at the engine, with offset 0, stride 0 and a tile of one row of four f32 elements. -/
def storeOp : EngineOp :=
  { instr := .tstore storeWord, block := 1, vals := [0, 0], cfg := [0x80100003], num := 5, ops := [], mismatch := false }

/-- A group of block 1 waits for a free slot of the buffer whose descriptor stands at offset 0 of the block's scratchpad. -/
def awaitsSlot : State :=
  (State.reset.loadWord 0).modBlock 1 fun b => { b with bufq := [⟨0, true, 32, none⟩] }

theorem block?_awaitsSlot : (awaitsSlot.block? 1).isSome := by decide +kernel

/-- The store writes the first 16 bytes of the descriptor, and the request is taken up next. -/
theorem agenda_store_awaitsSlot :
    awaitsSlot.agenda = [.issue 32] ∧ (awaitsSlot.engineEffect storeOp).1.agenda = [.grant 1, .issue 32] := by decide +kernel

/-- Refutes O46 in its second clause, which keeps all but the block's scratchpad and HWM as it was: the store over the descriptor of
`awaitsSlot` puts a grant on the agenda. -/
theorem not_engineEffects : ¬ Obligations.EngineEffects := by
  rintro ⟨-, hstore, -⟩
  obtain ⟨hbefore, hafter⟩ := agenda_store_awaitsSlot
  obtain ⟨b, hb⟩ := Option.isSome_iff_exists.1 block?_awaitsSlot
  obtain ⟨l, n, heffect, -⟩ := hstore awaitsSlot storeOp b storeWord rfl hb
  have hsame : (awaitsSlot.engineEffect storeOp).1.agenda = awaitsSlot.agenda := by rw [heffect]; rfl
  rw [hbefore, hafter] at hsame
  exact absurd hsame (by decide)

end Sys2Proof.Machine
end

section
/-! SUPPORT. The events of the engines and their twins: a record posted to the queues keeps every block, so that a comparator's reading
changes its core and the clusters of its pair only (12 R321, R322, 15 R399 to R401). -/

namespace Sys2Proof.Machine

/-! ## Blocks stay while lines move between the caches and memory -/

theorem foldl_blocks {α : Type} {f : State → α → State} (h : ∀ s x, (f s x).blocks = s.blocks) (l : List α) (s : State) :
    (l.foldl f s).blocks = s.blocks :=
  List.foldlRecOn l f (motive := fun t => t.blocks = s.blocks) rfl fun t ht x _ => (h t x).trans ht

theorem foldl_fst_blocks {α β : Type} {f : State × β → α → State × β} (h : ∀ a x, (f a x).1.blocks = a.1.blocks) (l : List α)
    (a : State × β) : (l.foldl f a).1.blocks = a.1.blocks :=
  List.foldlRecOn l f (motive := fun t => t.1.blocks = a.1.blocks) rfl fun t ht x _ => (h t x).trans ht

namespace State

variable (s : State)

@[simp] theorem storeLine_blocks (a : Nat) (m : BitVec 128) (d : BitVec 1024) : (s.storeLine a m d).blocks = s.blocks := by
  unfold storeLine
  split <;> rfl

@[simp] theorem spareLine_blocks (a : Nat) (m : BitVec 128) : (s.spareLine a m).blocks = s.blocks :=
  storeLine_blocks { s with bad := s.bad.filter (· != a) } ..

@[simp] theorem rawPutLine_blocks (a : Nat) (m : BitVec 128) (d : BitVec 1024) : (s.rawPutLine a m d).blocks = s.blocks := by
  unfold rawPutLine
  dsimp only
  split
  · simp
  · split <;> simp

@[simp] theorem modL2_blocks (p l : Nat) (f : L2Line → L2Line) : (s.modL2 p l f).blocks = s.blocks := rfl

@[simp] theorem mergeLine_blocks (p l : Nat) : (s.mergeLine p l).blocks = s.blocks := by
  unfold mergeLine
  split
  · rfl
  · split
    · rfl
    · refine (modL2_blocks ..).trans (foldl_fst_blocks (fun a x => ?_) _ _)
      split
      · rfl
      · split <;> rfl

@[simp] theorem rawRecall_blocks (l : Nat) : (s.rawRecall l).blocks = s.blocks := by
  unfold rawRecall
  dsimp only
  split
  · rfl
  · have hmerged := foldl_blocks (fun s p => mergeLine_blocks s p l) (s.l2Holders l) s
    refine (foldl_blocks (fun _ _ => modChiplet_blocks ..) _ _).trans
      ((foldl_blocks (fun _ _ => rawPutLine_blocks ..) _ _).trans ?_)
    split
    · exact (rawPutLine_blocks ..).trans hmerged
    · exact hmerged

@[simp] theorem snoopHost_blocks (a n : Nat) : (s.snoopHost a n).blocks = s.blocks := by
  unfold snoopHost
  split <;> rfl

@[simp] theorem backInvalidate_blocks (l : Nat) : (s.backInvalidate l).blocks = s.blocks := by
  unfold backInvalidate
  split <;> rfl

@[simp] theorem takeSectors_blocks (a n : Nat) : (s.takeSectors a n).blocks = s.blocks := by
  unfold takeSectors
  split
  · refine foldl_blocks (fun s x => ?_) _ _
    split
    · rfl
    · exact snoopHost_blocks s ..
  · rfl

@[simp] theorem rawWrite_blocks (a : Nat) (l : List Byte) : (s.rawWrite a l).blocks = s.blocks := by
  unfold rawWrite
  simp

@[simp] theorem putRecord_blocks (a b c d e f : Nat) : (s.putRecord a b c d e f).1.blocks = s.blocks := by
  unfold putRecord
  split
  · rfl
  · simp only [postMsix, rawWrite_blocks]

@[simp] theorem recordsOf_blocks (n : Nat) (l : Option Nat) : (s.recordsOf n l).blocks = s.blocks := by
  induction n generalizing s l with
  | zero => cases l <;> rfl
  | succ n ih =>
    cases l with
    | none => rfl
    | some l =>
      unfold recordsOf
      rw [ih, putRecord_blocks]

@[simp] theorem postError_blocks (a b c d e f : Nat) : (s.postError a b c d e f).blocks = s.blocks :=
  (recordsOf_blocks ..).trans (putRecord_blocks ..)

@[simp] theorem retireLine_blocks (l : Nat) (m : BitVec 128) : (s.retireLine l m).blocks = s.blocks :=
  (postError_blocks ..).trans (spareLine_blocks ..)

@[simp] theorem memPutLine_blocks (a : Nat) (m : BitVec 128) (d : BitVec 1024) : (s.memPutLine a m d).blocks = s.blocks := by
  unfold memPutLine
  dsimp only
  split <;> simp

@[simp] theorem memFetch_blocks (l : Nat) (m : BitVec 128) : (s.memFetch l m).blocks = s.blocks := by
  unfold memFetch
  split <;> simp

@[simp] theorem snoopL2_blocks (p l : Nat) (inv : Bool) : (s.snoopL2 p l inv).1.blocks = s.blocks := by
  unfold snoopL2
  dsimp only
  split
  · simp
  · dsimp only
    split <;> simp

@[simp] theorem llcEvict_blocks (x : LlcLine) : (s.llcEvict x).blocks = s.blocks := by
  unfold llcEvict llcWriteBack dropSectors
  simp only [memPutLine_blocks]
  refine foldl_fst_blocks (fun a p => ?_) _ (s, x)
  exact snoopL2_blocks a.1 p x.pline true

@[simp] theorem llcFetch_blocks (l : Nat) : (s.llcFetch l).blocks = s.blocks := by
  unfold llcFetch
  split
  · rfl
  · refine (memFetch_blocks ..).trans ?_
    split <;> simp

@[simp] theorem llcPut_blocks (l : Nat) (m : BitVec 128) (d : BitVec 1024) : (s.llcPut l m d).blocks = s.blocks := by
  unfold llcPut
  split
  · rfl
  · exact llcFetch_blocks ..

@[simp] theorem snoopOthers_blocks (p l : Nat) (inv : Bool) : (s.snoopOthers p l inv).blocks = s.blocks := by
  unfold snoopOthers
  refine foldl_blocks (fun s q => ?_) _ _
  split
  · rfl
  · split
    · rfl
    · split <;> simp

@[simp] theorem l2Evict_blocks (p l : Nat) : (s.l2Evict p l).blocks = s.blocks := by
  unfold l2Evict
  simp

@[simp] theorem l2Fetch_blocks (p l : Nat) (k : Place) : (s.l2Fetch p l k).blocks = s.blocks := by
  unfold l2Fetch
  split
  · rfl
  · rw [modChiplet_blocks, llcFetch_blocks, snoopOthers_blocks]
    split <;> simp

@[simp] theorem l2Own_blocks (p l : Nat) (k : Place) : (s.l2Own p l k).blocks = s.blocks := by
  unfold l2Own
  dsimp only
  split
  · simp
  · split <;> simp

@[simp] theorem l2Write_blocks (p l : Nat) (m : BitVec 128) (d : BitVec 1024) (k : Place) :
    (s.l2Write p l m d k).blocks = s.blocks := by
  unfold l2Write
  split <;> simp

@[simp] theorem recallHome_blocks (l : Nat) : (s.recallHome l).blocks = s.blocks := by
  unfold recallHome
  dsimp only
  split <;> simp

@[simp] theorem l1Down_blocks (c : Nat) (x : L1Line) : (s.l1Down c x).blocks = s.blocks := by
  unfold l1Down
  split
  · simp [foldl_blocks fun s t => takeSectors_blocks s t 64]
  · rfl

@[simp] theorem l1Out_blocks (c l : Nat) : (s.l1Out c l).blocks = s.blocks := by
  unfold l1Out
  split
  · rfl
  · dsimp only
    split <;> simp

@[simp] theorem removeMatching_blocks (n : Nat) (p : TlbEntry → Bool) : (s.removeMatching n p).blocks = s.blocks := by
  induction n generalizing s p with
  | zero => rfl
  | succ n ih =>
    unfold removeMatching
    split
    · rfl
    · exact (ih ..).trans (foldl_blocks (fun t (x : Nat × L1Line) => l1Out_blocks t x.1 x.2.pline) _ s)

@[simp] theorem homeWrite_blocks (a : Nat) (l : List Byte) : (s.homeWrite a l).blocks = s.blocks := by
  unfold homeWrite pteWritten removeEntries
  simp

/-! ## Records posted to the queues (16 R436) -/

@[simp] theorem postEvent_blocks (q kind fmt ev : Nat) (w1 w2 w3 : W64) :
    (s.postEvent q kind fmt ev w1 w2 w3).blocks = s.blocks := by
  unfold postEvent
  dsimp only
  split
  · rfl
  · simp only [postMsix, setQueue_blocks, homeWrite_blocks]

@[simp] theorem postAll_blocks (kind : Nat) (w1 w2 w3 : W64) : (s.postAll kind w1 w2 w3).blocks = s.blocks := by
  refine foldl_blocks (fun s (e : Nat × Queue) => ?_) _ _
  split <;> simp

theorem counts_postAll (kind : Nat) (w1 w2 w3 : W64) : MemoryAndCounts s (s.postAll kind w1 w2 w3) := by
  refine List.foldlRecOn _ _ (motive := MemoryAndCounts s) (.refl s) fun t ht e _ => ?_
  split
  · exact ht.trans (counts_postEvent ..)
  · exact ht

end State

/-! ## Engine completions and rounds (12 R322, R327, R335 to R337) -/

theorem exec_engineOpCompletion (core : Nat) (s : State) : exec (.engineOpCompletion core) s = execEngineOpCompletion core s := rfl
theorem exec_engineRoundDeferredIssue (b k : Nat) (s : State) :
    exec (.engineRoundDeferredIssue b k) s = execEngineRoundDeferredIssue b k s := rfl

theorem engineOpCompletion_performs {s : State} {core : Nat} {e : EngineOp} {rest : List EngineOp}
    (hqueue : (s.core core).engine = e :: rest) (hdrain : (s.core core).drain = false) (hlocks : s.lockWaits e.num = false) :
    let r := s.engineEffect e
    exec (.engineOpCompletion core) s = .next (((((r.1.modCore core fun k =>
      { k with engine := rest, drainHead := false }).freeLocks e.num).endSigners e.ops r.2)).wakeTokens e.block) := by
  simp [exec_engineOpCompletion, execEngineOpCompletion, hqueue, hdrain, hlocks]

theorem engineRoundDeferredIssue_finishes {s v : State} {b k : Nat} {x : Block} {cv : ConvReg} (hb : s.block? b = some x)
    (hcv : x.conv[k]? = some cv) (hsome : cv.signed ≠ []) (hall : cv.signed = cv.decl) (hv : s.finishRound b k = some v) :
    exec (.engineRoundDeferredIssue b k) s = .next v := by
  have hdecl : cv.decl ≠ [] := hall ▸ hsome
  simp [exec_engineRoundDeferredIssue, execEngineRoundDeferredIssue, hb, hcv, hdecl, hall, hv]

/-! ## Comparators (12 R321, 15 R399 to R401) -/

/-- From `s` to `u` no group and no block changes, and no core but in its L1 and its write-set filter. -/
structure KeepsTwins (s u : State) : Prop where
  groups : u.groups = s.groups
  blocks : u.blocks = s.blocks
  cores : ∀ k, ∃ a f g, u.core k = { s.core k with l1 := a, filter := f, filterSat := g }

namespace KeepsTwins

theorem refl (s : State) : KeepsTwins s s := ⟨rfl, rfl, (OnlyMemory.refl s).cores⟩

theorem trans {s t u : State} (h : KeepsTwins s t) (k : KeepsTwins t u) : KeepsTwins s u := by
  refine ⟨k.groups.trans h.groups, k.blocks.trans h.blocks, fun c => ?_⟩
  obtain ⟨x, y, z, e⟩ := h.cores c
  obtain ⟨x', y', z', e'⟩ := k.cores c
  exact ⟨x', y', z', by rw [e', e]⟩

theorem modCluster (s : State) (n : Nat) (f : Cluster → Cluster) : KeepsTwins s (s.modCluster n f) :=
  ⟨rfl, rfl, (refl s).cores⟩

theorem postAll (s : State) (kind : Nat) (w1 w2 w3 : W64) : KeepsTwins s (s.postAll kind w1 w2 w3) := by
  have h := State.counts_postAll s kind w1 w2 w3
  exact ⟨by rw [h.rest], State.postAll_blocks .., h.cores⟩

end KeepsTwins

namespace State

/-- Both clusters of a core's pair stop, or run again. -/
def setStopped (s : State) (core : Nat) (x : Bool) : State :=
  (s.modCluster (clusterOf core) fun c => { c with stopped := x }).modCluster (pairOf (clusterOf core)) fun c =>
    { c with stopped := x }

/-- The end of a comparator's reading: at 125 °C both clusters of the pair stop, with a record where the core's ran, until every
twin of the pair reads below TCOOL (15 R400, R401). -/
def stopPair (s : State) (core t0 t1 : Nat) : State :=
  if 125 ≤ max t0 t1 then
    if (s.cluster (clusterOf core)).stopped then s.setStopped core true
    else (s.setStopped core true).postAll 5 0
      (BitVec.ofNat 64 (((s.setStopped core true).logicalOf (coreSlot core)).getD 0 + 2 ^ 8 * (clusterOf core % 24 / 2 * 2))) 0
  else if s.coolNow (clusterOf core) && s.coolNow (pairOf (clusterOf core)) then s.setStopped core false
  else s

theorem keepsTwins_setStopped (s : State) (core : Nat) (x : Bool) : KeepsTwins s (s.setStopped core x) :=
  (KeepsTwins.modCluster ..).trans (.modCluster ..)

theorem keepsTwins_stopPair (s : State) (core t0 t1 : Nat) : KeepsTwins s (s.stopPair core t0 t1) := by
  have hstop := keepsTwins_setStopped s core
  unfold stopPair
  split
  · split
    · exact hstop true
    · exact (hstop true).trans (.postAll ..)
  · split
    · exact hstop false
    · exact .refl s

theorem stopped_setStopped (s : State) (core : Nat) (x : Bool) : ((s.setStopped core x).cluster (clusterOf core)).stopped = x ∧
    ((s.setStopped core x).cluster (pairOf (clusterOf core))).stopped = x := by
  have hne : clusterOf core ≠ pairOf (clusterOf core) := by
    unfold pairOf
    split <;> omega
  refine ⟨?_, congrArg Cluster.stopped (cluster_setCluster ..)⟩
  exact (congrArg Cluster.stopped (cluster_setCluster_other _ _ _ hne)).trans (congrArg Cluster.stopped (cluster_setCluster ..))

theorem stopped_stopPair (s : State) (core : Nat) {t0 t1 : Nat} (hot : 125 ≤ max t0 t1) :
    ((s.stopPair core t0 t1).cluster (clusterOf core)).stopped = true ∧
      ((s.stopPair core t0 t1).cluster (pairOf (clusterOf core))).stopped = true := by
  have hstop := stopped_setStopped s core true
  unfold stopPair
  rw [if_pos hot]
  split
  · exact hstop
  · have hclusters := (counts_postAll (s.setStopped core true) 5 0 (BitVec.ofNat 64
      (((s.setStopped core true).logicalOf (coreSlot core)).getD 0 + 2 ^ 8 * (clusterOf core % 24 / 2 * 2))) 0).clusters
    obtain ⟨_, hown⟩ := hclusters (clusterOf core)
    obtain ⟨_, hpair⟩ := hclusters (pairOf (clusterOf core))
    rw [hown, hpair]
    exact hstop

end State

theorem exec_twinComparatorReading (core t0 t1 : Nat) (s : State) :
    exec (.twinComparatorReading core t0 t1) s = execTwinComparatorReading core t0 t1 s := rfl

/-- A reading that is due is noted in its core and its cluster, and may then stop the pair. -/
theorem twinComparatorReading_reads {s : State} {core t0 t1 : Nat} (hpower : (s.chiplet (coreSlot core)).power = .active)
    (hcore : core < 864) (h0 : t0 < 256) (h1 : t1 < 256) (hdue : ∀ t, (s.core core).readAt = some t → t + State.us 1 ≤ s.now) :
    let k := s.core core
    let swap := s.thot ≤ (if k.twin then t1 else t0) ∧ (if k.twin then t0 else t1) < s.tcool ∧ k.lastSwap + State.us 50 ≤ s.now
    ∃ x f, exec (.twinComparatorReading core t0 t1) s =
        .next (((s.setCore core x).modCluster (clusterOf core) f).stopPair core t0 t1) ∧
      x.temp0 = t0 ∧ x.temp1 = t1 ∧ x.twin = k.twin ∧ x.readAt = some s.now ∧ x.engine = k.engine ∧
      (x.drain = true ↔ k.drain = true ∨ swap) := by
  have hreading : (s.core core).twinsDue s.now = true := by
    unfold Core.twinsDue
    cases hr : (s.core core).readAt with
    | none => rfl
    | some t => exact decide_eq_true (hdue t hr)
  rw [exec_twinComparatorReading]
  unfold execTwinComparatorReading
  rw [if_neg (by simp [hpower, hreading, hcore]), Nat.mod_eq_of_lt h0, Nat.mod_eq_of_lt h1]
  refine ⟨_, _, rfl, rfl, rfl, rfl, rfl, rfl, ?_⟩
  cases (s.core core).drain <;> simp [and_assoc]

/-! ## Swaps (12 R322) -/

theorem exec_twinSwapComplete (core : Nat) (s : State) : exec (.twinSwapComplete core) s = execTwinSwapComplete core s := rfl

theorem twinSwapComplete_swaps {s : State} {core : Nat} (hdrain : (s.core core).drain = true)
    (hdone : (s.core core).drainHead = false ∨ (s.core core).engine = []) :
    exec (.twinSwapComplete core) s = .next (s.setCore core { s.core core with
      twin := !(s.core core).twin, drain := false, drainHead := false, swaps := ((s.core core).swaps + 1) % 65536
      lastSwap := s.now }) := by
  rw [exec_twinSwapComplete]
  unfold execTwinSwapComplete
  refine if_neg ?_
  rcases hdone with hhead | hqueue
  · simp [hdrain, hhead]
  · simp [hdrain, hqueue]

/-! ## What the statement says of the engines' events -/

/-- Settles O47: each event by its case of the model, and a reading by what it notes and what the stop of its pair leaves. -/
theorem matrixEvents : Obligations.MatrixEvents := by
  refine ⟨fun _ _ _ _ => engineOpCompletion_performs, fun _ _ _ _ _ _ => engineRoundDeferredIssue_finishes,
    fun s core t0 t1 hpower hcore h0 h1 hdue => ?_, fun _ _ => twinSwapComplete_swaps⟩
  obtain ⟨x, f, hexec, htemp0, htemp1, htwin, hread, hengine, hdrain⟩ := twinComparatorReading_reads hpower hcore h0 h1 hdue
  have hkeeps := (KeepsTwins.modCluster (s.setCore core x) (clusterOf core) f).trans (State.keepsTwins_stopPair _ core t0 t1)
  obtain ⟨_, _, _, hown⟩ := hkeeps.cores core
  rw [State.core_setCore] at hown
  refine ⟨_, hexec, hkeeps.groups, hkeeps.blocks, ?_⟩
  rw [hown]
  exact ⟨htemp0, htemp1, htwin, hread, hengine, hdrain, State.stopped_stopPair _ core⟩

end Sys2Proof.Machine
end
